-- ==== Sys2Proof/Word.lean ====
section
/-!
DEFINITION. The word types of the block (R8: little-endian, bit 0 least significant).
-/

namespace Sys2Proof

/-- One byte. -/
abbrev Byte := BitVec 8

/-- One register word or vector element. -/
abbrev Word := BitVec 32

/-- One 64-bit value: an operand of a submission entry, a 64-bit counter. -/
abbrev DWord := BitVec 64

end Sys2Proof
end

