-- ==== Sys2Proof/Config.lean ====
section
/-!
DEFINITION. What the spec leaves open or takes from outside itself: the free values. Every constant here is opaque,
so nothing in Lean can evaluate it and no proof can rest on a value of it. The ones indexed by a Nat are read at the
counter `State.freeCtr`, which each reading advances; the others are functions of the operands they depend on.
-/

namespace Sys2Proof.Config

/-- The decision of an arbiter where the spec lets either side win (R66, R289, R520, R580, R591, R615). Log entry 4. -/
opaque arbiter : Nat → Bool

/-- Raw bit i of a die's noise source (R253). Log entry 5. -/
opaque noiseBit (die i : Nat) : Bool

/-- The data key and the tweak key that the CSU derives from its fused device key at a count of derivations, and those that
a key slot holds right after reset (R545). Log entry 5. -/
opaque derivedKey : Nat → BitVec 256 × BitVec 256
opaque resetKey : Nat → BitVec 256 × BitVec 256

/-- Whether an unpowered or damaged reading, a self-timed pause or another free choice falls one way. Log entry 4. -/
opaque freeWord : Nat → Word

/-- A word that reaches a sample's content and that no rule states: a function of the matter at hand, by its number, and of
the words that it is made of, so that equal runs meet equal words (R234, R257). Log entry 4. -/
opaque contentWord : Nat → List Nat → Word

/-- A byte of cluster-store space that no rule gives a content: the landed chunk, 0 in a stage's own space, and the address
(R212, R257, R468). Log entry 4. -/
opaque csByte : Nat → Nat → Byte

/-- The tile DMA engine of a die that a transfer at a host port runs on, by the transfer's number (R419, R574). Log
entry 56. -/
opaque engine : Nat → Nat

/-- An error of an SRAM or datapath word (R596): whether it could not be corrected, its unit (1 tile, 2 cluster, 3 die) and
which of the threads there the word belongs to, if to any. -/
structure SramError where
  uncorrected : Bool
  kind : Nat
  index : Nat
  thread : Option Nat
  deriving DecidableEq, Repr

/-- The word that errs in one µs, if any does. Log entry 71. -/
opaque sramError : Nat → Option SramError

/-- Byte i of a line that was corrected to a codeword other than the one stored (R548). Log entry 54. -/
opaque lineByte : Nat → Nat → Byte

/-- The FP32 value of a LACT function before conversion where Table 13.3 states no exact result, which the meaning holds
to the table's error bound: the segment tables are part of the interface but are not printed (R448). Log entry 6. -/
opaque lact : Nat → Word → Word

/-- The two FP32 outputs of BOXMULLER for the two 24-bit uniforms, which the meaning holds to their error bound (R247,
R449). Log entry 6. -/
opaque boxMuller : Nat → Nat → Word × Word

/-- The 1,025-knot transfer tables of Table 11.5: code and FP32 value (R374). Log entry 6. -/
opaque tfEncode : Nat → Word → Word
opaque tfLinear : Nat → Word → Word

/-- The key hash fused in the CSU (R632). Log entry 7. -/
opaque keyHash : List Byte

/-- One plane of a decoded picture: its size and its samples, row by row; none where the decoder reconstructed none. -/
structure Plane where
  w : Nat
  h : Nat
  samples : List (Option Nat)
  deriving DecidableEq, Repr, Inhabited

/-- One decoded picture as a context holds it: its number in decoding order and its place in output order, size, output
window, sampling, flags and planes (Table 9.4). -/
structure Pic where
  num : Nat
  order : Nat
  width : Nat
  height : Nat
  cropL : Nat
  cropT : Nat
  outW : Nat
  outH : Nat
  frame : Word
  rgb : Bool
  chroma : Nat
  depth : Nat
  alpha : Bool
  woven : Bool
  damagedRef : Bool
  concealed : Bool
  /-- its dimensions could not be established, or it has been dropped -/
  absent : Bool
  /-- its one cause of damage; 0 none -/
  cause : Byte
  subs : Byte
  planes : List Plane
  deriving DecidableEq, Repr, Inhabited

/-- An access unit as a context met it: FRAME, the record's flags, the source cause, and its bytes (none without data). -/
structure Au where
  frame : Word
  flags : Nat
  cause : Nat
  bytes : Option (List Byte)
  deriving DecidableEq, Repr, Inhabited

/-! What an external coding standard makes of an access unit (R303): the headers of the pictures that it codes, what their
data yields, and the order in which pictures leave. What this block's own rules make of that (limits, causes, inheritance,
bounds, concealment, containers, records) is the model's (Machine/Pictures.lean). -/

/-- One component of a picture as it is coded: what it holds (0 Y or G, 1 Cb or B, 2 Cr or R, 3 alpha), its sampling factors,
precision and size. -/
structure Comp where
  chan : Fin 4
  h : Nat
  v : Nat
  depth : Nat
  w : Nat
  ht : Nat
  deriving DecidableEq, Repr, Inhabited

/-- A coded picture's header: where in the access unit it has been read; size, window and components; the numbers of the
pictures it predicts from, and whether it depends on data before the record at which the stream began. `chroma` is CHROMA,
or 4 for 4:1:1. -/
structure Head where
  num : Nat
  at_ : Nat
  order : Nat
  width : Nat
  height : Nat
  cropL : Nat
  cropT : Nat
  outW : Nat
  outH : Nat
  rgb : Bool
  alpha : Bool
  woven : Bool
  chroma : Nat
  comps : List Comp
  refs : List Nat
  before : Bool
  deriving DecidableEq, Repr, Inhabited

/-- Tools that Table 9.2 excludes for one format or another; `other` stands for any that the table does not name. -/
inductive Tool where
  | fmo | aso | redundantSlices | switchingSlices | separatePlanes
  | crossComponent | extendedPrecision | persistentRice | screenContent
  | largeScaleTile
  | oddProfile
  | arithmetic | lossless | hierarchical
  | part2 | part15 | fileBoxes
  | oldVersion | oldMicroVersion
  | other
  deriving DecidableEq, Repr, Inhabited

/-- What a standard finds wrong with a picture's data (Table 9.5); a tool met is judged by Table 9.2. -/
inductive Flaw where
  | broken
  | tool (t : Tool)
  | noReference
  | hashMismatch
  | sliceCrc
  | noParams
  deriving DecidableEq, Repr, Inhabited

/-- One reconstructed sample: the byte reached and the work units of EU and RP spent when it is written, its component and
place, and its value. -/
structure Write where
  at_ : Nat
  eu : Nat
  rp : Nat
  plane : Nat
  x : Int
  y : Int
  v : Nat
  deriving DecidableEq, Repr, Inhabited

/-- What a picture's data yields: flaws by byte, and whether they lie in its headers so that no slice or tile can be placed;
the bytes at which decoding can begin anew (R323): slices and tiles of AVC and HEVC, tile groups of AV1, restart markers of
JPEG, code-blocks and tile-parts of JPEG 2000, slices of FFV1; the samples written, as if every flaw left its place readable;
the bytes read; and for a field without its complement, whether it is the bottom one. -/
structure Body where
  flaws : List (Nat × Flaw × Bool)
  resync : List Nat
  writes : List Write
  used : Nat
  unpaired : Option Bool
  deriving DecidableEq, Repr, Inhabited

/-- What decoding one access unit yields: one body for each header, the numbers of the pictures that leave the reordering in
output order, those the context still holds for reference, and the work units of EU and RP that all of it takes. -/
structure Decoded where
  bodies : List Body
  out : List Nat
  keep : List Nat
  eu : Nat
  rp : Nat
  deriving DecidableEq, Repr, Inhabited

/-- The headers of the pictures coded in an access unit: options, configuration bytes, the access units of the context before
it, and its bytes. Log entry 9. -/
opaque heads : List Nat → List Byte → List Au → List Byte → List Head

/-- Decoding of an access unit as its standard fixes it: options, configuration bytes, the access units before it, the pictures
held for reference, its bytes, the byte ranges of it that are skipped, and its headers (R304, R312). Log entry 9. -/
opaque decode (opts : List Nat) (config : List Byte) (before : List Au) (refs : List Pic) (bytes : List Byte)
    (skipped : List (Nat × Nat)) (heads : List Head) : Decoded

/-- operating_point_idc[0] of the sequence header in force in an AV1 stream: configuration bytes, the access units before, and
the unit's bytes. Log entry 9. -/
opaque operatingPoint : List Byte → List Au → List Byte → Nat

/-- The numbers of the pictures that the end-of-stream output process outputs (R312). Log entry 9. -/
opaque flush : List Nat → List Byte → List Au → List Nat

/-- Whether the fields of an FFV1 configuration record keep RFC 9043 (R311). Log entry 9. -/
opaque ffv1Fields : List Byte → Bool

/-- The HEVC profiles of a copy (R352). -/
inductive Profile where
  | main10
  | main422_10
  deriving DecidableEq, Repr, Inhabited

/-- How the cache encoder codes a picture (R351, R352, Table 10.4): its profile, size of a coding tree block, slices in a
picture, tiles, deblocking and SAO, the window that the conformance window gives, BYPASS, SEARCH, and the QPs of I and P
pictures. -/
structure Coding where
  profile : Profile
  ctb : Nat
  slices : Nat
  tiles : Bool
  deblocking : Bool
  sao : Bool
  window : Nat × Nat
  bypass : Bool
  search : Nat
  qpi : Nat
  qpp : Nat
  deriving DecidableEq, Repr, Inhabited

/-- The slice NAL units of one picture, and the planes that decoding it gives: by its coding, the preceding picture as decoded,
from which it predicts (none for an IDR picture), and the picture (R351, R354). Log entry 9. -/
opaque encode : Coding → Option (List Plane) → Pic → List Byte × List Plane

/-- The payloads of the VPS, SPS and PPS of a stream coded so (R351). Log entry 9. -/
opaque paramSets : Coding → List Byte × List Byte × List Byte

/-- Buffers of each pool class that a fused chain's stage needs for its output, from its template and parameter block
(R192); the count is not stated. Log entry 17. -/
opaque chainPool : Nat → List Byte → Nat → Nat

end Sys2Proof.Config
end

