-- ==== Sys2Proof/Syntax.lean ====
section
/-!
DEFINITION. The commands of the block: one constructor of `Instr` for each row of spec/opcode_table.json, in the
table's order, with the operands the row carries. What comes from outside the block (a bus write, a pin, a link
partner's answer, the bytes of a drive) is an operand; everything else the meaning reads from State.
-/

namespace Sys2Proof

/-- A thread of a Minuet: thread `n` of tile `t` (R194), or thread `n` of die `d`'s management Minuet (R235). -/
inductive ThreadRef where
  | tile (t : Fin 96) (n : Fin 32)
  | mgmt (d : Fin 4) (n : Fin 4)
  deriving DecidableEq, Repr

/-- The fields of an issued Orony instruction beside CLASS and OP (Table 6.2), and the thread that issues it. -/
structure Orony where
  /-- the issuing thread -/
  th : ThreadRef
  /-- PRED: guarding predicate -/
  pred : Fin 8
  /-- PNEG: the guard is the complement of PRED -/
  pneg : Bool
  /-- D: destination register number -/
  d : Fin 32
  /-- A: first source register number -/
  a : Fin 32
  /-- B: second source register number -/
  b : Fin 32
  /-- W: subword width or address space -/
  w : Fin 4
  /-- I: IMM replaces the operand named by B -/
  i : Bool
  /-- IMM -/
  imm : Word
  deriving DecidableEq, Repr

/-- An access as it reaches a BAR of a function (R86). -/
structure BusAccess where
  /-- the access is to BAR2, otherwise to BAR0 -/
  bar2 : Bool
  /-- byte offset in the BAR -/
  off : Nat
  /-- bytes accessed -/
  bytes : Nat
  /-- all byte enables are set -/
  enables : Bool
  /-- a write, otherwise a read -/
  write : Bool
  deriving DecidableEq, Repr

/-- The load averages that a CALIBRATE run measures (Table 5.6). -/
structure LoadContext where
  act : BitVec 16
  memu : BitVec 16
  vcore : BitVec 16
  tj : Byte
  pace : Word
  deriving DecidableEq, Repr

/-- What a read of a source's bytes returns, after the retries it is given, where the bytes are a drive's, which lies outside
the block, or where the host's answer is (R286, R287, R296). -/
inductive SourceRead where
  | data (bytes : List Byte)
  | timeout
  | gone
  /-- an NVMe error status: whether it reports a protection-information check failure -/
  | readError (pi : Bool)
  | hostError
  | partialRead
  deriving DecidableEq, Repr

/-- How the encoding of a TRANSCODE ended outside the block's own bookkeeping (Table 10.5). -/
inductive TranscodeEnd where
  /-- how each read of a drive or a host range that the input needs has ended, after its retries, in the order of use -/
  | read (reads : List SourceRead)
  /-- an input fetch ended at the given source, after its retries, at the byte offset -/
  | sourceTimeout (src : Word) (off : Nat)
  | sourceGone (src : Word)
  deriving DecidableEq, Repr

/-- An ATS translation response for one request of a transfer (R42, R294). -/
structure AtsAnswer where
  /-- request number within the transfer -/
  req : Nat
  /-- the 4 KiB page of host memory that the translation names -/
  page : Nat
  /-- the translation carries the needed permission -/
  granted : Bool
  /-- PRI is enabled for the function (R43) -/
  pri : Bool
  /-- the later outstanding requests that complete while the transfer halts -/
  done : List Nat
  deriving DecidableEq, Repr

/-- What the block samples when it leaves reset (Table 2.6, R645, R68). -/
structure Straps where
  testmode : Bool
  addr : BitVec 2
  /-- bit d: VFIXd_N is low, the die runs at a fixed voltage -/
  vfix : BitVec 4
  deriving DecidableEq, Repr

/-- A drive's arrival as its link shows it: the rate in GT/s at which the link trained (Table 2.3), and for how many ms
SPd_PRSNT_N has been low (Table 2.6). -/
structure LinkTrain where
  gtps : Nat
  stableMs : Nat
  deriving DecidableEq, Repr

/-- A namespace as a drive identifies it: NSID, LBA size in bytes, capacity in blocks. -/
structure NsIdent where
  nsid : Word
  lba : Nat
  blocks : Nat
  deriving DecidableEq, Repr

/-- The outcome of bringing a ready controller up (R55, R56, Table 2.4). -/
inductive DriveIdent where
  /-- identified: MDTS in bytes and the namespaces -/
  | ready (mdts : Nat) (nss : List NsIdent)
  /-- the failing step of Table 2.4 and the NVMe Status Field of its completion -/
  | failed (step : Byte) (sf : BitVec 15)
  deriving DecidableEq, Repr

/-- Where a position is issued from: the epoch of a queue, or a CALIBRATE command (R268, R174). -/
inductive IssueFrom where
  | epoch (q : Fin 64)
  | calibration (c : Nat)
  deriving DecidableEq, Repr

/-- How a fetch attempt or request ended at its port (R285 to R291). -/
inductive FetchEnd where
  | data (bytes : List Byte)
  /-- NVMe error status: DNR, and whether it reports a protection-information check failure -/
  | nvmeError (dnr pi : Bool)
  /-- a host read ended Unsupported Request, Completer Abort or poisoned -/
  | hostError
  /-- a host read ended at an unresolvable translation fault after the bytes given -/
  | hostFault (bytes : Nat)
  /-- the attempt's source is gone -/
  | gone
  deriving DecidableEq, Repr

/-- A 64-byte line as it is read, against the codewords of distance 5 (R63, R548): bytes by which it differs from the
line that was stored, and from the nearest other codeword. -/
structure LineRead where
  bad : Nat
  other : Nat
  deriving DecidableEq, Repr

/-- Who made a crossing register access (R28). -/
inductive AccessFrom where
  | host
  | mgmt (d n : Fin 4) (dst : Fin 32)
  /-- SMBus command 0x20, with the four offset bytes it carried -/
  | smbus (bytes : List Byte)
  deriving DecidableEq, Repr

/-- A crossing register access that its target does not answer: who made it, a read or a write, the target's unit
in the encoding of Table 18.3. -/
structure CrossingAccess where
  src : AccessFrom
  write : Bool
  kind : Nat
  index : Nat
  deriving DecidableEq, Repr

/-- What the PGUs measure in one period (R647): per die VCORE power and current in 0.1 W and 0.1 A and VCORE in mV. -/
structure PowerReading where
  dw : List Nat
  da : List Nat
  mv : List Nat
  deriving DecidableEq, Repr

/-- The three causes of PGU_FAULT (R650). -/
inductive PguCause where
  | noAck
  | outputFault
  | vcoreRange
  deriving DecidableEq, Repr

/-- How host port training ended: the ports that trained, and those that have a link partner (R38, R628). -/
structure PortTraining where
  trained : BitVec 8
  partner : BitVec 8
  deriving DecidableEq, Repr

/-- A die asked for its identity, and whether the VAUX management path answers within 2 µs (R113). -/
structure DieAsked where
  die : Fin 4
  answers : Bool
  deriving DecidableEq, Repr

/-- A block that the SMBus host writes: its bytes, and the PEC byte where it sends one (R76, R112). -/
structure SmbusBlock where
  bytes : List Byte
  pec : Option Byte
  deriving DecidableEq, Repr

/-- A link that a drive leaves: its own link-down, or the ms for which its presence pin has been high (R57, R66). -/
structure LinkLeft where
  link : Fin 4
  absentMs : Option Nat
  deriving DecidableEq, Repr

/-- The events that a pace monitor counted, and those of them while the vector unit was the busy unit (R173, R624). -/
structure PaceCount where
  all : Nat
  vec : Nat
  deriving DecidableEq, Repr

/-- The commands: one constructor per row of the opcode table. -/
inductive Instr where
  /-- REGISTER_WRITE (R9). A write to a register field that has no row of its own takes effect according to the field's access code, with set-up writes checked under R103. -/
  | registerWrite (fn : Fin 16) (port : Fin 8) (off : Nat) (v : Word)
  /-- UNSUPPORTED_REQUEST (R87). An access that addresses no register (a reserved address or a badly shaped access) completes with Unsupported Request or is discarded, and BLK_UR_CNT advances. -/
  | unsupportedRequest (fn : Fin 16) (port : Fin 8) (a : BusAccess)
  /-- WRITE_ONE_TO_CLEAR (R94). Writing 1 to a W1C bit clears it unless hardware sets it in the same instant, and a cause still present sets it again at once. -/
  | writeOneToClear (fn : Fin 16) (port : Fin 8) (off : Nat) (v : Word)
  /-- BIT_ALIAS_WRITE (R98). A write to a bit alias word acts on the one addressed bit with data bit 0, under that bit's access code. -/
  | bitAliasWrite (fn : Fin 16) (port : Fin 8) (off : Nat) (v : Word)
  /-- HIGH_HALF_WRITE (R93). A write of the high half of a 64-bit register applies the new high half together with the pending low half from the same port, in one step. -/
  | highHalfWrite (fn : Fin 16) (port : Fin 8) (off : Nat) (v : Word)
  /-- LOW_HALF_WRITE (R93). A write of the low half of a 64-bit register is held as that port's pending low half. -/
  | lowHalfWrite (fn : Fin 16) (port : Fin 8) (off : Nat) (v : Word)
  /-- CFG_LOCK (R101). Writing 1 to BLK_LOCK.CFG_LOCK holds the fields of Table 3.3 until block reset. -/
  | cfgLock (port : Fin 8) (v : Word)
  /-- PART_CTRL_RESET (R588). A write of 1 to PART_CTRL.RESET starts a partition reset of partition p. -/
  | partCtrlReset (port : Fin 8) (p : Fin 16) (v : Word)
  /-- PART_CTRL_ENABLE (R107). Writing PART_CTRL.ENABLE enables VFp on its bound ports, or first resets the partition and then disables VFp. -/
  | partCtrlEnable (port : Fin 8) (p : Fin 16) (v : Word)
  /-- PART_KEY_SLOT (R546). A write that changes PART_KEY.SLOT resets the partition and then binds the new slot with freshly drawn keys. -/
  | partKeySlot (port : Fin 8) (p : Fin 16) (v : Word)
  /-- STEP_SRC_WRITE (R580). A write to PART_STEP.STEP_SRC changes the partition's step source for step events accepted after the write, with an arbiter deciding a coincident pin edge. -/
  | stepSrcWrite (port : Fin 8) (p : Fin 16) (v : Word) (edge : Option (Fin 4))
  /-- FUNCTION_LEVEL_RESET (R579). A CXL.io Function Level Reset of VFn or of PF0 is a partition reset of partition n or of partition 0. -/
  | functionLevelReset (fn : Fin 16)
  /-- Q_CTRL_ENABLE (R117). Setting or clearing Q_CTRL.ENABLE puts SQ q and CQ q in or out of service; enabling sets their indices to 0. -/
  | qCtrlEnable (fn : Fin 16) (port : Fin 8) (q : Fin 64) (v : Word)
  /-- Q_CTRL_DR_EN (R117). Setting or clearing Q_CTRL.DR_EN puts the delivery ring and cursor ring in or out of service; enabling sets the delivery ring indices to 0. -/
  | qCtrlDrEn (fn : Fin 16) (port : Fin 8) (q : Fin 64) (v : Word)
  /-- DB_SQ_PI (R120). A write to the SQ producer index is accepted within the ring bounds, or is ignored and sets DB_ERR. -/
  | dbSqPi (fn : Fin 16) (port : Fin 8) (q : Fin 64) (v : Word)
  /-- DB_CQ_CI (R120). A write to the CQ consumer index releases CQ slots when accepted, or is ignored and sets DB_ERR. -/
  | dbCqCi (fn : Fin 16) (port : Fin 8) (q : Fin 64) (v : Word)
  /-- DB_DR_PI (R120). A write to the delivery ring producer index posts delivery entries when accepted, or is ignored and sets DB_ERR. -/
  | dbDrPi (fn : Fin 16) (port : Fin 8) (q : Fin 64) (v : Word)
  /-- DB_STEP (R124). A write to DB_STEP is one step event of the owning partition when its step source is the doorbell, and is ignored and counted otherwise. -/
  | dbStep (fn : Fin 16) (port : Fin 8) (q : Fin 64) (v : Word)
  /-- PUSH_SLOT_WRITE (R125). A write into a push slot stores its bytes and sets the mask bits of the words it covers. -/
  | pushSlotWrite (fn : Fin 16) (port : Fin 8) (q : Fin 64) (off : Nat) (bytes : List Byte)
  /-- TAKE_SQ_ENTRY (R130). When the bound CQ has an unpromised slot, the block takes the next SQ entry in weighted round-robin, from the push slot or from the ring. -/
  | takeSqEntry (p : Fin 16)
  /-- COAL_US_EXPIRY (R133). COAL_US after the first mirrored completion since the last interrupt, the block raises the queue's interrupt. -/
  | coalUsExpiry (q : Fin 64)
  /-- NOP (R141). Command NOP completes OK. -/
  | nop (c : Nat)
  /-- RECIPE_LOAD (R167). Command RECIPE_LOAD reads a recipe image and checks it in the order of Table 5.4, loading it only when every step passes. -/
  | recipeLoad (c : Nat)
  /-- RECIPE_UNLOAD (R172). Command RECIPE_UNLOAD frees a recipe's reservations and its calibration record unless an epoch or a CALIBRATE uses the recipe. -/
  | recipeUnload (c : Nat)
  /-- MODEL_LOAD (R460). Command MODEL_LOAD reads a model image, checks it in the order of Table 14.3, and keeps one copy per die. -/
  | modelLoad (c : Nat)
  /-- MODEL_UNLOAD (R465). Command MODEL_UNLOAD removes a model's copies and part programs unless a loaded recipe names the model. -/
  | modelUnload (c : Nat)
  /-- DICT_LOAD (R488). Command DICT_LOAD reads and checks a dictionary image and stores it once per die. -/
  | dictLoad (c : Nat)
  /-- DICT_UNLOAD (R465). Command DICT_UNLOAD removes a dictionary unless a loaded recipe names it. -/
  | dictUnload (c : Nat)
  /-- CALIBRATE (R174). Command CALIBRATE runs a loaded recipe over calibration dataset entries so that its costs can be measured. -/
  | calibrate (c : Nat)
  /-- CALIBRATE_DONE (R177). When the calibration samples have finished, CALIBRATE writes and keeps the calibration record, or ends with a damage, timeout or source status. -/
  | calibrateDone (c : Nat) (m : LoadContext)
  /-- FUSED_CHAIN (R193). Command FUSED_CHAIN builds and loads a recipe from a Luond fused chain, checked in the order of Table 5.9. -/
  | fusedChain (c : Nat)
  /-- EPOCH_OPEN (R498). Command EPOCH_OPEN checks its operands in the order of Table 15.3, reserves resources, keys the permutation and opens the epoch. -/
  | epochOpen (c : Nat)
  /-- EPOCH_RESUME (R532). Command EPOCH_RESUME checks a cursor and its log records, and continues the epoch after the batch that the cursor closes. -/
  | epochResume (c : Nat)
  /-- EPOCH_CLOSE (R537). Command EPOCH_CLOSE ends the epoch at once with DRAIN 0, or completes after the last cursor with DRAIN 1. -/
  | epochClose (c : Nat)
  /-- SOURCE_BIND (R263). Command SOURCE_BIND binds a source id to an NVMe namespace or a host range. -/
  | sourceBind (c : Nat)
  /-- SOURCE_UNBIND (R266). Command SOURCE_UNBIND stops new fetches from the source at once and discards its cache entries. -/
  | sourceUnbind (c : Nat)
  /-- SOURCE_UNBIND_DRAINED (R266). Once every fetch already issued from an unbound source has ended, SOURCE_UNBIND completes OK and the id is freed. -/
  | sourceUnbindDrained (c : Nat)
  /-- NS_GRANT (R267). Command NS_GRANT, issued from partition 0, grants a namespace to a partition or revokes the grant. -/
  | nsGrant (c : Nat)
  /-- TRANSCODE (R350). Command TRANSCODE decodes one decode stream and encodes it as a short-GOP HEVC copy. -/
  | transcode (c : Nat)
  /-- TRANSCODE_DONE (R359). When encoding ends, TRANSCODE binds the copy id and completes with an outcome of Table 10.5. -/
  | transcodeDone (c : Nat) (e : TranscodeEnd)
  /-- CACHE_RESERVE (R343). Command CACHE_RESERVE sets the partition's cache reservation and evicts unpinned entries as needed. -/
  | cacheReserve (c : Nat)
  /-- CACHE_PIN (R346). Command CACHE_PIN pins every present and future entry of a source. -/
  | cachePin (c : Nat)
  /-- CACHE_UNPIN (R346). Command CACHE_UNPIN removes the pinning of a source. -/
  | cacheUnpin (c : Nat)
  /-- CACHE_EVICT (R347). Command CACHE_EVICT discards the entries of a source, or with ALL every entry and copy of the partition. -/
  | cacheEvict (c : Nat)
  /-- TENSOR_CREATE (R403). Command TENSOR_CREATE checks a tensor descriptor in the order of Table 12.3 and returns a handle. -/
  | tensorCreate (c : Nat)
  /-- TENSOR_DESTROY (R408). Command TENSOR_DESTROY makes a tensor handle invalid for every later command. -/
  | tensorDestroy (c : Nat)
  /-- TENSOR_DESTROY_DRAINED (R408). TENSOR_DESTROY completes once every earlier command naming the handle has completed. -/
  | tensorDestroyDrained (c : Nat)
  /-- COPY (R412). Command COPY checks its slices and copies rectangular slices with padding clipped to each slice's own region. -/
  | copy (c : Nat)
  /-- COPY_LAYOUT (R417). Command COPY_LAYOUT copies every element between two tensors of different layouts. -/
  | copyLayout (c : Nat)
  /-- GATHER (R415). Command GATHER copies equal blocks named by a coordinate list into distinct destination blocks. -/
  | gather (c : Nat)
  /-- SCATTER (R416). Command SCATTER copies equal blocks to destinations, checking for aliasing unless it runs single-lane sequential. -/
  | scatter (c : Nat)
  /-- SPILL (R564). Command SPILL reserves the worst-case charge and stores one or two coded copies of a trainer range. -/
  | spill (c : Nat)
  /-- RESTORE (R568). Command RESTORE writes a spill handle's data back to trainer memory. -/
  | restore (c : Nat)
  /-- SPILL_FREE (R569). Command SPILL_FREE makes a spill handle invalid for every later command. -/
  | spillFree (c : Nat)
  /-- SPILL_FREE_DRAINED (R569). Once every earlier command naming the handle has completed, SPILL_FREE completes and returns the handle's charge. -/
  | spillFreeDrained (c : Nat)
  /-- EVENT_WAIT (R147). Command EVENT_WAIT completes with the next held event of its partition. -/
  | eventWait (c : Nat)
  /-- ABORT (R145). Command ABORT ends the first outstanding command with the target tag in the target SQ, which completes ABORTED. -/
  | abort (c : Nat)
  /-- TRANSFER_COMPLETE (R293). When the last request of a transfer has completed, the command, ticket or copy that owns the transfer completes. -/
  | transferComplete (x : Nat)
  /-- ATS_TRANSLATION_COMPLETION (R42). An ATS translation response arrives; without the needed permission, the block issues a page request and halts the transfer. -/
  | atsTranslationCompletion (x : Nat) (a : AtsAnswer)
  /-- PAGE_REQUEST_RESPONSE (R295). A page request response arrives: on success the transfer resumes at E, skipping the requests marked in MASK; on failure the fault is unresolvable. -/
  | pageRequestResponse (x : Nat) (ok : Bool)
  /-- PAGE_REQUEST_TIMEOUT (R296). No page request response within 500 ms makes the fault unresolvable. -/
  | pageRequestTimeout (x : Nat)
  /-- ATS_INVALIDATION (R44). A received ATS invalidation stops new use of the affected translations at once. -/
  | atsInvalidation (fn : Fin 16) (port : Fin 8) (lo hi : Nat)
  /-- INVALIDATION_COMPLETION (R44). Once every request issued with the invalidated translations has completed, the port sends the invalidation completion. -/
  | invalidationCompletion (port : Fin 8) (tag : Nat)
  /-- RETIREMENT_READ (R46). At least every 100 µs, while a partition has unretired writes on a port, the block issues a retirement read on that port. -/
  | retirementRead (port : Fin 8) (p : Fin 16)
  /-- HOST_LINK_DOWN (R665). A host port's link goes down: the occurrence is raised, partitions fail over, and each partition left without a port is stranded with a fault. -/
  | hostLinkDown (port : Fin 8)
  /-- HOST_LINK_UP (R664). A host link comes up, and a stranded partition resumes its traffic on it, issuing its waiting requests in their original order. -/
  | hostLinkUp (port : Fin 8)
  /-- MOVE_BACK_TO_PRIMARY (R49). Once the secondary holds no unretired writes, a partition whose primary link has returned moves back to the primary. -/
  | moveBackToPrimary (p : Fin 16)
  /-- HOST_REQUEST_TIMEOUT (R613). The host request completion timer expires: REQ_TIMEOUT is raised and the request is reissued, or after a second expiry the request is taken as Completer Abort. -/
  | hostRequestTimeout (port : Fin 8) (x : Nat)
  /-- HOST_PORT_TRAINING (R628). The boot ROM completes host port training, presents PF0 and sets HP_DONE. -/
  | hostPortTraining (links : PortTraining)
  /-- RESET_N_LOW (R68). An accepted low on RESET_N holds the block in reset. -/
  | resetNLow (lowNs : Nat)
  /-- PWR_GOOD_FALL (R69). An accepted fall of PWR_GOOD puts the block into reset at once, as a block-fatal event. -/
  | pwrGoodFall (lowNs : Nat)
  /-- REFCLK_LOSS (R69). The REFCLK loss detector reports loss and the block enters reset. -/
  | refclkLoss
  /-- RESET_RELEASE (R68). 100 µs after the last reset condition clears, the block leaves reset, checks its fuses and samples TESTMODE and the ADDR straps. -/
  | resetRelease (k : Straps)
  /-- STEP_EDGE (R70). An accepted rising edge on a STEP pin is one step event for every partition whose step source is that pin. -/
  | stepEdge (pin : Fin 4) (highNs : Nat)
  /-- STEP_STUCK (R72). A STEP pin high for 100 ms after an accepted edge is declared stuck and reported to its partitions. -/
  | stepStuck (pin : Fin 4)
  /-- STEP_STUCK_CLEAR (R72). An accepted low on a stuck STEP pin clears the stuck condition. -/
  | stepStuckClear (pin : Fin 4) (lowNs : Nat)
  /-- ALIVE_TOGGLE (R73). Every 500 µs while the block is healthy, ALIVE toggles. -/
  | aliveToggle
  /-- SMBUS_IDENTITY (R113). SMBus command 0x00 returns BLK_ID, BLK_VERSION and the module serial. -/
  | smbusIdentity (addr : BitVec 7)
  /-- SMBUS_DIE_IDENTITY (R113). SMBus commands 0x01 to 0x04 return a die's fuse identity over the VAUX management path. -/
  | smbusDieIdentity (addr : BitVec 7) (d : DieAsked)
  /-- SMBUS_HEALTH (R112). SMBus command 0x10 returns BLK_STATUS, each die's Tj, and the THERM_N and ALIVE state. -/
  | smbusHealth (addr : BitVec 7)
  /-- SMBUS_REGISTER_READ (R112). SMBus command 0x20 reads one BAR0 word without side effects and returns a status byte with the data. -/
  | smbusRegisterRead (addr : BitVec 7) (block : SmbusBlock)
  /-- SMBUS_UNKNOWN_COMMAND (R112). Any other SMBus command code is NACKed on its command byte. -/
  | smbusUnknownCommand (addr : BitVec 7) (code : Byte)
  /-- SCL_LOW_TIMEOUT (R66). SCL held low for 25 to 35 ms resets the SMBus target interface. -/
  | sclLowTimeout (lowMs : Nat)
  /-- TEST_LOGIC_RESET (R659). The TAP enters Test-Logic-Reset and loads IDCODE into its instruction register. -/
  | testLogicReset
  /-- IDCODE (R659). TAP instruction IDCODE selects the 32-bit identification register. -/
  | idcode
  /-- SAMPLE_PRELOAD (R659). TAP instruction SAMPLE/PRELOAD selects the boundary-scan register. -/
  | samplePreload (pins : List Bool)
  /-- EXTEST (R660). TAP instruction EXTEST drives the boundary-scan cells onto the sideband and PM pins. -/
  | extest
  /-- CLAMP (R659). TAP instruction CLAMP holds the boundary outputs and selects bypass. -/
  | clamp
  /-- HIGHZ (R659). TAP instruction HIGHZ floats the boundary outputs and selects bypass. -/
  | highz
  /-- INSTR_1687 (R659). TAP instruction INSTR_1687 selects the IEEE 1687 network while the CSU debug lock is open, and bypass otherwise. -/
  | instr1687
  /-- BYPASS (R659). TAP instruction BYPASS, or any unlisted code, selects the 1-bit bypass register. -/
  | bypass (code : Byte)
  /-- DRIVE_ARRIVAL (R55). A drive appears, and the block brings up the link and enables the controller. -/
  | driveArrival (sp link : Fin 4) (a : LinkTrain)
  /-- DRIVE_READY (R55). A controller reports ready, and the block identifies it, creates I/O queues and reports DRIVE_AVAILABLE. -/
  | driveReady (sp link : Fin 4) (r : DriveIdent)
  /-- DRIVE_READY_TIMEOUT (R56). A controller that is not ready within its timeout, at most 30 s, is reported DRIVE_UNUSABLE. -/
  | driveReadyTimeout (sp link : Fin 4)
  /-- DRIVE_REMOVAL (R57). A drive is removed or its link goes down; the root port enters containment and uncompleted fetches end SOURCE_GONE. -/
  | driveRemoval (sp : Fin 4) (at_ : LinkLeft)
  /-- DIE_SP_CTRL_ENABLE (R630). Writing DIE_SP_CTRL.ENABLE 1 brings the source port up and its drives arrive. -/
  | dieSpCtrlEnable (port : Fin 8) (d : Fin 4) (v : Word)
  /-- DIE_SP_CTRL_DISABLE (R667). Writing DIE_SP_CTRL.ENABLE 0 takes the port down by command, handling every drive on it as a removal. -/
  | dieSpCtrlDisable (port : Fin 8) (d : Fin 4) (v : Word)
  /-- POSITION_ISSUE (R268). The block maps the next epoch position to a dataset index and reads its sample directory entry. -/
  | positionIssue (i : IssueFrom) (r : SourceRead)
  /-- THREAD_ASSIGN (R582). A free thread is given to a waiting partition and placed for a sample stage under R29 and R30. -/
  | threadAssign
  /-- FETCH_ISSUE (R278). A die's fetch engine issues record fetches in stream order, running ahead, merging requests and reclaiming buffers as needed. -/
  | fetchIssue (d : Fin 4) (r : SourceRead)
  /-- FETCH_COMPLETION (R285). A fetch request completes, and its data lands with CRC checks, damage marking, error retries and cache insertion. -/
  | fetchCompletion (f : Nat) (r : FetchEnd)
  /-- FETCH_ATTEMPT_TIMEOUT (R286). A fetch attempt's timer expires: the block issues an NVMe Abort and a fresh attempt, or ends the fetch SOURCE_TIMEOUT. -/
  | fetchAttemptTimeout (f : Nat) (meets : Option FetchEnd)
  /-- NVME_ABORT_TIMEOUT (R288). An NVMe Abort without completion after 1 s makes the drive unusable and its link is contained. -/
  | nvmeAbortTimeout (f : Nat)
  /-- TICKET_COMPLETE (R198). A DMA or unit ticket completes, and a thread waiting on it becomes READY. -/
  | ticketComplete (th : ThreadRef) (ticket : Nat)
  /-- CHUNK_FETCH (R469). A die's weight rotation fetches the next needed chunk and multicasts it into the waiting clusters' landing buffers. -/
  | chunkFetch (d : Fin 4) (model : Nat)
  /-- CHUNK_READY (R35). A multicast chunk's bytes have all landed and passed SEC-DED, so its ready token is set and its waiters proceed. -/
  | chunkReady (cluster : Fin 24) (model : Nat) (buf : Fin 2)
  /-- LANDING_BUFFER_RELEASE (R470). Once every job that claimed a landing buffer's chunk has finished reading it, the buffer is released. -/
  | landingBufferRelease (cluster : Fin 24) (model : Nat) (buf : Fin 2)
  /-- PLACEMENT_COPY_END (R503). The copy of a sample's staging into its batch slot ends, and a PARTIAL ending drops the sample. -/
  | placementCopyEnd (q : Fin 64) (pos : Nat)
  /-- DELIVERY_ENTRY_TAKE (R152). When the first sample of a batch is ready and an entry is posted, the block takes one delivery entry for the batch. -/
  | deliveryEntryTake (q : Fin 64)
  /-- BATCH_RELEASE (R510). A due, complete batch whose predecessor has been released is released, making slots, manifest, completion and cursor visible in order. -/
  | batchRelease (q : Fin 64)
  /-- GRACE_WINDOW_END (R517). A grace window ends: the block defers unfinished members, fills gaps, pads or vacates slots in the throughput modes, or flags LATE in the waiting modes. -/
  | graceWindowEnd (q : Fin 64) (meets : Option Nat)
  /-- BUDGET_EXCEEDED (R519). A deferred sample's tile-events exceed its budget, so it becomes a STRAGGLER or is dropped at the straggler limit. -/
  | budgetExceeded (sample : Nat)
  /-- HARD_TIMEOUT (R189). A sample reaches HARD_TO and is aborted and dropped, or ends its CALIBRATE. -/
  | hardTimeout (sample : Nat)
  /-- RELEASE_TREE_TIMEOUT (R539). A unit fails to acknowledge a step within TREE_TO, and PAVANE_TIMEOUT is raised. -/
  | releaseTreeTimeout (kind index : Nat)
  /-- F_LIVE_RECOMPUTE (R181). At least every 1 ms the block recomputes the live factor f_live and f for each stage. -/
  | fLiveRecompute (u a : Nat)
  /-- PACE_REFRESH (R624). Every 64 µs each tile's pace report is refreshed from its pace monitor's events, with those that
  fell while the vector unit was the busy unit (R173). -/
  | paceRefresh (t : Fin 96) (events : PaceCount)
  /-- ALLOCATION_RESUME (R555). A reserved allocation that waited proceeds when a buffer or superblock frees. -/
  | allocationResume
  /-- SUPERBLOCK_RETIRE (R549). A superblock marked for retirement is retired once no buffer in it is held. -/
  | superblockRetire (d : Fin 4) (sb : Nat)
  /-- PATROL_SCRUB (R550). Patrol scrub reads every assigned line in each period, correcting lines and marking uncorrectable ones. -/
  | patrolScrub (d : Fin 4) (sb line : Nat) (r : LineRead)
  /-- DRAM_TEMP_READ (R64). At least every 16 ms a memory port reads the device temperature, adjusts refresh, and pauses requests while the device is out of range. -/
  | dramTempRead (mp : Fin 16) (inRange : Bool)
  /-- MEMORY_TRAINING (R61). Memory ports complete training; a port that fails is disabled, and MEM_DONE sets. -/
  | memoryTraining (trained : BitVec 16)
  /-- MEMORY_REQUEST_TIMEOUT (R613). A memory port request timer expires: REQ_TIMEOUT is raised and the request is reissued, or DRAM_PORT is raised. -/
  | memoryRequestTimeout (mp : Fin 16) (req : Nat)
  /-- QUADRILLE_REQUEST_TIMEOUT (R613). A Quadrille request timer expires: REQ_TIMEOUT is raised and the request is reissued, or EDGE_LOST is raised. -/
  | quadrilleRequestTimeout (e : Fin 4) (req : Nat)
  /-- ROUTE_CHANGE_DRAINED (R14). Once every transfer on the old route is acknowledged or lost, the sending die releases held transfers onto the new route. -/
  | routeChangeDrained (src dst : Fin 4)
  /-- CROSSING_ACCESS_TIMEOUT (R28). A crossing register access unanswered after 2 µs is completed by the fabric on the target's behalf, and XDOMAIN_NOANS is raised. -/
  | crossingAccessTimeout (a : CrossingAccess)
  /-- HANDSHAKE_WATCHDOG (R611). A handshake watchdog expires and raises TILE_HANG, CLUSTER_HANG, DU_HANG or DIE_LOST. -/
  | handshakeWatchdog (kind index : Nat)
  /-- COPY_REGENERATION_END (R361). The regeneration of a transcoded copy lost with its die ends, and waiting fetches proceed or fail. -/
  | copyRegenerationEnd (p : Fin 16) (id : Nat) (r : TranscodeEnd)
  /-- TILE_CTRL_DISABLE (R233). Writing TILE_CTRL.ENABLE 0 takes the tile out of service as a lost tile. -/
  | tileCtrlDisable (port : Fin 8) (t : Fin 96) (v : Word)
  /-- TILE_CTRL_ENABLE (R623). Writing TILE_CTRL.ENABLE 1 to a lost tile acts as a FLT_REVIVE of that tile. -/
  | tileCtrlEnable (port : Fin 8) (t : Fin 96) (v : Word)
  /-- FLT_REVIVE (R622). A write to FLT_REVIVE starts the self-test of a lost unit, or of the smallest lost unit that contains it. -/
  | fltRevive (port : Fin 8) (v : Word)
  /-- REVIVAL_SELF_TEST_END (R622). A revival self-test ends, and a unit that passes returns to service with its programs and copies restored. -/
  | revivalSelfTestEnd (pass : Bool)
  /-- FORCE_EN (R602). Writing FLT_CTRL.FORCE_EN enables fault forcing, and clearing it clears every force bit. -/
  | forceEn (port : Fin 8) (v : Word)
  /-- FLT_FORCE (R603). A write to FLT_FORCE arms one-shot force bits or sets level force bits on their targets. -/
  | fltForce (port : Fin 8) (v : Word)
  /-- FIRMWARE_WATCHDOG (R608). The 2 s firmware watchdog expires: the management Minuet halts, FW_WDOG is raised, and the die is lost or the block goes FATAL. -/
  | firmwareWatchdog (d : Fin 4) (meetsKick : Bool)
  /-- TRANSCODE_PROGRESS_TIMEOUT (R358). 30 s with no picture encoded ends TRANSCODE with ABORTED_TIMEOUT. -/
  | transcodeProgressTimeout (c : Nat)
  /-- FW_BASE_WRITE (R634). A high-half write of BLK_FW_BASE starts the firmware image fetch, at once or when HP_DONE sets. -/
  | fwBaseWrite (port : Fin 8) (v : Word)
  /-- FIRMWARE_IMAGE_CHECK (R632). The fetched image is verified by the CSU, and the firmware starts or FW_ERR records the first failure. -/
  | firmwareImageCheck
  /-- BOOT_RESTORE (R636). A write of BLK_BOOT_CTRL.RESTORE starts step 6 by reading both Forget-me-not copies. -/
  | bootRestore (port : Fin 8) (v : Word)
  /-- RECORD_RESTORE (R641). The valid copy with the higher SEQ is applied entry by entry, or FMN_CRC is raised, and READY sets. -/
  | recordRestore
  /-- BOOT_START (R636). A write of BLK_BOOT_CTRL.START finishes start-up with reset values. -/
  | bootStart (port : Fin 8) (v : Word)
  /-- SAVE (R639). A write of BLK_BOOT_CTRL.SAVE asks for a save of the Forget-me-not record. -/
  | save (port : Fin 8) (v : Word)
  /-- FORGET_ME_NOT_SAVE (R639). Within 10 ms of a trigger, the block writes the retained registers into the copy not holding the current SEQ. -/
  | forgetMeNotSave
  /-- QUIESCE (R644). A write of BLK_BOOT_CTRL.QUIESCE resets every partition, saves the record, clears READY and sets QUIESCED. -/
  | quiesce (port : Fin 8) (v : Word)
  /-- PGU_ENV_MAX (R651). A write of PGU_ENV_MAX sets the envelope cap and lowers PGU_ENV to it when needed. -/
  | pguEnvMax (port : Fin 8) (v : Word)
  /-- PGU_ESTIMATE (R647). Every 1 ms the PGU forms the block power estimate and takes or undoes one envelope step. -/
  | pguEstimate (m : PowerReading)
  /-- THERMAL_STEP (R648). At a Tj reading of 100 °C or more, and every 1 ms after, the PGU takes a thermal step; below 95 °C it undoes one. -/
  | thermalStep (d : Fin 4) (tj : Option Int)
  /-- THERM_TRIP (R648). Tj reaching 115 °C raises THERM_TRIP, stops the block, and turns off or lowers VCORE. -/
  | thermTrip (d : Fin 4) (tj : Int)
  /-- PGU_FAULT (R650). A regulator that fails to acknowledge, reports an output fault, or leaves VCORE out of range for 100 µs raises PGU_FAULT. -/
  | pguFault (d : Fin 4) (c : PguCause)
  /-- ADD (R207). Scalar ADD writes X + Y to s[D]. -/
  | add (x : Orony)
  /-- SUB (R207). Scalar SUB writes X - Y. -/
  | sub (x : Orony)
  /-- AND (R207). Scalar AND. -/
  | and (x : Orony)
  /-- OR (R207). Scalar OR. -/
  | or (x : Orony)
  /-- XOR (R207). Scalar XOR. -/
  | xor (x : Orony)
  /-- SHL (R207). Scalar shift left. -/
  | shl (x : Orony)
  /-- SHR (R207). Scalar shift right with zero fill. -/
  | shr (x : Orony)
  /-- SRA (R207). Scalar shift right with sign fill. -/
  | sra (x : Orony)
  /-- MUL (R207). Scalar low product. -/
  | mul (x : Orony)
  /-- MULHU (R207). Scalar unsigned high product. -/
  | mulhu (x : Orony)
  /-- MULHS (R207). Scalar signed high product. -/
  | mulhs (x : Orony)
  /-- DIVU (R207). Scalar unsigned divide. -/
  | divu (x : Orony)
  /-- REMU (R207). Scalar unsigned remainder. -/
  | remu (x : Orony)
  /-- MIN (R207). Scalar signed minimum. -/
  | min (x : Orony)
  /-- MAX (R207). Scalar signed maximum. -/
  | max (x : Orony)
  /-- MINU (R207). Scalar unsigned minimum. -/
  | minu (x : Orony)
  /-- MAXU (R207). Scalar unsigned maximum. -/
  | maxu (x : Orony)
  /-- SLT (R207). Scalar signed set-less-than. -/
  | slt (x : Orony)
  /-- SLTU (R207). Scalar unsigned set-less-than. -/
  | sltu (x : Orony)
  /-- SEQ (R207). Scalar set-equal. -/
  | seq (x : Orony)
  /-- MOVI (R207). Scalar move immediate. -/
  | movi (x : Orony)
  /-- BR (R208). Unconditional relative branch. -/
  | br (x : Orony)
  /-- BEQ (R208). Branch when equal. -/
  | beq (x : Orony)
  /-- BNE (R208). Branch when not equal. -/
  | bne (x : Orony)
  /-- BLT (R208). Branch when less, signed. -/
  | blt (x : Orony)
  /-- BLTU (R208). Branch when less, unsigned. -/
  | bltu (x : Orony)
  /-- BGE (R208). Branch when greater or equal, signed. -/
  | bge (x : Orony)
  /-- BGEU (R208). Branch when greater or equal, unsigned. -/
  | bgeu (x : Orony)
  /-- PANY (R208). Branch when any bit of a predicate is 1. -/
  | pany (x : Orony)
  /-- PALL (R208). Branch when every bit of a predicate is 1. -/
  | pall (x : Orony)
  /-- CALL (R208). Branch after writing the offset of the next instruction to s[D]. -/
  | call (x : Orony)
  /-- JR (R209). Indirect jump to s[A], with a JUMP_RANGE program fault for a bad target. -/
  | jr (x : Orony)
  /-- VADD (R210). Vector add per subword. -/
  | vadd (x : Orony)
  /-- VSUB (R210). Vector subtract. -/
  | vsub (x : Orony)
  /-- VADDS (R210). Vector signed saturating add. -/
  | vadds (x : Orony)
  /-- VADDUS (R210). Vector unsigned saturating add. -/
  | vaddus (x : Orony)
  /-- VMUL (R210). Vector low product. -/
  | vmul (x : Orony)
  /-- VMULHU (R210). Vector unsigned high product. -/
  | vmulhu (x : Orony)
  /-- VMIN (R210). Vector signed minimum. -/
  | vmin (x : Orony)
  /-- VMAX (R210). Vector signed maximum. -/
  | vmax (x : Orony)
  /-- VMINU (R210). Vector unsigned minimum. -/
  | vminu (x : Orony)
  /-- VMAXU (R210). Vector unsigned maximum. -/
  | vmaxu (x : Orony)
  /-- VAND (R210). Vector AND. -/
  | vand (x : Orony)
  /-- VOR (R210). Vector OR. -/
  | vor (x : Orony)
  /-- VXOR (R210). Vector XOR. -/
  | vxor (x : Orony)
  /-- VSHL (R210). Vector shift left. -/
  | vshl (x : Orony)
  /-- VSHR (R210). Vector shift right with zero fill. -/
  | vshr (x : Orony)
  /-- VSRA (R210). Vector shift right with sign fill. -/
  | vsra (x : Orony)
  /-- VCEQ (R210). Vector compare equal into a predicate. -/
  | vceq (x : Orony)
  /-- VCLT (R210). Vector compare less, signed, into a predicate. -/
  | vclt (x : Orony)
  /-- VCLTU (R210). Vector compare less, unsigned, into a predicate. -/
  | vcltu (x : Orony)
  /-- VSEL (R210). Vector select by predicate. -/
  | vsel (x : Orony)
  /-- VBC (R210). Vector broadcast of a scalar or immediate. -/
  | vbc (x : Orony)
  /-- VEXT (R210). Extract one element to a scalar register. -/
  | vext (x : Orony)
  /-- VINS (R210). Insert a scalar into one element. -/
  | vins (x : Orony)
  /-- VRSUM (R210). Sum of the guarded elements into a scalar register. -/
  | vrsum (x : Orony)
  /-- VFADD (R211). Vector FP32 add. -/
  | vfadd (x : Orony)
  /-- VFMUL (R211). Vector FP32 multiply. -/
  | vfmul (x : Orony)
  /-- VFMA (R211). Vector FP32 fused multiply-add. -/
  | vfma (x : Orony)
  /-- VCVTIF (R211). Vector integer to FP32 conversion. -/
  | vcvtif (x : Orony)
  /-- VCVTFI (R210). Vector FP32 to integer conversion, saturating. -/
  | vcvtfi (x : Orony)
  /-- LDS (R212). Load a scalar from the tile store or the cluster store. -/
  | lds (x : Orony)
  /-- STS (R212). Store a scalar to the thread's region. -/
  | sts (x : Orony)
  /-- LDV (R212). Load a 64-byte vector. -/
  | ldv (x : Orony)
  /-- STV (R212). Store the guarded elements of a vector. -/
  | stv (x : Orony)
  /-- LDVG (R212). Gather-load vector elements. -/
  | ldvg (x : Orony)
  /-- STVX (R213). Scatter-store vector elements in ascending element order. -/
  | stvx (x : Orony)
  /-- BALLOC (R216). Allocate a pooled buffer or a large buffer against the stage's POOL reservation. -/
  | balloc (x : Orony)
  /-- BREF (R558). Add one reference to a buffer. -/
  | bref (x : Orony)
  /-- BFREE (R558). Release one reference to a buffer, freeing it at zero. -/
  | bfree (x : Orony)
  /-- DRD (R275). DMA from a buffer to the tile store, waiting for the buffer's fetch to end. -/
  | drd (x : Orony)
  /-- DWR (R215). DMA from the tile store to a buffer. -/
  | dwr (x : Orony)
  /-- DOUT (R215). DMA from the tile store to the sample's output staging area. -/
  | dout (x : Orony)
  /-- DIDX (R274). Deliver the sample's index records to the tile store and start run-ahead. -/
  | didx (x : Orony)
  /-- DWAIT (R215). Wait on a DMA ticket, or on every ticket of the thread. -/
  | dwait (x : Orony)
  /-- RP (R302). Invoke the reconstruction pipe; a decode function completes RANGE. -/
  | rp (x : Orony)
  /-- CTX_OPEN (R311). EU function CTX_OPEN opens a stream context with its out-of-band configuration. -/
  | ctxOpen (x : Orony)
  /-- DECODE_AU (R312). EU function DECODE_AU decodes one access unit and writes the picture records leaving the output queue. -/
  | decodeAu (x : Orony)
  /-- FLUSH (R312). EU function FLUSH outputs every queued picture. -/
  | flush (x : Orony)
  /-- CTX_CLOSE (R312). EU function CTX_CLOSE releases a context's references and frees its state buffer. -/
  | ctxClose (x : Orony)
  /-- RESAMPLE (R368). IU function RESAMPLE crops, resamples and flips each plane. -/
  | resample (x : Orony)
  /-- WARP (R373). IU function WARP applies an affine warp. -/
  | warp (x : Orony)
  /-- COLOUR (R374). IU function COLOUR converts colour, applies jitter and changes transfer functions. -/
  | colour (x : Orony)
  /-- BLUR (R376). IU function BLUR applies a separable Gaussian. -/
  | blur (x : Orony)
  /-- BLEND (R377). IU function BLEND mixes two pictures by weight. -/
  | blend (x : Orony)
  /-- LAYER (R473). BLS function LAYER runs one model layer against landed weight chunks. -/
  | layer (x : Orony)
  /-- SELECT (R474). BLS function SELECT makes a Gumbel-max selection over the logits of each row. -/
  | select (x : Orony)
  /-- TOKENISE (R489). DU function TOKENISE tokenises UTF-8 input or the sample's caption by greedy longest match. -/
  | tokenise (x : Orony)
  /-- CBG (R220). One counter-based generator draw into four scalar registers. -/
  | cbg (x : Orony)
  /-- VCBG (R221). Four counter-based generator draws into a vector register. -/
  | vcbg (x : Orony)
  /-- UWAIT (R219). Wait on a unit ticket. -/
  | uwait (x : Orony)
  /-- LMMA (R440). Lattice matrix multiply-accumulate. -/
  | lmma (x : Orony)
  /-- LACT (R448). Lattice nonlinear function. -/
  | lact (x : Orony)
  /-- LCVT (R444). Lattice type conversion. -/
  | lcvt (x : Orony)
  /-- LRED (R451). Lattice cross-tile reduction part; the group completes when all parts have issued. -/
  | lred (x : Orony)
  /-- LWAIT (R223). Wait on a lattice ticket. -/
  | lwait (x : Orony)
  /-- BWAIT (R225). Wait until an ancestor stage's token for this sample is published. -/
  | bwait (x : Orony)
  /-- BPUB (R225). After the thread's writes are visible, publish this stage's token. -/
  | bpub (x : Orony)
  /-- ORONY_NOP (R227). System NOP does nothing. -/
  | oronyNop (x : Orony)
  /-- YIELD (R227). Yield issue to the next READY thread. -/
  | yield (x : Orony)
  /-- END (R227). Wait for the thread's tickets, publish DONE when not yet published, and free the thread. -/
  | endThread (x : Orony)
  /-- TRAP (R227). Raise a USER program fault. -/
  | trap (x : Orony)
  /-- RDSR (R227). Read a special register. -/
  | rdsr (x : Orony)
  /-- REGRD (R236). Management read of a BAR0 register. -/
  | regrd (x : Orony)
  /-- REGWR (R236). Management write of a BAR0 register. -/
  | regwr (x : Orony)
  /-- HMRD (R236). Management read of host memory into the data region. -/
  | hmrd (x : Orony)
  /-- HMWR (R236). Management write of the data region to host memory. -/
  | hmwr (x : Orony)
  /-- KICK (R608). Restart the firmware watchdog. -/
  | kick (x : Orony)
  /-- HOSTLINK_CRC (R596). A flit received on a host port fails its CRC, is replayed by the UCIe link layer, and HOSTLINK_CRC is raised as a CORRECTED fault. -/
  | hostlinkCrc (port : Fin 8)
  /-- CSU_FAULT (R596). The Common Security Unit reports a fault of its own, and CSU_FAULT is raised as FATAL. -/
  | csuFault
  /-- RETIREMENT_READ_RETURN (R46). A retirement read returns on its port, retiring the partition's earlier writes there and freeing their block-memory sources. -/
  | retirementReadReturn (port : Fin 8) (p : Fin 16)
  /-- NVME_ABORT_COMPLETION (R288). The drive completes an NVMe Abort for a timed-out read, and the buffer of that attempt is freed. -/
  | nvmeAbortCompletion (f : Nat)
  /-- SPILL_COPY_REBUILD_END (R570). The rebuild of a mirrored spill handle's lost copy onto another die ends, and the handle is mirrored again. -/
  | spillCopyRebuildEnd (slot : Nat)
  /-- DOWNSTREAM_PORT_CONTAINMENT (R53). An uncorrectable PCIe error on a source link triggers Downstream Port Containment, and fetches from the drive end as for a removal. -/
  | downstreamPortContainment (sp link : Fin 4)
  deriving DecidableEq, Repr

end Sys2Proof
end

