-- ==== Sys2Proof/Decode.lean ====
section
/-!
DEFINITION. The words that spell commands. The opcode table gives no row any bits: a command is not an encoded
instruction, so no word spells one.
-/

namespace Sys2Proof

/-- The command that an nbits-wide word w spells by the table's bits: none, for the table gives no row bits. -/
def decodeTableWord (_nbits _w : Nat) : Option Instr := none

end Sys2Proof
end

