-- ==== Sys2Proof/Machine/State.lean ====
section
/-!
DEFINITION. The state of the block as plain data, the reasons a command can stop, and the state after reset.
Sparse data are lists of key and value pairs in one canonical form: keys strictly rising, no value equal to what an
unlisted key reads as (Machine/Store.lean has the operations).
-/

namespace Sys2Proof.Machine

/-- Sparse data by key. -/
abbrev Sparse (α : Type) := List (Nat × α)

/-- Why the block stops with a fault. The block has no fault of its own that ends a command: its faults are recorded
state (R597). -/
inductive Fault where
  /-- Raised by no command: no address outside the spec's spaces can be named by a command that reaches memory.
  Safe: it never occurs. -/
  | none
  deriving DecidableEq, Repr

/-- Why a command has no meaning. -/
inductive Refusal where
  /-- Raised by an arm of exec whose command has no meaning yet. Safe: the machine stops where the hardware goes on. -/
  | notModelled (mnemonic : String)
  deriving DecidableEq, Repr

/-- One write request toward host memory: the partition whose function and PASID it uses, its full address key and
bytes (R41, R46). `frees` are block-memory buffers that are freed when the write is retired (R46). -/
structure HostWrite where
  part : Nat
  key : Nat
  bytes : List Byte
  frees : List Nat
  deriving DecidableEq, Repr

/-- Writes issued on a port for a partition and not yet retired (R46), and how many an issued retirement read covers. -/
structure Unretired where
  port : Nat
  part : Nat
  writes : List HostWrite
  covered : Option Nat
  deriving DecidableEq, Repr

/-- A push slot: the written-word mask and the bytes written (R125). -/
structure PushSlot where
  mask : BitVec 16
  bytes : Sparse Byte
  deriving DecidableEq, Repr

/-- The rings of queue q beyond its set-up registers (R118, Table 4.3, Table 4.4). -/
structure Queue where
  sqPi : Word
  sqCi : Word
  cqPi : Word
  cqCi : Word
  drPi : Word
  drCi : Word
  push : List PushSlot
  errIdx : Word
  errOff : Word
  stepCnt : Word
  stepIgn : Word
  /-- CQ slots of this queue promised and not yet filled (R130) -/
  promised : Nat
  /-- an SQ entry fetch faulted; the next accepted DB_SQ_PI write clears it (R135) -/
  sqStop : Bool
  /-- the same for the delivery ring -/
  drStop : Bool
  /-- completions mirrored since the last interrupt (R133) -/
  mirrored : Nat
  /-- number of the last marker taken from this SQ, finished or not (R131) -/
  marker : Nat
  deriving DecidableEq, Repr

/-- A command taken from an SQ and not yet completed (R129 to R139). `id` numbers commands in the order taken. -/
structure Cmd where
  id : Nat
  q : Nat
  part : Nat
  opcode : Nat
  tag : Word
  dep : Bool
  ops : List DWord
  xops : List DWord
  /-- SQ_CI after the entry was taken -/
  ci : Word
  /-- the command's work has begun; what remains is its completing step -/
  started : Bool
  /-- it starts only once every command of its SQ with a number below this one has completed (R131) -/
  after : Nat
  deriving DecidableEq, Repr

/-- An MSI-X interrupt raised: function and vector (R133, R599). -/
structure Irq where
  fn : Nat
  vector : Nat
  deriving DecidableEq, Repr

/-- A request toward a host: a memory write or an MSI-X interrupt. -/
inductive HostReq where
  | write (w : HostWrite)
  | msix (i : Irq)
  deriving DecidableEq, Repr

/-- An event of Table 4.9 held for a partition. -/
structure Event where
  code : Nat
  data : DWord
  deriving DecidableEq, Repr

/-- What partition p holds beyond its PART_ registers. -/
structure Part where
  /-- a partition reset is in progress (R589) -/
  resetting : Bool
  /-- traffic on the secondary port (R47) -/
  onSecondary : Bool
  /-- no bound port is up (R50) -/
  stranded : Bool
  /-- host requests that wait unissued while stranded, oldest first (R664) -/
  waiting : List HostReq
  /-- events that have not met an EVENT_WAIT, oldest first (R147) -/
  events : List Event
  /-- cache reservation in MiB (R343) -/
  cacheMib : Nat
  /-- charge of pinned entries, copies and regeneration records at which a lowered quota found them: nothing is inserted
  until they fall below it (R586) -/
  cacheBar : Option Nat
  /-- pinned sources (R346) -/
  pins : List Nat
  /-- round-robin position among SQs and entries left of the present queue's weight (R129) -/
  rrQueue : Nat
  rrLeft : Nat
  /-- VFp is disabled when the reset in progress ends (R107) -/
  thenOff : Bool
  /-- the key slot bound when the reset in progress ends (R546) -/
  thenSlot : Option Nat
  deriving DecidableEq, Repr

/-- What a source names (R262, R263, R356). -/
inductive SourceKind where
  | nvme (sp link : Nat) (nsid : Word) (lba blocks : Nat)
  | host (base bytes : Nat) (pasid : Nat)
  | copy
  deriving DecidableEq, Repr

/-- A bound source. -/
structure Source where
  part : Nat
  id : Nat
  kind : SourceKind
  timeoutMs : Nat
  retries : Nat
  /-- SOURCE_UNBIND has been taken: no new fetches (R266) -/
  unbinding : Option Nat
  /-- its drive has been removed since it was bound: it is bound no more to what may return (R292) -/
  dead : Bool
  deriving DecidableEq, Repr

/-- A namespace grant (R143, R267). -/
structure Grant where
  part : Nat
  sp : Nat
  link : Nat
  nsid : Word
  deriving DecidableEq, Repr

/-- Where a drive stands (R55 to R59). -/
inductive DriveState where
  | starting
  | available
  | unusable
  deriving DecidableEq, Repr

/-- A drive on link SP.link. -/
structure Drive where
  sp : Nat
  link : Nat
  state : DriveState
  mdts : Nat
  nss : List NsIdent
  deriving DecidableEq, Repr

/-- A tensor descriptor (Table 12.2). -/
structure Desc where
  etype : Nat
  space : Nat
  ro : Bool
  blkE : Nat
  blkRow : Nat
  g2 : Nat
  g3 : Nat
  base : Nat
  rangeBase : Nat
  rangeBytes : Nat
  scaleBase : Nat
  extent : List Nat
  stride : List Int
  deriving DecidableEq, Repr

/-- A stage record (Table 5.2) with its program, parameters and output descriptors read out of the image. -/
structure Stage where
  parent : Nat
  template : Nat
  threads : Nat
  tsBytes : Nat
  csBytes : Nat
  pool : List Nat
  prog : List Byte
  model0 : Nat
  model1 : Nat
  dict : Nat
  outs : List Desc
  params : List Byte
  declCost : Nat
  declDu : Nat
  deriving DecidableEq, Repr

/-- A calibration record (Table 5.6). -/
structure CalRec where
  samples : Nat
  lanes14 : Bool
  ctx : LoadContext
  cost : List (Nat × Nat)
  deriving DecidableEq, Repr

/-- A loaded recipe (Table 5.1). -/
structure Recipe where
  part : Nat
  id : Nat
  policy : Nat
  strict : Bool
  repro : Nat
  targetRate : Nat
  budgetMult : Nat
  hardTo : Nat
  outBytes : Nat
  contexts : Nat
  inflight : Nat
  calTable : Nat
  calN : Nat
  stages : List Stage
  progBytes : Nat
  cal : Option CalRec
  /-- loaded with the fixed cost override -/
  fixedCost : Bool
  /-- a program reads a special register of R228 -/
  readsVolatile : Bool
  /-- PASID key of the loading queue, for reads of CAL_TABLE -/
  pasid : Nat
  /-- tile-events per sample of each stage over its last completed samples, newest first (R181) -/
  recent : List (List Nat)
  /-- f_live per stage, as a fraction (R181) -/
  fLive : List (Nat × Nat)
  deriving DecidableEq, Repr

/-- A layer record of a model (Table 14.2). -/
structure Layer where
  fmtB : Nat
  bias : Bool
  func : Nat
  n : Nat
  k : Nat
  rowsOff : Nat
  rowStride : Nat
  biasOff : Nat
  deriving DecidableEq, Repr

/-- A loaded model (Table 14.1): `uid` numbers it in the block, `dies` are the dies that hold a copy. -/
structure Model where
  uid : Nat
  part : Nat
  id : Nat
  imageBytes : Nat
  chunkBytes : Nat
  parts : Nat
  tsMin : Nat
  paramMin : Nat
  paramMax : Nat
  progs : List (List Byte)
  layers : List Layer
  weights : List Byte
  /-- dies that hold a copy, with its buffers -/
  copies : List (Nat × List Nat)
  /-- offset of the weight section in the image -/
  wOff : Nat
  /-- lines of copies that were corrected to other codewords: die, offset in the image, number of the free bytes (R548) -/
  garbled : List (Nat × Nat × Nat)
  deriving DecidableEq, Repr

/-- A loaded dictionary (Table 14.8). -/
structure Dict where
  part : Nat
  id : Nat
  imageBytes : Nat
  header : List Byte
  byteBase : Nat
  replace : Nat
  bos : Nat
  eos : Nat
  pad : Nat
  entries : List (List Byte × Nat)
  copies : List (Nat × List Nat)
  /-- copies with a line that was corrected to another codeword: die, offset, number of the free bytes (R548) -/
  garbled : List (Nat × Nat × Nat)
  deriving DecidableEq, Repr

/-- A created tensor (R403 to R408). -/
structure Tensor where
  part : Nat
  slot : Nat
  gen : Nat
  desc : Desc
  aliasOk : Bool
  pasid : Nat
  /-- SPILL-like end of life: TENSOR_DESTROY has been taken with this command id -/
  dying : Option Nat
  deriving DecidableEq, Repr

/-- One copy of spilled data on a die (R565). -/
structure SpillCopy where
  die : Nat
  bufs : List Nat
  /-- being rebuilt (R570) -/
  rebuilding : Bool
  deriving DecidableEq, Repr

/-- A spill handle (R566). `data` is what RESTORE returns. -/
structure Spill where
  part : Nat
  slot : Nat
  gen : Nat
  codec : Nat
  mirror : Bool
  bytes : Nat
  stored : Nat
  data : List Byte
  copies : List SpillCopy
  /-- the die whose loss took the last copy -/
  lostDie : Option Nat
  dying : Option Nat
  deriving DecidableEq, Repr

/-- A byte entry of the sample cache (R337). -/
structure CacheEntry where
  part : Nat
  src : Nat
  off : Nat
  data : List Byte
  bufs : List Nat
  die : Nat
  /-- use stamp for least-recently-used order (R345) -/
  used : Nat
  deriving DecidableEq, Repr

/-- A transcoded copy (R356, R357). -/
structure CopySource where
  part : Nat
  id : Nat
  die : Nat
  bufs : List Nat
  data : List Byte
  pictures : Nat
  /-- its regeneration record: the head, the entries and XOP0; and that record's buffers, on die 0 -/
  regen : List Byte
  regenBufs : List Nat
  regenerating : Bool
  /-- regeneration failed: the ticket status its waiting fetches end with (R361) -/
  failed : Option Nat
  /-- under BYPASS, each access unit with its IDR mark and the planes that decode from it (R354) -/
  exact_ : List (List Byte × Bool × List Config.Plane)
  deriving DecidableEq, Repr

/-- A TRANSCODE under way (R358): its command, and the head, the entries and XOP0 that it read. -/
structure TranscodeRun where
  cmd : Nat
  part : Nat
  id : Nat
  regen : List Byte
  deriving DecidableEq, Repr

/-- How a buffer's fetch stands (R275). -/
inductive Landing where
  | landed
  | inFlight
  /-- ended with this status of Table 6.14 and damage cause; source and byte offset of the request that failed (R290) -/
  | ended (status cause src off : Nat)
  deriving DecidableEq, Repr

/-- What a buffer is used for, and so what it is charged to (Table 16.4). -/
inductive Owner where
  /-- a stage's POOL reservation: the recipe and the stage -/
  | stage (recipe stage : Nat)
  | runAhead
  /-- output staging of an epoch -/
  | staging
  /-- model and dictionary copies -/
  | copy
  /-- cache entries, transcoded copies, regeneration records -/
  | cache
  | spill
  /-- kept for a request still outstanding at a drive, charged to no partition (R589) -/
  | detached
  deriving DecidableEq, Repr

/-- An allocated buffer of block memory (R551 to R558); `n` class-7 buffers for a large one, 1 otherwise. -/
structure Buf where
  handle : Nat
  part : Nat
  /-- superblocks it lies in, more than one for a large buffer; `wide` when it is a block superblock (R542) -/
  sbs : List Nat
  wide : Bool
  n : Nat
  refs : Nat
  own : Owner
  data : Sparse Byte
  landing : Landing
  /-- 4 KiB granules written since allocation: those whose clean bit is cleared (R557) -/
  dirty : List Nat
  deriving DecidableEq, Repr

/-- A superblock that is not free (R540): assigned to a class, or retired. -/
structure Superblock where
  die : Nat
  idx : Nat
  cls : Nat
  /-- part of the block superblock (R542) named by die 0's superblock number -/
  group : Option Nat
  /-- the die's memory ports its granules lie on (R541) -/
  ports : BitVec 4
  retired : Bool
  marked : Bool
  /-- lines that the patrol scrub found uncorrectable, as they are read (R550) -/
  badLines : List (Nat × LineRead)
  deriving DecidableEq, Repr

/-- An allocation that waits (R555). -/
structure AllocWait where
  th : ThreadRef
  cls : Nat
  n : Nat
  dreg : Nat
  deriving DecidableEq, Repr

/-- A picture that a context holds: in its decoded picture buffer, waiting for reordering, or in its output queue. -/
structure Held where
  pic : Config.Pic
  buf : Option Nat
  deriving DecidableEq, Repr

/-- A stream context (R306, R307): its options, configuration and the access units decoded since it opened, which
are its saved state. -/
structure Ctx where
  ctx : Nat
  /-- the stage that opened it -/
  stage : Nat
  opts : List Nat
  config : List Byte
  history : List Config.Au
  stateBuf : Nat
  store : List Held
  /-- numbers of the pictures waiting in the output queue -/
  queue : List Nat
  /-- numbers of the pictures that FLUSH has taken out of the reordering -/
  flushed : List Nat
  /-- numbers of the pictures that have left the reordering, and of those held for reference (R312, R316) -/
  left : List Nat
  kept : List Nat
  /-- pictures output so far -/
  outCount : Nat
  /-- numbers of the leading pictures, which are not output (R317) -/
  leading : List Nat
  /-- the pictures decoded that are not absent, from which others are concealed (R324) -/
  shown : List Config.Pic
  /-- the last picture decoded whose dimensions are known -/
  shape : Option Config.Pic
  deriving DecidableEq, Repr

/-- A sample directory entry (Table 8.2). -/
structure DirEntry where
  isrc : Nat
  ioff : Nat
  kind : Nat
  icount : Nat
  csrc : Nat
  coff : Nat
  clen : Nat
  deriving DecidableEq, Repr

/-- A record or element of a sample as the block delivers it (Table 8.5), with where its data lies. -/
structure Rec where
  recno : Nat
  ctx : Nat
  frame : Nat
  flags : Nat
  keyback : Nat
  /-- block list still to be read: its source, offset and bytes -/
  list : Option (Nat × Nat × Nat)
  /-- source, offset and length of each extent of the data -/
  extents : List (Nat × Nat × Nat)
  /-- extents whose fetch has not been issued, and those that have not landed -/
  next : Nat
  left : Nat
  bytes : Nat
  crc : Option Word
  /-- status of Table 6.14 with which its fetch ended without data -/
  status : Nat
  /-- source and byte offset of the request that failed (R290) -/
  failAt : Nat × Nat
  damaged : Bool
  cause : Nat
  element : Bool
  handle : Option Nat
  /-- a DIDX or a template has named it, on a thread of this stage -/
  named : Bool
  stage : Nat
  /-- the sample has released its buffer -/
  consumed : Bool
  deriving DecidableEq, Repr

/-- A picture that a template or program holds in a list: its record of Table 9.4. -/
structure PicRec where
  stage : Nat
  ctx : Nat
  bytes : List Byte
  deriving DecidableEq, Repr

/-- A unit's work that waits for data or a token before it runs (R275, R436). -/
inductive UnitOp where
  | drd (handle off ts len : Nat)
  | dwr (handle off ts len : Nat)
  | dout (off ts len : Nat)
  /-- DIDX: first record, count, data-region offset -/
  | didx (first count ts : Nat)
  /-- a command of the EU, in issue order (R308) -/
  | eu (blk seq : Nat)
  /-- a command of the IU, in issue order (R365) -/
  | iu (blk seq : Nat)
  /-- a command queued at a dictionary unit, its input bytes (R490), and its place in the order of issue (R585) -/
  | tokenise (blk unit bytes seq : Nat)
  /-- LMMA, LACT or LCVT (kind 0 to 2), or an LRED that its lattice has not taken (3), in issue order (R456) -/
  | lat (kind blk seq : Nat)
  /-- LAYER on a model: the chunks still needed, by number -/
  | layer (blk model : Nat) (need : List Nat)
  /-- LRED part waiting for its group -/
  | lred (blk : Nat)
  deriving DecidableEq, Repr

/-- A DMA or unit ticket of a thread (R199). -/
structure Ticket where
  num : Nat
  /-- status of Table 6.14 with which it completes -/
  status : Nat
  done : Bool
  /-- a DMA write (R225) -/
  write : Bool
  deferred : Option UnitOp
  /-- source and byte offset of the failed request whose outcome it carries, and its damage cause (R290, R299) -/
  fail : Nat × Nat
  cause : Nat
  deriving DecidableEq, Repr

/-- A thread that is not FREE (R194, Table 6.1). Registers are sparse, unlisted ones hold 0 (R196). -/
structure Thread where
  th : ThreadRef
  /-- state code of Table 6.1 -/
  state : Nat
  part : Nat
  sample : Nat
  stage : Nat
  /-- part program of a model's ENCODE stage (R476) -/
  partNo : Nat
  pc : Nat
  progLen : Nat
  s : Sparse Word
  /-- element i of v[r] at key 16 r + i -/
  v : Sparse Word
  /-- p[1] to p[7] -/
  p : Sparse (BitVec 16)
  region : Sparse Byte
  tsBytes : Nat
  csBytes : Nat
  plen : Nat
  tickets : List Ticket
  nextTicket : Nat
  /-- ticket, stage or chunk awaited; 0 every ticket; and the register that takes the status -/
  waitOn : Nat
  waitReg : Nat
  /-- state published by BPUB, 0 none (R226) -/
  published : Nat
  /-- END has issued, or a program fault stands: the reason of Table 6.17 -/
  ending : Bool
  fault : Nat
  deriving DecidableEq, Repr

/-- A thread as it stood at its last frame boundary, with what its stage had then (R260, R261): the references of the stage and
its contexts, how many references of others it had released, the records it had named and whether they were consumed, the
pictures it had output, its contexts, and what it had been charged. -/
structure FrameMark where
  thread : Thread
  held : List (Nat × Nat)
  freed : Nat
  recs : List (Nat × Bool)
  pics : Nat
  ctxs : List Nat
  charged : Nat
  vec : Nat × Nat
  deriving DecidableEq, Repr

/-- A sample in flight. -/
structure Sample where
  /-- sample handle, 0 to 511 -/
  h : Nat
  part : Nat
  recipe : Nat
  /-- queue of its epoch, or the CALIBRATE command -/
  from_ : IssueFrom
  epoch : Nat
  pos : Nat
  dset : Nat
  dsidx : Nat
  dir : Option DirEntry
  /-- ticket status and cause of its first DIDX when the directory entry could not be used (R269) -/
  dirStatus : Nat
  dirCause : Nat
  /-- source and byte offset of that read (R290) -/
  dirAt : Nat × Nat
  /-- source and byte offset of the failed request noted last, for the ticket that carries its outcome (R290) -/
  fail : Nat × Nat
  /-- token of each stage: 0 PENDING, 1 DONE, 2 DAMAGED, 3 DROPPED -/
  tokens : List Nat
  /-- stages that have been given their threads -/
  assigned : List Nat
  /-- references held and the buffer: who took each, stage + 16 times the part (R476), or 4096 + c for the reference
  that child stage c holds (R163) -/
  held : List (Nat × Nat)
  /-- references of other stages that a stage has released: the stage, the reference, and whether the buffer was freed by
  it (R164) -/
  freed : List (Nat × (Nat × Nat) × Bool)
  /-- buffers handed over by each stage, in order -/
  handed : List (Nat × List Nat)
  /-- the output staging area (R501) and its buffers -/
  staging : Sparse Byte
  stagingBufs : List Nat
  recs : List Rec
  recsRead : Bool
  ctxs : List Ctx
  /-- picture records output by DECODE_AU and FLUSH, in order -/
  pics : List PicRec
  /-- its threads at their last frame boundaries, one of a stage and part (R260) -/
  frames : List FrameMark
  /-- threads off a lost tile that go on elsewhere from their last frame boundary (R260, R309) -/
  moved : List Thread
  started : Bool
  die : Nat
  budget : Nat
  charged : Nat
  stageCharged : List Nat
  /-- of these the vector events, on tiles of 16 and of 14 lanes (R173) -/
  stageVec : List (Nat × Nat)
  /-- parts of an ENCODE stage that have ended: stage, part, state (R478) -/
  partsEnded : List (Nat × Nat × Nat)
  reruns : Nat
  /-- uncorrectable lines met (Table 16.1) -/
  ueCount : Nat
  ready : Bool
  dropped : Option Nat
  cause : Nat
  damagedPics : Nat
  damaged : Bool
  short : Bool
  deferred : Bool
  straggler : Bool
  /-- a placement copy has read its staging area in an earlier run (R46) -/
  wrote : Bool
  /-- its staging area has waited for room (R555) -/
  stagingWait : Bool
  /-- stages that have published, each with the die of its thread, from which the token goes to other dies (R14) -/
  tokenDies : List (Nat × Nat)
  /-- slot in which it stands and whether the copy has ended -/
  placed : Option Nat
  copied : Bool
  late : Bool
  deriving DecidableEq, Repr

/-- A landing buffer of a cluster store (R467 to R470). -/
structure LandBuf where
  cluster : Nat
  model : Nat
  buf : Nat
  chunk : Nat
  ready : Bool
  released : Bool
  /-- number of the fetch that filled it -/
  seq : Nat
  /-- threads and tickets that claimed the chunk and still read it -/
  claims : List (ThreadRef × Nat)
  deriving DecidableEq, Repr

/-- An LRED group open with the parts issued so far (R450 to R452). -/
structure LredGroup where
  sample : Nat
  stage : Nat
  group : Nat
  q : Nat
  m : Nat
  n : Nat
  refused : Bool
  parts : List (Nat × ThreadRef × Nat)
  deriving DecidableEq, Repr

/-- A fetch request of a die's engine, for one or more records (R283 to R291). -/
structure Fetch where
  id : Nat
  die : Nat
  part : Nat
  src : Nat
  off : Nat
  len : Nat
  /-- samples, record numbers and extents it carries, in the order of their bytes -/
  recs : List (Nat × Nat × Nat)
  /-- attempts that have ended -/
  attempt : Nat
  /-- number of the attempt under way, by which the port knows it -/
  tag : Nat
  /-- every extent it was issued for, with its source offset and length (R339) -/
  parts : List ((Nat × Nat × Nat) × Nat × Nat)
  /-- the buffers it lands in -/
  bufs : List Nat
  /-- timed-out attempts that an NVMe Abort or the drive still has to end, with the buffers they hold (R288) -/
  aborting : List (Nat × List Nat)
  /-- the next attempt waits for new buffers -/
  stalled : Bool
  /-- every attempt has ended: only Aborts are outstanding -/
  ended : Bool
  /-- the drive it reads, by SP and link -/
  drive : Option (Nat × Nat)
  /-- halted on a translation fault: the timer stands (R290) -/
  halted : Bool
  /-- the cursor E and MASK of its last fault (R294) -/
  moved : Nat
  mask : DWord
  /-- requests that have completed, by number, with the bytes they read (R295) -/
  got : List (Nat × List Byte)
  /-- translation faults met on each 4 KiB page (R296) -/
  faults : List (Nat × Nat)
  deriving DecidableEq, Repr

/-- What a transfer moves (R293). -/
inductive TransferKind where
  /-- COPY, with its slice list -/
  | copy (list : List Byte)
  | copyLayout
  /-- GATHER and SCATTER, with their coordinate list -/
  | gather (list : List Byte)
  | scatter (list : List Byte)
  | spill | restore
  /-- placement of a sample's staging into its slot -/
  | place (q pos slot : Nat)
  /-- an HMRD or HMWR of a management thread: ticket, data-region offset, host address, length -/
  | hmrd (th : ThreadRef) (ticket ts addr len : Nat)
  | hmwr (th : ThreadRef) (ticket ts addr len : Nat)
  deriving DecidableEq, Repr

/-- A transfer in progress, owned by command `cmd` when it is a command's (R293 to R298). -/
structure Transfer where
  id : Nat
  part : Nat
  cmd : Nat
  kind : TransferKind
  /-- elements in all -/
  elements : Nat
  /-- elements already moved, below E -/
  moved : Nat
  /-- the 64-bit MASK of requests completed beyond E -/
  mask : DWord
  halted : Bool
  /-- element ranges moved out of order, marked in MASK -/
  extra : List (Nat × Nat)
  /-- bytes that completed requests of a read have brought, by request (R295) -/
  got : List (Nat × List Byte)
  /-- faults per 4 KiB page (R296) -/
  faults : List (Nat × Nat)
  /-- page of the fault that halts it -/
  page : Nat
  /-- buffers taken for the copies of a SPILL, by die (R564) -/
  bufs : List (Nat × List Nat)
  /-- timeouts of its request (R613) -/
  timeouts : Nat
  deriving DecidableEq, Repr

/-- Translation faults of a command's own reads of host memory, before its work begins (R294 to R296). -/
structure ReadHalt where
  cmd : Nat
  halted : Bool
  /-- bytes before the request that faulted, and the requests behind it that have completed (R294) -/
  moved : Nat
  mask : DWord
  /-- bytes that completed requests have brought, by address key (R295) -/
  got : List (Nat × List Byte)
  faults : List (Nat × Nat)
  deriving DecidableEq, Repr

/-- What a server of several partitions' commands has counted for one of them: dictionary unit 0 to 7, or 8 + d for the tile
DMA engines of die d (R585). -/
structure Turn where
  server : Nat
  part : Nat
  /-- input bytes served -/
  bytes : Nat
  deriving DecidableEq, Repr

/-- A delivery entry taken (Table 4.12). -/
structure Delivery where
  batch : Nat
  base : Nat
  manifest : Nat
  stride : Nat
  slots : Nat
  dtag : Word
  ci : Word
  deriving DecidableEq, Repr

/-- A slot of the open batch (R504 to R509). -/
structure Slot where
  /-- position of the sample placed in it -/
  pos : Option Nat
  padded : Bool
  vacant : Bool
  /-- removed under SHRINK -/
  removed : Bool
  /-- the slot is a gap to be filled -/
  gap : Bool
  /-- member that the slot lost, with its reason and cause; dataset index -/
  orig : Option Nat
  origDsidx : Nat
  reason : Nat
  cause : Nat
  /-- candidate of the gap in the waiting modes (R516) -/
  choice : Option Nat
  deriving DecidableEq, Repr

/-- A slot that nothing has filled. -/
def Slot.empty : Slot := ⟨none, false, false, false, false, none, 0, 0, 0, none⟩

/-- A substitution log record (Table 15.7). -/
structure LogRec where
  index : Nat
  kind : Nat
  reason : Nat
  cause : Nat
  slot : Nat
  batch : Nat
  pos : Nat
  dset : Nat
  dsidx : Nat
  orig : Nat
  deriving DecidableEq, Repr

/-- A dataset of an epoch's table (Table 15.2). -/
structure Dataset where
  dir : Nat
  logw : Word
  size : Nat
  base : Nat
  deriving DecidableEq, Repr

/-- An open epoch (chapter 15). -/
structure Epoch where
  q : Nat
  part : Nat
  recipe : Nat
  num : Nat
  seed : BitVec 128
  n : Nat
  b : Nat
  lead : Nat
  /-- GRACE_US of the dataset table (R511) -/
  grace : Nat
  logBase : Nat
  log2 : Nat
  datasets : List Dataset
  tableCrc : Word
  pasid : Nat
  /-- mode in force: 0 REPRO_SAMPLE, 1 REPRO_EXACT, 2 FREE -/
  mode : Nat
  strict : Bool
  policy : Nat
  outBytes : Nat
  inflight : Nat
  /-- first batch (R508), the open batch and the steps counted -/
  first : Nat
  open_ : Nat
  steps : Nat
  /-- next member position to issue -/
  nextIssue : Nat
  /-- positions dropped or advanced before their batch opened, with reason, cause and dataset index -/
  gone : List (Nat × Nat × Nat × Nat)
  /-- deferred positions to issue first (R534) -/
  reissue : List Nat
  slots : List Slot
  /-- throughput modes: members of the open batch that lost their slots and wait for a substitute, oldest gap first -/
  gaps : List Slot
  entries : List Delivery
  graceRun : Bool
  graceOver : Bool
  /-- the deferred batches after the last member batch may only hold deferred samples (R522) -/
  logHead : Nat
  logFloor : Nat
  logLive : List LogRec
  delivered : Nat
  droppedN : Nat
  deferredN : Nat
  /-- samples advanced or delivered, so that no position is delivered twice -/
  released : Option Nat
  lastOk : Option Nat
  calStale : Bool
  /-- its admission used a record for which stale was true (R183) -/
  staleIn : Bool
  logFault : Bool
  /-- the command that opened it while it is outstanding, with RESULT0, RESULT1 and CAL_STALE of its completion (R144) -/
  opening : Option (Nat × Nat × Nat × Bool)
  deriving DecidableEq, Repr

/-- A CALIBRATE run (R174 to R177). -/
structure CalRun where
  cmd : Nat
  part : Nat
  recipe : Nat
  want : Nat
  next : Nat
  damaged : Nat
  table : List (Nat × Nat × Bool)
  tiles : Nat
  recAddr : Nat
  measured : List (List (Nat × Nat))
  lanes14 : Bool
  /-- cause of the last damaged sample -/
  cause : Nat
  /-- status, detail and result with which it must end without a record -/
  failed : Option (Nat × Nat × Nat)
  deriving DecidableEq, Repr

/-- An ATS invalidation that waits for issued requests (R44): port, function, page range, the
transfers still outstanding. -/
structure Invalidation where
  tag : Nat
  port : Nat
  fn : Nat
  lo : Nat
  hi : Nat
  waits : List Nat
  deriving DecidableEq, Repr

/-- A noise source (R253): its next raw bit; whether its start-up test has run; the last bit and the length of its run; the
place in the window of 1,024 bits, the window's first bit and how often it has recurred; whether it passes. -/
structure NoiseSrc where
  pos : Nat
  started : Bool
  last : Bool
  run : Nat
  win : Nat
  first : Bool
  hits : Nat
  ok : Bool
  deriving DecidableEq, Repr

/-- What a die holds beyond its registers (chapters 3, 7, 18, 19). -/
structure Die where
  lot : List Byte
  wafer : Byte
  x : Byte
  y : Byte
  serial : DWord
  full : BitVec 24
  fuseOk : Bool
  /-- temperature in degrees, and whether the sensor gives a reading -/
  tj : Int
  sensor : Bool
  mv : Nat
  fixed : Bool
  /-- thermal and envelope steps that stand, the VCORE setting in mV that each allows, and its gate levels (R647, R648) -/
  thermSteps : Nat
  envSteps : Nat
  thermMv : Option Nat
  envMv : Option Nat
  thermGates : Nat
  envGates : Nat
  /-- gate level G, the sum of both -/
  gate : Nat
  dw : Nat
  da : Nat
  noise : NoiseSrc
  /-- the unit's own timer in us, and its value at the last KICK -/
  us : Nat
  kickUs : Nat
  mmRun : Bool
  mmHalted : Bool
  wdogExp : Bool
  /-- heartbeat of the firmware (R237) -/
  hb : Word
  /-- the management Minuet's 2 MiB data region, which its four threads share (R235, R236) -/
  region : Sparse Byte
  deriving DecidableEq, Repr

/-- The boundary-scan and instruction registers of the TAP (R659, R660). -/
structure Tap where
  ir : Byte
  /-- 0 IDCODE register, 1 boundary scan, 2 bypass, 3 IEEE 1687 network -/
  dr : Nat
  bscan : List Bool
  /-- outputs: 0 system, 1 driven from the boundary register, 2 held, 3 floating -/
  pins : Nat
  debugOpen : Bool
  deriving DecidableEq, Repr

/-- The last answer of the SMBus target: bytes with their PEC, or a NACK (R76, R112). -/
structure Smbus where
  addr : BitVec 2
  reply : List Byte
  nack : Bool
  deriving DecidableEq, Repr

/-- One occurrence of a fault source (R597): its code, whether a force bit raised it, the die where it arose, the
partition it names and the unit it names (Table 18.3). -/
structure Occ where
  src : Nat
  forced : Bool
  die : Nat
  part : Option Nat
  kind : Nat
  index : Nat
  deriving DecidableEq, Repr

/-- A revival in progress or ended (R622): unit, whether it runs. -/
structure Revival where
  kind : Nat
  index : Nat
  named : Nat × Nat
  deriving DecidableEq, Repr

/-- A request that has expired once and been reissued (R613): unit kind, index and request. -/
structure Reissued where
  kind : Nat
  index : Nat
  req : Nat
  deriving DecidableEq, Repr

/-- A key slot of the CSU (R545): the data key and the tweak key of XTS, and whether they were derived. -/
structure KeySlot where
  data : BitVec 256
  tweak : BitVec 256
  derived : Bool
  deriving DecidableEq, Repr

/-- The sideband pins and reset conditions (R65 to R80). -/
structure Pins where
  resetLow : Bool
  pwrLow : Bool
  refLost : Bool
  inReset : Bool
  /-- TESTMODE or die 0's fuses hold the ports disabled (R80, R111) -/
  testHeld : Bool
  alive : Bool
  aliveRun : Bool
  thermN : Bool
  /-- a thermal shutdown at 115 °C has taken place since reset (R75, R648) -/
  tripped : Bool
  stepHigh : List Bool
  stepStuck : List Bool
  /-- time in us of each pin's last accepted edge -/
  stepLast : List (Option Nat)
  /-- edges rejected and counted (R66) -/
  stepRejected : List Nat
  /-- drives whose presence the filters of SPd_PRSNT_N have accepted, bit 4 SP + link (R65, R66) -/
  present : BitVec 16
  deriving DecidableEq, Repr

/-- Start-up state behind BLK_BOOT_STATUS and the Forget-me-not record (chapter 19). -/
structure Boot where
  hpDone : Bool
  memDone : Bool
  fwBusy : Bool
  fwPending : Bool
  fwRun : Bool
  fwErr : Nat
  /-- the verified image held in die 0's die store (R633) -/
  image : List Byte
  restoreRun : Bool
  startOnly : Bool
  ready : Bool
  quiesced : Bool
  /-- a save has been triggered and not yet written (R639) -/
  savePending : Bool
  fmnErrA : Nat
  fmnErrB : Nat
  fromB : Bool
  applied : Bool
  seq : Nat
  /-- the region that the sequence belongs to, and whether its current copy is B -/
  seqBase : Nat
  seqInB : Bool
  deriving DecidableEq, Repr

/-- The block. -/
structure State where
  /-- commands waiting, first in, first out -/
  pending : List Instr
  /-- register words by PF0 BAR0 offset; an unlisted register holds its reset value -/
  regs : Sparse Word
  /-- pending low halves: key 2^32 times the port plus the BAR0 offset; present when listed (R93) -/
  lowHalf : List (Nat × Word)
  queues : List Queue
  parts : List Part
  dies : List Die
  pins : Pins
  boot : Boot
  tap : Tap
  smbus : Smbus
  /-- memory of the hosts that the block's ports reach, as `Host.Cell`s by address key -/
  hostMem : List Host.Cell
  /-- pages of host memory whose translation ends unresolvable, by page key (R43) -/
  hostFaults : List Nat
  unretired : List Unretired
  irqs : List Irq
  cmds : List Cmd
  nextCmd : Nat
  sources : List Source
  grants : List Grant
  drives : List Drive
  /-- links, by SP and link, whose drive is reported absent with reason LOW_RATE (Table 2.3) -/
  lowRate : List (Nat × Nat)
  recipes : List Recipe
  models : List Model
  dicts : List Dict
  tensors : List Tensor
  tensorGens : Sparse Nat
  spills : List Spill
  spillGens : Sparse Nat
  cache : List CacheEntry
  copies : List CopySource
  transcodes : List TranscodeRun
  bufs : List Buf
  superblocks : List Superblock
  /-- corrections in each superblock since reset, by die × 4,096 + superblock, 0 where unlisted (R549) -/
  sbCorrected : List (Nat × Nat)
  allocWaits : List AllocWait
  samples : List Sample
  threads : List Thread
  landing : List LandBuf
  lreds : List LredGroup
  fetches : List Fetch
  transfers : List Transfer
  readHalts : List ReadHalt
  /-- what the reads of the command that runs now have brought before, by address key (R295); empty between commands -/
  brought : List (Nat × List Byte)
  /-- units to which the release tree has carried a step whose time TREE_TO has not been said to expire (R539) -/
  carried : List (Nat × Nat)
  /-- input bytes counted for the partitions that wait at a dictionary unit or at the DMA engines of a die (R585) -/
  turns : List Turn
  epochs : List Epoch
  calRuns : List CalRun
  invs : List Invalidation
  /-- units lost by name, KIND and INDEX of Table 18.3 (R618) -/
  lost : List (Nat × Nat)
  /-- dies lost to FUSE_FAIL (R622) -/
  fuseLost : List Nat
  /-- memory ports trained, host links up -/
  mpUp : BitVec 16
  hpUp : BitVec 8
  /-- memory ports paused by DRAM_TEMP (R64) -/
  mpPaused : BitVec 16
  revival : Option Revival
  reissued : List Reissued
  /-- source and destination dies whose transfers are held for a route change (R14) -/
  routeHolds : List (Nat × Nat)
  /-- accesses that addressed no register, as their functions report them: the function, and whether it was a write,
  oldest first (R87) -/
  urReports : List (Nat × Bool)
  /-- the thread that issued last on each Minuet: a tile's by its number, die d's management Minuet by 96 + d (R198) -/
  lastIssue : Sparse Nat
  /-- occurrences of each source since its FLT_STAT bit was cleared (R599) -/
  escCount : Sparse Nat
  fatal : Bool
  /-- us counted by die 0's timer unit (R616) -/
  us : Nat
  /-- us at reset release -/
  releaseUs : Nat
  /-- port partition 0 uses (R51) -/
  port0 : Nat
  keySlots : List KeySlot
  /-- keys derived since reset (R545) -/
  derivations : Nat
  keyDerived : Bool
  /-- faults found while a seed was drawn, to be reported at the next tick (R254, log entry 5) -/
  owed : List Occ
  scrubRun : Bool
  /-- memory utilisation in 0.1 % and active tile fraction in 1/1,024 over the last 1 ms (R180) -/
  memU : Nat
  act : Nat
  /-- estimated energy since reset, in 10^-15 J (Table 19.7) -/
  energy : Nat
  /-- event counters of Table 18.11 at the last estimate, host ports, source ports, edges and memory ports in order (R655) -/
  counted : List Nat
  /-- the counter at which free values are read: the model's own field -/
  freeCtr : Nat
  nextId : Nat
  deriving DecidableEq, Repr

/-! ### Reset (log entries 1, 2, 3) -/

def Queue.reset : Queue :=
  ⟨0, 0, 0, 0, 0, 0, List.replicate 4 ⟨0, []⟩, 0, 0, 0, 0, 0, false, false, 0, 0⟩

def Part.reset : Part := ⟨false, false, false, [], [], 0, none, [], 0, 0, false, none⟩

/-- A noise source right after reset: no bit tested yet. Raw bits already used are not used again. -/
def NoiseSrc.reset (pos : Nat) : NoiseSrc := ⟨pos, false, false, 0, 0, false, 0, true⟩

/-- Fuse values are the device's; those named here are the model's choice (log entry 2): lot "AAAAAA", wafer 1,
serial 0, every tile with 16 lanes, fuses sound. -/
def Die.reset : Die :=
  { lot := List.replicate 6 0x41, wafer := 1, x := 0, y := 0, serial := 0, full := 0xFFFFFF, fuseOk := true,
    tj := 25, sensor := true, mv := 650, fixed := false, thermSteps := 0, envSteps := 0, thermMv := none, envMv := none,
    thermGates := 0, envGates := 0, gate := 0, dw := 0, da := 0,
    noise := NoiseSrc.reset 0, us := 0, kickUs := 0, mmRun := false, mmHalted := false, wdogExp := false, hb := 0, region := [] }

def Pins.reset : Pins :=
  { resetLow := false, pwrLow := false, refLost := false, inReset := false, testHeld := false, alive := false,
    aliveRun := false, thermN := false, tripped := false, stepHigh := List.replicate 4 false, stepStuck := List.replicate 4 false,
    stepLast := List.replicate 4 none, stepRejected := List.replicate 4 0, present := 0 }

def Boot.reset : Boot :=
  { hpDone := false, memDone := false, fwBusy := false, fwPending := false, fwRun := false, fwErr := 0, image := [],
    restoreRun := false, startOnly := false, ready := false, quiesced := false, savePending := false,
    fmnErrA := 0, fmnErrB := 0, fromB := false, applied := false, seq := 0,
    seqBase := 0, seqInB := false }

/-- The block right after it has left reset (R68, R628 step 2): no port trained, nothing loaded, every register at its
reset value. -/
def State.reset : State :=
  { pending := [], regs := [], lowHalf := [], queues := List.replicate 64 Queue.reset,
    parts := List.replicate 16 Part.reset, dies := List.replicate 4 Die.reset, pins := Pins.reset, boot := Boot.reset,
    tap := ⟨0x01, 0, List.replicate 97 false, 0, false⟩, smbus := ⟨0, [], false⟩, hostMem := [], hostFaults := [],
    unretired := [], irqs := [], cmds := [], nextCmd := 0, sources := [], grants := [], drives := [], lowRate := [], recipes := [],
    models := [], dicts := [], tensors := [], tensorGens := [], spills := [], spillGens := [], cache := [],
    copies := [], transcodes := [], bufs := [], superblocks := [], sbCorrected := [], allocWaits := [], samples := [], threads := [], landing := [],
    lreds := [], fetches := [], transfers := [], readHalts := [], brought := [], carried := [], turns := [], epochs := [], calRuns := [], invs := [], lost := [], fuseLost := [],
    mpUp := 0, hpUp := 0, mpPaused := 0, revival := none, reissued := [], routeHolds := [], urReports := [], lastIssue := [], escCount := [],
    fatal := false, us := 0, releaseUs := 0, port0 := 0, derivations := 0, keyDerived := false, owed := [],
    keySlots := (List.range 16).map fun i => ⟨(Config.resetKey i).1, (Config.resetKey i).2, false⟩, scrubRun := false, memU := 0, act := 0, energy := 0, counted := [], freeCtr := 0,
    nextId := 0 }

end Sys2Proof.Machine
end

