-- ==== Sys2Proof/Machine/Store.lean ====
section
/-!
DEFINITION. Sparse data: lists of key and value pairs with keys strictly rising and no value equal to what an
unlisted key reads as, so that equal contents are equal lists. `d k` is what key k reads as while it is unlisted.
-/

namespace Sys2Proof.Machine

/-- The value at key k. -/
def look {α : Type} (d : Nat → α) : Sparse α → Nat → α
  | [], k => d k
  | (j, x) :: m, k => if j = k then x else look d m k

/-- Removes key k. -/
def unlist {α : Type} (k : Nat) : Sparse α → Sparse α
  | [] => []
  | (j, x) :: m => if j = k then m else if k < j then (j, x) :: m else (j, x) :: unlist k m

/-- Lists value v at key k. -/
def enlist {α : Type} (k : Nat) (v : α) : Sparse α → Sparse α
  | [] => [(k, v)]
  | (j, x) :: m =>
    if k < j then (k, v) :: (j, x) :: m else if j = k then (k, v) :: m else (j, x) :: enlist k v m

/-- Writes v at key k and keeps the canonical form. -/
def put {α : Type} [DecidableEq α] (d : Nat → α) (k : Nat) (v : α) (m : Sparse α) : Sparse α :=
  if v = d k then unlist k m else enlist k v m

/-- Writes the values at keys k, k + 1, and so on. -/
def putAll {α : Type} [DecidableEq α] (d : Nat → α) (k : Nat) : List α → Sparse α → Sparse α
  | [], m => m
  | v :: vs, m => putAll d (k + 1) vs (put d k v m)

/-- The n values at keys k to k + n - 1. -/
def lookAll {α : Type} (d : Nat → α) (m : Sparse α) (k n : Nat) : List α :=
  (List.range n).map fun i => look d m (k + i)

/-- Every key of m lies above k. -/
def above {α : Type} (k : Nat) (m : Sparse α) : Bool := m.all fun e => k < e.1

/-- The canonical form. -/
def wf {α : Type} [DecidableEq α] (d : Nat → α) : Sparse α → Bool
  | [] => true
  | (j, x) :: m => above j m && decide (x ≠ d j) && wf d m

/-- Memory that nothing has written reads as zero (log entry 10; R557 for block memory). -/
def zero {n : Nat} (_ : Nat) : BitVec n := 0

/-- The canonical form of byte memory. -/
def Memory.wf (m : Sparse Byte) : Bool := Machine.wf zero m

/-! ### Bytes and words -/

/-- Bytes to a number, little-endian (R8). -/
def leNat : List Byte → Nat
  | [] => 0
  | b :: bs => b.toNat + 256 * leNat bs

/-- A number as n bytes, little-endian (R8). -/
def toLe : Nat → Nat → List Byte
  | 0, _ => []
  | n + 1, x => BitVec.ofNat 8 x :: toLe n (x / 256)

/-- A number as n bytes, big-endian. -/
def toBe (n x : Nat) : List Byte := (toLe n x).reverse

/-- n bytes of a list from offset o, zero beyond its end. -/
def sliceB (l : List Byte) (o n : Nat) : List Byte :=
  let t := (l.drop o).take n
  t ++ List.replicate (n - t.length) 0

/-- The little-endian number in n bytes at offset o. -/
def leAt (l : List Byte) (o n : Nat) : Nat := leNat (sliceB l o n)

/-- Bits msb to lsb of a number. -/
def bits (x msb lsb : Nat) : Nat := x / 2 ^ lsb % 2 ^ (msb + 1 - lsb)

/-- Bit i of a number. -/
def bitN (x i : Nat) : Bool := Nat.testBit x i

/-- Division rounded up. -/
def ceilDiv (a b : Nat) : Nat := (a + b - 1) / b

/-- x rounded up to a multiple of m. -/
def roundUp (x m : Nat) : Nat := ceilDiv x m * m

/-- Whether bytes lo to hi - 1 of a list are all zero. -/
def zeroBytes (l : List Byte) (lo hi : Nat) : Bool := (sliceB l lo (hi - lo)).all (· == 0)

/-- Base-2 logarithm rounded up. -/
def log2Up (n : Nat) : Nat := if n ≤ 1 then 0 else Nat.log2 (n - 1) + 1

/-- One step of CRC-32C, reflected polynomial 0x82F63B78 (PRESUMED, log entry 11). -/
def crcBit : Nat → Nat → Nat
  | 0, c => c
  | k + 1, c => crcBit k (if c % 2 = 1 then (c / 2) ^^^ 0x82F63B78 else c / 2)

/-- The CRC register after a byte list. The match returns what it is given; it makes Lean's kernel compute each byte's
value before the next. -/
def crcFrom : List Byte → Nat → Nat
  | [], c => c
  | b :: l, c =>
    match crcBit 8 (c ^^^ b.toNat) with
    | 0 => crcFrom l 0
    | n + 1 => crcFrom l (n + 1)

/-- CRC-32C of a byte list: initial value and final inversion all ones (PRESUMED, log entry 11). -/
def crc32c (l : List Byte) : Nat := crcFrom l 0xFFFFFFFF ^^^ 0xFFFFFFFF

/-- List update at an index, unchanged beyond the end. -/
def modAt {α : Type} (l : List α) (i : Nat) (f : α → α) : List α := l.modify i f

/-- Updates the entries that satisfy p. -/
def updIf {α : Type} (p : α → Bool) (f : α → α) (l : List α) : List α := l.map fun x => if p x then f x else x

end Sys2Proof.Machine
end

