-- ==== Sys2Proof/Machine/Fp.lean ====
section
/-!
DEFINITION. Floating-point values as exact numbers: reading a format's bits, exact arithmetic, and one rounding into a
format (R211, R444).
-/

namespace Sys2Proof.Machine

/-- A value: NaN, an infinity with its sign, or a signed number m * 2^e. A zero keeps its sign. -/
inductive Fp where
  | nan
  | inf (neg : Bool)
  | fin (neg : Bool) (m : Nat) (e : Int)
  deriving DecidableEq, Repr

/-- A binary format: exponent bits, fraction bits, bias. -/
structure Fmt where
  ew : Nat
  fw : Nat
  bias : Int
  deriving DecidableEq, Repr

def fp32 : Fmt := ⟨8, 23, 127⟩
def fp16 : Fmt := ⟨5, 10, 15⟩
def bf16 : Fmt := ⟨8, 7, 127⟩

/-- The value of a format whose all-ones exponent holds infinities and NaNs. -/
def fpOf (f : Fmt) (x : Nat) : Fp :=
  let neg := bitN x (f.ew + f.fw)
  let e := x / 2 ^ f.fw % 2 ^ f.ew
  let m := x % 2 ^ f.fw
  if e = 2 ^ f.ew - 1 then if m = 0 then .inf neg else .nan
  else if e = 0 then .fin neg m (1 - f.bias - f.fw)
  else .fin neg (m + 2 ^ f.fw) (e - f.bias - f.fw)

/-- m * 2^e as a fraction. -/
def fracOf (m : Nat) (e : Int) : Nat × Nat := if 0 ≤ e then (m * 2 ^ e.toNat, 1) else (m, 2 ^ (-e).toNat)

/-- floor of log2 (p / q), for p and q above 0. -/
def log2Q (p q : Nat) : Int :=
  let k : Int := (Nat.log2 p : Int) - Nat.log2 q
  let lt : Bool := if 0 ≤ k then p < q * 2 ^ k.toNat else p * 2 ^ (-k).toNat < q
  if lt then k - 1 else k

/-- p / q divided by 2^e: numerator and denominator. -/
def scaleQ (p q : Nat) (e : Int) : Nat × Nat := if 0 ≤ e then (p, q * 2 ^ e.toNat) else (p * 2 ^ (-e).toNat, q)

/-- A quotient rounded to the nearest integer, ties to even. -/
def rneQ (p q : Nat) : Nat :=
  let n := p / q
  let r := p % q
  if 2 * r < q then n else if q < 2 * r then n + 1 else n + n % 2

/-- The exponent of the last place in which a format holds p / q. -/
def ulpExp (f : Fmt) (p q : Nat) : Int :=
  let k := log2Q p q
  (if k < 1 - f.bias then 1 - f.bias else k) - f.fw

/-- The bits of a non-negative p / q rounded to nearest even; overflow gives infinity. -/
def packQ (f : Fmt) (neg : Bool) (p q : Nat) : Nat :=
  let sign := if neg then 2 ^ (f.ew + f.fw) else 0
  if p = 0 then sign
  else
    let u := ulpExp f p q
    let (a, b) := scaleQ p q u
    let n := rneQ a b
    -- a carry into the next binade, and out of the subnormals, falls out of the sum
    let biased : Int := u + f.fw + f.bias
    let w : Int := (biased - 1) * 2 ^ f.fw + n
    let top : Int := (2 ^ f.ew - 1) * 2 ^ f.fw
    sign + (if top ≤ w then top else w).toNat

/-- FP32 bits of a value, one rounding to nearest even; every NaN is 0x7FC0_0000 (R211). -/
def toFp32 : Fp → Word
  | .nan => 0x7FC00000
  | .inf neg => if neg then 0xFF800000 else 0x7F800000
  | .fin neg m e => let (p, q) := fracOf m e; BitVec.ofNat 32 (packQ fp32 neg p q)

def ofFp32 (w : Word) : Fp := fpOf fp32 w.toNat

/-- The signed coefficient at exponent e' ≤ e. -/
def coefAt (neg : Bool) (m : Nat) (e e' : Int) : Int :=
  let v : Int := m * 2 ^ (e - e').toNat
  if neg then -v else v

/-- An exact sum; a zero sum of unlike signs is +0. -/
def Fp.add : Fp → Fp → Fp
  | .nan, _ => .nan
  | _, .nan => .nan
  | .inf a, .inf b => if a = b then .inf a else .nan
  | .inf a, .fin _ _ _ => .inf a
  | .fin _ _ _, .inf b => .inf b
  | .fin a m e, .fin b n f =>
    let g := if e ≤ f then e else f
    let s := coefAt a m e g + coefAt b n f g
    if s = 0 then .fin (a && b) 0 g else .fin (decide (s < 0)) s.natAbs g

/-- An exact product. -/
def Fp.mul : Fp → Fp → Fp
  | .nan, _ => .nan
  | _, .nan => .nan
  | .inf a, .inf b => .inf (a != b)
  | .inf a, .fin b m _ => if m = 0 then .nan else .inf (a != b)
  | .fin a m _, .inf b => if m = 0 then .nan else .inf (a != b)
  | .fin a m e, .fin b n f => .fin (a != b) (m * n) (e + f)

def Fp.neg : Fp → Fp
  | .nan => .nan
  | .inf a => .inf !a
  | .fin a m e => .fin (!a) m e

/-- An integer as a value. -/
def Fp.ofInt (i : Int) : Fp := .fin (decide (i < 0)) i.natAbs 0

/-- Whether x < y; false when either is NaN. -/
def Fp.lt : Fp → Fp → Bool
  | .nan, _ => false
  | _, .nan => false
  | .inf a, .inf b => a && !b
  | .inf a, .fin _ _ _ => a
  | .fin _ _ _, .inf b => !b
  | .fin a m e, .fin b n f =>
    let g := if e ≤ f then e else f
    decide (coefAt a m e g < coefAt b n f g)

/-- FP32 operations, each with one rounding. -/
def f32add (x y : Word) : Word := toFp32 ((ofFp32 x).add (ofFp32 y))
def f32sub (x y : Word) : Word := toFp32 ((ofFp32 x).add (ofFp32 y).neg)
def f32mul (x y : Word) : Word := toFp32 ((ofFp32 x).mul (ofFp32 y))
def f32fma (x y z : Word) : Word := toFp32 (((ofFp32 x).mul (ofFp32 y)).add (ofFp32 z))
def f32lt (x y : Word) : Bool := (ofFp32 x).lt (ofFp32 y)
def f32neg (x : Word) : Word := x ^^^ 0x80000000
def f32ofInt (i : Int) : Word := toFp32 (Fp.ofInt i)

/-- A quotient of two values, rounded once to FP32. -/
def f32divFp (a b : Fp) : Word :=
  match a, b with
  | .nan, _ => 0x7FC00000
  | _, .nan => 0x7FC00000
  | .inf _, .inf _ => 0x7FC00000
  | .inf x, .fin y _ _ => toFp32 (.inf (x != y))
  | .fin x _ _, .inf y => toFp32 (.fin (x != y) 0 0)
  | .fin x m e, .fin y n f =>
    if n = 0 then if m = 0 then 0x7FC00000 else toFp32 (.inf (x != y))
    else if m = 0 then toFp32 (.fin (x != y) 0 0)
    else
      let (p, q) := scaleQ m n (f - e)
      BitVec.ofNat 32 (packQ fp32 (x != y) p q)

def f32div (x y : Word) : Word := f32divFp (ofFp32 x) (ofFp32 y)

/-- A value rounded to the nearest integer, ties to even; none for NaN and infinities. -/
def Fp.toIntRne : Fp → Option Int
  | .fin neg m e =>
    let (p, q) := fracOf m e
    some (if neg then -(rneQ p q : Int) else rneQ p q)
  | _ => none

/-- floor of a value; 0 for NaN and infinities. -/
def Fp.floor : Fp → Int
  | .fin neg m e =>
    let (p, q) := fracOf m e
    (if neg then -(p : Int) else p) / q
  | _ => 0

/-- An integer held to a range. -/
def clampI (lo hi x : Int) : Int := if x < lo then lo else if hi < x then hi else x

/-- FP32 to a signed 32-bit integer: nearest even, saturating, NaN gives 0 (Table 6.6). -/
def f32toInt (x : Word) : Word :=
  match ofFp32 x with
  | .nan => 0
  | .inf neg => if neg then 0x80000000 else 0x7FFFFFFF
  | v => BitVec.ofInt 32 (clampI (-(2 ^ 31)) (2 ^ 31 - 1) (v.toIntRne.getD 0))

/-- The greater of two FP32 values. -/
def f32max (x y : Word) : Word := if f32lt x y then y else x
def f32min (x y : Word) : Word := if f32lt y x then y else x

end Sys2Proof.Machine
end

