-- ==== Sys2Proof/Machine/Reals.lean ====
section
/-!
DEFINITION. Real functions to 512 fraction bits, far beyond what rounding to binary32 needs, for the places where the
rules fix a correctly rounded value (R245, R248, R370, R374, R376, R380, R662) or bound a free one (R247, R448). A fixed
value x stands for x / 2^512. Log entry 6.
-/

namespace Sys2Proof.Machine

/-- 1 as a fixed value. -/
def fxOne : Int := 2 ^ 512

/-- p / q as a fixed value. -/
def fxQ (p : Int) (q : Nat) : Int := p * fxOne / q
def fxMul (a b : Int) : Int := a * b / fxOne
def fxDiv (a b : Int) : Int := a * fxOne / b

/-- Integer square root by bits from 2^(k-1) down. -/
def isqrt : Nat → Nat → Nat → Nat
  | 0, _, r => r
  | k + 1, n, r => isqrt k n (if (r + 2 ^ k) * (r + 2 ^ k) ≤ n then r + 2 ^ k else r)

/-- Square root of a fixed value that is not negative. -/
def fxSqrt (a : Int) : Int := isqrt 1100 (a.toNat * 2 ^ 512) 0

/-- t / k + t z / (k + 2) + t z^2 / (k + 4) + ..., n terms: atanh of the root of z from t that root, atan with z negative. -/
def fxOddSum : Nat → Int → Int → Nat → Int
  | 0, _, _, _ => 0
  | n + 1, z, t, k => t / k + fxOddSum n z (fxMul t z) (k + 2)

/-- ln 2 = 2 atanh (1/3). -/
def fxLn2 : Int := 2 * fxOddSum 170 (fxQ 1 9) (fxQ 1 3) 1

/-- π = 16 atan (1/5) - 4 atan (1/239). -/
def fxPi : Int := 16 * fxOddSum 120 (fxQ (-1) 25) (fxQ 1 5) 1 - 4 * fxOddSum 40 (fxQ (-1) 57121) (fxQ 1 239) 1

/-- ln (p / q), for p and q above 0: the power of two apart, and 2 atanh ((m - 1) / (m + 1)) of the rest. -/
def fxLn (p q : Nat) : Int :=
  let e := log2Q p q
  let (a, b) := scaleQ p q e
  let z := fxQ ((a : Int) - b) (a + b)
  e * fxLn2 + 2 * fxOddSum 170 (fxMul z z) z 1

/-- t + t x / k + t x^2 / (k (k + 1)) + ..., n terms. -/
def fxExpSum : Nat → Int → Int → Nat → Int
  | 0, _, _, _ => 0
  | n + 1, x, t, k => t + fxExpSum n x (fxMul t x / k) (k + 1)

/-- e^x: a fixed value in [1, 2) and the power of two that multiplies it, held to ±2000. -/
def fxExp2 (x : Int) : Int × Int :=
  let k := x / fxLn2
  if k < -2000 then (fxOne, -2000) else if 2000 < k then (fxOne, 2000)
  else (fxExpSum 120 (x - k * fxLn2) fxOne 1, k)

/-- e^x as a fixed value. -/
def fxExp (x : Int) : Int :=
  let (m, k) := fxExp2 x
  if 0 ≤ k then m * 2 ^ k.toNat else m / 2 ^ (-k).toNat

/-- t - t x / (k (k + 1)) + ..., n terms, x the square of the angle. -/
def fxTurnSum : Nat → Int → Int → Nat → Int
  | 0, _, _, _ => 0
  | n + 1, x, t, k => t - fxTurnSum n x (fxMul t x / (k * (k + 1) : Nat)) (k + 2)

/-- sin (π p / q) for 0 ≤ p / q ≤ 1/2. -/
def fxSinQ (p q : Nat) : Int :=
  let a := fxMul fxPi (fxQ p q)
  fxTurnSum 70 (fxMul a a) a 2

/-- sin (π p / q) for p / q ≥ 0: whether it is negative, and its size. -/
def fxSinPi (p q : Nat) : Bool × Int :=
  let r := p % (2 * q)
  let h := r % q
  (decide (q ≤ r), if 2 * h ≤ q then fxSinQ h q else fxSinQ (q - h) q)

/-- Φ(-z), the normal CDF below 0, for 0 ≤ z ≤ 8: 1/2 - φ(z) (z + z^3/3 + z^5/15 + ...). -/
def fxPhiSum : Nat → Int → Int → Nat → Int
  | 0, _, _, _ => 0
  | n + 1, x, t, k => t + fxPhiSum n x (fxMul t x / k) (k + 2)

def fxPhiNeg (z : Int) : Int :=
  let x := fxMul z z
  fxOne / 2 - fxMul (fxDiv (fxExp (-(x / 2))) (fxSqrt (2 * fxPi))) (fxPhiSum 400 x z 3)

/-- A fixed value rounded to binary32, nearest even. -/
def fxRound (x : Int) : Word := toFp32 (.fin (decide (x < 0)) x.natAbs (-512))

/-- The fixed value of a finite number, rounded down below 2^-512. -/
def fxOf : Fp → Int
  | .fin neg m e =>
    let (p, q) := fracOf m e
    let v := fxQ p q
    if neg then -v else v
  | _ => 0

/-! ### Correctly rounded functions -/

/-- sin (π x), correctly rounded (R370, R374); an exact zero keeps the sign of x. -/
def sinpi (x : Word) : Word :=
  match ofFp32 x with
  | .fin neg m e =>
    let (p, q) := fracOf m e
    let (n, v) := fxSinPi p q
    toFp32 (.fin (if v = 0 then neg else n != neg) v.natAbs (-512))
  | _ => 0x7FC00000

/-- cos (π x) = sin (π (|x| + 1/2)), correctly rounded (R374, R375, R381); an exact zero is +0. -/
def cospi (x : Word) : Word :=
  match ofFp32 x with
  | .fin _ m e =>
    let (p, q) := fracOf m e
    let (n, v) := fxSinPi (2 * p + q) (2 * q)
    toFp32 (.fin (n && v ≠ 0) v.natAbs (-512))
  | _ => 0x7FC00000

/-- e^x, correctly rounded (R376, R380). -/
def exp32 (x : Word) : Word :=
  match ofFp32 x with
  | .nan => 0x7FC00000
  | .inf neg => if neg then 0 else 0x7F800000
  | v => let (m, k) := fxExp2 (fxOf v); toFp32 (.fin false m.natAbs (k - 512))

/-! ### The noise tables (R245, R248, R662) -/

/-- The point of knot i with k steps an octave: 2^-(g+2) (1 + m / k), as a fraction. -/
def knotQ (i k : Nat) : Nat × Nat := (k + i % k, k * 2 ^ (i / k + 2))

/-- -ln (-ln (p / q)). -/
def fxGumbel (p q : Nat) : Int := -(fxLn (-(fxLn p q)).toNat (2 ^ 512))

def gumbelLow (i : Nat) : Word := let (p, q) := knotQ i 64; fxRound (fxGumbel p q)
def gumbelHigh (i : Nat) : Word := let (p, q) := knotQ i 64; fxRound (fxGumbel (q - p) q)
def gumbelLast : Word := fxRound (fxGumbel 1 2)

/-- The greatest binary32 word below w + 2^n, from w up, whose value z has Φ(-z) ≥ c. -/
def phiRoot (c : Int) : Nat → Nat → Nat
  | 0, w => w
  | n + 1, w =>
    let y := w + 2 ^ n
    phiRoot c n (if y < 0x41000000 && c ≤ fxPhiNeg (fxOf (fpOf fp32 y)) then y else w)

/-- The binary32 value nearest Φ^-1(p / q), for p / q below 1/2; below -6.0 it is -6.0. -/
def normalKnot (p q : Nat) : Word :=
  let c := fxQ p q
  let w := phiRoot c 31 0
  let mid := (fxOf (fpOf fp32 w) + fxOf (fpOf fp32 (w + 1))) / 2
  let d := fxPhiNeg mid
  let w := if d = c then w + w % 2 else if c < d then w + 1 else w
  BitVec.ofNat 32 (2 ^ 31 + Nat.min w 0x40C00000)

def normalTable (i : Nat) : Word := let (p, q) := knotQ i 128; normalKnot p q

/-! ### Free values that the rules bound -/

/-- A free word held to within a bound of a true value, both fixed; the rounded value where it strays. -/
def heldTo (free : Word) (v bound : Int) : Word :=
  match ofFp32 free with
  | .fin a m e => if (fxOf (.fin a m e) - v).natAbs ≤ bound.natAbs then free else fxRound v
  | _ => fxRound v

/-- n spacings of binary32 at a value. -/
def ulps (n : Nat) (v : Int) : Int :=
  if v = 0 then n * 2 ^ 363
  else n * 2 ^ (ulpExp fp32 v.natAbs (2 ^ 512) + 512).toNat

end Sys2Proof.Machine
end

