-- ==== Sys2Proof/Machine/Crypto.lean ====
section
/-!
DEFINITION. SHA-384 and ECDSA P-384, which R632 names and does not restate (PRESUMED from FIPS 180-4 and FIPS 186, log
entry 7). Tables are computed from their definitions: fractional root bits of the primes.
-/

namespace Sys2Proof.Machine

/-! ### SHA-384 -/

/-- Integer cube root by bits from 2^(k-1) down. -/
def icbrt : Nat → Nat → Nat → Nat
  | 0, _, r => r
  | k + 1, n, r => icbrt k n (if (r + 2 ^ k) * (r + 2 ^ k) * (r + 2 ^ k) ≤ n then r + 2 ^ k else r)

/-- The primes below 410, of which there are 80. -/
def shaPrimes : List Nat :=
  (List.range 410).filter fun n => 2 ≤ n && (List.range n).all fun d => d < 2 || n % d ≠ 0

/-- The round constants: the first 64 fractional bits of the primes' cube roots. -/
def shaK : List (BitVec 64) := shaPrimes.map fun p => BitVec.ofNat 64 (icbrt 70 (p * 2 ^ 192) 0)

/-- The eight working words. -/
structure ShaWords where
  a : BitVec 64
  b : BitVec 64
  c : BitVec 64
  d : BitVec 64
  e : BitVec 64
  f : BitVec 64
  g : BitVec 64
  h : BitVec 64
  deriving DecidableEq, Repr

/-- The first 64 fractional bits of the square root of a prime. -/
def shaRoot (p : Nat) : BitVec 64 := BitVec.ofNat 64 (isqrt 70 (p * 2 ^ 128) 0)

/-- The start words of SHA-384: the square roots of the ninth to sixteenth primes. -/
def shaStart : ShaWords :=
  ⟨shaRoot 23, shaRoot 29, shaRoot 31, shaRoot 37, shaRoot 41, shaRoot 43, shaRoot 47, shaRoot 53⟩

def shaSum (x : BitVec 64) (i j k : Nat) : BitVec 64 := x.rotateRight i ^^^ x.rotateRight j ^^^ x.rotateRight k
def shaMix (x : BitVec 64) (i j k : Nat) : BitVec 64 := x.rotateRight i ^^^ x.rotateRight j ^^^ (x >>> k)

/-- n further words of the message schedule, the latest word first. -/
def shaSchedule : Nat → List (BitVec 64) → List (BitVec 64)
  | 0, l => l
  | n + 1, l => shaSchedule n
      ((shaMix (l.getD 1 0) 19 61 6 + l.getD 6 0 + shaMix (l.getD 14 0) 1 8 7 + l.getD 15 0) :: l)

def shaRound (x : ShaWords) (kw : BitVec 64) : ShaWords :=
  let t := x.h + shaSum x.e 14 18 41 + ((x.e &&& x.f) ^^^ (~~~x.e &&& x.g)) + kw
  ⟨t + shaSum x.a 28 34 39 + ((x.a &&& x.b) ^^^ (x.a &&& x.c) ^^^ (x.b &&& x.c)), x.a, x.b, x.c, x.d + t, x.e, x.f, x.g⟩

/-- A number from bytes, big-endian. -/
def beNat (l : List Byte) : Nat := l.foldl (fun a b => 256 * a + b.toNat) 0

/-- One block of 128 bytes. -/
def shaBlock (x : ShaWords) (l : List Byte) : ShaWords :=
  let w := (List.range 16).map fun i => BitVec.ofNat 64 (beNat ((l.drop (8 * i)).take 8))
  let y := (List.zipWith (· + ·) shaK (shaSchedule 64 w.reverse).reverse).foldl shaRound x
  ⟨x.a + y.a, x.b + y.b, x.c + y.c, x.d + y.d, x.e + y.e, x.f + y.f, x.g + y.g, x.h + y.h⟩

/-- n blocks of a padded message. -/
def shaBlocks : Nat → ShaWords → List Byte → ShaWords
  | 0, x, _ => x
  | n + 1, x, l => shaBlocks n (shaBlock x (l.take 128)) (l.drop 128)

/-- SHA-384, 48 bytes. -/
def sha384 (l : List Byte) : List Byte :=
  let zeros := (239 - l.length % 128) % 128
  let m := l ++ [0x80] ++ List.replicate zeros 0 ++ toBe 16 (8 * l.length)
  let x := shaBlocks (m.length / 128) shaStart m
  [x.a, x.b, x.c, x.d, x.e, x.f].flatMap fun w => toBe 8 w.toNat

/-! ### ECDSA P-384 -/

def ecP : Nat := 2 ^ 384 - 2 ^ 128 - 2 ^ 96 + 2 ^ 32 - 1
/-- The order of the base point. -/
def ecN : Nat := 0xFFFFFFFFFFFFFFFFFFFFFFFFFFFFFFFFFFFFFFFFFFFFFFFFC7634D81F4372DDF581A0DB248B0A77AECEC196ACCC52973
def ecB : Nat := 0xB3312FA7E23EE7E4988E056BE3F82D19181D9C6EFE8141120314088F5013875AC656398D8A2ED19D2A85C8EDD3EC2AEF
def ecG : Nat × Nat :=
  (0xAA87CA22BE8B05378EB1C71EF320AD746E1D3B628BA79B9859F741E082542A385502F25DBF55296C3A545E3872760AB7,
   0x3617DE4A96262C6F5D9E98BF9292DC29F8F41DBD289A147CE9DA3113B5F0B8C00A60B1CE1D7E819D7A431D7C90EA0E5F)

/-- b^e mod m over the low n bits of e. -/
def powMod (m : Nat) : Nat → Nat → Nat → Nat → Nat
  | 0, _, _, r => r
  | n + 1, b, e, r => powMod m n (b * b % m) (e / 2) (if e % 2 = 1 then r * b % m else r)

/-- The inverse modulo a prime. -/
def invMod (m x : Nat) : Nat := powMod m 384 x (m - 2) 1

/-- Point addition; none is the point at infinity. -/
def ecAdd : Option (Nat × Nat) → Option (Nat × Nat) → Option (Nat × Nat)
  | none, q => q
  | p, none => p
  | some (x, y), some (u, v) =>
    if x = u ∧ (y + v) % ecP = 0 then none
    else
      let l := if x = u then (3 * x * x + (ecP - 3)) * invMod ecP (2 * y % ecP) % ecP
        else (v + ecP - y) * invMod ecP ((u + ecP - x) % ecP) % ecP
      let w := (l * l + 2 * ecP - x - u) % ecP
      some (w, (l * (x + ecP - w) + ecP - y) % ecP)

/-- k P over the low n bits of k, added to an accumulator. -/
def ecMul : Nat → Nat → Option (Nat × Nat) → Option (Nat × Nat) → Option (Nat × Nat)
  | 0, _, _, r => r
  | n + 1, k, p, r => ecMul n (k / 2) (ecAdd p p) (if k % 2 = 1 then ecAdd r p else r)

/-- Whether a signature (r then s, big-endian, R631) of a message verifies under an uncompressed public key. -/
def ecdsaVerify (key sig msg : List Byte) : Bool :=
  let x := beNat ((key.drop 1).take 48)
  let y := beNat ((key.drop 49).take 48)
  let r := beNat (sig.take 48)
  let s := beNat ((sig.drop 48).take 48)
  let w := invMod ecN s
  key.length = 97 && key.headD 0 = 0x04 && sig.length = 96 && x < ecP && y < ecP &&
  y * y % ecP = (x * x * x + (ecP - 3) * x + ecB) % ecP && 0 < r && r < ecN && 0 < s && s < ecN &&
  match ecMul 384 (r * w % ecN) (some (x, y)) (ecMul 384 (beNat (sha384 msg) * w % ecN) (some ecG) none) with
  | some (u, _) => u % ecN = r
  | none => false

end Sys2Proof.Machine
end

