-- ==== Sys2Proof/Machine/RegMap.lean ====
section
/-!
DEFINITION. The register map: every register of Tables 3.4 to 3.9, 4.1, 6.18, 6.19, 14.11, 15.10, 16.9, 16.10, 18.5
to 18.11, 19.3, 19.7 and 19.8 as its fields, each with its bits, its access code (Table 0.3) and its reset value. Bits
that no field covers are RSV. Offsets are those of PF0's BAR0 (Table 3.1).
-/

namespace Sys2Proof.Machine

/-- Access codes of Table 0.3; RWL is RW until CFG_LOCK holds it (Table 3.3). -/
inductive Acc where
  | ro | rw | wo | w1c | rwl
  deriving DecidableEq, Repr

/-- A register field. -/
structure Fld where
  msb : Nat
  lsb : Nat
  acc : Acc
  reset : Nat
  deriving DecidableEq, Repr

/-- A register that is one RO word with reset value 0. -/
def roWord : List Fld := [⟨31, 0, .ro, 0⟩]

/-- RO counters or words at the n offsets from o on, each reset to 0. -/
def roWords (o n : Nat) : List (Nat × List Fld) := (List.range n).map fun i => (o + 4 * i, roWord)

/-! ### Offsets of PF0's BAR0 -/

def partBase (p : Nat) : Nat := 0x40000 + p * 0x1000
def queueBase (q : Nat) : Nat := 0x50000 + q * 0x1000
def dieBase (d : Nat) : Nat := 0x100000 + d * 0x100000
def pavBase (p : Nat) : Nat := 0x3000 + p * 0x40
def tileBase (t : Nat) : Nat := dieBase (t / 24) + 0x80000 + t % 24 * 0x2000

/-- Table 3.4, Table 3.5. -/
def identRegs : List (Nat × List Fld) :=
  [(0x00, [⟨31, 20, .ro, 0x0A3⟩, ⟨19, 8, .ro, 0x404⟩, ⟨7, 0, .ro, 0x04⟩]),
   (0x04, [⟨31, 16, .ro, 3⟩, ⟨15, 0, .ro, 1⟩]),
   (0x08, [⟨31, 22, .ro, 0x3C0⟩, ⟨21, 15, .ro, 0x60⟩, ⟨14, 8, .ro, 0x40⟩, ⟨7, 4, .ro, 0xF⟩]),
   (0x0C, [⟨7, 4, .ro, 0⟩, ⟨3, 3, .ro, 0⟩, ⟨2, 2, .ro, 0⟩, ⟨1, 1, .ro, 0⟩, ⟨0, 0, .ro, 0⟩]),
   (0x10, [⟨0, 0, .rwl, 0⟩]),
   (0x14, [⟨1, 1, .w1c, 0⟩, ⟨0, 0, .w1c, 0⟩])] ++
  roWords 0x18 8 ++ [(0x38, [⟨31, 0, .rw, 0⟩])]

/-- Table 19.3. -/
def bootRegs : List (Nat × List Fld) :=
  [(0x100, [⟨31, 12, .rwl, 0⟩]), (0x104, [⟨31, 0, .rwl, 0⟩]),
   (0x108, [⟨31, 12, .rw, 0⟩]), (0x10C, [⟨31, 0, .rw, 0⟩]),
   (0x110, [⟨3, 3, .wo, 0⟩, ⟨2, 2, .wo, 0⟩, ⟨1, 1, .wo, 0⟩, ⟨0, 0, .wo, 0⟩]),
   (0x114, [⟨31, 28, .ro, 0⟩, ⟨27, 24, .ro, 0⟩, ⟨19, 16, .ro, 0⟩, ⟨7, 0, .ro, 0⟩])] ++
  roWords 0x118 2 ++
  [(0x120, [⟨15, 0, .ro, 0⟩]), (0x124, [⟨31, 16, .ro, 0⟩, ⟨15, 0, .ro, 0⟩]), (0x128, [⟨0, 0, .w1c, 0⟩])] ++
  roWords 0x12C 2 ++ [(0x134, [⟨15, 0, .ro, 0⟩])]

/-- The lowest class a source can take (Table 18.2). -/
def fltFloor (c : Nat) : Nat :=
  if c ∈ [0x01, 0x04, 0x05, 0x07, 0x0F, 0x10, 0x14, 0x16, 0x1C] then 0
  else if c ∈ [0x02, 0x06, 0x09, 0x0A, 0x12, 0x1A, 0x1B] then 1
  else if c = 0x08 then 2
  else if c ∈ [0x15, 0x19] then 4 else 3

/-- Table 18.5. -/
def fltRegs : List (Nat × List Fld) :=
  [(0x000, [⟨0, 0, .rwl, 0⟩]), (0x004, [⟨29, 1, .w1c, 0⟩]), (0x008, roWord), (0x00C, roWord),
   (0x010, [⟨7, 0, .rw, 0⟩]), (0x014, [⟨7, 7, .rw, 0⟩, ⟨5, 0, .rw, 0⟩]),
   (0x018, [⟨15, 12, .wo, 0⟩, ⟨11, 0, .wo, 0⟩]), (0x01C, [⟨31, 28, .ro, 0⟩, ⟨27, 16, .ro, 0⟩, ⟨1, 0, .ro, 0⟩])] ++
  ((List.range 8).map fun i => (0x020 + 4 * i, [⟨7, 0, .rw, 0⟩])) ++ roWords 0x104 29 ++
  ((List.range 29).map fun i =>
    (0x804 + 4 * i, [⟨18, 16, .rw, 0⟩, ⟨15, 8, .rw, 0⟩, ⟨4, 4, .rw, 1⟩, ⟨3, 3, .rw, 0⟩, ⟨2, 0, .rw, fltFloor (i + 1)⟩]))

/-- Table 18.8. -/
def tmrRegs : List (Nat × List Fld) :=
  [(0x000, [⟨9, 0, .rw, 0x3E8⟩]), (0x004, [⟨9, 0, .rw, 0x032⟩]), (0x008, [⟨9, 0, .rw, 0x064⟩]),
   (0x00C, [⟨2, 0, .rw, 3⟩])] ++ roWords 0x010 4

/-- Table 15.10, one partition's block. -/
def pavRegs : List (Nat × List Fld) :=
  [(0x00, [⟨13, 0, .rw, 0x2710⟩]), (0x04, [⟨4, 4, .w1c, 0⟩, ⟨3, 0, .ro, 0⟩])] ++ roWords 0x08 8 ++
  [(0x28, [⟨6, 0, .ro, 0⟩]), (0x2C, roWord)]

/-- Table 16.9. -/
def poolRegs : List (Nat × List Fld) :=
  [(0x000, [⟨2, 1, .rw, 0⟩, ⟨0, 0, .rw, 0⟩]), (0x004, [⟨2, 0, .ro, 0⟩]), (0x008, [⟨4, 0, .rw, 0x18⟩]),
   (0x00C, [⟨15, 0, .rw, 0x10⟩]),
   (0x010, [⟨3, 3, .w1c, 0⟩, ⟨2, 2, .w1c, 0⟩, ⟨1, 1, .w1c, 0⟩, ⟨0, 0, .w1c, 0⟩])] ++ roWords 0x014 6 ++
  [(0x02C, [⟨18, 0, .ro, 0⟩])]

/-- Table 19.7. -/
def pguRegs : List (Nat × List Fld) :=
  [(0x000, [⟨9, 0, .rw, 0x230⟩]), (0x004, [⟨9, 0, .rwl, 0x230⟩]), (0x008, [⟨25, 16, .ro, 0⟩, ⟨3, 0, .ro, 0⟩]),
   (0x00C, [⟨1, 1, .w1c, 0⟩, ⟨0, 0, .w1c, 0⟩])] ++ roWords 0x010 4

/-- Table 3.6, partition p. -/
def partRegs (p : Nat) : List (Nat × List Fld) :=
  [(0x000, [⟨31, 31, .wo, 0⟩, ⟨0, 0, if p = 0 then .ro else .rwl, if p = 0 then 1 else 0⟩]),
   (0x004, [⟨3, 3, .w1c, 0⟩, ⟨2, 0, .ro, 0⟩]),
   (0x008, if p = 0 then roWord else
     [⟨15, 15, .rwl, 0⟩, ⟨10, 8, .rwl, 0⟩, ⟨7, 7, .rwl, 0⟩, ⟨2, 0, .rwl, 0⟩]),
   (0x00C, [⟨2, 0, .rw, 0⟩]),
   (0x010, [⟨31, 0, if p = 0 then .ro else .rwl, 0⟩]), (0x014, [⟨31, 0, if p = 0 then .ro else .rwl, 0⟩]),
   (0x018, [⟨15, 0, .rw, 1⟩]), (0x01C, [⟨19, 0, .rw, 0⟩]), (0x020, [⟨19, 0, .rw, 0⟩]), (0x024, [⟨19, 0, .rw, 0⟩]),
   (0x028, [⟨3, 0, .rwl, p⟩]), (0x02C, roWord)]

/-- Table 4.1 and Q_XARB (R115), queue q. -/
def queueRegs (q : Nat) : List (Nat × List Fld) :=
  [(0x000, [⟨2, 2, .rw, 0⟩, ⟨1, 1, .rw, 0⟩, ⟨0, 0, .rw, 0⟩]),
   (0x004, [⟨4, 3, .ro, 0⟩, ⟨2, 2, .w1c, 0⟩, ⟨1, 1, .w1c, 0⟩, ⟨0, 0, .ro, 0⟩]),
   (0x008, [⟨31, 6, .rw, 0⟩]), (0x00C, [⟨31, 0, .rw, 0⟩]), (0x010, [⟨4, 0, .rw, 4⟩]),
   (0x014, [⟨31, 5, .rw, 0⟩]), (0x018, [⟨31, 0, .rw, 0⟩]), (0x01C, [⟨4, 0, .rw, 4⟩]),
   (0x020, [⟨31, 2, .rw, 0⟩]), (0x024, [⟨31, 0, .rw, 0⟩]),
   (0x028, [⟨31, 6, .rw, 0⟩]), (0x02C, [⟨31, 0, .rw, 0⟩]), (0x030, [⟨4, 0, .rw, 4⟩]),
   (0x034, [⟨31, 7, .rw, 0⟩]), (0x038, [⟨31, 0, .rw, 0⟩]), (0x03C, [⟨3, 0, .rw, 2⟩]),
   (0x040, [⟨31, 31, .rw, 0⟩, ⟨19, 0, .rw, 0⟩]),
   (0x044, [⟨31, 16, .rw, 0⟩, ⟨15, 8, .rw, 0⟩, ⟨7, 7, .rw, 0⟩, ⟨5, 0, .rw, 0⟩]),
   (0x048, [⟨5, 0, .rw, q⟩])] ++ roWords 0x04C 4 ++ [(0x800, [⟨3, 0, .rw, 1⟩])]

/-- Table 3.8 below 0x1000, Table 3.9. The fused values are read from the die's fuses. -/
def dieIdRegs : List (Nat × List Fld) :=
  [(0x000, roWord), (0x004, [⟨15, 0, .ro, 0⟩]), (0x008, [⟨23, 16, .ro, 0⟩, ⟨15, 8, .ro, 0⟩, ⟨7, 0, .ro, 0⟩]),
   (0x00C, [⟨17, 16, .ro, 0⟩, ⟨15, 8, .ro, 0x42⟩, ⟨7, 0, .ro, 0⟩]), (0x010, roWord), (0x014, roWord),
   (0x018, [⟨23, 0, .ro, 0⟩]), (0x01C, [⟨0, 0, .ro, 0⟩]),
   (0x100, [⟨1, 0, .rwl, 0⟩]), (0x104, [⟨0, 0, .rw, 0⟩]), (0x108, [⟨1, 0, .rwl, 0⟩])]

/-- Table 19.8. -/
def diePguRegs : List (Nat × List Fld) :=
  [(0x000, [⟨9, 0, .rw, 0x28A⟩]),
   (0x004, [⟨29, 20, .ro, 0⟩, ⟨19, 16, .ro, 0⟩, ⟨15, 13, .ro, 0⟩, ⟨7, 0, .ro, 0⟩]),
   (0x008, [⟨15, 0, .ro, 0⟩]), (0x00C, [⟨15, 0, .ro, 0⟩]), (0x010, roWord)]

/-- R617. -/
def dieTmrRegs : List (Nat × List Fld) :=
  [(0x000, roWord), (0x004, roWord), (0x008, [⟨11, 0, .ro, 0x7D0⟩]), (0x00C, roWord)]

/-- Table 18.6. -/
def dieFltRegs : List (Nat × List Fld) :=
  [(0x000, [⟨29, 1, .w1c, 0⟩]), (0x004, roWord), (0x008, [⟨23, 0, .ro, 0xFFFFFF⟩]),
   (0x00C, [⟨21, 16, .ro, 0x3F⟩, ⟨13, 12, .ro, 3⟩, ⟨9, 8, .ro, 3⟩, ⟨5, 4, .ro, 0⟩, ⟨3, 0, .ro, 0⟩])] ++
  roWords 0x104 29

/-- Table 16.10. -/
def diePoolRegs : List (Nat × List Fld) :=
  [(0x000, [⟨4, 0, .ro, 0⟩]), (0x004, [⟨11, 0, .ro, 0⟩]), (0x008, [⟨11, 0, .ro, 0⟩])] ++ roWords 0x00C 2 ++
  ((List.range 8).map fun k => (0x020 + 8 * k, [⟨11, 0, .ro, 0⟩])) ++
  ((List.range 8).map fun k => (0x024 + 8 * k, [⟨25, 0, .ro, 0⟩]))

/-- Table 14.11 for the two units of a die (R496). -/
def dieDuRegs : List (Nat × List Fld) := roWords 0x000 8 ++ roWords 0x100 8

/-- Table 6.19. -/
def dieMmnRegs : List (Nat × List Fld) :=
  [(0x000, [⟨2, 0, .ro, 0⟩]), (0x004, roWord), (0x008, [⟨15, 0, .ro, 0⟩]), (0x00C, roWord),
   (0x010, [⟨15, 0, .ro, 0⟩])]

/-- Table 6.18. -/
def tileRegs : List (Nat × List Fld) :=
  [(0x000, [⟨0, 0, .rw, 1⟩]), (0x004, [⟨13, 8, .ro, 0⟩, ⟨1, 0, .ro, 0⟩]), (0x008, roWord), (0x00C, roWord),
   (0x010, [⟨0, 0, .w1c, 0⟩]), (0x014, roWord), (0x018, roWord), (0x01C, roWord),
   (0x020, [⟨15, 8, .ro, 0⟩, ⟨3, 0, .ro, 0⟩]), (0x024, [⟨4, 0, .rw, 0⟩]), (0x028, roWord)]

/-- Table 18.10. -/
def tileCntRegs : List (Nat × List Fld) :=
  [(0x000, [⟨15, 0, .ro, 0⟩]), (0x004, [⟨15, 0, .ro, 0xFFFF⟩])] ++ roWords 0x008 21

/-- The registers of one die's block by offset in it (Table 3.8). -/
def dieRegs (o : Nat) : Option (List Fld) :=
  if o < 0x1000 then dieIdRegs.lookup o
  else if o < 0x2000 then diePguRegs.lookup (o - 0x1000)
  else if o < 0x3000 then dieTmrRegs.lookup (o - 0x2000)
  else if o < 0x4000 then dieFltRegs.lookup (o - 0x3000)
  else if o < 0x5000 then diePoolRegs.lookup (o - 0x4000)
  else if o < 0x6000 then dieDuRegs.lookup (o - 0x5000)
  else if o < 0x7000 then dieMmnRegs.lookup (o - 0x6000)
  else if o < 0x80000 then none
  else if o < 0xB0000 then
    if o % 0x2000 < 0x1000 then tileRegs.lookup (o % 0x2000) else tileCntRegs.lookup (o % 0x2000 - 0x1000)
  else none

/-- The fields of the register at an offset of PF0's BAR0 below the aliases; none where no register stands
(Table 3.1). -/
def regFields (o : Nat) : Option (List Fld) :=
  if o < 0x100 then identRegs.lookup o
  else if o < 0x1000 then bootRegs.lookup o
  else if o < 0x2000 then fltRegs.lookup (o - 0x1000)
  else if o < 0x3000 then tmrRegs.lookup (o - 0x2000)
  else if o < 0x4000 then
    if o < 0x3400 then pavRegs.lookup (o % 0x40)
    else if o = 0x3800 then some [⟨9, 0, .rw, 0x64⟩] else none
  else if o < 0x5000 then
    if 0x4100 ≤ o ∧ o < 0x4200 ∧ o % 4 = 0 then some [⟨19, 0, .ro, 0⟩] else poolRegs.lookup (o - 0x4000)
  else if o < 0x6000 then pguRegs.lookup (o - 0x5000)
  else if o < 0x7000 then if o < 0x61A8 ∧ o % 4 = 0 then some roWord else none
  else if o < 0x40000 then none
  else if o < 0x50000 then (partRegs ((o - 0x40000) / 0x1000)).lookup (o % 0x1000)
  else if o < 0x90000 then (queueRegs ((o - 0x50000) / 0x1000)).lookup (o % 0x1000)
  else if o < 0x100000 then none
  else if o < 0x500000 then dieRegs (o % 0x100000)
  else none

/-- The reset value of a register word: its fields at their reset values. -/
def fldReset (fs : List Fld) : Nat := fs.foldl (fun a f => a + f.reset * 2 ^ f.lsb) 0

/-- What the register word at an offset holds while nothing has changed it. -/
def regReset (o : Nat) : Word := BitVec.ofNat 32 (fldReset ((regFields o).getD []))

/-- The mask of the bits of the fields that satisfy p. -/
def fldMask (fs : List Fld) (p : Fld → Bool) : Word :=
  fs.foldl (fun a f => if p f then a ||| BitVec.ofNat 32 ((2 ^ (f.msb + 1 - f.lsb) - 1) * 2 ^ f.lsb) else a) 0

/-- The low halves of the 64-bit registers that can be written (R93). -/
def isLowHalf (o : Nat) : Bool :=
  o = 0x100 || o = 0x108 || (0x40000 ≤ o && o < 0x50000 && o % 0x1000 = 0x010) ||
  (0x50000 ≤ o && o < 0x90000 && o % 0x1000 ∈ [0x008, 0x014, 0x020, 0x028, 0x034])

/-- The high halves. -/
def isHighHalf (o : Nat) : Bool := 4 ≤ o && isLowHalf (o - 4)

/-- The die whose register block holds an offset (Table 3.1). -/
def dieOf (o : Nat) : Option Nat :=
  if 0x100000 ≤ o ∧ o < 0x500000 then some ((o - 0x100000) / 0x100000) else none

/-- Table 19.6: some true for a retained register that a restore applies, some false for one that is only recorded. -/
def retained (o : Nat) : Option Bool :=
  if o = 0x38 then some true
  else if o = 0x10 ∨ o = 0x100 ∨ o = 0x104 ∨ o = 0x1000 ∨ o = 0x5004 then some false
  else if o = 0x1014 then some true
  else if 0x1804 ≤ o ∧ o ≤ 0x1874 ∧ o % 4 = 0 then some true
  else if o ∈ [0x2000, 0x2004, 0x2008, 0x200C] then some true
  else if 0x3000 ≤ o ∧ o < 0x3400 ∧ o % 0x40 = 0 then some true
  else if o ∈ [0x3800, 0x4000, 0x4008, 0x400C, 0x5000] then some true
  else if 0x40000 ≤ o ∧ o < 0x50000 then
    if o % 0x1000 ∈ [0x00C, 0x018, 0x01C, 0x020, 0x024] then some true
    else if o % 0x1000 ∈ [0x000, 0x008, 0x010, 0x014, 0x028] then some false else none
  else if 0x100000 ≤ o ∧ o < 0x500000 then
    if o % 0x100000 = 0x1000 then some true
    else if o % 0x100000 ∈ [0x100, 0x108] then some false else none
  else none

/-- The retained registers in ascending offset order (R638). -/
def retainedAll : List Nat :=
  [0x10, 0x38, 0x100, 0x104, 0x1000, 0x1014] ++ ((List.range 29).map fun i => 0x1804 + 4 * i) ++
  [0x2000, 0x2004, 0x2008, 0x200C] ++ ((List.range 16).map pavBase) ++ [0x3800, 0x4000, 0x4008, 0x400C, 0x5000, 0x5004] ++
  ((List.range 16).flatMap fun p =>
    [0x000, 0x008, 0x00C, 0x010, 0x014, 0x018, 0x01C, 0x020, 0x024, 0x028].map (partBase p + ·)) ++
  ((List.range 4).flatMap fun d => [0x100, 0x108, 0x1000].map (dieBase d + ·))

end Sys2Proof.Machine
end

