-- ==== Sys2Proof/Machine/Units.lean ====
section
/-!
DEFINITION. What the state says of registers, units, partitions, queues, block memory and epochs: the questions that
the meanings and the register reads ask.
-/

namespace Sys2Proof.Machine

/-- What a command answers. -/
abbrev Out := Host.Outcome State Fault Refusal

/-! ### Register words -/

/-- The register word at an offset of PF0's BAR0. -/
def reg (s : State) (o : Nat) : Word := look regReset s.regs o

/-- Bits msb to lsb of a register word. -/
def fld (s : State) (o msb lsb : Nat) : Nat := bits (reg s o).toNat msb lsb

/-- The 64-bit value of the two words at o and o + 4. -/
def reg64 (s : State) (o : Nat) : Nat := (reg s o).toNat + 2 ^ 32 * (reg s (o + 4)).toNat

def setReg (s : State) (o : Nat) (v : Word) : State := { s with regs := put regReset o v s.regs }

/-- The word v with bits msb to lsb replaced by x. -/
def withBits (v msb lsb x : Nat) : Word :=
  BitVec.ofNat 32 (v - bits v msb lsb * 2 ^ lsb + x % 2 ^ (msb + 1 - lsb) * 2 ^ lsb)

def setFld (s : State) (o msb lsb x : Nat) : State := setReg s o (withBits (reg s o).toNat msb lsb x)

/-- Advances a 32-bit counter by n; it wraps (R95). -/
def bumpBy (s : State) (o n : Nat) : State := setReg s o (reg s o + BitVec.ofNat 32 n)

def bump (s : State) (o : Nat) : State := bumpBy s o 1

/-- Advances a 64-bit counter by n; it wraps at 2^64 (R627). -/
def bump64 (s : State) (o n : Nat) : State :=
  let x := reg64 s o + n
  setReg (setReg s o (BitVec.ofNat 32 x)) (o + 4) (BitVec.ofNat 32 (x / 2 ^ 32))

/-- A hardware set of a W1C bit, which advances its companion counter (R95). -/
def setW1c (s : State) (o b cnt : Nat) : State := bump (setFld s o b b 1) cnt

/-! ### Units in service (Table 18.3, R618) -/

def dieLost (s : State) (d : Nat) : Bool := s.lost.contains (3, d)
def clusterLost (s : State) (c : Nat) : Bool := s.lost.contains (2, c) || dieLost s (c / 6)
def tileLost (s : State) (t : Nat) : Bool := s.lost.contains (1, t) || clusterLost s (t / 4)
def mpLost (s : State) (m : Nat) : Bool := s.lost.contains (4, m) || dieLost s (m / 4)
def hpLost (s : State) (h : Nat) : Bool := s.lost.contains (5, h) || dieLost s (h / 2)
def duLost (s : State) (u : Nat) : Bool := s.lost.contains (8, u) || dieLost s (u / 2)

/-- Input bytes queued at a dictionary unit (R490). -/
def duQueued (s : State) (u : Nat) : Nat :=
  ((s.threads.flatMap fun t => t.tickets).map fun k =>
    match k.deferred with | some (.tokenise _ v n _) => if v = u then n else 0 | _ => 0).foldl (· + ·) 0

/-- Whether a dictionary unit has a command (Table 14.11). -/
def duBusy (s : State) (u : Nat) : Bool :=
  s.threads.any fun t => t.tickets.any fun k => match k.deferred with | some (.tokenise _ v _ _) => v = u | _ => false

/-- The two dies of a Quadrille edge, the lower-numbered first (R11, Table 18.3). -/
def edgeEnds (e : Nat) : Nat × Nat := if e = 0 then (0, 1) else if e = 1 then (1, 3) else if e = 2 then (2, 3) else (0, 2)

/-- An edge serves while it is not lost and neither of its dies is (R620 step 2). -/
def edgeUp (s : State) (e : Nat) : Bool :=
  !s.lost.contains (7, e) && !dieLost s (edgeEnds e).1 && !dieLost s (edgeEnds e).2

/-- The dies of l and those one edge away from them. -/
def spread (s : State) (l : List Nat) : List Nat :=
  (List.range 4).filter fun d => l.contains d || (List.range 4).any fun e =>
    edgeUp s e && ((edgeEnds e).1 = d && l.contains (edgeEnds e).2 || (edgeEnds e).2 = d && l.contains (edgeEnds e).1)

/-- The dies with a path to die 0 over the edges in service (R13). -/
def reached (s : State) : List Nat := spread s (spread s (spread s [0]))

/-- Place of a die in the ring 0, 1, 3, 2. -/
def ringPos (d : Nat) : Nat := if d = 2 then 3 else if d = 3 then 2 else d

/-- The edges that traffic from die a to die b takes: the way with fewer hops over edges in service, and between equal ones
that of R12 (R12, R13). -/
def route (s : State) (a b : Nat) : List Nat :=
  let lo := Nat.min (ringPos a) (ringPos b)
  let hi := Nat.max (ringPos a) (ringPos b)
  let one := (List.range 4).filter fun e => lo ≤ e && e < hi
  let two := (List.range 4).filter fun e => !(lo ≤ e && e < hi)
  let up (l : List Nat) : Bool := l.all (edgeUp s)
  let first := if one.length < two.length || (one.length = two.length && lo = 0) then one else two
  let second := if first = one then two else one
  if up first || !up second then first else second

/-- Whether transfers from die a to die b wait for a route change to drain (R14). -/
def routeHeld (s : State) (a b : Nat) : Bool := a ≠ b && s.routeHolds.contains (a, b)

/-- Whether a unit is out of service; a source link and the block are never lost (R58, R600). -/
def unitLost (s : State) (k i : Nat) : Bool :=
  if k = 1 then tileLost s i else if k = 2 then clusterLost s i else if k = 3 then dieLost s i
  else if k = 4 then mpLost s i else if k = 5 then hpLost s i else if k = 7 then !edgeUp s i
  else if k = 8 then duLost s i else false

/-- Indices of a unit kind (Table 18.3). -/
def unitCount (k : Nat) : Nat :=
  if k = 0 then 1 else if k = 1 then 96 else if k = 2 then 24 else if k = 3 then 4 else if k = 4 then 16
  else if k = 5 then 8 else if k = 6 then 16 else if k = 7 then 4 else if k = 8 then 8 else 0

/-- A memory port that failed training (R61). -/
def mpFailed (s : State) (m : Nat) : Bool := s.boot.memDone && !s.mpUp.getLsbD m

/-- A memory port that holds memory in service. -/
def mpServes (s : State) (m : Nat) : Bool := s.mpUp.getLsbD m && !mpLost s m

def diesUp (s : State) : List Nat := (List.range 4).filter fun d => !dieLost s d
def tilesUp (s : State) : List Nat := (List.range 96).filter fun t => !tileLost s t

/-- Usable attached memory in GiB: 60 for each port neither lost nor failed in training (Table 3.5, R63). -/
def memGib (s : State) : Nat :=
  60 * ((List.range 16).filter fun m => !mpLost s m && !mpFailed s m).length

/-- BLK_STATUS.DEGRADED: a tile, cluster, die or memory port is out of service, or a DEGRADED-class fault has taken an edge, a
host port or a dictionary unit out (R595, Table 3.5). -/
def degraded (s : State) : Bool :=
  (s.lost.any fun u => u.1 = 5 || u.1 = 7 || u.1 = 8) ||
  (List.range 96).any (tileLost s) || (List.range 16).any fun m => mpLost s m || mpFailed s m

/-- BLK_STATUS (Table 3.5). -/
def blkStatus (s : State) : Nat :=
  (if dieLost s 0 then 0x10 else 0) + (if dieLost s 1 then 0x20 else 0) + (if dieLost s 2 then 0x40 else 0) +
  (if dieLost s 3 then 0x80 else 0) + (if s.fatal then 8 else 0) + (if degraded s then 4 else 0) +
  (if s.boot.fwRun then 2 else 0) + (if s.boot.ready then 1 else 0)

/-- Die-first orders of Table 16.3. -/
def dieOrder (d : Nat) : List Nat :=
  if d = 0 then [0, 1, 2, 3] else if d = 1 then [1, 0, 3, 2] else if d = 2 then [2, 0, 3, 1] else [3, 1, 2, 0]

/-- Whether the block runs: it is out of reset, not held by TESTMODE, and no FATAL fault stands (R68, R80, R601). -/
def alive (s : State) : Bool := !s.pins.inReset && !s.pins.testHeld && !s.fatal

/-! ### Partitions -/

def part (s : State) (p : Nat) : Part := s.parts.getD p Part.reset
def setPart (s : State) (p : Nat) (f : Part → Part) : State := { s with parts := modAt s.parts p f }

def partEn (s : State) (p : Nat) : Bool := p = 0 || fld s (partBase p) 0 0 = 1

/-- PART_QMASK of a partition p ≥ 1. -/
def qmask (s : State) (p : Nat) : Nat := reg64 s (partBase p + 0x10)

/-- The partition that owns queue q: the one p ≥ 1 whose PART_QMASK claims it, else partition 0 (R85). -/
def owner (s : State) (q : Nat) : Nat :=
  (((List.range 16).drop 1).find? fun p => bitN (qmask s p) q).getD 0

def priValid (s : State) (p : Nat) : Bool := fld s (partBase p + 8) 7 7 = 1
def secValid (s : State) (p : Nat) : Bool := fld s (partBase p + 8) 15 15 = 1
def primaryPort (s : State) (p : Nat) : Nat := if p = 0 then s.port0 else fld s (partBase p + 8) 2 0
def secondaryPort (s : State) (p : Nat) : Nat := fld s (partBase p + 8) 10 8

/-- Whether function fn is presented on a port: PF0 on every trained port, VFn on the bound ports of an enabled
partition n (R39). -/
def presented (s : State) (fn port : Nat) : Bool :=
  !s.pins.inReset && !s.pins.testHeld && s.hpUp.getLsbD port &&
  (fn = 0 || (partEn s fn && ((priValid s fn && primaryPort s fn = port) || (secValid s fn && secondaryPort s fn = port))))

/-- The port that carries a partition's traffic (R45, R47, R51). -/
def portOf (s : State) (p : Nat) : Nat :=
  if p = 0 then s.port0 else if (part s p).onSecondary then secondaryPort s p else primaryPort s p

/-- Whether a port bound to partition p is up; every port counts for partition 0 (R50, R51). -/
def anyPortUp (s : State) (p : Nat) : Bool :=
  if p = 0 then s.hpUp ≠ 0
  else (priValid s p && s.hpUp.getLsbD (primaryPort s p)) || (secValid s p && s.hpUp.getLsbD (secondaryPort s p))

/-- PART_STATUS.ACTIVE (Table 3.6). -/
def partActive (s : State) (p : Nat) : Bool := partEn s p && anyPortUp s p && !(part s p).resetting

/-- Die of the partition's primary host port. -/
def primaryDie (s : State) (p : Nat) : Nat := primaryPort s p / 2

def weight (s : State) (p : Nat) : Nat := fld s (partBase p + 0x18) 15 0
def weightSum (s : State) : Nat := ((List.range 16).filter (partEn s)).foldl (fun a p => a + weight s p) 0

/-- Guaranteed threads G_p (R581). -/
def guaranteed (s : State) (p : Nat) : Nat :=
  if partEn s p then weight s p * 32 * (tilesUp s).length / weightSum s else 0

/-! ### Turns of partitions at a server (R585) -/

/-- The least of a list. -/
def leastOf (l : List Nat) : Option Nat := l.foldl (fun a x => match a with | none => some x | some y => some (Nat.min x y)) none

/-- Input bytes counted for partition p at a server. One that nothing has been counted for since it last had nothing waiting
there stands with the least of the others (DESIGN CHOICE, log entry 70). -/
def turnBytes (s : State) (u p : Nat) : Nat :=
  ((s.turns.find? fun t => t.server = u && t.part = p).map (·.bytes)).getD
    ((leastOf ((s.turns.filter fun t => t.server = u).map (·.bytes))).getD 0)

/-- Whether partition p comes before r at a server: it has the fewer bytes counted by weight, the lower number on equal
counts. -/
def turnBefore (s : State) (u p r : Nat) : Bool :=
  let x := turnBytes s u p * Nat.max 1 (weight s r)
  let y := turnBytes s u r * Nat.max 1 (weight s p)
  x < y || (x = y && p ≤ r)

/-- Counts n input bytes for partition p at a server, where the partitions of `after` still wait. -/
def countTurn (s : State) (u p n : Nat) (after : List Nat) : State :=
  let new (r : Nat) : Turn := ⟨u, r, turnBytes s u r + if r = p then n else 0⟩
  { s with turns := (s.turns.filter fun t => t.server ≠ u) ++ after.map new }

/-! ### Queues -/

def queue (s : State) (q : Nat) : Queue := s.queues.getD q Queue.reset
def setQueue (s : State) (q : Nat) (f : Queue → Queue) : State := { s with queues := modAt s.queues q f }

def qEnable (s : State) (q : Nat) : Bool := fld s (queueBase q) 0 0 = 1
def qDrEn (s : State) (q : Nat) : Bool := fld s (queueBase q) 1 1 = 1
def qPushEn (s : State) (q : Nat) : Bool := fld s (queueBase q) 2 2 = 1
def sqDepth (s : State) (q : Nat) : Nat := 2 ^ fld s (queueBase q + 0x10) 4 0
def cqDepth (s : State) (q : Nat) : Nat := 2 ^ fld s (queueBase q + 0x1C) 4 0
def drDepth (s : State) (q : Nat) : Nat := 2 ^ fld s (queueBase q + 0x30) 4 0
def curDepth (s : State) (q : Nat) : Nat := 2 ^ fld s (queueBase q + 0x3C) 3 0
def cqSel (s : State) (q : Nat) : Nat := fld s (queueBase q + 0x48) 5 0

/-- Entries that the driver has posted and the block has not taken. -/
def sqCount (s : State) (q : Nat) : Nat := ((queue s q).sqPi - (queue s q).sqCi).toNat
def drCount (s : State) (q : Nat) : Nat := ((queue s q).drPi - (queue s q).drCi).toNat

/-- Whether CQ c has a slot neither filled nor promised (R130). -/
def cqFree (s : State) (c : Nat) : Bool :=
  ((queue s c).cqPi - (queue s c).cqCi).toNat + (queue s c).promised < cqDepth s c

/-- The function and PASID of a queue's requests as the upper part of an address key (R41, log entry 12). -/
def qSpace (s : State) (q : Nat) : Nat :=
  let en := fld s (queueBase q + 0x40) 31 31
  (owner s q * 2 + en) * 2 ^ 20 + (if en = 1 then fld s (queueBase q + 0x40) 19 0 else 0)

/-- The address key of a host address in a function's space. -/
def hostKey (space addr : Nat) : Nat := space * 2 ^ 64 + addr % 2 ^ 64

/-- PF0's space without PASID (R632). -/
def pf0Space : Nat := 0

/-! ### Block memory -/

def classSize (k : Nat) : Nat := 4096 * 4 ^ k
def perSuper (k : Nat) : Nat := 16384 / 4 ^ k

/-- A buffer handle (R556). -/
def mkHandle (d k : Nat) (large : Bool) (i : Nat) : Nat := d * 2 ^ 30 + k * 2 ^ 27 + (if large then 2 ^ 26 else 0) + i
def hDie (h : Nat) : Nat := h / 2 ^ 30 % 4
def hClass (h : Nat) : Nat := h / 2 ^ 27 % 8
def hIdx (h : Nat) : Nat := h % 2 ^ 26
def bufSize (b : Buf) : Nat := classSize (hClass b.handle) * b.n
def bufOf (s : State) (h : Nat) : Option Buf := s.bufs.find? fun b => b.handle = h
def setBuf (s : State) (h : Nat) (f : Buf → Buf) : State := { s with bufs := updIf (fun b => b.handle = h) f s.bufs }

/-- Bytes of partition p's buffers whose owner satisfies w. -/
def bytesHeld (s : State) (p : Nat) (w : Owner → Bool) : Nat :=
  (s.bufs.filter fun b => b.part = p && w b.own).foldl (fun a b => a + bufSize b) 0

/-- Uses charged to the pool quota buffer by buffer (Table 16.4). -/
def Owner.isPool : Owner → Bool
  | .stage _ _ => true
  | .runAhead => true
  | .staging => true
  | _ => false

/-- Smallest class that holds n bytes, n up to 64 MiB (R552). -/
def classFor (n : Nat) : Nat := ((List.range 8).find? fun k => n ≤ classSize k).getD 7

/-- Block memory that the staging of one sample takes (R501). -/
def stagingSize (outBytes : Nat) : Nat :=
  if outBytes = 0 then 0 else if outBytes ≤ classSize 7 then classSize (classFor outBytes) else ceilDiv outBytes (classSize 7) * classSize 7

/-- Bytes of POOL reservations of one sample of a stage. -/
def poolPerSample (st : Stage) : Nat :=
  ((st.pool.zipIdx).map fun (n, k) => n * classSize k).foldl (· + ·) 0

def recipePool (r : Recipe) : Nat := r.inflight * (r.stages.map poolPerSample).foldl (· + ·) 0

/-- Charge of a partition's model and dictionary copies (R462). -/
def copyCharge (s : State) (p : Nat) : Nat :=
  ((s.models.filter (·.part = p)).map fun m => 4 * roundUp m.imageBytes 65536).foldl (· + ·) 0 +
  ((s.dicts.filter (·.part = p)).map fun m => 4 * roundUp (2 * m.imageBytes) 65536).foldl (· + ·) 0

/-- The partition's pool reservations (Table 5.5 code 0x06, R501, R462). -/
def poolReserved (s : State) (p : Nat) : Nat :=
  ((s.recipes.filter (·.part = p)).map recipePool).foldl (· + ·) 0 +
  ((s.epochs.filter (·.part = p)).map fun e => e.inflight * stagingSize e.outBytes).foldl (· + ·) 0 +
  copyCharge s p

def poolQuota (s : State) (p : Nat) : Nat := fld s (partBase p + 0x24) 19 0 * 2 ^ 20
/-- Charge of a transcoded copy and its regeneration record, each rounded up to 4 KiB. -/
def CopySource.charge (c : CopySource) : Nat := roundUp c.data.length 4096 + roundUp c.regen.length 4096

/-- Charge of the byte entries that satisfy f, each rounded up to 4 KiB, and of every copy with its regeneration record
(R563, Table 16.10). -/
def cacheChargeOf (s : State) (p : Nat) (f : CacheEntry → Bool) : Nat :=
  ((s.cache.filter fun c => c.part = p && f c).map fun c => roundUp c.data.length 4096).foldl (· + ·) 0 +
  ((s.copies.filter fun c => c.part = p).map (·.charge)).foldl (· + ·) 0

def cacheCharge (s : State) (p : Nat) : Nat := cacheChargeOf s p fun _ => true

/-- The charge of what no eviction removes: pinned entries, copies and regeneration records. -/
def pinnedCharge (s : State) (p : Nat) : Nat := cacheChargeOf s p fun c => (part s p).pins.contains c.src

/-- What a partition's cache may hold: its reservation, or no more than it already holds after a quota lowered below that, until
CACHE_UNPIN or CACHE_EVICT has brought the charge down (R586). -/
def cacheRoom (s : State) (p : Nat) : Nat :=
  if (part s p).cacheBar.any fun n => n ≤ pinnedCharge s p then pinnedCharge s p else (part s p).cacheMib * 2 ^ 20

/-- Worst-case stored bytes of one copy of a SPILL of n bytes: every page raw (Table 16.5, R563). -/
def spillWorst (codec n : Nat) : Nat :=
  if codec = 0 then 64 + n
  else if codec = 3 then 64 + n / 2 + n / 64
  else 64 + ceilDiv (ceilDiv n 4096) 64 * 64 + n

/-- The worst case of a SPILL under way; 0 for another command. -/
def runningWorst (s : State) (t : Transfer) : Nat :=
  match t.kind, s.cmds.find? fun x => x.id = t.cmd with
  | .spill, some x => spillWorst (bits (x.ops.getD 2 0).toNat 3 0) (bits (x.ops.getD 1 0).toNat 39 0)
  | _, _ => 0

/-- Charge of a partition's spill handles and of the reservations of its SPILLs under way (R563, R564, R570). -/
def spillCharge (s : State) (p : Nat) : Nat :=
  ((s.spills.filter fun x => x.part = p && !x.copies.isEmpty).map fun x =>
    roundUp x.stored 4096 * (if x.mirror then 2 else 1)).foldl (· + ·) 0 +
  ((s.transfers.filter fun t => t.part = p).map fun t => roundUp (runningWorst s t) 4096 * t.bufs.length).foldl (· + ·) 0

/-- Superblocks that a die's ports in service hold (R540). -/
def superCount (s : State) (d : Nat) : Nat :=
  960 * ((List.range 4).filter fun i => mpServes s (4 * d + i)).length

/-- The die's lowest free superblock. -/
def freeSuper (s : State) (d : Nat) : Option Nat :=
  (List.range (superCount s d)).find? fun i => !s.superblocks.any fun b => b.die = d && b.idx = i

/-! ### Samples, threads, epochs -/

def threadOf (s : State) (th : ThreadRef) : Option Thread := s.threads.find? fun t => t.th = th
def setThread (s : State) (th : ThreadRef) (f : Thread → Thread) : State :=
  { s with threads := updIf (fun t => t.th = th) f s.threads }
def sampleOf (s : State) (h : Nat) : Option Sample := s.samples.find? fun x => x.h = h
def setSample (s : State) (h : Nat) (f : Sample → Sample) : State :=
  { s with samples := updIf (fun x => x.h = h) f s.samples }
def recipeOf (s : State) (p id : Nat) : Option Recipe := s.recipes.find? fun r => r.part = p && r.id = id
def epochOf (s : State) (q : Nat) : Option Epoch := s.epochs.find? fun e => e.q = q
def setEpoch (s : State) (q : Nat) (f : Epoch → Epoch) : State :=
  { s with epochs := updIf (fun e => e.q = q) f s.epochs }

def thTile : ThreadRef → Option Nat
  | .tile t _ => some t.val
  | .mgmt _ _ => none

/-- The die a thread runs on. -/
def thDie : ThreadRef → Nat
  | .tile t _ => t.val / 24
  | .mgmt d _ => d.val

def thNum : ThreadRef → Nat
  | .tile _ n => n.val
  | .mgmt _ n => n.val

/-- Threads that partition p holds (R581). -/
def threadsHeld (s : State) (p : Nat) : Nat := (s.threads.filter fun t => t.part = p && (thTile t.th).isSome).length

/-- The waiting modes: REPRO_EXACT, and any mode with STRICT set (R500). -/
def waitingMode (e : Epoch) : Bool := e.mode = 1 || e.strict

/-- Member batches of an epoch (R500). -/
def memberBatches (e : Epoch) : Nat := ceilDiv e.n e.b

/-- Whether a sample has copied its staging into its slot. -/
def hasCopied (s : State) (q pos : Nat) : Bool :=
  s.samples.any fun x => (match x.from_ with | .epoch q' => q'.val = q | _ => false) && x.pos = pos && x.copied

/-- A slot is complete when it holds a placed sample whose copy has ended, or is PADDED, removed or VACANT (R509). -/
def slotDone (s : State) (q : Nat) (x : Slot) : Bool :=
  x.padded || x.vacant || x.removed || (match x.pos with | some p => hasCopied s q p | none => false)

def batchComplete (s : State) (e : Epoch) : Bool := e.slots.all (slotDone s e.q)

/-- Step k makes batch f + k + L due (R508). -/
def batchDue (e : Epoch) : Bool := 1 ≤ e.steps && e.open_ < e.first + e.lead + e.steps

/-- Whether deferred positions of the epoch remain to be issued or resolved. -/
def unresolved (e : Epoch) : Bool := e.deferredN ≠ 0 || !e.reissue.isEmpty

def stragglers (s : State) (p : Nat) : Nat := (s.samples.filter fun x => x.part = p && x.straggler).length

end Sys2Proof.Machine
end

