-- ==== Sys2Proof/Machine/Ops.lean ====
section
/-!
DEFINITION. The operations that every family shares: reads and writes of host memory, interrupts, completion entries,
events, and the commands that wait.
-/

namespace Sys2Proof.Machine

/-! ### Accesses that address no register -/

/-- An access that addresses no register: it is counted, and the function reports it, a discarded write as an unsupported
posted request (R87). Which reports leave the function is for its AER settings, outside the spec (log entry 52). -/
def unsupported (s : State) (fn : Nat) (write : Bool) : State :=
  bump { s with urReports := s.urReports ++ [(fn, write)] } 0x2C

/-! ### Host memory (R41 to R46, R664) -/

/-- Bytes of [key, key + n) before the first page whose translation is unresolvable (R43). -/
def okBytes (s : State) (key n : Nat) : Nat :=
  (s.hostFaults.map fun f => if key < (f + 1) * 4096 ∧ f * 4096 < key + n then f * 4096 - key else n).foldl Nat.min n

/-- Whether an access meets an unresolvable translation fault. -/
def faulty (s : State) (key n : Nat) : Bool := okBytes s key n < n

/-- The byte at an address key that the running command's reads have brought before (R295). -/
def broughtAt (s : State) (key : Nat) : Option Byte :=
  s.brought.findSome? fun g => if g.1 ≤ key && key < g.1 + g.2.length then g.2[key - g.1]? else none

/-- The n bytes at an address key: memory's, but for those that have been read before. -/
def hostBytes (s : State) (key n : Nat) : List Byte :=
  let l := lookAll zero s.hostMem key n
  if s.brought.isEmpty then l else l.zipIdx.map fun (b, i) => (broughtAt s (key + i)).getD b

/-- Stores bytes at an address key. -/
def poke (s : State) (key : Nat) (l : List Byte) : State := { s with hostMem := putAll zero key l s.hostMem }

/-- Whether partition p's port carries requests now (R45, R664). -/
def canSend (s : State) (p : Nat) : Bool := !(part s p).stranded && s.hpUp.getLsbD (portOf s p)

/-- Counts bytes read from the host through partition p's port (Table 18.11). -/
def countRead (s : State) (p n : Nat) : State := bump64 s (0x6008 + 16 * portOf s p) n

/-- Puts a write on a port: its bytes reach host memory unless its translation is unresolvable, and it stays unretired
(R43, R46). -/
def sendWrite (s : State) (port : Nat) (w : HostWrite) : State :=
  let s := if faulty s w.key w.bytes.length then s else poke s w.key w.bytes
  let s := bump64 s (0x6000 + 16 * port) w.bytes.length
  { s with unretired :=
      if s.unretired.any fun u => u.port = port && u.part = w.part then
        updIf (fun u => u.port = port && u.part = w.part) (fun u => { u with writes := u.writes ++ [w] }) s.unretired
      else s.unretired ++ [⟨port, w.part, [w], none⟩] }

/-- Issues one request of partition p, or holds it while the partition has no port (R664). -/
def hostReq (s : State) (p : Nat) (r : HostReq) : State :=
  if canSend s p then
    match r with
    | .write w => sendWrite s (portOf s p) w
    | .msix i => { s with irqs := s.irqs ++ [i] }
  else setPart s p fun x => { x with waiting := x.waiting ++ [r] }

/-- Writes bytes to host memory for partition p. -/
def hostWrite (s : State) (p key : Nat) (l : List Byte) : State := hostReq s p (.write ⟨p, key, l, []⟩)

/-- Issues the requests that waited, in their original order (R664). -/
def sendWaiting (s : State) (p : Nat) : State :=
  let l := (part s p).waiting
  l.foldl (fun s r => hostReq s p r) (setPart s p fun x => { x with waiting := [] })

/-- Sends every unretired write of partition p on an old port again on a new one, in order (R47). -/
def resend (s : State) (p old new : Nat) : State :=
  let l := (s.unretired.filter fun u => u.port = old && u.part = p).flatMap (·.writes)
  let s := { s with unretired := s.unretired.filter fun u => !(u.port = old && u.part = p) }
  l.foldl (fun s w => sendWrite s new w) s

/-! ### Completion entries (R130, R132, R133, R148) -/

/-- A completion entry (Table 4.10). -/
def cqeBytes (tag : Word) (op status detail r0 r1 : Nat) (ci : Word) (q flags : Nat) : List Byte :=
  toLe 4 tag.toNat ++ toLe 1 op ++ toLe 1 status ++ toLe 2 detail ++ toLe 8 r0 ++ toLe 8 r1 ++ toLe 4 ci.toNat ++
  toLe 1 q ++ toLe 1 flags ++ [0, 0]

/-- Raises queue c's interrupt (R133). -/
def queueIrq (s : State) (c : Nat) : State :=
  let s := setQueue s c fun x => { x with mirrored := 0 }
  hostReq s (owner s c) (.msix ⟨owner s c, fld s (queueBase c + 0x44) 5 0⟩)

/-- The mirror write and the interrupt rule after one more completion on CQ c (R133). -/
def mirror (s : State) (c : Nat) : State :=
  let s := hostWrite s (owner s c) (hostKey (qSpace s c) (reg64 s (queueBase c + 0x20))) (toLe 4 (queue s c).cqPi.toNat)
  let s := setQueue s c fun x => { x with mirrored := x.mirrored + 1 }
  if fld s (queueBase c + 0x44) 7 7 = 1 ∧ fld s (queueBase c + 0x44) 15 8 ≤ (queue s c).mirrored then queueIrq s c else s

/-- Fills the promised slot of the CQ bound to queue q (R118, R130). -/
def writeCqe (s : State) (q : Nat) (l : List Byte) : State :=
  let c := cqSel s q
  let i := (queue s c).cqPi.toNat % cqDepth s c
  let s := hostWrite s (owner s c) (hostKey (qSpace s c) (reg64 s (queueBase c + 0x14) + 32 * i)) l
  mirror (setQueue s c fun x => { x with cqPi := x.cqPi + 1, promised := x.promised - 1 }) c

/-- Byte 29 of a completion entry (Table 4.10). -/
def cqeFlags (s : State) (last cal : Bool) : Nat :=
  (if last then 4 else 0) + (if degraded s then 2 else 0) + (if cal then 1 else 0)

def cmdOf (s : State) (c : Nat) : Option Cmd := s.cmds.find? fun x => x.id = c

/-- A command's result: status, detail, results and CAL_STALE. -/
structure Result where
  status : Nat
  detail : Nat
  r0 : Nat
  r1 : Nat
  cal : Bool
  deriving DecidableEq, Repr

/-- A result with nothing but a status. -/
def plain (status : Nat) : Result := ⟨status, 0, 0, 0, false⟩
/-- OK with RESULT0. -/
def okWith (r0 : Nat) : Result := ⟨0, 0, r0, 0, false⟩
/-- RANGE naming the operand at a byte offset of the entry (Table 4.11). -/
def range (detail : Nat) : Result := ⟨0x0A, detail, 0, 0, false⟩
/-- PARTIAL with what was delivered. -/
def partialR (n : Nat) : Result := ⟨0x04, 0, n, 0, false⟩
def denied : Result := plain 0x0F

/-- Completes a command: its entry is written and it is no longer outstanding (R130, R149). -/
def complete (s : State) (x : Cmd) (r : Result) : State :=
  let s := { s with cmds := s.cmds.filter fun y => y.id ≠ x.id }
  writeCqe s x.q (cqeBytes x.tag x.opcode r.status r.detail r.r0 r.r1 x.ci x.q (cqeFlags s false r.cal))

/-- The completion of a command at a partition reset, discarded when its CQ is not reachable (R150). -/
def completeReset (s : State) (x : Cmd) : State :=
  if qEnable s (cqSel s x.q) ∧ canSend s x.part then complete s x (plain 0x0D)
  else { s with cmds := s.cmds.filter fun y => y.id ≠ x.id }

/-- Whether a command may start: a marker waits for every command taken before it from its SQ, and a later command for
those taken before the last marker, whether that marker is still outstanding or not (R131). -/
def mayStart (s : State) (x : Cmd) : Bool := s.cmds.all fun y => !(y.q = x.q && y.id < x.after)

/-- A BATCH_READY completion for a delivery entry of queue q (R142, R154). -/
def batchReady (s : State) (q : Nat) (tag ci : Word) (r : Result) (last : Bool) : State :=
  writeCqe s q (cqeBytes tag 0xF0 r.status r.detail r.r0 r.r1 ci q (cqeFlags s last r.cal))

/-- Runs f on the outstanding command c when it has the given opcode and may start, and the block is alive; otherwise
nothing happens. A stranded partition's commands run as long as they read no host memory (R664). -/
def withCmd (s : State) (c op : Nat) (f : State → Cmd → State) : State :=
  match cmdOf s c with
  | some x => if x.opcode = op ∧ !x.started ∧ mayStart s x ∧ alive s then f s x else s
  | none => s

/-- Whether a translation fault halts a command's own reads of host memory (R294). -/
def readHalted (s : State) (c : Nat) : Bool := s.readHalts.any fun h => h.cmd = c && h.halted

/-- Whether command y is an EPOCH_OPEN or EPOCH_RESUME on queue q that has passed its step 2 and whose reads are held: the
queue then counts as having an epoch open (R498). -/
def claimsQueue (s : State) (q : Nat) (y : Cmd) : Bool :=
  y.q = q && (y.opcode = 0x10 || y.opcode = 0x11) && s.readHalts.any fun h => h.cmd = y.id

/-- Whether a queue counts as having an epoch open for everything but command c (R144, R498). -/
def queueTaken (s : State) (q c : Nat) : Bool := (epochOf s q).isSome || s.cmds.any fun y => y.id ≠ c && claimsQueue s q y

/-- s as command c finds it whose read has halted before: what its requests had brought is not read again, and faults no
more (R295). -/
def withBrought (s : State) (h : ReadHalt) : State :=
  { s with brought := h.got, hostFaults := s.hostFaults.filter fun f => !h.got.any fun g => g.1 / 4096 = f }

/-- The same for a command whose work begins with a read of host memory, which waits unissued while the partition is
stranded (R664) or the read is halted (R294). -/
def withHost (s : State) (c op : Nat) (f : State → Cmd → State) : State :=
  withCmd s c op fun s x =>
    if (part s x.part).stranded || readHalted s c then s
    else match s.readHalts.find? fun h => h.cmd = c with
      | none => f s x
      | some h => { f (withBrought s h) x with
          brought := s.brought, hostFaults := s.hostFaults, readHalts := s.readHalts.filter fun y => y.cmd ≠ c }

/-- The same for the later step of a command already under way. -/
def withStarted (s : State) (c op : Nat) (f : State → Cmd → State) : State :=
  match cmdOf s c with
  | some x => if x.opcode = op ∧ x.started ∧ alive s then f s x else s
  | none => s

def startCmd (s : State) (c : Nat) : State :=
  { s with cmds := updIf (fun x => x.id = c) (fun x => { x with started := true }) s.cmds }

/-! ### Events (R147, Table 4.9) -/

/-- Events held, with one more: from the 65th on, those beyond 63 are one EVENT_LOST whose data counts them. -/
def holdEvent (l : List Event) (e : Event) : List Event :=
  let l' := l ++ [e]
  if l'.length ≤ 64 then l'
  else l'.take 63 ++ [⟨0xFF, BitVec.ofNat 64
    ((l'.drop 63).foldl (fun a x => a + if x.code = 0xFF then x.data.toNat else 1) 0)⟩]

/-- An event arises for partition p: it completes the oldest waiting EVENT_WAIT, or is held. -/
def postEvent (s : State) (p code data : Nat) : State :=
  match s.cmds.find? fun x => x.part = p && x.opcode = 0x60 && x.started with
  | some x => complete s x ⟨0, 0, code, data, false⟩
  | none => setPart s p fun y => { y with events := holdEvent y.events ⟨code, BitVec.ofNat 64 data⟩ }

/-- An event for every partition. -/
def postAll (s : State) (code data : Nat) : State := (List.range 16).foldl (fun s p => postEvent s p code data) s

/-- A transfer with nothing moved yet. -/
def newTransfer (id part cmd : Nat) (k : TransferKind) (n : Nat) : Transfer :=
  { id := id, part := part, cmd := cmd, kind := k, elements := n, moved := 0, mask := 0, halted := false, extra := [],
    got := [], faults := [], page := 0, bufs := [], timeouts := 0 }

/-- The next number for a transfer or fetch. -/
def fresh (s : State) : Nat × State := (s.nextId, { s with nextId := s.nextId + 1 })

/-- Reads the arbiter once (R615). -/
def arbitrate (s : State) : Bool × State := (Config.arbiter s.freeCtr, { s with freeCtr := s.freeCtr + 1 })

/-- What an input does on a pulse of width n: nothing below lo, `go` from hi on, and the one or the other between, as its
filter happens to take it (R66, log entry 4). -/
def onPulse (s : State) (n lo hi : Nat) (go : State → State) : State :=
  if n < lo then s else if hi ≤ n then go s
  else if (arbitrate s).1 then go (arbitrate s).2 else (arbitrate s).2

/-! ### Operands of submission entries (Table 4.5, Table 4.6) -/

/-- Bits msb to lsb of OPk. -/
def opBits (x : Cmd) (k msb lsb : Nat) : Nat := bits (x.ops.getD k 0).toNat msb lsb
/-- OPk whole. -/
def op64 (x : Cmd) (k : Nat) : Nat := (x.ops.getD k 0).toNat
/-- Bits of XOPk; 0 without an extension. -/
def xopBits (x : Cmd) (k msb lsb : Nat) : Nat := bits (x.xops.getD k 0).toNat msb lsb

/-- The address key of a host address in the space of the command's queue. -/
def cmdKey (s : State) (x : Cmd) (addr : Nat) : Nat := hostKey (qSpace s x.q) addr

end Sys2Proof.Machine
end

