-- ==== Sys2Proof/Machine/Pool.lean ====
section
/-!
DEFINITION. The buffer pool manager (R551 to R558): allocation, reference counts and freeing of block memory.
-/

namespace Sys2Proof.Machine

/-- The first number from i on, among n, that satisfies p. -/
def firstFrom (p : Nat → Bool) : Nat → Nat → Option Nat
  | 0, _ => none
  | n + 1, i => if p i then some i else firstFrom p n (i + 1)

/-- Whether an allocation for this use comes from block superblocks (R542). -/
def isWide (s : State) (own : Owner) : Bool :=
  fld s 0x4000 0 0 = 1 && (match own with | .stage _ _ => true | .runAhead => true | .staging => true | _ => false)

/-- Adds a superblock in address order. -/
def addSuper (s : State) (b : Superblock) : State :=
  { s with superblocks := (s.superblocks.takeWhile fun x => x.die < b.die || (x.die = b.die && x.idx < b.idx)) ++ [b] ++
      s.superblocks.dropWhile fun x => x.die < b.die || (x.die = b.die && x.idx < b.idx) }

/-- The die's ports that serve, as bits (R541). -/
def portsOf (s : State) (d : Nat) : BitVec 4 :=
  BitVec.ofNat 4 (((List.range 4).filter fun i => mpServes s (4 * d + i)).foldl (fun a i => a + 2 ^ i) 0)

/-- The superblocks of a block superblock, in ascending die order (R542). -/
def groupOf (s : State) (g : Option Nat) : List Superblock := s.superblocks.filter fun x => x.group.isSome && x.group = g

/-- Index in a class's bitmap of buffer j of superblock sb. A superblock's own buffers come first; those that a block
superblock holds on its other dies are numbered beyond every superblock's own (R556, log entry 13). -/
def bufIdx (k sb j : Nat) : Nat :=
  if j < perSuper k then sb * perSuper k + j else 3840 * perSuper k + 3 * sb * perSuper k + (j - perSuper k)

/-- The superblock and the buffer in it that an index names. -/
def bufPlace (k i : Nat) : Nat × Nat :=
  if i < 3840 * perSuper k then (i / perSuper k, i % perSuper k)
  else ((i - 3840 * perSuper k) / (3 * perSuper k), perSuper k + (i - 3840 * perSuper k) % (3 * perSuper k))

/-- Buffers of its class that lie in a superblock under a handle of its die: a block superblock's are all named by its
lowest die, as far as 26 bits can (R556, log entry 13). -/
def superBufs (s : State) (b : Superblock) : Nat :=
  match b.group with
  | none => perSuper b.cls
  | some _ =>
    let l := groupOf s b.group
    let per := perSuper b.cls
    if (l.head?.map (·.die)) = some b.die then
      per + Nat.min ((l.length - 1) * per) (2 ^ 26 - (3840 * per + 3 * b.idx * per))
    else 0

/-- Whether a buffer lies in a superblock. -/
def inSuper (b : Superblock) (u : Buf) : Bool :=
  match b.group with
  | some g => u.wide && u.sbs.contains g
  | none => !u.wide && hDie u.handle = b.die && u.sbs.contains b.idx

/-- Whether a superblock's buffers may be given out: it is not retired, nor marked with no buffer held, when its retirement
takes effect (R549). -/
def givesOut (s : State) (b : Superblock) : Bool := !b.retired && (!b.marked || s.bufs.any (inSuper b))

/-- Whether a large buffer holds a superblock (R553). -/
def heldWhole (s : State) (b : Superblock) : Bool := s.bufs.any fun u => 1 < u.n && inSuper b u

/-- The free buffer with the lowest index in a class of a die, in the superblocks already assigned: its superblock and
its place in it (R551). -/
def freeIn (s : State) (d k : Nat) (wide : Bool) : Option (Nat × Nat) :=
  (s.superblocks.filter fun b =>
      b.die = d && b.cls = k && b.group.isSome = wide && givesOut s b && !heldWhole s b).findSome? fun b =>
    (firstFrom (fun i => !s.bufs.any fun u => u.handle = mkHandle d k false (bufIdx k b.idx i)) (superBufs s b) 0).map
      (b.idx, ·)

/-- Lists a new buffer: its bytes read as zero and its count is 1 (R557, R558). -/
def addBuf (s : State) (p h sb : Nat) (wide : Bool) (n : Nat) (own : Owner) : State :=
  { s with bufs := s.bufs ++ [⟨h, p, [sb], wide, n, 1, own, [], .landed, []⟩] }

/-- Allocates a buffer of class k on die d under per-die interleave; none when the die has no room. -/
def allocOn (s : State) (p : Nat) (own : Owner) (d k : Nat) : Option (State × Nat) :=
  match freeIn s d k false with
  | some (sb, i) =>
    let h := mkHandle d k false (bufIdx k sb i)
    some (addBuf s p h sb false 1 own, h)
  | none =>
    match freeSuper s d with
    | some sb =>
      let h := mkHandle d k false (bufIdx k sb 0)
      some (addBuf (addSuper s ⟨d, sb, k, none, portsOf s d, false, false, []⟩) p h sb false 1 own, h)
    | none => none

/-- Allocates a buffer of class k from block superblocks (R542). -/
def allocWide (s : State) (p : Nat) (own : Owner) (k : Nat) : Option (State × Nat) :=
  let low := (diesUp s).headD 0
  match freeIn s low k true with
  | some (sb, i) =>
    let h := mkHandle low k false (bufIdx k sb i)
    some (addBuf s p h sb true 1 own, h)
  | none =>
    match freeSuper s low with
    | some sb =>
      if (diesUp s).all (fun d => (freeSuper s d).isSome) then
        let s' := (diesUp s).foldl (fun t d =>
          addSuper t ⟨d, (freeSuper s d).getD 0, k, some sb, portsOf s d, false, false, []⟩) s
        let h := mkHandle low k false (bufIdx k sb 0)
        some (addBuf s' p h sb true 1 own, h)
      else none
    | none => none

/-- Tries the requesting die and then the others in service (R554). -/
def alloc (s : State) (p : Nat) (own : Owner) (d k : Nat) : Option (State × Nat) :=
  if isWide s own then allocWide s p own k
  else ((dieOrder d).filter fun x => !dieLost s x).findSome? fun x => allocOn s p own x k

/-- Allocates class-k buffers one by one on one die. -/
def allocList (s : State) (p : Nat) (own : Owner) (d : Nat) : List Nat → Option (State × List Nat)
  | [] => some (s, [])
  | k :: ks =>
    match allocOn s p own d k with
    | some (s', h) => (allocList s' p own d ks).map fun (t, hs) => (t, h :: hs)
    | none => none

/-- The classes of the buffers that an object of n bytes takes greedily (R552). -/
def objClasses (n : Nat) : List Nat :=
  if n ≤ classSize 7 then [classFor n]
  else
    let m := roundUp n 4096
    (List.range 8).reverse.flatMap fun k =>
      List.replicate (if k = 7 then m / classSize 7 else m % classSize (k + 1) / classSize k) k

/-- Holds an object of n bytes wholly on die d. -/
def allocObject (s : State) (p : Nat) (own : Owner) (d n : Nat) : Option (State × List Nat) :=
  if dieLost s d then none else allocList s p own d (objClasses n)

/-- Holds an object of n bytes on the requesting die d, or on the first of the others that has room (R554, log entry 33). -/
def allocNear (s : State) (p : Nat) (own : Owner) (d n : Nat) : Option (State × Nat × List Nat) :=
  (dieOrder d).findSome? fun x => (allocObject s p own x n).map fun (t, hs) => (t, x, hs)

/-- A large buffer of n class-7 buffers on one die, named by its first with bit 26 set (R553). -/
def allocLarge (s : State) (p : Nat) (own : Owner) (d n : Nat) : Option (State × Nat) :=
  ((dieOrder d).filter fun x => !dieLost s x).findSome? fun x =>
    match allocList s p own x (List.replicate n 7) with
    | some (s', h :: hs) =>
      let big := h + 2 ^ 26
      some ({ s' with bufs := s.bufs ++ [⟨big, p, (h :: hs).map hIdx, false, n, 1, own, [], .landed, []⟩] }, big)
    | _ => none

/-- Returns superblocks whose buffers are all free to the free list; a marked one waits for its retirement, out of its
block superblock (R542, R549, R551). -/
def sweep (s : State) : State :=
  { s with superblocks := s.superblocks.filterMap fun b =>
      if b.retired || s.bufs.any (inSuper b) then some b
      else if b.marked then some { b with group := none } else none }

/-- Frees buffers whatever their counts. -/
def freeBufs (s : State) (hs : List Nat) : State :=
  if hs.isEmpty then s else sweep { s with bufs := s.bufs.filter fun b => !hs.contains b.handle }

/-- Releases one reference; at zero the buffer is freed (R558). -/
def dropRef (s : State) (h : Nat) : State :=
  match bufOf s h with
  | some b => if b.refs ≤ 1 then freeBufs s [h] else setBuf s h fun b => { b with refs := b.refs - 1 }
  | none => s

/-- Releases references one at a time. -/
def dropRefs (s : State) (hs : List Nat) : State := hs.foldl dropRef s

/-- Free buffers of class k in the superblocks assigned to it on die d (Table 16.10). -/
def classFree (s : State) (d k : Nat) : Nat :=
  let sup := s.superblocks.filter fun b => b.die = d && b.cls = k && givesOut s b
  (sup.map (superBufs s)).foldl (· + ·) 0 -
    (s.bufs.filter fun u => hDie u.handle = d && hClass u.handle = k).foldl (fun a u => a + u.n) 0

/-- An allocation charged to a reservation waits: POOL_EVT.WAIT sets (R555). -/
def poolWait (s : State) : State := setW1c s 0x4010 3 0x4020

/-- Granules of the bytes [off, off + n). -/
def granules (off n : Nat) : List Nat :=
  if n = 0 then [] else (List.range ((off + n - 1) / 4096 + 1 - off / 4096)).map (off / 4096 + ·)

/-- Where a line lies: die, superblock, line within the superblock, memory port. -/
structure LineAt where
  die : Nat
  sb : Nat
  line : Nat
  port : Nat
  deriving DecidableEq, Repr

/-- The port within its die that granule i of a superblock lies on: its ports in rotation (R541). -/
def portIn (x : Superblock) (i : Nat) : Nat :=
  let l := (List.range 4).filter fun k => x.ports.getLsbD k
  l.getD (i % Nat.max 1 l.length) 0

/-- The line that holds byte off of a buffer. With four dies and every port in service, a block superblock's granules lie
as R542 writes it out; with fewer they rotate over what there is (log entry 13). -/
def lineAt (s : State) (b : Buf) (off : Nat) : LineAt :=
  let k := hClass b.handle
  if b.wide then
    let base := (bufPlace k (hIdx b.handle)).2 * classSize k + off
    let g := base / 4096
    let l := groupOf s b.sbs.head?
    let n := Nat.max 1 l.length
    match l[g % n]? with
    | some x => ⟨x.die, x.idx, g / n * 64 + base % 4096 / 64, 4 * x.die + portIn x (g / n)⟩
    | none => ⟨0, 0, 0, 0⟩
  else
    let d := hDie b.handle
    let sb := b.sbs.getD (off / classSize 7) 0
    let base := if 1 < b.n then off % classSize 7 else (bufPlace k (hIdx b.handle)).2 * classSize k + off
    let port := ((s.superblocks.find? fun x => x.die = d && x.idx = sb).map fun x => portIn x (base / 4096)).getD 0
    ⟨d, sb, base / 64, 4 * d + port⟩

/-- Lines that an access to bytes [off, off + n) of a buffer moves on their memory ports, in the granules that f lets through
(R626). -/
def countLines (s : State) (b : Buf) (f : Nat → Bool) (off n : Nat) : State :=
  ((granules off n).filter f).foldl (fun s g =>
    let lo := Nat.max off (g * 4096)
    let hi := Nat.min (off + n) (g * 4096 + 4096)
    bump64 s (0x60C0 + 8 * (lineAt s b (g * 4096)).port) ((hi - 1) / 64 + 1 - lo / 64)) s

/-- The edges that traffic from die a to die b crosses, each with whether it goes toward the higher-numbered die. -/
def hops (l : List Nat) : Nat → Nat → List (Nat × Bool)
  | 0, _ => []
  | n + 1, a =>
    match l.find? fun e => (edgeEnds e).1 = a || (edgeEnds e).2 = a with
    | none => []
    | some e =>
      let up := (edgeEnds e).1 = a
      (e, up) :: hops (l.filter (· ≠ e)) n (if up then (edgeEnds e).2 else (edgeEnds e).1)

/-- n bytes go from die a to die b, over the edges of their route (R11, R626). -/
def crossed (s : State) (a b n : Nat) : State :=
  if a = b then s
  else (hops (route s a b) 4 a).foldl (fun s e => bump64 s ((if e.2 then 0x6140 else 0x6148) + 16 * e.1) n) s

/-- Bytes written into a buffer from an offset; the granules touched are no longer clean (R557),
and their ports count the lines (R626). -/
def bufWrite (s : State) (h off : Nat) (l : List Byte) : State :=
  let s := match bufOf s h with
    | some b => countLines s b (fun _ => true) off l.length
    | none => s
  setBuf s h fun b => { b with
    data := putAll zero off l b.data
    dirty := b.dirty ++ (granules off l.length).filter fun g => !b.dirty.contains g }

/-- n bytes of a buffer from an offset. -/
def bufRead (s : State) (h off n : Nat) : List Byte :=
  match bufOf s h with
  | some b => lookAll zero b.data off n
  | none => List.replicate n 0

/-- Staging buffers of one sample (R501). -/
def stagingClasses (outBytes : Nat) : List Nat :=
  if outBytes = 0 then [] else if outBytes ≤ classSize 7 then [classFor outBytes] else List.replicate (ceilDiv outBytes (classSize 7)) 7

/-- Allocates buffers by the order of R554, one by one; none when one of them finds no room. -/
def allocMany (s : State) (p : Nat) (own : Owner) (d : Nat) : List Nat → Option (State × List Nat)
  | [] => some (s, [])
  | k :: ks =>
    match alloc s p own d k with
    | some (s', h) => (allocMany s' p own d ks).map fun (t, hs) => (t, h :: hs)
    | none => none

/-- Free block memory of a die: whole superblocks, and free buffers of those assigned. -/
def freeOnDie (s : State) (d : Nat) : Nat :=
  (superCount s d - (s.superblocks.filter fun b => b.die = d).length) * classSize 7 +
  ((List.range 8).map fun k => classFree s d k * classSize k).foldl (· + ·) 0

/-- Buffers of an object with n bytes written into them: every granule of those bytes is dirty. -/
def markWritten (s : State) (n : Nat) : List Nat → State
  | [] => s
  | h :: hs =>
    let sz := ((bufOf s h).map bufSize).getD 0
    let s := match bufOf s h with
      | some b => countLines s b (fun _ => true) 0 (Nat.min n (bufSize b))
      | none => s
    let s := setBuf s h fun b => { b with dirty := granules 0 (Nat.min n (bufSize b)) }
    markWritten s (n - sz) hs

/-! ### Buffers that unretired writes read from (R46) -/

/-- Buffers that a partition no longer needs are freed once its last write issued so far is retired; at once when none is
outstanding. A write that waits for a port counts as outstanding. -/
def freeAfter (s : State) (p : Nat) (hs : List Nat) : State :=
  let add (w : HostWrite) : HostWrite := { w with frees := w.frees ++ hs }
  let mark : List HostWrite → List HostWrite
    | [] => []
    | l => l.dropLast ++ (l.getLast?.map add).toList
  let isWrite : HostReq → Bool
    | .write _ => true
    | .msix _ => false
  let l := (part s p).waiting
  match l.reverse.findIdx? isWrite with
  | some i =>
    let addReq : HostReq → HostReq
      | .write w => .write (add w)
      | .msix i => .msix i
    setPart s p fun x => { x with waiting := modAt l (l.length - 1 - i) addReq }
  | none =>
    match s.unretired.find? fun u => u.part = p && !u.writes.isEmpty with
    | some u =>
      let set (v : Unretired) : Unretired := { v with writes := mark v.writes }
      { s with unretired := updIf (fun v => v.part = p && v.port = u.port) set s.unretired }
    | none => freeBufs s hs

/-- A read of partition p has returned on its port: every write issued before it there is retired, and what those writes
read from is freed (R46). -/
def retireAll (s : State) (p : Nat) : State :=
  let mine (u : Unretired) : Bool := u.port = portOf s p && u.part = p
  let l := (s.unretired.filter mine).flatMap (·.writes)
  freeBufs { s with unretired := s.unretired.filter fun u => !mine u } (l.flatMap (·.frees))

/-- Partition p has read n bytes of host memory in one access: they are counted, and earlier writes are retired. -/
def readReturned (s : State) (p n : Nat) : State := retireAll (countRead s p n) p

/-- Buffers that are lost are freed by no write any more. -/
def forgetFrees (s : State) (hs : List Nat) : State :=
  let drop (w : HostWrite) : HostWrite := { w with frees := w.frees.filter fun h => !hs.contains h }
  let dropReq : HostReq → HostReq
    | .write w => .write (drop w)
    | .msix i => .msix i
  { s with
    unretired := s.unretired.map fun u => { u with writes := u.writes.map drop }
    parts := s.parts.map fun x => { x with waiting := x.waiting.map dropReq } }

end Sys2Proof.Machine
end

