-- ==== Sys2Proof/Machine/Samples.lean ====
section
/-!
DEFINITION. Stopping, rerunning and ending the work of samples; the end of fetches, drives and epochs.
-/

namespace Sys2Proof.Machine

/-- Whether a sample belongs to the epoch of queue q. -/
def ofEpoch (q : Nat) (x : Sample) : Bool :=
  match x.from_ with
  | .epoch q' => q'.val = q
  | .calibration _ => false

/-- Stops threads at an instruction boundary without publishing; their tickets are discarded, and LRED groups that lose
a part with them (R232, R453). -/
def stopThreads (s : State) (p : Thread → Bool) : State :=
  let gone := (s.threads.filter p).map (·.th)
  { s with
    threads := s.threads.filter fun t => !p t
    allocWaits := s.allocWaits.filter fun w => !gone.contains w.th
    lreds := s.lreds.filter fun g => !g.parts.any fun x => gone.contains x.2.1
    landing := s.landing.map fun b => { b with claims := b.claims.filter fun c => !gone.contains c.1 }
    transfers := s.transfers.filter fun t =>
      match t.kind with
      | .hmrd th _ _ _ _ => !gone.contains th
      | .hmwr th _ _ _ _ => !gone.contains th
      | _ => true }

/-- What the thread of a TRANSCODE holds in place of a sample: no sample has this handle (R358). -/
def transcodeTag (c : Nat) : Nat := 65537 + 2 * c
/-- The same for the regeneration of a copy (R361). -/
def regenTag (p id : Nat) : Nat := 65538 + 2 * (p * 2 ^ 32 + id)

/-- Takes a sample out of the fetches that carry its records; one that carries no other completes for nobody. -/
def dropFetchRecs (s : State) (h : Nat) : State :=
  { s with fetches := s.fetches.map fun f => { f with recs := f.recs.filter fun x => x.1 ≠ h } }

/-- Buffers of a sample's records that it still holds. -/
def recBufs (x : Sample) : List Nat := x.recs.filterMap fun r => if r.consumed then none else r.handle

/-- Every buffer a sample holds. -/
def sampleBufs (x : Sample) : List Nat := x.held.map (·.2) ++ recBufs x ++ x.stagingBufs

/-- The copy of a placed sample into its slot ends. The slot stays its own, since the records of its placement stand
(R526, R531). -/
def unplace (s : State) (x : Sample) : State :=
  match x.from_ with
  | .epoch q => { s with transfers := s.transfers.filter fun t =>
      match t.kind with | .place q' pos _ => !(q' = q.val && pos = x.pos) | _ => true }
  | .calibration _ => s

/-- Whether a fetch that has not ended still lands in a buffer, or a timed-out attempt may (R288). -/
def landsIn (s : State) (h : Nat) : Bool :=
  s.fetches.any fun f => (!f.ended && f.bufs.contains h) || f.aborting.any fun a => a.2.contains h

/-- Frees the buffers of a sample; one that a fetch still lands in stays until that fetch ends (log entry 18). -/
def freeLanded (s : State) (hs : List Nat) : State := freeBufs s (hs.filter fun h => !landsIn s h)

/-- A sample's end: its threads stop, and every buffer it still holds is freed, whatever its count (R218, R314). Staging
that a placement copy has read from is freed once those writes are retired (R46). -/
def removeSample (s : State) (h : Nat) : State :=
  match sampleOf s h with
  | none => s
  | some x =>
    let s := dropFetchRecs (stopThreads s fun t => (thTile t.th).isSome && t.sample = h) h
    let s := freeLanded { s with samples := s.samples.filter fun y => y.h ≠ h } (x.held.map (·.2) ++ recBufs x)
    if x.placed.isSome || x.wrote then freeAfter s x.part x.stagingBufs else freeBufs s x.stagingBufs

/-- A run of a sample from its first stage (R164): it keeps its start, budget, staging area, which is zero again, and the
slot it was given. -/
def fromStart (x : Sample) : Sample :=
  { x with tokens := x.tokens.map fun _ => 0, tokenDies := [], assigned := [], held := [], freed := [], handed := [], staging := [], recs := [],
           recsRead := false, ctxs := [], pics := [], frames := [], moved := [], charged := 0, stageCharged := x.stageCharged.map fun _ => 0,
           stageVec := x.stageVec.map fun _ => (0, 0), partsEnded := [], reruns := x.reruns + 1, ready := false, damaged := false, damagedPics := 0, short := false, cause := 0,
           wrote := x.wrote || x.placed.isSome }

/-- Runs a sample again from its first stage. -/
def restartSample (s : State) (h : Nat) : State :=
  match sampleOf s h with
  | none => s
  | some x =>
    let s := dropFetchRecs (stopThreads s fun t => (thTile t.th).isSome && t.sample = h) h
    let s := unplace s x
    let blank (b : Buf) : Buf := { b with data := [], dirty := [] }
    let s := { s with bufs := updIf (fun b => x.stagingBufs.contains b.handle) blank s.bufs }
    freeLanded (setSample s h fromStart) (x.held.map (·.2) ++ recBufs x)

/-- A record that stage g has named, as a new run of the stage meets it: one whose buffer the lost run has released is
fetched again. -/
def recAgain (g : Nat) (r : Rec) : Rec :=
  if !r.named || r.stage ≠ g then r
  else if r.consumed then { r with named := false, consumed := false, next := 0, left := r.extents.length }
  else { r with named := false }

/-- A picture record with DAMAGED or ABSENT. -/
def picBad (y : PicRec) : Bool := leAt y.bytes 21 1 % 4 ≠ 0

/-- Whether a stage of a sample is charged in bytes of its dictionary units. -/
def chargedDu (s : State) (x : Sample) (g : Nat) : Bool :=
  (recipeOf s x.part x.recipe).any fun r => (r.stages.map (·.template)).getD g 0 = 9

/-- Whether a reference that a sample holds is one of stage g's threads or of the contexts it has opened. -/
def stageOwns (x : Sample) (g : Nat) (y : Nat × Nat) : Bool :=
  (y.1 < 4096 && y.1 % 16 = g) || x.ctxs.any fun c => y.1 = 8192 + c.ctx && c.stage = g

/-- The references of other stages that the lost run of stage g has released, one of its parent's outputs among them where it
freed that (R163, R217). -/
def freedBy (x : Sample) (g : Nat) : List (Nat × (Nat × Nat) × Bool) := x.freed.filter fun y => y.1 = g

/-- References stand again. -/
def regain (s : State) (h : Nat) (l : List (Nat × Nat)) : State :=
  setSample (l.foldl (fun s e => setBuf s e.2 fun b => { b with refs := b.refs + 1 }) s) h fun y => { y with held := y.held ++ l }

/-- Those that stage g has released beyond its first n stand again. -/
def regainRefs (s : State) (h g n : Nat) : State :=
  match sampleOf s h with
  | none => s
  | some x =>
    let l := freedBy x g
    setSample (regain s h ((l.drop n).map (·.2.1))) h fun y => { y with freed := (y.freed.filter fun z => z.1 ≠ g) ++ l.take n }

/-- Whether the references can stand again: their buffers are still held. -/
def regainable (x : Sample) (l : List (Nat × (Nat × Nat) × Bool)) : Bool :=
  l.all fun y => !y.2.2 && x.held.any fun e => e.2 = y.2.1.2

/-- Runs one stage of a sample again from its parent's outputs; stage 0 is the first stage, and so it is where the lost run has
freed what it would read (R164, R188). -/
def rerunStage (s : State) (h g : Nat) : State :=
  match sampleOf s h with
  | none => s
  | some x =>
    if x.tokens.getD g 0 ≠ 0 then s
    else if g = 0 || !regainable x (freedBy x g) then restartSample s h
    else
      let s := regainRefs s h g 0
      let s := stopThreads s fun t => (thTile t.th).isSome && t.sample = h && t.stage = g
      let own := stageOwns x g
      let s := dropRefs s ((x.held.filter own).map (·.2))
      setSample s h fun y =>
        { y with assigned := y.assigned.filter (· ≠ g), held := y.held.filter fun z => !own z,
                 ctxs := y.ctxs.filter fun c => c.stage ≠ g, moved := y.moved.filter fun z => z.stage ≠ g,
                 frames := y.frames.filter fun z => z.thread.stage ≠ g,
                 recs := y.recs.map (recAgain g), pics := y.pics.filter fun z => z.stage ≠ g,
                 damagedPics := (y.pics.filter fun z => z.stage ≠ g && picBad z).length,
                 partsEnded := y.partsEnded.filter fun z => z.1 ≠ g,
                 charged := y.charged - (if chargedDu s x g then 0 else y.stageCharged.getD g 0), stageCharged := modAt y.stageCharged g fun _ => 0,
                 stageVec := modAt y.stageVec g fun _ => (0, 0),
                 reruns := y.reruns + 1 }

/-! ### Frame boundaries (R260, R261) -/

/-- The mark of a thread's last frame boundary. -/
def markOf (x : Sample) (t : Thread) : Option FrameMark :=
  x.frames.find? fun m => m.thread.stage = t.stage && m.thread.partNo = t.partNo

/-- A thread as it goes on where it has a tile again: one that waited for an allocation or for its cluster's store issues its
instruction again. -/
def asksAgain (s : State) (x : Thread) : Thread :=
  if x.state = 5 || s.allocWaits.any (fun w => w.th = x.th) then { x with state := 1 } else x

/-- Thread th stands at a frame boundary: a DECODE_AU of it has just completed (R307). -/
def markFrame (s : State) (th : ThreadRef) : State :=
  match threadOf s th with
  | none => s
  | some t => setSample s t.sample fun x =>
      let g := t.stage
      { x with frames := (x.frames.filter fun m => !(m.thread.stage = g && m.thread.partNo = t.partNo)) ++
        [⟨asksAgain s t, x.held.filter (stageOwns x g), (freedBy x g).length,
          (x.recs.filter fun r => r.stage = g && r.named).map fun r => (r.recno, r.consumed),
          (x.pics.filter fun y => y.stage = g).length, (x.ctxs.filter fun c => c.stage = g).map (·.ctx),
          x.stageCharged.getD g 0, x.stageVec.getD g (0, 0)⟩] }

/-- Whether what a stage has done since a mark can be taken back: what it has let go of is still held, it has neither closed
a context nor output pictures, and no record it had named has been consumed. -/
def canGoBack (x : Sample) (m : FrameMark) : Bool :=
  let g := m.thread.stage
  let gone := m.held.diff (x.held.filter (stageOwns x g))
  gone.all (fun e => x.held.any fun y => y.2 = e.2) && regainable x ((freedBy x g).drop m.freed) &&
  m.ctxs.all (fun c => x.ctxs.any fun y => y.ctx = c && y.stage = g) &&
  (x.pics.filter fun y => y.stage = g).length = m.pics &&
  m.recs.all fun r => r.2 || x.recs.any fun y => y.recno = r.1 && !y.consumed

/-- The stage of a mark stands as it stood there: references taken since go, those let go of stand again, contexts opened since
are closed, records named since are fetched anew, and what it was charged since is taken off (R188). -/
def goBack (s : State) (h : Nat) (m : FrameMark) : State :=
  match sampleOf s h with
  | none => s
  | some x =>
    let g := m.thread.stage
    let own := x.held.filter (stageOwns x g)
    let since := own.diff m.held
    let s := regain (regainRefs s h g m.freed) h (m.held.diff own)
    let s := setSample s h fun y =>
      { y with
        held := y.held.diff since
        ctxs := y.ctxs.filter fun c => c.stage ≠ g || m.ctxs.contains c.ctx
        recs := y.recs.map fun r => if m.recs.any (·.1 = r.recno) then r else recAgain g r
        charged := y.charged - (if chargedDu s y g then 0 else y.stageCharged.getD g 0 - m.charged)
        stageCharged := modAt y.stageCharged g fun _ => m.charged, stageVec := modAt y.stageVec g fun _ => m.vec
        reruns := y.reruns + 1 }
    dropRefs s (since.map (·.2))

/-! ### Fetches and drives -/

/-- Whether a sample has a buffer as a record's. -/
def namedBuf (s : State) (h : Nat) : Bool := s.samples.any fun x => x.recs.any fun r => r.handle = some h

def setFetch (s : State) (id : Nat) (f : Fetch → Fetch) : State :=
  { s with fetches := updIf (fun g => g.id = id) f s.fetches }

/-- A record whose fetch ended without data. -/
def noData (r : Rec) (status cause : Nat) : Rec :=
  { r with status := status, cause := cause, damaged := r.damaged || status = 1, next := r.extents.length, left := 0 }

/-- A fetch is over: the buffers that it landed in for no one any more are freed. One with Aborts outstanding stays until
they complete (R288). -/
def closeFetch (s : State) (f : Fetch) : State :=
  let s := if f.aborting.isEmpty then { s with fetches := s.fetches.filter fun g => g.id ≠ f.id }
    else setFetch s f.id fun g => { g with ended := true, recs := [], bufs := [] }
  freeLanded s (f.bufs.filter fun h => !namedBuf s h)

/-- Buffers that an ended attempt held: those that no record has go. -/
def freeHeld (s : State) (hs : List Nat) : State := freeLanded s (hs.filter fun h => !namedBuf s h)

/-- How a record stands once its fetch has ended without data: a record that a DIDX has named keeps its handle, whose
reads carry the outcome (R275); otherwise its buffer is freed. Other fetches carry it no more. -/
def endRec (s : State) (h recno status cause src off : Nat) : State :=
  match sampleOf s h with
  | none => s
  | some x =>
    match x.recs.find? fun r => r.recno = recno with
    | none => s
    | some r =>
      if r.status ≠ 0 then s
      else
        let s := { s with fetches := s.fetches.map fun f =>
          { f with recs := f.recs.filter fun e => !(e.1 = h && e.2.1 = recno) } }
        let upd (f : Rec → Rec) (s : State) : State :=
          setSample s h fun y => { y with recs := updIf (fun r => r.recno = recno) f y.recs }
        match r.handle, r.named with
        | some b, true =>
          upd (fun r => { noData r status cause with failAt := (src, off) })
            (setBuf s b fun u => { u with landing := .ended status cause src off })
        | some b, false =>
          freeLanded (upd (fun r => { noData { r with handle := none } status cause with failAt := (src, off) }) s) [b]
        | none, _ => upd (fun r => { noData r status cause with failAt := (src, off) }) s

/-- A fetch ends without data: every record it carries takes the outcome (R285). -/
def endFetch (s : State) (f : Fetch) (status cause : Nat) : State :=
  f.recs.foldl (fun s r => endRec s r.1 r.2.1 status cause f.src f.off) (closeFetch s f)

/-- A fetch ends with the containment of its link, which ends its Aborts as well (R57, R288). -/
def goneFetch (s : State) (f : Fetch) : State :=
  let s := setFetch s f.id fun g => { g with aborting := [] }
  freeHeld (endFetch s { f with aborting := [] } 2 0) (f.aborting.flatMap (·.2))

def sourceOf (s : State) (p id : Nat) : Option Source := s.sources.find? fun x => x.part = p && x.id = id

def copyOf (s : State) (p id : Nat) : Option CopySource := s.copies.find? fun x => x.part = p && x.id = id

/-- Whether an id is bound; that of a copy whose regeneration failed is not (R361). One whose drive has been removed stays
bound until SOURCE_UNBIND, and only then can be bound again (R263, R292, log entry 61). -/
def isBound (s : State) (p id : Nat) : Bool :=
  match sourceOf s p id with
  | some x => (match x.kind, copyOf s p id with | .copy, some c => c.failed.isNone | _, _ => true)
  | none => false

/-- Whether a source is a namespace on a link. -/
def onLink (x : Source) (sp link : Nat) : Bool :=
  match x.kind with
  | .nvme a b _ _ _ => a = sp && b = link
  | _ => false

/-- Containment of a link: the drive is gone, its fetches end SOURCE_GONE, its sources must be bound again before they are
read, and DRIVE_GONE reaches partition 0 and the partitions bound to its namespaces (R57, R291, R292, Table 4.9). -/
def containLink (s : State) (sp link : Nat) : State :=
  if s.drives.any fun d => d.sp = sp && d.link = link then
    let bound := (List.range 16).filter fun p => p = 0 || s.sources.any fun x => x.part = p && onLink x sp link
    let s := { s with drives := s.drives.filter fun d => !(d.sp = sp && d.link = link)
                      sources := updIf (onLink · sp link) (fun x => { x with dead := true }) s.sources }
    let l := s.fetches.filter fun f => f.drive = some (sp, link)
    let s := l.foldl goneFetch s
    bound.foldl (fun s p => postEvent s p 3 (sp + 4 * link)) s
  else s

/-! ### Epochs -/

/-- Ends an epoch as EPOCH_CLOSE with DRAIN 0 does: samples in flight are aborted, unreleased batches are discarded,
and the delivery entries taken for them complete ABORTED (R537). -/
def endEpoch (s : State) (q : Nat) : State :=
  match epochOf s q with
  | none => s
  | some e =>
    let s := ((s.samples.filter (ofEpoch q)).map (·.h)).foldl removeSample s
    let s := { s with
      transfers := s.transfers.filter fun t => match t.kind with | .place q' _ _ => q' ≠ q | _ => true
      epochs := s.epochs.filter fun x => x.q ≠ q }
    e.entries.foldl (fun s d => batchReady s q d.dtag d.ci ⟨0x0E, 0, 0, 0, e.calStale⟩ false) s

/-- The last batch of an epoch whose BATCH_READY completed OK (R537). -/
def lastReleased (e : Epoch) : Nat := e.lastOk.getD (2 ^ 64 - 1)

/-- Completes the EPOCH_CLOSE commands outstanding on a queue whose epoch has ended: RESULT1 [0] marks an epoch that
ended without draining (R536, R537). -/
def finishClose (s : State) (q r0 r1 : Nat) : State :=
  (s.cmds.filter fun x => x.q = q && x.opcode = 0x12 && x.started).foldl (fun s x => complete s x ⟨0, 0, r0, r1, false⟩) s

/-- The command that opened an epoch, where it is still outstanding, completes OK before the epoch ends (log entry 67). -/
def closeOpening (s : State) (q : Nat) : State :=
  match (epochOf s q).bind (·.opening) with
  | none => s
  | some (c, r0, r1, cal) =>
    match cmdOf s c with
    | some x => complete s x ⟨0, 0, r0, r1, cal⟩
    | none => s

/-- Ends an epoch other than by draining (R524, R537). -/
def cutEpoch (s : State) (q : Nat) : State :=
  match epochOf s q with
  | none => s
  | some e => finishClose (endEpoch (closeOpening s q) q) q (lastReleased e) 1

end Sys2Proof.Machine
end

