-- ==== Sys2Proof/Machine/Noise.lean ====
section
/-!
DEFINITION. Noise sources, the health tests on their raw bits, the seeds conditioned from them and the CSU's keys (R253 to
R255, R545). The raw bits are free values; the tests and the conditioning are computed on them. Log entry 5.
-/

namespace Sys2Proof.Machine

/-! ### Health tests (R253) -/

/-- Both continuous tests on one raw bit: 41 identical bits in a row, and a first bit of a window of 1,024 that recurs 800
times in it. -/
def noiseStep (x : NoiseSrc) (b : Bool) : NoiseSrc :=
  let run := if x.run ≠ 0 && b = x.last then x.run + 1 else 1
  let first := if x.win = 0 then b else x.first
  let hits := if x.win = 0 then 0 else if b = x.first then x.hits + 1 else x.hits
  { x with pos := x.pos + 1
           last := b
           run := run
           win := (x.win + 1) % 1024
           first := first
           hits := hits
           ok := x.ok && run < 41 && hits < 800 }

/-- The source of die d after n more raw bits. -/
def noiseRun (d : Nat) : Nat → NoiseSrc → NoiseSrc
  | 0, x => x
  | n + 1, x => noiseRun d n (noiseStep x (Config.noiseBit d x.pos))

/-- The source ready for use: its start-up test is the two tests over 1,024 raw bits before its first use after reset. -/
def noiseStart (d : Nat) (x : NoiseSrc) : NoiseSrc :=
  if x.started then x else { noiseRun d 1024 x with started := true }

/-- The seed conditioned from the 512 raw bits of die d from position n: the first 16 bytes of their SHA-384 digest. -/
def conditioned (d n : Nat) : BitVec 128 :=
  let byte (i : Nat) : Byte :=
    BitVec.ofNat 8 ((List.range 8).foldl (fun a j => a + (Config.noiseBit d (n + 8 * i + j)).toNat * 2 ^ j) 0)
  BitVec.ofNat 128 (leNat ((sha384 ((List.range 64).map byte)).take 16))

/-- One seed from the source of die d, none where it fails a test over the bits that make it. -/
def drawOne (d : Nat) (x : NoiseSrc) : Option (BitVec 128) × NoiseSrc :=
  let x := noiseStart d x
  if !x.ok then (none, x)
  else
    let y := noiseRun d 512 x
    (if y.ok then some (conditioned d x.pos) else none, y)

/-! ### Seeds (R254) -/

/-- A seed from the first of the dies `ds` that serves and whose source passes. -/
def drawAmong (serves : Nat → Bool) : List Nat → List NoiseSrc → Option (BitVec 128) × List NoiseSrc
  | [], l => (none, l)
  | d :: ds, l =>
    match l[d]? with
    | none => drawAmong serves ds l
    | some x =>
      if serves d && x.ok then
        match drawOne d x with
        | (some v, y) => (some v, l.set d y)
        | (none, y) => drawAmong serves ds (l.set d y)
      else drawAmong serves ds l

/-- n seeds, none when the sources do not yield them all. -/
def drawSeeds (serves : Nat → Bool) : Nat → List NoiseSrc → Option (List (BitVec 128)) × List NoiseSrc
  | 0, l => (some [], l)
  | n + 1, l =>
    match drawAmong serves [0, 1, 2, 3] l with
    | (none, l) => (none, l)
    | (some v, l) =>
      match drawSeeds serves n l with
      | (none, l) => (none, l)
      | (some vs, l) => (some (v :: vs), l)

/-- n seeds from the block's sources: die 0's first, then the lowest-numbered die in service (R254). -/
def seedsNow (s : State) (n : Nat) : Option (List (BitVec 128)) × List NoiseSrc :=
  drawSeeds (fun d => !dieLost s d) n (s.dies.map (·.noise))

/-- The faults owed for the sources that `l` shows failed and State does not (R254). -/
def noiseFaults (s : State) (l : List NoiseSrc) : List Occ :=
  (s.dies.zipIdx.filter fun (x, d) => x.noise.ok && (l[d]?).any fun y => !y.ok).map fun (_, d) => ⟨0x16, false, d, none, 3, d⟩

/-- The sources as a draw leaves them, with the faults it owes. -/
def withNoise (s : State) (l : List NoiseSrc) : State :=
  { s with dies := s.dies.zipIdx.map fun (x, d) => { x with noise := l.getD d x.noise }
           owed := s.owed ++ noiseFaults s l }

/-! ### Keys (R545) -/

/-- The two keys that four seeds make, or those derived from the device key at the count of derivations. -/
def keysOf (l : Option (List (BitVec 128))) (n : Nat) : KeySlot :=
  match l with
  | some [a, b, c, d] => ⟨a ++ b, c ++ d, false⟩
  | _ => ⟨(Config.derivedKey n).1, (Config.derivedKey n).2, true⟩

/-- Fresh keys for a slot: drawn, or derived when no source passes. -/
def drawKeys (s : State) (slot : Nat) : State :=
  let r := seedsNow s 4
  { withNoise s r.2 with
    keySlots := modAt s.keySlots slot fun _ => keysOf r.1 s.derivations
    derivations := if r.1.isSome then s.derivations else s.derivations + 1
    keyDerived := s.keyDerived || r.1.isNone }

end Sys2Proof.Machine
end

