-- ==== Sys2Proof/Machine/Faults.lean ====
section
/-!
DEFINITION. Partition reset, loss of units, failover, and the one operation that raises a fault: it records the
occurrence, classes it by its reaction and applies the class (R595 to R601, R618 to R621).
-/

namespace Sys2Proof.Machine

/-! ### Partition reset (R588 to R590, Table 17.2) -/

/-- Step 4: everything the partition has loaded, created or bound, and every buffer, goes; buffers of reads outstanding
at a drive return to the block when those complete. -/
def discardObjects (s : State) (p : Nat) : State :=
  let nvme (f : Fetch) : Bool := f.drive.isSome
  let kept := (s.fetches.filter fun f => f.part = p && nvme f).flatMap fun f => f.bufs ++ f.aborting.flatMap (·.2)
  let s := { s with bufs := updIf (fun b => kept.contains b.handle) (fun b => { b with own := .detached }) s.bufs }
  let s := freeBufs s ((s.bufs.filter fun b => b.part = p && b.own ≠ .detached).map (·.handle))
  { s with
    fetches := s.fetches.filterMap fun f =>
      if f.part ≠ p then some f else if nvme f then some { f with recs := [] } else none
    recipes := s.recipes.filter fun x => x.part ≠ p
    models := s.models.filter fun x => x.part ≠ p
    landing := s.landing.filter fun b => !s.models.any fun m => m.part = p && m.uid = b.model
    dicts := s.dicts.filter fun x => x.part ≠ p
    tensors := s.tensors.filter fun x => x.part ≠ p
    cache := s.cache.filter fun x => x.part ≠ p
    copies := s.copies.filter fun x => x.part ≠ p
    spills := s.spills.filter fun x => x.part ≠ p
    sources := s.sources.filter fun x => x.part ≠ p
    calRuns := s.calRuns.filter fun x => x.part ≠ p
    transcodes := s.transcodes.filter fun x => x.part ≠ p
    readHalts := s.readHalts.filter fun h => s.cmds.any fun x => x.id = h.cmd && x.part ≠ p
    lreds := s.lreds.filter fun g => !s.samples.any fun x => x.part = p && x.h = g.sample }

/-- Queues that partition p owns. -/
def ownedQueues (s : State) (p : Nat) : List Nat := (List.range 64).filter fun q => owner s q = p

/-- Offsets of a partition's Pavane counters (Table 15.10). -/
def pavCounters (p : Nat) : List Nat := [0x08, 0x0C, 0x10, 0x14, 0x18, 0x1C, 0x20, 0x24, 0x2C].map (pavBase p + ·)

/-- Steps 1 to 5 of a partition reset. RESETTING stays 1 until `endReset` runs step 6 (log entry 14). -/
def partReset (s : State) (p : Nat) : State :=
  if (part s p).resetting then s else
  let s := setPart s p fun x => { x with resetting := true }
  let s := (s.epochs.filter fun e => e.part = p).foldl (fun s e => endEpoch s e.q) s
  let s := ((s.samples.filter fun x => x.part = p).map (·.h)).foldl removeSample s
  let s := stopThreads s fun t => (thTile t.th).isSome && t.part = p
  let s := { s with transfers := s.transfers.filter fun t => t.part ≠ p || (match t.kind with
      | .hmrd _ _ _ _ _ => true | .hmwr _ _ _ _ _ => true | _ => false) }
  let s := (s.cmds.filter fun x => x.part = p).foldl completeReset s
  let s := discardObjects s p
  let s := setPart s p fun x =>
    { x with events := [], cacheMib := 0, cacheBar := none, pins := [], waiting := [], stranded := false, rrQueue := 0, rrLeft := 0 }
  let s := { s with unretired := s.unretired.filter fun u => u.part ≠ p, turns := s.turns.filter fun u => u.part ≠ p }
  drawKeys s (fld s (partBase p + 0x28) 3 0)

/-! ### Loss of memory (R543, R544, R570 to R572, Table 16.1) -/

/-- Places a copy of n bytes on the first die in the order of the partition's primary port that can hold it and is not
in `avoid` (R565). -/
def placeCopy (s : State) (p n : Nat) (avoid : List Nat) : Option (State × Nat × List Nat) :=
  ((dieOrder (primaryDie s p)).filter fun d => !avoid.contains d && !dieLost s d).findSome? fun d =>
    (allocObject s p .spill d n).map fun (t, hs) => (t, d, hs)

/-- What the die that comes closest lacks to hold a copy of n bytes, in MiB rounded up (Table 16.6). -/
def spillLack (s : State) (n : Nat) (avoid : List Nat) : Nat :=
  let need := ((objClasses n).map classSize).foldl (· + ·) 0
  let short (d : Nat) : Nat := Nat.max 1 (need - freeOnDie s d)
  ceilDiv (((diesUp s).filter fun d => !avoid.contains d).foldl (fun a d => Nat.min a (short d)) need) (2 ^ 20)

/-- A spill handle after its copy on die d is lost: the last copy loses the handle, a mirrored one is rebuilt on
another die (R570). -/
def loseSpillCopy (s : State) (x : Spill) (d : Nat) : State :=
  let left := x.copies.filter fun c => c.die ≠ d
  let s := freeBufs s ((x.copies.filter fun c => c.die = d).flatMap (·.bufs))
  let set (s : State) (f : Spill → Spill) : State :=
    { s with spills := updIf (fun y => y.part = x.part && y.slot = x.slot && y.gen = x.gen) f s.spills }
  match left.find? fun c => !c.rebuilding with
  | none => set (freeBufs s (left.flatMap (·.bufs))) fun y => { y with copies := [], lostDie := some d }
  | some c =>
    match if x.mirror then placeCopy s x.part x.stored [c.die] else none with
    | some (s', d', hs) => set s' fun y => { y with copies := left ++ [⟨d', hs, true⟩] }
    | none => set s fun y => { y with copies := left }

/-- A running SPILL whose copy's die is lost begins that copy again on another die and reads its range again, or completes
REFUSED_FIT (R572). -/
def moveSpillCopy (s : State) (t : Transfer) (d : Nat) : State :=
  let left := t.bufs.filter fun b => b.1 ≠ d
  let n := runningWorst s t
  let anew (l : List (Nat × List Nat)) (y : Transfer) : Transfer :=
    { y with bufs := l, moved := 0, mask := 0, extra := [], got := [] }
  let set (s : State) (l : List (Nat × List Nat)) : State :=
    { s with transfers := updIf (fun y => y.id = t.id) (anew l) s.transfers }
  let s := freeBufs s ((t.bufs.filter fun b => b.1 = d).flatMap (·.2))
  match placeCopy s t.part n (d :: left.map (·.1)) with
  | some (s', d', hs) => set s' (left ++ [(d', hs)])
  | none =>
    let s := freeBufs { s with transfers := s.transfers.filter fun y => y.id ≠ t.id } (left.flatMap (·.2))
    match cmdOf s t.cmd with
    | some x => complete s x ⟨0x02, 0xFF13, spillLack s n (left.map (·.1)), 0, false⟩
    | none => s

/-- Strips lost buffers from everything that holds them, and frees what is left of an object that has lost one: a cache
entry goes, a copy is fetched or encoded again, a stream of bytes kept for a spill copy or a fetch is shorter. -/
def stripBufs (s : State) (hs : List Nat) : State :=
  let hit (l : List Nat) : Bool := l.any hs.contains
  let keep (l : List Nat) : List Nat := l.filter fun h => !hs.contains h
  let rest := (s.cache.map (·.bufs) ++ s.copies.map (·.bufs) ++ s.models.flatMap (fun m => m.copies.map (·.2)) ++
    s.dicts.flatMap (fun m => m.copies.map (·.2)) ++ s.samples.map (·.stagingBufs)).filter hit
  let s : State := { s with
    samples := s.samples.map fun x => if hit x.stagingBufs then { x with stagingBufs := [] } else x
    cache := s.cache.filter fun c => !hit c.bufs
    copies := s.copies.map fun c =>
      let c := { c with regenBufs := keep c.regenBufs }
      if hit c.bufs then { c with bufs := [], regenerating := true } else c
    models := s.models.map fun m => { m with copies := m.copies.filter fun c => !hit c.2 }
    dicts := s.dicts.map fun m => { m with copies := m.copies.filter fun c => !hit c.2 }
    spills := s.spills.map fun x => { x with copies := x.copies.map fun c => { c with bufs := keep c.bufs } }
    transfers := s.transfers.map fun t => { t with bufs := t.bufs.map fun b => (b.1, keep b.2) }
    fetches := s.fetches.map fun f =>
      { f with bufs := keep f.bufs, aborting := f.aborting.map fun a => (a.1, keep a.2) } }
  freeBufs s (rest.flatMap keep)

/-- Loses the buffers that satisfy `gone` and the superblocks that satisfy `supers`, which lay on die d: each holder is
treated as the rules of a lost die say, and the samples in flight that satisfy `again` run again with those whose buffers are
lost (R543, R544). A retired superblock stays so, and a marked one is marked still (R549). -/
def loseBufs (s : State) (d : Nat) (gone : Buf → Bool) (supers : Superblock → Bool) (again : Sample → Bool) : State :=
  let hs := (s.bufs.filter gone).map (·.handle)
  let hit (l : List Nat) : Bool := l.any hs.contains
  let victims : List Nat := (s.samples.filter fun x => !x.copied && (hit (sampleBufs x) || again x)).map (·.h)
  let hitSpills := (s.spills.filter fun x => x.copies.any fun c => hit c.bufs).map fun x => (x.slot, x.gen)
  let hitRuns := (s.transfers.filter fun t => t.bufs.any fun b => hit b.2).map (·.id)
  let s : State := victims.foldl restartSample s
  let s := forgetFrees (stripBufs s hs) hs
  let s : State := sweep { s with
    bufs := s.bufs.filter fun b => !hs.contains b.handle
    superblocks := s.superblocks.filterMap fun b =>
      if !supers b || b.retired then some b else if b.marked then some { b with group := none } else none }
  let s := hitSpills.foldl (fun s k =>
    match s.spills.find? fun x => (x.slot, x.gen) = k with
    | some x => loseSpillCopy s x d
    | none => s) s
  hitRuns.foldl (fun s i =>
    match s.transfers.find? fun t => t.id = i with
    | some t => moveSpillCopy s t d
    | none => s) s

/-- Die 0's numbers of the block superblocks that satisfy p. -/
def groupsOf (s : State) (p : Superblock → Bool) : List Nat := (s.superblocks.filter p).filterMap (·.group)

/-- Everything a die's memory held is lost, and every block superblock that included it. Under block-wide interleave every
sample in flight that is not ready runs again from its first stage too (R543). -/
def loseDieMemory (s : State) (d : Nat) : State :=
  let g := groupsOf s fun b => b.die = d
  let wide := fld s 0x4000 0 0 = 1
  loseBufs s d (fun u => if u.wide then u.sbs.any g.contains else hDie u.handle = d)
    (fun b => b.die = d || (match b.group with | some x => g.contains x | none => false)) fun x => wide && !x.ready

/-- Everything held in superblocks with granules on memory port m is lost (R544). -/
def losePortMemory (s : State) (m : Nat) : State :=
  let d := m / 4
  let on (b : Superblock) : Bool := b.die = d && b.ports.getLsbD (m % 4)
  let g := groupsOf s on
  let idx := (s.superblocks.filter fun b => on b && b.group.isNone).map (·.idx)
  loseBufs s d (fun u => if u.wide then u.sbs.any g.contains else hDie u.handle = d && u.sbs.any idx.contains)
    (fun b => on b || (match b.group with | some x => g.contains x | none => false)) fun _ => false

/-! ### Ports (R47, R50, R51, R665) -/

/-- Moves a partition's traffic to another port: unretired writes go again on it, and PORT_FAILOVER tells the partition
(R47, Table 4.9). -/
def moveTo (s : State) (p new : Nat) (toSec : Bool) : State :=
  let old := portOf s p
  let s := if p = 0 then { s with port0 := new } else setPart s p fun x => { x with onSecondary := toSec }
  let s := resend s p old new
  let s := { s with transfers := updIf (fun t => t.part = p) (fun t => { t with halted := false }) s.transfers
                    fetches := updIf (fun f => f.part = p && f.drive.isNone) (fun f => { f with halted := false }) s.fetches
                    readHalts := updIf (fun h => s.cmds.any fun x => x.id = h.cmd && x.part = p) (fun h => { h with halted := false })
                      s.readHalts }
  postEvent s p 7 (new + (if toSec then 256 else 0))

/-- What a link-down does to partition p: failover, or stranding; true when it is left stranded by it. -/
def partLinkDown (s : State) (p h : Nat) : State × Bool :=
  if !partEn s p || portOf s p ≠ h || (part s p).stranded || (p ≠ 0 && !priValid s p) then (s, false)
  else if p = 0 then
    match (List.range 8).find? fun i => s.hpUp.getLsbD i with
    | some i => (moveTo s 0 i false, false)
    | none => (setPart s 0 fun x => { x with stranded := true }, true)
  else
    let other := if (part s p).onSecondary then primaryPort s p else secondaryPort s p
    if secValid s p && s.hpUp.getLsbD other then (moveTo s p other (!(part s p).onSecondary), false)
    else (setPart s p fun x => { x with stranded := true }, true)

/-- A host port's link goes down: one occurrence for the port, and one for each partition left stranded (R665). -/
def linkDown (s : State) (h : Nat) : State × List Occ :=
  if s.hpUp.getLsbD h then
    let s := { s with hpUp := s.hpUp &&& ~~~(BitVec.twoPow 8 h) }
    let r := (List.range 16).foldl (fun (a : State × List Occ) p =>
      let (t, b) := partLinkDown a.1 p h
      (t, if b then a.2 ++ [⟨8, false, h / 2, some p, 5, h⟩] else a.2)) (s, [])
    (r.1, ⟨8, false, h / 2, none, 5, h⟩ :: r.2)
  else (s, [])

/-! ### Loss of units (R618 to R621, R668) -/

/-- Where a thread goes on from when its tile is lost: its last frame boundary, where its stage has not published and what it
has done since can be taken back (R260, R261). A part of a group reduction runs again instead (R453). -/
def goesOnFrom (s : State) (t : Thread) : Option FrameMark :=
  (sampleOf s t.sample).bind fun x => (markOf x t).filter fun m =>
    x.tokens.getD t.stage 0 = 0 && canGoBack x m &&
      !m.thread.tickets.any fun k => match k.deferred with | some (.lred _) => true | _ => false

/-- Such a thread is set aside until THREAD_ASSIGN gives it a tile, where an access unit that had not been decoded is decoded
from the saved context (R309). -/
def setAside (s : State) (h : Nat) (m : FrameMark) : State :=
  setSample (goBack s h m) h fun y => { y with
    assigned := y.assigned.filter (· ≠ m.thread.stage)
    moved := y.moved ++ [m.thread] }

/-- A stage of a sample whose tile is lost runs again; one that has advanced a context of another stage, and cannot go back to
its frame boundary, takes the sample with it, for that context is the parents' output (R164, R309). -/
def rerunLost (s : State) (h g : Nat) : State :=
  let shared := (sampleOf s h).any fun x => (x.frames.any fun m => m.thread.stage = g) && x.ctxs.any fun c => c.stage ≠ g
  if shared && (sampleOf s h).any (fun x => x.tokens.getD g 0 = 0) then restartSample s h else rerunStage s h g

/-- Work of tile t's threads is run again elsewhere, and hardware clears TILE_CTRL.ENABLE (R164, R623). -/
def stopTile (s : State) (t : Nat) : State :=
  let s := setFld s (tileBase t) 0 0 0
  let movers := (s.threads.filter fun x => thTile x.th = some t).filterMap fun x => (goesOnFrom s x).map fun m => (x.sample, m)
  let work := (s.threads.filter fun x => thTile x.th = some t && (goesOnFrom s x).isNone).map fun x => (x.sample, x.stage)
  let s := stopThreads s fun x => thTile x.th = some t && (match sampleOf s x.sample with
    | some y => y.tokens.getD x.stage 0 ≠ 0 | none => true)
  let s := work.foldl (fun s w => rerunLost s w.1 w.2) s
  movers.foldl (fun s w => if (sampleOf s w.1).any fun x => canGoBack x w.2 && x.frames.contains w.2 then setAside s w.1 w.2 else s)
    (stopThreads s fun x => thTile x.th = some t)

def stopCluster (s : State) (c : Nat) : State :=
  let s := (List.range 4).foldl (fun s i => stopTile s (4 * c + i)) s
  { s with landing := s.landing.filter fun b => b.cluster ≠ c }

/-- What is lost with a die beyond its entry in the list of lost units (Table 18.9, R668). -/
def stopDie (s : State) (d : Nat) : State × List Occ :=
  let s := (List.range 6).foldl (fun s i => stopCluster s (6 * d + i)) s
  let s := stopThreads s fun x => match x.th with | .mgmt e _ => e.val = d | _ => false
  let s := { s with dies := modAt s.dies d fun x => { x with mmRun := false } }
  let s := (List.range 4).foldl (fun s i => containLink s d i) s
  let s := (s.fetches.filter fun f => f.die = d).foldl (fun s f =>
    freeHeld (closeFetch (setFetch s f.id fun g => { g with aborting := [] }) { f with aborting := [] }) (f.aborting.flatMap (·.2))) s
  let s := loseDieMemory s d
  let (s, o1) := linkDown s (2 * d)
  let (s, o2) := linkDown s (2 * d + 1)
  (s, o1 ++ o2)

/-- Dies left without a path to die 0, or without a memory port, are lost as well (R13, R62, R618). -/
def unreachable (s : State) : List Nat :=
  (List.range 4).filter fun d => !dieLost s d &&
    (!(reached s).contains d || (s.boot.memDone && (List.range 4).all fun i => !mpServes s (4 * d + i)))

def markUnreachable (s : State) : State := { s with lost := s.lost ++ (unreachable s).map ((3, ·)) }

/-- Transfers between dies whose route has changed are held until the old route is drained (R14). -/
def holdRoutes (was s : State) : State :=
  let pairs := (List.range 4).flatMap fun a => ((List.range 4).filter (· ≠ a)).map fun b => (a, b)
  let live (x : Nat × Nat) : Bool := !dieLost s x.1 && !dieLost s x.2
  let new := pairs.filter fun x =>
    live x && !dieLost was x.1 && !dieLost was x.2 && route was x.1 x.2 ≠ route s x.1 x.2 && !s.routeHolds.contains x
  { s with routeHolds := s.routeHolds.filter live ++ new }

/-- The unit that a force bit targets. -/
def forceUnit (i v : Nat) : Nat × Nat :=
  if i ≤ 1 then (4, v) else if i = 2 then (5, v) else if i = 3 then (6, v) else if i = 4 then (1, v)
  else if i = 5 then (if v < 96 then (1, v) else (3, v - 0x80)) else if i = 6 then (0, 0) else (3, v)

/-- Whether a force bit's target is out of service; a link of a lost die counts. -/
def targetLost (s : State) (i : Nat) : Bool :=
  let u := forceUnit i (fld s (0x1020 + 4 * i) 7 0)
  if u.1 = 6 then dieLost s (u.2 / 4) else unitLost s u.1 u.2

/-- An armed one-shot bit whose target is out of service clears without injecting (R603). -/
def disarmLost (s : State) : State :=
  [0, 1, 2, 4, 5].foldl (fun s i =>
    if fld s 0x1010 i i = 1 && targetLost s i then setFld s 0x1010 i i 0 else s) s

/-- THERM_N is asserted while a die's Tj is at or above 100 °C, until every die is below 95 °C, while the force bit
stands and its die is in service, and after a thermal shutdown (R75, R603). DESIGN CHOICE (log entry 68): once asserted by
the force bit alone it stays so until every die is below 95 °C, also when the bit is cleared before. -/
def thermN (s : State) : State :=
  let hot := s.dies.any fun d => d.sensor && decide (100 ≤ d.tj)
  let warm := s.dies.any fun d => d.sensor && decide (95 ≤ d.tj)
  let forced := fld s 0x1010 7 7 = 1 && !targetLost s 7
  { s with pins := { s.pins with thermN := hot || forced || s.pins.tripped || (s.pins.thermN && warm) } }

/-- Loses a unit and all that goes with it. Losing die 0 is FATAL (R15, R62). -/
def loseUnit (s : State) (k i : Nat) : State × List Occ :=
  if unitLost s k i || k = 0 || k = 6 then (s, []) else
  let was := blkStatus s / 4 % 2 + blkStatus s / 16 * 2
  let before := diesUp s
  let whole := s
  let s := { s with lost := s.lost ++ [(k, i)] }
  let s := disarmLost (holdRoutes whole (markUnreachable (markUnreachable (markUnreachable s))))
  let s := if k = 1 then stopTile s i else if k = 2 then stopCluster s i
    else if k = 4 && !dieLost s (i / 4) then losePortMemory s i else s
  let (s, o) := if k = 5 then linkDown s i else (s, [])
  let (s, o) := (before.filter fun d => dieLost s d).foldl (fun (a : State × List Occ) d =>
    let (t, l) := stopDie a.1 d
    (t, a.2 ++ l)) (s, o)
  let s := thermN (if dieLost s 0 then { s with fatal := true } else s)
  let now := blkStatus s / 4 % 2 + blkStatus s / 16 * 2
  (if was ≠ now then postAll s 6 (blkStatus s) else s, o)

/-! ### Occurrences (R597 to R601) -/

/-- An occurrence laid out as FLT_LAST (Table 18.5). -/
def occWord (o : Occ) : Word :=
  BitVec.ofNat 32 (o.src * 2 ^ 24 + (if o.forced then 2 ^ 23 else 0) + o.die * 2 ^ 21 +
    (match o.part with | some p => 2 ^ 20 + p * 2 ^ 16 | none => 0) + o.kind * 2 ^ 12 + o.index)

def reactOff (c : Nat) : Nat := 0x1800 + 4 * c

/-- The class applied to an occurrence: the escalated one from the n-th occurrence on; FATAL for the sources of die 0
that are so whatever the reaction holds, at least DEGRADED for an SRAM word that belongs to no sample, and none but an escalated
one for the link-down of a host port itself (R596, R599, R665, Tables 18.2 and 18.5). -/
def occClass (s : State) (o : Occ) : Nat :=
  if o.src ∈ [0x0E, 0x13, 0x17, 0x18] ∧ o.kind = 3 ∧ o.index = 0 then 4
  else
    let n := fld s (reactOff o.src) 15 8
    let esc := n ≠ 0 ∧ n ≤ look (fun _ => 0) s.escCount o.src
    let c := if esc then fld s (reactOff o.src) 18 16 else if o.src = 0x08 ∧ o.part = none then 0 else fld s (reactOff o.src) 2 0
    if o.src = 0x06 ∧ o.part = none then Nat.max 3 c else c

/-- Whether an occurrence is FATAL: by its class, or as a DEGRADED one that names die 0 (R600). -/
def occFatal (s : State) (o : Occ) : Bool := occClass s o = 4 || (occClass s o = 3 && o.kind = 3 && o.index = 0)

/-- The records of an occurrence: status bits, companion counters, last and first-FATAL words, the IRQ (R597). -/
def recordOcc (s : State) (o : Occ) : State :=
  let s := setW1c s 0x1004 o.src (0x1100 + 4 * o.src)
  let s := setW1c s (dieBase o.die + 0x3000) o.src (dieBase o.die + 0x3100 + 4 * o.src)
  let s := setReg (setReg s 0x1008 (occWord o)) (dieBase o.die + 0x3004) (occWord o)
  let s := { s with escCount := put (fun _ => 0) o.src (look (fun _ => 0) s.escCount o.src + 1) s.escCount }
  let s := if occFatal s o ∧ reg s 0x100C = 0 then setReg s 0x100C (occWord o) else s
  if fld s (reactOff o.src) 4 4 = 1 ∧ fld s 0x1014 7 7 = 1 then hostReq s 0 (.msix ⟨0, fld s 0x1014 5 0⟩) else s

/-- Records an occurrence and applies its class (Table 18.1); the occurrences that follow from it come back. DESIGN CHOICE (log
entry 68): one that takes die 0 out by losing another unit stands in FLT_FATAL, for it is what stopped the block. -/
def occur (s : State) (o : Occ) : State × List Occ :=
  let s := recordOcc s o
  let c := occClass s o
  if occFatal s o then ({ s with fatal := true }, [])
  else if c = 3 then
    let (t, l) := loseUnit s o.kind o.index
    (if t.fatal ∧ reg t 0x100C = 0 then setReg t 0x100C (occWord o) else t, l)
  else if c = 2 then
    match o.part with
    | some p =>
      let s := setW1c s (partBase p + 4) 3 (partBase p + 0x2C)
      (if fld s (reactOff o.src) 3 3 = 1 then partReset s p else s, [])
    | none => (s, [])
  else (s, [])

/-- Occurrences one after another with what follows from them. -/
def occurAll : Nat → List Occ → State → State
  | 0, _, s => s
  | _ + 1, [], s => s
  | n + 1, o :: os, s => occurAll n (os ++ (occur s o).2) (occur s o).1

/-- Raises one occurrence. At most eight ports and sixteen partitions follow, so 64 rounds suffice. -/
def raise (s : State) (o : Occ) : State := occurAll 64 [o] s

/-- The faults owed are reported. -/
def reportOwed (s : State) : State := s.owed.foldl raise { s with owed := [] }

/-- A unit is lost without an occurrence of its own (R233). -/
def takeOut (s : State) (k i : Nat) : State :=
  let (s, l) := loseUnit s k i
  occurAll 64 l s

/-- A host port's link goes down (R665). -/
def hostDown (s : State) (h : Nat) : State :=
  let (s, l) := linkDown s h
  occurAll 64 l s

end Sys2Proof.Machine
end

