-- ==== Sys2Proof/Machine/Rng.lean ====
section
/-!
DEFINITION. The counter-based generator, its counters, fields and tables, and the epoch order (chapter 7).
-/

namespace Sys2Proof.Machine

/-- The four words of a counter or an output, x0 least significant. -/
structure Quad where
  x0 : Word
  x1 : Word
  x2 : Word
  x3 : Word
  deriving DecidableEq, Repr

/-- One round with its keys (R238). -/
def cbgRound (k0 k1 : Word) (q : Quad) : Quad :=
  let a : BitVec 64 := q.x0.zeroExtend 64 * 0xA3B195D7
  let b : BitVec 64 := q.x2.zeroExtend 64 * 0xE5C36A49
  ⟨(b >>> 32).truncate 32 ^^^ q.x3.rotateLeft 11 ^^^ k0, a.truncate 32,
   (a >>> 32).truncate 32 ^^^ q.x1.rotateLeft 5 ^^^ k1, b.truncate 32⟩

/-- n rounds; the keys advance after each. -/
def cbgRounds : Nat → Word → Word → Quad → Quad
  | 0, _, _, q => q
  | n + 1, k0, k1, q => cbgRounds n (k0 + 0x6C1BD2A5) (k1 + 0x3A8F0E97) (cbgRound k0 k1 q)

/-- The generator (R238). -/
def cbg (ctr : Quad) (seed : BitVec 128) : Quad :=
  let k := (seed.truncate 64 : BitVec 64) ^^^ (seed >>> 64).truncate 64
  cbgRounds 12 (k.truncate 32) ((k >>> 32).truncate 32) ctr

/-- A counter from its fields (R240, Table 7.1). -/
def counter (epoch key frame purpose draw : Nat) : Quad :=
  ⟨BitVec.ofNat 32 draw,
   BitVec.ofNat 32 (frame % 256 * 2 ^ 24 + purpose % 256 * 2 ^ 16 + draw / 2 ^ 32 % 2 ^ 16),
   BitVec.ofNat 32 (key % 2 ^ 24 * 256 + frame / 256 % 256),
   BitVec.ofNat 32 (epoch % 2 ^ 16 * 2 ^ 16 + key / 2 ^ 24 % 2 ^ 16)⟩

def Quad.word (q : Quad) (i : Nat) : Word := if i = 0 then q.x0 else if i = 1 then q.x1 else if i = 2 then q.x2 else q.x3

/-- The 128-bit output as a number. -/
def Quad.toNat (q : Quad) : Nat := q.x0.toNat + 2 ^ 32 * q.x1.toNat + 2 ^ 64 * q.x2.toNat + 2 ^ 96 * q.x3.toNat

/-- Field i of width w of consecutive elements from draw base on (R243); `draw` gives the output of a draw index. -/
def fieldOf (draw : Nat → Quad) (base w i : Nat) : Nat :=
  let k := 128 / w
  (draw ((base + i / k) % 2 ^ 48)).toNat / 2 ^ (i % k * w) % 2 ^ w

/-- Word i of consecutive elements that take 24 or 32 bits (R243). -/
def wordOf (draw : Nat → Quad) (base i : Nat) : Word := (draw ((base + i / 4) % 2 ^ 48)).word (i % 4)

/-- A w-bit field as an integer below m (R244). -/
def below (v m w : Nat) : Nat := v * m / 2 ^ w

/-- A w-bit field as a uniform value in (0, 1), exact (R244). -/
def uniform (v w : Nat) : Fp := .fin false (2 * v + 1) (-(w + 1 : Int))

/-- u24 of a word: bits [31:8]. -/
def u24 (w : Word) : Fp := uniform (w.toNat / 256) 24

/-- The octave of q = (2 t + 1) / 2^(n+1), its step among k and the fraction within the step (R245, R248). -/
def octave (t n k : Nat) : Nat × Nat × Fp :=
  let num := 2 * t + 1
  let g := n + 1 - Nat.log2 num - 2
  -- 1 + r = num / 2^(log2 num)
  let l := Nat.log2 num
  let rk := (num - 2 ^ l) * k
  (g, rk / 2 ^ l, .fin false (rk % 2 ^ l) (-(l : Int)))

/-- The interpolated value between two knots: fma(t1 - t0, f, t0). -/
def knots (t0 t1 : Word) (f : Fp) : Word := toFp32 (((ofFp32 (f32sub t1 t0)).mul f).add (ofFp32 t0))

/-- A normal by table from an n-bit value, n 24 or 32 (R245). -/
def normalOf (b n : Nat) : Word :=
  let h := 2 ^ (n - 1)
  let t := if h ≤ b then h - 1 - b % h else b % h
  let (g, m, f) := octave t n 128
  let t0 := normalTable (128 * g + m)
  let t1 := if m < 127 then normalTable (128 * g + m + 1)
    else if 0 < g then normalTable (128 * (g - 1)) else 0
  let z := knots t0 t1 f
  let z := if f32lt z 0xC0C00000 then 0xC0C00000 else z
  if h ≤ b then f32neg z else z

/-- Gumbel noise from the 24 bits of a word (R248). -/
def gumbel (w : Word) : Word :=
  let b := w.toNat / 256
  let h := 2 ^ 23
  let tab : Nat → Word := if h ≤ b then gumbelHigh else gumbelLow
  let t := if h ≤ b then h - 1 - b % h else b % h
  let (g, m, f) := octave t 24 64
  let t0 := tab (64 * g + m)
  let t1 := if m < 63 then tab (64 * g + m + 1) else if 0 < g then tab (64 * (g - 1)) else gumbelLast
  knots t0 t1 f

/-- Gumbel-max over FP32 weights; `noise` gives candidate j's word (R249): the lowest index with the greatest score,
-Inf weights passed over. -/
def gumbelMax (noise : Nat → Word) (l : List Word) : Option Nat :=
  ((l.zipIdx).foldl (fun (a : Option (Nat × Word)) x =>
    if ofFp32 x.1 = .inf true then a
    else
      let s := f32add x.1 (gumbel (noise x.2))
      match a with
      | none => some (x.2, s)
      | some b => if f32lt b.2 s then some (x.2, s) else a) none).map (·.1)

/-! ### The epoch order (R250, R251) -/

/-- Four rounds over the halves: (l, r, width of l, width of r). -/
def feistel (f : Nat → Nat → Nat) : List Nat → Nat × Nat × Nat × Nat → Nat × Nat
  | [], (l, r, _, _) => (l, r)
  | i :: is, (l, r, lw, rw) => feistel f is (r, l ^^^ (f i r % 2 ^ lw), rw, lw)

/-- The walk of R251 with the network applied at most `fuel` times; 2^n applications always end it (R252). -/
def walk (net : Nat → Nat) (n : Nat) : Nat → Nat → Nat
  | 0, x => x
  | k + 1, x => let y := net x; if y < n then y else walk net n k y

/-- perm of R251 for dataset j of size n in pass c. -/
def permute (seed : BitVec 128) (epoch j c n x : Nat) : Nat :=
  let w := Nat.max 2 (log2Up n)
  let a := (w + 1) / 2
  let b := w - a
  let f (i r : Nat) : Nat := (cbg (counter epoch (j * 2 ^ 32 + c % 2 ^ 32) i 0x0B r) seed).x0.toNat
  let net (x : Nat) : Nat :=
    let (l, r) := feistel f [0, 1, 2, 3] (x / 2 ^ b, x % 2 ^ b, a, b)
    l * 2 ^ b + r
  walk net n (2 ^ w) x

/-- Dataset number and global dataset index of position p. -/
def mapPosition (seed : BitVec 128) (epoch : Nat) (ds : List Dataset) (p : Nat) : Nat × Nat :=
  let j := if ds.length ≤ 1 then 0
    else (gumbelMax (fun i => (cbg (counter epoch p 0 0x08 (i / 4)) seed).word (i % 4)) (ds.map (·.logw))).getD 0
  match ds[j]? with
  | some d => (j, d.base + permute seed epoch j (p / d.size) d.size (p % d.size))
  | none => (0, p)

/-- Reserve key of position p (R514). -/
def reserveKey (e : Epoch) (p : Nat) : Nat := (cbg (counter e.num p 0 0x09 0) e.seed).x0.toNat

end Sys2Proof.Machine
end

