-- ==== Sys2Proof/Machine/Epochs.lean ====
section
/-!
DEFINITION. Slots, gaps, substitutes, deferral and the substitution log of an open epoch (chapter 15).
-/

namespace Sys2Proof.Machine

/-! ### Positions and batches -/

def homeOf (e : Epoch) (p : Nat) : Nat := p / e.b
/-- First position of batch k, or N (R500). -/
def batchLo (e : Epoch) (k : Nat) : Nat := Nat.min e.n (k * e.b)
/-- Positions of batch k. -/
def members (e : Epoch) (k : Nat) : List Nat :=
  (List.range (batchLo e (k + 1) - batchLo e k)).map (batchLo e k + ·)

/-- Position p's dataset and global dataset index (R250, R251). -/
def indexOf (e : Epoch) (p : Nat) : Nat × Nat := mapPosition e.seed e.num e.datasets p

/-- The sample of an epoch's position. -/
def sampleAt (s : State) (q p : Nat) : Option Sample := s.samples.find? fun x => ofEpoch q x && x.pos = p

/-! ### The substitution log (R526 to R528) -/

/-- A log record's bytes (Table 15.7). -/
def logBytes (r : LogRec) : List Byte :=
  let l := toLe 8 r.index ++ toLe 1 r.kind ++ toLe 1 r.reason ++ toLe 1 r.cause ++ toLe 1 0 ++ toLe 2 r.slot ++ toLe 2 0 ++
    toLe 8 r.batch ++ toLe 5 r.pos ++ toLe 1 r.dset ++ toLe 2 0 ++ toLe 5 r.dsidx ++ toLe 3 0 ++ toLe 5 r.orig ++ toLe 15 0
  l ++ toLe 4 (crc32c l)

/-- Writes a record at its place in the ring; a fault marks the epoch (R524). -/
def putLog (s : State) (q : Nat) (r : LogRec) : State :=
  match epochOf s q with
  | none => s
  | some e =>
    let key := hostKey e.pasid (e.logBase + 64 * (r.index % 2 ^ e.log2))
    let s := if faulty s key 64 then setEpoch s q fun e => { e with logFault := true }
      else hostWrite s e.part key (logBytes r)
    setEpoch s q fun e => { e with logLive := e.logLive ++ [r], logHead := r.index + 1 }

/-- Whether a record is live once NEXT_POS is `next` (R527). -/
def logIsLive (l : List LogRec) (next : Nat) (r : LogRec) : Bool :=
  if r.kind = 2 then !l.any fun o => (o.kind = 1 || o.kind = 4) && o.pos = r.pos && r.index < o.index
  else (r.kind = 1 || r.kind = 3) && next ≤ r.pos

/-- Copies the live records forward when the next record would overwrite one at or above the floor (R528). -/
def copyForward (s : State) (q : Nat) : State :=
  match epochOf s q with
  | none => s
  | some e =>
    if e.logFloor + 2 ^ e.log2 ≤ e.logHead then
      let live := e.logLive.filter (logIsLive e.logLive (batchLo e e.open_))
      let s := setEpoch s q fun e => { e with logFloor := e.logHead, logLive := [] }
      (live.zipIdx).foldl (fun s x => putLog s q { x.1 with index := e.logHead + x.2 }) s
    else s

/-- Records a decision about position p: kind, reason, cause, slot and the member replaced (R526). -/
def addLog (s : State) (q kind reason cause slot p orig : Nat) : State :=
  let s := copyForward s q
  match epochOf s q with
  | none => s
  | some e => putLog s q ⟨e.logHead, kind, reason, cause, slot, e.open_, p, (indexOf e p).1, (indexOf e p).2, orig⟩

def noPos : Nat := 0xFFFFFFFFFF

/-! ### Slots -/

def slotFree (x : Slot) : Bool := x.pos.isNone && !x.padded && !x.vacant && !x.removed
/-- Lowest and highest free slot. -/
def lowFree (e : Epoch) : Option Nat := e.slots.findIdx? slotFree
def highFree (e : Epoch) : Option Nat := ((List.range e.slots.length).reverse).find? fun i => slotFree (e.slots.getD i Slot.empty)

def setSlot (s : State) (q i : Nat) (x : Slot) : State := setEpoch s q fun e => { e with slots := modAt e.slots i fun _ => x }

/-- A ready sample takes slot i, whose gap information stands in the slot (R504, R515, R516, R518). -/
def placeAt (s : State) (q i : Nat) (x : Sample) : State :=
  match epochOf s q with
  | none => s
  | some e =>
    let y := e.slots.getD i Slot.empty
    let subst := y.orig.isSome
    let late := if waitingMode e then e.graceOver else x.deferred
    let s := setEpoch s q fun e => { e with
      slots := modAt e.slots i fun z => { z with pos := some x.pos, choice := none }
      gone := if subst && !x.deferred then e.gone ++ [(x.pos, 0x0A, 0, x.dsidx)] else e.gone
      deferredN := if x.deferred then e.deferredN - 1 else e.deferredN }
    let s := setSample s x.h fun z => { z with placed := some i, late := late }
    let s := if subst then bump s (pavBase e.part + 0x18) else s
    let orig := y.orig.getD noPos
    if x.deferred then addLog s q 4 0 0 i x.pos orig
    else if subst then addLog s q 3 0 0 i x.pos orig
    else if late then addLog s q 4 0 0 i x.pos noPos
    else s

/-- The first of a list in reserve-key order, the lower position on equal keys (R514). -/
def firstKey (e : Epoch) (l : List Nat) : Option Nat :=
  l.foldl (fun a p => match a with
    | none => some p
    | some b => if reserveKey e p < reserveKey e b ∨ (reserveKey e p = reserveKey e b ∧ p < b) then some p else some b) none

/-- The candidate that the next gap of a waiting mode takes among batches k, k + 1, and on (R516). -/
def nextChoice (e : Epoch) : Nat → Nat → Option Nat
  | 0, _ => none
  | n + 1, k =>
    match firstKey e ((members e k).filter fun p => !(e.gone.any (·.1 = p) || e.slots.any (·.choice = some p))) with
    | some p => some p
    | none => nextChoice e n (k + 1)

/-- Whether slot i of a batch in a waiting mode is a gap that nothing has filled. -/
def openGap (e : Epoch) (i : Nat) : Bool := let y := e.slots.getD i Slot.empty; slotFree y && y.gap

/-- The open gaps of a waiting mode take their candidates in ascending slot order, each the first in key order that no lower
one has. The choice is made once no member of the batch is pending, so that it depends on keys and drops alone (R258, R516;
log entry 67). -/
def chooseGaps (e : Epoch) : Epoch :=
  let pending := e.slots.any fun y => slotFree y && !y.gap
  (List.range e.slots.length).foldl (fun e i =>
    if pending || !openGap e i then e
    else
      let c := nextChoice e (memberBatches e - (e.open_ + 1)) (e.open_ + 1)
      { e with slots := modAt e.slots i fun y => { y with choice := c } })
    { e with slots := e.slots.map fun y => if slotFree y then { y with choice := none } else y }

/-- Member p of the open batch loses its slot: the corruption policy governs a dropped one; an advanced one is a gap
(R513, R509). -/
def loseSlot (s : State) (q p reason cause dsidx : Nat) : State :=
  match epochOf s q with
  | none => s
  | some e =>
    let info : Slot := { Slot.empty with orig := some p, origDsidx := dsidx, reason := reason, cause := cause }
    if waitingMode e then
      let i := p - batchLo e e.open_
      if reason = 0x0A ∨ e.policy = 0 then setSlot s q i { info with gap := true }
      else if e.policy = 1 then setSlot s q i { info with removed := true }
      else setSlot s q i { info with padded := true }
    else if reason = 0x0A ∨ e.policy = 0 then
      setEpoch s q fun e => { e with gaps := e.gaps ++ [{ info with gap := true }] }
    else if e.policy = 1 then setSlot s q ((highFree e).getD 0) { info with removed := true }
    else setSlot s q ((lowFree e).getD 0) { info with padded := true }

/-! ### The reserve pool (R515) -/

/-- Positions whose samples are candidates for gaps of the open batch in a throughput mode. -/
def reservePool (s : State) (e : Epoch) : List Nat :=
  (s.samples.filter fun x => ofEpoch e.q x && x.ready && x.placed.isNone && !x.copied &&
    (if x.deferred then homeOf e x.pos < e.open_ else e.open_ < homeOf e x.pos)).map (·.pos)

/-- Fills one gap of a throughput mode while the pool has a candidate. -/
def fillGap (s : State) (q : Nat) (g : Slot) : State :=
  match epochOf s q with
  | none => s
  | some e =>
    match firstKey e (reservePool s e), lowFree e with
    | some p, some i =>
      match sampleAt s q p with
      | some x =>
        let s := setEpoch s q fun e => { e with gaps := e.gaps.filter fun z => z.orig ≠ g.orig }
        placeAt (setSlot s q i g) q i x
      | none => s
    | _, _ => s

/-- Whether a sample can take a slot now. -/
def placeable (x : Sample) : Bool := x.ready && x.placed.isNone && !x.copied

/-- Places the member of slot i of a waiting mode once it is ready. -/
def settleSlot (s : State) (q i : Nat) : State :=
  match epochOf s q with
  | none => s
  | some e =>
    let y := e.slots.getD i Slot.empty
    if !slotFree y || y.gap then s
    else match sampleAt s q (batchLo e e.open_ + i) with
      | some x => if placeable x then placeAt s q i x else s
      | none => s

/-- The lowest open gap of a waiting mode takes its candidate once that is ready; with no later member left it is VACANT
(R516). -/
def settleGap (s : State) (q : Nat) : State :=
  let s := setEpoch s q chooseGaps
  match epochOf s q with
  | none => s
  | some e =>
    match (List.range e.slots.length).find? (openGap e) with
    | none => s
    | some i =>
      if e.slots.any fun y => slotFree y && !y.gap then s
      else match (e.slots.getD i Slot.empty).choice with
        | none => setSlot s q i { e.slots.getD i Slot.empty with vacant := true, gap := false }
        | some p =>
          match sampleAt s q p with
          | some x => if placeable x then placeAt s q i x else s
          | none => s

/-- Ready members of the open batch that wait for a slot, in order of position. -/
def readyMembers (s : State) (e : Epoch) : List Sample :=
  (members e e.open_).filterMap fun p => (sampleAt s e.q p).bind fun x =>
    if x.ready && x.placed.isNone && !x.deferred && !x.copied then some x else none

/-- Places a deferred sample in a batch that has no members left (R522). -/
def fillTail (s : State) (q : Nat) : State :=
  match epochOf s q with
  | none => s
  | some e =>
    match firstKey e (reservePool s e), lowFree e with
    | some p, some i => (match sampleAt s q p with | some x => placeAt s q i x | none => s)
    | _, _ => s

/-- The transfer that copies a placed sample into its slot, once the batch has its delivery entry (R503). -/
def startCopies (s : State) (q : Nat) : State :=
  match epochOf s q with
  | none => s
  | some e =>
    if e.entries.any (·.batch = e.open_) then
      (s.samples.filter fun x => ofEpoch q x && x.placed.isSome && x.ready && !x.copied &&
          !s.transfers.any fun t => match t.kind with | .place q' p _ => q' = q && p = x.pos | _ => false).foldl
        (fun s x =>
          let (i, s) := fresh s
          { s with transfers := s.transfers ++ [newTransfer i e.part 0 (.place q x.pos (x.placed.getD 0)) e.outBytes] }) s
    else s

/-- A batch after the last member batch is all VACANT once nothing is left for it (R663). -/
def flushTail (s : State) (q : Nat) : State :=
  match epochOf s q with
  | none => s
  | some e =>
    if memberBatches e ≤ e.open_ && !unresolved e && e.slots.all (fun y => y.pos.isNone) then
      setEpoch s q fun e => { e with slots := e.slots.map fun y => { y with vacant := true } }
    else s

/-- EPOCH_OPEN or EPOCH_RESUME completes once a thread has been assigned to a first position, or none is left that could be
(R144). -/
def finishOpen (s : State) (q : Nat) : State :=
  match epochOf s q with
  | none => s
  | some e =>
    match e.opening with
    | none => s
    | some (c, r0, r1, cal) =>
      let gone := ((e.gone.map (·.1)).eraseDups.filter fun p => e.nextIssue ≤ p).length
      let left := e.nextIssue + gone < e.n || !e.reissue.isEmpty || s.samples.any (ofEpoch q)
      if left && !s.samples.any fun x => ofEpoch q x && x.started then s
      else
        let s := setEpoch s q fun e => { e with opening := none }
        match cmdOf s c with
        | some x => complete s x ⟨0, 0, r0, r1, cal⟩
        | none => s

/-- Places what can be placed and starts copies. -/
def place (s : State) (q : Nat) : State :=
  match epochOf s q with
  | none => s
  | some e =>
    let slots := List.range e.slots.length
    let s :=
      if waitingMode e then slots.foldl (fun s _ => settleGap s q) (slots.foldl (fun s i => settleSlot s q i) s)
      else
        let s := (readyMembers s e).foldl (fun s x =>
          match (epochOf s q).bind lowFree with | some i => placeAt s q i x | none => s) s
        let s := (((epochOf s q).map (·.gaps)).getD []).foldl (fun s g => fillGap s q g) s
        if memberBatches e ≤ e.open_ then slots.foldl (fun s _ => fillTail s q) s else s
    finishOpen (startCopies (flushTail s q) q) q

/-! ### Drops (R513, R519) -/

/-- The records of a program fault: TILE_PFLT and its information (R230, Table 6.18), and PROGRAM_FAULT. -/
def recordPfault (s : State) (tile : Nat) (t : Thread) : State :=
  let b := tileBase tile
  let recipe := ((sampleOf s t.sample).map (·.recipe)).getD 0
  let s := setW1c s (b + 0x10) 0 (b + 0x14)
  let s := setReg s (b + 0x18) (BitVec.ofNat 32
    (t.fault % 256 * 2 ^ 24 + t.stage % 16 * 2 ^ 20 + thNum t.th * 2 ^ 15 + t.pc / 8 % 2 ^ 15))
  let s := setReg s (b + 0x1C) (BitVec.ofNat 32 recipe)
  let s := setReg s (b + 0x20) (BitVec.ofNat 32 (t.part + (if t.fault % 256 = 0x0C then t.fault / 256 % 256 * 256 else 0)))
  raise s ⟨0x1A, false, tile / 24, some t.part, 1, tile⟩

/-- The program faults of a sample's threads that still wait for tickets are recorded as the sample leaves (R230). -/
def recordFaults (s : State) (h : Nat) : State :=
  (s.threads.filter fun t => t.sample = h && t.ending && t.fault ≠ 0).foldl (fun s t =>
    match thTile t.th with
    | some tile => recordPfault s tile t
    | none => s) s

/-- A position of an epoch is dropped: its record, its counters, its sample and its slot. -/
def dropMember (s : State) (q : Nat) (x : Sample) (reason cause : Nat) : State :=
  let s := recordFaults s x.h
  match epochOf s q with
  | none => removeSample s x.h
  | some e =>
    let s := bump (addLog s q 1 reason cause 0xFFFF x.pos noPos) (pavBase e.part + 0x20)
    let s := { s with transfers := s.transfers.filter fun t =>
      match t.kind with | .place q' p _ => !(q' = q && p = x.pos) | _ => true }
    let s := removeSample s x.h
    let s := setEpoch s q fun e => { e with
      droppedN := e.droppedN + 1
      deferredN := if x.deferred && x.placed.isNone then e.deferredN - 1 else e.deferredN
      gone := if homeOf e x.pos ≤ e.open_ then e.gone
        else (e.gone.filter (·.1 ≠ x.pos)) ++ [(x.pos, reason, cause, x.dsidx)] }
    -- the slot it stood in
    let s := match (e.slots.zipIdx).find? fun y => y.1.pos = some x.pos with
      | some (y, i) =>
        if y.orig.isSome then
          if waitingMode e then setSlot s q i { y with pos := none }
          else setEpoch (setSlot s q i Slot.empty) q fun e => { e with gaps := e.gaps ++ [{ y with pos := none }] }
        else setSlot s q i Slot.empty
      | none => s
    if !x.deferred && homeOf e x.pos = e.open_ && !e.gone.any (·.1 = x.pos) then
      loseSlot s q x.pos reason cause x.dsidx else s

/-- A position is deferred at grace end (R517 step 1, R519): at the straggler limit it is dropped instead. -/
def deferPosition (s : State) (q p : Nat) (forceDeferred : Bool) : State :=
  match epochOf s q with
  | none => s
  | some e =>
    let x := sampleAt s q p
    let strag := !forceDeferred && (match x with | some x => decide (x.budget < x.charged) && !x.ready | none => false)
    match x, strag && stragglers s e.part = 64 with
    | some x, true => dropMember s q x 7 0
    | _, _ =>
      let reason := if strag then 9 else 8
      let s := bump (addLog s q 2 reason 0 0xFFFF p noPos) (pavBase e.part + 0x1C)
      let s := match x with
        | some x => setSample s x.h fun y => { y with deferred := true, straggler := strag }
        | none => s
      setEpoch s q fun e => { e with
        deferredN := e.deferredN + 1
        reissue := if x.isNone then e.reissue ++ [p] else e.reissue
        nextIssue := if x.isNone then Nat.max e.nextIssue (p + 1) else e.nextIssue
        gaps := e.gaps ++ [{ Slot.empty with orig := some p, origDsidx := (indexOf e p).2, reason := reason, gap := true }] }

/-- Members of the open batch neither placed nor dropped nor advanced. -/
def pendingMembers (e : Epoch) : List Nat :=
  (members e e.open_).filter fun p =>
    !(e.slots.any fun y => y.pos = some p || y.orig = some p) && !e.gaps.any fun y => y.orig = some p

/-- Gaps still unfilled and slots still empty become PADDED under PAD and VACANT otherwise (R517 step 3). -/
def closeSlots (s : State) (q : Nat) : State :=
  match epochOf s q with
  | none => s
  | some e =>
    let mark (y : Slot) : Slot := if e.policy = 2 then { y with padded := true, gap := false } else { y with vacant := true, gap := false }
    let s := e.gaps.foldl (fun s g => match (epochOf s q).bind lowFree with
      | some i => setSlot s q i (mark g) | none => s) s
    setEpoch s q fun e => { e with gaps := [], slots := e.slots.map fun y => if slotFree y then mark y else y }

/-- The end of the grace window of the open batch: in a throughput mode members are deferred, then gaps are filled, then empty
slots are closed (R517); in a waiting mode the wait goes on (R518); a batch of deferred positions starts its window anew
(R522). -/
def graceEnd (s : State) (q : Nat) (force : Option Nat) : State :=
  match epochOf s q with
  | none => s
  | some e =>
    if waitingMode e then place (setEpoch s q fun e => { e with graceRun := false, graceOver := true }) q
    else
      let s := (pendingMembers e).foldl (fun s p => deferPosition s q p (force = some p)) s
      let s := place s q
      match epochOf s q with
      | none => s
      | some e =>
        if memberBatches e ≤ e.open_ && unresolved e && e.slots.all (fun y => y.pos.isNone) then s
        else startCopies (closeSlots (setEpoch s q fun e => { e with graceRun := false, graceOver := true }) q) q

/-- The grace window of a partition's epoch in µs (R511). -/
def graceUs (s : State) (e : Epoch) : Nat := Nat.min e.grace (fld s (pavBase e.part) 13 0)

/-- A due and incomplete batch has its grace window running; one of 0 ends at once (R511). -/
def startGrace (s : State) (q : Nat) : State :=
  match epochOf s q with
  | none => s
  | some e =>
    if batchDue e && !e.graceOver && !batchComplete s e then
      let s := setEpoch s q fun e => { e with graceRun := true }
      if graceUs s e = 0 then graceEnd s q none else s
    else s

/-- Places what can be placed, starts copies, and runs the grace window. -/
def settle (s : State) (q : Nat) : State := startGrace (place s q) q

/-- A position of an epoch is dropped, and what can be placed takes its slot. -/
def dropPosition (s : State) (q : Nat) (x : Sample) (reason cause : Nat) : State := settle (dropMember s q x reason cause) q

/-- Opens batch k: its slots, and the gaps of members that were dropped or advanced before (R500, R515). -/
def openBatch (s : State) (q k : Nat) : State :=
  match epochOf s q with
  | none => s
  | some e =>
    let m := (members e k).length
    let blank := (List.range e.b).map fun i =>
      if k < memberBatches e ∧ m ≤ i then { Slot.empty with vacant := true } else Slot.empty
    let mine := (members e k).filterMap fun p => e.gone.find? (·.1 = p)
    let s := setEpoch s q fun e => { e with
      open_ := k, slots := blank, gaps := [], graceRun := false, graceOver := false }
    mine.foldl (fun s g => loseSlot s q g.1 g.2.1 g.2.2.1 g.2.2.2) s

/-- A calibration sample is left out, its cause kept, or ends its run (R176, R300). DESIGN CHOICE (log entry 68): one that a
stage drops, whatever the reason, counts as damaged. -/
def failCalibration (s : State) (c : Nat) (x : Sample) (reason cause src off : Nat) : State :=
  let f : Option (Nat × Nat × Nat) :=
    if reason = 3 then some (0x06, src % 65536, 0) else if reason = 4 then some (0x05, src % 65536, off)
    else if reason = 6 then some (0x0C, 0, x.charged) else none
  let s := { s with calRuns := updIf (fun r => r.cmd = c) (fun r =>
    { r with damaged := r.damaged + 1, cause := if cause = 0 then r.cause else cause, failed := match r.failed with | some g => some g | none => f }) s.calRuns }
  removeSample (recordFaults s x.h) x.h

/-- A sample leaves its batch for a reason of Table 15.5 (R161, R513); `src` and `off` name a failed source. -/
def dropSample (s : State) (h reason cause src off : Nat) : State :=
  match sampleOf s h with
  | none => s
  | some x =>
    if x.copied then s
    else match x.from_ with
      | .epoch q => dropPosition s q.val x reason cause
      | .calibration c => failCalibration s c x reason cause src off

/-- A deferred sample whose tile-events exceed its budget becomes a straggler at once, or is dropped when its partition holds
64 (R519). -/
def overBudget (s : State) (h : Nat) : State :=
  match sampleOf s h with
  | none => s
  | some x =>
    if !x.deferred || x.straggler || x.ready || x.copied || x.charged ≤ x.budget then s
    else if stragglers s x.part = 64 then dropSample s h 7 0 0 0
    else setSample s h fun y => { y with straggler := true }

/-- A sample that is dropped because a stage of it publishes DROPPED, at which every other stage does (R161), is finished
(R162); one that was ready has been counted. -/
def dropFinished (s : State) (h reason cause src off : Nat) : State :=
  dropSample (if (sampleOf s h).any fun x => !x.ready then bump64 s 0x6180 1 else s) h reason cause src off

/-- The release tree carries a step to every tile and die in service (R507, R539). -/
def carryStep (s : State) : State :=
  { s with carried := ((List.range 96).filter fun i => !unitLost s 1 i).map ((1, ·)) ++
      ((List.range 4).filter fun d => !unitLost s 3 d).map ((3, ·)) }

/-- A step event of partition p: each of its epochs that is open, its command completed, counts it (R507, R512). -/
def stepEvent (s : State) (p : Nat) : State :=
  if !alive s || (part s p).resetting then s
  else
    let es := s.epochs.filter fun e => e.part = p && e.opening.isNone
    if es.isEmpty then setW1c s (pavBase p + 4) 4 (pavBase p + 0x2C)
    else es.foldl (fun s e => startGrace (setEpoch s e.q fun x => { x with steps := x.steps + 1 }) e.q)
      (carryStep (bump64 s (pavBase p + 8) 1))

/-- Partitions whose step source is a STEP pin. -/
def mappedTo (s : State) (pin : Nat) : List Nat :=
  (List.range 16).filter fun p => fld s (partBase p + 0xC) 2 0 = pin + 1

/-- Whether an edge at a STEP pin comes within 10 µs of the last one accepted. -/
def stepEarly (s : State) (pin : Nat) : Bool := (s.pins.stepLast.getD pin none).any fun t => s.us < t + 10

/-- An edge accepted by a STEP pin's filter: rejected and counted when early, else a step of the partitions it drives. -/
def edgeTaken (pin : Nat) (s : State) : State :=
  if stepEarly s pin then { s with pins := { s.pins with stepRejected := modAt s.pins.stepRejected pin (· + 1) } }
  else
    let t := { s with pins := { s.pins with stepLast := modAt s.pins.stepLast pin fun _ => some s.us
                                            stepHigh := modAt s.pins.stepHigh pin fun _ => true } }
    (mappedTo t pin).foldl stepEvent t

/-- An edge that its filter has accepted reaches a STEP pin of a block out of reset, unless the pin is stuck high (R72). -/
def edgeAt (pin : Nat) (s : State) : State :=
  if !alive s || s.pins.stepStuck.getD pin false then s else edgeTaken pin s

end Sys2Proof.Machine
end

