-- ==== Sys2Proof/Machine/Desc.lean ====
section
/-!
DEFINITION. Element types, tensor descriptors, element addresses, the aliasing test and layouts (chapter 12).
-/

namespace Sys2Proof.Machine

/-! ### Element types (Table 12.1) -/

/-- Bits of an element. -/
def etypeBits (t : Nat) : Nat :=
  if t = 5 ∨ t = 6 then 16 else if t = 7 then 32 else if t = 8 ∨ t = 9 ∨ t = 0x0E then 4
  else if t = 0x0C ∨ t = 0x0D then 6 else 8

def etypeOk (t : Nat) : Bool := 1 ≤ t && t ≤ 0x0E
def etypePacked (t : Nat) : Bool := t ∈ [0x08, 0x09, 0x0C, 0x0D, 0x0E]
def etypeMx (t : Nat) : Bool := 0x0A ≤ t && t ≤ 0x0E
/-- Dimension 5 is stored densely (R393, R394). -/
def denseLast (t : Nat) : Bool := 8 ≤ t && t ≤ 0x0E
/-- Bytes of an element of a type that is not packed. -/
def etypeBytes (t : Nat) : Nat := etypeBits t / 8

/-! ### The descriptor (Table 12.2) -/

/-- A two's-complement 64-bit value. -/
def signed64 (x : Nat) : Int := if x < 2 ^ 63 then x else (x : Int) - 2 ^ 64

/-- The fields of 128 descriptor bytes. -/
def parseDesc (l : List Byte) : Desc :=
  { etype := leAt l 0 1, space := bits (leAt l 1 1) 1 0, ro := bitN (leAt l 1 1) 2, blkE := bits (leAt l 2 1) 1 0,
    blkRow := bits (leAt l 2 1) 4 2, g2 := bits (leAt l 3 1) 2 0, g3 := bits (leAt l 3 1) 5 3, base := leAt l 8 8,
    rangeBase := leAt l 16 8, rangeBytes := leAt l 24 8, scaleBase := leAt l 32 8,
    extent := (List.range 6).map fun d => leAt l (48 + 12 * d) 4,
    stride := (List.range 6).map fun d => signed64 (leAt l (52 + 12 * d) 8) }

def Desc.ext (t : Desc) (d : Nat) : Nat := t.extent.getD d 1
def Desc.str (t : Desc) (d : Nat) : Int := t.stride.getD d 0
def Desc.blocked (t : Desc) : Bool := t.blkE ≠ 0
/-- Whether d is one of the blocked pair. -/
def Desc.inPair (t : Desc) (d : Nat) : Bool := t.blocked && (d = t.blkRow || d = t.blkRow + 1)
/-- Side of a top tile (R398). -/
def Desc.side (t : Desc) : Nat := (if t.blkE = 1 then 8 else 16) * 2 ^ t.g2 * 2 ^ t.g3
/-- A dense dimension 5 (R397). -/
def Desc.dense (t : Desc) (d : Nat) : Bool := d = 5 && denseLast t.etype
/-- Extents with the blocked pair counted in top tiles (R401). -/
def Desc.units (t : Desc) (d : Nat) : Nat := if t.inPair d then ceilDiv (t.ext d) t.side else t.ext d
/-- Bytes of one unit (R401). -/
def Desc.unit (t : Desc) : Nat :=
  if t.blocked then t.side * t.side * etypeBytes t.etype
  else if denseLast t.etype then ceilDiv (t.ext 5 * etypeBits t.etype) 8
  else etypeBytes t.etype

/-- Dimensions with a stride. -/
def Desc.strided (t : Desc) : List Nat := (List.range 6).filter fun d => !t.dense d

/-- First byte touched and the byte after the last (R401). -/
def Desc.lo (t : Desc) : Int :=
  t.strided.foldl (fun a d => a + (let x := t.str d * ((t.units d : Int) - 1); if x < 0 then x else 0)) (t.base : Int)
def Desc.hi (t : Desc) : Int :=
  t.strided.foldl (fun a d => a + (let x := t.str d * ((t.units d : Int) - 1); if 0 < x then x else 0)) (t.base : Int) + t.unit

/-- Bytes of the scale array. -/
def Desc.scales (t : Desc) : Nat :=
  if etypeMx t.etype then ((List.range 5).map t.ext).foldl (· * ·) 1 * (t.ext 5 / 32) else 0

/-- Offsets of the fields that break Table 12.1, Table 12.2, R393, R394 and the types of R399, lowest first. `spaceOk`
says which SPACE values serve. -/
def descShape (l : List Byte) (spaceOk : Nat → Bool) : List Nat :=
  let t := parseDesc l
  let bad (c : Bool) (o : Nat) : List Nat := if c then [o] else []
  bad (!etypeOk t.etype) 0 ++ bad (!spaceOk t.space || leAt l 1 1 / 8 ≠ 0) 1 ++
  bad (t.blkE = 3 || 4 < t.blkRow || leAt l 2 1 / 32 ≠ 0 || (t.blocked && denseLast t.etype)) 2 ++
  bad (4 < t.g2 || 4 < t.g3 || (t.g3 ≠ 0 && t.g2 = 0) || leAt l 3 1 / 64 ≠ 0) 3 ++
  bad (!zeroBytes l 4 8) 4 ++ bad (t.rangeBytes = 0 || 2 ^ 48 < t.rangeBytes) 24 ++
  bad (!etypeMx t.etype && t.scaleBase ≠ 0) 32 ++ bad (!zeroBytes l 40 48) 40 ++
  ((List.range 6).flatMap fun d =>
    bad (t.ext d = 0 || 2 ^ 31 < t.ext d ||
      (d = 5 && ((etypePacked t.etype && t.ext 5 * etypeBits t.etype % 8 ≠ 0) || (etypeMx t.etype && t.ext 5 % 32 ≠ 0)))) (48 + 12 * d) ++
    bad (t.dense d && t.str d ≠ 0) (52 + 12 * d)) ++
  bad (!zeroBytes l 120 128) 120

/-- Offsets of the fields that break R399 or R400. -/
def descAlign (t : Desc) : List Nat :=
  let e : Nat := Nat.max 1 (etypeBytes t.etype)
  if t.blocked then
    (if t.base % 64 ≠ 0 then [8] else []) ++
    ([t.blkRow, t.blkRow + 1].filter fun d => t.str d ≤ 0 || t.str d % 64 ≠ 0).map (52 + 12 * ·)
  else
    (if t.base % e ≠ 0 then [8] else []) ++ (t.strided.filter fun d => t.str d % e ≠ 0).map (52 + 12 * ·)

/-- The field that breaks the range test of R401: RANGE_BASE below, RANGE_BYTES above, SCALE_BASE for the scales. -/
def descRange (t : Desc) : List Nat :=
  let top : Int := (t.rangeBase : Int) + t.rangeBytes
  let sb : Int := t.scaleBase
  let se : Int := sb + t.scales
  (if t.lo < t.rangeBase then [16] else []) ++ (if top < t.hi then [24] else []) ++
  (if etypeMx t.etype && (sb < t.rangeBase || top < se || (sb < t.hi && t.lo < se)) then [32] else [])

/-- Inserts dimension d into a list sorted by `before`. -/
def insDim (before : Nat → Nat → Bool) (d : Nat) : List Nat → List Nat
  | [] => [d]
  | x :: xs => if before d x then d :: x :: xs else x :: insDim before d xs

def sortDims (before : Nat → Nat → Bool) (l : List Nat) : List Nat := l.foldr (insDim before) []

/-- The aliasing test (R404): the dimension at which it fails. -/
def aliasAt (t : Desc) : Option Nat :=
  let ds := t.strided.filter fun d => 1 < t.units d
  match ds.find? fun d => t.str d = 0 with
  | some d => some d
  | none =>
    let abs (d : Nat) : Nat := (t.str d).natAbs
    let sorted := sortDims (fun a b => abs a < abs b || (abs a = abs b && b < a)) ds
    (sorted.foldl (fun (r : Option Nat × Nat) d =>
      match r.1 with
      | some x => (some x, r.2)
      | none => if abs d < r.2 then (some d, r.2) else (none, r.2 + abs d * (t.units d - 1))) (none, t.unit)).1

/-- Whether two tensors share a layout (R402). -/
def sameLayout (a b : Desc) : Bool :=
  let both := (List.range 6).filter fun d =>
    1 < a.ext d && 1 < b.ext d && (a.str d ≠ 0 || a.dense d) && (b.str d ≠ 0 || b.dense d)
  let order (t : Desc) : List Nat :=
    let key (d : Nat) : Nat := if t.dense d then 0 else (t.str d).natAbs
    sortDims (fun x y => key y < key x || (key x = key y && x < y)) both
  a.blkE = b.blkE && a.blkRow = b.blkRow && a.g2 = b.g2 && a.g3 = b.g3 && order a = order b

/-! ### Elements -/

/-- Offset of an element of a blocked pair (R398). -/
def blkOff (t : Desc) (y x : Nat) : Int :=
  let e := etypeBytes t.etype
  let b1 := if t.blkE = 1 then 8 else 16
  let g2 := 2 ^ t.g2
  let g3 := 2 ^ t.g3
  let s := t.side
  let o : Int := (y / s : Nat) * t.str t.blkRow + (x / s : Nat) * t.str (t.blkRow + 1)
  let y := y % s
  let x := x % s
  o + ((y % b1) * b1 + x % b1) * e + ((y / b1 % g2) * g2 + x / b1 % g2) * b1 * b1 * e +
    ((y / (b1 * g2) % g3) * g3 + x / (b1 * g2) % g3) * b1 * b1 * g2 * g2 * e

/-- Byte address and bit of an element (R397). -/
def elemAddr (t : Desc) (i : List Nat) : Nat × Nat :=
  let a : Int := (List.range 6).foldl (fun a d =>
    if t.dense d || t.inPair d then a else a + (i.getD d 0 : Int) * t.str d) (t.base : Int)
  let a := if t.blocked then a + blkOff t (i.getD t.blkRow 0) (i.getD (t.blkRow + 1) 0) else a
  let n := i.getD 5 0 * etypeBits t.etype
  let a := if denseLast t.etype then a + (n / 8 : Nat) else a
  ((a % 2 ^ 64).toNat, if denseLast t.etype then n % 8 else 0)

/-- Logical index (R395). -/
def logical (ext i : List Nat) : Nat :=
  (List.range 6).foldl (fun a d => a * ext.getD d 1 + i.getD d 0) 0

/-- Address of the scale of an element's block (R394). -/
def scaleAddr (t : Desc) (i : List Nat) : Nat :=
  let e := t.extent.take 5 ++ [t.ext 5 / 32]
  let j := i.take 5 ++ [i.getD 5 0 / 32]
  (t.scaleBase + logical e j) % 2 ^ 64

/-- Every index of a box of six extents, in logical order. -/
def boxIdx : List Nat → List (List Nat)
  | [] => [[]]
  | n :: ns => (List.range n).flatMap fun i => (boxIdx ns).map (i :: ·)

def addIdx (a b : List Nat) : List Nat := List.zipWith (· + ·) a b

/-- Index from a logical index. -/
def unlogical (ext : List Nat) (n : Nat) : List Nat :=
  ((ext.take 6).foldr (fun e (a : Nat × List Nat) => (a.1 / e, a.1 % e :: a.2)) (n, [])).2

/-- Whole bytes that hold an element: its first byte and how many. -/
def elemSpan (t : Desc) (i : List Nat) : Nat × Nat :=
  let (a, b) := elemAddr t i
  (a, ceilDiv (b + etypeBits t.etype) 8)

end Sys2Proof.Machine
end

