-- ==== Sys2Proof/WellFormed.lean ====
section
/-!
DEFINITION. Which commands are well-formed: the field rules of Orony instructions (R204 to R227, Table 6.15), and the
ranges of the other commands' operands that the types leave open.
-/

namespace Sys2Proof

/-- Registers and other fields that an operation may use; a field it does not use must be 0 (R204). -/
structure FieldRule where
  d : Bool
  a : Bool
  b : Bool
  imm : Bool
  deriving DecidableEq, Repr

/-- The fields outside the rule are 0. -/
def FieldRule.holds (r : FieldRule) (x : Orony) : Bool :=
  (r.d || x.d = 0) && (r.a || x.a = 0) && (r.b || x.b = 0) && (r.imm || x.imm = 0)

/-- Whether the fields of an instruction of class `c` and operation `op` obey R205 to R227 and Table 6.15, as far as they
do not depend on the program around it. I replaces the operand named by B, so it is 0 where an operation has no such
operand and its table does not list IMM under I (R204). -/
def fieldsOk (c op : Nat) (x : Orony) : Bool :=
  let reg8 (r : Fin 32) : Bool := r.val < 8
  let only (d a b imm : Bool) : Bool := (FieldRule.mk d a b imm).holds x
  let plain : Bool := !x.i && x.w = 0
  let len : Bool := 64 ≤ x.imm.toNat && x.imm.toNat ≤ 1048576 && x.imm.toNat % 64 = 0
  if c = 0 then
    x.w = 0 && (if op < 0x14 then only true true (!x.i) x.i else op = 0x14 && x.i && only true false false true)
  else if c = 1 then
    plain && (if op = 0 then only false false false true
      else if op ≤ 6 then only false true true true
      else if op ≤ 8 then only false true false true && reg8 x.a
      else if op = 9 then only true false false true
      else op = 0x0A && only false true false false)
  else if c = 2 then
    if op ≤ 0x0F then only true true (!x.i) x.i && reg8 x.d && reg8 x.a && reg8 x.b
    else if op ≤ 0x12 then x.w = 0 && only true true (!x.i) x.i && reg8 x.d && x.d ≠ 0 && reg8 x.a && reg8 x.b
    else if op = 0x13 then plain && only true true true true && reg8 x.d && reg8 x.a && reg8 x.b && x.imm.toNat < 8
    else if op = 0x14 then only true (!x.i) false x.i && reg8 x.d
    else if op = 0x15 then plain && only true true false true && reg8 x.a && x.imm.toNat < 16
    else if op = 0x16 then plain && only true true false true && reg8 x.d && x.imm.toNat < 16
    else if op = 0x17 then plain && only true true false false && reg8 x.a
    else if op ≤ 0x1A then x.w = 0 && only true true (!x.i) x.i && reg8 x.d && reg8 x.a && reg8 x.b
    else op ≤ 0x1C && plain && only true true false false && reg8 x.d && reg8 x.a
  else if c = 3 then
    !x.i && (if op = 0 then x.w.val ≤ 1 && only true true false true
      else if op = 1 then x.w = 0 && only false true true true
      else if op = 2 then x.w.val ≤ 1 && only true true false true && reg8 x.d
      else if op = 3 then x.w = 0 && only false true true true && reg8 x.b
      else if op = 4 then x.w.val ≤ 1 && only true true true true && reg8 x.d && reg8 x.b
      else op = 5 && x.w = 0 && only true true true true && reg8 x.d && reg8 x.b)
  else if c = 4 then
    x.w = 0 && (if op = 0 then
        x.i && only true false false true && x.imm.toNat % 256 < 8 && x.imm.toNat < 65536 &&
        (x.imm.toNat / 256 ≤ 1 || x.imm.toNat % 256 = 7)
      else if op ≤ 2 then !x.i && only false true false false
      else if op ≤ 4 then x.i && only true true true true && x.a.val < 31 && len
      else if op = 5 then x.i && only true true true true && len
      else if op = 6 then x.i && only true true true true
      else op = 7 && only true (!x.i) false false)
  else if c = 5 then
    plain && (if op ≤ 4 then only true true false false
      else if op = 5 then only true true false false && x.d.val ≤ 28 && x.a.val ≤ 29
      else if op = 6 then only true true false false
      else op = 7 && only true true false false && reg8 x.d && x.a.val ≤ 29)
  else if c = 6 then op ≤ 4 && plain && only true true false false
  else if c = 7 then
    x.i && x.w = 0 && (if op = 0 then only true false false true && x.imm.toNat < 16
      else op = 1 && only false false false true && 1 ≤ x.imm.toNat && x.imm.toNat ≤ 3)
  else if c = 8 then
    plain && (if op ≤ 2 then only false false false false
      else if op = 3 then only false false false true && x.imm.toNat < 256
      else op = 4 && only true false false true && x.imm.toNat < 16)
  else if c = 9 then
    x.w = 0 && (if op = 0 then !x.i && only true true false false
      else if op = 1 then !x.i && only false true true false
      else if op ≤ 3 then x.i && only true true true true && x.a.val < 31 && len
      else op = 4 && !x.i && only false false false false)
  else false

/-- CLASS, OP and fields of an Orony command; none for the others. -/
def Instr.orony : Instr → Option (Nat × Nat × Orony)
  | .add x => some (0, 0x00, x) | .sub x => some (0, 0x01, x) | .and x => some (0, 0x02, x) | .or x => some (0, 0x03, x)
  | .xor x => some (0, 0x04, x) | .shl x => some (0, 0x05, x) | .shr x => some (0, 0x06, x) | .sra x => some (0, 0x07, x)
  | .mul x => some (0, 0x08, x) | .mulhu x => some (0, 0x09, x) | .mulhs x => some (0, 0x0A, x)
  | .divu x => some (0, 0x0B, x) | .remu x => some (0, 0x0C, x) | .min x => some (0, 0x0D, x) | .max x => some (0, 0x0E, x)
  | .minu x => some (0, 0x0F, x) | .maxu x => some (0, 0x10, x) | .slt x => some (0, 0x11, x) | .sltu x => some (0, 0x12, x)
  | .seq x => some (0, 0x13, x) | .movi x => some (0, 0x14, x)
  | .br x => some (1, 0x00, x) | .beq x => some (1, 0x01, x) | .bne x => some (1, 0x02, x) | .blt x => some (1, 0x03, x)
  | .bltu x => some (1, 0x04, x) | .bge x => some (1, 0x05, x) | .bgeu x => some (1, 0x06, x)
  | .pany x => some (1, 0x07, x) | .pall x => some (1, 0x08, x) | .call x => some (1, 0x09, x) | .jr x => some (1, 0x0A, x)
  | .vadd x => some (2, 0x00, x) | .vsub x => some (2, 0x01, x) | .vadds x => some (2, 0x02, x)
  | .vaddus x => some (2, 0x03, x) | .vmul x => some (2, 0x04, x) | .vmulhu x => some (2, 0x05, x)
  | .vmin x => some (2, 0x06, x) | .vmax x => some (2, 0x07, x) | .vminu x => some (2, 0x08, x)
  | .vmaxu x => some (2, 0x09, x) | .vand x => some (2, 0x0A, x) | .vor x => some (2, 0x0B, x)
  | .vxor x => some (2, 0x0C, x) | .vshl x => some (2, 0x0D, x) | .vshr x => some (2, 0x0E, x)
  | .vsra x => some (2, 0x0F, x) | .vceq x => some (2, 0x10, x) | .vclt x => some (2, 0x11, x)
  | .vcltu x => some (2, 0x12, x) | .vsel x => some (2, 0x13, x) | .vbc x => some (2, 0x14, x)
  | .vext x => some (2, 0x15, x) | .vins x => some (2, 0x16, x) | .vrsum x => some (2, 0x17, x)
  | .vfadd x => some (2, 0x18, x) | .vfmul x => some (2, 0x19, x) | .vfma x => some (2, 0x1A, x)
  | .vcvtif x => some (2, 0x1B, x) | .vcvtfi x => some (2, 0x1C, x)
  | .lds x => some (3, 0x00, x) | .sts x => some (3, 0x01, x) | .ldv x => some (3, 0x02, x) | .stv x => some (3, 0x03, x)
  | .ldvg x => some (3, 0x04, x) | .stvx x => some (3, 0x05, x)
  | .balloc x => some (4, 0x00, x) | .bref x => some (4, 0x01, x) | .bfree x => some (4, 0x02, x)
  | .drd x => some (4, 0x03, x) | .dwr x => some (4, 0x04, x) | .dout x => some (4, 0x05, x) | .didx x => some (4, 0x06, x)
  | .dwait x => some (4, 0x07, x)
  | .ctxOpen x => some (5, 0x00, x) | .decodeAu x => some (5, 0x00, x) | .flush x => some (5, 0x00, x)
  | .ctxClose x => some (5, 0x00, x) | .rp x => some (5, 0x01, x)
  | .resample x => some (5, 0x02, x) | .warp x => some (5, 0x02, x) | .colour x => some (5, 0x02, x)
  | .blur x => some (5, 0x02, x) | .blend x => some (5, 0x02, x)
  | .layer x => some (5, 0x03, x) | .select x => some (5, 0x03, x) | .tokenise x => some (5, 0x04, x)
  | .cbg x => some (5, 0x05, x) | .uwait x => some (5, 0x06, x) | .vcbg x => some (5, 0x07, x)
  | .lmma x => some (6, 0x00, x) | .lact x => some (6, 0x01, x) | .lcvt x => some (6, 0x02, x) | .lred x => some (6, 0x03, x)
  | .lwait x => some (6, 0x04, x)
  | .bwait x => some (7, 0x00, x) | .bpub x => some (7, 0x01, x)
  | .oronyNop x => some (8, 0x00, x) | .yield x => some (8, 0x01, x) | .endThread x => some (8, 0x02, x)
  | .trap x => some (8, 0x03, x) | .rdsr x => some (8, 0x04, x)
  | .regrd x => some (9, 0x00, x) | .regwr x => some (9, 0x01, x) | .hmrd x => some (9, 0x02, x)
  | .hmwr x => some (9, 0x03, x) | .kick x => some (9, 0x04, x)
  | _ => none

/-- Bytes of a function's BAR: BAR0 of PF0 32 MiB and of a VF 512 KiB, BAR2 256 KiB (R81). -/
def barSize (fn : Nat) (bar2 : Bool) : Nat := if bar2 then 262144 else if fn = 0 then 33554432 else 524288

/-- Whether an offset is an aligned word of a function's BAR0 (R81, R86). -/
def wordOfBar (fn : Fin 16) (off : Nat) : Bool := off < barSize fn false && off % 4 = 0

/-- Well-formed commands: an Orony instruction obeys its field rules; the addresses of register writes are aligned words
of the function's BAR0, and an access that addresses no register lies inside its BAR (R81); the others are well-formed by
their types. -/
def Instr.wf (i : Instr) : Bool :=
  match i.orony with
  | some (c, op, x) => fieldsOk c op x
  | none =>
    match i with
    | .registerWrite fn _ off _ => wordOfBar fn off
    | .writeOneToClear fn _ off _ => wordOfBar fn off
    | .bitAliasWrite fn _ off _ => wordOfBar fn off
    | .highHalfWrite fn _ off _ => wordOfBar fn off
    | .lowHalfWrite fn _ off _ => wordOfBar fn off
    | .unsupportedRequest fn _ a => a.off < barSize fn a.bar2
    | _ => true

end Sys2Proof
end

