-- ==== Sys2Proof/Machine/Params.lean ====
section
/-!
DEFINITION. What makes a recipe image out of range: the template parameter blocks (chapters 9, 11, 12, 14) and the
bounds checks of recipe programs (Table 6.15).
-/

namespace Sys2Proof.Machine

/-- Offsets, in a parameter block, of the fields that break their rule. -/
abbrev Bad := List Nat

def badIf (c : Bool) (o : Nat) : Bad := if c then [o] else []
def finite32 (l : List Byte) (o : Nat) : Bool := match fpOf fp32 (leAt l o 4) with | .fin _ _ _ => true | _ => false
def f32At (l : List Byte) (o : Nat) : Word := BitVec.ofNat 32 (leAt l o 4)
def f32le (x y : Word) : Bool := f32lt x y || decide (ofFp32 x = ofFp32 y) || (!f32lt y x && (ofFp32 x ≠ .nan) && (ofFp32 y ≠ .nan))

/-- Whether a code names a coded format of Table 9.1. -/
def formatOk (c : Nat) : Bool := 1 ≤ c && c ≤ 7

/-- DECODE (Table 9.6). -/
def decodeBad (l : List Byte) : Bad :=
  badIf (!formatOk (leAt l 0 1)) 0 ++ badIf (leAt l 1 1 ≠ 0 && !formatOk (leAt l 1 1)) 1 ++ badIf (3 < leAt l 2 1) 2 ++
  badIf (bits (leAt l 3 1) 2 1 = 3 || 5 < bits (leAt l 3 1) 7 5) 3 ++ badIf (1 < leAt l 5 1) 5 ++
  badIf (1048576 < leAt l 8 4) 8 ++ badIf (!zeroBytes l 20 32) 20

/-- The depths that a raw packing holds (Table 9.8). -/
def rawDepthOk (pack d : Nat) : Bool :=
  if pack ≤ 3 then d = 10 else if pack = 4 then d = 12 else if pack = 5 ∨ pack = 7 then d = 8 else 9 ≤ d && d ≤ 16

/-- RAW_UNPACK (Table 9.7). -/
def rawBad (l : List Byte) : Bad :=
  let p := leAt l 0 1
  badIf (p = 0 || 9 < p) 0 ++ badIf (bits (leAt l 1 1) 2 0 = 0 || 4 < bits (leAt l 1 1) 2 0) 1 ++
  badIf (63 < leAt l 2 1 || !rawDepthOk p (bits (leAt l 2 1) 4 0)) 2 ++ badIf (1 < leAt l 3 1) 3 ++
  badIf (leAt l 4 2 = 0 || 16384 < leAt l 4 2) 4 ++ badIf (leAt l 6 2 = 0 || 16384 < leAt l 6 2) 6 ++
  badIf (1048576 < leAt l 16 4) 16 ++ badIf (1 < leAt l 20 1) 20 ++ badIf (!zeroBytes l 21 22) 21 ++ badIf (!zeroBytes l 24 32) 24

/-- ODEPTH and O16 in one byte (Table 11.1 byte 2). -/
def odepthBad (x : Nat) : Bool := 63 < x || (x % 32 ≠ 0 && (x % 32 < 8 || 16 < x % 32))

/-- GEOMETRY (Table 11.7, R379). -/
def geometryBad (l : List Byte) : Bad :=
  let m := bits (leAt l 0 1) 1 0
  let warp := bitN (leAt l 0 1) 6
  let filter := bits (leAt l 0 1) 3 2
  let one : Word := 0x3F800000
  badIf (bitN (leAt l 0 1) 7 || (warp && (filter = 0 || filter = 3))) 0 ++ badIf (3 < leAt l 1 1) 1 ++
  badIf (odepthBad (leAt l 2 1)) 2 ++ badIf (leAt l 3 1 ≠ 0) 3 ++
  badIf (leAt l 4 2 = 0 || 16384 < leAt l 4 2) 4 ++ badIf (leAt l 6 2 = 0 || 16384 < leAt l 6 2) 6 ++
  badIf ((m = 1 || m = 2) && (leAt l 12 2 = 0 || 16384 < leAt l 12 2)) 12 ++
  badIf ((m = 1 || m = 2) && (leAt l 14 2 = 0 || 16384 < leAt l 14 2)) 14 ++
  badIf (!finite32 l 16 || !f32lt 0 (f32At l 16) || f32lt (f32At l 20) (f32At l 16)) 16 ++
  badIf (!finite32 l 20 || f32lt one (f32At l 20)) 20 ++
  badIf (!finite32 l 24 || f32lt (f32At l 28) (f32At l 24)) 24 ++ badIf (!finite32 l 28) 28 ++
  badIf (!zeroBytes l 38 40) 38 ++ badIf (!finite32 l 40 || f32lt one (f32At l 40)) 40 ++
  badIf (!finite32 l 44 || !f32lt (f32At l 44) one) 44 ++ badIf (!finite32 l 48 || f32lt 0x3F000000 (f32At l 48)) 48 ++
  badIf (!zeroBytes l 52 64) 52

/-- COLOUR (R383, Table 11.4). -/
def colourBad (l : List Byte) : Bad :=
  let a := leAt l 0 1
  let b := leAt l 1 1
  badIf (a % 4 = 3 || bits a 5 4 = 3 || bitN a 7) 0 ++
  badIf (3 < bits b 2 0 || 3 < bits b 5 3 || bitN b 6 || bitN b 7) 1 ++ badIf (odepthBad (leAt l 2 1)) 2 ++
  badIf (3 < leAt l 3 1) 3 ++ badIf (!zeroBytes l 4 16) 4

/-- AUGMENT (Table 11.8). -/
def augmentBad (l : List Byte) : Bad :=
  let lo : Word := 0x3DCCCCCD
  let hi : Word := 0x41800000
  badIf (31 < leAt l 0 1) 0 ++ badIf (3 < leAt l 1 1) 1 ++ badIf (15 < leAt l 2 1) 2 ++
  badIf (7 < leAt l 3 1 || leAt l 3 1 % 4 = 3) 3 ++ badIf (!zeroBytes l 10 12) 10 ++
  ([12, 16, 20].flatMap fun o => badIf (!finite32 l o) o) ++
  badIf (!finite32 l 24 || f32lt (f32At l 24) 0 || f32lt 0x3F800000 (f32At l 24)) 24 ++
  badIf (!finite32 l 28 || f32lt (f32At l 28) lo || f32lt (f32At l 32) (f32At l 28)) 28 ++
  badIf (!finite32 l 32 || f32lt hi (f32At l 32)) 32 ++
  badIf (!finite32 l 36 || f32lt (f32At l 36) 0 || f32lt 0x3F800000 (f32At l 36)) 36 ++
  badIf (leAt l 40 1 = 0 || 32 < leAt l 40 1) 40 ++ badIf (leAt l 41 1 ≠ 0) 41 ++ badIf (!zeroBytes l 46 48) 46

/-- TEMPORAL (R388). -/
def temporalBad (l : List Byte) (hasModel : Bool) : Bad :=
  let m := leAt l 0 1 % 4
  badIf (7 < leAt l 0 1 || m = 3 || (m = 2 && !hasModel)) 0 ++ badIf (15 < leAt l 1 1) 1 ++
  badIf (leAt l 2 2 = 0 || 1024 < leAt l 2 2) 2 ++ badIf (leAt l 4 2 = 0 || 1024 < leAt l 4 2) 4 ++
  badIf (leAt l 6 2 = 0 || 1024 < leAt l 6 2) 6 ++ badIf (!zeroBytes l 8 16) 8

/-- PATCHIFY (Table 14.7, R481); `proj` is the stage's first model's layer 0 (K, FMT_B) when it names a model. -/
def patchifyBad (l : List Byte) (hasModel : Bool) (layer0 : Option (Nat × Nat)) : Bad :=
  let p := bits (leAt l 0 1) 5 0
  let t := bits (leAt l 1 1) 3 0
  let planes := bits (leAt l 2 1) 7 4
  let c := ((List.range 4).filter (bitN planes)).length
  let proj := bitN (leAt l 1 1) 7
  badIf (63 < leAt l 0 1 || p = 0 || 32 < p) 0 ++
  badIf (t = 0 || 8 < t || (proj && (!hasModel || (match layer0 with
    | some (k, f) => k ≠ p * p * t * c || f ∈ [1, 2, 8, 9] | none => false)))) 1 ++
  badIf (bits (leAt l 2 1) 3 1 ≠ 0 || planes = 0) 2 ++ badIf (!etypeOk (leAt l 3 1)) 3 ++
  badIf (leAt l 4 1 % 4 = 3 || 15 < leAt l 4 1) 4 ++ badIf (leAt l 5 1 ≠ 0) 5 ++
  badIf (65536 < leAt l 8 4) 8 ++ badIf (!zeroBytes l 12 16) 12

/-- TOKENISE (Table 14.10). -/
def tokeniseBad (l : List Byte) : Bad :=
  badIf (15 < leAt l 0 1) 0 ++ badIf (!zeroBytes l 1 4) 1 ++
  badIf (leAt l 4 4 < leAt l 0 1 % 2 + leAt l 0 1 / 2 % 2 + 1 || 65538 < leAt l 4 4) 4 ++ badIf (!zeroBytes l 10 16) 10

/-- Where the stages above a PACK stage fix its parent's planes, whether plane k is smaller than the window: a RAW_UNPACK's by
its parameter block, none of a COLOUR's; the other templates over pictures keep them, and a DECODE's are its data's. -/
def knownPlanes (stages : List Stage) : Nat → Nat → Option (Nat → Bool)
  | 0, _ => none
  | n + 1, g => (stages[g]?).bind fun st =>
    let l := st.params
    if st.template = 4 then some fun _ => false
    else if st.template = 2 then
      let c := bits (leAt l 1 1) 4 3
      some fun k => (leAt l 0 1 = 7 || leAt l 0 1 = 8) && (c = 1 || c = 2) && !bitN (leAt l 1 1) 5 && (k = 1 || k = 2)
    else if st.template = 3 ∨ st.template = 5 ∨ st.template = 6 then knownPlanes stages n st.parent
    else none

/-- Whether the planes that a PACK move selects are of unlike size (R427). -/
def planesDiffer (planes : Option (Nat → Bool)) (sel : Nat) : Bool :=
  let l := (List.range 4).filter fun k => bitN sel (4 + k)
  planes.any fun f => (l.any f) && l.any fun k => !f k

/-- PACK (R426, R427): `outs` are the stage's output descriptors, `parent` its parent's, `planes` what is known of its parent's
planes. -/
def packBad (l : List Byte) (outs parent : List Desc) (planes : Option (Nat → Bool)) : Bad :=
  let n := leAt l 0 1
  badIf (n = 0 || 8 < n) 0 ++ badIf (!zeroBytes l 1 8) 1 ++
  ((List.range n).flatMap fun m =>
    let o := 8 + 16 * m
    let kind := leAt l o 1
    let sel := leAt l (o + 1) 1
    let dst := outs[leAt l (o + 2) 1]?
    badIf (1 < kind) o ++
    badIf (if kind = 0 then bits sel 3 1 ≠ 0 || sel / 16 = 0 || planesDiffer planes sel else 7 < sel || !(parent[sel]?).any fun d => d.space = 2) (o + 1) ++
    badIf (match dst with
      | none => true
      | some d =>
        if kind = 0 then
          d.ext 0 ≠ 1 || d.ext 5 ≠ 1 || d.blocked ||
          !((d.str 2).natAbs ≤ (d.str 1).natAbs && (d.str 3).natAbs ≤ (d.str 2).natAbs && (d.str 4).natAbs ≤ (d.str 3).natAbs)
        else match parent[sel]? with
          | some a => !sameLayout a d || a.extent ≠ d.extent
          | none => false) (o + 2) ++
    badIf (leAt l (o + 3) 1 % 4 = 3 || 15 < leAt l (o + 3) 1) (o + 3) ++ badIf (!zeroBytes l (o + 8) (o + 16)) (o + 8))

/-- Length of a template's parameter block; none where its own rules set it. -/
def paramLen (t : Nat) : Option Nat :=
  if t = 1 ∨ t = 2 then some 32 else if t = 3 then some 64 else if t = 5 then some 48
  else if t = 4 ∨ t = 6 ∨ t = 8 ∨ t = 9 then some 16 else none

/-- Whether a template's parameter block may have this length: PACK's by its MOVES, given with it (R158, R426). -/
def paramLenOk (t n moves : Nat) : Bool :=
  match paramLen t with
  | some k => n = k
  | none => t ≠ 0x0A || n = 8 + 16 * moves

/-- Offsets of the bad fields of a stage's parameter block; a wrong length is the length field's own fault. -/
def paramBad (t : Nat) (l : List Byte) (outs parent : List Desc) (hasModel : Bool) (layer0 : Option (Nat × Nat))
    (planes : Option (Nat → Bool)) : Bad :=
  if !paramLenOk t l.length (leAt l 0 1) then []
  else if t = 1 then decodeBad l else if t = 2 then rawBad l else if t = 3 then geometryBad l
  else if t = 4 then colourBad l else if t = 5 then augmentBad l else if t = 6 then temporalBad l hasModel
  else if t = 8 then patchifyBad l hasModel layer0 else if t = 9 then tokeniseBad l
  else if t = 0x0A then packBad l outs parent planes
  else []

/-! ### Recipe programs (Table 6.15, R229) -/

/-- CLASS, OP and fields of an instruction word (Table 6.2); the thread is not part of it. -/
def splitWord (w : Nat) : Nat × Nat × Orony :=
  (bits w 63 60, bits w 59 54,
   { th := .tile 0 0, pred := Fin.ofNat 8 (bits w 53 51), pneg := bitN w 50, d := Fin.ofNat 32 (bits w 49 45),
     a := Fin.ofNat 32 (bits w 44 40), b := Fin.ofNat 32 (bits w 39 35), w := Fin.ofNat 4 (bits w 34 33), i := bitN w 32,
     imm := BitVec.ofNat 32 w })

/-- Ancestors of stage g, by its parents. -/
def ancestors (parents : List Nat) : Nat → Nat → List Nat
  | 0, _ => []
  | n + 1, g => let p := parents.getD g 0xFF; if p < g then p :: ancestors parents n p else []

/-- Whether an instruction word at offset o of a program of n bytes breaks a condition. -/
def wordBad (w o n : Nat) (anc : List Nat) (hasModel hasDict free : Bool) : Bool :=
  let (c, op, x) := splitWord w
  let target : Int := (o : Int) + 8 * x.imm.toInt
  8 < c || !fieldsOk c op x ||
  (c = 1 && op ≤ 9 && (target < 0 || (n : Int) ≤ target)) ||
  (c = 7 && op = 0 && !anc.contains x.imm.toNat) ||
  (c = 5 && op = 3 && !hasModel) || (c = 5 && op = 4 && !hasDict) ||
  (c = 8 && op = 4 && !free && (x.imm.toNat ≤ 3 || x.imm.toNat = 0x0D))

/-- The instruction words of a program. -/
def progWords (l : List Byte) : List Nat := (List.range (l.length / 8)).map fun i => leAt l (8 * i) 8

/-- The offset of the first bad word, or `some none` for a program bad as a whole (R229, Table 6.15). A last word that is none
of END, BR and JR makes the program bad as a whole, and Length and Tile store are tested before the words: R229 says
neither (DESIGN CHOICE, log entry 65). -/
def progBad (l : List Byte) (anc : List Nat) (hasModel hasDict free : Bool) (ts plen : Nat) : Option (Option Nat) :=
  if l.length % 8 ≠ 0 || l.length < 8 || 65536 < l.length || ts < plen then some none
  else
    match (progWords l).zipIdx.find? fun x => wordBad x.1 (8 * x.2) l.length anc hasModel hasDict free with
    | some x => some (some (8 * x.2))
    | none =>
      let (c, op, _) := splitWord (leAt l (l.length - 8) 8)
      if (c = 8 && op = 2) || (c = 1 && (op = 0 || op = 0x0A)) then none else some none

/-- Whether a program reads a special register of R228. -/
def readsVolatile (l : List Byte) : Bool :=
  (progWords l).any fun w => let (c, op, x) := splitWord w; c = 8 && op = 4 && (x.imm.toNat ≤ 3 || x.imm.toNat = 0x0D)

end Sys2Proof.Machine
end

