-- ==== Sys2Proof/Machine/Regs.lean ====
section
/-!
DEFINITION. Reads and writes of registers: what a read returns, which address names which register, when a write is
rejected or held by the lock, and what it sets going (chapters 3, 4, 15 to 19).
-/

namespace Sys2Proof.Machine

/-! ### What a register read returns -/

def dieAt (s : State) (d : Nat) : Die := s.dies.getD d Die.reset
/-- Whether every lane of a tile works. -/
def lanes16 (s : State) (t : Nat) : Bool := (dieAt s (t / 24)).full.getLsbD (t % 24)
def setDie (s : State) (d : Nat) (f : Die → Die) : State := { s with dies := modAt s.dies d f }

def mibUp (n : Nat) : Nat := ceilDiv n (2 ^ 20)

/-- A sum of powers of two over the indices below n that satisfy p. -/
def maskOf (n : Nat) (p : Nat → Bool) : Nat := ((List.range n).filter p).foldl (fun a i => a + 2 ^ i) 0

/-- Bytes of recipe programs and model part programs resident (R159, R201, R463). -/
def istoreUsed (s : State) : Nat :=
  (s.recipes.map (·.progBytes)).foldl (· + ·) 0 +
  (s.models.map fun m => (m.progs.map List.length).foldl (· + ·) 0).foldl (· + ·) 0

/-- A field of the running firmware image; 0 before FW_RUN. -/
def imageField (s : State) (o n : Nat) : Nat := if s.boot.fwRun then leAt s.boot.image o n else 0

def queueStatus (s : State) (q w : Nat) : Nat :=
  let run := alive s && s.boot.ready && qEnable s q && !(queue s q).sqStop && !(queue s q).drStop &&
    !(part s (owner s q)).resetting
  let held := qEnable s q && !cqFree s (cqSel s q)
  let empty := match epochOf s q with
    | some e => drCount s q = 0 && !e.entries.any (·.batch = e.open_) && (batchComplete s e || e.slots.any fun x => x.pos.isSome)
    | none => false
  w / 2 % 4 * 2 + (if run then 1 else 0) + (if held then 8 else 0) + (if empty then 16 else 0)

/-- Whether a due batch of an epoch is incomplete: the open one, or a later one, whose slots are empty yet (R508). -/
def dueWait (s : State) (e : Epoch) : Bool :=
  (batchDue e && !batchComplete s e) ||
    (batchDue { e with open_ := e.open_ + 1 } && (e.open_ + 1 < memberBatches e || unresolved e))

def pavStatus (s : State) (p w : Nat) : Nat :=
  let es := s.epochs.filter fun e => e.part = p
  w / 16 % 2 * 16 + (if stragglers s p = 64 then 8 else 0) + (if es.any (·.graceRun) then 4 else 0) +
  (if es.any (dueWait s) then 2 else 0) + (if es.isEmpty then 0 else 1)

def partReg (s : State) (p o w : Nat) : Nat :=
  if o = 0x004 then w / 8 % 2 * 8 + (if (part s p).resetting then 4 else 0) + (if (part s p).onSecondary then 2 else 0) +
    (if partActive s p then 1 else 0)
  else if p = 0 ∧ (o = 0x010 ∨ o = 0x014) then
    maskOf 32 fun i => owner s ((if o = 0x010 then 0 else 32) + i) = 0
  else w

def bootReg (s : State) (o w : Nat) : Nat :=
  if o = 0x110 then 0
  else if o = 0x114 then
    s.boot.fmnErrB * 2 ^ 28 + s.boot.fmnErrA * 2 ^ 24 + s.boot.fwErr * 2 ^ 16 + (if s.boot.quiesced then 128 else 0) +
    (if s.boot.fromB then 32 else 0) + (if s.boot.applied then 16 else 0) + (if s.boot.restoreRun then 8 else 0) +
    (if s.boot.fwBusy then 4 else 0) + (if s.boot.memDone then 2 else 0) + (if s.boot.hpDone then 1 else 0)
  else if o = 0x118 then s.boot.seq
  else if o = 0x11C then s.boot.seq / 2 ^ 32
  else if o = 0x130 then imageField s 8 4
  else w

/-- Tile paces of the tiles in service. -/
def paces (s : State) : List (Nat × Nat) := (tilesUp s).map fun t => (fld s (tileBase t + 0x1000) 15 0, t)

/-- Lowest pace of the tiles in service and its tile, the lowest-numbered on a tie (Table 18.11). -/
def paceMin (s : State) : Nat × Nat :=
  match paces s with
  | [] => (0, 0)
  | x :: l => l.foldl (fun a b => if b.1 < a.1 then b else a) x

def paceMean (s : State) : Nat :=
  let l := paces s
  if l.isEmpty then 0 else (l.map (·.1)).foldl (· + ·) 0 / l.length

def poolReg (s : State) (o w : Nat) : Nat :=
  if o = 0x4004 then (if s.keyDerived then 4 else 0) + (if s.scrubRun then 2 else 0) + fld s 0x4000 0 0
  else if o = 0x402C then s.spills.length
  else if 0x4100 ≤ o then
    let p := (o - 0x4100) / 16
    mibUp (if o % 16 = 0 then bytesHeld s p Owner.isPool + copyCharge s p else if o % 16 = 4 then poolReserved s p
      else if o % 16 = 8 then cacheCharge s p else spillCharge s p)
  else w

def pguReg (s : State) (o w : Nat) : Nat :=
  if o = 0x5008 then
    w / 2 ^ 16 * 2 ^ 16 + (if s.dies.any (0 < ·.gate) then 8 else 0) + (if s.dies.any (0 < ·.thermSteps) then 4 else 0) +
    (if s.dies.any (0 < ·.envSteps) then 2 else 0) + (if (diesUp s).all fun d => !(dieAt s d).fixed then 1 else 0)
  else if o = 0x5018 then s.energy / 10 ^ 15
  else if o = 0x501C then s.energy / 10 ^ 15 / 2 ^ 32
  else w

/-- Source links up: a drive's link that has trained (R55). -/
def linkUp (s : State) (sp link : Nat) : Bool := s.drives.any fun d => d.sp = sp && d.link = link

/-- Registers of a die block that show its state. DESIGN CHOICE (log entry 68): DIE_MMN_PC reads 0 while the management Minuet
has no thread 0 (R237), and TMR_DWDOG keeps its reset value while no watchdog runs, or 0 once it has expired (R617). -/
def dieReg (s : State) (d o w : Nat) : Nat :=
  let x := dieAt s d
  if o = 0x000 then leAt x.lot 0 4
  else if o = 0x004 then leAt x.lot 4 2
  else if o = 0x008 then x.wafer.toNat * 2 ^ 16 + x.y.toNat * 2 ^ 8 + x.x.toNat
  else if o = 0x00C then 0x4200 + d * 2 ^ 16
  else if o = 0x010 then x.serial.toNat
  else if o = 0x014 then x.serial.toNat / 2 ^ 32
  else if o = 0x018 then x.full.toNat
  else if o = 0x01C then if x.fuseOk then 1 else 0
  else if o = 0x1004 then
    x.mv % 1024 * 2 ^ 20 + x.gate % 16 * 2 ^ 16 + (if 0 < x.thermSteps then 2 ^ 15 else 0) +
    (if 0 < x.envSteps then 2 ^ 14 else 0) + (if x.fixed then 2 ^ 13 else 0) + (x.tj % 256).toNat
  else if o = 0x1008 then x.dw
  else if o = 0x100C then if x.fixed then 0 else x.da
  else if o = 0x2000 then x.us
  else if o = 0x2004 then x.us / 2 ^ 32
  else if o = 0x2008 then if x.mmRun then 2000 - (x.us - x.kickUs) / 1000 else if x.wdogExp then 0 else 2000
  else if o = 0x3008 then maskOf 24 fun i => !tileLost s (24 * d + i)
  else if o = 0x300C then
    let e := (List.range 4).filter fun e => (edgeEnds e).1 = d || (edgeEnds e).2 = d
    maskOf 6 (fun i => !clusterLost s (6 * d + i)) * 2 ^ 16 +
    ((if edgeUp s (e.getD 0 0) then 2 ^ 12 else 0) + (if edgeUp s (e.getD 1 0) then 2 ^ 13 else 0)) +
    maskOf 2 (fun i => !duLost s (2 * d + i)) * 2 ^ 8 + maskOf 2 (fun i => s.hpUp.getLsbD (2 * d + i)) * 2 ^ 4 +
    maskOf 4 (linkUp s d)
  else if o = 0x4000 then
    maskOf 4 (fun i => mpServes s (4 * d + i)) + (if (List.range 4).all fun i => mpLost s (4 * d + i) then 16 else 0)
  else if o = 0x4004 then superCount s d - (s.superblocks.filter fun b => b.die = d).length
  else if o = 0x4008 then (s.superblocks.filter fun b => b.die = d && b.retired).length
  else if 0x4020 ≤ o ∧ o < 0x4060 then
    let k := (o - 0x4020) / 8
    if o % 8 = 0 then (s.superblocks.filter fun b => b.die = d && b.cls = k && !b.retired).length else classFree s d k
  else if o = 0x5000 ∨ o = 0x5100 then
    let u := 2 * d + (if o = 0x5100 then 1 else 0)
    w / 2 ^ 16 * 2 ^ 16 + (if duBusy s u then 2 else 0) + (if duLost s u then 0 else 1)
  else if o = 0x6000 then (if x.wdogExp then 4 else 0) + (if x.mmHalted then 2 else 0) + (if x.mmRun then 1 else 0)
  else if o = 0x6004 then imageField s 8 4
  else if o = 0x6008 then
    match s.threads.find? fun t => (match t.th with | .mgmt e n => e.val = d && n.val = 0 | _ => false) with
    | some t => t.pc / 8 % 65536
    | none => 0
  else if o = 0x600C then x.hb.toNat
  else if o = 0x6010 then imageField s 12 2
  else w

/-- Registers of a tile that show its state (Table 6.18). DESIGN CHOICE (log entry 68): TILE_ISTORE_USED counts the loaded
programs on a tile out of service too. -/
def tileReg (s : State) (t o w : Nat) : Nat :=
  if o = 0x004 then
    (s.threads.filter fun x => thTile x.th = some t).length * 2 ^ 8 +
    (if (dieAt s (t / 24)).full.getLsbD (t % 24) then 2 else 0) + (if tileLost s t then 0 else 1)
  else if o = 0x008 then istoreUsed s
  else if o = 0x00C then imageField s 32 4
  else if o = 0x028 then
    match s.threads.find? fun x => thTile x.th = some t && thNum x.th = fld s (tileBase t + 0x24) 4 0 with
    | some x => x.part * 2 ^ 28 + x.stage * 2 ^ 24 + x.pc / 8 % 2 ^ 15 * 2 ^ 4 + x.state
    | none => 0
  else if o = 0x1058 then fld s (tileBase t + 0x14) 31 0
  else w

/-- What a read of the register at offset o of PF0's BAR0 returns; none where no register stands (R87). Registers of a
lost die read 0 (R90). -/
def readReg (s : State) (o : Nat) : Option Word :=
  match regFields o with
  | none => none
  | some fs =>
    if (match dieOf o with | some d => dieLost s d | none => false) then some 0
    else
      let w := (reg s o).toNat
      let x :=
        if o = 0x08 then
          memGib s * 2 ^ 22 + (tilesUp s).length * 2 ^ 15 + 64 * 2 ^ 8 + maskOf 4 (fun d => !dieLost s d) * 2 ^ 4
        else if o = 0x0C then blkStatus s
        else if o = 0x24 then (dieAt s 0).serial.toNat
        else if o = 0x28 then (dieAt s 0).serial.toNat / 2 ^ 32
        else if o < 0x100 then w
        else if o < 0x1000 then bootReg s o w
        else if o < 0x2000 then w
        else if o = 0x2018 then s.us
        else if o = 0x201C then s.us / 2 ^ 32
        else if o < 0x3000 then w
        else if o < 0x3400 then
          if o % 0x40 = 4 then pavStatus s ((o - 0x3000) / 0x40) w
          else if o % 0x40 = 0x28 then stragglers s ((o - 0x3000) / 0x40) else w
        else if o < 0x4000 then w
        else if o < 0x5000 then poolReg s o w
        else if o < 0x6000 then pguReg s o w
        else if o = 0x61A0 then (paceMin s).2 * 2 ^ 16 + (paceMin s).1
        else if o = 0x61A4 then paceMean s
        else if o < 0x40000 then w
        else if o < 0x50000 then partReg s ((o - 0x40000) / 0x1000) (o % 0x1000) w
        else if o < 0x90000 then
          if o % 0x1000 = 4 then queueStatus s ((o - 0x50000) / 0x1000) w else w
        else if o % 0x100000 < 0x80000 then dieReg s ((o - 0x100000) / 0x100000) (o % 0x100000) w
        else
          tileReg s ((o - 0x100000) / 0x100000 * 24 + (o % 0x100000 - 0x80000) / 0x2000) (o % 0x2000) w
      -- WO bits read 0
      some (BitVec.ofNat 32 x &&& ~~~(fldMask fs (·.acc = .wo)))

/-! ### Which register an address names (R82 to R85, R97) -/

/-- What an access addresses. -/
inductive Target where
  /-- the register at an offset of PF0's BAR0 -/
  | word (o : Nat)
  /-- one bit of it, through its alias -/
  | alias_ (o b : Nat)
  /-- a register that this function may only read -/
  | view (o : Nat)
  | none
  deriving DecidableEq, Repr

/-- Whether an enabled partition other than 0 owns queue q: PF0 then only reads its set-up (R577, R592, Table 17.1; DEDUCED, log
entry 69). -/
def ownedByVf (s : State) (q : Nat) : Bool := owner s q ≠ 0 && partEn s (owner s q)

/-- The address off of function fn's BAR0. A reserved offset inside the block of a lost die addresses no register, as in any
other block: R90 is taken to speak of the registers that stand there (DESIGN CHOICE, log entry 50). -/
def resolve (s : State) (fn off : Nat) : Target :=
  if fn = 0 then
    if (regFields off).isSome then
      if 0x50000 ≤ off ∧ off < 0x90000 ∧ ownedByVf s ((off - 0x50000) / 0x1000) then .view off else .word off
    else if 0x800000 ≤ off ∧ off < 0x1000000 ∧ off % 4 = 0 ∧ (regFields ((off - 0x800000) / 128 * 4)).isSome then
      .alias_ ((off - 0x800000) / 128 * 4) ((off - 0x800000) / 4 % 32)
    else .none
  else if off ∈ [0x0, 0x4, 0x8, 0xC, 0x24, 0x28] then .view off
  else if 0x1000 ≤ off ∧ off < 0x2000 ∧ (regFields (partBase fn + (off - 0x1000))).isSome then
    .view (partBase fn + (off - 0x1000))
  else if 0x40000 ≤ off ∧ off < 0x80000 ∧ owner s ((off - 0x40000) / 0x1000) = fn ∧ (regFields (off + 0x10000)).isSome then
    .word (off + 0x10000)
  else .none

/-! ### Rejected writes (R103, R108, R116 and the chapters' own rules) -/

/-- Whether a fault-force target lies in its range (Table 18.4). -/
def targetOk (i v : Nat) : Bool :=
  if i ≤ 1 then v < 16 else if i = 2 then v < 8 else if i = 3 then v < 16 else if i = 4 then v < 96
  else if i = 5 then v < 96 || v ∈ [0x81, 0x82, 0x83] else if i = 6 then v = 0 else v < 4

/-- Sources that name a partition (Table 18.2). -/
def namesPart (c : Nat) : Bool := c ∈ [0x02, 0x06, 0x08, 0x1A, 0x1B]

/-- Sources whose unit is the block or a source link. -/
def unitNever (c : Nat) : Bool := c ∈ [0x09, 0x0A, 0x12, 0x19, 0x1C]

/-- R600. -/
def reactBad (c new : Nat) : Bool :=
  let cls := bits new 2 0
  let n := bits new 15 8
  let esc := bits new 18 16
  cls < fltFloor c || 5 ≤ cls || (n ≠ 0 && (esc < fltFloor c || 5 ≤ esc || esc ≤ cls)) ||
  (!namesPart c && (cls = 2 || (n ≠ 0 && esc = 2))) || (unitNever c && (cls = 3 || (n ≠ 0 && esc = 3)))

/-- The unit that a revival of (k, i) returns: the smallest lost unit that contains it (R622). -/
def reviveUnit (s : State) (k i : Nat) : Nat × Nat :=
  let d := if k = 1 then i / 24 else if k = 2 then i / 6 else if k = 3 then i else if k = 4 then i / 4
    else if k = 5 then i / 2 else i / 2
  if k ≠ 7 ∧ dieLost s d then (3, d)
  else if k = 1 ∧ clusterLost s (i / 4) then (2, i / 4)
  else (k, i)

/-- R622: a revival that is rejected. -/
def reviveBad (s : State) (k i : Nat) : Bool :=
  let u := reviveUnit s k i
  k = 0 || k = 6 || 9 ≤ k || unitCount k ≤ i || !(if k = 7 then s.lost.contains (7, i) else unitLost s k i) ||
  u = (3, 0) || (u.1 = 3 && s.fuseLost.contains u.2) ||
  (match s.revival with | some _ => true | none => false)

def quotaSum (s : State) (o new : Nat) : Nat :=
  ((List.range 16).flatMap fun p => [0x1C, 0x20, 0x24].map fun k => (partBase p + k)).foldl
    (fun a x => a + if x = o then bits new 19 0 else fld s x 19 0) 0

def partBad (s : State) (p o old new : Nat) (new64 : Nat) : Bool :=
  let enOld := partEn s p
  if o = 0x000 then
    p ≠ 0 && bitN new 0 ≠ bitN old 0 &&
    ((part s p).resetting || s.boot.quiesced || (bitN new 0 && (!priValid s p || qmask s p = 0)))
  else if o = 0x008 then
    p ≠ 0 && (enOld || (part s p).resetting || (bitN new 15 && !bitN new 7) ||
      (bitN new 15 && bits new 10 8 / 2 = bits new 2 0 / 2))
  else if o = 0x00C then 5 ≤ bits new 2 0
  else if o = 0x014 then
    p ≠ 0 && (enOld || (part s p).resetting || ((List.range 16).drop 1).any fun r => r ≠ p && qmask s r &&& new64 ≠ 0)
  else if o = 0x018 then bits new 15 0 = 0
  else if o ∈ [0x01C, 0x020, 0x024] then
    bits old 19 0 < bits new 19 0 && memGib s * 1024 < quotaSum s (partBase p + o) new
  else if o = 0x028 then
    (part s p).resetting || (List.range 16).any fun r => r ≠ p && fld s (partBase r + 0x28) 3 0 = bits new 3 0
  else false

def queueBad (s : State) (q o old new : Nat) : Bool :=
  let en := qEnable s q
  let p := owner s q
  if o = 0x000 then
    (s.boot.quiesced && bitN new 0 ≠ bitN old 0) ||
    (!bitN old 0 && bitN new 0 && (!partEn s p || (cqSel s q ≠ q && !qEnable s (cqSel s q)))) ||
    (bitN old 0 && !bitN new 0 && (s.cmds.any (·.q = q) || bitN new 1 ||
      (List.range 64).any fun r => r ≠ q && qEnable s r && cqSel s r = q)) ||
    (bitN old 1 && !bitN new 1 && queueTaken s q s.nextCmd) || (!bitN old 1 && bitN new 1 && !bitN new 0)
  else if o ∈ [0x00C, 0x018, 0x024, 0x040] then en
  else if o ∈ [0x010, 0x01C] then en || bits new 4 0 < 4 || 16 < bits new 4 0
  else if o ∈ [0x02C, 0x038] then qDrEn s q
  else if o = 0x030 then qDrEn s q || bits new 4 0 < 4 || 16 < bits new 4 0
  else if o = 0x03C then qDrEn s q || bits new 3 0 < 2 || 12 < bits new 3 0
  else if o = 0x048 then en || owner s (bits new 5 0) ≠ p
  else false

/-- Whether a write that would leave `new` in the register at o (`new64` in a 64-bit register) and carries `v` is
rejected. -/
def rejected (s : State) (o old new new64 v : Nat) : Bool :=
  ((retained o).isSome && s.boot.restoreRun && !s.boot.startOnly && !s.boot.ready) ||
  (if o = 0x104 then s.boot.fwBusy && !s.boot.fwRun
   else if o = 0x110 then
     (v % 4 ≠ 0 && (!s.boot.fwRun || s.boot.restoreRun || s.boot.quiesced || s.boot.ready)) || v % 4 = 3 ||
     (bitN v 2 && (!s.boot.ready || reg64 s 0x108 = 0)) || (bitN v 3 && !s.boot.ready)
   else if o = 0x1010 then
     (fld s 0x1000 0 0 = 0 && bits new 7 0 ≠ 0) ||
     (List.range 8).any fun i => bitN new i && !bitN old i && targetLost s i
   else if o = 0x1018 then reviveBad s (bits v 15 12) (bits v 11 0)
   else if 0x1020 ≤ o ∧ o < 0x1040 then !targetOk ((o - 0x1020) / 4) (bits new 7 0)
   else if 0x1800 ≤ o ∧ o < 0x2000 then reactBad ((o - 0x1800) / 4) new
   else if o ∈ [0x2000, 0x2004, 0x2008, 0x3800] then bits new 9 0 = 0 || 1000 < bits new 9 0
   else if o = 0x200C then 6 ≤ bits new 2 0
   else if 0x3000 ≤ o ∧ o < 0x3400 then o % 0x40 = 0 && 10000 < bits new 13 0
   else if o = 0x4000 then
     bits new 2 1 = 3 || (bitN new 0 ≠ bitN old 0 && ((List.range 16).drop 1).any (partEn s))
   else if o = 0x4008 then bits new 4 0 = 0 || 24 < bits new 4 0
   else if o = 0x400C then bits new 15 0 = 0
   else if o = 0x5000 then bits new 9 0 < 150 || fld s 0x5004 9 0 < bits new 9 0
   else if o = 0x5004 then bits new 9 0 < 150 || 560 < bits new 9 0
   else if 0x40000 ≤ o ∧ o < 0x50000 then partBad s ((o - 0x40000) / 0x1000) (o % 0x1000) old new new64
   else if 0x50000 ≤ o ∧ o < 0x90000 then queueBad s ((o - 0x50000) / 0x1000) (o % 0x1000) old new
   else if 0x100000 ≤ o then
     if o % 0x100000 = 0x100 then fld s (o + 4) 0 0 = 1 || bits new 1 0 = 3
     else if o % 0x100000 = 0x1000 then bits new 9 0 < 500 || 750 < bits new 9 0 || bits new 9 0 % 5 ≠ 0
     else if 0x80000 ≤ o % 0x100000 ∧ o % 0x2000 = 0 then
       let t := (o - 0x100000) / 0x100000 * 24 + (o % 0x100000 - 0x80000) / 0x2000
       bitN new 0 && tileLost s t && reviveBad s 1 t
     else false
   else false)

/-! ### What a write sets going -/

/-- The least recently used byte entry of a partition that no pin holds (R345, R346). -/
def lruEntry (s : State) (p : Nat) : Option CacheEntry :=
  (s.cache.filter fun c => c.part = p && !(part s p).pins.contains c.src).foldl
    (fun a c => match a with | none => some c | some b => if c.used < b.used then some c else some b) none

/-- Drops a byte entry and its buffers. -/
def dropEntry (s : State) (c : CacheEntry) : State :=
  freeBufs { s with cache := s.cache.filter fun x => !(x.part = c.part && x.src = c.src && x.off = c.off && x.data.length = c.data.length) } c.bufs

/-- Evicts unpinned byte entries, least recently used first, until the partition's charge is at most n bytes (R343). -/
def evictTo : Nat → State → Nat → Nat → State
  | 0, s, _, _ => s
  | k + 1, s, p, n =>
    if cacheCharge s p ≤ n then s
    else match lruEntry s p with
      | some c => evictTo k (dropEntry s c) p n
      | none => s

/-- A cache quota lowered below the reservation (R586). -/
def lowerCache (s : State) (p mib : Nat) : State :=
  if (part s p).cacheMib ≤ mib then s
  else
    let s := evictTo (s.cache.length + 1) s p (mib * 2 ^ 20)
    let held := pinnedCharge s p
    setPart s p fun x => { x with cacheMib := Nat.max mib (mibUp held), cacheBar := if mib * 2 ^ 20 < held then some held else none }

/-- Force bits that a write of FLT_FORCE newly sets: the level ones act at once (R603, Table 18.4). -/
def armForce (s : State) (old new : Nat) : State :=
  let s :=
    if bitN new 3 && !bitN old 3 then
      let v := fld s 0x102C 7 0
      raise (containLink s (v / 4) (v % 4)) ⟨9, true, v / 4, none, 6, v⟩
    else s
  let s :=
    if bitN new 7 && !bitN old 7 then
      let d := fld s 0x103C 7 0
      postAll (raise s ⟨0x14, true, d, none, 3, d⟩) 8 (100 + 256 * d)
    else s
  thermN s

/-- Starts the self-test of a revival (R622). -/
def startRevival (s : State) (k i : Nat) : State :=
  let u := reviveUnit s k i
  setReg { s with revival := some ⟨u.1, u.2, (k, i)⟩ } 0x101C (BitVec.ofNat 32 (u.1 * 2 ^ 28 + u.2 * 2 ^ 16 + 1))

/-! ### The Forget-me-not record (R637 to R641) -/

/-- BLK_MODSER (Table 3.2). -/
def modSerial (s : State) : Nat := (dieAt s 0).serial.toNat

/-- The entries that a save writes, in ascending offset order (R638). -/
def saveEntries (s : State) : List (Nat × Word) :=
  (retainedAll.filter fun o => !(match dieOf o with | some d => dieLost s d | none => false)).map fun o =>
    (o, (readReg s o).getD 0)

/-- A copy of the record with a sequence number (Table 19.5). -/
def recordBytes (s : State) (seq : Nat) : List Byte :=
  let es := saveEntries s
  let body := es.flatMap fun e => toLe 4 e.1 ++ toLe 4 e.2.toNat
  let head := toLe 4 0x544D4746 ++ [3, 1] ++ toLe 2 es.length ++ toLe 8 seq ++ toLe 8 (modSerial s) ++
    toLe 4 ((readReg s 4).getD 0).toNat ++ List.replicate 32 0
  let l := head ++ toLe 4 (crc32c (head ++ body)) ++ body
  l ++ List.replicate (4096 - l.length) 0

/-- Marks a save of the record when a retained register has changed (R639). -/
def noteChange (s : State) (o : Nat) (changed : Bool) : State :=
  if changed && (retained o).isSome && s.boot.ready && reg64 s 0x108 ≠ 0 then
    { s with boot := { s.boot with savePending := true } }
  else s

/-- The function is disabled or the new key slot is bound, where that was what reset the partition (R107, R546). -/
def afterReset (s : State) (p : Nat) : State :=
  let s := if (part s p).thenOff then noteChange (setFld s (partBase p) 0 0 0) (partBase p) true else s
  match (part s p).thenSlot with
  | none => s
  | some k => noteChange (drawKeys (setFld s (partBase p + 0x28) 3 0 k) k) (partBase p + 0x28) true

/-- Step 6 of a partition reset in progress (Table 17.2), and what the write that caused it left to do. -/
def endReset (s : State) (p : Nat) : State :=
  if !(part s p).resetting then s else
  let s := (ownedQueues s p).foldl (fun s q => setReg s (queueBase q) 0) s
  let s := afterReset ((pavCounters p).foldl (fun s o => setReg s o 0) s) p
  setPart s p fun x => { x with resetting := false, thenOff := false, thenSlot := none }

/-- A save: the copy that does not hold the current SEQ, copy A at a new region (R639, R640). An unresolvable fault sets
SAVE_ERR. -/
def saveRecord (s : State) : State :=
  let base := reg64 s 0x108
  let s := { s with boot := { s.boot with savePending := false } }
  let toB := base = s.boot.seqBase && !s.boot.seqInB
  let key := hostKey pf0Space (base + if toB then 0x1000 else 0)
  if faulty s key 4096 then setW1c s 0x128 0 0x12C
  else
    let n := (s.boot.seq + 1) % 2 ^ 64
    let s := hostWrite s 0 key (recordBytes s n)
    { s with boot := { s.boot with seq := n, seqBase := base, seqInB := toB } }

/-- A partition reset of every partition, a save when a region is set, and QUIESCED (R644). -/
def doQuiesce (s : State) : State :=
  let s := (List.range 16).foldl endReset ((List.range 16).foldl partReset s)
  let s := if reg64 s 0x108 ≠ 0 then saveRecord s else s
  { s with boot := { s.boot with ready := false, quiesced := true } }

def bootCtrl (s : State) (v : Nat) : State :=
  let s := if bitN v 0 then { s with boot := { s.boot with restoreRun := true, startOnly := false } } else s
  let s := if bitN v 1 then { s with boot := { s.boot with restoreRun := true, startOnly := true } } else s
  let s := if bitN v 2 then { s with boot := { s.boot with savePending := true } } else s
  if bitN v 3 then doQuiesce s else s

/-- Indices of queue q set to 0 when it comes into service (R117). -/
def queueStart (s : State) (q : Nat) (old new : Nat) : State :=
  let s := if !bitN old 0 && bitN new 0 then
      setQueue s q fun x => { x with sqPi := 0, sqCi := 0, cqPi := 0, cqCi := 0, sqStop := false, promised := 0, mirrored := 0, marker := 0 }
    else s
  if !bitN old 1 && bitN new 1 then setQueue s q fun x => { x with drPi := 0, drCi := 0, drStop := false } else s

/-- What a write that left `new` in the register at o sets going; `wo` are the WO bits it carries as 1. -/
def effects (s : State) (o old new wo : Nat) : State :=
  if o = 0x104 then
    if s.boot.fwRun then s
    else if s.boot.hpDone then { s with boot := { s.boot with fwBusy := true } }
    else { s with boot := { s.boot with fwPending := true } }
  else if o = 0x110 then bootCtrl s wo
  else if o = 0x1000 then if bitN new 0 then s else thermN (setReg s 0x1010 0)
  else if o = 0x1010 then armForce s old new
  else if o = 0x1018 then startRevival s (bits wo 15 12) (bits wo 11 0)
  else if o = 0x5004 then
    if bits new 9 0 < fld s 0x5000 9 0 then setFld s 0x5000 9 0 (bits new 9 0) else s
  else if 0x40000 ≤ o ∧ o < 0x50000 then
    let p := (o - 0x40000) / 0x1000
    if o % 0x1000 = 0 then
      if bitN old 0 && !bitN new 0 then
        setPart (partReset (setFld s o 0 0 1) p) p fun x => { x with thenOff := true }
      else
        let s := if !bitN old 0 && bitN new 0 then
            setPart s p fun x => { x with
              stranded := false
              onSecondary := secValid s p && !s.hpUp.getLsbD (primaryPort s p) && s.hpUp.getLsbD (secondaryPort s p) }
          else s
        if bitN wo 31 then partReset s p else s
    else if o % 0x1000 = 0x01C then lowerCache s p (bits new 19 0)
    else if o % 0x1000 = 0x028 then
      if old = new then s
      else setPart (partReset (setReg s o (BitVec.ofNat 32 old)) p) p fun x => { x with thenSlot := some (bits new 3 0) }
    else s
  else if 0x50000 ≤ o ∧ o < 0x90000 then
    if o % 0x1000 = 0 then queueStart s ((o - 0x50000) / 0x1000) old new else s
  else if 0x100000 ≤ o then
    let d := (o - 0x100000) / 0x100000
    if o % 0x100000 = 0x104 then
      if bitN old 0 && !bitN new 0 then
        (List.range 4).foldl (fun s i => containLink s d i) { s with lowRate := s.lowRate.filter fun x => x.1 ≠ d }
      else s
    else if 0x80000 ≤ o % 0x100000 ∧ o % 0x2000 = 0 then
      let t := d * 24 + (o % 0x100000 - 0x80000) / 0x2000
      if bitN new 0 then if tileLost s t then startRevival (setFld s o 0 0 0) 1 t else s
      else takeOut s 1 t
    else s
  else s

/-- A cause that still stands sets its W1C bit again at once (R96, R598). Only the level conditions behind fault bits are
taken as standing causes: the other W1C bits record an event that is over as it sets them (DESIGN CHOICE, log entry
51). -/
def causeStands (s : State) (o b : Nat) : Bool :=
  let onDie (d : Nat) : Bool := o = 0x1004 || o = dieBase d + 0x3000
  (b = 4 && (List.range 16).any fun m => s.mpPaused.getLsbD m && onDie (m / 4)) ||
  (b = 0x14 && (List.range 4).any fun d => onDie d &&
    (((dieAt s d).sensor && decide (100 ≤ (dieAt s d).tj)) || (fld s 0x1010 7 7 = 1 && !targetLost s 7 && fld s 0x103C 7 0 = d))) ||
  (b = 0x1C && s.pins.stepStuck.any id && onDie 0) ||
  (b = 9 && fld s 0x1010 3 3 = 1 && !targetLost s 3 && onDie (fld s 0x102C 7 0 / 4))

/-- Offset of the companion counter of a W1C bit. -/
def companion (o b : Nat) : Nat :=
  if o = 0x14 then (if b = 0 then 0x1C else 0x20)
  else if o = 0x128 then 0x12C
  else if o = 0x1004 then 0x1100 + 4 * b
  else if 0x3000 ≤ o ∧ o < 0x3400 then o + 0x28
  else if o = 0x4010 then 0x4014 + 4 * b
  else if o = 0x500C then (if b = 1 then 0x5010 else 0x5014)
  else if 0x40000 ≤ o ∧ o < 0x50000 then o + 0x28
  else if 0x50000 ≤ o ∧ o < 0x90000 then (if b = 2 then o + 0x4C else o + 0x50)
  else if o % 0x100000 = 0x3000 then o + 0x100 + 4 * b
  else o + 4

/-- Clears the W1C bits that are 1 in m (R94 to R96); clearing a bit of FLT_STAT restarts its escalation (R599). -/
def clearBits (s : State) (o : Nat) (m : Word) : State :=
  let bs := (List.range 32).filter fun b => m.getLsbD b && (reg s o).getLsbD b
  bs.foldl (fun s b =>
    let s := setFld s o b b 0
    let s := if o = 0x1004 then { s with escCount := put (fun _ => 0) b 0 s.escCount } else s
    if causeStands s o b then setW1c s o b (companion o b) else s) s

def configRej (s : State) (o : Nat) : State := setReg (setW1c s 0x14 0 0x1C) 0x18 (BitVec.ofNat 32 o)

def lowKey (port o : Nat) : Nat := port * 2 ^ 32 + o
def pendingLow (s : State) (port o : Nat) : Option Word := (s.lowHalf.find? fun x => x.1 = lowKey port o).map (·.2)

/-- The word that a write of v leaves in the fields with codes RW and RWL; `b` is the one bit of an alias write. -/
def merged (old v : Word) (m : Word) (b : Option Nat) : Word :=
  match b with
  | none => (old &&& ~~~m) ||| (v &&& m)
  | some i =>
    let one := BitVec.twoPow 32 i &&& m
    (old &&& ~~~one) ||| (if v.getLsbD 0 then one else 0)

/-- The bits that a write carries as 1. -/
def ones (v : Word) (b : Option Nat) : Word :=
  match b with
  | none => v
  | some i => if v.getLsbD 0 then BitVec.twoPow 32 i else 0

/-- The bits with an access code that a write carries as 1. -/
def onesOf (o : Nat) (b : Option Nat) (v : Word) (a : Acc) : Word := ones v b &&& fldMask ((regFields o).getD []) (·.acc = a)

/-- The bits of the register at o with codes RW and RWL, and those with RWL. -/
def rwMask (o : Nat) : Word := fldMask ((regFields o).getD []) fun f => f.acc = .rw || f.acc = .rwl
def rwlMask (o : Nat) : Word := fldMask ((regFields o).getD []) (·.acc = .rwl)

/-- The die whose register block holds an offset is out of service (R90). -/
def dieOut (s : State) (o : Nat) : Bool := (dieOf o).any (dieLost s)

/-- A low half waits for its port's write of the high half, in place of any that waited (R93). -/
def writeLow (s : State) (port o : Nat) (b : Option Nat) (v : Word) : State :=
  if rwMask o = 0 then s
  else { s with lowHalf := (lowKey port o, merged (reg s o) v (rwMask o) b) ::
                  s.lowHalf.filter fun x => x.1 ≠ lowKey port o }

/-- The low half beside the high half at o, as a write through a port takes it and as it stands; 0 beside any other
register. -/
def lowWanted (s : State) (port o : Nat) : Word :=
  if isHighHalf o then (pendingLow s port (o - 4)).getD (reg s (o - 4)) else 0
def lowPresent (s : State) (o : Nat) : Word := if isHighHalf o then reg s (o - 4) else 0

/-- A write of the high half at o uses the port's pending low half up. -/
def useLow (s : State) (port o : Nat) : State :=
  if isHighHalf o then { s with lowHalf := s.lowHalf.filter fun x => x.1 ≠ lowKey port (o - 4) } else s

/-- Stores a word, with its low half beside a high half. -/
def putHalves (s : State) (o : Nat) (new newLo : Word) : State :=
  if isHighHalf o then setReg (setReg s o new) (o - 4) newLo else setReg s o new

/-- A write at BAR0 offset a whose fields come to `new`, with the W1C bits w1 and the WO bits wo: rejected as a whole, or
stored, and what follows from it (R94 to R96, R103, R639). -/
def applyWrite (s : State) (a o : Nat) (new newLo w1 wo : Word) : State :=
  if rejected s o (reg s o).toNat new.toNat (newLo.toNat + 2 ^ 32 * new.toNat) wo.toNat then configRej s a
  else effects (noteChange (clearBits (putHalves s o new newLo) o w1) o (new ≠ reg s o || newLo ≠ lowPresent s o)) o
    (reg s o).toNat new.toNat wo.toNat

/-- Whether a write would change an RWL field while CFG_LOCK is 1 (R102). -/
def heldBack (s : State) (o : Nat) (want wantLo : Word) : Bool :=
  (want &&& rwlMask o) ≠ (reg s o &&& rwlMask o) || (rwlMask o ≠ 0 && wantLo ≠ lowPresent s o)

/-- What a write that the lock holds back leaves of its fields. -/
def lockedNew (s : State) (o : Nat) (want : Word) : Word := (want &&& ~~~(rwlMask o)) ||| (reg s o &&& rwlMask o)
def lockedLow (s : State) (o : Nat) (wantLo : Word) : Word := if rwlMask o = 0 then wantLo else lowPresent s o

/-- The same under CFG_LOCK: RWL fields keep their values, and a write that would change one sets LOCK_WR (R102). -/
def writeLocked (s : State) (a o : Nat) (want wantLo w1 wo : Word) : State :=
  if heldBack s o want wantLo then
    let t := setW1c s 0x14 1 0x20
    if lockedNew s o want = reg s o ∧ lockedLow s o wantLo = lowPresent s o ∧ wo = 0 then
      if rejected s o (reg s o).toNat (reg s o).toNat ((lowPresent s o).toNat + 2 ^ 32 * (reg s o).toNat) 0 then configRej t a else t
    else applyWrite t a o (lockedNew s o want) (lockedLow s o wantLo) w1 wo
  else applyWrite s a o want wantLo w1 wo

/-- PF0's BAR0 offset of a write to the register at o, or to the alias of its bit b (R97, R103). -/
def writeAddr (o : Nat) (b : Option Nat) : Nat :=
  match b with
  | none => o
  | some b => 0x800000 + 32 * o + 4 * b

/-- Whether a write through the alias of bit b of the register at o reaches a bit that no field lets it write, and is ignored
(R98, R99). -/
def aliasInert (o : Nat) (b : Option Nat) : Bool :=
  b.any fun i => !(fldMask ((regFields o).getD []) (·.acc ≠ .ro)).getLsbD i

/-- A write that has reached the register at o through a port: pending halves, the lock field by field, rejection,
the access codes, and what follows (R9, R90, R93 to R103, R601). -/
def writeReg (s : State) (port o : Nat) (b : Option Nat) (v : Word) : State :=
  if s.fatal then clearBits s o (onesOf o b v .w1c)
  else if dieOut s o || aliasInert o b then s
  else if isLowHalf o then writeLow s port o b v
  else if fld s 0x10 0 0 = 1 then
    writeLocked (useLow s port o) (writeAddr o b) o (merged (reg s o) v (rwMask o) b) (lowWanted s port o) (onesOf o b v .w1c) (onesOf o b v .wo)
  else
    applyWrite (useLow s port o) (writeAddr o b) o (merged (reg s o) v (rwMask o) b) (lowWanted s port o) (onesOf o b v .w1c) (onesOf o b v .wo)

/-- A write access of function fn through a port to its BAR0 (R86, R87). -/
def busWrite (s : State) (fn port off : Nat) (v : Word) : State :=
  if !presented s fn port then s
  else
    match resolve s fn off with
    | .word o => writeReg s port o none v
    | .alias_ o b => writeReg s port o (some b) v
    | .view _ => s
    | .none => unsupported s fn true

end Sys2Proof.Machine
end

