-- ==== Sys2Proof/Machine/Recipes.lean ====
section
/-!
DEFINITION. Recipes: reading and checking images, fit, the cost model and admission, calibration (chapter 5).
-/

namespace Sys2Proof.Machine

def modelOf (s : State) (p id : Nat) : Option Model := s.models.find? fun m => m.part = p && m.id = id
def dictOf (s : State) (p id : Nat) : Option Dict := s.dicts.find? fun m => m.part = p && m.id = id

/-! ### Images (Tables 5.1 and 5.2) -/

/-- A stage of an image, from its record at offset o. -/
def readStage (l : List Byte) (o progOff : Nat) : Stage :=
  { parent := leAt l o 1, template := leAt l (o + 1) 1, threads := leAt l (o + 4) 2, tsBytes := leAt l (o + 8) 4,
    csBytes := leAt l (o + 12) 4, pool := (List.range 8).map fun k => leAt l (o + 16 + k) 1,
    prog := sliceB l (progOff + leAt l (o + 24) 4) (leAt l (o + 28) 4), model0 := leAt l (o + 32) 2,
    model1 := leAt l (o + 34) 2, dict := leAt l (o + 36) 2,
    outs := (List.range (leAt l (o + 38) 1)).map fun k => parseDesc (sliceB l (leAt l (o + 40) 4 + 128 * k) 128),
    params := if leAt l (o + 44) 4 = 0 then [] else sliceB l (leAt l (o + 44) 4) (leAt l (o + 48) 4), declCost := leAt l (o + 52) 4,
    declDu := leAt l (o + 56) 4 }

/-- A calibration record from its 256 bytes (Table 5.6). -/
def readCal (l : List Byte) (n : Nat) : CalRec :=
  { samples := leAt l 6 2, lanes14 := bitN (leAt l 5 1) 0,
    ctx := { act := BitVec.ofNat 16 (leAt l 8 2), memu := BitVec.ofNat 16 (leAt l 10 2),
             vcore := BitVec.ofNat 16 (leAt l 12 2), tj := BitVec.ofNat 8 (leAt l 14 1),
             pace := BitVec.ofNat 32 (leAt l 16 4) },
    cost := (List.range n).map fun i => (leAt l (64 + 8 * i) 4, leAt l (68 + 8 * i) 4) }

/-- A recipe from its image. -/
def readRecipe (l : List Byte) (p id pasid : Nat) (fixed : Bool) : Recipe :=
  let n := leAt l 6 1
  let st := (List.range n).map fun g => readStage l (64 + 64 * g) (leAt l 24 4)
  let calOff := leAt l 32 4
  let b := leAt l 12 2
  let t := leAt l 14 2
  { part := p, id := id, policy := bits (leAt l 7 1) 4 3, strict := bitN (leAt l 7 1) 2, repro := bits (leAt l 7 1) 1 0,
    targetRate := leAt l 8 4, budgetMult := if b = 0 then 8 else b, hardTo := if t = 0 then 30 else t,
    outBytes := leAt l 16 4, contexts := leAt l 20 2, inflight := leAt l 22 2, calTable := leAt l 36 8,
    calN := leAt l 44 4, stages := st, progBytes := (st.map (·.prog.length)).foldl (· + ·) 0,
    cal := if calOff = 0 then none else some (readCal (sliceB l calOff 256) n), fixedCost := fixed,
    readsVolatile := st.any (fun g => readsVolatile g.prog), pasid := pasid, recent := st.map fun _ => [],
    fLive := st.map fun _ => (1, 1) }

/-- HARD_TO in range for a mode (R156). -/
def hardToOk (t : Nat) (long : Bool) : Bool := t = 0 || (1 ≤ t && t ≤ (if long then 600 else 120))

/-- Bad offsets of the header of an image of n bytes. -/
def headerBad (l : List Byte) : Bad :=
  let n := l.length
  let m := leAt l 7 1
  let inside (o : Nat) : Bool := leAt l o 4 ≤ n
  badIf (leAt l 0 4 ≠ 0x5043524F) 0 ++ badIf (leAt l 4 1 ≠ 1) 4 ++ badIf (leAt l 5 1 ≠ 3) 5 ++
  badIf (leAt l 6 1 = 0 || 16 < leAt l 6 1 || n < 64 + 64 * leAt l 6 1) 6 ++
  badIf (31 < m || bits m 4 3 = 3 || m % 4 = 3 || (m % 4 = 2 && bitN m 2)) 7 ++
  badIf (leAt l 8 4 = 0 || 10000000 < leAt l 8 4) 8 ++
  badIf (leAt l 12 2 = 1 || 64 < leAt l 12 2) 12 ++ badIf (!hardToOk (leAt l 14 2) (m % 4 = 1 || bitN m 2)) 14 ++
  badIf (64 < leAt l 20 2) 20 ++ badIf (leAt l 22 2 = 0 || 512 < leAt l 22 2) 22 ++
  badIf (leAt l 24 4 % 8 ≠ 0 || !inside 24) 24 ++ badIf (n < leAt l 24 4 + leAt l 28 4) 28 ++
  badIf (leAt l 32 4 % 64 ≠ 0 || (leAt l 32 4 ≠ 0 && n < leAt l 32 4 + 256)) 32 ++
  badIf (leAt l 36 8 % 64 ≠ 0) 36 ++ badIf (!zeroBytes l 48 64) 48

/-- Bad offsets of a stage's output descriptors (R424). -/
def outsBad (l : List Byte) (o out : Nat) : Bad :=
  (List.range (leAt l (o + 38) 1)).flatMap fun k =>
    let b := leAt l (o + 40) 4 + 128 * k
    let d := sliceB l b 128
    let t := parseDesc d
    (descShape d (fun x => x = 1 || x = 2) ++ descAlign t ++ descRange t ++
      badIf (!t.ro && (aliasAt t).isSome) 52 ++
      badIf (t.space = 1 && out < t.rangeBase + t.rangeBytes) 16).map (b + ·)

/-- Bad offsets of stage record g. -/
def stageBad (s : State) (p : Nat) (l : List Byte) (g : Nat) : Bad :=
  let o := 64 + 64 * g
  let n := l.length
  let st := readStage l o (leAt l 24 4)
  let t := st.template
  let parentOuts := if st.parent < g then (readStage l (64 + 64 * st.parent) (leAt l 24 4)).outs else []
  let layer0 := (modelOf s p st.model0).bind fun m => m.layers.head?.map fun y => (y.k, y.fmtB)
  let pOff := leAt l (o + 44) 4
  let pLen := leAt l (o + 48) 4
  badIf (if g = 0 then st.parent ≠ 0xFF else g ≤ st.parent) o ++ badIf (0x0A < t) (o + 1) ++
  badIf (leAt l (o + 2) 2 ≠ 0) (o + 2) ++ badIf (st.threads = 0 || 3072 < st.threads) (o + 4) ++
  badIf (leAt l (o + 6) 2 ≠ 0) (o + 6) ++
  badIf (st.tsBytes % 256 ≠ 0 || st.tsBytes < 256 || 6291456 < st.tsBytes) (o + 8) ++
  badIf (st.csBytes % 4096 ≠ 0 || 8388608 < st.csBytes) (o + 12) ++
  badIf (if t = 0 then leAt l (o + 24) 4 % 8 ≠ 0 || n < leAt l (o + 24) 4 else leAt l (o + 24) 4 ≠ 0) (o + 24) ++
  badIf (if t = 0 then leAt l (o + 28) 4 < 8 || 65536 < leAt l (o + 28) 4 || n < leAt l (o + 24) 4 + leAt l (o + 28) 4 else leAt l (o + 28) 4 ≠ 0) (o + 28) ++
  badIf (8 < leAt l (o + 38) 1) (o + 38) ++ badIf (leAt l (o + 39) 1 ≠ 0) (o + 39) ++
  badIf (leAt l (o + 40) 4 % 64 ≠ 0 || n < leAt l (o + 40) 4 + 128 * leAt l (o + 38) 1) (o + 40) ++
  badIf (pOff % 8 ≠ 0 || n < pOff) (o + 44) ++
  badIf (4096 < pLen || (pOff ≠ 0 && n < pOff + pLen) || !paramLenOk t (if pOff = 0 then 0 else pLen) (leAt l pOff 1)) (o + 48) ++
  badIf (leAt l (o + 60) 4 ≠ 0) (o + 60) ++ outsBad l o (leAt l 16 4) ++
  (paramBad t st.params st.outs parentOuts (st.model0 ≠ 0xFFFF) layer0
    (knownPlanes ((List.range g).map fun i => readStage l (64 + 64 * i) (leAt l 24 4)) 16 st.parent)).map (pOff + ·)

/-- Offsets of the descriptors whose SLOT range meets an earlier one's, each given with its offset (R424). -/
def rangeClash (all : List (Nat × Nat × Nat)) : Bad :=
  (all.zipIdx.filter fun x => (all.take x.2).any fun y =>
    x.1.2.1 < y.2.1 + y.2.2 && y.2.1 < x.1.2.1 + x.1.2.2).map (·.1.1 + 16)

/-- The same over an image's stages. -/
def slotClash (l : List Byte) : Bad :=
  let all := (List.range (leAt l 6 1)).flatMap fun g =>
    let o := 64 + 64 * g
    (List.range (leAt l (o + 38) 1)).filterMap fun k =>
      let b := leAt l (o + 40) 4 + 128 * k
      let t := parseDesc (sliceB l b 128)
      if t.space = 1 then some (b, t.rangeBase, t.rangeBytes) else none
  rangeClash all

/-- Step 3 of Table 5.4: the first bad field's offset. -/
def imageBad (s : State) (p : Nat) (l : List Byte) : Option Nat :=
  let h := headerBad l
  if leAt l 6 1 = 0 ∨ 16 < leAt l 6 1 ∨ l.length < 64 + 64 * leAt l 6 1 then leastOf h
  else leastOf (h ++ ((List.range (leAt l 6 1)).flatMap (stageBad s p l)) ++ slotClash l)

/-- Step 4: the offset of the first bad word, or of the PROG_AT of a program that is bad as a whole (R229). A template stage
whose TS_BYTES is below PARAM_LEN is refused here too, at its TS_BYTES: Table 6.15 gives that check for programs alone
(DESIGN CHOICE, log entry 64). -/
def programsBad (l : List Byte) (r : Recipe) : Option Nat :=
  let parents := r.stages.map (·.parent)
  r.stages.zipIdx.findSome? fun (st, g) =>
    if st.template ≠ 0 then if st.tsBytes < st.params.length then some (64 + 64 * g + 8) else none
    else
      let at_ := 64 + 64 * g + 24
      if leAt l 28 4 < leAt l at_ 4 + leAt l (at_ + 4) 4 then some at_
      else (progBad st.prog (ancestors parents 16 g) (st.model0 ≠ 0xFFFF) (st.dict ≠ 0xFFFF) (r.repro = 2) st.tsBytes
        st.params.length).map fun b => match b with | some o => leAt l 24 4 + leAt l at_ 4 + o | none => at_

/-- Step 5: models and dictionaries named, and the needs of ENCODE stages (R477). -/
def namesBad (s : State) (r : Recipe) : Option Nat :=
  r.stages.zipIdx.findSome? fun (st, g) =>
    let o := 64 + 64 * g
    let miss (id : Nat) : Bool := id ≠ 0xFFFF && (modelOf s r.part id).isNone
    let enc := st.template = 7
    leastOf (badIf (miss st.model0 || (enc && st.model0 = 0xFFFF)) (o + 32) ++ badIf (miss st.model1) (o + 34) ++
      badIf (st.dict ≠ 0xFFFF && (dictOf s r.part st.dict).isNone) (o + 36) ++
      (match modelOf s r.part st.model0 with
       | some m =>
         if enc then badIf (st.threads < m.parts) (o + 4) ++ badIf (st.tsBytes < m.tsMin) (o + 8) ++
           badIf (st.params.length < m.paramMin || m.paramMax < st.params.length) (o + 48)
         else []
       | none => []))

/-- Whether an embedded calibration record is accepted (R179). -/
def calBad (l : List Byte) (id : Nat) : Option Nat :=
  let o := leAt l 32 4
  if o = 0 then none
  else
    let r := sliceB l o 256
    leastOf (badIf (leAt r 0 4 ≠ id) o ++ badIf (leAt r 4 1 ≠ leAt l 6 1) (o + 4) ++
      badIf (leAt r 252 4 ≠ crc32c (r.take 252)) (o + 252))

/-! ### Fit (Table 5.5) -/

/-- The first index at which the running sum of l, from a, exceeds lim, with the excess of the whole sum. -/
def overAt (l : List Nat) (a lim : Nat) : Option (Nat × Nat) :=
  ((List.range l.length).find? fun i => lim < a + (l.take (i + 1)).foldl (· + ·) 0).map
    fun i => (i, a + l.foldl (· + ·) 0 - lim)

/-- Landing space of a stage (R467). -/
def landingSpace (s : State) (p : Nat) (st : Stage) : Nat :=
  let ch (id : Nat) : Nat := match modelOf s p id with | some m => 2 * m.chunkBytes | none => 0
  ch st.model0 + ch st.model1 + (if st.dict = 0xFFFF then 0 else 4096)

def perTile (st : Stage) : Nat := Nat.min 32 (6291456 / Nat.max 1 st.tsBytes)

/-- Step 7: resource code, stage and shortfall of the first resource that does not fit. -/
def loadFit (s : State) (r : Recipe) : Option (Nat × Nat × Nat) :=
  if 8 ≤ (s.recipes.filter (·.part = r.part)).length ∨ 64 ≤ s.recipes.length then some (1, 0xFF, 1)
  else match overAt (r.stages.map (·.prog.length)) (istoreUsed s) 212992 with
  | some (g, n) => some (2, g, n)
  | none =>
  match overAt (r.stages.map (·.threads)) 0 (guaranteed s r.part) with
  | some (g, n) => some (3, g, n)
  | none =>
  match r.stages.zipIdx.find? fun x => 6291456 < x.1.tsBytes * perTile x.1 with
  | some (st, g) => some (4, g, st.tsBytes * perTile st - 6291456)
  | none =>
  match r.stages.zipIdx.find? fun x => 8388608 < x.1.csBytes + landingSpace s r.part x.1 with
  | some (st, g) => some (5, g, st.csBytes + landingSpace s r.part st - 8388608)
  | none =>
  (overAt (r.stages.map fun st => poolPerSample st * r.inflight) (poolReserved s r.part) (poolQuota s r.part)).map
    fun (g, n) => (6, g, n)

/-- Steps 7 of Table 15.3: contexts, samples, then staging (R171, R501). -/
def epochFit (s : State) (r : Recipe) : Option (Nat × Nat × Nat) :=
  let open_ := s.epochs.filterMap fun e => recipeOf s e.part e.recipe
  let ctx := (open_.map fun x => x.contexts * x.inflight).foldl (· + ·) 0
  let smp := (open_.map (·.inflight)).foldl (· + ·) 0
  if 4096 < ctx + r.contexts * r.inflight then some (7, 0xFF, ctx + r.contexts * r.inflight - 4096)
  else if 512 < smp + r.inflight then some (8, 0xFF, smp + r.inflight - 512)
  else
    let n := poolReserved s r.part + r.inflight * stagingSize r.outBytes
    if poolQuota s r.part < n then some (6, 0xFF, n - poolQuota s r.part) else none

def refusedFit (f : Nat × Nat × Nat) : Result := ⟨0x02, f.2.1 * 256 + f.1, f.2.2, 0, false⟩

/-! ### The cost model (R180 to R186) -/

/-- Highest present Tj among the dies in service. -/
def tjNow (s : State) : Int := ((diesUp s).map fun d => (dieAt s d).tj).foldl max (-128)

/-- Whether an admission under a record is stale (R180). -/
def calStale (s : State) (r : Recipe) : Bool :=
  match r.cal with
  | none => false
  | some c => !r.fixedCost && (c.ctx.memu.toNat + 250 < s.memU || decide (c.ctx.tj.toInt < tjNow s - 15))

/-- The first stage without costs (R177). -/
def uncosted (r : Recipe) : Option Nat :=
  if r.cal.isSome || r.fixedCost then none
  else r.stages.findIdx? fun st => st.declCost = 0 || (st.template = 9 && st.declDu = 0)

def maxRat (a b : Rat) : Rat := if a < b then b else a

/-- Scaled cost of each stage: tile-events, and UTF-8 bytes for a TOKENISE stage (R180, R182). -/
def scaledCosts (s : State) (r : Recipe) : List (Rat × Rat) :=
  let declared := r.fixedCost || r.cal.isNone
  let lanes : Rat := if declared || (tilesUp s).any (fun t => !lanes16 s t) then 8 / 7 else 1
  let fctx : Rat := match r.cal with
    | some c =>
      let x : Rat := 1 + (2 / 1000) * maxRat 0 ((s.memU : Int) - (c.ctx.memu.toNat : Int) : Int) +
        (1 / 2048) * maxRat 0 ((s.act : Int) - (c.ctx.act.toNat : Int) : Int)
      if calStale s r then maxRat (8 / 5) x else x
    | none => 1
  r.stages.zipIdx.map fun (st, g) =>
    let live : Rat := let x := r.fLive.getD g (1, 1); (x.1 : Rat) / (x.2 : Rat)
    let f := maxRat (if declared then 8 / 5 else fctx) live
    let c := if declared then (if st.template = 9 then st.declDu else st.declCost, 0)
      else ((r.cal.map (·.cost)).getD []).getD g (0, 0)
    if st.template = 9 then (0, (c.1 : Rat) * f) else (((c.1 : Rat) + (c.2 : Rat) * lanes) * f, 0)

def tileSum (l : List (Rat × Rat)) : Rat := (l.map (·.1)).foldl (· + ·) 0

/-- Demand on the tiles of the stages up to g, or a TOKENISE stage's own on its dictionary units (R184, R185). -/
def demandAt (r : Recipe) (c : List (Rat × Rat)) (g : Nat) : Rat :=
  let rate : Rat := (r.targetRate : Rat) / 1000000
  if (r.stages.map (·.template)).getD g 0 = 9 then rate * (c.getD g (0, 0)).2
  else rate * ((c.take (g + 1)).map (·.1)).foldl (· + ·) 0

/-- The rate check and TIMEOUT_SHORT: reason, stage, shortfall of the first failure (R184 to R186). -/
def admissionStop (s : State) (r : Recipe) : Option (Nat × Nat × Nat) :=
  match uncosted r with
  | some g => some (2, g, 0)
  | none =>
    let c := scaledCosts s r
    let share : Rat := (weight s r.part : Rat) / (Nat.max 1 (weightSum s) : Nat)
    let pace : Rat := ((paceMin s).1 : Rat)
    let supply := share * ((tilesUp s).length : Rat) * pace * (9 / 10)
    let duSupply := share * 32000 * (pace / 2000) * (9 / 10)
    let du (g : Nat) : Bool := (r.stages.map (·.template)).getD g 0 = 9
    match (List.range c.length).find? fun g => (if du g then duSupply else supply) < demandAt r c g with
    | some g =>
      let short := if du g then demandAt r c g - duSupply
        else r.targetRate * tileSum c / 1000000 - supply
      some (1, g, short.ceil.toNat)
    | none =>
      if pace = 0 then none
      else
        let need : Rat := 2 * ((r.budgetMult : Rat) * tileSum c) / pace
        let hard : Rat := (r.hardTo : Rat) * 1000000
        if hard < need then some (3, 0xFF, ((need - hard) / 1000).ceil.toNat) else none

/-- Budget of a sample that starts now, in tile-events (R188). -/
def budgetOf (s : State) (r : Recipe) : Nat := (((r.budgetMult : Rat) * tileSum (scaledCosts s r)).floor).toNat

def notAdmitted (f : Nat × Nat × Nat) (stale : Bool) : Result := ⟨0x03, f.2.1 * 256 + f.1, f.2.2, 0, stale⟩

/-! ### RECIPE_LOAD and RECIPE_UNLOAD -/

def putRecipe (s : State) (r : Recipe) : State := { s with recipes := s.recipes ++ [r] }

/-- Steps 5 to 8 of Table 5.4, and loading. Step 8, the rate check of R182, takes TIMEOUT_SHORT as well as RATE (DESIGN
CHOICE, log entry 64). -/
def loadChecked (s : State) (x : Cmd) (r : Recipe) : State :=
  match loadFit s r with
  | some f => complete s x (refusedFit f)
  | none =>
    let stale := calStale s r
    match if (uncosted r).isNone then admissionStop s r else none with
    | some f => complete s x (notAdmitted f stale)
    | none => complete (putRecipe s r) x ⟨0, 0, r.id, 0, stale && (uncosted r).isNone⟩

/-- Reads the n bytes of an image that operand 0 names and goes on with them; an unreadable one is PARTIAL. -/
def withImage (s : State) (x : Cmd) (n : Nat) (go : State → List Byte → State) : State :=
  if faulty s (cmdKey s x (op64 x 0)) n then complete s x (partialR (okBytes s (cmdKey s x (op64 x 0)) n))
  else go (readReturned s x.part n) (hostBytes s (cmdKey s x (op64 x 0)) n)

/-- RANGE of a step of Tables 5.4 and 5.9 on an image offset. -/
def recipeRange (step o : Nat) : Result := ⟨0x0A, 8, 0, o + 2 ^ 32 * step, false⟩

/-- Steps 4 to 6 of Table 5.4 for a recipe read from the image l. -/
def checkNames (s : State) (x : Cmd) (l : List Byte) (r : Recipe) : State :=
  match programsBad l r with
  | some o => complete s x (recipeRange 4 o)
  | none => match namesBad s r with
    | some o => complete s x (recipeRange 5 o)
    | none => match calBad l r.id with
      | some o => complete s x (recipeRange 6 o)
      | none => loadChecked s x r

/-- Steps 2 and 3 of Table 5.4 on an image read. -/
def checkRecipe (s : State) (x : Cmd) (l : List Byte) (id : Nat) : State :=
  if id = 0 ∨ id = 0xFFFFFFFF then complete s x (range 0x10)
  else if (recipeOf s x.part id).isSome then complete s x denied
  else match imageBad s x.part l with
  | some o => complete s x (recipeRange 3 o)
  | none => checkNames s x l (readRecipe l x.part id (qSpace s x.q) (xopBits x 0 0 0 = 1))

/-- RECIPE_LOAD (R155, R167 to R170). -/
def execRecipeLoad (c : Nat) (s : State) : Out :=
  .next (withHost s c 0x01 fun s x =>
    withImage s x (opBits x 1 31 0) fun s l => checkRecipe s x l (opBits x 1 63 32))

/-- Whether a command whose reads are held counts as an epoch open on a recipe: EPOCH_OPEN from its step 3 on, EPOCH_RESUME
once the cursor that names the recipe is read (R498). -/
def claimsRecipe (s : State) (p id : Nat) (y : Cmd) : Bool :=
  y.part = p && claimsQueue s y.q y && (s.readHalts.find? fun h => h.cmd = y.id).any fun h =>
    if y.opcode = 0x10 then opBits y 0 31 0 = id
    else
      let u := withBrought s h
      let key := cmdKey s y (op64 y 0)
      (broughtAt u key).isSome && (broughtAt u (key + 127)).isSome && leAt (hostBytes u key 128) 8 4 = id

/-- RECIPE_UNLOAD (R172, R178, R203). -/
def execRecipeUnload (c : Nat) (s : State) : Out :=
  .next (withCmd s c 0x02 fun s x =>
    let id := opBits x 0 31 0
    match recipeOf s x.part id with
    | none => complete s x (range 8)
    | some _ =>
      if (s.epochs.any fun e => e.part = x.part && e.recipe = id) || s.cmds.any (claimsRecipe s x.part id) || (s.cmds.any fun y => y.part = x.part && y.opcode = 7 && opBits y 0 31 0 = id) then
        complete s x denied
      else complete { s with recipes := s.recipes.filter fun r => !(r.part = x.part && r.id = id) } x (plain 0))

/-! ### FUSED_CHAIN (R191 to R193) -/

/-- Template of a link operation. -/
def linkTemplate (op : Nat) : Nat := if op = 6 then 0x0A else op

/-- Stage j built from link j (R192). DESIGN CHOICE (log entry 68): a declared cost of 2 × LCOST beyond 32 bits is kept. -/
def linkStage (s : State) (p : Nat) (l : List Byte) (j : Nat) : Stage :=
  let o := 32 + 32 * j
  let op := leAt l o 1
  let po := leAt l (o + 8) 4
  let pl := leAt l (o + 12) 4
  let blk := sliceB l po pl
  let moves := leAt blk 0 1
  let nOuts := (pl - 8 - 16 * moves) / 128
  let params := if op = 6 then blk.take (8 + 16 * moves) else blk
  { parent := if j = 0 then 0xFF else j - 1, template := linkTemplate op,
    threads := Nat.max 1 (guaranteed s p / leAt l 4 1), tsBytes := 65536, csBytes := 0,
    pool := (List.range 8).map fun k => Config.chainPool op blk k % 256, prog := [], model0 := 0xFFFF, model1 := 0xFFFF,
    dict := 0xFFFF,
    outs := if op = 6 then (List.range nOuts).map fun k => parseDesc (sliceB blk (8 + 16 * moves + 128 * k) 128) else [],
    params := params, declCost := 2 * leAt l (o + 4) 4, declDu := 0 }

/-- Where the descriptors of a chain's pack links lie, with their SLOT ranges. -/
def chainSlots (l : List Byte) : List (Nat × Nat × Nat) :=
  (List.range (leAt l 4 1)).flatMap fun j =>
    let o := 32 + 32 * j
    let po := leAt l (o + 8) 4
    let first := 8 + 16 * leAt l po 1
    if leAt l o 1 ≠ 6 then []
    else (List.range ((leAt l (o + 12) 4 - first) / 128)).filterMap fun k =>
      let b := po + first + 128 * k
      let t := parseDesc (sliceB l b 128)
      if t.space = 1 then some (b, t.rangeBase, t.rangeBytes) else none

/-- Step 3 of Table 5.9. -/
def chainBad (s : State) (p : Nat) (l : List Byte) : Option Nat :=
  let n := leAt l 4 1
  let h := badIf (leAt l 0 4 ≠ 0x4E48434C) 0 ++ badIf (n = 0 || 16 < n || l.length < 32 + 32 * n) 4 ++
    badIf (!zeroBytes l 5 8) 5 ++ badIf (!zeroBytes l 20 32) 20
  if n = 0 ∨ 16 < n ∨ l.length < 32 + 32 * n then leastOf h
  else
    leastOf (h ++ rangeClash (chainSlots l) ++ (List.range n).flatMap fun j =>
      let o := 32 + 32 * j
      let op := leAt l o 1
      let po := leAt l (o + 8) 4
      let pl := leAt l (o + 12) 4
      let st := linkStage s p l j
      let parentOuts := if j = 0 then [] else (linkStage s p l (j - 1)).outs
      badIf (op = 0 || 6 < op) o ++ badIf (!zeroBytes l (o + 1) (o + 4)) (o + 1) ++ badIf (l.length < po + pl) (o + 8) ++
      badIf (if op = 6 then decide (pl < 8 + 16 * leAt l po 1) else !paramLenOk st.template pl 0) (o + 12) ++
      badIf (!zeroBytes l (o + 16) (o + 32)) (o + 16) ++
      (if l.length < po + pl then [] else (paramBad st.template st.params st.outs parentOuts false none
        (knownPlanes ((List.range j).map (linkStage s p l)) 16 (j - 1))).map (po + ·)) ++
      (if op = 6 then
        let moves := leAt l po 1
        let rest := pl - 8 - 16 * moves
        badIf (rest / 128 = 0 || 8 < rest / 128) (o + 12) ++
        ((List.range (rest / 128)).flatMap fun k =>
          let b := po + 8 + 16 * moves + 128 * k
          let d := sliceB l b 128
          let t := parseDesc d
          (descShape d (fun v => v = 1 || v = 2) ++ descAlign t ++ descRange t ++ badIf (!t.ro && (aliasAt t).isSome) 52 ++
            badIf (t.space = 1 && leAt l 16 4 < t.rangeBase + t.rangeBytes) 16).map (b + ·))
      else []))

/-- The recipe that a chain builds. -/
def chainRecipe (s : State) (p id pasid : Nat) (l : List Byte) (fixed : Bool) : Recipe :=
  let n := leAt l 4 1
  let st := (List.range n).map (linkStage s p l)
  let ms := if leAt l 12 4 = 0 then 30000 else leAt l 12 4
  { part := p, id := id, policy := 0, strict := false, repro := 0, targetRate := leAt l 8 4, budgetMult := 8,
    hardTo := Nat.min 120 (Nat.max 1 (ceilDiv ms 1000)), outBytes := leAt l 16 4,
    contexts := if st.any (·.template = 1) then 2 else 0, inflight := 512, calTable := 0, calN := 0, stages := st,
    progBytes := 0, cal := none, fixedCost := fixed, readsVolatile := false, pasid := pasid, recent := st.map fun _ => [],
    fLive := st.map fun _ => (1, 1) }

/-- Whether link j packs and its first descriptor is not aligned as OUT_OFF must be (Table 5.2). -/
def packOutOff (l : List Byte) (j : Nat) : Bool :=
  let po := leAt l (32 + 32 * j + 8) 4
  leAt l (32 + 32 * j) 1 = 6 && (po + 8 + 16 * leAt l po 1) % 64 ≠ 0

/-- Step 4 of Table 5.9: what a built recipe can still break of Tables 5.1 to 5.3, by chain offset. -/
def builtBad (l : List Byte) (r : Recipe) : Option Nat :=
  leastOf (badIf (r.targetRate = 0 || 10000000 < r.targetRate) 8 ++
    ((List.range r.stages.length).flatMap fun j => badIf (4096 < leAt l (32 + 32 * j + 12) 4) (32 + 32 * j + 12)) ++
    ((List.range r.stages.length).flatMap fun j => badIf (leAt l (32 + 32 * j + 8) 4 % 8 ≠ 0) (32 + 32 * j + 8)) ++
    (if r.stages.any (fun st => 3072 < st.threads) || (List.range r.stages.length).any (packOutOff l) then [0] else []))

/-- Steps 2 to 4 of Table 5.9 on a chain read. -/
def checkChain (s : State) (x : Cmd) (l : List Byte) (id : Nat) : State :=
  if id = 0 ∨ id = 0xFFFFFFFF then complete s x (range 0x10)
  else if (recipeOf s x.part id).isSome then complete s x denied
  else match chainBad s x.part l with
  | some o => complete s x (recipeRange 3 o)
  | none => match builtBad l (chainRecipe s x.part id (qSpace s x.q) l (xopBits x 0 0 0 = 1)) with
    | some o => complete s x (recipeRange 4 o)
    | none => loadChecked s x (chainRecipe s x.part id (qSpace s x.q) l (xopBits x 0 0 0 = 1))

/-- FUSED_CHAIN. -/
def execFusedChain (c : Nat) (s : State) : Out :=
  .next (withHost s c 0x08 fun s x =>
    withImage s x (opBits x 1 31 0) fun s l => checkChain s x l (opBits x 1 63 32))

/-! ### CALIBRATE (R174 to R177) -/

/-- CALIBRATE: the calibration table is read and the run begins. CAL_TABLE 0, which Table 5.1 gives for no table, beside a
CAL_N above 0 is read as host address 0 (DESIGN CHOICE, log entry 64). -/
def execCalibrate (c : Nat) (s : State) : Out :=
  .next (withHost s c 0x07 fun s x =>
    match recipeOf s x.part (opBits x 0 31 0) with
    | none => complete s x (range 8)
    | some r =>
      let want := opBits x 1 15 0
      if want = 0 ∨ r.calN < want ∨ r.calN = 0 then complete s x (range 16)
      else
        let key := hostKey (qSpace s x.q) r.calTable
        let n := 16 * r.calN
        if faulty s key n then complete s x (partialR (okBytes s key n))
        else
          let l := hostBytes s key n
          let table := (List.range r.calN).map fun i =>
            (leAt l (16 * i) 4, leAt l (16 * i + 4) 5, !zeroBytes l (16 * i + 9) (16 * i + 16))
          startCmd { readReturned s x.part n with calRuns := s.calRuns ++ [⟨c, x.part, r.id, want, 0, 0, table,
            xopBits x 0 15 0, op64 x 2, [], false, 0, none⟩] } c)

/-- The mean of a list of costs. -/
def meanOf (l : List Nat) : Nat := if l.isEmpty then 0 else l.foldl (· + ·) 0 / l.length

/-- A calibration record's bytes (Table 5.6). -/
def calBytes (id : Nat) (stages : Nat) (r : CalRec) : List Byte :=
  let l := toLe 4 id ++ toLe 1 stages ++ toLe 1 (if r.lanes14 then 1 else 0) ++ toLe 2 r.samples ++ toLe 2 r.ctx.act.toNat ++
    toLe 2 r.ctx.memu.toNat ++ toLe 2 r.ctx.vcore.toNat ++ toLe 1 r.ctx.tj.toNat ++ toLe 1 0 ++ toLe 4 r.ctx.pace.toNat ++ toLe 44 0 ++
    ((List.range 16).flatMap fun i => let v := r.cost.getD i (0, 0); toLe 4 v.1 ++ toLe 4 v.2) ++ toLe 60 0
  l ++ toLe 4 (crc32c l)

/-- Ends a calibration run: what its samples hold goes. -/
def endCal (s : State) (c : Nat) : State :=
  let s := ((s.samples.filter fun y => y.from_ = .calibration c).map (·.h)).foldl removeSample s
  { s with calRuns := s.calRuns.filter fun r => r.cmd ≠ c }

/-- CALIBRATE_DONE (R176, R177): the run ends when a source failed or a sample timed out, when too many samples are
damaged, or when enough are measured; m is the load measured over the run. -/
def execCalibrateDone (c : Nat) (m : LoadContext) (s : State) : Out :=
  .next (withStarted s c 0x07 fun s x =>
    match s.calRuns.find? fun r => r.cmd = c with
    | none => s
    | some run =>
      let live := s.samples.any fun y => y.from_ = .calibration c
      match run.failed with
      | some f => complete (endCal s c) x ⟨f.1, f.2.1, f.2.2, 0, false⟩
      | none =>
        if run.want / 4 < run.damaged ∨ (run.table.length ≤ run.next ∧ !live ∧ run.measured.length < run.want) then
          complete (endCal s c) x ⟨0x07, run.cause, run.next, 0, false⟩
        else if run.want ≤ run.measured.length then
          match recipeOf s x.part run.recipe with
          | none => s
          | some r =>
            let l := run.measured.take run.want
            let costs := (List.range r.stages.length).map fun g =>
              (meanOf (l.map fun v => (v.getD g (0, 0)).1), meanOf (l.map fun v => (v.getD g (0, 0)).2))
            let rec_ : CalRec := ⟨run.want, run.lanes14, m, costs⟩
            let key := hostKey (qSpace s x.q) run.recAddr
            let s := endCal s c
            if faulty s key 256 then
              let n := okBytes s key 256
              complete (hostWrite s x.part key ((calBytes run.recipe r.stages.length rec_).take n)) x (partialR n)
            else
              let s := hostWrite s x.part key (calBytes run.recipe r.stages.length rec_)
              let mine (y : Recipe) : Bool := y.part = x.part && y.id = run.recipe
              let s := { s with recipes := updIf mine (fun y => { y with cal := some rec_ }) s.recipes }
              complete s x (okWith run.want)
        else s)

/-! ### Live factors and pace -/

/-- f_live of a stage from its last 256 costs (R181): 1 while fewer have completed or the base cost is 0, else the mean
over the base, held to 1 to 8. -/
def liveOf (recent : List Nat) (base : Nat) : Nat × Nat :=
  let n := recent.length
  let sum := recent.foldl (· + ·) 0
  if n < 256 ∨ base = 0 then (1, 1)
  else if sum < n * base then (1, 1) else if 8 * (n * base) < sum then (8, 1) else (sum, n * base)

/-- F_LIVE_RECOMPUTE (R180, R181): every recipe's factors, with the present memory utilisation u in 0.1 % and active tile
fraction a in 1/1,024. An epoch's CAL_STALE follows (R183). -/
def execFLiveRecompute (u a : Nat) (s : State) : Out :=
  .next (if !alive s then s else
    let s := { s with memU := u, act := a }
    let live (r : Recipe) : List (Nat × Nat) := r.stages.zipIdx.map fun (st, g) =>
      let c := ((r.cal.map (·.cost)).getD []).getD g (0, 0)
      liveOf (r.recent.getD g []) (if r.fixedCost || r.cal.isNone then (if st.template = 9 then st.declDu else st.declCost) else c.1 + c.2)
    let s := { s with recipes := s.recipes.map fun r => { r with fLive := live r } }
    let stale (e : Epoch) : Bool := e.staleIn && (recipeOf s e.part e.recipe).any (calStale s)
    { s with epochs := s.epochs.map fun e => { e with calStale := stale e } })

/-- Tile-events that a stage of a sample is charged, v of them while the vector unit was the busy unit of a tile with or without
all of its lanes (R173). -/
def chargeStage (x : Sample) (g n v : Nat) (full : Bool) : Sample :=
  { x with
    charged := x.charged + n
    stageCharged := modAt x.stageCharged g (· + n)
    stageVec := modAt x.stageVec g fun e => if full then (e.1 + v, e.2) else (e.1, e.2 + v) }

end Sys2Proof.Machine
end

