-- ==== Sys2Proof/Machine/Numeric.lean ====
section
/-!
DEFINITION. The values of elements of every type, and conversion to every type: rounding, overflow, special sources and
MX blocks (R392 to R394, R437 to R439, R444 to R447, Tables 12.1, 13.1, 13.2).
-/

namespace Sys2Proof.Machine

/-! ### Values of elements -/

/-- Bits of an element as a value, in a format whose top exponent is an ordinary one. -/
def fpFin (ew fw : Nat) (bias : Int) (x : Nat) : Fp :=
  let neg := bitN x (ew + fw)
  let e := x / 2 ^ fw % 2 ^ ew
  let m := x % 2 ^ fw
  if e = 0 then .fin neg m (1 - bias - fw) else .fin neg (m + 2 ^ fw) (e - bias - fw)

/-- A two's-complement number of w bits. -/
def signedOf (w x : Nat) : Int := if x < 2 ^ (w - 1) then x else (x : Int) - 2 ^ w

/-- The value of an element's bits, without a scale (Tables 12.1, 13.1). -/
def elemValue (t x : Nat) : Fp :=
  if t = 1 ∨ t = 9 then Fp.ofInt x
  else if t = 2 then Fp.ofInt (signedOf 8 x)
  else if t = 8 then Fp.ofInt (signedOf 4 x)
  else if t = 3 ∨ t = 0x0A then if x % 128 = 127 then .nan else fpFin 4 3 7 x
  else if t = 4 ∨ t = 0x0B then fpOf ⟨5, 2, 15⟩ x
  else if t = 5 then fpOf bf16 x
  else if t = 6 then fpOf fp16 x
  else if t = 7 then fpOf fp32 x
  else if t = 0x0C then fpFin 3 2 3 x
  else if t = 0x0D then fpFin 2 3 1 x
  else fpFin 2 1 1 x

/-- A value times 2^k. -/
def Fp.scale : Fp → Int → Fp
  | .fin n m e, k => .fin n m (e + k)
  | v, _ => v

/-- An MX element under its scale byte (R438). -/
def scaled (v : Nat) (x : Fp) : Fp := if v = 255 then .nan else x.scale (v - 127 : Int)

/-- Element j of a row's packed bits (R393, R433). -/
def bitsAt (row : List Byte) (b j : Nat) : Nat := leAt row (j * b / 8) 5 / 2 ^ (j * b % 8) % 2 ^ b

/-- The value of element j of a row of l elements (R433, R438). -/
def rowValue (t l : Nat) (row : List Byte) (j : Nat) : Fp :=
  let b := etypeBits t
  let x := elemValue t (bitsAt row b j)
  if etypeMx t then scaled (leAt row (ceilDiv (l * b) 8 + j / 32) 1) x else x

/-! ### Conversion (R444, R445) -/

/-- A magnitude p / q rounded to an integer: 0 nearest even, 1 toward zero, 2 stochastic under the 8 bits u. -/
def roundMag (mode u p q : Nat) : Nat :=
  let n := p / q
  let r := p % q
  if mode = 0 then rneQ p q else if mode = 1 then n else if u < r * 256 / q then n + 1 else n

/-- Exponent bits, fraction bits, bias and greatest finite encoding of a floating type. -/
def floatOf (t : Nat) : Fmt × Nat :=
  if t = 3 ∨ t = 0x0A then (⟨4, 3, 7⟩, 0x7E)
  else if t = 4 ∨ t = 0x0B then (⟨5, 2, 15⟩, 0x7B)
  else if t = 5 then (bf16, 0x7F7F)
  else if t = 6 then (fp16, 0x7BFF)
  else if t = 7 then (fp32, 0x7F7FFFFF)
  else if t = 0x0C then (⟨3, 2, 3⟩, 0x1F)
  else if t = 0x0D then (⟨2, 3, 1⟩, 0x1F)
  else (⟨2, 1, 1⟩, 0x7)

/-- Encoding of +Inf where the type has one. -/
def infOf (t : Nat) : Option Nat :=
  if t = 4 ∨ t = 0x0B then some 0x7C else if t = 5 then some 0x7F80 else if t = 6 then some 0x7C00
  else if t = 7 then some 0x7F800000 else none

/-- The canonical NaN of a floating type. -/
def nanOf (t : Nat) : Nat :=
  if t = 3 ∨ t = 0x0A then 0x7F else if t = 4 ∨ t = 0x0B then 0x7E else if t = 5 then 0x7FC0 else if t = 6 then 0x7E00
  else 0x7FC00000

def intType (t : Nat) : Bool := t ∈ [1, 2, 8, 9]
/-- Ends of an integer type's range. -/
def intRange (t : Nat) : Int × Int :=
  if t = 1 then (0, 255) else if t = 2 then (-128, 127) else if t = 8 then (-8, 7) else (0, 15)

/-- Bits of a value in an integer type: rounded, then held to the range. -/
def toIntType (t mode u : Nat) (x : Fp) : Nat :=
  let (lo, hi) := intRange t
  let v : Int := match x with
    | .nan => 0
    | .inf neg => if neg then lo else hi
    | .fin neg m e =>
      let (p, q) := fracOf m e
      let n : Int := roundMag mode u p q
      clampI lo hi (if neg then -n else n)
  (v % 2 ^ etypeBits t).toNat

/-- Bits of a value in a floating type (Table 13.2). MXFP6 and MXFP4 elements always saturate. -/
def toFloatType (t mode : Nat) (nosat : Bool) (u : Nat) (x : Fp) : Nat :=
  let (f, top) := floatOf t
  let sign (neg : Bool) : Nat := if neg then 2 ^ (f.ew + f.fw) else 0
  let small := 0x0C ≤ t
  match x with
  | .nan => nanOf t
  | .inf neg =>
    if !nosat || small then sign neg + top
    else match infOf t with | some i => sign neg + i | none => nanOf t
  | .fin neg m e =>
    if m = 0 then sign neg
    else
      let (p, q) := fracOf m e
      let k := ulpExp f p q
      let (a, b) := scaleQ p q k
      let w : Int := (k + f.fw + f.bias - 1) * 2 ^ f.fw + roundMag mode u a b
      if w ≤ top then sign neg + w.toNat
      else if !nosat || small || mode = 1 then sign neg + top
      else match infOf t with | some i => sign neg + i | none => nanOf t

/-- Bits of a value in a type that is not MX. -/
def convertTo (t mode : Nat) (nosat : Bool) (u : Nat) (x : Fp) : Nat :=
  if intType t then toIntType t mode u x else toFloatType t mode nosat u x

/-! ### MX blocks (R447) -/

/-- E of the element's type. -/
def mxE (t : Nat) : Int := if t = 0x0A then 8 else if t = 0x0B then 15 else if t = 0x0C then 4 else 2

/-- floor(log2 |x|) of a finite value other than 0. -/
def Fp.log2 : Fp → Option Int
  | .fin _ m e => if m = 0 then none else some ((Nat.log2 m : Int) + e)
  | _ => none

def Fp.isFin : Fp → Bool
  | .fin _ _ _ => true
  | _ => false

def Fp.isNeg : Fp → Bool
  | .fin n _ _ => n
  | .inf n => n
  | .nan => false

/-- The scale byte and the elements' bits of a block. `u` gives an element's random bits. A scale above 254, which no rule
resolves, is a free value of the block's elements (log entries 4, 20). -/
def mxBlock (t mode : Nat) (u : Nat → Nat) (xs : List Fp) : Nat × List Nat :=
  if xs.any fun x => !x.isFin then (255, xs.map fun _ => 0)
  else
    match (xs.filterMap Fp.log2).foldl (fun (a : Option Int) x => match a with | none => some x | some y => some (max x y)) none with
    | none => (127, xs.map fun x => if x.isNeg then 2 ^ (etypeBits t - 1) else 0)
    | some l =>
      let v := (max 0 (l - mxE t + 127)).toNat
      let v := if 254 < v then (Config.contentWord 7 (t :: xs.map fun x => (toFp32 x).toNat)).toNat % 256 else v
      (v, xs.zipIdx.map fun (x, i) => toFloatType t mode false (u i) (x.scale (127 - v : Int)))

/-! ### Rows -/

/-- Splits a list into pieces of n. -/
def chunksBy {α : Type} (n : Nat) (l : List α) : List (List α) :=
  (List.range (ceilDiv l.length (Nat.max 1 n))).map fun i => (l.drop (i * Nat.max 1 n)).take (Nat.max 1 n)

/-- Bytes of elements of b bits, packed from bit 0 on. -/
def packBits (b : Nat) (l : List Nat) : List Byte :=
  toLe (ceilDiv (l.length * b) 8) ((l.zipIdx).foldl (fun a (x, j) => a + x % 2 ^ b * 2 ^ (j * b)) 0)

/-- The bytes of a row of values in a type, its scales behind its elements; `u` gives element j's random bits. -/
def rowBytes (t mode : Nat) (nosat : Bool) (u : Nat → Nat) (xs : List Fp) : List Byte :=
  if etypeMx t then
    let bs := (chunksBy 32 xs).zipIdx.map fun (c, g) => mxBlock t mode (fun i => u (32 * g + i)) c
    packBits (etypeBits t) (bs.flatMap (·.2)) ++ bs.map fun b => BitVec.ofNat 8 b.1
  else packBits (etypeBits t) (xs.zipIdx.map fun (x, j) => convertTo t mode nosat (u j) x)

end Sys2Proof.Machine
end

