-- ==== Sys2Proof/Machine/Memory.lean ====
section
/-!
DEFINITION. Block memory as its ports hold it: where a buffer's lines lie, what the line code reports when a holder reads
them, and the commands of the memory ports and the pool agents (R61 to R64, R541 to R557, R603, R604, R613).
-/

namespace Sys2Proof.Machine

/-! ### Lines (R541, R542, R548) -/

def setSuper (s : State) (d sb : Nat) (f : Superblock → Superblock) : State :=
  { s with superblocks := updIf (fun x => x.die = d && x.idx = sb) f s.superblocks }

/-- A corrected line: it is written back, counted, and raised as DRAM_CE (R548, R549). -/
def ceLine (s : State) (a : LineAt) (forced : Bool) : State :=
  let s := bump (setW1c s 0x4010 0 0x4014) (dieBase a.die + 0x400C)
  let key := a.die * 4096 + a.sb
  let n := look (fun _ => 0) s.sbCorrected key + 1
  let s := { s with sbCorrected := put (fun _ => 0) key n s.sbCorrected }
  let s := setSuper s a.die a.sb fun x => { x with marked := x.marked || fld s 0x400C 15 0 ≤ n }
  raise s ⟨1, forced, a.die, none, 4, a.port⟩

/-- An uncorrectable line read by partition p's holder, raised as DRAM_UE; a real one marks its superblock for
retirement (R548, R549, R604). -/
def ueLine (s : State) (a : LineAt) (p : Nat) (forced : Bool) : State :=
  let s := bump (setW1c s 0x4010 1 0x4018) (dieBase a.die + 0x4010)
  let s := setReg s 0x4024 (BitVec.ofNat 32 (a.die * 2 ^ 30 + a.port % 4 * 2 ^ 28 + p * 2 ^ 24 + a.sb))
  let s := setReg s 0x4028 (BitVec.ofNat 32 a.line)
  let s := if forced then s else setSuper s a.die a.sb fun x => { x with marked := true }
  raise s ⟨2, forced, a.die, some p, 4, a.port⟩

/-- What the line code makes of a line (R63, R548). -/
inductive LineOutcome where
  /-- a codeword: nothing to see -/
  | clean
  | corrected
  /-- corrected to a codeword that is not the one stored -/
  | miscorrected
  | uncorrectable
  deriving DecidableEq, Repr

/-- Bytes in error that POOL_CTRL.ECC_MODE corrects: 2, 1 or none (R548). -/
def eccReach (mode : Nat) : Nat := 2 - mode

/-- The decoder under ECC_MODE. No two codewords lie fewer than five bytes apart, so a line that differs from its own by
`bad` bytes lies at least 5 - bad from any other (R63). -/
def lineOutcome (mode : Nat) (r : LineRead) : LineOutcome :=
  let other := Nat.max r.other (5 - r.bad)
  if r.bad = 0 then .clean
  else if r.bad ≤ eccReach mode then .corrected
  else if other = 0 then .clean
  else if other ≤ eccReach mode then .miscorrected
  else .uncorrectable

/-- Buffers that hold a line, with the offset of the line in each. -/
def lineHolders (s : State) (d sb line : Nat) : List (Nat × Nat) :=
  s.bufs.filterMap fun b => ((List.range (bufSize b / 64)).find? fun i =>
    let a := lineAt s b (64 * i)
    a.die = d && a.sb = sb && a.line = line).map fun i => (b.handle, 64 * i)

/-- The bytes of a line that was corrected to another codeword. -/
def garbage (n : Nat) : List Byte := (List.range 64).map (Config.lineByte n)

/-- Bytes of an object, 64 of which from off on were corrected to another codeword. -/
def garbled (n off : Nat) (l : List Byte) : List Byte :=
  l.zipIdx.map fun (b, i) => if off ≤ i && i < off + 64 then Config.lineByte n (i - off) else b

/-- The offset within an object, held in buffers one after another, of byte o of buffer h. -/
def offsetIn (s : State) (h o : Nat) : List Nat → Option Nat
  | [] => none
  | b :: bs => if b = h then some o else (offsetIn s h o bs).map (· + ((bufOf s b).map bufSize).getD 0)

/-- A line at byte o of buffer h now holds another codeword: what lies in that buffer for a staging area, a cache entry, a
transcoded copy, a spill, a model or a dictionary changes with it. A spill's bytes change where RESTORE reads that copy, all
of them where they are coded. -/
def garbleObjects (s : State) (h o : Nat) : State :=
  let n := s.freeCtr
  let at_ (l : List Nat) : Option Nat := offsetIn s h o l
  let copyAt (l : List (Nat × List Nat)) : List (Nat × Nat × Nat) := l.filterMap fun c => (at_ c.2).map fun i => (c.1, i, n)
  { s with
    samples := s.samples.map fun x => match at_ x.stagingBufs with
      | some i => { x with staging := putAll zero i (garbage n) x.staging }
      | none => x
    cache := s.cache.map fun c => match at_ c.bufs with
      | some i => { c with data := garbled n i c.data }
      | none => c
    copies := s.copies.map fun c => match at_ c.bufs with
      | some i => { c with data := garbled n i c.data }
      | none => c
    spills := s.spills.map fun x => match (x.copies.head?).bind fun c => at_ c.bufs with
      | some i => { x with data := if x.codec = 0 then garbled n i x.data
                                   else x.data.zipIdx.map fun (_, j) => Config.lineByte n j }
      | none => x
    models := s.models.map fun m => { m with garbled := m.garbled ++ copyAt m.copies }
    dicts := s.dicts.map fun m => { m with garbled := m.garbled ++ copyAt m.copies } }

/-- A line now holds another codeword than the one stored: its 64 bytes are whatever that decrypts to (R548, log entry
54). -/
def garbleLine (s : State) (d sb line : Nat) : State :=
  let s := (lineHolders s d sb line).foldl (fun s (h, o) => garbleObjects (setBuf s h fun b =>
    { b with data := putAll zero o (garbage s.freeCtr) b.data }) h o) s
  { s with freeCtr := s.freeCtr + 1 }

/-- Whether a one-shot force bit is armed on a target (R603). -/
def armed (s : State) (i target : Nat) : Bool := fld s 0x1010 i i = 1 && fld s (0x1020 + 4 * i) 7 0 = target

/-- The bit clears as it injects. -/
def disarm (s : State) (i : Nat) : State := setFld s 0x1010 i i 0

/-- How a line marked by the scrub is read, if it is. -/
def markedLine (s : State) (a : LineAt) : Option LineRead :=
  (s.superblocks.find? fun x => x.die = a.die && x.idx = a.sb).bind fun x =>
    (x.badLines.find? fun y => y.1 = a.line).map (·.2)

/-- A line that was marked has been corrected and written back. -/
def unmarkLine (s : State) (a : LineAt) : State :=
  setSuper s a.die a.sb fun x => { x with badLines := x.badLines.filter fun y => y.1 ≠ a.line }

/-- One line read for a holder, under the ECC_MODE now in force: true when it is uncorrectable. -/
def readLine (s : State) (a : LineAt) (p : Nat) : State × Bool :=
  let s := if armed s 1 a.port then ceLine (disarm s 1) a true else s
  if armed s 0 a.port then (ueLine (disarm s 0) a p true, true)
  else match (markedLine s a).map (lineOutcome (fld s 0x4000 2 1)) with
    | some .uncorrectable => (ueLine s a p false, true)
    | some .corrected => (ceLine (unmarkLine s a) a false, false)
    | some .miscorrected => (ceLine (garbleLine (unmarkLine s a) a.die a.sb a.line) a false, false)
    | _ => (s, false)

/-- Bytes [off, off + n) of a buffer read for its holder: true when a line is uncorrectable. Clean granules read no line
(R557); the ports count those read (R626). -/
def readLines (s : State) (h off n : Nat) : State × Bool :=
  match bufOf s h with
  | none => (s, false)
  | some b =>
    let s := countLines s b b.dirty.contains off n
    if n = 0 || !(fld s 0x1010 1 0 ≠ 0 || s.superblocks.any fun x => !x.badLines.isEmpty) then (s, false)
    else
      (List.range ((off + n - 1) / 64 + 1 - off / 64)).foldl (fun (a : State × Bool) i =>
        let o := (off / 64 + i) * 64
        if a.2 || !b.dirty.contains (o / 4096) then a else readLine a.1 (lineAt a.1 b o) b.part) (s, false)

/-- A write of bytes [off, off + n) of a buffer: a first and a last line that it fills only in part are read first, like
any other read (R547). True when one of them is uncorrectable. -/
def mergeLine (s : State) (h off n : Nat) : State × Bool :=
  if n = 0 then (s, false)
  else
    let one (a : State × Bool) (o : Nat) : State × Bool :=
      if a.2 then a else readLines a.1 h (o / 64 * 64) 1
    let a := if off % 64 ≠ 0 then one (s, false) off else (s, false)
    if (off + n) % 64 ≠ 0 ∧ (off % 64 = 0 ∨ off / 64 ≠ (off + n) / 64) then one a (off + n) else a

/-- Whether a port that a read or a write of bytes [off, off + n) of a buffer goes to issues no requests now; a read of a
clean granule goes to none (R64, R557). -/
def pausedFor (s : State) (write : Bool) (h off n : Nat) : Bool :=
  match bufOf s h with
  | none => false
  | some b => s.mpPaused ≠ 0 && (granules off n).any fun g =>
      (write || b.dirty.contains g) && s.mpPaused.getLsbD (lineAt s b (g * 4096)).port

def pausedAt (s : State) (h off n : Nat) : Bool := pausedFor s false h off n

/-- The same for bytes [off, off + n) of an object held in buffers, one after another. -/
def objectPaused (s : State) (write : Bool) (off n : Nat) : List Nat → Bool
  | [] => false
  | h :: hs =>
    let sz := ((bufOf s h).map bufSize).getD 0
    if off < sz then pausedFor s write h off (Nat.min n (sz - off)) || objectPaused s write 0 (n - (sz - off)) hs
    else objectPaused s write (off - sz) n hs

/-- Whether die d can write bytes [off, off + n) of a buffer now (R14, R64). -/
def bufOpen (s : State) (d h off n : Nat) : Bool := !pausedFor s true h off n && !routeHeld s d (hDie h)

/-- Bytes [off, off + n) of an object held in buffers one after another are read through their lines: true when one is
uncorrectable. -/
def readObject (s : State) (off n : Nat) : List Nat → State × Bool
  | [] => (s, false)
  | h :: hs =>
    let sz := ((bufOf s h).map bufSize).getD 0
    if n = 0 then (s, false)
    else if off < sz then
      match readLines s h off (Nat.min n (sz - off)) with
      | (s, true) => (s, true)
      | (s, false) => readObject s 0 (n - (sz - off)) hs
    else readObject s (off - sz) n hs

/-- Clears the uncorrectable lines under bytes [off, off + n) of an object: they have been written again. -/
def repairLines (s : State) (off n : Nat) : List Nat → State
  | [] => s
  | h :: hs =>
    match bufOf s h with
    | none => repairLines s off n hs
    | some b =>
      let m := Nat.min n (bufSize b - off)
      let s := (List.range (if off < bufSize b then (off + m - 1) / 64 + 1 - off / 64 else 0)).foldl (fun s i =>
        unmarkLine s (lineAt s b ((off / 64 + i) * 64))) s
      if off < bufSize b then repairLines s 0 (n - m) hs else repairLines s (off - bufSize b) n hs

/-- Reads bytes of die d's copy of an object; what it cannot read there it repairs from the lowest-numbered other die in service
that holds them sound. False when there is none (R471, Table 16.1). -/
def soundObject (s : State) (copies : List (Nat × List Nat)) (d off n : Nat) : State × Bool :=
  match copies.find? (·.1 = d) with
  | none => (s, false)
  | some e =>
    match readObject s off n e.2 with
    | (s, false) => (s, true)
    | (s, true) =>
      let others := (List.range 4).filterMap fun x => if x = d || dieLost s x then none else copies.find? (·.1 = x)
      let r := others.foldl (fun (a : State × Bool) c =>
        if a.2 then a else let b := readObject a.1 off n c.2; (b.1, !b.2)) (s, false)
      (if r.2 then repairLines r.1 off n e.2 else r.1, r.2)

/-- A write of bytes [off, off + n) of such an object reads the lines that it fills only in part (R547). -/
def mergeObject (s : State) (off n : Nat) : List Nat → State × Bool
  | [] => (s, false)
  | h :: hs =>
    let sz := ((bufOf s h).map bufSize).getD 0
    if n = 0 then (s, false)
    else if off < sz then
      match mergeLine s h off (Nat.min n (sz - off)) with
      | (s, true) => (s, true)
      | (s, false) => mergeObject s 0 (n - (sz - off)) hs
    else mergeObject s (off - sz) n hs

/-- A sample's buffer had an uncorrectable line: it runs again from its first stage, and leaves its batch at the second
one (Table 16.1). -/
def sampleUe (s : State) (h : Nat) : State :=
  match sampleOf s h with
  | none => s
  | some x =>
    let s := setSample s h fun y => { y with ueCount := y.ueCount + 1 }
    if x.ueCount = 0 then restartSample s h else dropFinished s h 1 0 0 0

/-! ### Memory ports -/

/-- The DEGRADED event when BLK_STATUS.DEGRADED or DIE_LOST has changed since `was` (R618). -/
def degradedEvent (was : State) (s : State) : State :=
  if blkStatus was / 4 % 2 ≠ blkStatus s / 4 % 2 ∨ blkStatus was / 16 ≠ blkStatus s / 16 then postAll s 6 (blkStatus s) else s

/-- MEMORY_TRAINING (R61, R62): a port that fails is disabled; a die without a port is lost. -/
def execMemoryTraining (trained : BitVec 16) (s : State) : Out :=
  .next (if !alive s || s.boot.memDone then s
    else
      let up := BitVec.ofNat 16 (maskOf 16 fun m => trained.getLsbD m && !mpLost s m)
      let t : State := { s with mpUp := up, boot := { s.boot with memDone := true }, scrubRun := true }
      (unreachable t).foldl (fun t d => takeOut t 3 d) (degradedEvent s t))

/-- DRAM_TEMP_READ (R64): while the device is out of range the port issues nothing; the report that begins it is raised. -/
def execDramTempRead (mp : Fin 16) (inRange : Bool) (s : State) : Out :=
  .next (if !alive s || !mpServes s mp then s
    else if inRange then { s with mpPaused := s.mpPaused &&& ~~~(BitVec.twoPow 16 mp) }
    else if s.mpPaused.getLsbD mp then s
    else raise { s with mpPaused := s.mpPaused ||| BitVec.twoPow 16 mp } ⟨4, false, mp / 4, none, 4, mp⟩)

/-- A request timer of a unit expires (R613): the request is issued once more; when that expires too, the second result
is true. -/
def requestExpiry (s : State) (kind index die req : Nat) : State × Bool :=
  let s := raise s ⟨0x0F, false, die, none, kind, index⟩
  let r : Reissued := ⟨kind, index, req⟩
  if s.reissued.contains r then ({ s with reissued := s.reissued.filter (· ≠ r) }, true)
  else ({ s with reissued := s.reissued ++ [r] }, false)

/-- What a second expiry does beside the first one's effect. -/
def afterExpiry (r : State × Bool) (go : State → State) : State := if r.2 then go r.1 else r.1

/-- MEMORY_REQUEST_TIMEOUT (R613). -/
def execMemoryRequestTimeout (mp : Fin 16) (req : Nat) (s : State) : Out :=
  .next (if !alive s || !mpServes s mp then s
    else afterExpiry (requestExpiry s 4 mp (mp / 4) req) fun s => raise s ⟨3, false, mp / 4, none, 4, mp⟩)

/-! ### Superblocks and allocation -/

/-- SUPERBLOCK_RETIRE (R549): a marked superblock that holds no buffer. The rest of its block superblock is free
again. -/
def execSuperblockRetire (d : Fin 4) (sb : Nat) (s : State) : Out :=
  .next (match s.superblocks.find? fun x => x.die = d.val && x.idx = sb with
    | some x =>
      if alive s && x.marked && !x.retired && !s.bufs.any (inSuper x) then
        setW1c (sweep (setSuper s d sb fun x => { x with retired := true, group := none })) 0x4010 2 0x401C
      else s
    | none => s)

/-- PATROL_SCRUB (R548, R550): one line of an assigned superblock, decoded under ECC_MODE. -/
def execPatrolScrub (d : Fin 4) (sb line : Nat) (r : LineRead) (s : State) : Out :=
  .next (match s.superblocks.find? fun x => x.die = d.val && x.idx = sb with
    | some x =>
      if !alive s || x.retired || 1048576 ≤ line then s
      else
        let port := 4 * d.val + portIn x (line / 64)
        if s.mpPaused.getLsbD port then s
        else
          let a : LineAt := ⟨d, sb, line, port⟩
          match lineOutcome (fld s 0x4000 2 1) r with
          | .clean => s
          | .corrected => ceLine (unmarkLine s a) a false
          | .miscorrected => ceLine (garbleLine (unmarkLine s a) d sb line) a false
          | .uncorrectable => setSuper s d sb fun x =>
              { x with marked := true, badLines := (x.badLines.filter fun y => y.1 ≠ line) ++ [(line, r)] }
    | none => s)

/-- The first waiting allocation that has room, with the buffer it takes. -/
def resumable (s : State) : Option (AllocWait × State × Nat) :=
  s.allocWaits.findSome? fun w =>
    match threadOf s w.th with
    | none => none
    | some t =>
      match sampleOf s t.sample with
      | none => none
      | some x =>
        let own : Owner := .stage x.recipe t.stage
        (if 1 < w.n then allocLarge s t.part own (thDie w.th) w.n else alloc s t.part own (thDie w.th) w.cls).map
          fun (s', h) => (w, s', h)

/-- A BALLOC ends: the thread has its handle and goes on. -/
def takeBuffer (s : State) (th : ThreadRef) (dreg h : Nat) : State :=
  match threadOf s th with
  | none => s
  | some t =>
    let s := setSample s t.sample fun x => { x with held := x.held ++ [(t.stage + 16 * t.partNo, h)] }
    setThread s th fun t => { t with state := 1, pc := t.pc + 8, s := put zero dreg (BitVec.ofNat 32 h) t.s }

/-- ALLOCATION_RESUME (R555). -/
def execAllocationResume (s : State) : Out :=
  .next (if !alive s then s
    else match resumable s with
      | some (w, s, h) => takeBuffer { s with allocWaits := s.allocWaits.filter (· ≠ w) } w.th w.dreg h
      | none => s)

end Sys2Proof.Machine
end

