-- ==== Sys2Proof/Machine/Threads.lean ====
section
/-!
DEFINITION. Threads of the Minuets: registers, guards, the spaces they load from and store to, tickets, program faults,
tokens, and the issue of one instruction (chapter 6).
-/

namespace Sys2Proof.Machine

/-! ### Registers (R194, R195, R205) -/

/-- s[r] -/
def rs (t : Thread) (r : Nat) : Word := look zero t.s r
/-- Writes s[r]. -/
def ws (t : Thread) (r : Nat) (v : Word) : Thread := { t with s := put zero r v t.s }
/-- Element i of v[r]. -/
def rv (t : Thread) (r i : Nat) : Word := look zero t.v (16 * r + i)
/-- Writes element i of v[r]. -/
def wv (t : Thread) (r i : Nat) (x : Word) : Thread := { t with v := put zero (16 * r + i) x t.v }
/-- p[r]; p0 reads 0xFFFF. -/
def rp (t : Thread) (r : Nat) : BitVec 16 := if r = 0 then 0xFFFF else look zero t.p r
/-- Writes p[r]; p0 takes no write. -/
def wp (t : Thread) (r : Nat) (x : BitVec 16) : Thread := if r = 0 then t else { t with p := put zero r x t.p }

/-- The guard of an instruction (R205). -/
def guard16 (t : Thread) (x : Orony) : BitVec 16 :=
  let g := rp t x.pred
  if x.pneg then ~~~g else g

/-- The next instruction follows. -/
def nextPc (t : Thread) : Thread := { t with pc := t.pc + 8 }

/-- Whether a thread may execute a class: the management Minuet has no vector, unit or lattice class, and only it has the
management class (R229, R236). -/
def classOk (th : ThreadRef) (c : Nat) : Bool :=
  match th with
  | .tile _ _ => c ≤ 8
  | .mgmt _ _ => c ∈ [0, 1, 3, 4, 7, 8, 9]

/-- The number of a Minuet: a tile's, or 96 + d for die d's management Minuet. -/
def minuetOf : ThreadRef → Nat
  | .tile t _ => t.val
  | .mgmt d _ => 96 + d.val

/-- The READY thread whose turn it is on a Minuet: the first in ascending number modulo 32 after the one that issued last;
thread 0 is first on a Minuet that has issued nothing (R198, log entry 19). -/
def turnOf (s : State) (m : Nat) : Option Nat :=
  let last := look (fun _ => 31) s.lastIssue m
  ((List.range 32).map fun i => (last + 1 + i) % 32).find? fun n =>
    s.threads.any fun t => minuetOf t.th = m && thNum t.th = n && t.state = 1 && !t.ending

/-- A tile's event counter takes n more (Table 18.10). -/
def tileEvent (s : State) (th : ThreadRef) (o n : Nat) : State :=
  match thTile th with
  | some t => bump64 s (tileBase t + 0x1000 + o) n
  | none => s

/-- A thread has issued an instruction: the turn passes on, and the instruction is counted (R198, Table 18.10). -/
def issued (s : State) (th : ThreadRef) : State :=
  tileEvent { s with lastIssue := put (fun _ => 31) (minuetOf th) (thNum th) s.lastIssue } th 0x008 1

/-- Issues an instruction of class c and operation op for the READY thread whose turn it is; f is its effect, the program
counter included (R198); one guarded by the complement of p0 never executes (R205). An instruction whose thread cannot
issue it changes nothing. -/
def issue (s : State) (c op : Nat) (x : Orony) (f : State → Thread → State) : State :=
  match threadOf s x.th with
  | some t =>
    if alive s && t.state = 1 && !t.ending && classOk x.th c && fieldsOk c op x && turnOf s (minuetOf x.th) = some (thNum x.th) then
      if x.pred = 0 && x.pneg then setThread (issued s x.th) x.th nextPc else f (issued s x.th) t
    else s
  | none => s

/-- The same for an instruction whose guard is bit 0: with that bit 0 it has no effect (R205). -/
def issueScalar (s : State) (c op : Nat) (x : Orony) (f : State → Thread → State) : State :=
  issue s c op x fun s t => if (guard16 t x).getLsbD 0 then f s t else setThread s x.th nextPc

def setThreadsIf (s : State) (p : Thread → Bool) (f : Thread → Thread) : State := { s with threads := updIf p f s.threads }
def setCal (s : State) (c : Nat) (f : CalRun → CalRun) : State := { s with calRuns := updIf (fun r => r.cmd = c) f s.calRuns }
def setRecipe (s : State) (p id : Nat) (f : Recipe → Recipe) : State :=
  { s with recipes := updIf (fun y => y.part = p && y.id = id) f s.recipes }

/-! ### Tokens (R160 to R165, R225, R478, R502) -/

/-- Stages whose parent is g. -/
def childrenOf (r : Recipe) (g : Nat) : List Nat := (List.range r.stages.length).filter fun c => (r.stages.map (·.parent)).getD c 0xFF = g && c ≠ 0

/-- A sample is finished when every leaf stage has published DONE or DAMAGED (R162, R502). -/
def leavesDone (r : Recipe) (x : Sample) : Bool :=
  (List.range r.stages.length).all fun g => !(childrenOf r g).isEmpty || x.tokens.getD g 0 = 1 || x.tokens.getD g 0 = 2

/-- One entry of the list goes. -/
def eraseHeld (l : List (Nat × Nat)) (e : Nat × Nat) : List (Nat × Nat) := l.erase e

/-- The buffers that stage g took are handed over: one reference for each child stage (R163, R218). -/
def handOver (s : State) (h g : Nat) (kids : List Nat) : State :=
  match sampleOf s h with
  | none => s
  | some x =>
    let mine := match x.handed.find? (·.1 = g) with
      | some l => l.2
      | none => ((x.held.filter fun y => y.1 = g).map (·.2)).eraseDups
    let s := setSample s h fun x =>
      { x with handed := x.handed.filter (·.1 ≠ g) ++ [(g, mine)]
               held := if kids.isEmpty then x.held
                 else mine.foldl (fun l b => eraseHeld l (g, b)) x.held ++ mine.flatMap fun b => kids.map fun c => (4096 + c, b) }
    mine.foldl (fun s b => setBuf s b fun u => { u with refs := if kids.isEmpty then u.refs else u.refs + kids.length - 1 }) s

/-- The references that stage g held as a child are released. -/
def releaseChild (s : State) (h g : Nat) : State :=
  match sampleOf s h with
  | none => s
  | some x =>
    let mine := (x.held.filter fun y => y.1 = 4096 + g).map (·.2)
    dropRefs (setSample s h fun x => { x with held := x.held.filter fun y => y.1 ≠ 4096 + g }) mine

/-- Whether a route change holds the token of stage g of a sample on its way to a thread (R14). -/
def tokenHeld (s : State) (h g : Nat) (th : ThreadRef) : Bool :=
  (sampleOf s h).any fun x => (x.tokenDies.find? (·.1 = g)).any fun e => routeHeld s e.2 (thDie th)

/-- Threads of the sample that wait for the token of stage g go on with its state (R198, R225). -/
def wakeToken (s : State) (h g st : Nat) : State :=
  setThreadsIf s (fun t => (thTile t.th).isSome && t.sample = h && t.state = 4 && t.waitOn = g && !tokenHeld s h g t.th)
    fun t => nextPc { ws t t.waitReg (BitVec.ofNat 32 st) with state := 1 }

/-- Unit and vector events of a stage's n events, v of them vector events on tiles with and without all lanes: those of a
14-lane tile count 7/8 (R173). -/
def costOf (n : Nat) (v : Nat × Nat) : Nat × Nat := (n - v.1 - v.2, v.1 + v.2 * 7 / 8)

/-- A calibration sample has gone through every stage (R174 to R177): a damaged one is left out; the costs of the others
are kept, a TOKENISE stage's in bytes. -/
def calFinished (s : State) (c : Nat) (x : Sample) : State :=
  if x.damaged then failCalibration s c x 1 x.cause 0 0
  else
    let du (g : Nat) : Bool := match recipeOf s x.part x.recipe with
      | some r => (r.stages.map (·.template)).getD g 0 = 9
      | none => false
    let costs := x.stageCharged.zipIdx.map fun (n, g) => if du g then (n, 0) else costOf n (x.stageVec.getD g (0, 0))
    let s := setCal s c fun r => { r with measured := r.measured ++ [costs] }
    removeSample s x.h

/-- A sample is ready (R502). -/
def sampleReady (s : State) (h : Nat) : State :=
  match sampleOf s h with
  | none => s
  | some x =>
    let s := bump64 s 0x6180 1
    match x.from_ with
    | .epoch q => settle (setSample s h fun x => { x with ready := true }) q
    | .calibration c => calFinished s c x

/-- The cost of a stage's last completed sample joins the last 256 (R181). -/
def noteCost (r : Recipe) (g n : Nat) : Recipe := { r with recent := modAt r.recent g fun l => (n :: l).take 256 }

/-- Tokens that a route change held reach the threads that wait for them (R14). -/
def wakeTokens (s : State) : State :=
  s.samples.foldl (fun s x => x.tokens.zipIdx.foldl (fun s (st, g) => if st = 0 then s else wakeToken s x.h g st) s) s

/-- The die that a stage's token comes from. -/
def tokenFrom (s : State) (t : Thread) : State :=
  setSample s t.sample fun x =>
    { x with tokenDies := x.tokenDies.filter (·.1 ≠ t.stage) ++ [(t.stage, thDie t.th)] }

/-- A stage publishes its token: DONE and DAMAGED hand its buffers on; DROPPED takes the sample out of its batch (R161). -/
def publishToken (s : State) (h g st : Nat) : State :=
  match sampleOf s h with
  | none => s
  | some x =>
    if x.tokens.getD g 0 ≠ 0 then s
    else if st = 3 then dropFinished s h 1 x.cause 0 0
    else
      match recipeOf s x.part x.recipe with
      | none => s
      | some r =>
        let s := setSample s h fun x => { x with tokens := modAt x.tokens g fun _ => st, damaged := x.damaged || st = 2 }
        let s := releaseChild (handOver s h g (childrenOf r g)) h g
        let s := wakeToken s h g st
        let s := setRecipe s x.part x.recipe fun y => noteCost y g (x.stageCharged.getD g 0)
        match sampleOf s h with
        | some y => if leavesDone r y && !y.ready then sampleReady s h else s
        | none => s

/-! ### Ends of threads (R227, R230, R478) -/

def outstanding (t : Thread) : List Ticket := t.tickets.filter fun k => !k.done

/-- A thread leaves its tile. -/
def freeThread (s : State) (th : ThreadRef) : State := stopThreads s fun t => t.th = th

/-- The template of a thread's stage and the parts of its model. -/
def encodeParts (s : State) (t : Thread) : Option Nat :=
  match (sampleOf s t.sample).bind fun x => recipeOf s x.part x.recipe with
  | some r =>
    match r.stages[t.stage]? with
    | some st => if st.template = 7 then (modelOf s t.part st.model0).map (·.parts) else none
    | none => none
  | none => none

/-- The most severe state of the parts that ended (R478). -/
def worstState (l : List Nat) : Nat := l.foldl Nat.max 1

/-- A thread that has ended publishes DONE for its stage unless it has published; an ENCODE stage publishes once every
part has ended. -/
def endPublish (s : State) (t : Thread) : State :=
  match encodeParts s t with
  | some n =>
    let s := setSample s t.sample fun x =>
      { x with partsEnded := x.partsEnded ++ [(t.stage, t.partNo, if t.published = 0 then 1 else t.published)] }
    match sampleOf s t.sample with
    | some x =>
      let l := x.partsEnded.filter (·.1 = t.stage)
      if n ≤ l.length then publishToken (tokenFrom s t) t.sample t.stage (worstState (l.map (·.2.2))) else s
    | none => s
  | none => if t.published = 0 then publishToken (tokenFrom s t) t.sample t.stage 1 else s

/-- The end of a thread that is ending, once it has no ticket left. -/
def finishThread (s : State) (t : Thread) : State :=
  match thTile t.th with
  | none => freeThread s t.th
  | some tile =>
    if t.fault = 0 then endPublish (freeThread s t.th) t
    else
      let s := recordPfault (freeThread s t.th) tile t
      dropFinished s t.sample 2 0 0 0

/-- A thread begins to end: it waits for its tickets, in WAIT_DMA whatever units they are of, since Table 6.1 has no state for
this wait (DESIGN CHOICE, log entry 57). -/
def beginEnd (s : State) (th : ThreadRef) : State :=
  match threadOf s th with
  | none => s
  | some t =>
    if (outstanding t).isEmpty then finishThread s t
    else setThread s th fun t => { t with ending := true, state := 2, waitOn := 0 }

/-- A program fault: the instruction has no effect and the thread stops (R230). `code` is the USER code. -/
def pfault (s : State) (th : ThreadRef) (reason code : Nat) : State :=
  beginEnd (setThread s th fun t => { t with fault := reason + 256 * code }) th

/-! ### Tickets (R199, R215, R219, R223) -/

/-- Takes a ticket into s[d] and goes on; with 64 outstanding the thread waits in WAIT_TICKET and the instruction
issues anew (R199). The ticket keeps the failure and the cause that its sample has noted for it (R290, R299). `f` is what the
instruction does at once. -/
def takeTicket (s : State) (th : ThreadRef) (d : Nat) (status : Nat) (write : Bool) (op : Option UnitOp)
    (f : State → Nat → State) : State :=
  match threadOf s th with
  | none => s
  | some t =>
    if 64 ≤ (outstanding t).length then setThread s th fun t => { t with state := 6 }
    else
      let n := t.nextTicket
      let y := sampleOf s t.sample
      f (setThread s th fun t => nextPc { ws t d (BitVec.ofNat 32 n) with
        nextTicket := n + 1, tickets := t.tickets ++
          [⟨n, status, false, write, op, (y.map (·.fail)).getD (0, 0), (y.map (·.cause)).getD 0⟩] }) n

/-- The status that a wait for every ticket returns: theirs when they agree, else that of one of them, which one is open
(Table 6.14, log entry 4). -/
def jointStatus (t : Thread) : Word :=
  match t.tickets with
  | [] => 0
  | k :: ks =>
    if ks.all fun x => x.status = k.status then BitVec.ofNat 32 k.status
    else
      let l := (k :: ks).map (·.status)
      BitVec.ofNat 32 (l.getD ((Config.contentWord 1 l).toNat % l.length) 0)

/-- A wait on ticket n, or on every ticket when n is 0, in the given state; the status goes to s[d]. A ticket that the
thread never took has no status (log entry 4). -/
def waitTicket (s : State) (t : Thread) (n d st : Nat) : State :=
  let go (v : Word) (s : State) : State := setThread s t.th fun t => nextPc { ws t d v with state := 1 }
  if n = 0 then
    if (outstanding t).isEmpty then go (jointStatus t) s
    else setThread s t.th fun t => { t with state := st, waitOn := 0, waitReg := d }
  else
    match t.tickets.find? fun k => k.num = n with
    | some k =>
      if k.done then go (BitVec.ofNat 32 k.status) s
      else setThread s t.th fun t => { t with state := st, waitOn := n, waitReg := d }
    | none => go (Config.contentWord 2 [n]) s

/-- BPUB's publication, for a part of an ENCODE stage only its own state (R225, R478). -/
def bpubNow (s : State) (t : Thread) (st : Nat) : State :=
  let s := setThread s t.th fun t => nextPc { t with published := st, state := 1 }
  if (encodeParts s t).isSome then s else publishToken (tokenFrom s t) t.sample t.stage st

/-- Writes of a thread not yet visible: its DMA writes' tickets (R225). -/
def writesPending (t : Thread) : Bool := (outstanding t).any (·.write)

/-- A ticket completes (R198): the thread that waits for it goes on. A fetch that ended SOURCE_GONE or SOURCE_TIMEOUT and
a transfer that ended PARTIAL take the sample out of its batch (R296, R513). -/
def endTicket (s : State) (th : ThreadRef) (n status cause : Nat) : State :=
  match threadOf s th with
  | none => s
  | some t0 =>
    let s := setThread s th fun t =>
      { t with tickets := updIf (fun k => k.num = n) (fun k => { k with done := true, status := status, deferred := none }) t.tickets }
    if (thTile th).isSome ∧ status ∈ [2, 3, 4] then
      let at_ := ((sampleOf s t0.sample).map (·.fail)).getD (0, 0)
      dropFinished s t0.sample (if status = 2 then 3 else if status = 3 then 4 else 5) cause at_.1 at_.2
    else
      let s := if status = 1 then setSample s t0.sample fun x => { x with cause := cause } else s
      match threadOf s th with
      | none => s
      | some t =>
        if t.ending then if (outstanding t).isEmpty then finishThread s t else s
        else if t.state = 6 then setThread s th fun t => { t with state := 1 }
        else if t.state = 7 then if writesPending t then s else bpubNow s t t.waitReg
        else if s.allocWaits.any (fun w => w.th = th) then s
        else if (t.state = 2 ∨ t.state = 3) ∧ t.waitOn = n then waitTicket s t n t.waitReg t.state
        else if (t.state = 2 ∨ t.state = 3) ∧ t.waitOn = 0 ∧ (outstanding t).isEmpty then
          waitTicket s t 0 t.waitReg t.state
        else s

/-! ### The tile store (R212 to R214, R235, R236) -/

/-- n bytes of the thread's region. -/
def tsRead (t : Thread) (off n : Nat) : List Byte := lookAll zero t.region off n
def tsWrite (t : Thread) (off : Nat) (l : List Byte) : Thread := { t with region := putAll zero off l t.region }

/-- n bytes of the space that W = 0 names for a thread: its region, or the one data region that the threads of a management
Minuet share (R236). -/
def spaceRead (s : State) (t : Thread) (off n : Nat) : List Byte :=
  match t.th with
  | .tile _ _ => tsRead t off n
  | .mgmt d _ => lookAll zero (s.dies.getD d Die.reset).region off n

/-- Bytes written to that space. -/
def spaceWrite (s : State) (th : ThreadRef) (off : Nat) (l : List Byte) : State :=
  match th with
  | .tile _ _ => setThread s th fun t => tsWrite t off l
  | .mgmt d _ => { s with dies := modAt s.dies d fun x => { x with region := putAll zero off l x.region } }
def tsIn (t : Thread) (off n : Nat) : Bool := off + n ≤ t.tsBytes

def stageOf (s : State) (t : Thread) : Option Stage :=
  ((sampleOf s t.sample).bind fun x => recipeOf s x.part x.recipe).bind fun r => r.stages[t.stage]?

/-- A model as die d's copy holds it: lines corrected to other codewords read so (R548). -/
def onDie (m : Model) (d : Nat) : Model :=
  { m with weights := (m.garbled.filter (·.1 = d)).foldl (fun l g =>
      l.zipIdx.map fun (b, i) =>
        if g.2.1 ≤ m.wOff + i && m.wOff + i < g.2.1 + 64 then Config.lineByte g.2.2 (m.wOff + i - g.2.1) else b) m.weights }

/-- The model that landing slot i (0 or 1) of a thread's stage holds. -/
def stageModel (s : State) (t : Thread) (i : Nat) : Option Model :=
  (stageOf s t).bind fun st => (modelOf s t.part (if i = 0 then st.model0 else st.model1)).map fun m => onDie m (thDie t.th)

/-! ### The cluster store (R35, R214, R464, R467, R468) -/

/-- Bytes of a row of l elements of a type (R433). -/
def rowLen (etype l : Nat) : Nat := ceilDiv (l * etypeBits etype) 8 + (if etypeMx etype then l / 32 else 0)

/-- Bytes of a landed row: the row bytes rounded up to a multiple of 4 (R464). -/
def landedRow (y : Layer) : Nat := roundUp (rowLen y.fmtB y.k) 4

/-- Rows of a chunk of ch bytes (R464). -/
def chunkRows (ch : Nat) (y : Layer) : Nat := if y.n < 64 then y.n else 64 * ((ch - 64) / (64 * (landedRow y + 4)))

/-- A chunk: its layer, first row and rows. -/
structure Chunk where
  layer : Nat
  row : Nat
  rows : Nat
  deriving DecidableEq, Repr

/-- The chunks of a model, by number (R464). -/
def chunksOf (m : Model) : List Chunk :=
  m.layers.zipIdx.flatMap fun (y, l) =>
    let nc := Nat.max 1 (chunkRows m.chunkBytes y)
    (List.range (ceilDiv y.n nc)).map fun i => ⟨l, nc * i, Nat.min nc (y.n - nc * i)⟩

/-- Bytes of row r of a layer from an offset of the weight section. -/
def weightRow (m : Model) (y : Layer) (r : Nat) : List Byte := sliceB m.weights (y.rowsOff + r * y.rowStride) (landedRow y)
/-- The bias of a row; +0 when BIAS is 0. -/
def biasOf (m : Model) (y : Layer) (r : Nat) : Word := if y.bias then BitVec.ofNat 32 (leAt m.weights (y.biasOff + 4 * r) 4) else 0

/-- A landed chunk as it stands in a landing buffer (R468). -/
def chunkBytes (m : Model) (c : Nat) : List Byte :=
  match (chunksOf m)[c]? with
  | none => []
  | some k =>
    match m.layers[k.layer]? with
    | none => []
    | some y =>
      toLe 4 k.layer ++ toLe 2 k.row ++ toLe 2 k.rows ++ toLe 4 c ++ toLe 52 0 ++
      ((List.range k.rows).flatMap fun i => weightRow m y (k.row + i)) ++
      (List.range k.rows).flatMap fun i => toLe 4 (biasOf m y (k.row + i)).toNat

/-- What a read of cluster-store space meets. -/
inductive CsRead where
  /-- outside the spaces of R214 -/
  | range
  /-- a chunk whose ready token is not set, in buffer number `buf` of landing slot `slot` -/
  | wait (slot buf : Nat)
  | bytes (l : List Byte)
  deriving DecidableEq, Repr

/-- n bytes at an address of a thread's cluster-store space (R467). What no rule says stands there is open (log
entry 4). -/
def csRead (s : State) (t : Thread) (a n : Nat) : CsRead :=
  match stageOf s t, thTile t.th with
  | some st, some tile =>
    let cl := tile / 4
    let openBytes (k a n : Nat) : List Byte := (List.range n).map fun i => Config.csByte k (a + i)
    if a + n ≤ st.csBytes then .bytes (openBytes 0 a n)
    else if 0x1800000 ≤ a ∧ a + n ≤ 0x1801000 ∧ st.dict ≠ 0xFFFF then
      match dictOf s t.part st.dict with
      | some d => .bytes (sliceB (d.header.take 64) (a - 0x1800000) n)
      | none => .range
    else if 0x1000000 ≤ a ∧ a < 0x1800000 then
      let slot := (a - 0x1000000) / 0x400000
      let buf := (a - 0x1000000) / 0x200000 % 2
      let off := (a - 0x1000000) % 0x200000
      match stageModel s t slot with
      | none => .range
      | some m =>
        if m.chunkBytes < off + n then .range
        else match s.landing.find? fun b => b.cluster = cl && b.model = m.uid && b.buf = buf with
          | some b =>
            if b.ready then
              let l := chunkBytes m b.chunk
              let have_ := sliceB l off (Nat.min n (l.length - off))
              .bytes (have_ ++ openBytes (b.chunk + 1) (off + have_.length) (n - have_.length))
            else .wait slot buf
          | none => .wait slot buf
    else .range
  | _, _ => .range

/-- Threads that wait for a landing buffer's ready token in WAIT_CS: the slot and buffer awaited. -/
def csWait (slot buf : Nat) : Nat := slot * 2 + buf

end Sys2Proof.Machine
end

