-- ==== Sys2Proof/Machine/Flags.lean ====
section
/-!
DEFINITION. Conditions and predicate results: comparisons, whether a branch is taken, and the bits that a vector
compare writes (R207, R208, R210).
-/

namespace Sys2Proof.Machine

/-- X < Y, signed. -/
def sltB (x y : Word) : Bool := x.slt y
/-- X < Y, unsigned. -/
def ultB (x y : Word) : Bool := x.ult y

/-- 1 when a condition holds, else 0. -/
def oneIf (b : Bool) : Word := if b then 1 else 0

/-- A predicate value from a condition on each element. -/
def maskBits (f : Nat → Bool) : BitVec 16 := BitVec.ofNat 16 (((List.range 16).filter f).foldl (fun a i => a + 2 ^ i) 0)

/-- Bit i of the result of a vector compare: 0 where the guard is 0 (Table 6.6). -/
def cmpMask (g : BitVec 16) (c : Word → Word → Bool) (x y : Nat → Word) : BitVec 16 :=
  maskBits fun i => g.getLsbD i && c (x i) (y i)

/-- PANY and PALL of a predicate (Table 6.5). -/
def anyBit (p : BitVec 16) : Bool := p ≠ 0
def allBits (p : BitVec 16) : Bool := p = 0xFFFF

end Sys2Proof.Machine
end

