-- ==== Sys2Proof/Machine/Requests.lean ====
section
/-!
DEFINITION. A transfer as a sequence of requests: which are done, moving the rest in order, and where a request meets an
unresolvable translation (R293 to R297).
-/

namespace Sys2Proof.Machine

/-- A request of a transfer: its number, its first element, and what it moves. -/
structure Req (α : Type) where
  num : Nat
  first : Nat
  load : α
  deriving DecidableEq, Repr

/-- Whether a request has been done before the transfer halted (R295). -/
def reqDone {α : Type} (t : Transfer) (r : Req α) : Bool := r.first < t.moved || t.extra.contains (r.num, 0)

/-- The requests issued behind one that fails may complete or not (R297). -/
def lateReqs {α : Type} (bad : State → α → Bool) (move : State → α → State) (t : Transfer) (s : State) (l : List (Req α)) :
    State :=
  l.foldl (fun s r =>
    if reqDone t r then s
    else
      let (go, s) := arbitrate s
      if go && !bad s r.load then move s r.load else s) s

/-- Moves the requests that are not done, in order; E where one of them cannot be resolved. At most 64 requests are
outstanding (R293). -/
def runReqs {α : Type} (bad : State → α → Bool) (move : State → α → State) (t : Transfer) :
    List (Req α) → State → State × Option Nat
  | [], s => (s, none)
  | r :: rs, s =>
    if reqDone t r then runReqs bad move t rs s
    else if bad s r.load then (lateReqs bad move t s (rs.take 63), some r.first)
    else runReqs bad move t rs (move s r.load)

/-! ### The engine that a transfer runs on (R419, R574, Table 18.10) -/

/-- The tile whose DMA engine a copy, SPILL or RESTORE runs on: one of those of the die of its partition's primary port,
which one is open (log entry 56). -/
def engineTile (s : State) (t : Transfer) : Option Nat :=
  let l := (tilesUp s).filter fun i => i / 24 = primaryDie s t.part
  l[Config.engine t.id % Nat.max 1 l.length]?

/-- The engine's counters take the bytes that an ended transfer has read and written. -/
def engineBytes (s : State) (t : Transfer) (n : Nat × Nat) : State :=
  match engineTile s t with
  | some i => bump64 (bump64 s (tileBase i + 0x1010) n.1) (tileBase i + 0x1018) n.2
  | none => s

/-! ### Byte transfers: requests end at 4 KiB pages of the host address -/

/-- The requests of n bytes at a host address, each with its byte range. -/
def pieces (addr n : Nat) : List (Req (Nat × Nat)) :=
  if n = 0 then []
  else (List.range ((addr % 4096 + n - 1) / 4096 + 1)).map fun r =>
    let lo := r * 4096 - addr % 4096
    ⟨r, lo, lo, Nat.min n ((r + 1) * 4096 - addr % 4096)⟩

/-- Whether a request's page cannot be resolved. -/
def pieceBad (key : Nat) (s : State) (x : Nat × Nat) : Bool := faulty s (key + x.1) (x.2 - x.1)

/-- Writes one request's bytes. -/
def pieceWrite (p key : Nat) (l : List Byte) (s : State) (x : Nat × Nat) : State :=
  hostWrite s p (key + x.1) (sliceB l x.1 (x.2 - x.1))

/-- Writes what is left of a byte transfer to host memory; E where it ends early. -/
def writeOut (s : State) (t : Transfer) (key : Nat) (l : List Byte) : State × Option Nat :=
  runReqs (pieceBad key) (pieceWrite t.part key l) t (pieces key l.length) s

/-- The bytes of a read of host memory: those that completed requests have brought, and the rest as memory holds it now
(R295). -/
def gathered (s : State) (key n : Nat) (got : List (Nat × List Byte)) : List Byte :=
  (pieces key n).flatMap fun r =>
    match got.find? fun g => g.1 = r.num with
    | some g => g.2
    | none => hostBytes s (key + r.load.1) (r.load.2 - r.load.1)

/-- What the requests 0 to k - 1 and those in `extra` of a read bring as they complete, beside what has been brought. -/
def gather (s : State) (key n k : Nat) (extra : List Nat) (got : List (Nat × List Byte)) : List (Nat × List Byte) :=
  got ++ ((pieces key n).filter fun r => (r.num < k || extra.contains r.num) && !(got.any (·.1 = r.num)) &&
    !pieceBad key s r.load).map fun r => (r.num, hostBytes s (key + r.load.1) (r.load.2 - r.load.1))

/-- Reads n bytes for a transfer; E where it ends early, in place of the bytes. -/
def readIn (s : State) (t : Transfer) (key n : Nat) : State × Except Nat (List Byte) :=
  match runReqs (pieceBad key) (fun s _ => s) t (pieces key n) s with
  | (s, some e) => (s, .error e)
  | (s, none) => (readReturned s t.part n, .ok (gathered s key n t.got))

/-! ### Placement copies (R503) -/

/-- The address key of slot i of the open batch. -/
def slotKey (e : Epoch) (i : Nat) : Nat :=
  match e.entries.find? fun d => d.batch = e.open_ with
  | some d => hostKey e.pasid (d.base + i * d.stride)
  | none => 0

/-- Bytes of a sample's output. -/
def outputOf (x : Sample) (n : Nat) : List Byte := lookAll zero x.staging 0 n

/-- The transfer that copies position pos of an epoch into its slot. -/
def isPlace (q pos : Nat) (t : Transfer) : Bool :=
  match t.kind with
  | .place q' p _ => q' = q && p = pos
  | _ => false

/-- Reads the staging area for its copy; true when a line is uncorrectable. -/
def readStaging (s : State) (l : List Nat) (n : Nat) : State × Bool :=
  (l.zipIdx).foldl (fun (a : State × Bool) (h, i) =>
    if a.2 then a else readLines a.1 h 0 (Nat.min (classSize 7) (n - i * classSize 7))) (s, false)

/-- Moves requests 0 to n - 1 and those in `extra` of a placement copy. -/
def placeSome (s : State) (t : Transfer) (q pos n : Nat) (extra : List Nat) : State :=
  match epochOf s q, sampleAt s q pos with
  | some e, some x =>
    let key := slotKey e (x.placed.getD 0)
    let l := outputOf x e.outBytes
    ((pieces key e.outBytes).filter fun r => !reqDone t r && (r.num < n || extra.contains r.num)).foldl
      (fun s r => if pieceBad key s r.load then s else pieceWrite t.part key l s r.load) s
  | _, _ => s

end Sys2Proof.Machine
end

