-- ==== Sys2Proof/Machine/Operands.lean ====
section
/-!
DEFINITION. Submission entries: their fields (Tables 4.5 and 4.6), the operands each opcode defines (Table 4.8), and
when an entry is malformed (R139, R140, Table 4.7).
-/

namespace Sys2Proof.Machine

/-- The low n bits of an operand. -/
def lowBits (n : Nat) : Nat := 2 ^ n - 1

/-- Bits that OPk of an opcode defines; `kind` is OP0 [39:32] of a SOURCE_BIND. None for a code not in Table 4.8. -/
def opMask (op k kind : Nat) : Option Nat :=
  let all := lowBits 64
  let row (l : List Nat) : Option Nat := some (l.getD k 0)
  if op = 0x00 then row []
  else if op = 0x01 ∨ op = 0x08 then row [all, all]
  else if op = 0x02 then row [lowBits 32]
  else if op = 0x03 ∨ op = 0x05 then row [all, lowBits 35, lowBits 16]
  else if op = 0x04 ∨ op = 0x06 then row [lowBits 16]
  else if op = 0x07 then row [lowBits 32, lowBits 16, all]
  else if op = 0x10 then row [lowBits 48, all, all, lowBits 41, all, 0xF1FFF]
  else if op = 0x11 then row [all, all, all, 0, all, 0xF1FFF]
  else if op = 0x12 then row [1]
  else if op = 0x20 then
    if kind = 0 then row [lowBits 40, lowBits 36] else row [lowBits 40, all, lowBits 48]
  else if op = 0x21 ∨ op = 0x32 ∨ op = 0x33 then row [lowBits 32]
  else if op = 0x22 then row [lowBits 32 * 2 ^ 32 + lowBits 9]
  else if op = 0x30 then row [lowBits 32, all, lowBits 24]
  else if op = 0x31 then row [lowBits 20]
  else if op = 0x34 then row [lowBits 32, 1]
  else if op = 0x40 ∨ op = 0x41 ∨ op = 0x52 then row [all]
  else if op = 0x42 then row [all, all, all, lowBits 16]
  else if op = 0x43 then row [all, all]
  else if op = 0x44 ∨ op = 0x45 then row [all, all, all, lowBits 24]
  else if op = 0x50 then row [all, lowBits 40, 0x10F]
  else if op = 0x51 then row [all, all, lowBits 40]
  else if op = 0x60 then row []
  else if op = 0x61 then row [lowBits 32, lowBits 6]
  else none

/-- Bits that XOPk of an opcode defines. -/
def xopMask (op k : Nat) : Nat :=
  let row (l : List Nat) : Nat := l.getD k 0
  if op ∈ [0x01, 0x08, 0x40, 0x42, 0x45, 0x50] then row [1]
  else if op = 0x03 then row [lowBits 64]
  else if op = 0x07 then row [lowBits 16]
  else if op = 0x10 ∨ op = 0x11 then row [3]
  else if op = 0x20 then row [lowBits 16, 3]
  else if op = 0x30 then row [lowBits 25]
  else 0

/-- The byte offset of the lowest bit of x outside the mask m, for an operand at byte offset o. -/
def reservedAt (o x m : Nat) : List (Nat × Nat) :=
  match (List.range 64).find? fun i => bitN x i && !bitN m i with
  | some i => [(o + i / 8, 1)]
  | none => []

/-- Values out of range (reason 0x03) and addresses misaligned (reason 0x04), with the byte offset of the first byte of
the bad field. `o` and `x` read bits of OPk and XOPk. -/
def valueErrs (op : Nat) (o x : Nat → Nat → Nat → Nat) : List (Nat × Nat) :=
  let bad (c : Bool) (at_ reason : Nat) : List (Nat × Nat) := if c then [(at_, reason)] else []
  if op = 0x01 then
    bad (o 0 5 0 ≠ 0) 8 4 ++ bad (o 1 31 0 < 128 || 4194304 < o 1 31 0) 16 3
  else if op = 0x08 then bad (o 0 5 0 ≠ 0) 8 4 ++ bad (o 1 31 0 = 0) 16 3
  else if op = 0x03 then
    bad (o 0 11 0 ≠ 0) 8 4 ++ bad (o 1 34 0 = 0) 16 3 ++ bad (x 0 63 0 % 64 ≠ 0 || 2048 < x 0 63 0) 72 3
  else if op = 0x05 then bad (o 0 11 0 ≠ 0) 8 4 ++ bad (o 1 34 0 = 0) 16 3
  else if op = 0x07 then bad (o 2 6 0 ≠ 0) 24 4
  else if op = 0x10 then
    bad (o 3 40 0 = 0 || 2 ^ 40 < o 3 40 0) 32 3 ++ bad (o 4 5 0 ≠ 0) 40 4 ++
    bad (o 5 12 0 = 0 || 4096 < o 5 12 0) 48 3 ++ bad (o 5 19 16 = 0 || 8 < o 5 19 16) 50 3
  else if op = 0x11 then
    bad (o 0 6 0 ≠ 0) 8 4 ++ bad (o 4 5 0 ≠ 0) 40 4 ++
    bad (o 5 12 0 = 0 || 4096 < o 5 12 0) 48 3 ++ bad (o 5 19 16 = 0 || 8 < o 5 19 16) 50 3
  else if op = 0x20 then
    bad (o 0 31 0 = 0xFFFFFFFF) 8 3 ++ bad (1 < o 0 39 32) 12 3 ++
    bad (o 0 39 32 = 0 && (o 1 31 0 = 0 || o 1 31 0 = 0xFFFFFFFF)) 16 3 ++
    bad (o 0 39 32 = 1 && o 1 5 0 ≠ 0) 16 4 ++ bad (o 0 39 32 = 1 && o 2 47 0 = 0) 24 3 ++ bad (10000 < x 0 15 0) 72 3
  else if op = 0x30 then
    bad (o 1 2 0 ≠ 0) 16 4 ++ bad (51 < x 0 14 9 || 51 < x 0 20 15) 73 3 ++ bad (x 0 22 21 = 3) 74 3
  else if op = 0x40 then bad (o 0 5 0 ≠ 0) 8 4
  else if op = 0x42 then bad (o 2 2 0 ≠ 0) 24 4 ++ bad (o 3 15 0 = 0) 32 3
  else if op = 0x44 ∨ op = 0x45 then bad (o 2 5 0 ≠ 0) 24 4 ++ bad (o 3 23 0 = 0) 32 3
  else if op = 0x50 then
    bad (o 0 5 0 ≠ 0) 8 4 ++ bad (o 1 39 0 = 0 || o 1 39 0 % 64 ≠ 0 || 2 ^ 36 < o 1 39 0) 16 3 ++ bad (3 < o 2 3 0) 24 3
  else if op = 0x51 then bad (o 1 5 0 ≠ 0) 16 4 ++ bad (o 2 39 0 = 0) 24 3
  else []

/-- Every reason for which an entry, with its extension when EXP is set, is malformed. -/
def entryErrs (e : List Byte) (ext : Option (List Byte)) : List (Nat × Nat) :=
  let op := leAt e 0 1
  let b1 := leAt e 1 1
  let o (k msb lsb : Nat) : Nat := bits (leAt e (8 + 8 * k) 8) msb lsb
  let x (k msb lsb : Nat) : Nat := match ext with | some l => bits (leAt l (8 + 8 * k) 8) msb lsb | none => 0
  let kind := o 0 39 32
  if (opMask op 0 0).isNone then [(0, 2)]
  else
    reservedAt 1 (b1 % 64) 0 ++
    ((List.range 7).flatMap fun k => reservedAt (8 + 8 * k) (leAt e (8 + 8 * k) 8) ((opMask op k kind).getD 0)) ++
    (match ext with
     | some l =>
       (if leAt l 0 1 ≠ op then [(64, 5)] else []) ++ reservedAt 65 (leAt l 1 1) 0 ++
       (if leAt l 4 4 ≠ leAt e 4 4 then [(68, 6)] else []) ++
       ((List.range 7).flatMap fun k => reservedAt (72 + 8 * k) (leAt l (8 + 8 * k) 8) (xopMask op k))
     | none => []) ++
    valueErrs op o x

/-- The reported reason: the lowest offset, and at one offset the lowest reason (R140). -/
def worstErr : List (Nat × Nat) → Option (Nat × Nat)
  | [] => none
  | e :: l =>
    match worstErr l with
    | none => some e
    | some f => if e.1 < f.1 ∨ (e.1 = f.1 ∧ e.2 ≤ f.2) then some e else some f

/-- DETAIL of a MALFORMED completion (R140). -/
def malformed (e : List Byte) (ext : Option (List Byte)) : Option Nat :=
  (worstErr (entryErrs e ext)).map fun x => x.2 * 256 + x.1

/-- Seven 64-bit operands from byte 8 on. -/
def operandsOf (e : List Byte) : List DWord := (List.range 7).map fun k => BitVec.ofNat 64 (leAt e (8 + 8 * k) 8)

end Sys2Proof.Machine
end

