-- ==== Sys2Proof/Machine/Rings.lean ====
section
/-!
DEFINITION. The doorbell page, push slots, taking entries, and the commands of chapter 4: NOP, EVENT_WAIT, ABORT.
-/

namespace Sys2Proof.Machine

/-- Whether function fn reaches the doorbell page of queue q through a port (R39, R85). An access to a page it does not
own addresses no register. -/
def pageWrite (s : State) (fn port q : Nat) (f : State → State) : State :=
  if !presented s fn port then s
  else if owner s q ≠ fn then unsupported s fn true
  else if s.fatal || (part s fn).resetting then s
  else f s

/-- An ignored index write: DB_ERR sets, and the write is recorded (R120). -/
def dbError (s : State) (q off : Nat) (v : Word) : State :=
  let s := setW1c s (queueBase q + 4) 2 (queueBase q + 0x50)
  setQueue s q fun x => { x with errIdx := v, errOff := BitVec.ofNat 32 off }

/-- Whether a producer index write is accepted: v against producer P and consumer C of a ring of depth D (R120). -/
def piOk (v p c : Word) (d : Nat) : Bool :=
  (v - c).toNat ≤ d && (v - p).toNat ≤ (c + BitVec.ofNat 32 d - p).toNat

/-- An accepted doorbell write is counted (R123). -/
def dbAccept (s : State) : State := bump64 s 0x30 1

/-- DB_SQ_PI (R120): the next accepted write also lets a faulted entry read be tried again (R135). -/
def execDbSqPi (fn : Fin 16) (port : Fin 8) (q : Fin 64) (v : Word) (s : State) : Out :=
  .next (pageWrite s fn port q fun s =>
    if qEnable s q && piOk v (queue s q).sqPi (queue s q).sqCi (sqDepth s q) then
      setQueue (dbAccept s) q fun x => { x with sqPi := v, sqStop := false }
    else dbError s q 0x0 v)

/-- DB_CQ_CI (R120): an accepted write releases CQ slots. -/
def execDbCqCi (fn : Fin 16) (port : Fin 8) (q : Fin 64) (v : Word) (s : State) : Out :=
  .next (pageWrite s fn port q fun s =>
    if qEnable s q && (v - (queue s q).cqCi).toNat ≤ ((queue s q).cqPi - (queue s q).cqCi).toNat then
      setQueue (dbAccept s) q fun x => { x with cqCi := v }
    else dbError s q 0x4 v)

/-- DB_DR_PI (R120). -/
def execDbDrPi (fn : Fin 16) (port : Fin 8) (q : Fin 64) (v : Word) (s : State) : Out :=
  .next (pageWrite s fn port q fun s =>
    if qDrEn s q && piOk v (queue s q).drPi (queue s q).drCi (drDepth s q) then
      setQueue (dbAccept s) q fun x => { x with drPi := v, drStop := false }
    else dbError s q 0x8 v)

/-- PUSH_SLOT_WRITE (R86, R125): bytes into one push slot, any multiple of 4 within one 64-byte slot. -/
def execPushSlotWrite (fn : Fin 16) (port : Fin 8) (q : Fin 64) (off : Nat) (bytes : List Byte) (s : State) : Out :=
  .next (
    if off % 4 ≠ 0 || bytes.length % 4 ≠ 0 || bytes.isEmpty || off < 0x100 || 0x200 ≤ off || 64 < off % 64 + bytes.length then
      pageWrite s fn port q fun s => unsupported s fn true
    else pageWrite s fn port q fun s =>
      setQueue s q fun x => { x with push := modAt x.push ((off - 0x100) / 64) fun y =>
        { mask := y.mask ||| BitVec.ofNat 16 ((2 ^ (bytes.length / 4) - 1) * 2 ^ (off % 64 / 4)),
          bytes := putAll zero (off % 64) bytes y.bytes } })

/-! ### Taking entries (R126 to R140) -/

/-- The entry i of SQ q that a full push slot with a matching tag holds (R126). -/
def pushed (s : State) (q : Nat) (i : Word) : Option (List Byte) :=
  let slot := (queue s q).push.getD (i.toNat % 4) ⟨0, []⟩
  let l := lookAll zero slot.bytes 0 64
  if qPushEn s q && slot.mask = 0xFFFF && leAt l 2 2 = i.toNat % 65536 then some l else none

/-- Where entry i of SQ q is read from: its push slot, else the ring, which may fault. -/
def sqEntry (s : State) (q : Nat) (i : Word) : Option (List Byte) × State :=
  match pushed s q i with
  | some l => (some l, s)
  | none =>
    let key := hostKey (qSpace s q) (reg64 s (queueBase q + 8) + i.toNat % sqDepth s q * 64)
    if faulty s key 64 then (none, s) else (some (hostBytes s key 64), readReturned s (owner s q) 64)

/-- An entry read that faulted: the index stays untaken, FETCH_ERR sets and RUN clears (R135). -/
def fetchErr (s : State) (q : Nat) (dr : Bool) : State :=
  let s := setW1c s (queueBase q + 4) 1 (queueBase q + 0x54)
  setQueue s q fun x => if dr then { x with drStop := true } else { x with sqStop := true }

/-- The mask of the push slot of a taken index is cleared (R127). -/
def clearPush (s : State) (q : Nat) (i : Word) : State :=
  setQueue s q fun x => { x with push := modAt x.push (i.toNat % 4) fun y => { y with mask := 0 } }

/-- Takes the entry at SQ_CI of queue q, with its extension, once the producer index covers them. A malformed entry
completes at once; DESIGN CHOICE (log entry 68): its DEP bit marks nothing for the commands behind it (R131). -/
def takeFrom (s : State) (q : Nat) : State :=
  let i := (queue s q).sqCi
  match sqEntry s q i with
  | (none, s) => fetchErr s q false
  | (some e, s) =>
    let exp := bitN (leAt e 1 1) 7
    if exp && sqCount s q < 2 then s
    else
      let r : Option (Option (List Byte)) × State :=
        if exp then match sqEntry s q (i + 1) with
          | (none, s) => (none, s)
          | (some l, s) => (some (some l), s)
        else (some none, s)
      match r with
      | (none, s) => fetchErr s q false
      | (some ext, s) =>
        let n : Word := if exp then 2 else 1
        let s := clearPush s q i
        let s := if exp then clearPush s q (i + 1) else s
        let s := setQueue s q fun x => { x with sqCi := i + n }
        let s := setQueue s (cqSel s q) fun x => { x with promised := x.promised + 1 }
        let s := bump s (queueBase q + 0x58)
        let xops : List DWord := match ext with | some l => operandsOf l | none => []
        let x : Cmd := ⟨s.nextCmd, q, owner s q, leAt e 0 1, BitVec.ofNat 32 (leAt e 4 4), bitN (leAt e 1 1) 6,
          operandsOf e, xops, i + n, false, if bitN (leAt e 1 1) 6 then s.nextCmd else (queue s q).marker⟩
        let s := { s with nextCmd := s.nextCmd + 1 }
        match malformed e ext with
        | some d => complete (bump s (queueBase q + 0x4C)) x ⟨0x01, d, 0, 0, false⟩
        | none => { setQueue s q fun y => { y with marker := x.after } with cmds := s.cmds ++ [x] }

/-- Whether the next entry of SQ q, with its extension, can be had now: from the ring while the partition has a port, from
push slots in any case (R126, R664). -/
def entryAtHand (s : State) (p q : Nat) : Bool :=
  canSend s p || (pushed s q (queue s q).sqCi).any fun e =>
    !bitN (leAt e 1 1) 7 || (pushed s q ((queue s q).sqCi + 1)).isSome

/-- SQs of partition p that can be taken from now (R129, R130, R135, R664). -/
def takable (s : State) (p q : Nat) : Bool :=
  owner s q = p && qEnable s q && 0 < sqCount s q && !(queue s q).sqStop && cqFree s (cqSel s q) && entryAtHand s p q

/-- TAKE_SQ_ENTRY (R129, R130): weighted round-robin among the partition's SQs: a queue keeps its turn for WEIGHT
entries, 0 counting as 1, and then the next one in number has it (log entry 16). -/
def execTakeSqEntry (p : Fin 16) (s : State) : Out :=
  .next (
    let st := part s p
    if !alive s || !s.boot.ready || st.resetting then s
    else if 0 < st.rrLeft && takable s p st.rrQueue then
      takeFrom (setPart s p fun x => { x with rrLeft := x.rrLeft - 1 }) st.rrQueue
    else
      match ((List.range 64).map fun k => (st.rrQueue + 1 + k) % 64).find? (takable s p) with
      | some q =>
        let w := Nat.max 1 (fld s (queueBase q + 0x800) 3 0)
        takeFrom (setPart s p fun x => { x with rrQueue := q, rrLeft := w - 1 }) q
      | none => s)

/-- COAL_US_EXPIRY (R133). -/
def execCoalUsExpiry (q : Fin 64) (s : State) : Out :=
  .next (if alive s && 0 < (queue s q).mirrored && fld s (queueBase q + 0x44) 7 7 = 1 &&
      fld s (queueBase q + 0x44) 31 16 ≠ 0 then queueIrq s q else s)

/-! ### NOP, EVENT_WAIT, ABORT -/

/-- NOP (R141). -/
def execNop (c : Nat) (s : State) : Out := .next (withCmd s c 0x00 fun s x => complete s x (plain 0))

/-- EVENT_WAIT (R147): a held event completes it; otherwise it waits for the next. -/
def execEventWait (c : Nat) (s : State) : Out :=
  .next (withCmd s c 0x60 fun s x =>
    match (part s x.part).events with
    | e :: es => complete (setPart s x.part fun y => { y with events := es }) x ⟨0, 0, e.code, e.data.toNat, false⟩
    | [] => startCmd s c)

/-- What a command leaves behind when ABORT ends it: its transfers, reservations and samples go. -/
def unwind (s : State) (x : Cmd) : State :=
  let s := freeBufs s ((s.transfers.filter fun t => t.cmd = x.id && x.started).flatMap fun t => t.bufs.flatMap (·.2))
  let s := { s with
    transfers := s.transfers.filter fun t => !(t.cmd = x.id && (match t.kind with
      | .place _ _ _ => false | .hmrd _ _ _ _ _ => false | .hmwr _ _ _ _ _ => false | _ => true))
    calRuns := s.calRuns.filter fun r => r.cmd ≠ x.id
    transcodes := s.transcodes.filter fun r => r.cmd ≠ x.id
    sources := updIf (fun y => y.unbinding = some x.id) (fun y => { y with unbinding := none }) s.sources
    tensors := updIf (fun y => y.dying = some x.id) (fun y => { y with dying := none }) s.tensors
    spills := updIf (fun y => y.dying = some x.id) (fun y => { y with dying := none }) s.spills }
  let s := stopThreads s fun t => t.sample = transcodeTag x.id
  ((s.samples.filter fun y => y.from_ = .calibration x.id).map (·.h)).foldl removeSample s

/-- ABORT (R145, R146). One whose target tag is its own on its own SQ passes over itself and acts on a later command with
that tag (DESIGN CHOICE, log entry 55). -/
def execAbort (c : Nat) (s : State) : Out :=
  .next (withCmd s c 0x61 fun s x =>
    let tq := opBits x 1 5 0
    if owner s tq ≠ x.part then complete s x denied
    else
      match s.cmds.find? fun y => y.q = tq && y.tag.toNat = opBits x 0 31 0 && y.id ≠ x.id with
      | some y =>
        if y.opcode ∈ [0x10, 0x11, 0x61] then complete s x (okWith 0)
        else complete (complete (unwind s y) y ⟨0x0E, 0, x.tag.toNat, 0, false⟩) x (okWith 1)
      | none => complete s x (okWith 0))

end Sys2Proof.Machine
end

