-- ==== Sys2Proof/Machine/Pavane.lean ====
section
/-!
DEFINITION. The commands of batching and release: opening, resuming and closing epochs, steps, delivery entries,
placement, grace windows, budgets and releases (chapter 15).
-/

namespace Sys2Proof.Machine

/-! ### Opening (R497 to R501, Table 15.3) -/

/-- The dataset table in its header and entries. -/
def readDatasets (l : List Byte) : List Dataset :=
  (List.range (leAt l 4 2)).map fun j =>
    let o := 64 + 32 * j
    ⟨leAt l o 4, BitVec.ofNat 32 (leAt l (o + 4) 4), leAt l (o + 8) 6, leAt l (o + 16) 5⟩

/-- Whether the table obeys Tables 15.1 and 15.2 and R250, with every DIR bound. -/
def tableOk (s : State) (p : Nat) (l : List Byte) : Bool :=
  let ds := readDatasets l
  leAt l 0 4 = 0x4C425444 && 1 ≤ ds.length && ds.length ≤ 256 && zeroBytes l 6 8 && leAt l 8 4 ≤ 10000 &&
  zeroBytes l 12 16 && leAt l 16 8 % 64 = 0 && 10 ≤ leAt l 24 1 && leAt l 24 1 ≤ 24 && zeroBytes l 25 64 &&
  (List.range ds.length).all (fun j => let o := 64 + 32 * j; zeroBytes l (o + 14) (o + 16) && zeroBytes l (o + 21) (o + 32)) &&
  ds.all (fun d => 1 ≤ d.size && d.size ≤ 2 ^ 40 && d.base + d.size ≤ 2 ^ 40 && isBound s p d.dir &&
    (match ofFp32 d.logw with | .nan => false | .inf neg => neg | _ => true)) &&
  ds.any fun d => ofFp32 d.logw ≠ .inf true

/-- CRC of the table with header bytes 8 to 31 taken as 0 (R530). -/
def tableCrc (l : List Byte) : Word :=
  BitVec.ofNat 32 (crc32c (l.take 8 ++ List.replicate 24 0 ++ l.drop 32))

/-- The mode in force (R499). -/
def modeOf (r : Recipe) (ovr : Nat) : Nat := if ovr = 0 then r.repro else ovr - 1

/-- Step 6: the operand to blame. -/
def stepSix (l : List Byte) (r : Recipe) (b ovr : Nat) : Option Nat :=
  let m := modeOf r ovr
  if 2 ^ leAt l 24 1 < 4 * r.inflight + 2 * b then some 0x28
  else if !hardToOk r.hardTo (m = 1 || r.strict) || (m = 2 && r.strict) || (m ≠ 2 && r.repro = 2 && r.readsVolatile) then some 0x48
  else none

/-- A FREE epoch's seed, none when no source in service passes; sources that fail are reported (R253, R254, R256). -/
def drawSeed (s : State) : Option (BitVec 128) × State :=
  match seedsNow s 1 with
  | (some [v], l) => (some v, reportOwed (withNoise s l))
  | (_, l) => (none, reportOwed (withNoise s l))

/-- An epoch with nothing issued yet. -/
def newEpoch (s : State) (x : Cmd) (r : Recipe) (l : List Byte) (num n first : Nat) (seed : BitVec 128) : Epoch :=
  let b := opBits x 5 12 0
  { q := x.q, part := x.part, recipe := r.id, num := num, seed := seed, n := n, b := b, lead := opBits x 5 19 16,
    grace := leAt l 8 4, logBase := leAt l 16 8, log2 := leAt l 24 1,
    datasets := readDatasets l, tableCrc := tableCrc l, pasid := qSpace s x.q, mode := modeOf r (xopBits x 0 1 0),
    strict := r.strict, policy := r.policy, outBytes := r.outBytes, inflight := r.inflight, first := first,
    open_ := first, steps := 0, nextIssue := Nat.min n (first * b), gone := [], reissue := [], slots := [], gaps := [],
    entries := [], graceRun := false, graceOver := false, logHead := 0, logFloor := 0, logLive := [], delivered := 0,
    droppedN := 0, deferredN := 0, released := none, lastOk := none, calStale := calStale s r, staleIn := calStale s r,
    logFault := false, opening := none }

/-- Steps 6 to 8 of Table 15.3; `go` opens the epoch. -/
def openChecked (s : State) (x : Cmd) (r : Recipe) (l : List Byte) (go : State → State) : State :=
  match stepSix l r (opBits x 5 12 0) (xopBits x 0 1 0) with
  | some d => complete s x (range d)
  | none =>
    match epochFit s r with
    | some f => complete s x (refusedFit f)
    | none =>
      match admissionStop s r with
      | some f => complete s x (notAdmitted f (calStale s r))
      | none => go s

/-- Step 4 and 5: the dataset table, or the result that refuses it. -/
def readTable (s : State) (x : Cmd) : Except Result (List Byte) :=
  let key := cmdKey s x (op64 x 4)
  if faulty s key 64 then .error (partialR (okBytes s key 64))
  else
    let n := 64 + 32 * Nat.min 256 (leAt (hostBytes s key 64) 4 2)
    if faulty s key n then .error (partialR (okBytes s key n))
    else
      let l := hostBytes s key n
      if tableOk s x.part l && leAt l 4 2 ≤ 256 then .ok l else .error (range 0x28)

/-- The epoch opens, and its command completes with a result once the first position is assigned (R144). -/
def openEpoch (s : State) (x : Cmd) (e : Epoch) (k r0 r1 : Nat) : State :=
  let s := { startCmd s x.id with epochs := s.epochs ++ [{ e with opening := some (x.id, r0, r1, e.staleIn) }] }
  settle (openBatch s x.q k) x.q

/-- EPOCH_OPEN (R144, R256, R498). -/
def execEpochOpen (c : Nat) (s : State) : Out :=
  .next (withHost s c 0x10 fun s x =>
    if queueTaken s x.q c || !qDrEn s x.q then complete s x denied
    else match recipeOf s x.part (opBits x 0 31 0) with
    | none => complete s x (range 8)
    | some r =>
      match readTable s x with
      | .error e => complete s x e
      | .ok l =>
        openChecked (readReturned s x.part l.length) x r l fun s =>
          let num := opBits x 0 47 32
          let n := opBits x 3 40 0
          if modeOf r (xopBits x 0 1 0) = 2 then
            match drawSeed s with
            | (none, s) => complete s x denied
            | (some seed, s) =>
              openEpoch s x (newEpoch s x r l num n 0 seed) 0 (seed.toNat % 2 ^ 64) (seed.toNat / 2 ^ 64)
          else openEpoch s x (newEpoch s x r l num n 0 (BitVec.ofNat 128 (op64 x 2 * 2 ^ 64 + op64 x 1))) 0 0 0)

/-! ### Resumption (R532 to R535) -/

/-- KEYHASH (R530). -/
def keyHash (seed : BitVec 128) (crc : Word) : Nat := crc32c (toLe 16 seed.toNat) + 2 ^ 32 * crc.toNat

/-- A log record from its bytes. -/
def readLog (l : List Byte) : LogRec :=
  ⟨leAt l 0 8, leAt l 8 1, leAt l 9 1, leAt l 10 1, leAt l 12 2, leAt l 16 8, leAt l 24 5, leAt l 29 1, leAt l 32 5, leAt l 40 5⟩

/-- Check 5 of Table 15.9: the records from floor to head, or none when one of them does not read soundly. -/
def readLogs (s : State) (space base log2 floor : Nat) : Nat → Option (List LogRec)
  | 0 => some []
  | n + 1 =>
    match readLogs s space base log2 floor n with
    | none => none
    | some rs =>
      let i := floor + n
      let key := hostKey space (base + 64 * (i % 2 ^ log2))
      let l := hostBytes s key 64
      if faulty s key 64 || leAt l 60 4 ≠ crc32c (l.take 60) || leAt l 0 8 ≠ i then none else some (rs ++ [readLog l])

/-- EPOCH_RESUME (R532 to R535, Table 15.9). -/
def execEpochResume (c : Nat) (s : State) : Out :=
  .next (withHost s c 0x11 fun s x =>
    if queueTaken s x.q c || !qDrEn s x.q then complete s x denied
    else match readTable s x with
    | .error e => complete s x e
    | .ok l =>
      let s := readReturned s x.part l.length
      let key := cmdKey s x (op64 x 0)
      let bad (n : Nat) : State := complete s x ⟨0x0A, 8, 0, n, false⟩
      if faulty s key 128 then complete s x (partialR (okBytes s key 128))
      else
        let k := hostBytes s key 128
        if leAt k 0 4 ≠ 0x52535543 ∨ leAt k 4 1 ≠ 3 ∨ leAt k 124 4 ≠ crc32c (k.take 124) then bad 1
        else match recipeOf s x.part (leAt k 8 4) with
        | none => bad 2
        | some r =>
          let seed : BitVec 128 := BitVec.ofNat 128 (op64 x 2 * 2 ^ 64 + op64 x 1)
          if bitN (leAt k 12 1) 5 then bad 2
          else if leAt k 40 8 ≠ keyHash seed (tableCrc l) then bad 3
          else if leAt k 14 2 ≠ opBits x 5 12 0 then bad 4
          else
            match readLogs s (qSpace s x.q) (leAt k 48 8) (leAt k 56 1) (leAt k 72 8) (leAt k 64 8 - leAt k 72 8) with
            | none => bad 5
            | some logs =>
              openChecked s x r l fun s =>
                let sDone := leAt k 16 8
                let next := leAt k 24 6
                let skip := logs.filter fun g => (g.kind = 1 || g.kind = 3) && next ≤ g.pos
                let again := (logs.filter fun g => g.kind = 2 &&
                  !logs.any fun o => (o.kind = 1 || o.kind = 4) && o.pos = g.pos).map (·.pos)
                let e := newEpoch s x r l (leAt k 6 2) (leAt k 32 6) (sDone + 1) seed
                let goneOf (g : LogRec) : Nat × Nat × Nat × Nat :=
                  if g.kind = 1 then (g.pos, g.reason, g.cause, g.dsidx) else (g.pos, 0x0A, 0, g.dsidx)
                -- where a position has two records the later one says how its slot stands (R534)
                let e := { e with gone := (skip.map goneOf).reverse, reissue := again.eraseDups, logHead := leAt k 64 8,
                                  logFloor := leAt k 72 8, logLive := logs, delivered := leAt k 80 8,
                                  droppedN := leAt k 88 8, deferredN := leAt k 96 8, lastOk := some sDone }
                openEpoch s x e (sDone + 1) 0 0)

/-! ### Closing (R537) -/

/-- EPOCH_CLOSE: with DRAIN 1 it waits for the last cursor. -/
def execEpochClose (c : Nat) (s : State) : Out :=
  .next (withCmd s c 0x12 fun s x =>
    match epochOf s x.q with
    | none => complete s x (range 8)
    | some e =>
      if opBits x 0 0 0 = 1 then startCmd s c
      else
        let s := endEpoch (closeOpening s x.q) x.q
        finishClose (complete s x (okWith (lastReleased e))) x.q (lastReleased e) 1)

/-! ### Steps (R70, R71, R124, R580) -/

/-- DB_STEP (R124). -/
def execDbStep (fn : Fin 16) (port : Fin 8) (q : Fin 64) (_v : Word) (s : State) : Out :=
  .next (pageWrite s fn port q fun s =>
    let p := owner s q
    if fld s (partBase p + 0xC) 2 0 = 0 then
      stepEvent (setQueue (dbAccept s) q fun x => { x with stepCnt := x.stepCnt + 1 }) p
    else setQueue s q fun x => { x with stepIgn := x.stepIgn + 1 })

/-- STEP_SRC_WRITE (R580): an edge that its pin's filter accepts in the same instant comes before the write or after it, as the
arbiter picks, and is a step once, under the source that then stands, of every partition mapped to that pin. -/
def execStepSrcWrite (port : Fin 8) (p : Fin 16) (v : Word) (edge : Option (Fin 4)) (s : State) : Out :=
  .next (match edge with
    | none => busWrite s 0 port (partBase p + 0xC) v
    | some e =>
      let (edgeFirst, s) := arbitrate s
      if edgeFirst then busWrite (edgeAt e s) 0 port (partBase p + 0xC) v
      else edgeAt e (busWrite s 0 port (partBase p + 0xC) v))

/-! ### Delivery entries (R151 to R153) -/

/-- The reason for which a delivery entry is malformed, with the byte offset of the field. -/
def deliveryErr (l : List Byte) (e : Epoch) : Option Nat :=
  let bad (c : Bool) (o r : Nat) : List (Nat × Nat) := if c then [(o, r)] else []
  (worstErr (bad (leAt l 0 8 % 4096 ≠ 0) 0 4 ++ bad (leAt l 8 8 % 64 ≠ 0) 8 4 ++
    bad (leAt l 16 4 % 64 ≠ 0 || leAt l 16 4 < e.outBytes) 16 3 ++
    bad (let n := bits (leAt l 20 2) 12 0; n = 0 || 4096 < n || n < e.b) 20 3 ++ bad (bits (leAt l 20 2) 15 13 ≠ 0) 21 1 ++
    reservedAt 22 (leAt l 22 2) 0 ++
    (match (List.range 36).find? fun i => leAt l (28 + i) 1 ≠ 0 with | some i => [(28 + i, 1)] | none => []))).map
    fun x => x.2 * 256 + x.1

/-- DELIVERY_ENTRY_TAKE (R152, R153): one entry for the open batch, once a sample of it is ready or it is complete with
none. -/
def execDeliveryEntryTake (q : Fin 64) (s : State) : Out :=
  .next (match epochOf s q with
    | none => s
    | some e =>
      if !alive s || (part s e.part).resetting || !canSend s e.part || !qDrEn s q || (queue s q).drStop || drCount s q = 0 || !cqFree s (cqSel s q) ||
         e.entries.any (·.batch = e.open_) || !(e.slots.any (·.pos.isSome) || batchComplete s e) then s
      else
        let key := hostKey (qSpace s q) (reg64 s (queueBase q + 0x28) + (queue s q).drCi.toNat % drDepth s q * 64)
        if faulty s key 64 then fetchErr s q true
        else
          let l := hostBytes s key 64
          let s := readReturned s e.part 64
          let s := setQueue s q fun x => { x with drCi := x.drCi + 1 }
          let s := setQueue s (cqSel s q) fun x => { x with promised := x.promised + 1 }
          let ci := (queue s q).drCi
          let tag : Word := BitVec.ofNat 32 (leAt l 24 4)
          match deliveryErr l e with
          | some d => batchReady (bump s (queueBase q + 0x4C)) q tag ci ⟨0x01, d, 0, 0, e.calStale⟩ false
          | none =>
            let d : Delivery := ⟨e.open_, leAt l 0 8, leAt l 8 8, leAt l 16 4, bits (leAt l 20 2) 12 0, tag, ci⟩
            settle (setEpoch s q fun e => { e with entries := e.entries ++ [d] }) q)

/-! ### Placement (R503) -/

/-- The copy of a sample into its slot has ended: the whole staging is visible. It leaves INFLIGHT: its staging area
returns to the pool once the writes are retired, its handle is free again, and a thread of it that still runs stops at its
next instruction boundary. -/
def placedNow (s : State) (q p : Nat) (x : Sample) : State :=
  let s := dropFetchRecs (stopThreads s fun t => (thTile t.th).isSome && t.sample = x.h) x.h
  let s := freeAfter (freeBufs s (x.held.map (·.2) ++ recBufs x)) p x.stagingBufs
  let (n, s) := fresh s
  settle (setSample s x.h fun y => { y with h := 1024 + n, copied := true, straggler := false, held := [], recs := [], stagingBufs := [] }) q

/-- The rest of a placement copy is done and the copy ends; at an unresolvable fault, or where `ok` is false, the sample is
dropped PARTIAL. -/
def endPlacement (s : State) (q pos : Nat) (ok : Bool) : State :=
  match s.transfers.find? (isPlace q pos), epochOf s q, sampleAt s q pos with
  | some t, some e, some x =>
    match x.placed with
    | none => s
    | some i =>
      let (s, bad) := readStaging s x.stagingBufs e.outBytes
      if bad then sampleUe s x.h
      else
        let s := crossed s (((x.stagingBufs.head?).map hDie).getD x.die) (portOf s t.part / 2) e.outBytes
        let s := { s with transfers := s.transfers.filter fun t => !isPlace q pos t }
        if !ok then dropSample s x.h 5 0 0 0
        else match writeOut s t (slotKey e i) (outputOf x e.outBytes) with
          | (s, none) => placedNow s q e.part x
          | (s, some _) => dropSample s x.h 5 0 0 0
  | _, _, _ => s

/-- Whether the staging area of position pos lies behind a paused memory port, or behind a route that changes, between its
die and that of the partition's port (R14, R64). -/
def placeHeld (s : State) (t : Transfer) (q pos : Nat) : Bool :=
  (sampleAt s q pos).any fun x => objectPaused s false 0 t.elements x.stagingBufs ||
    x.stagingBufs.any fun h => routeHeld s (hDie h) (portOf s t.part / 2)

/-- PLACEMENT_COPY_END (R503). -/
def execPlacementCopyEnd (q : Fin 64) (pos : Nat) (s : State) : Out :=
  .next (match s.transfers.find? (isPlace q pos) with
    | some t => if alive s && !t.halted && canSend s t.part && !placeHeld s t q pos then endPlacement s q pos true else s
    | none => s)

/-! ### Release (R506, R509, R510, R523, R524, R529, R536, R663) -/

/-- The flags of a manifest entry (Table 15.4). -/
def slotFlags (y : Slot) (x : Option Sample) : Nat :=
  match x with
  | some x =>
    1 + (if y.orig.isSome then 2 else 0) + (if x.late then 4 else 0) + (if x.damaged then 8 else 0) + (if x.short then 16 else 0)
  | none => if y.padded then 0x20 else 0x40

/-- The sample that a slot holds. -/
def slotSample (s : State) (q : Nat) (y : Slot) : Option Sample := y.pos.bind (sampleAt s q)

/-- A manifest entry (Table 15.4). -/
def manifestBytes (s : State) (e : Epoch) (i : Nat) (y : Slot) : List Byte :=
  let x := slotSample s e.q y
  let v (f : Sample → Nat) : Nat := match x with | some x => f x | none => 0
  toLe 2 i ++ toLe 2 (slotFlags y x) ++
  toLe 4 (match x with | some x => (match x.dir with | some d => d.isrc | none => 0) | none => 0xFFFFFFFF) ++
  toLe 5 (v (·.pos)) ++ toLe 1 (v (·.dset)) ++ toLe 2 (Nat.min 65535 (v (·.damagedPics))) ++ toLe 5 (v (·.dsidx)) ++
  toLe 1 y.reason ++ toLe 1 y.cause ++ toLe 1 0 ++
  toLe 5 (y.orig.getD 0) ++ toLe 3 0 ++ toLe 5 (if y.orig.isSome then y.origDsidx else 0) ++ toLe 3 0 ++
  toLe 8 (v fun x => homeOf e x.pos) ++
  toLe 4 (match x with
    | some x => crc32c (outputOf x e.outBytes)
    | none => if y.padded then crc32c (List.replicate e.outBytes 0) else 0) ++
  toLe 8 e.open_ ++ toLe 4 0

/-- PAD's zero write of slot i; when it ends PARTIAL the slot is VACANT, and what came before the fault is zero (R297, R513). -/
def padSlot (s : State) (q i : Nat) : State :=
  match epochOf s q with
  | none => s
  | some e =>
    let y := e.slots.getD i Slot.empty
    if !y.padded then s
    else if faulty s (slotKey e i) e.outBytes then
      let s := hostWrite s e.part (slotKey e i) (List.replicate (okBytes s (slotKey e i) e.outBytes) 0)
      setSlot s q i { y with padded := false, vacant := true }
    else hostWrite s e.part (slotKey e i) (List.replicate e.outBytes 0)

/-- The filled slots of a batch as compaction orders them: by ascending position in the waiting modes, as they stand in the
throughput modes (R509). -/
def compactOrder (e : Epoch) : List Slot :=
  let keep := e.slots.filter fun y => y.pos.isSome
  if waitingMode e then keep.insertionSort fun a b => a.pos.getD 0 ≤ b.pos.getD 0 else keep

/-- The bytes of the samples in `keep` reach slots i, i + 1, and on, where they do not stand there; a write that ends PARTIAL
drops its sample as a placement copy does (R503, R509). What is filled, and what the lost members leave, come back. -/
def moveDown (q : Nat) : List Slot → Nat → State → List Slot × List Slot × State
  | [], _, s => ([], [], s)
  | y :: ys, i, s =>
    match epochOf s q, y.pos.bind (sampleAt s q) with
    | some e, some x =>
      let there := (e.slots.getD i Slot.empty).pos = y.pos
      if !there && faulty s (slotKey e i) e.outBytes then
        let s := hostWrite s e.part (slotKey e i) ((outputOf x e.outBytes).take (okBytes s (slotKey e i) e.outBytes))
        let s := bump (addLog s q 1 5 0 0xFFFF x.pos noPos) (pavBase e.part + 0x20)
        let s := setEpoch (removeSample s x.h) q fun e => { e with droppedN := e.droppedN + 1 }
        let r := moveDown q ys i s
        let lost : Slot := { Slot.empty with
          removed := true, orig := some (y.orig.getD x.pos), origDsidx := if y.orig.isSome then y.origDsidx else x.dsidx, reason := 5 }
        (r.1, lost :: r.2.1, r.2.2)
      else
        let s := if there then s else hostWrite s e.part (slotKey e i) (outputOf x e.outBytes)
        let r := moveDown q ys (i + 1) s
        (y :: r.1, r.2.1, r.2.2)
    | _, _ => moveDown q ys i s

/-- SHRINK: before release the valid slots of a batch that has lost one stand in slots 0 onward (R509). -/
def compact (s : State) (q : Nat) : State :=
  match epochOf s q with
  | none => s
  | some e =>
    if e.policy = 1 && e.slots.any (·.removed) then
      let rest := e.slots.filter fun y => !y.pos.isSome
      let (keep, lost, s) := moveDown q (compactOrder e) 0 s
      setEpoch s q fun e => { e with slots := keep ++ lost ++ rest }
    else s

/-- A cursor record (Table 15.8). -/
def cursorBytes (e : Epoch) (last : Bool) : List Byte :=
  let l := toLe 4 0x52535543 ++ toLe 1 3 ++ toLe 1 1 ++ toLe 2 e.num ++ toLe 4 e.recipe ++
    toLe 1 (e.mode + (if e.strict then 4 else 0) + 8 * e.policy + (if last then 32 else 0)) ++ toLe 1 e.lead ++ toLe 2 e.b ++
    toLe 8 e.open_ ++ toLe 6 (batchLo e (e.open_ + 1)) ++ toLe 2 0 ++ toLe 6 e.n ++ toLe 2 0 ++
    toLe 8 (keyHash e.seed e.tableCrc) ++ toLe 8 e.logBase ++ toLe 1 e.log2 ++ toLe 7 0 ++ toLe 8 e.logHead ++
    toLe 8 e.logFloor ++ toLe 8 e.delivered ++ toLe 8 e.droppedN ++ toLe 8 e.deferredN ++ toLe 20 0
  l ++ toLe 4 (crc32c l)

/-- Whether the batch that is being released is the epoch's last (R663). -/
def isLast (e : Epoch) : Bool := memberBatches e ≤ e.open_ + 1 && !unresolved e

/-- The floor after the release of the open batch, with the records at or above it (R527). -/
def dropFloor (e : Epoch) : Epoch :=
  let live := e.logLive.filter (logIsLive e.logLive (batchLo e (e.open_ + 1)))
  let floor := (leastOf (live.map (·.index))).getD e.logHead
  { e with logFloor := floor, logLive := e.logLive.filter fun r => floor ≤ r.index }

/-- Takes the batch's entry off and the epoch ends as with DRAIN 0 (R524). -/
def failRelease (s : State) (q : Nat) (d : Delivery) (r : Result) : State :=
  let s := setEpoch s q fun e => { e with entries := e.entries.filter fun y => y.batch ≠ d.batch }
  cutEpoch (batchReady s q d.dtag d.ci r false) q

/-- RESULT1 of a BATCH_READY (R154): valid slots, and the entries with a flag beside VALID. -/
def releaseR1 (s : State) (e : Epoch) : Nat :=
  (e.slots.filterMap (slotSample s e.q)).length +
    2 ^ 16 * (e.slots.filter fun y => 2 ≤ slotFlags y (slotSample s e.q y)).length

/-- The last writes of a release: manifest, completion, cursor (Table 15.6). -/
def writeRelease (s : State) (e : Epoch) (d : Delivery) : State :=
  let q := e.q
  let man := (e.slots.zipIdx).flatMap fun (y, i) => manifestBytes s e i y
  let key := hostKey e.pasid d.manifest
  if faulty s key man.length then
    let n := okBytes s key man.length
    failRelease (hostWrite s e.part key (man.take n)) q d ⟨0x04, 0, n, releaseR1 s e, e.calStale⟩
  else
    let r1 := releaseR1 s e
    let n := (e.slots.filterMap (slotSample s q)).length
    let s := hostWrite s e.part key man
    let s := setEpoch s q fun e => dropFloor { e with
      delivered := e.delivered + n, released := some e.open_, lastOk := some e.open_
      entries := e.entries.filter fun y => y.batch ≠ d.batch }
    let last := isLast e
    let s := batchReady s q d.dtag d.ci ⟨0, 0, e.open_, r1, e.calStale⟩ last
    let s := bump64 (bump64 s (pavBase e.part + 0x10) 1) 0x6198 1
    let s := { s with samples := s.samples.filter fun x => !(ofEpoch q x && x.copied) }
    match epochOf s q with
    | none => s
    | some e =>
      let key := hostKey (qSpace s q) (reg64 s (queueBase q + 0x34) + e.open_ % curDepth s q * 128)
      if faulty s key 128 then cutEpoch s q
      else
        let s := hostWrite s e.part key (cursorBytes e last)
        if last then
          let s := { s with epochs := s.epochs.filter fun x => x.q ≠ q }
          finishClose s q (lastReleased e) 0
        else settle (openBatch s q (e.open_ + 1)) q

/-- The writes of a release in the order of Table 15.6; none after a log record that has failed (R524). -/
def release (s : State) (q : Nat) (d : Delivery) : State :=
  let failed (s : State) : Bool := (epochOf s q).any (·.logFault)
  let s := if failed s then s else compact s q
  let s := if failed s then s
    else (List.range (((epochOf s q).map (·.slots.length)).getD 0)).foldl (fun s i => padSlot s q i) s
  match epochOf s q with
  | none => s
  | some e =>
    if e.logFault then failRelease s q d ⟨0x04, 0, 0, releaseR1 s e, e.calStale⟩ else writeRelease s e d

/-- BATCH_RELEASE (R508, R510): the open batch when it is complete, its entry is taken and it is due, or is one of the
first L, or is a flushed last batch (R663). -/
def execBatchRelease (q : Fin 64) (s : State) : Out :=
  .next (match epochOf s q with
    | none => s
    | some e =>
      let flushed := memberBatches e ≤ e.open_ && !unresolved e && e.slots.all fun y => y.pos.isNone
      if alive s && !(part s e.part).stranded && e.opening.isNone && batchComplete s e && (e.open_ < e.first + e.lead + e.steps || flushed) then
        match e.entries.find? fun d => d.batch = e.open_ with
        | some d => release s q d
        | none => s
      else s)

/-! ### Grace windows, budgets and hard timeouts -/

/-- A sample becomes ready at this instant: its unpublished leaf stages publish DONE (R520). -/
def arrive (s : State) (h : Nat) : State :=
  match sampleOf s h with
  | none => s
  | some x =>
    match recipeOf s x.part x.recipe with
    | none => s
    | some r =>
      let leaf (g : Nat) : Bool := !(r.stages.any fun st => st.parent = g)
      let tokens := x.tokens.zipIdx.map fun (t, g) => if leaf g && t = 0 then 1 else t
      let s := { s with threads := updIf (fun t => t.sample = h && leaf t.stage) (fun t => { t with published := 1 }) s.threads }
      setSample s h fun y => { y with tokens := tokens, ready := true }

/-- GRACE_WINDOW_END (R517, R518, R520): a member that becomes ready in the same instant meets the arbiter. -/
def execGraceWindowEnd (q : Fin 64) (meets : Option Nat) (s : State) : Out :=
  .next (match epochOf s q with
    | none => s
    | some e =>
      if !alive s || !e.graceRun then s
      else
        match meets.bind (sampleOf s) with
        | some x =>
          if ofEpoch q x && !x.ready && x.placed.isNone && homeOf e x.pos = e.open_ then
            let (arrival, s) := arbitrate s
            if arrival then graceEnd (settle (arrive s x.h) q) q none
            else
            let s := bump (bump64 s 0x2010 1) (dieBase 0 + 0x200C)
            if waitingMode e then settle (arrive (graceEnd s q none) x.h) q
            else
              let s := bump s (pavBase e.part + 0x24)
              graceEnd (arrive s x.h) q (some x.pos)
          else s
        | none => if meets.isSome then s else graceEnd s q none)

/-- BUDGET_EXCEEDED (R519): a deferred sample becomes a straggler, or is dropped when its partition holds 64. -/
def execBudgetExceeded (sample : Nat) (s : State) : Out :=
  .next (match sampleOf s sample with
    | none => s
    | some x =>
      if !alive s || !x.deferred || x.straggler || x.ready || x.copied then s
      else
        overBudget (setSample s sample fun y => { y with charged := Nat.max y.charged (y.budget + 1) }) sample)

/-- A tile that runs a sample, or the first of its die. -/
def tileOfSample (s : State) (x : Sample) : Nat :=
  ((s.threads.filter fun t => t.sample = x.h).findSome? fun t => thTile t.th).getD (24 * x.die)

/-- HARD_TIMEOUT (R189, R513): the sample is aborted and dropped; in a CALIBRATE the command ends (R176). -/
def execHardTimeout (sample : Nat) (s : State) : Out :=
  .next (match sampleOf s sample with
    | none => s
    | some x =>
      if !alive s || !x.started || x.copied || x.ready then s
      else
        let t := tileOfSample s x
        dropSample (raise s ⟨0x1B, false, t / 24, some x.part, 1, t⟩) sample 6 0 0 0)

/-- RELEASE_TREE_TIMEOUT (R539): a tile or die did not acknowledge a step that was carried to it. Force bit 5 injects it
(R603, R604). -/
def execReleaseTreeTimeout (kind index : Nat) (s : State) : Out :=
  .next (if alive s && s.carried.contains (kind, index) && !unitLost s kind index then
      let forced := fld s 0x1010 5 5 = 1 && forceUnit 5 (fld s 0x1034 7 0) = (kind, index)
      let s := { s with carried := s.carried.filter (· ≠ (kind, index)) }
      raise (if forced then setFld s 0x1010 5 5 0 else s)
        ⟨0x11, forced, if kind = 1 then index / 24 else index, none, kind, index⟩
    else s)

end Sys2Proof.Machine
end

