-- ==== Sys2Proof/Machine/Sources.lean ====
section
/-!
DEFINITION. Sources: binding, grants, drives and what a read of a source meets (R53 to R59, R262 to R267, R288, R356).
-/

namespace Sys2Proof.Machine

/-! ### What a source names -/

def kindOf (s : State) (p src : Nat) : Option SourceKind := (sourceOf s p src).map (·.kind)

/-- A source that new fetches may name (R266). -/
def openSource (s : State) (p id : Nat) : Option Source := (sourceOf s p id).filter fun x => x.unbinding.isNone

/-- Bytes of a source (R276, R356). -/
def sourceBytes (s : State) (x : Source) : Nat :=
  match x.kind with
  | .nvme _ _ _ lba blocks => lba * blocks
  | .host _ n _ => n
  | .copy => ((copyOf s x.part x.id).map (·.data.length)).getD 0

/-- The damage cause of a range of a source: UNBOUND, OUT_OF_SOURCE, or 0 (Table 8.8). -/
def rangeCause (s : State) (p src off len : Nat) : Nat :=
  match openSource s p src with
  | none => 7
  | some x => if (copyOf s p src).any (·.failed.isSome) then 0 else if sourceBytes s x < off + len then 8 else 0

def driveOf (s : State) (sp link : Nat) : Option Drive := s.drives.find? fun d => d.sp = sp && d.link = link

/-- The drive on a link, once it is available (R55). -/
def driveReadyAt (s : State) (sp link : Nat) : Bool := (driveOf s sp link).any fun d => d.state = .available

/-- What a read of a source meets. -/
inductive ReadResult where
  | bytes (l : List Byte)
  /-- ended with a ticket status and a damage cause -/
  | ended (status cause : Nat)
  /-- nothing can be read now -/
  | wait
  deriving DecidableEq, Repr

/-- Reads len bytes of a source at off; `r` says what a drive returns or how a host read ends, after its retries (R287). Bytes of another length
than the read's are no answer to it. -/
def readSource (s : State) (x : Source) (off len : Nat) (r : SourceRead) : ReadResult :=
  match x.kind with
  | .nvme sp link _ _ _ =>
    if x.dead || !driveReadyAt s sp link then .ended 2 0
    else match r with
      | .data l => if l.length = len then .bytes l else .wait
      | .timeout => .ended 3 0
      | .gone => .ended 2 0
      | .readError pi => .ended 1 (if pi then 3 else 2)
      | .hostError => .wait
      | .partialRead => .wait
  | .host base _ pasid =>
    if !canSend s x.part then .wait
    else match r with
      | .timeout => .ended 3 0
      | .partialRead => .ended 4 0
      | .hostError => .ended 1 4
      | .readError _ => .wait
      | .gone => .wait
      | .data _ =>
        let key := hostKey pasid (base + off)
        if faulty s key len then .ended 4 0 else .bytes (hostBytes s key len)
  | .copy =>
    match copyOf s x.part x.id with
    | none => .wait
    | some c => match c.failed with
      | some e => .ended e 0
      | none => if c.regenerating then .wait else .bytes (sliceB c.data off len)

/-- Whether the limits of R262 leave no further id. -/
def idsSpent (s : State) (p : Nat) : Bool :=
  let l := s.sources.filter fun y => isBound s y.part y.id
  4096 ≤ (l.filter (·.part = p)).length || 16384 ≤ l.length

/-! ### SOURCE_BIND, SOURCE_UNBIND, NS_GRANT -/

/-- Links that a source port's bifurcation gives (R53). -/
def linkPresent (s : State) (sp link : Nat) : Bool := link < 2 ^ fld s (dieBase sp + 0x100) 1 0

/-- SOURCE_BIND (R143, R263, Table 8.1). -/
def execSourceBind (c : Nat) (s : State) : Out :=
  .next (withCmd s c 0x20 fun s x =>
    let id := opBits x 0 31 0
    let host := opBits x 0 39 32 = 1
    let ms := if xopBits x 0 15 0 = 0 then (if host then 10 else 50) else xopBits x 0 15 0
    let tries := if x.xops.isEmpty then 2 else xopBits x 1 1 0
    let go (k : SourceKind) : State :=
      let s := { s with sources := s.sources.filter fun y => !(y.part = x.part && y.id = id) }
      let s := { s with copies := s.copies.filter fun y => !(y.part = x.part && y.id = id) }
      complete { s with sources := s.sources ++ [⟨x.part, id, k, ms, tries, none, false⟩] } x (plain 0)
    if isBound s x.part id then complete s x denied
    else if idsSpent s x.part then complete s x denied
    else if host then go (.host (op64 x 1) (opBits x 2 47 0) (qSpace s x.q))
    else
      let nsid := BitVec.ofNat 32 (opBits x 1 31 0)
      let sp := opBits x 1 33 32
      let link := opBits x 1 35 34
      if !linkPresent s sp link then complete s x (range 16)
      else if x.part ≠ 0 ∧ !s.grants.contains ⟨x.part, sp, link, nsid⟩ then complete s x denied
      else match driveOf s sp link with
        | none => complete s x ⟨0x06, id % 65536, 0, 0, false⟩
        | some d =>
          if d.state ≠ .available then complete s x ⟨0x06, id % 65536, 0, 0, false⟩
          else match d.nss.find? fun n => n.nsid = nsid with
            | none => complete s x (range 16)
            | some n => go (.nvme sp link nsid n.lba n.blocks))

/-- Every byte entry of a source goes, pinned or not (R347). -/
def dropEntries (s : State) (p : Nat) (f : CacheEntry → Bool) : State :=
  (s.cache.filter fun c => c.part = p && f c).foldl dropEntry s

/-- A transcoded copy goes, and its id with it (R347, R348). -/
def dropCopy (s : State) (c : CopySource) : State :=
  let s := freeBufs (stopThreads s fun t => t.sample = regenTag c.part c.id) (c.bufs ++ c.regenBufs)
  { s with copies := s.copies.filter fun y => !(y.part = c.part && y.id = c.id)
           sources := s.sources.filter fun y => !(y.part = c.part && y.id = c.id && y.kind = .copy) }

/-- SOURCE_UNBIND (R266, R348): no new fetches; the entries go at once. -/
def execSourceUnbind (c : Nat) (s : State) : Out :=
  .next (withCmd s c 0x21 fun s x =>
    let id := opBits x 0 31 0
    if !isBound s x.part id || (openSource s x.part id).isNone then complete s x (range 8)
    else
      let s := dropEntries s x.part fun e => e.src = id
      startCmd { s with sources := updIf (fun y => y.part = x.part && y.id = id) (fun y => { y with unbinding := some c }) s.sources } c)

/-- SOURCE_UNBIND_DRAINED (R266): once no fetch of the source is left, the id is free. -/
def execSourceUnbindDrained (c : Nat) (s : State) : Out :=
  .next (withStarted s c 0x21 fun s x =>
    match s.sources.find? fun y => y.unbinding = some c with
    | none => complete s x (plain 0)
    | some y =>
      if s.fetches.any fun f => f.part = x.part && f.src = y.id && !f.ended then s
      else
        let s := dropEntries s x.part fun e => e.src = y.id
        let s := { s with sources := s.sources.filter fun z => z.unbinding ≠ some c }
        let s := match copyOf s x.part y.id with | some k => dropCopy s k | none => s
        let s := setPart s x.part fun z => { z with pins := z.pins.filter (· ≠ y.id) }
        complete s x (plain 0))

/-- NS_GRANT (R143, R267). -/
def execNsGrant (c : Nat) (s : State) : Out :=
  .next (withCmd s c 0x22 fun s x =>
    let p := opBits x 0 3 0
    let sp := opBits x 0 5 4
    let link := opBits x 0 7 6
    let nsid := BitVec.ofNat 32 (opBits x 0 63 32)
    let g : Grant := ⟨p, sp, link, nsid⟩
    if x.part ≠ 0 then complete s x denied
    else if p = 0 ∨ !linkPresent s sp link then complete s x (range 8)
    else if !(driveOf s sp link).any (fun d => d.state = .available && d.nss.any (·.nsid = nsid)) then complete s x (range 8)
    else if opBits x 0 8 8 = 1 then
      if s.sources.any fun y => y.part = p && (match y.kind with | .nvme a b n _ _ => a = sp && b = link && n = nsid | _ => false) then
        complete s x denied
      else complete { s with grants := s.grants.filter (· ≠ g) } x (plain 0)
    else complete { s with grants := s.grants.filter (· ≠ g) ++ [g] } x (plain 0))

/-! ### Drives (R55 to R59, R666, Table 2.4) -/

/-- Whether a link of a source port is in service. -/
def linkOn (s : State) (sp link : Nat) : Bool :=
  alive s && s.boot.fwRun && !dieLost s sp && fld s (dieBase sp + 0x104) 0 0 = 1 && linkPresent s sp link &&
  !(fld s 0x1010 3 3 = 1 && fld s 0x102C 7 0 = 4 * sp + link)

/-- SPd_PERST_N of a link: high while its port has been brought up, low while the port is disabled (R65, R630). -/
def perstHigh (s : State) (sp link : Nat) : Bool := linkOn s sp link

def isPresent (s : State) (sp link : Nat) : Bool := s.pins.present.getLsbD (4 * sp + link)

/-- A link's presence as its filter has accepted it (R66). -/
def setPresent (s : State) (sp link : Nat) (on : Bool) : State :=
  let b := BitVec.twoPow 16 (4 * sp + link)
  { s with pins := { s.pins with present := if on then s.pins.present ||| b else s.pins.present &&& ~~~b } }

/-- A present drive's link trains: below 16 GT/s it is not brought up and the drive is reported absent with reason LOW_RATE;
otherwise the controller is enabled (R55, Table 2.3). -/
def linkTrained (s : State) (sp link gtps : Nat) : State :=
  if !linkOn s sp link || (driveOf s sp link).isSome then s
  else
    let others := s.lowRate.filter (· ≠ (sp, link))
    if gtps < 16 then { s with lowRate := others ++ [(sp, link)] }
    else { s with lowRate := others, drives := s.drives ++ [⟨sp, link, .starting, 0, []⟩] }

/-- DRIVE_ARRIVAL (R55, R66): the presence pin has been low for a while, and the link trains once its filter has taken
that. A drive already present trains whatever the pin did. -/
def execDriveArrival (sp link : Fin 4) (a : LinkTrain) (s : State) : Out :=
  .next (if s.pins.inReset then s
    else
      let s := if isPresent s sp link then s else onPulse s a.stableMs 1 10 fun s => setPresent s sp link true
      if isPresent s sp link then linkTrained s sp link a.gtps else s)

def setDrive (s : State) (sp link : Nat) (f : Drive → Drive) : State :=
  { s with drives := updIf (fun d => d.sp = sp && d.link = link) f s.drives }

/-- A drive is reported unusable with its failing step (R56, R666). -/
def driveUnusable (s : State) (sp link step sf : Nat) : State :=
  let s := setDrive s sp link fun d => { d with state := .unusable }
  postEvent (raise s ⟨0x0A, false, sp, none, 6, 4 * sp + link⟩) 0 2 (sp + 4 * link + 256 * step + 65536 * sf)

/-- DRIVE_READY (R55, R56): the controller and its namespaces have been identified, or a step failed. -/
def execDriveReady (sp link : Fin 4) (r : DriveIdent) (s : State) : Out :=
  .next (if !alive s || !(driveOf s sp link).any (fun d => d.state = .starting) then s
    else match r with
      | .ready mdts nss =>
        let ok := nss.filter fun n => n.lba = 512 || n.lba = 4096
        postEvent (setDrive s sp link fun d => { d with state := .available, mdts := Nat.min mdts 1048576, nss := ok.take 32 })
          0 1 (sp.val + 4 * link.val)
      | .failed step sf => if 2 ≤ step.toNat ∧ step.toNat ≤ 5 then driveUnusable s sp link step.toNat sf.toNat else s)

/-- DRIVE_READY_TIMEOUT (R56). -/
def execDriveReadyTimeout (sp link : Fin 4) (s : State) : Out :=
  .next (if alive s && (driveOf s sp link).any (fun d => d.state = .starting) then driveUnusable s sp link 1 0 else s)

/-- A source link goes down (R57, R58): containment, and SRCPORT_DOWN for the link. -/
def sourceLinkDown (s : State) (sp link : Nat) : State :=
  if alive s && (driveOf s sp link).isSome then raise (containLink s sp link) ⟨9, false, sp, none, 6, 4 * sp + link⟩ else s

/-- A drive leaves its slot: its link goes down, and what was reported of its rate is gone with it. -/
def drivePulled (s : State) (sp link : Nat) : State :=
  let s := setPresent s sp link false
  sourceLinkDown { s with lowRate := s.lowRate.filter (· ≠ (sp, link)) } sp link

/-- DRIVE_REMOVAL (R57, R66): the link goes down, or the presence pin has been high for as many ms, which its filter takes or
not. -/
def execDriveRemoval (sp : Fin 4) (at_ : LinkLeft) (s : State) : Out :=
  .next (if s.pins.inReset then s
    else match at_.absentMs with
    | none => sourceLinkDown s sp at_.link
    | some n => onPulse s n 1 10 fun s => drivePulled s sp at_.link)

/-- DOWNSTREAM_PORT_CONTAINMENT (R53, Table 2.3): fetches from the drive end as for a removal. -/
def execDownstreamPortContainment (sp link : Fin 4) (s : State) : Out := .next (sourceLinkDown s sp link)

end Sys2Proof.Machine
end

