-- ==== Sys2Proof/Machine/Tensors.lean ====
section
/-!
DEFINITION. Tensors and the copy commands: creation and destruction, the checks and the element sequences of COPY,
COPY_LAYOUT, GATHER and SCATTER (R403 to R422).
-/

namespace Sys2Proof.Machine

/-! ### Handles (R407, R408) -/

def tensorHandle (t : Tensor) : Nat := t.slot + t.part * 2 ^ 16 + t.gen * 2 ^ 20

/-- Whether a command may still name the object of handle h, whose end `dying` has begun: from the taking of a command `op` that
ends it on, none taken later may (R408, R569). -/
def stillNames (s : State) (x : Cmd) (op h : Nat) (dying : Option Nat) : Bool :=
  !(s.cmds.any fun y => y.part = x.part && y.opcode = op && op64 y 0 = h && y.id < x.id) && dying.all (x.id ≤ ·)

/-- The live tensor that a command names by a handle. -/
def namedTensor (s : State) (x : Cmd) (h : Nat) : Option Tensor :=
  s.tensors.find? fun t => t.part = x.part && tensorHandle t = h && stillNames s x 0x41 h t.dying

/-- The field of Table 12.2 that a descriptor breaks, at the first step of Table 12.3 that fails. -/
def tensorBad (l : List Byte) : Option Nat :=
  let t := parseDesc l
  (leastOf (descShape l (· = 0))).or ((leastOf (descAlign t)).or (leastOf (descRange t)))

/-- A RANGE outcome of TENSOR_CREATE (R403). -/
def tensorRange (o : Nat) : Result := ⟨0x0A, 8, 0, o, false⟩

/-- TENSOR_CREATE (R403 to R405, Table 12.3). -/
def execTensorCreate (c : Nat) (s : State) : Out :=
  .next (withHost s c 0x40 fun s x =>
    let key := cmdKey s x (op64 x 0)
    if faulty s key 128 then complete s x (partialR (okBytes s key 128))
    else
      let l := hostBytes s key 128
      let s := readReturned s x.part 128
      let t := parseDesc l
      let ok := xopBits x 0 0 0 = 1
      match tensorBad l with
      | some o => complete s x (tensorRange o)
      | none =>
        match if t.ro || ok then none else aliasAt t with
        | some d => complete s x ⟨0x08, d, 0, 0, false⟩
        | none =>
          match firstFrom (fun i => !s.tensors.any fun y => y.slot = i) 65536 0 with
          | some i =>
            if 16384 ≤ (s.tensors.filter (·.part = x.part)).length then
              complete { s with freeCtr := s.freeCtr + 1 } x (tensorRange (Config.freeWord s.freeCtr).toNat)
            else
              let g := look (fun _ => 0) s.tensorGens i
              let y : Tensor := ⟨x.part, i, g, t, ok, qSpace s x.q, none⟩
              let s := { s with tensors := s.tensors ++ [y]
                                tensorGens := put (fun _ => 0) i ((g + 1) % 2 ^ 32) s.tensorGens }
              complete s x (okWith (tensorHandle y))
          | none => complete { s with freeCtr := s.freeCtr + 1 } x (tensorRange (Config.freeWord s.freeCtr).toNat))

/-- TENSOR_DESTROY (R408): the handle is invalid for every command taken from now on. -/
def execTensorDestroy (c : Nat) (s : State) : Out :=
  .next (withCmd s c 0x41 fun s x =>
    match namedTensor s x (op64 x 0) with
    | none => complete s x (range 8)
    | some t =>
      let end_ (y : Tensor) : Tensor := { y with dying := some x.id }
      startCmd { s with tensors := updIf (fun y => y.slot = t.slot && y.gen = t.gen) end_ s.tensors } c)

/-- Whether a command names a tensor by this handle. -/
def namesTensor (x : Cmd) (h : Nat) : Bool :=
  (x.opcode = 0x41 && op64 x 0 = h) ||
  ([0x42, 0x43, 0x44, 0x45].contains x.opcode && (op64 x 0 = h || op64 x 1 = h))

/-- TENSOR_DESTROY_DRAINED (R408): no command taken before it that names the handle is outstanding. -/
def execTensorDestroyDrained (c : Nat) (s : State) : Out :=
  .next (withStarted s c 0x41 fun s x =>
    let h := op64 x 0
    if s.cmds.any fun y => y.part = x.part && y.id < x.id && namesTensor y h then s
    else
      complete { s with tensors := s.tensors.filter fun t => !(t.part = x.part && tensorHandle t = h) } x (plain 0))

/-! ### The boxes that a copy command writes -/

/-- A box of destination elements, `n` from `lo`. Those of `cnt` from `dst` are copied from `src` on, the others take the
pad. -/
structure Box where
  lo : List Nat
  n : List Nat
  dst : List Nat
  src : List Nat
  cnt : List Nat
  pad : Nat
  deriving DecidableEq, Repr

def at6 (l : List Nat) (d : Nat) : Nat := l.getD d 0
def tab6 (f : Nat → Nat) : List Nat := (List.range 6).map f

/-- A slice record (Table 12.4). -/
structure Slice where
  pad : Nat
  src : List Nat
  cnt : List Nat
  dst : List Nat
  reg : List Nat
  regN : List Nat
  padLo : List Nat
  padHi : List Nat
  deriving DecidableEq, Repr

def readSlice (l : List Byte) : Slice :=
  let f (o n : Nat) : List Nat := tab6 fun d => leAt l (o + 24 * d) n
  ⟨leAt l 0 8, f 16 4, f 20 4, f 24 4, f 28 4, f 32 4, f 36 2, f 38 2⟩

/-- The offsets of the fields of one slice record that break Table 12.4, R410 or R411, each condition at its lowest
field. -/
def sliceBad (s t : Desc) (l : List Byte) : List Nat :=
  let y := readSlice l
  badIf (2 ^ etypeBits t.etype ≤ y.pad) 0 ++ badIf (!zeroBytes l 8 16) 8 ++
  (List.range 6).flatMap fun d =>
    let o := 24 * d
    let blk (x : Nat) : Bool := etypeMx t.etype && d = 5 && x % 32 ≠ 0
    let a := at6 y.src d
    let c := at6 y.cnt d
    let b := at6 y.dst d
    let r := at6 y.reg d
    let k := at6 y.regN d
    badIf (s.ext d < a + c || blk a) (16 + o) ++ badIf (c = 0 || 2 ^ 31 < c || r + k < b + c || blk c) (20 + o) ++
    badIf (b < r || blk b) (24 + o) ++ badIf (t.ext d < r + k || blk r) (28 + o) ++
    badIf (k = 0 || 2 ^ 31 < k || blk k) (32 + o) ++ badIf (blk (at6 y.padLo d)) (36 + o) ++
    badIf (blk (at6 y.padHi d)) (38 + o)

/-- What a slice writes: its padded box inside its own region (R412). -/
def sliceBox (y : Slice) : Box :=
  let lo := tab6 fun d => Nat.max (at6 y.reg d) (at6 y.dst d - at6 y.padLo d)
  let hi := tab6 fun d => Nat.min (at6 y.reg d + at6 y.regN d) (at6 y.dst d + at6 y.cnt d + at6 y.padHi d)
  ⟨lo, tab6 fun d => at6 hi d - at6 lo d, y.dst, y.src, y.cnt, y.pad⟩

/-- The slices of a list. -/
def slicesOf (l : List Byte) : List Slice := (List.range (l.length / 160)).map fun i => readSlice (sliceB l (160 * i) 160)

/-- Entry k of a coordinate list, clipped to both tensors (R415). -/
def gatherBox (s t : Desc) (l : List Byte) (k : Nat) : Box :=
  let src := tab6 fun d => leAt l (64 + 48 * k + 4 * d) 4
  let dst := tab6 fun d => leAt l (88 + 48 * k + 4 * d) 4
  let n := tab6 fun d => Nat.min (leAt l (4 * d) 4) (Nat.min (s.ext d - at6 src d) (t.ext d - at6 dst d))
  ⟨dst, n, dst, src, n, 0⟩

def gatherBoxes (s t : Desc) (l : List Byte) : List Box := (List.range ((l.length - 64) / 48)).map (gatherBox s t l)

/-- The boxes of a copy command, in the order in which it writes them. -/
def boxesOf (k : TransferKind) (s t : Desc) : List Box :=
  match k with
  | .copy l => (slicesOf l).map sliceBox
  | .copyLayout => [⟨tab6 fun _ => 0, t.extent, tab6 fun _ => 0, tab6 fun _ => 0, t.extent, 0⟩]
  | .gather l => gatherBoxes s t l
  | .scatter l => gatherBoxes s t l
  | _ => []

def boxSize (b : Box) : Nat := (tab6 (at6 b.n)).foldl (· * ·) 1

/-- Whether the boxes [a, a + m) and [b, b + n) intersect in every dimension. -/
def boxesMeet (a m b n : List Nat) : Bool :=
  (List.range 6).all fun d => Nat.max (at6 a d) (at6 b d) < Nat.min (at6 a d + at6 m d) (at6 b d + at6 n d)

/-- The lowest j below n that clashes with an earlier one, and the lowest i with which it clashes (R413). -/
def firstPair (n : Nat) (hit : Nat → Nat → Bool) : Option (Nat × Nat) :=
  (List.range n).findSome? fun j => ((List.range j).find? fun i => hit i j).map fun i => (i, j)

/-! ### Elements -/

/-- Requests of a command's boxes: one for each element, or for each run of dimension 5 where it is dense, so that elements
that share a byte or a scale travel together (R293, R393, R394). -/
def boxReqs (dense : Bool) : Nat → Nat → List Box → List (Req (Box × Nat))
  | _, _, [] => []
  | num, first, b :: bs =>
    let run := if dense then at6 b.n 5 else 1
    let k := if boxSize b = 0 then 0 else boxSize b / run
    (List.range k).map (fun i => ⟨num + i, first + i * run, (b, i)⟩) ++ boxReqs dense (num + k) (first + boxSize b) bs

/-- Destination indices of a request. -/
def reqIdx (dense : Bool) (x : Box × Nat) : List (List Nat) :=
  let run := if dense then at6 x.1.n 5 else 1
  (List.range run).map fun j => addIdx x.1.lo (unlogical x.1.n (x.2 * run + j))

/-- The source index that an element is copied from; none for a pad. -/
def sourceIdx (b : Box) (i : List Nat) : Option (List Nat) :=
  if (List.range 6).all fun d => at6 b.dst d ≤ at6 i d && at6 i d < at6 b.dst d + at6 b.cnt d then
    some (tab6 fun d => at6 i d - at6 b.dst d + at6 b.src d)
  else none

/-- Bits of an element in host memory. -/
def elemBits (s : State) (t : Tensor) (i : List Nat) : Nat :=
  let (a, b) := elemAddr t.desc i
  leNat (hostBytes s (hostKey t.pasid a) (elemSpan t.desc i).2) / 2 ^ b % 2 ^ etypeBits t.desc.etype

/-- Element i of tensor t as it stands once the value of Box b reaches it: its bits over the others of its bytes (R421), and
with the first element of a block the block's scale (R394, R411). Its source is read immediately before (R420). -/
def copyElem (f t : Tensor) (b : Box) (s : State) (i : List Nat) : State :=
  let (a, o) := elemAddr t.desc i
  let key := hostKey t.pasid a
  let n := (elemSpan t.desc i).2
  let w := etypeBits t.desc.etype
  let from_ := sourceIdx b i
  let v := match from_ with | some j => elemBits s f j | none => b.pad
  let old := leNat (hostBytes s key n)
  let u := poke s key (toLe n (old - old / 2 ^ o % 2 ^ w * 2 ^ o + v % 2 ^ w * 2 ^ o))
  if etypeMx t.desc.etype && at6 i 5 % 32 = 0 then
    let c : Byte := match from_ with
      | some j => look zero s.hostMem (hostKey f.pasid (scaleAddr f.desc j))
      | none => 0x7F
    poke u (hostKey t.pasid (scaleAddr t.desc i)) [c]
  else u

/-- Bytes that a run of elements of a tensor occupies, with the scales of the blocks that begin in it; 0 for none. -/
def runBytes (y : Tensor) : List (List Nat) → Nat
  | [] => 0
  | j :: js => ceilDiv ((elemAddr y.desc j).2 + etypeBits y.desc.etype * (js.length + 1)) 8 +
      (if etypeMx y.desc.etype then (js.length + 1) / 32 else 0)

/-- Bytes that one request of a copy command from f to t reads and writes. -/
def reqBytes (f t : Tensor) (x : Box × Nat) : Nat × Nat :=
  let is := reqIdx (denseLast t.desc.etype) x
  (runBytes f (is.filterMap (sourceIdx x.1)), runBytes t is)

/-- Moves one request of a copy command from f to t: its elements one after another, then the scales of the blocks that
begin in it, in one write each. Every command runs in this order, which single-lane sequential mode asks for and which no
other command can tell from another (R405, R420). -/
def copyReq (f t : Tensor) (s : State) (x : Box × Nat) : State :=
  let is := reqIdx (denseLast t.desc.etype) x
  let s := readReturned s t.part (reqBytes f t x).1
  match is with
  | [] => s
  | i :: _ =>
    let u := is.foldl (copyElem f t x.1) s
    let put (s : State) (a n : Nat) : State :=
      let key := hostKey t.pasid a
      hostWrite s t.part key (hostBytes u key n)
    let (a, o) := elemAddr t.desc i
    let s := put s a (ceilDiv (o + etypeBits t.desc.etype * is.length) 8)
    (is.filter fun i => etypeMx t.desc.etype && at6 i 5 % 32 = 0).foldl (fun s i => put s (scaleAddr t.desc i) 1) s

/-- Whether a request touches a page whose translation is unresolvable. -/
def copyBad (f t : Tensor) (s : State) (x : Box × Nat) : Bool :=
  let bad (y : Tensor) (i : List Nat) : Bool :=
    let (a, n) := elemSpan y.desc i
    faulty s (hostKey y.pasid a) n || (etypeMx y.desc.etype && faulty s (hostKey y.pasid (scaleAddr y.desc i)) 1)
  (reqIdx (denseLast t.desc.etype) x).any fun i =>
    bad t i || (match sourceIdx x.1 i with | some j => bad f j | none => false)

/-! ### The commands -/

/-- The source and destination of a copy command under way. -/
def copyEnds (s : State) (x : Cmd) : Option (Tensor × Tensor) :=
  match namedTensor s x (op64 x 0), namedTensor s x (op64 x 1) with
  | some f, some t => some (f, t)
  | _, _ => none

/-- The requests of a copy transfer. -/
def copyReqs (k : TransferKind) (f t : Tensor) : List (Req (Box × Nat)) :=
  boxReqs (denseLast t.desc.etype) 0 0 (boxesOf k f.desc t.desc)

/-- Whether a copy runs in single-lane sequential mode: by XOP0 [0] of SCATTER, into an alias-permitted tensor, or into bytes
that its source shares (R405, R416, R420). -/
def oneLane (k : TransferKind) (x : Cmd) (f t : Tensor) : Bool :=
  (match k with | .scatter _ => xopBits x 0 0 0 = 1 | _ => false) || t.aliasOk ||
  (f.pasid = t.pasid && f.desc.lo < t.desc.hi && t.desc.lo < f.desc.hi)

/-- Requests up to the first that meets a fault: in single-lane mode no later one has been issued. -/
def laneReqs (s : State) (f t : Tensor) (l : List (Req (Box × Nat))) : List (Req (Box × Nat)) :=
  match l.findIdx? fun r => copyBad f t s r.load with
  | some i => l.take (i + 1)
  | none => l

/-- A copy command that passes its checks becomes a transfer of its destination elements (R422). -/
def startCopy (s : State) (x : Cmd) (k : TransferKind) (f t : Tensor) : State :=
  let (i, s) := fresh s
  let n := ((boxesOf k f.desc t.desc).map boxSize).foldl (· + ·) 0
  startCmd { s with transfers := s.transfers ++ [newTransfer i x.part x.id k n] } x.id

/-- The tensors that a copy command names, which must share an element type and pass `fit`; a read-only tensor is no
destination (R402, R406, R407, R417). -/
def withTensors (s : State) (x : Cmd) (fit : Desc → Desc → Bool) (go : State → Tensor → Tensor → State) : State :=
  match namedTensor s x (op64 x 0), namedTensor s x (op64 x 1) with
  | none, _ => complete s x (range 8)
  | some _, none => complete s x (range 0x10)
  | some f, some t =>
    if t.desc.ro || f.desc.etype ≠ t.desc.etype || !fit f.desc t.desc then complete s x (range 0x10) else go s f t

/-- The list at OP2, or PARTIAL with no element delivered. -/
def withOpList (s : State) (x : Cmd) (n : Nat) (go : State → List Byte → State) : State :=
  let key := cmdKey s x (op64 x 2)
  if faulty s key n then complete s x (partialR 0) else go (readReturned s x.part n) (hostBytes s key n)

/-- COPY (R409 to R413). -/
def execCopy (c : Nat) (s : State) : Out :=
  .next (withHost s c 0x42 fun s x => withTensors s x sameLayout fun s f t =>
    let n := opBits x 3 15 0
    withOpList s x (160 * n) fun s l =>
      match leastOf ((List.range n).flatMap fun i =>
          (sliceBad f.desc t.desc (sliceB l (160 * i) 160)).map (160 * i + ·)) with
      | some o => complete s x ⟨0x0A, 0x18, 0, o, false⟩
      | none =>
        let ys := slicesOf l
        let meet (i j : Nat) : Bool :=
          match ys[i]?, ys[j]? with
          | some a, some b => boxesMeet a.reg a.regN b.reg b.regN
          | _, _ => false
        match firstPair n meet with
        | some (i, j) => complete s x ⟨0x09, i, j, 0, false⟩
        | none => startCopy s x (.copy l) f t)

/-- COPY_LAYOUT (R417). -/
def execCopyLayout (c : Nat) (s : State) : Out :=
  .next (withCmd s c 0x43 fun s x => withTensors s x (fun a b => a.extent = b.extent) fun s f t =>
    startCopy s x .copyLayout f t)

/-- Whether a coordinate list breaks R414 or the block rule of R415. -/
def coordBad (t : Desc) (l : List Byte) : Bool :=
  let blk (o : Nat) : Bool := etypeMx t.etype && leAt l (o + 20) 4 % 32 ≠ 0
  !zeroBytes l 24 64 || ((List.range 6).any fun d => leAt l (4 * d) 4 = 0 || 2 ^ 31 < leAt l (4 * d) 4) || blk 0 ||
  (List.range ((l.length - 64) / 48)).any fun k => blk (64 + 48 * k) || blk (88 + 48 * k)

/-- Whether SCATTER is free of both tests: single-lane sequential by XOP0 [0] or under R405. -/
def singleLane (x : Cmd) (t : Tensor) : Bool := xopBits x 0 0 0 = 1 || t.aliasOk

/-- The checks of GATHER and SCATTER on their lists (R415, R416). -/
def runCoords (s : State) (x : Cmd) (f t : Tensor) (scatter : Bool) (l : List Byte) : State :=
  if coordBad t.desc l then complete s x (range 0x18)
  else
    let bs := gatherBoxes f.desc t.desc l
    let same (i j : Nat) : Bool :=
      match bs[i]?, bs[j]? with
      | some a, some b => a.dst = b.dst
      | _, _ => false
    let share (i j : Nat) : Bool :=
      match bs[i]?, bs[j]? with
      | some a, some b => boxesMeet a.lo a.n b.lo b.n
      | _, _ => false
    let hit : Option (Nat × Nat) :=
      if !scatter then firstPair bs.length share
      else if singleLane x t then none
      else firstPair bs.length fun i j => same i j || share i j
    match hit with
    | some (i, j) =>
      complete s x ⟨if scatter && same i j then 0x08 else 0x09, i % 65536, j + i * 2 ^ 32, 0, false⟩
    | none => startCopy s x (if scatter then .scatter l else .gather l) f t

/-- GATHER (R414 to R416). -/
def execGather (c : Nat) (s : State) : Out :=
  .next (withHost s c 0x44 fun s x => withTensors s x sameLayout fun s f t =>
    withOpList s x (64 + 48 * opBits x 3 23 0) fun s l => runCoords s x f t false l)

/-- SCATTER (R414 to R416). -/
def execScatter (c : Nat) (s : State) : Out :=
  .next (withHost s c 0x45 fun s x => withTensors s x sameLayout fun s f t =>
    withOpList s x (64 + 48 * opBits x 3 23 0) fun s l => runCoords s x f t true l)

/-- What is left of a copy command's elements moves, in its order; E where it ends early. -/
def runCopy (s : State) (t : Transfer) (x : Cmd) : State × Option Nat :=
  match copyEnds s x with
  | some (f, d) =>
    let l := (copyReqs t.kind f d).filter fun r => !reqDone t r
    runReqs (copyBad f d) (copyReq f d) t (if oneLane t.kind x f d then laneReqs s f d l else copyReqs t.kind f d) s
  | none => (s, none)

/-- Bytes that a copy command has read and written once it has ended at element e. -/
def copyMoved (s : State) (t : Transfer) (x : Cmd) (e : Nat) : Nat × Nat :=
  match copyEnds s x with
  | some (f, d) =>
    ((copyReqs t.kind f d).filter fun r => r.first < e || t.extra.contains (r.num, 0)).foldl (fun a r =>
      let b := reqBytes f d r.load
      (a.1 + b.1, a.2 + b.2)) (0, 0)
  | none => (0, 0)

/-- Moves requests 0 to n - 1 of a copy command and those in `extra`. -/
def copySome (s : State) (t : Transfer) (x : Cmd) (n : Nat) (extra : List Nat) : State :=
  match copyEnds s x with
  | some (f, d) =>
    ((copyReqs t.kind f d).filter fun r => !reqDone t r && (r.num < n || extra.contains r.num)).foldl
      (fun s r => if copyBad f d s r.load then s else copyReq f d s r.load) s
  | none => s

end Sys2Proof.Machine
end

