-- ==== Sys2Proof/Machine/Fetch.lean ====
section
/-!
DEFINITION. Index records, block lists, run-ahead, and the fetch engines of the dies (R268 to R292, R299 to R301, R337 to
R345).
-/

namespace Sys2Proof.Machine

/-! ### Records and elements (R270 to R276) -/

/-- A record with nothing known of it. -/
def blankRec (n : Nat) : Rec :=
  { recno := n, ctx := 0, frame := 0, flags := 0, keyback := 0, list := none, extents := [], next := 0, left := 0,
    bytes := 0, crc := none, status := 0, failAt := (0, 0), damaged := false, cause := 0, element := false, handle := none,
    named := false, stage := 0, consumed := false }

/-- A record damaged at reading: it has no data (R276). -/
def badRec (r : Rec) (cause : Nat) : Rec := noData { r with extents := [], list := none } 1 cause

/-- A record with data in the extents given. -/
def goodRec (r : Rec) (l : List (Nat × Nat × Nat)) : Rec :=
  { r with list := none, extents := l, next := 0, left := l.length, bytes := (l.map (·.2.2)).foldl (· + ·) 0 }

/-- The first cause among a list; 0 when there is none. -/
def firstCause (l : List Nat) : Nat := (l.find? (· ≠ 0)).getD 0

/-- An index record from its 32 bytes (Table 8.3). -/
def readRecord (s : State) (p contexts n : Nat) (l : List Byte) : Rec :=
  let fl := leAt l 13 1
  let size := leAt l 10 3
  let src := leAt l 0 4
  let off := leAt l 4 6
  let r := { blankRec n with
    ctx := leAt l 14 2 % 64, frame := leAt l 16 4, flags := fl % 32, keyback := leAt l 20 4, bytes := size
    crc := if bitN fl 4 then some (BitVec.ofNat 32 (leAt l 24 4)) else none }
  let blist := bitN fl 3
  if 32 ≤ fl ∨ 64 ≤ leAt l 14 2 ∨ leAt l 28 4 ≠ 0 ∨ contexts ≤ leAt l 14 2 ∨ size = 0 ∨
     (blist ∧ (size % 16 ≠ 0 ∨ 1048560 < size)) then badRec r 6
  else
    let c := rangeCause s p src off size
    if c ≠ 0 then badRec r c
    else if blist then { r with list := some (src, off, size) }
    else goodRec r [(src, off, size)]

/-- The extents of a block list: reserved bits or a bad length, END, and source, offset, length (Table 8.4). -/
def readExtents (l : List Byte) : List (Bool × Bool × Nat × Nat × Nat) :=
  (List.range (l.length / 16)).map fun i =>
    let o := 16 * i
    let f := leAt l (o + 10) 2
    let n := leAt l (o + 12) 4
    (decide (2 ≤ f) || n = 0 || decide (67108864 < n), bitN f 0, leAt l o 4, leAt l (o + 4) 6, n)

/-- The cause for which data made of extents is damaged (R272, R273, R276). -/
def extentsCause (s : State) (p : Nat) (bad : Bool) (l : List (Nat × Nat × Nat)) : Nat :=
  if bad then 6
  else if 67108864 < (l.map (·.2.2)).foldl (· + ·) 0 then 5
  else firstCause (l.map fun e => rangeCause s p e.1 e.2.1 e.2.2)

/-- A record whose block list has been read. -/
def withList (s : State) (p : Nat) (r : Rec) (l : List Byte) : Rec :=
  let es := readExtents l
  let ext := es.map (·.2.2)
  let c := extentsCause s p (es.any fun e => e.1 || e.2.1) ext
  if c ≠ 0 then badRec r c else goodRec r ext

/-- Runs of extents, each up to an END. -/
def runsOf : List (Bool × Bool × Nat × Nat × Nat) → List (List (Bool × Bool × Nat × Nat × Nat))
  | [] => []
  | e :: es =>
    if e.2.1 then [e] :: runsOf es
    else match runsOf es with
      | [] => [[e]]
      | r :: rs => (e :: r) :: rs

/-- The elements of a KIND 1 list (R272). DESIGN CHOICE (log entry 68): a last run without END is one damaged element and
leaves the elements before it sound. -/
def readElements (s : State) (p : Nat) (l : List Byte) : List Rec :=
  (runsOf (readExtents l)).zipIdx.map fun (run, n) =>
    let r := { blankRec n with frame := n, flags := 1, element := true }
    let ext := run.map (·.2.2)
    let c := extentsCause s p (run.any (·.1) || !(run.getLast?.any (·.2.1))) ext
    if c ≠ 0 then badRec { r with bytes := (ext.map (·.2.2)).foldl (· + ·) 0 } c else goodRec r ext

/-! ### The directory entry (R268, R269, Table 8.2) -/

/-- A directory entry from its 32 bytes. -/
def readDir (l : List Byte) : DirEntry :=
  ⟨leAt l 0 4, leAt l 4 6, leAt l 10 1 % 2, leAt l 12 4, leAt l 16 4, leAt l 20 6, leAt l 28 4⟩

/-- The cause for which an entry cannot be used. -/
def dirCauseOf (s : State) (p : Nat) (l : List Byte) : Nat :=
  let d := readDir l
  if 2 ≤ leAt l 10 1 ∨ leAt l 11 1 ≠ 0 ∨ leAt l 26 2 ≠ 0 ∨ d.ioff % (if d.kind = 0 then 32 else 16) ≠ 0 ∨ d.icount = 0 ∨
     (if d.kind = 0 then 1048576 else 65536) < d.icount ∨ 65536 < d.clen then 6
  else if !isBound s p d.isrc ∨ (d.csrc ≠ 0xFFFFFFFF ∧ !isBound s p d.csrc) then 7
  else 0

/-- Bytes of a sample's index records or block list. -/
def indexBytes (d : DirEntry) : Nat := (if d.kind = 0 then 32 else 16) * d.icount

/-! ### The cache (R337 to R345) -/

/-- The byte entry with exactly this key. -/
def entryOf (s : State) (p src off len : Nat) : Option CacheEntry :=
  s.cache.find? fun c => c.part = p && c.src = src && c.off = off && c.data.length = len

/-- An entry is read: it counts as used (R345). -/
def touchEntry (s : State) (e : CacheEntry) : State :=
  let (n, s) := fresh s
  let mine (c : CacheEntry) : Bool := c.part = e.part && c.src = e.src && c.off = e.off && c.data.length = e.data.length
  { s with cache := updIf mine (fun c => { c with used := n }) s.cache }

/-- Whether the engine of die d can read a range now from the entry or the copy that holds it: the ports where it lies
issue requests, and no route change holds what comes from its die (R14, R64). -/
def heldOpen (s : State) (d p src off len : Nat) : Bool :=
  match entryOf s p src off len with
  | some e => !routeHeld s e.die d && !objectPaused s false 0 len e.bufs
  | none => (copyOf s p src).all fun c => !routeHeld s c.die d && !objectPaused s false off len c.bufs

/-- Reads an entry through its lines; one with an uncorrectable line is discarded (Table 16.1). -/
def readEntry (s : State) (p src off len : Nat) : State × Option (List Byte) :=
  match entryOf s p src off len with
  | none => (s, none)
  | some e =>
    let r := readObject s 0 len e.bufs
    if r.2 then (dropEntry r.1 e, none) else (touchEntry r.1 e, some e.data)

/-- Inserts bytes read from a source on die d, when the reservation has or can get room (R339, R345). -/
def insertEntry (s : State) (p d src off : Nat) (l : List Byte) : State :=
  let room := cacheRoom s p
  if room = 0 || l.isEmpty || (entryOf s p src off l.length).isSome then s
  else
    let need := roundUp l.length 4096
    let s := evictTo (s.cache.length + 1) s p (room - need)
    if room < cacheCharge s p + need then s
    else match allocNear s p .cache d l.length with
      | none => s
      | some (s, die, hs) =>
        let (n, s) := fresh (markWritten s l.length hs)
        { s with cache := s.cache ++ [⟨p, src, off, l, hs, die, n⟩] }

/-! ### Streams (R278 to R282) -/

/-- Record number that stands for a sample's caption. -/
def captionNo : Nat := 0xFFFFFFFF

/-- Where a stream's run-ahead began: the first record that a DIDX has named in it. -/
def runStart (x : Sample) (ctx : Nat) : Option Nat :=
  leastOf ((x.recs.filter fun r => r.ctx = ctx && r.named).map (·.recno))

/-- A record is consumed when the sample has released its buffer; one without data, when it has been delivered (log
entry 18). -/
def recDone (r : Rec) : Bool := r.consumed || (r.named && r.handle.isNone && r.status ≠ 0)

/-- The records of a stream from the start of its run-ahead, in record order. -/
def streamRecs (x : Sample) (ctx : Nat) : List Rec :=
  match runStart x ctx with
  | some n => x.recs.filter fun r => r.ctx = ctx && n ≤ r.recno
  | none => []

/-- The record that a stream has come to: its block list or its data is the next to be fetched. None while a DEP holds it,
whose earlier records are not all consumed, or while 4,096 records are fetched and not consumed (R32, R279, R280). DESIGN
CHOICE (log entry 68): they hold the reading of its block list too. -/
def frontRec (x : Sample) (ctx : Nat) : Option Rec :=
  let l := streamRecs x ctx
  match l.find? fun r => r.list.isSome || r.next < r.extents.length with
  | none => none
  | some r =>
    let before := l.takeWhile fun y => y.recno ≠ r.recno
    let dep := (l.filter fun y => y.recno ≤ r.recno && bitN y.flags 2 && !y.element)
    let held := dep.any fun y => l.any fun z => z.recno < y.recno && !recDone z
    let live := before.filter fun y => !recDone y
    if held || (r.next = 0 && 4096 ≤ live.length) then none else some r

/-- The next record of a stream whose data may be fetched: none behind an unread block list. -/
def nextRec (x : Sample) (ctx : Nat) : Option Rec := (frontRec x ctx).filter fun r => r.list.isNone

/-- Decode streams of a sample that have begun. -/
def streamsOf (x : Sample) : List Nat := ((x.recs.filter (·.named)).map (·.ctx)).eraseDups

/-- Inserts a sample by epoch position. -/
def insSample (x : Sample) : List Sample → List Sample
  | [] => [x]
  | y :: ys => if x.pos < y.pos then x :: y :: ys else y :: insSample x ys

/-- Samples by epoch position (R278). -/
def byPos (l : List Sample) : List Sample := l.foldl (fun a x => insSample x a) []

/-- Samples that a die's engine serves. -/
def engineSamples (s : State) (d : Nat) : List Sample :=
  byPos (s.samples.filter fun x => x.started && x.die = d && !x.copied)

/-- One extent to fetch. -/
structure Piece where
  h : Nat
  recno : Nat
  ext : Nat
  part : Nat
  src : Nat
  off : Nat
  len : Nat
  deriving DecidableEq, Repr

/-- The next extent of every stream, in the order in which streams are served. -/
def nextPieces (s : State) (d : Nat) : List Piece :=
  (engineSamples s d).flatMap fun x => (streamsOf x).filterMap fun c =>
    (nextRec x c).bind fun r => (r.extents[r.next]?).map fun e => ⟨x.h, r.recno, r.next, x.part, e.1, e.2.1, e.2.2⟩

/-! ### Buffers (R281, R282) -/

def setRec (s : State) (h recno : Nat) (f : Rec → Rec) : State :=
  setSample s h fun x => { x with recs := updIf (fun r => r.recno = recno) f x.recs }
def recOf (s : State) (h recno : Nat) : Option Rec := (sampleOf s h).bind fun x => x.recs.find? fun r => r.recno = recno

/-- A buffer of the pool quota beyond the reservations. -/
def spareBuf (s : State) (p d n : Nat) : Option (State × Nat) :=
  let k := classFor n
  if poolQuota s p < poolReserved s p + bytesHeld s p (· = .runAhead) + classSize k then none
  else alloc s p .runAhead d k

/-- Run-ahead buffers of partition p that no DIDX has named: sample, record, how far it lies beyond its stream's
consumption point, position. -/
def reclaimable (s : State) (p : Nat) : List (Nat × Nat × Nat × Nat) :=
  (s.samples.filter fun x => x.part = p).flatMap fun x =>
    (x.recs.filter fun r => r.handle.isSome && !r.named && !r.consumed).map fun r =>
      let at_ := (leastOf (((streamRecs x r.ctx).filter fun y => !recDone y).map (·.recno))).getD r.recno
      (x.h, r.recno, r.recno - at_, x.pos)

/-- Reclaims the run-ahead buffer furthest beyond its consumption point, of the highest position among equals. Its data is
discarded and fetched again when it is reached. -/
def reclaim (s : State) (p : Nat) : Option State :=
  match reclaimable s p with
  | [] => none
  | l :: ls =>
    let v := ls.foldl (fun (a b : Nat × Nat × Nat × Nat) =>
      if a.2.2.1 < b.2.2.1 ∨ (a.2.2.1 = b.2.2.1 ∧ a.2.2.2 < b.2.2.2) then b else a) l
    match (recOf s v.1 v.2.1).bind (·.handle) with
    | none => none
    | some b =>
      let s := setRec s v.1 v.2.1 fun r => { r with handle := none, next := 0, left := r.extents.length }
      let s := { s with fetches := s.fetches.map fun f =>
        { f with recs := f.recs.filter fun e => !(e.1 = v.1 && e.2.1 = v.2.1) } }
      some (freeLanded s [b])

/-- A buffer for a record, for whose sake run-ahead buffers are reclaimed when `need`. -/
def drawBuf : Nat → State → Nat → Nat → Nat → Bool → State × Option Nat
  | 0, s, _, _, _, _ => (s, none)
  | k + 1, s, p, d, n, need =>
    match spareBuf s p d n with
    | some (s, h) => (s, some h)
    | none =>
      if need then
        match reclaim s p with
        | some t => drawBuf k t p d n need
        | none => (s, none)
      else (s, none)

/-- Rounds that serve to draw one buffer. -/
def drawFuel (s : State) : Nat := s.bufs.length + 1

/-- The record has a buffer: none when it has not and none can be drawn. -/
def recBuffer (s : State) (p d h : Nat) (r : Rec) : State × Option Nat :=
  match r.handle with
  | some b => (s, some b)
  | none =>
    match drawBuf (drawFuel s) s p d r.bytes r.named with
    | (s, some b) =>
      (setBuf (setRec s h r.recno fun y => { y with handle := some b }) b fun u => { u with landing := .inFlight }, some b)
    | (s, none) => (s, none)

/-! ### Landing (R299, R339) -/

/-- Offset of extent i in a record's data. -/
def extentAt (r : Rec) (i : Nat) : Nat := ((r.extents.take i).map (·.2.2)).foldl (· + ·) 0

/-- A record's data has wholly landed: its CRC is checked. -/
def recLanded (s : State) (h recno : Nat) : State :=
  match recOf s h recno with
  | some r =>
    match r.handle with
    | none => s
    | some b =>
      if r.crc.any fun c => c ≠ BitVec.ofNat 32 (crc32c (bufRead s b 0 r.bytes)) then
        setRec (setBuf s b fun u => { u with landing := .ended 1 1 0 0 }) h recno fun y => { y with damaged := true, cause := 1 }
      else setBuf s b fun u => { u with landing := .landed }
  | none => s

/-- The bytes of one extent come from die `src` and land; a line that it fills only in part and that cannot be read runs the sample again (R547). -/
def landPiece (s : State) (src h recno ext : Nat) (l : List Byte) : State :=
  match recOf s h recno with
  | none => s
  | some r =>
    match r.handle with
    | none => s
    | some b =>
      let (s, bad) := mergeLine s b (extentAt r ext) l.length
      if bad then sampleUe s h
      else
        let s := bufWrite (crossed s src (hDie b) l.length) b (extentAt r ext) l
        let s := setRec s h recno fun y => { y with left := y.left - 1 }
        if r.left ≤ 1 then recLanded s h recno else s

/-- The data of an extent whose fetch has completed OK is inserted into the cache unless its record is marked damaged
(R339). -/
def keepPiece (s : State) (p d h recno src off : Nat) (l : List Byte) : State :=
  if (recOf s h recno).any (·.damaged) then s else insertEntry s p d src off l

/-! ### FETCH_ISSUE (R277 to R284, R291) -/

/-- Whether a read of the source can be issued now, and the drive it goes to; `gone` when its drive is not there. -/
inductive Issuable where
  | yes (drive : Option (Nat × Nat))
  | no
  | gone (status cause : Nat)
  deriving DecidableEq, Repr

def issuable (s : State) (p src : Nat) : Issuable :=
  match openSource s p src with
  | none => .gone 1 7
  | some x =>
    match x.kind with
    | .nvme sp link _ _ _ => if !x.dead && driveReadyAt s sp link then .yes (some (sp, link)) else .gone 2 0
    | .host _ _ _ => if canSend s p then .yes none else .no
    | .copy =>
      match copyOf s p src with
      | none => .gone 1 7
      | some c => match c.failed with
        | some e => .gone e 0
        | none => if c.regenerating then .no else .yes none

/-- The bytes of a transcoded copy, which stands in block memory; one with an uncorrectable line is regenerated
(Table 16.1). -/
def readCopy (s : State) (q : Piece) : State × Option (List Byte) :=
  match kindOf s q.part q.src, copyOf s q.part q.src with
  | some .copy, some c =>
    let (s, bad) := readObject s q.off q.len c.bufs
    if bad then
      let mine (y : CopySource) : Bool := y.part = c.part && y.id = c.id
      (freeBufs { s with copies := updIf mine (fun y => { y with bufs := [], regenerating := true }) s.copies } c.bufs, none)
    else (s, some (sliceB c.data q.off q.len))
  | _, _ => (s, none)

/-- Whether a piece at `off` may follow one that ends before byte `last`: at once, or, in a namespace, in the logical block of
its last byte or the next one (R283). -/
def follows (s : State) (p src last off : Nat) : Bool :=
  match kindOf s p src with
  | some (.nvme _ _ _ lba _) =>
    let b := (last - 1) / Nat.max 1 lba
    last = off || off / Nat.max 1 lba = b || off / Nat.max 1 lba = b + 1
  | _ => last = off

/-- A request's byte range with a piece's in it. -/
def spanWith (f : Fetch) (q : Piece) : Nat × Nat :=
  let lo := Nat.min f.off q.off
  (lo, Nat.max (f.off + f.len) (q.off + q.len) - lo)

/-- A piece joins a request: its record's buffer is drawn and it is marked issued. -/
def joinPiece (s : State) (d : Nat) (f : Fetch) (q : Piece) : Option (State × Fetch) :=
  match recOf s q.h q.recno with
  | none => none
  | some r =>
    match recBuffer s q.part d q.h r with
    | (s, some b) =>
      some (setRec s q.h q.recno fun y => { y with next := q.ext + 1 },
        { f with recs := f.recs ++ [(q.h, q.recno, q.ext)], parts := f.parts ++ [((q.h, q.recno, q.ext), q.off, q.len)], off := (spanWith f q).1, len := (spanWith f q).2,
                 bufs := if f.bufs.contains b then f.bufs else f.bufs ++ [b] })
    | (_, none) => none

/-- Merges the pieces that follow a request, one after another (R283). -/
def mergePieces : Nat → State → Nat → Nat → Fetch → State × Fetch
  | 0, s, _, _, f => (s, f)
  | k + 1, s, d, last, f =>
    match (nextPieces s d).findSome? fun q =>
      if q.part = f.part && q.src = f.src && follows s f.part f.src last q.off && decide ((spanWith f q).2 ≤ 1048576) &&
         (entryOf s q.part q.src q.off q.len).isNone then (joinPiece s d f q).map fun r => (r, q.off + q.len) else none with
    | some ((t, g), e) => mergePieces k t d e g
    | none => (s, f)

/-! ### Tags (R37, R284, R293) -/

/-- Whole logical blocks read, in bytes, and the NVMe commands that read them (R284). -/
def nvmeLoad (s : State) (f : Fetch) : Nat × Nat :=
  match kindOf s f.part f.src with
  | some (.nvme sp link _ lba _) =>
    let lba := Nat.max 1 lba
    let n := ((f.off + f.len - 1) / lba + 1 - f.off / lba) * lba
    (n, ceilDiv n (Nat.max lba (((driveOf s sp link).map (·.mdts)).getD 1048576)))
  | _ => (0, 0)

/-- The address key of a fetch of a host range. -/
def fetchKey (s : State) (f : Fetch) : Option Nat :=
  match kindOf s f.part f.src with
  | some (.host base _ pasid) => some (hostKey pasid (base + f.off))
  | _ => none

/-- Tags that one attempt of a fetch holds: one for each NVMe command, or for each of its memory reads that is still to come,
of which 64 are outstanding at most. -/
def attemptTags (s : State) (f : Fetch) : Nat :=
  match f.drive with
  | some _ => (nvmeLoad s f).2
  | none => match fetchKey s f with
    | some key => Nat.min 64 ((pieces key f.len).filter fun r => !f.got.any (·.1 = r.num)).length
    | none => 0

/-- Tags that a fetch holds with its timed-out attempts; a halted one issues nothing. -/
def fetchTags (s : State) (f : Fetch) : Nat :=
  attemptTags s f * ((if f.ended || f.stalled || f.halted then 0 else 1) + f.aborting.length)

/-- Tags that the reads of a transfer hold at its host port; its writes are posted and take none. -/
def readTags (s : State) (t : Transfer) : Nat :=
  let byte (addr : Nat) : Nat := Nat.min 64 ((pieces addr t.elements).filter fun r => !reqDone t r).length
  match t.kind, cmdOf s t.cmd with
  | .place _ _ _, _ => 0
  | .hmwr _ _ _ _ _, _ => 0
  | .restore, _ => 0
  | .hmrd _ _ _ a _, _ => byte a
  | .spill, some x => byte (op64 x 0)
  | k, some x => match copyEnds s x with
    | some (f, d) => Nat.min 64 ((copyReqs k f d).filter fun r => !reqDone t r).length
    | none => 0
  | _, none => 0

/-- Tags of a list of transfers at a host port. -/
def tagsOf (s : State) (port : Nat) (l : List Transfer) : Nat :=
  ((l.filter fun y => !y.halted && portOf s y.part = port).map (readTags s)).foldl (· + ·) 0

/-- Tags that fetches hold at a host port, and at a source port. -/
def hostFetches (s : State) (port : Nat) : Nat :=
  ((s.fetches.filter fun f => f.drive.isNone && portOf s f.part = port).map (fetchTags s)).foldl (· + ·) 0
def driveFetches (s : State) (sp : Nat) : Nat :=
  ((s.fetches.filter fun f => f.drive.any (·.1 = sp)).map (fetchTags s)).foldl (· + ·) 0

/-- Whether the port that a read goes to has n tags for it: of 4,096 at a host port, of 8,192 at a source port (R37). A read
that finds too few waits in its engine. -/
def hasTag (s : State) (p : Nat) (drive : Option (Nat × Nat)) (n : Nat) : Bool :=
  match drive with
  | some (sp, _) => driveFetches s sp + n ≤ 8192
  | none => hostFetches s (portOf s p) + tagsOf s (portOf s p) s.transfers + n ≤ 4096

/-- A route over which a read's bytes come to die d is not held for a change: from the port that it is read at, or from
the die that holds them in block memory (R14). -/
def routeOpen (s : State) (d p : Nat) (drive : Option (Nat × Nat)) : Bool :=
  match drive with
  | some (sp, _) => !routeHeld s sp d
  | none => !routeHeld s (portOf s p / 2) d

/-- A request for one piece, with nothing joined to it. -/
def newFetch (d : Nat) (q : Piece) (drive : Option (Nat × Nat)) : Fetch :=
  { id := 0, die := d, part := q.part, src := q.src, off := q.off, len := q.len, recs := [], attempt := 0, tag := 0, parts := [], bufs := [],
    aborting := [], stalled := false, ended := false, drive := drive, halted := false, moved := 0, mask := 0, got := [], faults := [] }

/-- Whether an extent of a record can be written into its buffer from die d now (R14, R64). -/
def landOpen (s : State) (d h recno ext n : Nat) : Bool :=
  (recOf s h recno).all fun r => r.handle.all fun b => bufOpen s d b (extentAt r ext) n

/-- A piece whose bytes block memory holds on die `src` lands in its record's buffer; none while it can have no buffer, or the buffer
takes no writes. -/
def landAtOnce (s : State) (d src : Nat) (q : Piece) (l : List Byte) : Option State :=
  (joinPiece s d (newFetch d q none) q).bind fun r =>
    if landOpen r.1 d q.h q.recno q.ext q.len then some (landPiece r.1 src q.h q.recno q.ext l) else none

/-- A piece becomes a request, with those that follow it; none while its port has no tags for it or its route is held. -/
def requestPiece (s : State) (d : Nat) (q : Piece) (drive : Option (Nat × Nat)) : Option State :=
  if !routeOpen s d q.part drive then none
  else (joinPiece s d (newFetch d q drive) q).bind fun (t, f) =>
    let (t, f) := mergePieces 4096 t d (q.off + q.len) f
    let (n, t) := fresh t
    if hasTag s q.part drive (attemptTags s f) then some { t with fetches := t.fetches ++ [{ f with id := n, tag := n }] } else none

/-- A piece is fetched: read from the cache when it holds an entry for it, whatever has become of its source (R277, R338);
else ended unissued when its source is gone, read from a copy, or made a request. None when it cannot be issued now. -/
def issuePiece (s : State) (d : Nat) (q : Piece) : Option State :=
  if !heldOpen s d q.part q.src q.off q.len then none
  else
  let src := (((entryOf s q.part q.src q.off q.len).map (·.die)).or ((copyOf s q.part q.src).map (·.die))).getD d
  match readEntry s q.part q.src q.off q.len with
  | (s, some l) => landAtOnce s d src q l
  | (s, none) =>
    match issuable s q.part q.src with
    | .no => none
    | .gone st c => some (endRec s q.h q.recno st c q.src q.off)
    | .yes drive =>
      if kindOf s q.part q.src = some .copy then
        match readCopy s q with
        | (s, some l) => (landAtOnce s d src q l).map fun s => keepPiece s q.part d q.h q.recno q.src q.off l
        | (s, none) => some s
      else requestPiece s d q drive

/-- A thread of the sample has a DIDX under way, or runs a template that reads records. -/
def wantsIndex (s : State) (h : Nat) : Bool :=
  s.threads.any fun t => (thTile t.th).isSome && t.sample = h &&
    (((stageOf s t).any fun st => st.template = 1 || st.template = 2) || t.tickets.any fun k => !k.done &&
      (match k.deferred with | some (.didx _ _ _) => true | _ => false))

/-- The index records or the block list of a sample have been read. -/
def indexRead (s : State) (x : Sample) (e : DirEntry) (l : List Byte) : State :=
  let n := ((recipeOf s x.part x.recipe).map (·.contexts)).getD 0
  let recs := if e.kind = 0 then (List.range e.icount).map fun i => readRecord s x.part n i (sliceB l (32 * i) 32)
    else readElements s x.part l
  setSample s x.h fun y => { y with recs := recs ++ y.recs, recsRead := true }

/-- The reading of a sample's records ends without them: its DIDX carries the outcome (R269). -/
def indexFailed (s : State) (x : Sample) (src off status cause : Nat) : State :=
  setSample s x.h fun y => { y with dirStatus := status, dirCause := cause, dirAt := (src, off) }

/-- A read of len bytes of a source, or of the entry with that key, by the engine of die d (R338): the bytes, how it ends, or
that nothing can be read now. `kept` tells whether what the source returns becomes an entry (R337, R339). -/
def readRange (s : State) (d p src off len : Nat) (kept : Bool) (r : SourceRead) : State × ReadResult :=
  if !heldOpen s d p src off len then (s, .wait)
  else match readEntry s p src off len with
  | (s, some l) => (s, .bytes l)
  | (s, none) =>
    match openSource s p src with
    | none => (s, .ended 1 7)
    | some y =>
      let drive : Option (Nat × Nat) := match y.kind with | .nvme sp link _ _ _ => some (sp, link) | _ => none
      let q : Piece := ⟨0, 0, 0, p, src, off, len⟩
      if y.kind ≠ .copy && (!routeOpen s d p drive || !hasTag s p drive (attemptTags s (newFetch d q drive))) then (s, .wait)
      else match y.kind, readSource s y off len r with
      | .host _ _ _, .bytes l =>
        let s := readReturned s p len
        (if kept then insertEntry s p d src off l else s, .bytes l)
      | .copy, .bytes _ =>
        (match readCopy s q with
        | (s, some l) => (if kept then insertEntry s p d src off l else s, .bytes l)
        | (s, none) => (s, .wait))
      | _, .bytes l => (if kept then insertEntry s p d src off l else s, .bytes l)
      | _, a => (s, a)

/-- Reads the records of a sample that waits for them; none when nothing can be read now. -/
def readIndex (s : State) (d : Nat) (x : Sample) (r : SourceRead) : Option State :=
  match x.dir with
  | none => none
  | some e =>
    let c := rangeCause s x.part e.isrc e.ioff (indexBytes e)
    if c ≠ 0 then some (indexFailed s x e.isrc e.ioff 1 c)
    else match readRange s d x.part e.isrc e.ioff (indexBytes e) (e.kind = 0) r with
      | (_, .wait) => none
      | (s, .ended st c) => some (indexFailed s x e.isrc e.ioff st c)
      | (s, .bytes l) => some (indexRead s x e l)

/-- The first record whose block list a stream of the sample has come to. -/
def pendingList (x : Sample) : Option (Rec × Nat × Nat × Nat) :=
  (streamsOf x).findSome? fun c => (frontRec x c).bind fun r => r.list.map fun l => (r, l)

/-- Reads one block list; what it names may lie in the cache (R338). -/
def readList (s : State) (d : Nat) (x : Sample) (r : Rec) (src off len : Nat) (a : SourceRead) : Option State :=
  match readRange s d x.part src off len false a with
  | (_, .wait) => none
  | (s, .ended st c) =>
    some (if (openSource s x.part src).isNone then endRec s x.h r.recno st c src off
      else setRec s x.h r.recno fun z => { noData { z with list := none } st c with failAt := (src, off) })
  | (s, .bytes l) => some (setRec s x.h r.recno fun z => withList s x.part z l)

/-! ### Completion, timeouts and retries (R285 to R291, R613, R615) -/

/-- The extents that a fetch still carries, with the bytes of each. -/
def fetchPieces (s : State) (f : Fetch) (l : List Byte) : List ((Nat × Nat × Nat) × Nat × List Byte) :=
  f.recs.filterMap fun e => ((recOf s e.1 e.2.1).bind fun r => r.extents[e.2.2]?).map fun x =>
    (e, x.2.1, sliceB l (x.2.1 - f.off) x.2.2)

/-- Whether a fetch's data can be written into the buffers it lands in now (R14, R64). -/
def landsOpen (s : State) (f : Fetch) : Bool :=
  f.recs.all fun e => landOpen s f.die e.1 e.2.1 e.2.2
    ((((recOf s e.1 e.2.1).bind fun r => r.extents[e.2.2]?).map (·.2.2)).getD 0)

/-- What a fetch has read becomes entries, extent by extent: but not the data of a record that it still carries and that is
marked damaged (R339). -/
def keepParts (s : State) (f : Fetch) (l : List Byte) : State :=
  f.parts.foldl (fun s (e, off, n) =>
    if f.recs.contains e && (recOf s e.1 e.2.1).any (·.damaged) then s
    else insertEntry s f.part f.die f.src off (sliceB l (off - f.off) n)) s

/-- The bytes of a fetch have all arrived, from its first byte on: each extent that it still carries lands, and what it has
read is inserted into the cache (R299, R339). -/
def landFetch (s : State) (f : Fetch) (l : List Byte) : State :=
  let src := match f.drive with | some (sp, _) => sp | none => portOf s f.part / 2
  let s := (fetchPieces s f l).foldl (fun s (e, _, b) => landPiece s src e.1 e.2.1 e.2.2 b) s
  closeFetch (keepParts s f l) f

/-- Retries that a source allows. -/
def retriesOf (s : State) (f : Fetch) : Nat := ((sourceOf s f.part f.src).map (·.retries)).getD 0

/-- A fetch's next attempt is on its way. -/
def nextAttempt (s : State) (f : Fetch) : State :=
  let (n, s) := fresh s
  setFetch s f.id fun g => { g with attempt := g.attempt + 1, tag := n, stalled := false, moved := 0, mask := 0, got := [] }

/-- A fresh attempt, or the end of the fetch when the retries are spent. -/
def retryOr (s : State) (f : Fetch) (status cause : Nat) : State :=
  if f.attempt < retriesOf s f then nextAttempt s f else endFetch s f status cause

/-- How an attempt of a fetch ends at its port. -/
def fetchEnds (s : State) (f : Fetch) (r : FetchEnd) : State :=
  match f.drive with
  | some (sp, _) =>
    let s' := bump64 (bump64 s (0x6080 + 16 * sp) (nvmeLoad s f).1) (0x6088 + 16 * sp) (nvmeLoad s f).2
    match r with
    | .data l => if l.length = f.len && landsOpen s f then landFetch s' f l else s
    | .nvmeError dnr pi =>
      let s' := bump64 s (0x6088 + 16 * sp) 1
      let c := if pi then 3 else 2
      if f.recs.isEmpty then closeFetch s' f else if dnr then endFetch s' f 1 c else retryOr s' f 1 c
    | .gone => goneFetch s f
    | _ => s
  | none =>
    match r with
    | .hostError => if f.recs.isEmpty then closeFetch s f else retryOr s f 1 4
    | .hostFault _ => endFetch s f 4 0
    | .data _ =>
      match fetchKey s f with
      | some key =>
        if (pieces key f.len).any fun r => !(f.got.any (·.1 = r.num)) && pieceBad key s r.load then endFetch s f 4 0
        else if !landsOpen s f then s
        else landFetch (readReturned s f.part f.len) f (gathered s key f.len f.got)
      | none => closeFetch s f
    | _ => s

/-- The fetch whose attempt under way the port knows by this number. -/
def fetchOf (s : State) (n : Nat) : Option Fetch := s.fetches.find? fun f => f.tag = n && !f.ended && !f.stalled

/-- The fetch that a timed-out attempt belonged to, with the buffers that it holds (R288). -/
def oldAttempt (s : State) (n : Nat) : Option (Fetch × List Nat) :=
  s.fetches.findSome? fun f => (f.aborting.find? (·.1 = n)).map fun a => (f, a.2)

/-- Buffers for the next attempt of a fetch. Its records keep their handles, so the bytes of the old attempt are held under
the handles drawn here (log entry 18); none while the pool has none. -/
def newBuffers (s : State) (f : Fetch) : List Nat → Option (State × List Nat)
  | [] => some (s, [])
  | h :: hs =>
    match bufOf s h with
    | none => newBuffers s f hs
    | some b =>
      let named := s.samples.any fun x => x.recs.any fun r => r.handle = some h && r.named
      match drawBuf (drawFuel s) s b.part f.die (bufSize b) named with
      | (s, some n) => (newBuffers s f hs).map fun (s, l) => (s, n :: l)
      | (_, none) => none

/-- A stalled fetch draws the buffers of its next attempt (R288). -/
def unstall (s : State) (f : Fetch) : Option State :=
  if !f.stalled then none
  else (newBuffers s f f.bufs).map fun (s, l) =>
    nextAttempt (setFetch s f.id fun g =>
      { g with aborting := updIf (fun a => a.1 = f.tag) (fun a => (a.1, l)) g.aborting }) f

/-- A timed-out attempt is over at the drive: the buffers it holds go, and the next attempt that waited for buffers has
those that its records hold. -/
def attemptOver (s : State) (n : Nat) (f : Fetch) (held : List Nat) : State :=
  let left := f.aborting.filter (·.1 ≠ n)
  let s := if f.ended && left.isEmpty then { s with fetches := s.fetches.filter fun y => y.id ≠ f.id }
    else setFetch s f.id fun g => { g with aborting := left }
  let s := freeHeld s held
  if f.stalled && f.tag = n then nextAttempt s f else s

/-- The action at the expiry of one attempt (Table 8.6); `answered` when the drive has already returned the read. An NVMe
attempt holds its buffers until its Abort is answered: the next one needs new ones, and waits while there are none. -/
def attemptExpires (s : State) (f : Fetch) (answered : Bool) : State :=
  if f.drive.isNone || answered then (if f.recs.isEmpty then closeFetch s f else retryOr s f 3 0)
  else if f.recs.isEmpty || retriesOf s f ≤ f.attempt then
    let f' := { f with aborting := f.aborting ++ [(f.tag, f.bufs)] }
    endFetch (setFetch s f.id fun g => { g with aborting := f'.aborting }) f' 3 0
  else
    let f' := { f with aborting := f.aborting ++ [(f.tag, [])], stalled := true }
    let s := setFetch s f.id fun _ => f'
    (unstall s f').getD s

/-- FETCH_COMPLETION: of the attempt under way, or of one that has timed out, whose data is discarded (R288, R289). -/
def execFetchCompletion (f : Nat) (r : FetchEnd) (s : State) : Out :=
  .next (match fetchOf s f with
    | some g => if alive s && !g.halted && (g.drive.isSome || canSend s g.part) then fetchEnds s g r else s
    | none =>
      match oldAttempt s f, r with
      | some (g, held), .data _ => if alive s then attemptOver s f g held else s
      | some (g, held), .nvmeError _ _ => if alive s then attemptOver s f g held else s
      | _, _ => s)

/-- FETCH_ATTEMPT_TIMEOUT (R286, R289): an arrival in the same instant meets the arbiter. The timer of a read that is halted,
or whose partition has no port to issue it on, stands (R290, R664). -/
def execFetchAttemptTimeout (f : Nat) (meets : Option FetchEnd) (s : State) : Out :=
  .next (match fetchOf s f with
    | none => s
    | some g =>
      if !alive s || g.halted || (g.drive.isNone && !canSend s g.part) then s
      else match meets with
        | none => attemptExpires s g false
        | some r =>
          let (arrival, s) := arbitrate s
          if arrival then fetchEnds s g r
          else
            let s := bump (bump64 s 0x2010 1) (dieBase g.die + 0x200C)
            match r with
            | .gone =>
              -- the containment that lost to the timer takes the fetch at its next instant
              let t := attemptExpires s g false
              match t.fetches.find? fun y => y.id = g.id && !y.ended with
              | some g' => goneFetch t g'
              | none => t
            | _ => attemptExpires s g true)

/-- NVME_ABORT_COMPLETION (R288): the buffers of one timed-out attempt are freed. -/
def execNvmeAbortCompletion (f : Nat) (s : State) : Out :=
  .next (match oldAttempt s f with
    | some (g, held) => if alive s then attemptOver s f g held else s
    | none => s)

/-- NVME_ABORT_TIMEOUT (R288): the drive is unusable, and its link is contained. -/
def execNvmeAbortTimeout (f : Nat) (s : State) : Out :=
  .next (match (oldAttempt s f).bind fun g => g.1.drive with
    | some (sp, link) =>
      if !alive s || (driveOf s sp link).isNone then s else containLink (driveUnusable s sp link 6 0) sp link
    | none => s)

/-- FETCH_ISSUE: one read or request of a die's engine. First the records of the lowest sample whose DIDX waits for them,
then a block list that a stream has come to, then the next extents in stream order. `r` is what a drive returns for records
and lists; the data of a request comes with its completion. A fetch whose next attempt waits for buffers comes before the next
extents. -/
def execFetchIssue (d : Fin 4) (r : SourceRead) (s : State) : Out :=
  .next (if !alive s || dieLost s d then s else
    let xs := engineSamples s d
    match xs.findSome? fun x => if !x.recsRead && x.dirStatus = 0 && wantsIndex s x.h then readIndex s d x r else none with
    | some t => t
    | none =>
      match xs.findSome? fun x => (pendingList x).bind fun (y, src, off, len) => readList s d x y src off len r with
      | some t => t
      | none =>
        match (s.fetches.filter fun f => f.die = d.val).findSome? (unstall s) with
        | some t => t
        | none => ((nextPieces s d).findSome? (issuePiece s d)).getD s)

end Sys2Proof.Machine
end

