-- ==== Sys2Proof/Machine/Issue.lean ====
section
/-!
DEFINITION. The issue of positions and the assignment of threads (R29, R30, R164 to R166, R174, R175, R188, R196, R268, R269,
R476, R501, R581 to R583).
-/

namespace Sys2Proof.Machine

/-! ### POSITION_ISSUE -/

/-- The lowest sample handle in 0 to 511 that no sample has. -/
def freeHandle (s : State) : Option Nat := firstFrom (fun h => !s.samples.any fun x => x.h = h) 512 0

/-- A sample with nothing done for it. -/
def newSample (h p recipe : Nat) (fr : IssueFrom) (epoch pos dset dsidx stages : Nat) : Sample :=
  { h := h, part := p, recipe := recipe, from_ := fr, epoch := epoch, pos := pos, dset := dset, dsidx := dsidx, dir := none,
    dirStatus := 0, dirCause := 0, dirAt := (0, 0), fail := (0, 0), tokens := List.replicate stages 0, assigned := [], held := [],
    freed := [], handed := [], staging := [], stagingBufs := [], recs := [], recsRead := false, ctxs := [], pics := [], frames := [], moved := [], started := false,
    die := 0, budget := 0, charged := 0, stageCharged := List.replicate stages 0, stageVec := List.replicate stages (0, 0), partsEnded := [], reruns := 0, ueCount := 0,
    ready := false, dropped := none, cause := 0, damagedPics := 0, damaged := false, short := false, deferred := false,
    straggler := false, wrote := false, stagingWait := false, tokenDies := [], placed := none, copied := false, late := false }

/-- The directory entry of local index i of a source, or the status and cause with which the sample's first DIDX completes;
none when the source can give no answer now. -/
def readDirectory (s : State) (p src i : Nat) (r : SourceRead) : Option (Option DirEntry × Nat × Nat) :=
  match openSource s p src with
  | none => some (none, 1, 7)
  | some x =>
    if sourceBytes s x < 32 * i + 32 then some (none, 1, 8)
    else match readSource s x (32 * i) 32 r with
      | .wait => none
      | .ended st c => some (none, st, c)
      | .bytes l =>
        let c := dirCauseOf s p l
        -- an entry that names no bound source has its ISRC, which the manifest reports
        some (some (readDir l), if c = 0 then 0 else 1, c)

/-- The first position from n on that has not been dropped or advanced. -/
def skipGone (e : Epoch) : Nat → Nat → Nat
  | 0, n => n
  | k + 1, n => if e.gone.any (·.1 = n) then skipGone e k (n + 1) else n

/-- Samples of an epoch that count against its INFLIGHT: from their start until their copy has ended (R502). -/
def startedOf (s : State) (q : Nat) : Nat := (s.samples.filter fun x => ofEpoch q x && x.started && !x.copied).length

/-- Issues the next position of an epoch while one more may start: deferred ones that were never issued come first (R517, R534). -/
def issueEpoch (s : State) (q : Fin 64) (r : SourceRead) : State :=
  match epochOf s q with
  | none => s
  | some e =>
    let live := startedOf s q
    let again := e.reissue.head?
    let p := match again with | some p => p | none => skipGone e (e.gone.length + 1) e.nextIssue
    if e.inflight ≤ live || (again.isNone && e.n ≤ p) then s
    else
      match freeHandle s, recipeOf s e.part e.recipe with
      | some h, some y =>
        let (dset, dsidx) := indexOf e p
        match e.datasets[dset]? with
        | none => s
        | some d =>
          match readDirectory s e.part d.dir (dsidx - d.base) r with
          | none => s
          | some (dir, st, c) =>
            let x := newSample h e.part e.recipe (.epoch q) e.num p dset dsidx y.stages.length
            let def_ := again.isSome
            let x := { x with dir := dir, dirStatus := st, dirCause := c, deferred := def_, dirAt := (d.dir, 32 * (dsidx - d.base)) }
            let s := setEpoch s q fun e => { e with
              reissue := if def_ then e.reissue.drop 1 else e.reissue
              nextIssue := if def_ then e.nextIssue else p + 1 }
            { s with samples := s.samples ++ [x] }
      | _, _ => s

/-- Issues the next entry of a calibration table; an entry that names no sample is a damaged one (R174, R176). -/
def issueCalibration (s : State) (c : Nat) (r : SourceRead) : State :=
  match s.calRuns.find? fun y => y.cmd = c with
  | none => s
  | some run =>
    let live := (s.samples.filter fun x => x.from_ = .calibration c).length
    match run.table[run.next]?, recipeOf s run.part run.recipe, freeHandle s with
    | some (src, i, bad), some y, some h =>
      if run.failed.isSome || run.want ≤ run.measured.length + live || y.inflight ≤ live ||
         run.want / 4 < run.damaged then s
      else
        let skip (k : Nat) : State := setCal s c fun z => { z with next := z.next + 1, damaged := z.damaged + 1, cause := k }
        if bad then skip 6
        else match openSource s run.part src with
          | none => skip 7
          | some z =>
            if sourceBytes s z < 32 * i + 32 then skip 8
            else match readDirectory s run.part src i r with
              | none => s
              | some (dir, st, k) =>
                let x := newSample h run.part run.recipe (.calibration c) 0 run.next 0 run.next y.stages.length
                let s := setCal s c fun z => { z with next := z.next + 1 }
                { s with samples := s.samples ++ [{ x with dir := dir, dirStatus := st, dirCause := k, dirAt := (src, 32 * i) }] }
    | _, _, _ => s

/-- POSITION_ISSUE (R268, R269). -/
def execPositionIssue (i : IssueFrom) (r : SourceRead) (s : State) : Out :=
  .next (if !alive s then s
    else match i with
      | .epoch q => issueEpoch s q r
      | .calibration c => issueCalibration s c r)

/-! ### THREAD_ASSIGN -/

/-- Tile-store bytes that no thread on a tile holds (R166). -/
def tileRoom (s : State) (t : Nat) : Nat :=
  6291456 - ((s.threads.filter fun x => thTile x.th = some t).map (·.tsBytes)).foldl (· + ·) 0

/-- The lowest free thread of a tile. -/
def freeSlot (s : State) (t : Fin 96) : Option (Fin 32) :=
  (List.finRange 32).find? fun n => !s.threads.any fun x => x.th = .tile t n

/-- Threads of a recipe's stage that satisfy p. -/
def stageThreads (s : State) (part recipe stage : Nat) (p : Thread → Bool) : Nat :=
  (s.threads.filter fun t => (thTile t.th).isSome && t.part = part && t.stage = stage && p t &&
    (sampleOf s t.sample).any fun x => x.recipe = recipe).length

/-- Whether a tile can hold another thread of a stage (R165, R166). -/
def tileTakes (s : State) (part recipe g : Nat) (st : Stage) (t : Fin 96) : Bool :=
  !tileLost s t && (freeSlot s t).isSome && st.tsBytes ≤ tileRoom s t &&
  stageThreads s part recipe g (fun x => thTile x.th = some t.val) < perTile st

/-- The tile of a die with the most free threads among those that satisfy p, the lowest on a tie (R29). -/
def bestTile (s : State) (d : Nat) (p : Fin 96 → Bool) : Option (Fin 96) :=
  let free (t : Fin 96) : Nat := 32 - (s.threads.filter fun x => thTile x.th = some t.val).length
  ((List.finRange 96).filter fun t => t.val / 24 = d && p t).foldl (fun a t =>
    match a with
    | none => some t
    | some u => if free u < free t then some t else some u) none

/-- Dies in the order in which a sample's first stage is placed (R29). -/
def firstDies (s : State) (x : Sample) : List Nat :=
  let pref : List Nat := match x.dir with
    | none => []
    | some e =>
      match sourceOf s x.part e.isrc with
      | none => []
      | some y =>
        let hit := match if e.kind = 0 then entryOf s x.part e.isrc e.ioff (indexBytes e) else none with
          | some c => [c.die]
          | none => []
        let near := match y.kind with
          | .nvme sp _ _ _ _ => [sp]
          | .host _ _ _ => [primaryDie s x.part]
          | .copy => []
        hit ++ near
  (pref ++ [0, 1, 2, 3]).eraseDups

/-- Dies in order for a later stage (R30). Where the stage before left its output buffers on several dies, the one that holds
the first of them comes first (DESIGN CHOICE, log entry 59). -/
def laterDies (x : Sample) (parent : Nat) : List Nat :=
  let outs := ((x.handed.find? (·.1 = parent)).map (·.2)).getD []
  ((outs.take 1).map hDie ++ [0, 1, 2, 3]).eraseDups

/-- Parts of a stage, each with a thread of its own (R476). -/
def stageParts (s : State) (p : Nat) (st : Stage) : Nat :=
  if st.template = 7 then ((modelOf s p st.model0).map (·.parts)).getD 1 else 1

/-- A stage of a sample that waits for a thread: the sample, the stage, the part. -/
structure Job where
  h : Nat
  stage : Nat
  partNo : Nat
  straggler : Bool
  pos : Nat
  deriving DecidableEq, Repr

/-- Jobs of partition p, by position, stragglers last (R165, R582). -/
def jobsOf (s : State) (p : Nat) : List Job :=
  let xs := byPos (s.samples.filter fun x => x.part = p && !x.copied)
  let js := xs.flatMap fun x =>
    match recipeOf s p x.recipe with
    | none => []
    | some r => (r.stages.zipIdx).flatMap fun (st, g) =>
      let open_ := x.tokens.getD g 0 = 0 && !x.assigned.contains g &&
        (g = 0 || x.tokens.getD st.parent 0 = 1 || x.tokens.getD st.parent 0 = 2)
      if !open_ then []
      else ((List.range (stageParts s p st)).filter fun k =>
        !(s.threads.any fun t => (thTile t.th).isSome && t.sample = x.h && t.stage = g && t.partNo = k) &&
        !x.partsEnded.any fun e => e.1 = g && e.2.1 = k).map fun k => ⟨x.h, g, k, x.straggler, x.pos⟩
  js.filter (!·.straggler) ++ js.filter (·.straggler)

/-- Tiles that a calibration run may use (R175). XOP0's cap is on the tiles that the run uses at one time (DESIGN CHOICE, log
entry 60). -/
def calTile (s : State) (x : Sample) (t : Nat) : Bool :=
  match x.from_ with
  | .epoch _ => true
  | .calibration c =>
    match s.calRuns.find? fun y => y.cmd = c with
    | none => false
    | some run =>
      let used := ((s.threads.filter fun y => (sampleOf s y.sample).any fun z => z.from_ = .calibration c).filterMap
        fun y => thTile y.th).eraseDups
      run.tiles = 0 || used.contains t || used.length < run.tiles

/-- Stores one copy of n bytes on each of the dies given, in order; the dies that lack room, with what they lack. -/
def storeCopies (s : State) (p n : Nat) : List Nat → State × List (Nat × List Nat) × Option Nat
  | [] => (s, [], none)
  | d :: ds =>
    match allocObject s p .copy d n with
    | some (s, hs) =>
      let (s, l, short) := storeCopies (markWritten s n hs) p n ds
      (s, (d, hs) :: l, short)
    | none =>
      let lack := Nat.max 1 (((objClasses n).map classSize).foldl (· + ·) 0 - freeOnDie s d)
      let (s, l, short) := storeCopies s p n ds
      (s, l, some (Nat.max lack (short.getD 0)))

/-- Die d's copy of an object of n bytes, rebuilt from the copy of the lowest-numbered other die in service; none without such
a copy, while it cannot be read or reach die d, or where d has no room (R14, R64, R466). -/
def rebuildCopy (s : State) (p n d : Nat) (copies : List (Nat × List Nat)) : Option (State × List (Nat × List Nat)) :=
  if copies.any (·.1 = d) then none
  else ((List.range 4).findSome? fun x => if dieLost s x then none else copies.find? (·.1 = x)).bind fun e =>
    if routeHeld s e.1 d || objectPaused s false 0 n e.2 then none
    else match soundObject s copies e.1 0 n with
      | (_, false) => none
      | (s, true) => match storeCopies s p n [d] with
        | (s, cs, none) => some (s, cs)
        | _ => none

/-- Copies of models and dictionaries that die d lacks are fetched again (R36, R466). -/
def refetchCopies (s : State) (d : Nat) : State :=
  let s := s.models.foldl (fun s m =>
    match rebuildCopy s m.part m.imageBytes d m.copies with
    | some (s, cs) => { s with models := updIf (fun y => y.uid = m.uid) (fun y =>
        { y with copies := y.copies ++ cs, garbled := y.garbled.filter (·.1 ≠ d) }) s.models }
    | none => s) s
  s.dicts.foldl (fun s m =>
    match rebuildCopy s m.part (2 * m.imageBytes) d m.copies with
    | some (s, cs) =>
      { s with dicts := updIf (fun y => y.part = m.part && y.id = m.id) (fun y =>
        { y with copies := y.copies ++ cs, garbled := y.garbled.filter (·.1 ≠ d) }) s.dicts }
    | none => s) s

/-- Copies that a die in service lacks, because it had no room for them before, are fetched again before a stage is placed
there (R36). -/
def refetchAll (s : State) : State := (diesUp s).foldl refetchCopies s

/-- Whether die d holds a copy of every model and dictionary that a stage names (R36). -/
def copiesOn (s : State) (p : Nat) (st : Stage) (d : Nat) : Bool :=
  ([st.model0, st.model1].all fun i => (modelOf s p i).all fun m => m.copies.any (·.1 = d)) &&
  (dictOf s p st.dict).all fun m => m.copies.any (·.1 = d)

/-- Where a job's thread goes, when a tile can take it. -/
def placeJob (s : State) (j : Job) : Option (Fin 96 × Fin 32) :=
  match sampleOf s j.h with
  | none => none
  | some x =>
    match (recipeOf s x.part x.recipe).bind fun r => r.stages[j.stage]? with
    | none => none
    | some st =>
      if st.threads ≤ stageThreads s x.part x.recipe j.stage fun _ => true then none
      else
        let dies := (if j.stage = 0 then firstDies s x else laterDies x st.parent).filter (copiesOn s x.part st)
        (dies.findSome? fun d => bestTile s d fun t => tileTakes s x.part x.recipe j.stage st t && calTile s x t).bind
          fun t => (freeSlot s t).map fun n => (t, n)

/-- The program that a part of a stage runs (R159, R476). -/
def jobProg (s : State) (p : Nat) (st : Stage) (k : Nat) : List Byte :=
  if st.template = 7 then (((modelOf s p st.model0).map (·.progs)).getD []).getD k [] else st.prog

/-- A thread that starts a stage (R196). -/
def newThread (s : State) (x : Sample) (st : Stage) (j : Job) (t : Fin 96) (n : Fin 32) : Thread :=
  { th := .tile t n, state := 1, part := x.part, sample := x.h, stage := j.stage, partNo := j.partNo, pc := 0,
    progLen := (jobProg s x.part st j.partNo).length, s := [], v := [], p := [], region := putAll zero 0 st.params [],
    tsBytes := st.tsBytes, csBytes := st.csBytes, plen := st.params.length, tickets := [], nextTicket := 1, waitOn := 0,
    waitReg := 0, published := 0, ending := false, fault := 0 }

/-- The thread of a job that was set aside when its tile was lost (R260). -/
def isMoved (j : Job) (y : Thread) : Bool := y.stage = j.stage && y.partNo = j.partNo

/-- Whether a sample may start: fewer than INFLIGHT of its epoch have (R502). -/
def mayStartSample (s : State) (x : Sample) : Bool :=
  match x.from_ with
  | .epoch q => x.started || (epochOf s q).all fun e => startedOf s q < e.inflight
  | .calibration _ => true

/-- A sample starts with its first thread: its engine's die, its budget and its staging area, which is zero; none when the
staging area finds no room (R188, R501). -/
def startSample (s : State) (x : Sample) (d : Nat) : Option State :=
  match recipeOf s x.part x.recipe with
  | none => none
  | some r =>
    let ks := stagingClasses r.outBytes
    if x.started ∧ x.stagingBufs.length = ks.length then some (setSample s x.h fun y => { y with die := d })
    else (allocMany s x.part .staging d ks).map fun (s, hs) =>
      setSample s x.h fun y => { y with
        die := d, stagingBufs := hs, started := true, stagingWait := false, budget := if x.started then x.budget else budgetOf s r }

/-- The first thread of a run of a sample starts it; none while it may not start, or its staging area finds no room. -/
def startFor (s : State) (x : Sample) (g d : Nat) : Option State :=
  if g ≠ 0 || s.threads.any (fun t => (thTile t.th).isSome && t.sample = x.h) then some s
  else if mayStartSample s x then startSample s x d else none

/-- Dies in the order of R29 for work whose input's index records are n bytes of a source at off. -/
def sourceDies (s : State) (p src off n : Nat) : List Nat :=
  let hit : List Nat := match entryOf s p src off n with | some c => [c.die] | none => []
  let near : List Nat := match kindOf s p src with
    | some (.nvme sp _ _ _ _) => [sp]
    | some (.host _ _ _) => [primaryDie s p]
    | _ => []
  (hit ++ near ++ [0, 1, 2, 3]).eraseDups

/-- The thread that a TRANSCODE takes (R29, R358). -/
def encoderPlace (s : State) (p src off n : Nat) : Option (Fin 96 × Fin 32) :=
  ((sourceDies s p src off n).findSome? fun d => bestTile s d fun t => !tileLost s t && (freeSlot s t).isSome).bind
    fun t => (freeSlot s t).map fun k => (t, k)

/-- The thread of the cache encoder: it runs no program, and waits for its unit throughout. -/
def encoderThread (p tag : Nat) (t : Fin 96) (n : Fin 32) : Thread :=
  { th := .tile t n, state := 3, part := p, sample := tag, stage := 0, partNo := 0, pc := 0, progLen := 0,
    s := [], v := [], p := [], region := [], tsBytes := 0, csBytes := 0, plen := 0, tickets := [], nextTicket := 1,
    waitOn := 1, waitReg := 0, published := 0, ending := false, fault := 0 }

/-- Transcodes whose tile was lost and copies that are regenerated, which wait for a thread: what the thread holds, and the
head (R358, R361). -/
def encoderJobs (s : State) (p : Nat) : List (Nat × List Byte) :=
  let l := (s.transcodes.filter fun r => r.part = p).map (fun r => (transcodeTag r.cmd, r.regen)) ++
    (s.copies.filter fun k => k.part = p && k.regenerating && k.failed.isNone).map fun k => (regenTag p k.id, k.regen)
  l.filter fun e => !s.threads.any fun t => t.sample = e.1

/-- Such work takes a thread of partition p. -/
def assignEncoder (s : State) (p : Nat) : Option State :=
  (encoderJobs s p).findSome? fun (tag, l) =>
    (encoderPlace s p (leAt l 0 4) (leAt l 4 6) (32 * leAt l 12 4)).map fun (t, n) =>
      { s with threads := s.threads ++ [encoderThread p tag t n] }

/-- A calibration sample's thread on a tile of 14 lanes marks its run (LANES14). -/
def lanesTaken (s : State) (x : Sample) (t : Nat) : State :=
  match x.from_ with
  | .calibration c => if lanes16 s t then s else setCal s c fun r => { r with lanes14 := true }
  | .epoch _ => s

/-- The command that opened a sample's epoch completes once a thread is assigned to it (R144). -/
def openedBy (s : State) (x : Sample) : State :=
  match x.from_ with
  | .epoch q => finishOpen s q
  | .calibration _ => s

/-- The first sample's job of partition p that can have a thread now, with the state in which it has it. -/
def assignJob (s : State) (p : Nat) : Option State :=
  (jobsOf s p).findSome? fun j =>
    match sampleOf s j.h, placeJob s j with
    | some x, some (t, n) =>
      match (recipeOf s x.part x.recipe).bind fun r => r.stages[j.stage]? with
      | none => none
      | some st =>
        (startFor s x j.stage (t.val / 24)).map fun s =>
          let s := openedBy s x
          let old := x.moved.find? (isMoved j)
          let th := match old with
            | some y => { y with th := .tile t n }
            | none => newThread s x st j t n
          let s := lanesTaken s x t
          let s := setSample { s with threads := s.threads ++ [th] } x.h fun y =>
            { y with moved := y.moved.filter fun z => !isMoved j z }
          if (List.range (stageParts s p st)).all fun k => k = j.partNo ||
              x.partsEnded.any (fun e => e.1 = j.stage && e.2.1 = k) ||
              s.threads.any fun u => (thTile u.th).isSome && u.sample = x.h && u.stage = j.stage && u.partNo = k then
            setSample s x.h fun y => { y with assigned := y.assigned ++ [j.stage] }
          else s
    | _, _ => none

/-- Samples of partition p that could have a thread if their staging areas had room, and have not yet been seen to wait. -/
def stagingWaits (s : State) (p : Nat) : List Sample :=
  (jobsOf s p).filterMap fun j =>
    match sampleOf s j.h, placeJob s j with
    | some x, some (t, _) =>
      if j.stage = 0 && mayStartSample s x && !x.stagingWait && (startFor s x 0 (t.val / 24)).isNone then some x else none
    | _, _ => none

/-- Each of them waits: POOL_EVT.WAIT sets (R555). -/
def noteWaits (s : State) : State :=
  ((List.range 16).flatMap (stagingWaits s)).foldl (fun s x =>
    if (sampleOf s x.h).any (·.stagingWait) then s
    else poolWait (setSample s x.h fun y => { y with stagingWait := true })) s

/-- The first work of partition p that can have a thread now, with the state in which it has it: the cache encoder's, which
has begun already, before the samples' (DESIGN CHOICE, log entry 63). -/
def assignIn (s : State) (p : Nat) : Option State := (assignEncoder s p).or (assignJob s p)

/-- Whether partition a is served before b: below its guarantee, then by the lower ratio, then by number (R582). -/
def servedBefore (s : State) (a b : Nat) : Bool :=
  let h (p : Nat) : Nat := threadsHeld s p
  let below (p : Nat) : Bool := h p < guaranteed s p
  if below a ≠ below b then below a
  else
    let den (p : Nat) : Nat := if below a then guaranteed s p else weight s p
    h a * den b < h b * den a || (h a * den b = h b * den a && a < b)

/-- Whether partition p may take a thread: no other waiting partition is served before it (R582, R583). -/
def mayTake (s : State) (p : Nat) : Bool :=
  !(List.range 16).any fun q => q ≠ p && servedBefore s q p && (assignIn s q).isSome

/-- THREAD_ASSIGN (R582, R583): the waiting partition that comes first has the thread. -/
def execThreadAssign (s : State) : Out :=
  .next (if !alive s then s
    else
      let s := noteWaits (refetchAll s)
      let ps := (List.range 16).filter fun p => (assignIn s p).isSome
      match ps with
      | [] => s
      | p :: l => (assignIn s (l.foldl (fun a b => if servedBefore s b a then b else a) p)).getD s)

end Sys2Proof.Machine
end

