-- ==== Sys2Proof/Machine/Dma.lean ====
section
/-!
DEFINITION. The DMA and buffer class of Orony (R215 to R218, R274, R275, R558, Table 6.8).
-/

namespace Sys2Proof.Machine

/-! ### Buffers that a sample holds -/

/-- The tag under which a thread's references stand in `Sample.held`. -/
def ownTag (t : Thread) : Nat := t.stage + 16 * t.partNo

/-- The tag of a context's references (R306). -/
def ctxTag (c : Nat) : Nat := 8192 + c

/-- Whether a sample holds a buffer (R217). -/
def holds (s : State) (h b : Nat) : Bool :=
  match sampleOf s h with
  | none => false
  | some x => (x.held.any fun e => e.1 < 8192 && e.2 = b) || x.recs.any fun r => r.handle = some b && r.named && !r.consumed

/-- Buffers of class k that a thread holds, a large one counted as n (R216). -/
def holdsOf (s : State) (t : Thread) (k : Nat) : Nat :=
  match sampleOf s t.sample with
  | none => 0
  | some x =>
    let mine (e : Nat) : Bool := e = ownTag t || x.ctxs.any fun c => e = ctxTag c.ctx && c.stage = t.stage
    let hs := ((x.held.filter fun e => mine e.1).map (·.2)).eraseDups
    ((hs.filterMap (bufOf s)).filter fun b => hClass b.handle = k).foldl (fun a b => a + b.n) 0

/-- POOL[k] of a thread's stage. -/
def poolOf (s : State) (t : Thread) (k : Nat) : Nat := ((stageOf s t).map fun st => st.pool.getD k 0).getD 0

/-- BALLOC (R216, R553 to R555): with no room the thread waits. -/
def execBalloc (x : Orony) (s : State) : Out :=
  .next (issueScalar s 4 0x00 x fun s t =>
    let k := x.imm.toNat % 8
    let n := Nat.max 1 (x.imm.toNat / 256)
    if poolOf s t k < holdsOf s t k + n then pfault s x.th 7 0
    else
      match sampleOf s t.sample with
      | none => s
      | some y =>
        let own : Owner := .stage y.recipe t.stage
        match if 1 < n then allocLarge s t.part own (thDie x.th) n else alloc s t.part own (thDie x.th) k with
        | some (s, h) => takeBuffer s x.th x.d h
        | none =>
          setThread { poolWait s with allocWaits := s.allocWaits ++ [⟨x.th, k, n, x.d⟩] } x.th fun t => { t with state := 2 })

/-- BREF (R216, R558). -/
def execBref (x : Orony) (s : State) : Out :=
  .next (issueScalar s 4 0x01 x fun s t =>
    let h := (rs t x.a).toNat
    if !holds s t.sample h then pfault s x.th 4 0
    else match bufOf s h with
    | none => pfault s x.th 4 0
    | some b =>
      if 65535 ≤ b.refs then pfault s x.th 8 0
      else
        let s := setBuf s h fun b => { b with refs := b.refs + 1 }
        let s := setSample s t.sample fun y => { y with held := y.held ++ [(ownTag t, h)] }
        setThread s x.th nextPc)

/-- One reference of a sample to a buffer goes: the thread's own, then its stage's as a child, then a record's, then any
other. A record whose buffer is released is consumed (R279). -/
def release1 (s : State) (t : Thread) (h : Nat) : State :=
  match sampleOf s t.sample with
  | none => s
  | some y =>
    let drop (e : Nat × Nat) (s : State) : State :=
      let s := dropRef (setSample s t.sample fun y => { y with held := eraseHeld y.held e }) h
      if e.1 = ownTag t then s
      else setSample s t.sample fun y => { y with freed := y.freed ++ [(t.stage, e, (bufOf s h).isNone)] }
    if y.held.contains (ownTag t, h) then drop (ownTag t, h) s
    else if y.held.contains (4096 + t.stage, h) then drop (4096 + t.stage, h) s
    else match y.recs.find? fun r => r.handle = some h && r.named && !r.consumed with
      | some r =>
        let s := setRec s y.h r.recno fun r => { r with consumed := true, handle := none }
        let s := { s with fetches := s.fetches.map fun f =>
          { f with recs := f.recs.filter fun e => !(e.1 = y.h && e.2.1 = r.recno) } }
        if landsIn s h then s else dropRef s h
      | none =>
        match y.held.find? fun e => e.1 < 8192 && e.2 = h with
        | some e => drop e s
        | none => s

/-- BFREE (R217, R558). -/
def execBfree (x : Orony) (s : State) : Out :=
  .next (issueScalar s 4 0x02 x fun s t =>
    let h := (rs t x.a).toNat
    if !holds s t.sample h then pfault s x.th 4 0
    else setThread (release1 s t h) x.th nextPc)

/-! ### Transfers between the tile store and buffers -/

/-- The program fault of a DMA operation on n bytes at a tile-store offset, or none. -/
def tsFault (t : Thread) (ts n : Nat) : Option Nat :=
  if ts % 64 ≠ 0 then some 2 else if tsIn t ts n then none else some 1

/-- The program fault of a buffer operand, or none (R217). -/
def bufFault (s : State) (t : Thread) (h off n : Nat) : Option Nat :=
  if !holds s t.sample h then some 4
  else match bufOf s h with
    | none => some 4
    | some b => if off % 64 ≠ 0 then some 2 else if bufSize b < off + n then some 5 else none

/-- Whether a buffer's data can be read on die d now: its fetch has ended, its ports issue requests, and no route change
holds what comes from its die (R14, R64, R275). -/
def bufReady (s : State) (d h off n : Nat) : Bool :=
  match bufOf s h with
  | some b => b.landing ≠ .inFlight && !pausedAt s h off n && !routeHeld s (hDie h) d
  | none => true

def landingOf (s : State) (h : Nat) : Option Landing := (bufOf s h).map fun b => b.landing

/-- The status and cause with which a read of a buffer ends (R275, R299). -/
def bufOutcome (s : State) (h : Nat) : Nat × Nat :=
  match landingOf s h with
  | some (.ended st c _ _) => (st, c)
  | _ => (0, 0)

/-- The ticket that takes the outcome of a buffer's fetch names the request that failed (R290). -/
def noteFail (s : State) (sample h : Nat) : State :=
  match landingOf s h with
  | some (.ended st _ src off) => if 2 ≤ st then setSample s sample fun x => { x with fail := (src, off) } else s
  | _ => s

/-- n bytes of a buffer reach the tile store; an uncorrectable line runs the sample again (Table 16.1). The ticket's status
and cause come back, none when the sample is gone from its thread. -/
def drdNow (s : State) (th : ThreadRef) (h off ts n : Nat) : State × Option (Nat × Nat) :=
  match threadOf s th with
  | none => (s, none)
  | some t =>
    let o := bufOutcome s h
    if o.1 ≠ 0 ∧ o ≠ (1, 1) then (noteFail s t.sample h, some o)
    else
      let (s, bad) := readLines s h off n
      if bad then (sampleUe s t.sample, none)
      else
        let s := crossed s (hDie h) (thDie th) n
        (tileEvent (setThread s th fun t => tsWrite t ts (bufRead s h off n)) th 0x010 n, some o)

/-- DRD (R275): at once when the data is there, else when its ticket completes. -/
def execDrd (x : Orony) (s : State) : Out :=
  .next (issueScalar s 4 0x03 x fun s t =>
    let h := (rs t x.a).toNat
    let off := (rs t (x.a + 1)).toNat
    let ts := (rs t x.b).toNat
    let n := x.imm.toNat
    match (bufFault s t h off n).or (tsFault t ts n) with
    | some e => pfault s x.th e 0
    | none =>
      if 64 ≤ (outstanding t).length then setThread s x.th fun t => { t with state := 6 }
      else if bufReady s (thDie x.th) h off n then
        match drdNow s x.th h off ts n with
        | (s, some o) =>
          let s := if o.1 = 1 then setSample s t.sample fun y => { y with cause := o.2 } else s
          takeTicket s x.th x.d o.1 false none fun s _ => s
        | (s, none) => s
      else takeTicket s x.th x.d 0 false (some (.drd h off ts n)) fun s _ => s)

/-- n bytes of the tile store reach a buffer; an uncorrectable line runs the sample again, and the second result is then
true (R547, Table 16.1). -/
def dwrNow (s : State) (th : ThreadRef) (h off ts n : Nat) : State × Bool :=
  match threadOf s th with
  | none => (s, true)
  | some t =>
    let (s, bad) := mergeLine s h off n
    if bad then (sampleUe s t.sample, true) else (tileEvent (bufWrite (crossed s (thDie th) (hDie h) n) h off (tsRead t ts n)) th 0x018 n, false)

/-- DWR (R215, R217): at once when the buffer's ports and the route to it are open, else when its ticket completes (R14,
R64). -/
def execDwr (x : Orony) (s : State) : Out :=
  .next (issueScalar s 4 0x04 x fun s t =>
    let h := (rs t x.a).toNat
    let off := (rs t (x.a + 1)).toNat
    let ts := (rs t x.b).toNat
    let n := x.imm.toNat
    match (bufFault s t h off n).or (tsFault t ts n) with
    | some e => pfault s x.th e 0
    | none =>
      if 64 ≤ (outstanding t).length then setThread s x.th fun t => { t with state := 6 }
      else if bufOpen s (thDie x.th) h off n then
        match dwrNow s x.th h off ts n with
        | (s, false) => takeTicket s x.th x.d 0 true none fun s _ => s
        | (s, true) => s
      else takeTicket s x.th x.d 0 true (some (.dwr h off ts n)) fun s _ => s)

/-- The staging buffer that holds byte off of a sample's output. -/
def stagingHandle (s : State) (h off : Nat) : Option Nat :=
  (sampleOf s h).bind fun y => y.stagingBufs[off / classSize 7]?

/-- Bytes reach a sample's staging area (R501). -/
def stage (s : State) (h off : Nat) (l : List Byte) : State :=
  match sampleOf s h with
  | none => s
  | some y =>
    let s := (granules off l.length).foldl (fun s g =>
      let k := g % (classSize 7 / 4096)
      let lo := Nat.max off (g * 4096)
      match (y.stagingBufs[g * 4096 / classSize 7]?).bind (bufOf s) with
      | some b =>
        let s := countLines s b (fun _ => true) (k * 4096 + lo % 4096) (Nat.min (off + l.length) (g * 4096 + 4096) - lo)
        setBuf s b.handle fun u => { u with dirty := if u.dirty.contains k then u.dirty else u.dirty ++ [k] }
      | none => s) s
    setSample s h fun y => { y with staging := putAll zero off l y.staging }

/-- Whether die d can write bytes [off, off + n) of a sample's staging area now (R14, R64). -/
def stageOpen (s : State) (d h off n : Nat) : Bool :=
  (sampleOf s h).all fun y => !objectPaused s true off n y.stagingBufs && !y.stagingBufs.any fun b => routeHeld s d (hDie b)

/-- n bytes of the tile store reach the staging area, as `dwrNow`. -/
def doutNow (s : State) (th : ThreadRef) (off ts n : Nat) : State × Bool :=
  match threadOf s th with
  | none => (s, true)
  | some t =>
    let (s, bad) := mergeObject s off n (((sampleOf s t.sample).map (·.stagingBufs)).getD [])
    let die := ((stagingHandle s t.sample off).map hDie).getD (thDie th)
    if bad then (sampleUe s t.sample, true)
    else (tileEvent (stage (crossed s (thDie th) die n) t.sample off (tsRead t ts n)) th 0x018 n, false)

/-- OUT_BYTES of a thread's recipe. -/
def outBytesOf (s : State) (t : Thread) : Nat :=
  (((sampleOf s t.sample).bind fun y => recipeOf s y.part y.recipe).map (·.outBytes)).getD 0

/-- DOUT (R215, R217, R501), at once or when its ticket completes, as DWR. -/
def execDout (x : Orony) (s : State) : Out :=
  .next (issueScalar s 4 0x05 x fun s t =>
    let off := (rs t x.a).toNat
    let ts := (rs t x.b).toNat
    let n := x.imm.toNat
    match (if off % 64 ≠ 0 then some 2 else if outBytesOf s t < off + n then some 6 else none).or (tsFault t ts n) with
    | some e => pfault s x.th e 0
    | none =>
      if 64 ≤ (outstanding t).length then setThread s x.th fun t => { t with state := 6 }
      else if stageOpen s (thDie x.th) t.sample off n then
        match doutNow s x.th off ts n with
        | (s, false) => takeTicket s x.th x.d 0 true none fun s _ => s
        | (s, true) => s
      else takeTicket s x.th x.d 0 true (some (.dout off ts n)) fun s _ => s)

/-! ### DIDX (R269, R274, R275) -/

/-- A delivered record (Table 8.5); `open_` stands for DBYTES where a block list could not be read. DESIGN CHOICE (log entry
68): a damaged record without data delivers the size that its record or list states. -/
def delivered (r : Rec) (open_ : Word) : List Byte :=
  toLe 4 (match r.handle with | some h => h | none => 0xFFFFFFFF) ++
  toLe 4 (if r.bytes = 0 then open_.toNat else r.bytes) ++ toLe 4 r.frame ++
  toLe 1 (r.flags % 32 + (if r.element then 32 else 0) + (if r.damaged then 64 else 0)) ++
  toLe 1 (if r.damaged then r.cause else 0) ++ toLe 2 r.ctx ++ toLe 4 r.keyback ++ toLe 4 r.recno ++ toLe 8 0

/-- Records first to first + n - 1, index records or elements, or none when one does not exist. -/
def namedRecs (x : Sample) (first n : Nat) : Option (List Rec) :=
  let l := (List.range n).filterMap fun i => x.recs.find? fun r => r.recno = first + i && r.recno ≠ captionNo
  if l.length = n then some l else none

/-- A thread of stage g names a record. -/
def nameRec (s : State) (h g recno : Nat) : State := setRec s h recno fun r => { r with named := true, stage := g }

/-- A record is given the buffer that its data lands in, or whose reads carry how its fetch ended; none while there is no
room. -/
def giveBuffer (s : State) (x : Sample) (r : Rec) : Option State :=
  if r.handle.isSome ∨ r.status = 1 then some s
  else
    match recBuffer s x.part x.die x.h { r with named := true } with
    | (s, some b) => some (if r.status ≠ 0 then setBuf s b fun u => { u with landing := .ended r.status r.cause r.failAt.1 r.failAt.2 } else s)
    | (_, none) => none

/-- Gives every record of a list its buffer. -/
def giveBuffers (s : State) (x : Sample) : List Rec → Option State
  | [] => some s
  | r :: rs => (giveBuffer s x r).bind fun s => giveBuffers s x rs

/-- What a DIDX does once its records can be delivered: its status and cause, or none while it waits. -/
def didxNow (s : State) (th : ThreadRef) (first n ts : Nat) : State × Option (Nat × Nat) :=
  match (threadOf s th).bind fun t => sampleOf s t.sample with
  | none => (s, some (5, 0))
  | some x =>
    if x.dirStatus ≠ 0 then (setSample s x.h fun y => { y with fail := x.dirAt }, some (x.dirStatus, x.dirCause))
    else if !x.recsRead then (s, none)
    else match namedRecs x first n with
    | none => (s, some (5, 0))
    | some l =>
      let g := ((threadOf s th).map (·.stage)).getD 0
      let s := l.foldl (fun s r => nameRec s x.h g r.recno) s
      if l.any fun r => r.list.isSome then (s, none)
      else match giveBuffers s x l with
      | none => (s, none)
      | some s =>
        let bytes := (List.range n).flatMap fun i =>
          match recOf s x.h (first + i) with
          | some r => delivered r (Config.contentWord 3 [r.recno, r.ctx, r.frame, r.flags, r.keyback, r.cause])
          | none => []
        (tileEvent (setThread s th fun t => tsWrite t ts bytes) th 0x010 bytes.length, some (0, 0))

/-- DIDX: its records are delivered when its ticket completes. -/
def execDidx (x : Orony) (s : State) : Out :=
  .next (issueScalar s 4 0x06 x fun s t =>
    let ts := (rs t x.b).toNat
    match tsFault t ts (32 * x.imm.toNat) with
    | some e => pfault s x.th e 0
    | none => takeTicket s x.th x.d 0 false (some (.didx (rs t x.a).toNat x.imm.toNat ts)) fun s _ => s)

/-- A thread goes on with a value that no rule states in s[d]; `k` and `l` say what it is a function of. -/
def openResult (s : State) (th : ThreadRef) (d k : Nat) (l : List Nat) : State :=
  setThread s th fun t => nextPc (ws t d (Config.contentWord k l))

/-- A wait on the ticket in s[a]; 0 is no ticket's number. -/
def waitReg (s : State) (t : Thread) (a d st : Nat) : State :=
  if rs t a = 0 then openResult s t.th d 2 [0] else waitTicket s t (rs t a).toNat d st

/-- DWAIT: one ticket, or with I = 1 every ticket of the thread. -/
def execDwait (x : Orony) (s : State) : Out :=
  .next (issueScalar s 4 0x07 x fun s t => if x.i then waitTicket s t 0 x.d 2 else waitReg s t x.a x.d 2)

end Sys2Proof.Machine
end

