-- ==== Sys2Proof/Machine/System.lean ====
section
/-!
DEFINITION. The barrier, system and management classes of Orony (R225 to R228, R235, R236, R608).
-/

namespace Sys2Proof.Machine

/-! ### Barriers -/

/-- BWAIT. -/
def execBwait (x : Orony) (s : State) : Out :=
  .next (issueScalar s 7 0x00 x fun s t =>
    let g := x.imm.toNat
    let st := ((sampleOf s t.sample).map fun y => y.tokens.getD g 0).getD 0
    if st ≠ 0 && !tokenHeld s t.sample g x.th then setThread s x.th fun t => nextPc (ws t x.d (BitVec.ofNat 32 st))
    else setThread s x.th fun t => { t with state := 4, waitOn := g, waitReg := x.d })

/-- BPUB (R226): it waits for the thread's DMA writes. -/
def execBpub (x : Orony) (s : State) : Out :=
  .next (issueScalar s 7 0x01 x fun s t =>
    if t.published ≠ 0 then pfault s x.th 0x0B 0
    else if writesPending t then setThread s x.th fun t => { t with state := 7, waitReg := x.imm.toNat }
    else bpubNow s t x.imm.toNat)

/-! ### System -/

/-- ORONY_NOP. -/
def execOronyNop (x : Orony) (s : State) : Out :=
  .next (issueScalar s 8 0x00 x fun s _ => setThread s x.th nextPc)

/-- YIELD: the thread stays READY, and the turn is the next READY thread's, as it is after every instruction (R198). -/
def execYield (x : Orony) (s : State) : Out :=
  .next (issueScalar s 8 0x01 x fun s _ => setThread s x.th nextPc)

/-- TRAP. -/
def execTrap (x : Orony) (s : State) : Out :=
  .next (issueScalar s 8 0x03 x fun s _ => pfault s x.th 0x0C (x.imm.toNat % 256))

/-- A special register (Table 6.10); none where the thread has no sample to read it from. -/
def specialReg (s : State) (t : Thread) (c : Nat) : Option Nat :=
  let smp (f : Sample → Nat) : Option Nat := (sampleOf s t.sample).bind fun y => if (thTile t.th).isSome then some (f y) else none
  if c = 0 then some (thNum t.th)
  else if c = 1 then thTile t.th
  else if c = 2 then (thTile t.th).map fun i => if lanes16 s i then 16 else 14
  else if c = 3 then (thTile t.th).map fun i => fld s (tileBase i + 0x1000) 15 0
  else if c = 4 then smp (·.h)
  else if c = 5 then smp (·.dsidx % 2 ^ 32)
  else if c = 6 then smp (·.dsidx / 2 ^ 32 % 256)
  else if c = 7 then smp (·.epoch % 65536)
  else if c = 8 then smp (·.pos % 2 ^ 32)
  else if c = 9 then smp (·.pos / 2 ^ 32 % 256)
  else if c = 0x0A then smp fun _ => t.stage
  else if c = 0x0B then smp fun y => if t.stage = 0 then 0 else match stageOf s t with
    | some st => y.tokens.getD st.parent 0
    | none => 0
  else if c = 0x0C then smp fun y =>
    match y.from_ with
    | .epoch q => ((epochOf s q).map (·.mode)).getD 0
    | .calibration _ => ((recipeOf s y.part y.recipe).map (·.repro)).getD 0
  else if c = 0x0D then smp fun y => y.stageCharged.getD t.stage 0 % 2 ^ 32
  else if c = 0x0E then some t.tsBytes
  else some t.plen

/-- RDSR. -/
def execRdsr (x : Orony) (s : State) : Out :=
  .next (issueScalar s 8 0x04 x fun s t =>
    match specialReg s t x.imm.toNat with
    | some v => setThread s x.th fun t => nextPc (ws t x.d (BitVec.ofNat 32 v))
    | none => openResult s x.th x.d 4 [x.imm.toNat])

/-! ### Management -/

/-- The word at an offset of PF0's BAR0; none where nothing stands. -/
def peekReg (s : State) (off : Nat) : Option Word :=
  match resolve s 0 off with
  | .word o => readReg s o
  | .view o => readReg s o
  | .alias_ o b => (readReg s o).map fun w => if w.getLsbD b then 1 else 0
  | .none => none

/-- REGRD (R27): an offset without a register is an access that addresses none and is counted (R87); what it returns is open
(log entry 4). -/
def execRegrd (x : Orony) (s : State) : Out :=
  .next (issueScalar s 9 0x00 x fun s t =>
    let o := (rs t x.a).toNat
    match peekReg s o with
    | some v => setThread s x.th fun t => nextPc (ws t x.d v)
    | none => openResult (bump s 0x2C) x.th x.d 5 [o])

/-- REGWR (R87, R90, R93): a management Minuet has a pending low half of its own; a write that addresses no register is
discarded and counted. -/
def execRegwr (x : Orony) (s : State) : Out :=
  .next (issueScalar s 9 0x01 x fun s t =>
    let v := rs t x.b
    let port := 8 + thDie x.th
    let s := setThread s x.th nextPc
    match resolve s 0 (rs t x.a).toNat with
    | .word o => writeReg s port o none v
    | .alias_ o b => writeReg s port o (some b) v
    | .view _ => s
    | .none => bump s 0x2C)

/-- A transfer between host memory and the data region (R236, R293). -/
def hostMove (s : State) (x : Orony) (k : Nat → Nat → Nat → Nat → TransferKind) (write : Bool) (t : Thread) : State :=
  let addr := (rs t x.a).toNat + 2 ^ 32 * (rs t (x.a + 1)).toNat
  let ts := (rs t x.b).toNat
  let n := x.imm.toNat
  match tsFault t ts n with
  | some e => pfault s x.th e 0
  | none => takeTicket s x.th x.d 0 write none fun s num =>
    let (i, s) := fresh s
    { s with transfers := s.transfers ++ [newTransfer i t.part 0 (k num ts addr n) n] }

/-- HMRD. -/
def execHmrd (x : Orony) (s : State) : Out :=
  .next (issueScalar s 9 0x02 x fun s t => hostMove s x (fun n ts a l => .hmrd x.th n ts a l) false t)

/-- HMWR. -/
def execHmwr (x : Orony) (s : State) : Out :=
  .next (issueScalar s 9 0x03 x fun s t => hostMove s x (fun n ts a l => .hmwr x.th n ts a l) true t)

/-- KICK (R608). The firmware advances its heartbeat with each (R237; the spec does not say by which instruction: DESIGN
CHOICE, log entry 58). -/
def execKick (x : Orony) (s : State) : Out :=
  .next (issueScalar s 9 0x04 x fun s _ =>
    setThread (setDie s (thDie x.th) fun y => { y with kickUs := y.us, hb := y.hb + 1 }) x.th nextPc)

end Sys2Proof.Machine
end

