-- ==== Sys2Proof/Machine/Vector.lean ====
section
/-!
DEFINITION. The vector class of Orony (R205, R206, R210, R211, Table 6.6).
-/

namespace Sys2Proof.Machine

/-- Bits of a subword for a value of W. -/
def subBits (w : Nat) : Nat := 32 / 2 ^ w

/-- A subword as a signed number. -/
def sgn (w x : Nat) : Int := if x < 2 ^ (w - 1) then x else (x : Int) - 2 ^ w
/-- An integer modulo 2^w. -/
def wrapI (w : Nat) (x : Int) : Nat := (x % 2 ^ w).toNat
/-- An integer saturated to the signed range of w bits. -/
def satS (w : Nat) (x : Int) : Nat := wrapI w (clampI (-(2 ^ (w - 1))) (2 ^ (w - 1) - 1) x)

/-- Applies f to each subword of w bits of two elements; its results are taken modulo 2^w. -/
def subwords (w : Nat) (f : Nat → Nat → Nat) (x y : Word) : Word :=
  BitVec.ofNat 32 ((List.range (32 / w)).foldl (fun a j =>
    a + f (x.toNat / 2 ^ (j * w) % 2 ^ w) (y.toNat / 2 ^ (j * w) % 2 ^ w) % 2 ^ w * 2 ^ (j * w)) 0)

/-- IMM as an operand: each subword takes its low w bits (R206). -/
def immSplat (w : Nat) (imm : Word) : Word := subwords w (fun _ _ => imm.toNat) 0 0

/-- Element i of operand Y. -/
def vecY (t : Thread) (x : Orony) (i : Nat) : Word := if x.i then immSplat (subBits x.w) x.imm else rv t x.b i

/-- Writes element i of v[d] from f where the guard allows it (R205). -/
def writeVec (t : Thread) (g : BitVec 16) (d : Nat) (f : Nat → Word) : Thread :=
  (List.range 16).foldl (fun u i => if g.getLsbD i then wv u d i (f i) else u) t

/-- A vector instruction whose result per element is f. -/
def vectorOp (op : Nat) (f : Thread → Nat → Word) (x : Orony) (s : State) : State :=
  issue s 2 op x fun s t => setThread s x.th fun _ => nextPc (writeVec t (guard16 t x) x.d (f t))

/-- An integer operation per subword. -/
def intOp (op : Nat) (f : Nat → Nat → Nat → Nat) (x : Orony) (s : State) : State :=
  vectorOp op (fun t i => subwords (subBits x.w) (f (subBits x.w)) (rv t x.a i) (vecY t x i)) x s

/-- VADD. -/
def execVadd (x : Orony) (s : State) : Out := .next (intOp 0x0 (fun _ x y => x + y) x s)

/-- VSUB. -/
def execVsub (x : Orony) (s : State) : Out := .next (intOp 0x1 (fun w x y => x + 2 ^ w - y) x s)

/-- VADDS. -/
def execVadds (x : Orony) (s : State) : Out := .next (intOp 0x2 (fun w x y => satS w (sgn w x + sgn w y)) x s)

/-- VADDUS. -/
def execVaddus (x : Orony) (s : State) : Out := .next (intOp 0x3 (fun w x y => Nat.min (2 ^ w - 1) (x + y)) x s)

/-- VMUL. -/
def execVmul (x : Orony) (s : State) : Out := .next (intOp 0x4 (fun _ x y => x * y) x s)

/-- VMULHU. -/
def execVmulhu (x : Orony) (s : State) : Out := .next (intOp 0x5 (fun w x y => x * y / 2 ^ w) x s)

/-- VMIN. -/
def execVmin (x : Orony) (s : State) : Out := .next (intOp 0x6 (fun w x y => if sgn w y < sgn w x then y else x) x s)

/-- VMAX. -/
def execVmax (x : Orony) (s : State) : Out := .next (intOp 0x7 (fun w x y => if sgn w x < sgn w y then y else x) x s)

/-- VMINU. -/
def execVminu (x : Orony) (s : State) : Out := .next (intOp 0x8 (fun _ x y => Nat.min x y) x s)

/-- VMAXU. -/
def execVmaxu (x : Orony) (s : State) : Out := .next (intOp 0x9 (fun _ x y => Nat.max x y) x s)

/-- VAND. -/
def execVand (x : Orony) (s : State) : Out := .next (intOp 0xa (fun _ x y => x &&& y) x s)

/-- VOR. -/
def execVor (x : Orony) (s : State) : Out := .next (intOp 0xb (fun _ x y => x ||| y) x s)

/-- VXOR. -/
def execVxor (x : Orony) (s : State) : Out := .next (intOp 0xc (fun _ x y => x ^^^ y) x s)

/-- VSHL. -/
def execVshl (x : Orony) (s : State) : Out := .next (intOp 0xd (fun w x y => x * 2 ^ (y % w)) x s)

/-- VSHR. -/
def execVshr (x : Orony) (s : State) : Out := .next (intOp 0xe (fun w x y => x / 2 ^ (y % w)) x s)

/-- VSRA. -/
def execVsra (x : Orony) (s : State) : Out := .next (intOp 0xf (fun w x y => wrapI w (sgn w x / 2 ^ (y % w))) x s)

/-- A vector compare writes p[D]. -/
def compareOp (op : Nat) (c : Word → Word → Bool) (x : Orony) (s : State) : State :=
  issue s 2 op x fun s t =>
    setThread s x.th fun _ => nextPc (wp t x.d (cmpMask (guard16 t x) c (rv t x.a) (vecY t x)))

/-- VCEQ. -/
def execVceq (x : Orony) (s : State) : Out := .next (compareOp 0x10 (· == ·) x s)
/-- VCLT. -/
def execVclt (x : Orony) (s : State) : Out := .next (compareOp 0x11 sltB x s)
/-- VCLTU. -/
def execVcltu (x : Orony) (s : State) : Out := .next (compareOp 0x12 ultB x s)

/-- VSEL. -/
def execVsel (x : Orony) (s : State) : Out :=
  .next (vectorOp 0x13 (fun t i => if (rp t (x.imm.toNat % 8)).getLsbD i then rv t x.a i else rv t x.b i) x s)

/-- VBC: a scalar's low bits, or IMM's, in every subword. -/
def execVbc (x : Orony) (s : State) : Out :=
  .next (vectorOp 0x14 (fun t _ => immSplat (subBits x.w) (if x.i then x.imm else rs t x.a)) x s)

/-- VEXT writes a scalar register; the element is read whatever its guard bit, as the guard governs elements written. -/
def execVext (x : Orony) (s : State) : Out :=
  .next (issue s 2 0x15 x fun s t => setThread s x.th fun _ => nextPc (ws t x.d (rv t x.a (x.imm.toNat % 16))))

/-- VINS: element IMM[3:0] of v[D], where the guard allows it. -/
def execVins (x : Orony) (s : State) : Out :=
  .next (issue s 2 0x16 x fun s t =>
    let i := x.imm.toNat % 16
    setThread s x.th fun _ => nextPc (if (guard16 t x).getLsbD i then wv t x.d i (rs t x.a) else t))

/-- VRSUM. -/
def execVrsum (x : Orony) (s : State) : Out :=
  .next (issue s 2 0x17 x fun s t =>
    setThread s x.th fun _ => nextPc (ws t x.d
      ((List.range 16).foldl (fun a i => if (guard16 t x).getLsbD i then a + rv t x.a i else a) 0)))

/-- VFADD. -/
def execVfadd (x : Orony) (s : State) : Out := .next (vectorOp 0x18 (fun t i => f32add (rv t x.a i) (vecY t x i)) x s)
/-- VFMUL. -/
def execVfmul (x : Orony) (s : State) : Out := .next (vectorOp 0x19 (fun t i => f32mul (rv t x.a i) (vecY t x i)) x s)
/-- VFMA. -/
def execVfma (x : Orony) (s : State) : Out :=
  .next (vectorOp 0x1A (fun t i => f32fma (rv t x.a i) (vecY t x i) (rv t x.d i)) x s)
/-- VCVTIF. -/
def execVcvtif (x : Orony) (s : State) : Out := .next (vectorOp 0x1B (fun t i => f32ofInt (rv t x.a i).toInt) x s)
/-- VCVTFI. -/
def execVcvtfi (x : Orony) (s : State) : Out := .next (vectorOp 0x1C (fun t i => f32toInt (rv t x.a i)) x s)

end Sys2Proof.Machine
end

