-- ==== Sys2Proof/Machine/TileStore.lean ====
section
/-!
DEFINITION. The tile-store class of Orony (R212 to R214, Table 6.7).
-/

namespace Sys2Proof.Machine

/-- What an access meets. -/
inductive Access where
  /-- a program fault with a reason of Table 6.17 -/
  | fault (reason : Nat)
  /-- a chunk whose ready token is not set -/
  | wait (slot buf : Nat)
  | bytes (l : List Byte)
  deriving DecidableEq, Repr

/-- A load of n bytes aligned to n: misaligned, beyond the region, or outside the cluster store's spaces (R214). -/
def loadAt (s : State) (t : Thread) (w a n : Nat) : Access :=
  if a % n ≠ 0 then .fault 2
  else if w = 0 then if tsIn t a n then .bytes (spaceRead s t a n) else .fault 1
  else match csRead s t a n with
    | .range => .fault 3
    | .wait i b => .wait i b
    | .bytes l => .bytes l

/-- The address of a tile-store instruction. -/
def tsAddr (t : Thread) (x : Orony) : Nat := (rs t x.a + x.imm).toNat

/-- Goes on with what a load met; a load of a chunk not yet ready waits in WAIT_CS and issues anew (R35). -/
def withLoad (s : State) (th : ThreadRef) (r : Access) (f : State → List Byte → State) : State :=
  match r with
  | .fault e => pfault s th e 0
  | .wait i b => setThread s th fun t => { t with state := 5, waitOn := csWait i b }
  | .bytes l => f s l

/-- The 32-bit word in four bytes at an offset of a list. -/
def wordAt (l : List Byte) (o : Nat) : Word := BitVec.ofNat 32 (leAt l o 4)

/-- LDS. -/
def execLds (x : Orony) (s : State) : Out :=
  .next (issueScalar s 3 0x00 x fun s t =>
    withLoad s x.th (loadAt s t x.w (tsAddr t x) 4) fun s l =>
      setThread s x.th fun _ => nextPc (ws t x.d (wordAt l 0)))

/-- STS. -/
def execSts (x : Orony) (s : State) : Out :=
  .next (issueScalar s 3 0x01 x fun s t =>
    withLoad s x.th (loadAt s t 0 (tsAddr t x) 4) fun s _ =>
      setThread (spaceWrite s x.th (tsAddr t x) (toLe 4 (rs t x.b).toNat)) x.th nextPc)

/-- LDV: element i at address + 4 i, where the guard allows it. DESIGN CHOICE (log entry 68): on a management thread, which
has no vector registers (R236), this and the other vector loads and stores only pass the turn. -/
def execLdv (x : Orony) (s : State) : Out :=
  .next (issue s 3 0x02 x fun s t =>
    match x.th with
    | .mgmt _ _ => s
    | .tile _ _ =>
      withLoad s x.th (loadAt s t x.w (tsAddr t x) 64) fun s l =>
        setThread s x.th fun _ => nextPc (writeVec t (guard16 t x) x.d fun i => wordAt l (4 * i)))

/-- Writes words at addresses, one after another. -/
def storeWords (t : Thread) (l : List (Nat × Word)) : Thread := l.foldl (fun t e => tsWrite t e.1 (toLe 4 e.2.toNat)) t

/-- STV: the guarded elements. -/
def execStv (x : Orony) (s : State) : Out :=
  .next (issue s 3 0x03 x fun s t =>
    match x.th with
    | .mgmt _ _ => s
    | .tile _ _ =>
      withLoad s x.th (loadAt s t 0 (tsAddr t x) 64) fun s _ =>
        setThread s x.th fun _ => nextPc (storeWords t (((List.range 16).filter ((guard16 t x).getLsbD ·)).map
          fun i => (tsAddr t x + 4 * i, rv t x.b i))))

/-- Address of element i of a gather or scatter. -/
def elemAt (t : Thread) (x : Orony) (i : Nat) : Nat := (rs t x.a + x.imm + rv t x.b i).toNat

/-- The loads of the guarded elements, in ascending order: the first that does not succeed decides. -/
def gatherAll (s : State) (t : Thread) (x : Orony) : List Nat → Access
  | [] => .bytes []
  | i :: is =>
    match loadAt s t x.w (elemAt t x i) 4 with
    | .bytes l =>
      match gatherAll s t x is with
      | .bytes m => .bytes (l ++ m)
      | r => r
    | r => r

/-- Elements whose guard bit is 1. -/
def guarded (t : Thread) (x : Orony) : List Nat := (List.range 16).filter fun i => (guard16 t x).getLsbD i

/-- LDVG. -/
def execLdvg (x : Orony) (s : State) : Out :=
  .next (issue s 3 0x04 x fun s t =>
    match x.th with
    | .mgmt _ _ => s
    | .tile _ _ =>
      withLoad s x.th (gatherAll s t x (guarded t x)) fun s l =>
        setThread s x.th fun _ => nextPc ((guarded t x).zipIdx.foldl (fun u (i, k) => wv u x.d i (wordAt l (4 * k))) t))

/-- STVX: ascending element order, so the higher-numbered element's value remains (R213). -/
def execStvx (x : Orony) (s : State) : Out :=
  .next (issue s 3 0x05 x fun s t =>
    match x.th with
    | .mgmt _ _ => s
    | .tile _ _ =>
      withLoad s x.th (gatherAll s t x (guarded t x)) fun s _ =>
        setThread s x.th fun _ => nextPc (storeWords t ((guarded t x).map fun i => (elemAt t x i, rv t x.d i))))

end Sys2Proof.Machine
end

