-- ==== Sys2Proof/Machine/Lattice.lean ====
section
/-!
DEFINITION. The lattice class of Orony: multiply-accumulate, nonlinear functions, conversion and cross-tile reduction
(R223, R224, R431 to R457).
-/

namespace Sys2Proof.Machine

/-! ### Operation blocks (Table 6.11) -/

/-- The fields of an operation block. -/
structure LatBlk where
  fa : Nat
  fb : Nat
  fc : Nat
  round : Nat
  nosat : Bool
  func : Nat
  aOff : Nat
  bOff : Nat
  cOff : Nat
  m : Nat
  n : Nat
  k : Nat
  aStr : Nat
  bStr : Nat
  cStr : Nat
  draw : Nat
  deriving DecidableEq, Repr

def parseLat (l : List Byte) : LatBlk :=
  ⟨leAt l 0 1, leAt l 1 1, leAt l 2 1, leAt l 3 1 % 4, bitN (leAt l 3 1) 2, leAt l 4 2, leAt l 8 4, leAt l 12 4, leAt l 16 4,
   leAt l 20 2, leAt l 22 2, leAt l 24 2, leAt l 28 4, leAt l 32 4, leAt l 36 4, leAt l 40 6⟩

/-- Whether B lies in the cluster store. -/
def LatBlk.cluster (b : LatBlk) : Bool := 2 ^ 31 ≤ b.bOff

/-- Rows of an operand: offset, stride, rows, type, elements in a row. -/
structure LatMat where
  off : Nat
  str : Nat
  rows : Nat
  etype : Nat
  len : Nat
  deriving DecidableEq, Repr

/-- The matrices of an operation: kind 0 LMMA, 1 LACT, 2 LCVT, 3 LRED (R432). -/
def LatBlk.matA (b : LatBlk) (kind : Nat) : LatMat := ⟨b.aOff, b.aStr, b.m, b.fa, if kind = 0 then b.k else b.n⟩
def LatBlk.matB (b : LatBlk) : LatMat := ⟨b.bOff % 2 ^ 31, b.bStr, b.n, b.fb, b.k⟩
def LatBlk.matC (b : LatBlk) : LatMat := ⟨b.cOff, b.cStr, b.m, b.fc, b.n⟩

/-- Whether a matrix obeys R434's rules on offsets, strides and row lengths. -/
def LatMat.ok (x : LatMat) : Bool :=
  x.off % 4 = 0 && x.str % 4 = 0 && rowLen x.etype x.len ≤ x.str && etypeOk x.etype &&
  (!etypePacked x.etype || x.len * etypeBits x.etype % 8 = 0) && (!etypeMx x.etype || x.len % 32 = 0)

/-- The byte after a matrix's last one. -/
def LatMat.fin_ (x : LatMat) : Nat := x.off + (x.rows - 1) * x.str + rowLen x.etype x.len

/-- Whether bytes [c, c + l) meet a row of a matrix. -/
def LatMat.meets (x : LatMat) (c l : Nat) : Bool :=
  let w := rowLen x.etype x.len
  x.off < c + l && (let r := Nat.min (x.rows - 1) ((c + l - 1 - x.off) / Nat.max 1 x.str); c < x.off + r * x.str + w)

/-- Whether two matrices share a byte. -/
def LatMat.clash (x y : LatMat) : Bool :=
  (List.range x.rows).any fun i => y.meets (x.off + i * x.str) (rowLen x.etype x.len)

/-- In place (R435). -/
def inPlace (b : LatBlk) : Bool :=
  b.cOff = b.aOff && b.cStr = b.aStr && etypeBits b.fa = etypeBits b.fc && rowLen b.fa b.n = rowLen b.fc b.n

def floatType (t : Nat) : Bool := (3 ≤ t && t ≤ 7) || (0x0A ≤ t && t ≤ 0x0E)

/-- Whether an operation block is valid as far as its own bytes and the tile store go (R224, R434, R435, R448, R449). -/
def latOk (kind ts : Nat) (l : List Byte) : Bool :=
  let b := parseLat l
  let zero_ := leAt l 3 1 < 8 && zeroBytes l 6 8 && zeroBytes l 26 28 && zeroBytes l 46 64
  let sizes := 1 ≤ b.m && b.m ≤ 4096 && 1 ≤ b.n && b.n ≤ 4096
  zero_ && sizes && b.round ≠ 3 && b.matC.ok && b.matC.fin_ ≤ ts &&
  (if kind = 0 then
      1 ≤ b.k && b.k ≤ 4096 && b.func = 0 && (b.matA 0).ok && b.matB.ok && (b.matA 0).fin_ ≤ ts &&
      (b.cluster || b.matB.fin_ ≤ ts) && b.fc ≤ 7 && floatType b.fa == floatType b.fb &&
      !b.matC.clash (b.matA 0) && (b.cluster || !b.matC.clash b.matB)
    else if kind ≤ 2 then
      b.k = 0 && b.fb = 0 && b.bOff = 0 && b.bStr = 0 && (b.matA 1).ok && (b.matA 1).fin_ ≤ ts &&
      (inPlace b || !b.matC.clash (b.matA 1)) &&
      (if kind = 1 then 1 ≤ b.func && b.func ≤ 0x0E && (b.func ≠ 0x0E || (b.fa = 7 && b.n % 2 = 0)) else b.func = 0)
    else
      b.k = 0 && b.fa = 0 && b.fb = 0 && b.aOff = 0 && b.bOff = 0 && b.aStr = 0 && b.bStr = 0 && b.fc = 7 &&
      b.round = 0 && !b.nosat && b.draw = 0)

/-! ### Arithmetic -/

/-- The exact sum of a chunk's products (R441). -/
def chunkSum : List Fp → Fp
  | [] => .fin false 0 0
  | x :: xs => xs.foldl Fp.add x

/-- One element of LMMA before conversion: chunks of 32 in ascending order, one rounding each (R440). -/
def lmmaAcc (acc : Word) (a b : List Fp) : Word :=
  (chunksBy 32 (List.zipWith Fp.mul a b)).foldl (fun r c => toFp32 ((ofFp32 r).add (chunkSum c))) acc

/-- tanh of a fixed value. -/
def fxTanh (x : Int) : Int := fxOne - fxDiv (2 * fxOne) (fxExp (2 * x) + fxOne)

/-- The true value of a LACT function at m * 2^e (negative when `neg`) and the error bound of its result (Table 13.3). -/
def lactTrue (f : Nat) (neg : Bool) (m : Nat) (e : Int) : Int × Int :=
  let (p, q) := fracOf m e
  let x := fxOf (.fin neg m e)
  let wide (r : Int) : Int × Int := (r, if (r.natAbs : Int) / 2 ^ 20 < 2 ^ 496 then 2 ^ 496 else (r.natAbs : Int) / 2 ^ 20)
  let near (n : Nat) (r : Int) : Int × Int := (r, ulps n r)
  let abs22 (r : Int) : Int × Int := (r, 2 ^ 490)
  if f = 1 then near 2 (fxExp x)
  else if f = 2 then near 2 (fxLn p q)
  else if f = 3 then near 1 (fxSqrt (fxQ q p))
  else if f = 4 then near 1 (if neg then -(fxQ q p) else fxQ q p)
  else if f = 5 then near 1 (fxSqrt x)
  else if f = 6 then wide (if neg then fxMul x (fxPhiNeg (-x)) else fxMul x (fxOne - fxPhiNeg x))
  else if f = 7 then
    let u := fxMul (fxQ 7978846 10000000) (x + fxMul (fxQ 44715 1000000) (fxMul x (fxMul x x)))
    wide (fxMul (x / 2) (fxOne + fxTanh u))
  else if f = 8 then wide (fxDiv x (fxOne + fxExp (-x)))
  else if f = 9 then abs22 (fxDiv fxOne (fxOne + fxExp (-x)))
  else if f = 0x0A then abs22 (fxTanh x)
  else
    let (n, v) := if f = 0x0B then fxSinPi (2 * p) q else fxSinPi (4 * p + q) (2 * q)
    abs22 (if n != (neg && f = 0x0B) then -v else v)

/-- What a LACT function gives where the table states no exact result: a free value within the bound (log entry 6). -/
def lactFree (f : Nat) (v : Fp) : Word :=
  match v with
  | .fin neg m e => let (t, b) := lactTrue f neg m e; heldTo (Config.lact f (toFp32 v)) t b
  | _ => 0

/-- The outputs of BOXMULLER: free values within 2^-14 of R247 (log entry 6). -/
def boxMuller (a b : Nat) : Word × Word :=
  let r := fxSqrt (-2 * fxLn (2 * a + 1) (2 ^ 25))
  let turn (n : Bool) (v : Int) : Int := fxMul r (if n then -v else v)
  -- sin and cos of 2π u2, u2 = (2 b + 1) / 2^25
  let (sn, s) := fxSinPi (2 * (2 * b + 1)) (2 ^ 25)
  let (cn, c) := fxSinPi (4 * (2 * b + 1) + 2 ^ 25) (2 ^ 26)
  (heldTo (Config.boxMuller a b).1 (turn cn c) (2 ^ 498), heldTo (Config.boxMuller a b).2 (turn sn s) (2 ^ 498))

/-- The FP32 value of a LACT function (Table 13.3). -/
def lactOf (f : Nat) (v : Fp) : Word :=
  let x := toFp32 v
  let nan : Word := 0x7FC00000
  let inf : Word := 0x7F800000
  let le (a b : Fp) : Bool := !b.lt a
  let isZero : Bool := match v with | .fin _ 0 _ => true | _ => false
  let neg := v.isNeg
  match v with
  | .nan => nan
  | _ =>
    if f = 1 then
      if (Fp.ofInt 8872284).lt (v.mul (Fp.ofInt 100000)) then inf
      else if v = .inf true then 0
      else let r := lactFree 1 v; if f32lt r 0x00800000 then 0 else r
    else if f = 2 then if isZero then 0xFF800000 else if neg then nan else if v = .inf false then inf else lactFree 2 v
    else if f = 3 then if isZero then (if neg then 0xFF800000 else inf) else if neg then nan
      else if v = .inf false then 0 else lactFree 3 v
    else if f = 4 then
      if isZero then (if neg then 0xFF800000 else inf)
      else if !v.isFin then (if neg then 0x80000000 else 0) else lactFree 4 v
    else if f = 5 then if isZero && neg then 0x80000000 else if neg then nan
      else if v = .inf false then inf else lactFree 5 v
    else if f = 6 ∨ f = 7 then if le (Fp.ofInt 8) v then x else if le v (Fp.ofInt (-8)) then 0 else lactFree f v
    else if f = 8 then if le (Fp.ofInt 16) v then x else if le v (Fp.ofInt (-16)) then 0 else lactFree 8 v
    else if f = 9 then if v.isFin then lactFree 9 v else if neg then 0 else 0x3F800000
    else if f = 0x0A then if v.isFin then lactFree 0x0A v else if neg then 0xBF800000 else 0x3F800000
    else if f = 0x0B ∨ f = 0x0C then if v.isFin then lactFree f v else nan
    else if isZero || neg then 0 else x

/-- Whether a function gives back its operand as it is (R441). -/
def lactSame (f : Nat) (v : Fp) : Bool :=
  if f = 6 ∨ f = 7 then !v.lt (Fp.ofInt 8) else if f = 8 then !v.lt (Fp.ofInt 16)
  else f = 0x0D && !v.isNeg && (match v with | .fin _ 0 _ => false | _ => true)

/-- The value of a function: an operand given back keeps its exact value, whatever FP32 holds of it (R439). -/
def lactVal (f : Nat) (v : Fp) : Fp :=
  match v with
  | .nan => ofFp32 (lactOf f v)
  | _ => if lactSame f v then v else ofFp32 (lactOf f v)

/-- The values of a row of C of LACT before conversion. -/
def lactRow (f : Nat) (row : List Byte) (t n : Nat) : List Fp :=
  if f = 0x0E then
    (List.range n).map fun j =>
      let z := boxMuller (leAt row (j / 2 * 8) 4 / 256) (leAt row (j / 2 * 8 + 4) 4 / 256)
      ofFp32 (if j % 2 = 0 then z.1 else z.2)
  else (List.range n).map fun j => lactVal f (rowValue t n row j)

/-- The seed and epoch of a sample's draws (R239). -/
def sampleSeed (s : State) (x : Sample) : BitVec 128 × Nat :=
  match x.from_ with
  | .epoch q => (((epochOf s q).map (·.seed)).getD 0, x.epoch)
  | .calibration _ => (0, 0)

/-- A draw of a sample for a purpose and frame. -/
def sampleDraw (s : State) (x : Sample) (frame purpose draw : Nat) : Quad :=
  let (seed, ep) := sampleSeed s x
  cbg (counter ep x.dsidx frame purpose draw) seed

/-- The 8 random bits of element i (R446). -/
def stochBits (s : State) (h draw i : Nat) : Nat :=
  match sampleOf s h with
  | some x => fieldOf (sampleDraw s x 0 7) draw 8 i
  | none => 0

/-! ### Operations over a thread's region -/

/-- Row r of a matrix in the tile store. -/
def LatMat.row (x : LatMat) (t : Thread) (r : Nat) : List Byte := tsRead t (x.off + r * x.str) (rowLen x.etype x.len)

/-- What reading B from the cluster store meets; its rows in order. -/
def csRows (s : State) (t : Thread) (x : LatMat) : CsRead :=
  (List.range x.rows).foldl (fun a r =>
    match a with
    | .bytes l =>
      (match csRead s t (x.off + r * x.str) (rowLen x.etype x.len) with
       | .bytes m => .bytes (l ++ m)
       | .range => .range
       | .wait i b => .wait i b)
    | other => other) (.bytes [])

/-- The rows of C that an operation writes, each from its own row number; `rowsB` are B's rows one after another. -/
def latRow (s : State) (t : Thread) (kind : Nat) (b : LatBlk) (rowsB : List Byte) (r : Nat) : List Byte :=
  let u (j : Nat) : Nat := if b.round = 2 then stochBits s t.sample b.draw (r * b.n + j) else 0
  let ra := (b.matA kind).row t r
  if kind = 0 then
    let lb := rowLen b.fb b.k
    let a := (List.range b.k).map (rowValue b.fa b.k ra)
    let rc := b.matC.row t r
    let acc := (List.range b.n).map fun j =>
      let rb := sliceB rowsB (j * lb) lb
      lmmaAcc (toFp32 (rowValue b.fc b.n rc j)) a ((List.range b.k).map (rowValue b.fb b.k rb))
    if b.fc = 7 then acc.flatMap fun w => toLe 4 w.toNat
    else rowBytes b.fc b.round b.nosat u (acc.map ofFp32)
  else if kind = 1 then rowBytes b.fc b.round b.nosat u (lactRow b.func ra b.fa b.n)
  else rowBytes b.fc b.round b.nosat u ((List.range b.n).map (rowValue b.fa b.n ra))

/-- Writes the rows of C. -/
def latWrite (t : Thread) (c : LatMat) (rows : List (List Byte)) : Thread :=
  rows.zipIdx.foldl (fun u (l, r) => tsWrite u (c.off + r * c.str) l) t

/-- LMMA, LACT or LCVT on a valid block: done, refused with RANGE, or waiting for a chunk. -/
inductive LatOut where
  | done (s : State)
  | range
  | wait
  deriving DecidableEq, Repr

/-- What TILE_EV_MAC counts of a product of m x k by k x n: cell operations over whole output blocks and K chunks, in units
of 4,096 (R455, Table 18.10). -/
def cellOps (m n k : Nat) : Nat := ((m + 63) / 64) * ((n + 63) / 64) * ((k + 31) / 32) * 32

/-- Whether a lattice operation of the tile of thread th issued before number n still waits: the lattice serves one at a
time, in the order its threads issue them (R456). -/
def latBefore (s : State) (th : ThreadRef) (n : Nat) : Bool :=
  s.threads.any fun t => thTile t.th = thTile th && t.tickets.any fun k =>
    match k.deferred with
    | some (.lat _ _ m) => m < n
    | _ => false

def latRun (s : State) (th : ThreadRef) (kind blk : Nat) : LatOut :=
  match threadOf s th with
  | none => .range
  | some t =>
    let l := tsRead t blk 64
    if !latOk kind t.tsBytes l then .range
    else
      let b := parseLat l
      let rb : CsRead := if kind ≠ 0 then .bytes []
        else if b.cluster then csRows s t b.matB
        else .bytes ((List.range b.n).flatMap (b.matB.row t))
      match rb with
      | .range => .range
      | .wait _ _ => .wait
      | .bytes rowsB =>
        let rows := (List.range b.m).map (latRow s t kind b rowsB)
        .done (tileEvent (setThread s th fun t => latWrite t b.matC rows) th 0x038
          (if kind = 0 then cellOps b.m b.n b.k else 0))

/-- The program fault of an operation or command block at a tile-store offset, or none: a block that is not 64-byte aligned
is TS_ALIGN and one that runs beyond TS_BYTES is TS_RANGE, not a ticket with status RANGE (DESIGN CHOICE, log entry
27). -/
def blkFault (t : Thread) (blk : Nat) : Option Nat := tsFault t blk 64

/-- Issues LMMA, LACT or LCVT: done at once, unless its operands or an earlier operation of the tile keep it waiting (R223,
R224, R436, R456). -/
def latOp (kind : Nat) (x : Orony) (s : State) : State :=
  issueScalar s 6 kind x fun s t =>
    let blk := (rs t x.a).toNat
    match blkFault t blk with
    | some e => pfault s x.th e 0
    | none =>
      if 64 ≤ (outstanding t).length then setThread s x.th fun t => { t with state := 6 }
      else
        let later := takeTicket { s with nextId := s.nextId + 1 } x.th x.d 0 false (some (.lat kind blk s.nextId)) fun s _ => s
        match latRun s x.th kind blk with
        | .done u => if latBefore s x.th s.nextId then later else takeTicket u x.th x.d 0 false none fun s _ => s
        | .range => takeTicket s x.th x.d 5 false none fun s _ => s
        | .wait => later

/-- LMMA. -/
def execLmma (x : Orony) (s : State) : Out := .next (latOp 0 x s)
/-- LACT. -/
def execLact (x : Orony) (s : State) : Out := .next (latOp 1 x s)
/-- LCVT. -/
def execLcvt (x : Orony) (s : State) : Out := .next (latOp 2 x s)

/-! ### LRED (R450 to R453) -/

/-- Elementwise sum of two parts' matrices. -/
def addParts (x y : List Word) : List Word := List.zipWith f32add x y

/-- One level of the tree: neighbours in pairs. -/
def lredLevel : List (List Word) → List (List Word)
  | x :: y :: l => addParts x y :: lredLevel l
  | l => l

/-- The sum over 2^q parts. -/
def lredSum : Nat → List (List Word) → List Word
  | 0, l => l.headD []
  | k + 1, l => lredSum k (lredLevel l)

/-- Sets the outcome of a ticket that waits. -/
def settleTicket (s : State) (th : ThreadRef) (n status : Nat) : State :=
  setThread s th fun t => { t with
    tickets := updIf (fun k => k.num = n) (fun k => { k with status := status, deferred := none }) t.tickets }

/-- The block of a part that waits. -/
def lredBlk (s : State) (th : ThreadRef) (n : Nat) : LatBlk :=
  match (threadOf s th).bind fun t => (t.tickets.find? fun k => k.num = n).map fun k => (t, k) with
  | some (t, k) => (match k.deferred with | some (.lred b) => parseLat (tsRead t b 64) | _ => parseLat [])
  | none => parseLat []

/-- FP32 words of a part's C in row order. -/
def lredWords (s : State) (th : ThreadRef) (b : LatBlk) : List Word :=
  match threadOf s th with
  | some t => (List.range b.m).flatMap fun r => (List.range b.n).map fun j => wordAt (b.matC.row t r) (4 * j)
  | none => []

/-- A group whose parts have all issued: every part's C receives the sum. -/
def lredFinish (s : State) (g : LredGroup) : State :=
  let parts := (List.range (2 ^ g.q)).filterMap fun p => g.parts.find? (·.1 = p)
  let sum := lredSum g.q (parts.map fun p => lredWords s p.2.1 (lredBlk s p.2.1 p.2.2))
  let s := parts.foldl (fun s p =>
    let b := lredBlk s p.2.1 p.2.2
    let s := setThread s p.2.1 fun t => latWrite t b.matC (chunksBy (4 * b.n) (sum.flatMap fun w => toLe 4 w.toNat))
    settleTicket s p.2.1 p.2.2 0) s
  { s with lreds := s.lreds.filter (· ≠ g) }

/-- Whether a route change holds what the parts of a group send each other (R14). -/
def lredHeld (s : State) (g : LredGroup) : Bool :=
  g.parts.any fun a => g.parts.any fun b => routeHeld s (thDie a.2.1) (thDie b.2.1)

/-- A group finishes once all its parts have issued and can reach each other. -/
def lredTry (s : State) (g : LredGroup) : State := if g.parts.length = 2 ^ g.q && !lredHeld s g then lredFinish s g else s

/-- A part joins its group. -/
def lredJoin (s : State) (t : Thread) (num blk : Nat) : State :=
  let b := parseLat (tsRead t blk 64)
  let q := b.func / 2 ^ 13
  let p := b.func / 2 ^ 6 % 2 ^ 7
  let grp := b.func % 2 ^ 6
  let mine (g : LredGroup) : Bool := g.sample = t.sample && g.stage = t.stage && g.group = grp
  if 2 ^ q ≤ p then settleTicket s t.th num 5
  else match s.lreds.find? mine with
  | none =>
    let g : LredGroup := ⟨t.sample, t.stage, grp, q, b.m, b.n, false, [(p, t.th, num)]⟩
    let s := { s with lreds := s.lreds ++ [g] }
    lredTry s g
  | some g =>
    if g.parts.any (·.1 = p) then settleTicket s t.th num 5
    else if g.q ≠ q ∨ g.m ≠ b.m ∨ g.n ≠ b.n then
      let s := (g.parts ++ [(p, t.th, num)]).foldl (fun s e => settleTicket s e.2.1 e.2.2 5) s
      { s with lreds := s.lreds.filter (· ≠ g) }
    else
      let g' := { g with parts := g.parts ++ [(p, t.th, num)] }
      let s := { s with lreds := updIf mine (fun _ => g') s.lreds }
      lredTry s g'

/-- LRED: the ticket waits for the group, which the part joins once the tile's lattice takes it (R456). -/
def execLred (x : Orony) (s : State) : Out :=
  .next (issueScalar s 6 3 x fun s t =>
    let blk := (rs t x.a).toNat
    match blkFault t blk with
    | some e => pfault s x.th e 0
    | none =>
      if !latOk 3 t.tsBytes (tsRead t blk 64) then takeTicket s x.th x.d 5 false none fun s _ => s
      else if latBefore s x.th s.nextId then
        takeTicket { s with nextId := s.nextId + 1 } x.th x.d 0 false (some (.lat 3 blk s.nextId)) fun s _ => s
      else takeTicket s x.th x.d 0 false (some (.lred blk)) fun s n => lredJoin s t n blk)

/-- A part that waited for its tile's lattice joins its group. -/
def lredTaken (s : State) (t : Thread) (num blk : Nat) : State :=
  lredJoin (setThread s t.th fun u => { u with
    tickets := updIf (fun k => k.num = num) (fun k => { k with deferred := some (.lred blk) }) u.tickets }) t num blk

/-- LWAIT (R223). -/
def execLwait (x : Orony) (s : State) : Out :=
  .next (issueScalar s 6 4 x fun s t => waitReg s t x.a x.d 3)

/-! ### CBG, VCBG, UWAIT (R219 to R222) -/

/-- Whether a program may draw for a purpose (R222). -/
def purposeOk (c : Nat) : Bool := (1 ≤ c && c ≤ 7) || c = 0x0A || (0x10 ≤ c && c ≤ 0x7F)

/-- The draw of a thread's registers, `k` beyond their draw index. -/
def threadDraw (s : State) (t : Thread) (a k : Nat) : Quad :=
  let hi := (rs t (a + 1)).toNat
  let draw := (rs t a).toNat + 2 ^ 32 * (hi % 65536)
  match sampleOf s t.sample with
  | some x => sampleDraw s x ((rs t (a + 2)).toNat % 65536) (hi / 65536 % 256) ((draw + k) % 2 ^ 48)
  | none => cbg (counter 0 0 ((rs t (a + 2)).toNat % 65536) (hi / 65536 % 256) ((draw + k) % 2 ^ 48)) 0

/-- Goes on when the purpose in s[a + 1] is one that a program may use. -/
def withPurpose (s : State) (t : Thread) (a : Nat) (f : State → State) : State :=
  if purposeOk ((rs t (a + 1)).toNat / 65536 % 256) then f s else pfault s t.th 0x0A 0

/-- CBG. -/
def execCbg (x : Orony) (s : State) : Out :=
  .next (issueScalar s 5 5 x fun s t =>
    withPurpose s t x.a fun s =>
      let q := threadDraw s t x.a 0
      setThread s x.th fun t => nextPc ((List.range 4).foldl (fun u i => ws u (x.d + i) (q.word i)) t))

/-- VCBG. -/
def execVcbg (x : Orony) (s : State) : Out :=
  .next (issueScalar s 5 7 x fun s t =>
    withPurpose s t x.a fun s =>
      setThread s x.th fun u => nextPc ((List.range 16).foldl (fun u i => wv u x.d i ((threadDraw s t x.a (i / 4)).word (i % 4))) u))

/-- UWAIT. -/
def execUwait (x : Orony) (s : State) : Out :=
  .next (issueScalar s 5 6 x fun s t => waitReg s t x.a x.d 3)

end Sys2Proof.Machine
end

