-- ==== Sys2Proof/Machine/Streams.lean ====
section
/-!
DEFINITION. Table 9.2: the tools that a format excludes, and the parts of an access unit that are skipped and not flagged
(R304). The layout of those parts is that of the coding standards (PRESUMED, log entry 9).
-/

namespace Sys2Proof.Machine

/-! ### Tools -/

/-- The tools that Table 9.2 excludes, by FORMAT. -/
def excludedTools : Nat → List Config.Tool
  | 1 => [.fmo, .aso, .redundantSlices, .switchingSlices, .separatePlanes]
  | 2 => [.crossComponent, .extendedPrecision, .persistentRice, .screenContent]
  | 3 => [.largeScaleTile]
  | 4 => [.oddProfile]
  | 5 => [.arithmetic, .lossless, .hierarchical]
  | 6 => [.part2, .part15, .fileBoxes]
  | 7 => [.oldVersion, .oldMicroVersion]
  | _ => []

/-- Whether a tool is excluded: listed for the format, or named nowhere in the table. -/
def excluded (f : Nat) (t : Config.Tool) : Bool := t = .other || (excludedTools f).contains t

/-! ### What is skipped -/

/-- The byte of a list at an offset, 0 beyond it. -/
def byteAt (l : List Byte) (o : Nat) : Nat := (l.getD o 0).toNat

/-- Big-endian bytes. -/
def beAt (l : List Byte) (o n : Nat) : Nat := (List.range n).foldl (fun a i => a * 256 + byteAt l (o + i)) 0

/-- Offsets behind the start codes 00 00 01 of an Annex B stream. -/
def startCodes (l : List Byte) : List Nat :=
  ((List.range l.length).filter fun i => byteAt l i = 0 && byteAt l (i + 1) = 0 && byteAt l (i + 2) = 1).map (· + 3)

/-- NAL units of an Annex B stream: each from behind its start code up to the next one. -/
def annexB (l : List Byte) : List (Nat × Nat) :=
  let at_ := startCodes l
  (at_.zipIdx).map fun (o, i) => (o, (at_.getD (i + 1) (l.length + 3)) - 3 - o)

/-- NAL units with a length of n bytes before each, at most k of them. -/
def prefixed (l : List Byte) (n : Nat) : Nat → Nat → List (Nat × Nat)
  | 0, _ => []
  | k + 1, o =>
    if l.length < o + n then [] else (o + n, beAt l o n) :: prefixed l n k (o + n + beAt l o n)

/-- NAL units of an access unit in a context's NALFMT (Table 9.3): offset and bytes. -/
def nalUnits (fmt : Nat) (l : List Byte) : List (Nat × Nat) :=
  if fmt = 0 then annexB l else prefixed l (if fmt = 1 then 4 else 2) l.length 0

/-- A number in AV1's leb128 at an offset, with its bytes. -/
def leb128 (l : List Byte) (o : Nat) : Nat × Nat :=
  let n := ((List.range 8).takeWhile fun i => 128 ≤ byteAt l (o + i)).length + 1
  ((List.range n).foldl (fun a i => a + byteAt l (o + i) % 128 * 2 ^ (7 * i)) 0, n)

/-- OBUs in the low-overhead format, at most k of them: offset and bytes, the header with them. -/
def obus (l : List Byte) : Nat → Nat → List (Nat × Nat)
  | 0, _ => []
  | k + 1, o =>
    if l.length ≤ o then []
    else
      let hd := byteAt l o
      let ext := if hd / 4 % 2 = 1 then 1 else 0
      if hd / 2 % 2 = 0 then [(o, l.length - o)]
      else
        let (n, m) := leb128 l (o + 1 + ext)
        (o, 1 + ext + m + n) :: obus l k (o + 1 + ext + m + n)

/-- Whether an OBU belongs to other operating points than 0: it has an extension, and operating point 0 leaves its temporal or
spatial layer out. Sequence headers and temporal delimiters belong to all. -/
def otherPoint (idc : Nat) (l : List Byte) (o : Nat) : Bool :=
  let hd := byteAt l o
  let e := byteAt l (o + 1)
  hd / 4 % 2 = 1 && idc ≠ 0 && hd / 8 % 16 ≠ 1 && hd / 8 % 16 ≠ 2 && !(bitN idc (e / 32) && bitN idc (8 + e / 8 % 4))

/-- Segments of a JPEG stream up to its first scan, at most k of them: marker, offset and bytes. -/
def jpegSegments (l : List Byte) : Nat → Nat → List (Nat × Nat × Nat)
  | 0, _ => []
  | k + 1, o =>
    if l.length < o + 2 then []
    else
      let m := byteAt l (o + 1)
      if m = 0xD8 then (m, o, 2) :: jpegSegments l k (o + 2)
      else if m = 0xDA then []
      else (m, o, 2 + beAt l (o + 2) 2) :: jpegSegments l k (o + 2 + beAt l (o + 2) 2)

/-- Byte ranges of an access unit that are skipped and not flagged (Table 9.2): SVC and MVC NAL units of AVC, multi-layer NAL
units of HEVC, OBUs of operating points other than 0, APP and COM segments of JPEG. -/
def skippedRanges (c : Ctx) (l : List Byte) : List (Nat × Nat) :=
  let f := c.opts.getD 0 0
  let nals := nalUnits (c.opts.getD 2 0) l
  if f = 1 then nals.filter fun u => byteAt l u.1 % 32 ∈ [14, 15, 20]
  else if f = 2 then nals.filter fun u => byteAt l u.1 % 2 * 32 + byteAt l (u.1 + 1) / 8 ≠ 0
  else if f = 3 then (obus l l.length 0).filter fun u => otherPoint (Config.operatingPoint c.config c.history l) l u.1
  else if f = 5 then
    ((jpegSegments l l.length 0).filter fun g => (0xE0 ≤ g.1 && g.1 ≤ 0xEF) || g.1 = 0xFE).map fun g => (g.2.1, g.2.2)
  else []

/-- Whether a byte lies in one of the ranges. -/
def inRanges (l : List (Nat × Nat)) (o : Nat) : Bool := l.any fun r => r.1 ≤ o && o < r.1 + r.2

end Sys2Proof.Machine
end

