-- ==== Sys2Proof/Machine/Pictures.lean ====
section
/-!
DEFINITION. What the block's own rules make of the pictures that a coding standard yields from an access unit: limits, damage
causes and their inheritance, work bounds, guarded writes, sampling and precision, concealment, buffers and records (R303,
R304, R315 to R326).
-/

namespace Sys2Proof.Machine

/-- The byte of a block at an offset. -/
def b8 (l : List Byte) (o : Nat) : Nat := leAt l o 1
def b16 (l : List Byte) (o : Nat) : Nat := leAt l o 2
def b32 (l : List Byte) (o : Nat) : Nat := leAt l o 4

/-- A handle field that names no buffer. -/
def noHandle : Nat := 0xFFFFFFFF

/-! ### A context's options (Table 9.3): FORMAT, DROP, NALFMT, OUT16, GRAIN, REDUCE, LAYERS -/

def Ctx.format (c : Ctx) : Nat := c.opts.getD 0 0
def Ctx.drop (c : Ctx) : Bool := c.opts.getD 1 0 = 1
def Ctx.out16 (c : Ctx) : Bool := c.opts.getD 3 0 = 1

/-- A context just opened. -/
def newCtx (ctx stage : Nat) (opts : List Nat) (config : List Byte) (stateBuf : Nat) : Ctx :=
  { ctx := ctx, stage := stage, opts := opts, config := config, history := [], stateBuf := stateBuf, store := [], queue := [],
    flushed := [], left := [], kept := [], outCount := 0, leading := [], shown := [], shape := none }

/-! ### Planes (R315) -/

/-- Bytes of a sample's container. -/
def contBytes (depth : Nat) (o16 : Bool) : Nat := if depth = 8 && !o16 then 1 else 2

/-- Pitch of a plane of width w in containers of c bytes. -/
def pitchOf (w c : Nat) : Nat := roundUp (w * c) 64

/-- Offsets of planes of given sizes, each where the one before ends. -/
def planeOffs (c : Nat) : Nat → List (Nat × Nat) → List Nat
  | _, [] => []
  | o, (w, h) :: rest => o :: planeOffs c (o + pitchOf w c * h) rest

/-- Bytes of all planes. -/
def planesBytes (c : Nat) (l : List (Nat × Nat)) : Nat := (l.map fun (w, h) => pitchOf w c * h).foldl (· + ·) 0

/-- Bytes of a plane, each row padded to its pitch with zeros. -/
def planeData (c w h : Nat) (px : Nat → Nat → Nat) : List Byte :=
  (List.range h).flatMap fun y =>
    ((List.range w).flatMap fun x => toLe c (px x y)) ++ List.replicate (pitchOf w c - w * c) 0

def picSizes (p : Config.Pic) : List (Nat × Nat) := p.planes.map fun q => (q.w, q.h)

/-- A plane's sample; one that was not reconstructed reads 0 until it is concealed. -/
def planePx (q : Config.Plane) (x y : Nat) : Nat := ((q.samples.getD (y * q.w + x) none)).getD 0

/-- Class and count of the buffer that holds n bytes of planes (R315). -/
def picClass (n : Nat) : Nat × Nat :=
  if n ≤ classSize 7 then (classFor n, 1) else (7, ceilDiv n (classSize 7))

/-- A picture record (Table 9.4). -/
def picRecBytes (p : Config.Pic) (handle : Nat) (c16 : Bool) (order : Nat) : List Byte :=
  toLe 4 handle ++ toLe 2 p.width ++ toLe 2 p.height ++ toLe 2 p.cropL ++ toLe 2 p.cropT ++ toLe 2 p.outW ++
  toLe 2 p.outH ++ toLe 4 p.frame.toNat ++
  toLe 1 ((if p.rgb then 128 else 0) + p.chroma % 4 * 32 + p.depth % 32) ++
  toLe 1 ((if c16 then 64 else 0) + (if p.alpha then 32 else 0) + (if p.woven then 16 else 0) +
    (if p.damagedRef then 8 else 0) + (if p.concealed then 4 else 0) + (if p.absent then 2 else 0) +
    (if p.cause ≠ 0 then 1 else 0)) ++
  toLe 1 p.cause.toNat ++ toLe 1 p.planes.length ++ toLe 4 order ++ toLe 1 (p.subs.toNat % 16) ++ [0, 0, 0]

/-! ### Limits (Table 9.1, R303, R304) -/

/-- Whether a format's pictures have free sampling factors. -/
def freeSampling (f : Nat) : Bool := f = 5 || f = 6

/-- Depths and chroma formats of Table 9.1 that go together. -/
def depthOk (f : Nat) (hd : Config.Head) : Bool :=
  let d := (hd.comps.head?.map (·.depth)).getD 0
  let one := hd.comps.all fun c => c.depth = d
  if f = 1 then one && d ∈ [8, 10] && hd.chroma ∈ [0, 1, 2]
  else if f = 2 then one && (if hd.chroma ≤ 1 then d ∈ [8, 10, 12] else if hd.chroma = 2 then d ∈ [8, 10] else hd.chroma = 3 && d = 8)
  else if f = 3 then one && d ∈ [8, 10] && hd.chroma ∈ [0, 1, 3]
  else if f = 4 then one && d ∈ [8, 10, 12] && hd.chroma = 1
  else if f = 5 then one && d ∈ [8, 12]
  else if f = 6 then hd.comps.all fun c => 1 ≤ c.depth && c.depth ≤ 16
  else one && 8 ≤ d && d ≤ 16 && hd.chroma ≤ 4

/-- Whether a picture breaks a limit of Table 9.1. -/
def limitBroken (f : Nat) (hd : Config.Head) : Bool :=
  (if f ≤ 4 then 8192 < hd.width || 8192 < hd.height || 35651584 < hd.width * hd.height
   else 16384 < hd.width || 16384 < hd.height) ||
  !depthOk f hd ||
  (freeSampling f && (hd.comps.isEmpty || 4 < hd.comps.length)) ||
  (f = 5 && hd.comps.any fun c => c.h = 0 || 4 < c.h || c.v = 0 || 4 < c.v)

/-! ### Sampling and precision (R316) -/

/-- The largest power of two's exponent, at most 3, whose power does not exceed a / b: the nearest ratio that SUBS can state
and that repetition of samples leads to. -/
def ratioLog (a b : Nat) : Nat :=
  if b = 0 then 0 else if 8 * b ≤ a then 3 else if 4 * b ≤ a then 2 else if 2 * b ≤ a then 1 else 0

def maxOf (l : List Nat) : Nat := l.foldl Nat.max 0

/-- Components that chroma subsampling may apply to: none of the first, of alpha, or of RGB. -/
def chromaComps (hd : Config.Head) : List Config.Comp :=
  if hd.rgb then [] else (hd.comps.drop 1).take (hd.comps.length - 1 - (if hd.alpha then 1 else 0))

/-- SUBS as log2 across and down: what every chroma component can be brought to. 4:1:1 is 4 across. -/
def subsLog (f : Nat) (hd : Config.Head) : Nat × Nat :=
  if freeSampling f then
    let hm := maxOf (hd.comps.map (·.h))
    let vm := maxOf (hd.comps.map (·.v))
    let l := chromaComps hd
    ((leastOf (l.map fun c => ratioLog hm c.h)).getD 0, (leastOf (l.map fun c => ratioLog vm c.v)).getD 0)
  else if hd.chroma = 4 then (2, 0) else (0, 0)

/-- Subsampling of plane i across and down in the picture buffer. -/
def outSub (f : Nat) (hd : Config.Head) (i : Nat) : Nat × Nat :=
  if i = 0 || hd.rgb || (chromaComps hd).length < i then (1, 1)
  else if freeSampling f || hd.chroma = 4 then (2 ^ (subsLog f hd).1, 2 ^ (subsLog f hd).2)
  else if hd.chroma = 1 then (2, 2) else if hd.chroma = 2 then (2, 1) else (1, 1)

/-- Size of plane i in the picture buffer. -/
def outSize (f : Nat) (hd : Config.Head) (i : Nat) : Nat × Nat :=
  (ceilDiv hd.width (outSub f hd i).1, ceilDiv hd.height (outSub f hd i).2)

def outSizes (f : Nat) (hd : Config.Head) : List (Nat × Nat) := (List.range hd.comps.length).map (outSize f hd)

/-- Bits per sample: the highest precision of the components. -/
def outDepth (hd : Config.Head) : Nat := maxOf (hd.comps.map (·.depth))

/-- A component's plane at its place in the picture buffer: repeated up to the plane's size and shifted left to the
picture's precision. -/
def outPlane (f : Nat) (hd : Config.Head) (i : Nat) (q : Config.Plane) : Config.Plane :=
  match hd.comps[i]? with
  | none => q
  | some c =>
    let (w, h) := outSize f hd i
    let hm := if freeSampling f then maxOf (hd.comps.map (·.h)) else 1
    let vm := if freeSampling f then maxOf (hd.comps.map (·.v)) else 1
    let sx (x : Nat) : Nat := if freeSampling f then Nat.min (q.w - 1) (x * (outSub f hd i).1 * c.h / Nat.max 1 hm) else x
    let sy (y : Nat) : Nat := if freeSampling f then Nat.min (q.h - 1) (y * (outSub f hd i).2 * c.v / Nat.max 1 vm) else y
    let shift := 2 ^ (outDepth hd - c.depth)
    ⟨w, h, (List.range h).flatMap fun y => (List.range w).map fun x =>
      (q.samples.getD (sy y * q.w + sx x) none).map (· * shift)⟩

/-! ### What has been reconstructed (R319 to R321) -/

/-- Bounds on the work units of an access unit of n bytes (R319). -/
def euBound (n samples : Nat) : Nat := 64 * n + 2 * samples + 4096
def rpBound (blocks : Nat) : Nat := 8 * blocks + 64

/-- Samples and 4x4 blocks of all planes of the pictures of an access unit. -/
def auSamples (l : List Config.Head) : Nat := ((l.flatMap (·.comps)).map fun c => c.w * c.ht).foldl (· + ·) 0
def auBlocks (l : List Config.Head) : Nat := ((l.flatMap (·.comps)).map fun c => ceilDiv c.w 4 * ceilDiv c.ht 4).foldl (· + ·) 0

/-- The bytes of an access unit as the decoder reads them: those missing read as 0 (R321). No decoding within the bound reads
more: a work unit takes no more than four bytes. -/
def paddedAu (l : List Byte) (bound : Nat) : List Byte := l ++ List.replicate (4 * bound) 0

/-- Whether a write lies inside the planes of its picture (R320). -/
def writeIn (hd : Config.Head) (w : Config.Write) : Bool :=
  match hd.comps[w.plane]? with
  | some c => 0 ≤ w.x && w.x < c.w && 0 ≤ w.y && w.y < c.ht
  | none => false

/-- The components' planes with the writes that lie inside them (R320). -/
def drawPlanes (hd : Config.Head) (l : List Config.Write) : List Config.Plane :=
  hd.comps.zipIdx.map fun (c, i) =>
    let blank : List (Option Nat) := List.replicate (c.w * c.ht) none
    ⟨c.w, c.ht, (l.filter fun w => w.plane = i && writeIn hd w).foldl
      (fun a w => modAt a (w.y.toNat * c.w + w.x.toNat) fun _ => some w.v) blank⟩

/-- A field without its complement: its lines repeated into the missing ones (R304). -/
def fillField (bottom : Bool) (q : Config.Plane) : Config.Plane :=
  { q with samples := (List.range q.h).flatMap fun y => (List.range q.w).map fun x =>
      let line := if bottom then (if y % 2 = 0 then y + 1 else y) else y - y % 2
      q.samples.getD (Nat.min line (q.h - 1) * q.w + x) none }

/-- Whether any sample of a picture is not reconstructed. -/
def hasGaps (p : Config.Pic) : Bool := p.planes.any fun q => q.samples.any (·.isNone)

/-! ### Concealment (R324) -/

/-- The fill of a plane's missing samples: those of the same plane of `last`, else 2^(d-1). -/
def fillPlane (d : Nat) (last : Option Config.Plane) (q : Config.Plane) : Config.Plane :=
  let at_ (i : Nat) : Nat := match last with
    | some r => (r.samples.getD i none).getD (2 ^ (d - 1))
    | none => 2 ^ (d - 1)
  { q with samples := (q.samples.zipIdx).map fun (v, i) => some (v.getD (at_ i)) }

/-- Conceals what a picture has not reconstructed from another picture's co-located area. -/
def concealFrom (r : Option Config.Pic) (p : Config.Pic) : Config.Pic :=
  if !hasGaps p then p
  else { p with
    concealed := true
    planes := (p.planes.zipIdx).map fun (q, i) => fillPlane p.depth (r.bind fun r => r.planes[i]?) q }

/-- The most recent picture before p in output order with its dimensions. -/
def fillSource (l : List Config.Pic) (p : Config.Pic) : Option Config.Pic :=
  (l.filter fun r => r.width = p.width && r.height = p.height && r.order < p.order).foldl
    (fun a r => match a with | none => some r | some b => if b.order ≤ r.order then some r else some b) none

def conceal (l : List Config.Pic) (p : Config.Pic) : Config.Pic := concealFrom (fillSource l p) p

/-! ### Damage (R317, R318, R322, R323, R325, R326) -/

/-- The cause of Table 9.5 for a flaw; a tool that the format's row of Table 9.2 does not exclude is none. -/
def flawCode (f : Nat) : Config.Flaw → Option Nat
  | .broken => some 0x10
  | .tool t => if excluded f t then some 0x11 else none
  | .noReference => some 0x13
  | .hashMismatch => some 0x18
  | .sliceCrc => some 0x19
  | .noParams => some 0x1B

/-- Whether a sample written at byte p stands behind a broken syntax structure before which decoding has not begun anew
(R323). -/
def unsynced (bd : Config.Body) (p : Nat) : Bool :=
  bd.flaws.any fun w => w.2.1 = .broken && w.1 ≤ p && !bd.resync.any fun q => w.1 < q && q ≤ p

/-- How decoding an access unit went: its bytes, the source cause, and whether a work bound was reached. -/
structure AuRun where
  bytes : Nat
  cause : Nat
  bounded : Bool
  eu : Nat
  rp : Nat
  deriving DecidableEq, Repr

/-- A stream that begins at a record with KEY or DECODABLE_FROM (R317). -/
def startsClean (c : Ctx) (au : Config.Au) : Bool := (c.history ++ [au]).head?.any fun a => a.flags % 4 ≠ 0

/-- Numbers of the leading pictures, with those among new ones: pictures that depend on data before the record at which
their stream began, at KEY or DECODABLE_FROM, or on such a picture (R317). -/
def leadingWith (c : Ctx) (clean : Bool) (l : List Config.Head) : List Nat :=
  l.foldl (fun a hd => if clean && (hd.before || hd.refs.any a.contains) then a ++ [hd.num] else a) c.leading

/-- The causes that a picture's own decoding meets, each with the byte at which it is found. -/
def ownCauses (f : Nat) (clean noBuf : Bool) (hd : Config.Head) (bd : Config.Body) (r : AuRun) : List (Nat × Nat) :=
  let on (b : Bool) (at_ code : Nat) : List (Nat × Nat) := if b then [(at_, code)] else []
  on (limitBroken f hd) hd.at_ 0x12 ++ on (!clean && hd.before) hd.at_ 0x13 ++ on noBuf hd.at_ 0x1A ++
  bd.flaws.filterMap (fun w => (flawCode f w.2.1).map fun k => (w.1, k)) ++
  ((bd.writes.filter fun w => !writeIn hd w).map fun w => (w.at_, 0x16)) ++
  on (r.bytes < bd.used) r.bytes 0x17 ++ on r.bounded bd.used 0x15 ++ on bd.unpaired.isSome bd.used 0x1C

/-- The first of them in bitstream order, with its byte. -/
def firstOwn (l : List (Nat × Nat)) : Option (Nat × Nat) :=
  l.foldl (fun a e => match a with | none => some e | some b => if e.1 < b.1 then some e else some b) none

/-- Pictures that a picture predicts from and that are damaged or concealed. -/
def badRefs (c : Ctx) (hd : Config.Head) : List Config.Pic :=
  ((c.store.map (·.pic)).filter fun p => hd.refs.contains p.num && (p.cause ≠ 0 || p.concealed))

/-- The cause that a picture takes over from those it predicts from: UNSUPPORTED and NO_REFERENCE pass on as they are (R304,
R318), all others as DAMAGED_REF (R322); 0 when it predicts from none that is damaged. -/
def inherited (l : List Config.Pic) : Nat :=
  match l.find? fun p => p.cause = 0x11 || p.cause = 0x13 with
  | some p => p.cause.toNat
  | none => if l.isEmpty then 0 else 0x14

/-- The one cause of a picture (R322). -/
def oneCause (source own inherit : Nat) : Nat := if source ≠ 0 then source else if own ≠ 0 then own else inherit

/-- A picture whose dimensions cannot be established within Table 9.1 (R326). -/
def noShape (f : Nat) (hd : Config.Head) (bd : Config.Body) : Bool :=
  limitBroken f hd || bd.flaws.any fun w => w.2.2 && (flawCode f w.2.1 = some 0x11 || flawCode f w.2.1 = some 0x1B)

/-- A coded picture as its context comes to hold it. -/
def codedPic (c : Ctx) (clean : Bool) (au : Config.Au) (r : AuRun) (hd : Config.Head) (bd : Config.Body) (buf : Option Nat) :
    Config.Pic :=
  let f := c.format
  let none_ := noShape f hd bd
  let bad := badRefs c hd
  let own := ((firstOwn (ownCauses f clean (!none_ && buf.isNone) hd bd r)).map (·.2)).getD 0
  let whole := bd.flaws.any fun w => w.2.2 && w.2.1 = .broken
  let drawn := (drawPlanes hd (if none_ || whole then [] else bd.writes)).zipIdx.map fun (q, i) => outPlane f hd i q
  let planes := match bd.unpaired with | some b => drawn.map (fillField b) | none => drawn
  let gaps := planes.any fun q => q.samples.any (·.isNone)
  -- samples that a sound picture leaves out are a broken syntax structure
  let own := if own = 0 && gaps then 0x10 else own
  let cause := oneCause r.cause own (inherited bad)
  let p : Config.Pic :=
    { num := hd.num, order := hd.order, width := hd.width, height := hd.height, cropL := hd.cropL, cropT := hd.cropT,
      outW := hd.outW, outH := hd.outH, frame := au.frame, rgb := hd.rgb,
      chroma := if freeSampling f || hd.chroma = 4 then 0 else hd.chroma, depth := outDepth hd, alpha := hd.alpha,
      woven := hd.woven, damagedRef := !bad.isEmpty, concealed := false,
      absent := none_ || buf.isNone || (cause ≠ 0 && c.drop), cause := BitVec.ofNat 8 cause,
      subs := BitVec.ofNat 8 ((subsLog f hd).1 + 4 * (subsLog f hd).2), planes := if none_ then [] else planes }
  conceal c.shown p

/-- The picture of a record without data (R326): one of the dimensions that the context decoded last, concealed whole, or
absent by the context's mode or when it has decoded none yet. -/
def lostPic (c : Ctx) (au : Config.Au) (buf : Option Nat) : Config.Pic :=
  let num := 2 ^ 32 + c.history.length
  let order := maxOf (c.shown.map (·.order)) + 1
  match c.shape with
  | some p =>
    conceal c.shown { p with
      num := num, order := order, frame := au.frame, damagedRef := false, concealed := false, woven := false,
      absent := buf.isNone || c.drop, cause := BitVec.ofNat 8 au.cause,
      planes := p.planes.map fun q => { q with samples := q.samples.map fun _ => none } }
  | none => { (default : Config.Pic) with num := num, order := order, frame := au.frame, absent := true,
                                          cause := BitVec.ofNat 8 au.cause }

/-! ### An access unit in its context (R312) -/

/-- A picture that an access unit brings, before it has a buffer. -/
inductive FreshPic where
  | coded (hd : Config.Head) (bd : Config.Body)
  | lost
  deriving DecidableEq, Repr

/-- What an access unit comes to before its pictures are settled: the pictures it brings, the leading ones of the stream so
far, whether the stream began at KEY or DECODABLE_FROM, the pictures that leave the reordering, those kept, and how its
decoding went. -/
structure AuWork where
  pics : List FreshPic
  leading : List Nat
  clean : Bool
  out : List Nat
  keep : List Nat
  run : AuRun
  deriving DecidableEq, Repr

/-- Places of a header's components in the order of a picture buffer: Y, Cb, Cr or G, B, R, then alpha (R315). -/
def planeOrder (hd : Config.Head) : List Nat :=
  [0, 1, 2, 3].flatMap fun k => (List.range hd.comps.length).filter fun i => (hd.comps.getD i default).chan.val = k

/-- A header with its components in that order. -/
def orderedHead (hd : Config.Head) : Config.Head := { hd with comps := (planeOrder hd).map fun i => hd.comps.getD i default }

/-- A picture's data as the decoder keeps it: the components in that order, nothing of what is skipped, nothing behind a broken
structure up to the next place where decoding begins anew, and nothing from the work bounds on (R304, R315, R319, R323). -/
def keptBody (hd : Config.Head) (skip : List (Nat × Nat)) (eu rp : Nat) (bd : Config.Body) : Config.Body :=
  let flaws := bd.flaws.filter fun w => !inRanges skip w.1
  { bd with
    flaws := flaws
    writes := (bd.writes.filter fun w => !inRanges skip w.at_ && !unsynced { bd with flaws := flaws } w.at_ && w.eu < eu && w.rp < rp).map
      fun w => { w with plane := (planeOrder hd).findIdx (· = w.plane) } }

/-- The pictures that a context holds for reference, as they stand concealed. -/
def refPics (c : Ctx) : List Config.Pic := c.store.map (·.pic)

/-- Decodes an access unit within its bounds; one without data brings one picture for its frame. -/
def auWork (c : Ctx) (au : Config.Au) : AuWork :=
  match au.bytes with
  | none => ⟨[.lost], c.leading, startsClean c au, [2 ^ 32 + c.history.length], c.store.map (·.pic.num), ⟨0, au.cause, false, 0, 0⟩⟩
  | some l =>
    let hs := Config.heads c.opts c.config c.history l
    let eb := euBound l.length (auSamples hs)
    let rb := rpBound (auBlocks hs)
    let skip := skippedRanges c l
    let d := Config.decode c.opts c.config c.history (refPics c) (paddedAu l eb) skip hs
    let pics := hs.zipIdx.map fun (hd, i) => FreshPic.coded (orderedHead hd) (keptBody hd skip eb rb (d.bodies.getD i default))
    ⟨pics, leadingWith c (startsClean c au) hs, startsClean c au, d.out, d.keep, ⟨l.length, au.cause, decide (eb ≤ d.eu ∨ rb ≤ d.rp), Nat.min d.eu eb, Nat.min d.rp rb⟩⟩

/-- Bytes of the buffer that a new picture takes; none for one that takes no buffer. -/
def freshBytes (c : Ctx) (w : AuWork) : FreshPic → Option Nat
  | .lost => c.shape.map fun p => planesBytes (contBytes p.depth c.out16) (picSizes p)
  | .coded hd bd =>
    if w.leading.contains hd.num || noShape c.format hd bd then none
    else some (planesBytes (contBytes (outDepth hd) c.out16) (outSizes c.format hd))

/-- A new picture joins its context, but for a leading one. -/
def addPic (c : Ctx) (w : AuWork) (au : Config.Au) (p : FreshPic) (buf : Option Nat) : Ctx :=
  let hold (q : Config.Pic) : Ctx := { c with
    store := c.store ++ [⟨q, buf⟩]
    shown := if q.absent then c.shown else c.shown ++ [q]
    shape := if q.planes.isEmpty then c.shape else some q }
  match p with
  | .lost => hold (lostPic c au buf)
  | .coded hd bd =>
    if w.leading.contains hd.num then c else hold (codedPic c w.clean au w.run hd bd buf)

/-- Pictures leave the reordering and join the output queue; those that a FLUSH has taken out before do not leave it
again. -/
def emit (c : Ctx) (nums : List Nat) : Ctx :=
  let l := nums.filter fun n => !c.flushed.contains n && c.store.any fun z => z.pic.num = n
  { c with queue := c.queue ++ l, left := c.left ++ l }

/-- The first cause of damage in an access unit (Table 9.3): the source's, or the first in bitstream order of those that its
pictures meet. -/
def auCause (c : Ctx) (w : AuWork) (bufs : List (Option Nat)) : Nat :=
  if w.run.cause ≠ 0 then w.run.cause
  else
    let l := (w.pics.zip bufs).flatMap fun (p, b) =>
      match p with
      | .lost => []
      | .coded hd bd =>
        if w.leading.contains hd.num then []
        else ownCauses c.format w.clean (!noShape c.format hd bd && b.isNone) hd bd w.run
    ((firstOwn l).map (·.2)).getD 0

/-- A context after an access unit whose pictures have the buffers given. -/
def stepCtx (c : Ctx) (au : Config.Au) (w : AuWork) (bufs : List (Option Nat)) : Ctx :=
  let c' := (w.pics.zip bufs).foldl (fun a (p, b) => addPic a w au p b) c
  emit { c' with history := c'.history ++ [au], leading := w.leading, kept := w.keep } w.out

end Sys2Proof.Machine
end

