-- ==== Sys2Proof/Machine/Entropy.lean ====
section
/-!
DEFINITION. The entropy unit and the reconstruction pipe: stream contexts, access units, picture buffers and picture
records (R302 to R326).
-/

namespace Sys2Proof.Machine

/-! ### Unit invocations (R219) -/

/-- What a unit does with its command: it ends with a ticket status and a damage cause, waits for data or for its turn, or
its sample has left the thread. -/
inductive UnitOut where
  | done (s : State) (status cause : Nat)
  | wait (s : State)
  | gone (s : State)
  deriving DecidableEq, Repr

/-- Keeps the cause of a ticket that completes DAMAGED in the sample's damage record (R299). -/
def keepCause (s : State) (h status cause : Nat) : State :=
  if status = 1 then setSample s h fun y => { y with cause := cause } else s

/-- Issues a unit command: `run` does its work at once, or it stands deferred as `op` until its ticket completes. -/
def unitIssue (s : State) (op : Nat) (x : Orony) (defer : Nat → State → UnitOp × State)
    (run : State → Nat → UnitOut) : State :=
  issueScalar s 5 op x fun s t =>
    let blk := (rs t x.a).toNat
    match blkFault t blk with
    | some e => pfault s x.th e 0
    | none =>
      if 64 ≤ (outstanding t).length then setThread s x.th fun t => { t with state := 6 }
      else match run s blk with
        | .done s st c => takeTicket (keepCause s t.sample st c) x.th x.d st false none fun s _ => s
        | .gone s => s
        | .wait s =>
          let (o, s) := defer blk s
          takeTicket s x.th x.d 0 false (some o) fun s _ => s

/-! ### Contexts -/

def ctxOf (x : Sample) (c : Nat) : Option Ctx := x.ctxs.find? fun y => y.ctx = c

def setCtx (s : State) (h c : Nat) (f : Ctx → Ctx) : State :=
  setSample s h fun x => { x with ctxs := updIf (fun y => y.ctx = c) f x.ctxs }

/-- Contexts that a sample may open: CONTEXTS of its recipe (R306). -/
def contextsOf (s : State) (x : Sample) : Nat := ((recipeOf s x.part x.recipe).map (·.contexts)).getD 0

/-- FUNC of a command block (Table 9.3). -/
def euFunc (l : List Byte) : Nat := b8 l 0

/-- Whether an EU command block keeps Table 9.3 (R310). Bytes 32 to 47 are results of DECODE_AU and FLUSH, and hold what an
earlier use of the block left in them. -/
def euBlockOk (s : State) (t : Thread) (x : Sample) (l : List Byte) : Bool :=
  let recs := b32 l 20 % 64 = 0 && 1 ≤ b8 l 24 && b8 l 24 ≤ 16 && tsIn t (b32 l 20) (32 * b8 l 24) &&
    zeroBytes l 25 32 && zeroBytes l 37 40 && zeroBytes l 48 64
  let isOpen := (ctxOf x (b8 l 2)).isSome
  let fits (h n : Nat) : Bool := holds s x.h h && (bufOf s h).any fun b => n ≤ bufSize b
  b8 l 2 < contextsOf s x && b8 l 3 = 0 &&
  (if euFunc l = 1 then
    let f := b8 l 1
    1 ≤ f && f ≤ 7 && !isOpen &&
    (if b32 l 4 = noHandle then b32 l 8 = 0 else fits (b32 l 4) (b32 l 8)) &&
    bits (b8 l 12) 2 1 ≠ 3 && bits (b8 l 12) 7 5 ≤ 5 && zeroBytes l 14 64
  else if euFunc l = 2 then
    isOpen && b8 l 1 = 0 && bits (b8 l 16) 5 5 = 0 && bits (b8 l 16) 7 7 = 0 && zeroBytes l 18 20 && recs &&
    (if b32 l 4 = noHandle then bits (b8 l 16) 6 6 = 1 && b32 l 8 = 0 else fits (b32 l 4) (b32 l 8))
  else if euFunc l = 3 then isOpen && b8 l 1 = 0 && zeroBytes l 4 20 && recs
  else if euFunc l = 4 then isOpen && b8 l 1 = 0 && zeroBytes l 4 64
  else false)

/-- Options of a context: FORMAT, DROP, NALFMT, OUT16, GRAIN, REDUCE, LAYERS. -/
def ctxOpts (l : List Byte) : List Nat :=
  [b8 l 1, b8 l 12 % 2, bits (b8 l 12) 2 1, bits (b8 l 12) 3 3, bits (b8 l 12) 4 4, bits (b8 l 12) 7 5, b8 l 13]

/-! ### Buffers of a context (R306) -/

/-- Buffers of class k that the stage which opened a context holds, in its own name and for its contexts. -/
def stageHolds (s : State) (x : Sample) (g k : Nat) : Nat :=
  let mine (e : Nat) : Bool := (e < 4096 && e % 16 = g) || x.ctxs.any fun c => e = ctxTag c.ctx && c.stage = g
  let hs := ((x.held.filter fun e => mine e.1).map (·.2)).eraseDups
  ((hs.filterMap (bufOf s)).filter fun b => hClass b.handle = k).foldl (fun a b => a + b.n) 0

/-- POOL[k] of a stage of a sample's recipe. -/
def stagePool (s : State) (x : Sample) (g k : Nat) : Nat :=
  (((recipeOf s x.part x.recipe).bind fun y => y.stages[g]?).map fun st => st.pool.getD k 0).getD 0

/-- An allocation for context c of a sample, from the reservation of stage g, which opened it: none while memory has no room
for a reserved buffer, a missing handle when the reservation cannot supply it. -/
def ctxBuf (s : State) (h g c n : Nat) : Option (State × Option Nat) :=
  match sampleOf s h with
  | none => none
  | some x =>
    let (k, m) := picClass n
    if stagePool s x g k < stageHolds s x g k + m then some (s, none)
    else
      let own : Owner := .stage x.recipe g
      match if 1 < m then allocLarge s x.part own x.die m else alloc s x.part own x.die k with
      | some (s, h) => some (setSample s x.h fun y => { y with held := y.held ++ [(ctxTag c, h)] }, some h)
      | none => none

/-- Releases a context's references to buffers. -/
def ctxDrop (s : State) (h c : Nat) (l : List Nat) : State :=
  l.foldl (fun s b =>
    dropRef (setSample s h fun y => { y with held := eraseHeld y.held (ctxTag c, b) }) b) s

/-- Takes buffers for the pictures that an access unit brings; some take none. -/
def takePics (s : State) (h : Nat) (c : Ctx) (w : AuWork) : List FreshPic → Option (State × List (Option Nat))
  | [] => some (s, [])
  | p :: ps =>
    let one : Option (State × Option Nat) :=
      match freshBytes c w p with
      | none => some (s, none)
      | some n => ctxBuf s h c.stage c.ctx n
    one.bind fun (s, b) => (takePics s h c w ps).map fun (s, l) => (s, b :: l)

/-! ### The output queue (R312) -/

/-- The planes of a context's new pictures reach their buffers. -/
def drawPics (s : State) (c : Ctx) (before : Nat) : State :=
  (c.store.drop before).foldl (fun s z =>
    let cb := contBytes z.pic.depth c.out16
    match z.buf with
    | some b => bufWrite s b 0 (z.pic.planes.flatMap fun q => planeData cb q.w q.h (planePx q))
    | none => s) s

/-- One picture leaves the queue of context c: its record, and a reference that the sample takes to its buffer in the name of
a thread of stage g (R316). -/
def outputPic (s : State) (h g tag c : Nat) : State × List Byte :=
  match (sampleOf s h).bind fun x => ctxOf x c with
  | none => (s, [])
  | some y =>
    match y.queue with
    | [] => (s, [])
    | n :: rest =>
      match y.store.find? fun z => z.pic.num = n with
      | none => (setCtx s h c fun y => { y with queue := rest }, [])
      | some z =>
        let handle := if z.pic.absent then noHandle else z.buf.getD noHandle
        let bytes := picRecBytes z.pic handle (contBytes z.pic.depth y.out16 = 2) y.outCount
        let s := setCtx s h c fun y => { y with queue := rest, outCount := y.outCount + 1 }
        let s := if handle = noHandle then s
          else setBuf s handle fun b => { b with refs := b.refs + 1 }
        (setSample (bump64 s 0x6190 1) h fun x => { x with
          pics := x.pics ++ [⟨g, c, bytes⟩]
          damagedPics := x.damagedPics + (if z.pic.cause ≠ 0 || z.pic.absent then 1 else 0)
          held := if handle = noHandle then x.held else x.held ++ [(tag, handle)] }, bytes)

/-- Drops the pictures that the context keeps no more: those that have left it and are no reference (R316). -/
def dropPics (s : State) (h c : Nat) : State :=
  match (sampleOf s h).bind fun x => ctxOf x c with
  | none => s
  | some y =>
    let stays (z : Held) : Bool := y.kept.contains z.pic.num || y.queue.contains z.pic.num || !y.left.contains z.pic.num
    let s := ctxDrop s h c ((y.store.filter fun z => !stays z).filterMap (·.buf))
    setCtx s h c fun y => { y with store := y.store.filter stays }

/-- Pictures waiting in the output queue of a sample's context. -/
def queued (s : State) (h c : Nat) : Nat := (((sampleOf s h).bind fun x => ctxOf x c).map fun y => y.queue.length).getD 0

/-- Writes up to PR_MAX records and the results of DECODE_AU or FLUSH; DAMAGED when a record written is (R313). -/
def writeRecords (s : State) (t : Thread) (blk : Nat) (l : List Byte) (auCause eu rp : Nat) : State × Nat × Nat :=
  let c := b8 l 2
  let n := Nat.min (b8 l 24) (queued s t.sample c)
  let r := (List.range n).foldl (fun (a : State × List (List Byte)) i =>
    let (s, b) := outputPic a.1 t.sample t.stage (ownTag t) c
    (setThread s t.th fun t => tsWrite t (b32 l 20 + 32 * i) b, a.2 ++ [b])) (s, [])
  let s := dropPics r.1 t.sample c
  let s := setThread s t.th fun t => tsWrite t (blk + 32)
    (toLe 2 n ++ toLe 2 (queued s t.sample c) ++ toLe 1 auCause ++ [0, 0, 0] ++ toLe 4 eu ++ toLe 4 rp)
  match r.2.find? fun b => b8 b 21 % 2 = 1 with
  | some b => (s, 1, b8 b 22)
  | none => (s, 0, 0)

/-! ### The functions -/

/-- The remainder of a record under the CRC of RFC 9043: generator 0x04C11DB7, most significant bit first, from 0. -/
def ffv1Crc (l : List Byte) : BitVec 32 :=
  l.foldl (fun (a : BitVec 32) b =>
    (List.range 8).foldl (fun (a : BitVec 32) _ =>
      if a.getLsbD 31 then (a <<< 1) ^^^ 0x04C11DB7 else a <<< 1) (a ^^^ BitVec.ofNat 32 (b.toNat * 2 ^ 24))) 0

/-- Whether a configuration record opens an FFV1 context: its CRC leaves no remainder, and its fields are valid (R311). -/
def ffv1Ok (l : List Byte) : Bool := 4 < l.length && ffv1Crc l = 0 && Config.ffv1Fields l

/-- Opens a context with the options and configuration given, for stage g (R306, R311). -/
def openWith (s : State) (h g ctx : Nat) (opts : List Nat) (cfg : Option (List Byte)) (st cause : Nat) : UnitOut :=
  if opts.getD 0 0 = 7 ∧ !(cfg.any ffv1Ok) then .done s 6 0
  else
    match ctxBuf s h g ctx (classSize 3) with
    | none => .wait (poolWait s)
    | some (s, none) => .done s 6 0
    | some (s, some b) =>
      .done (setSample s h fun y => { y with ctxs := y.ctxs ++ [newCtx ctx g opts (cfg.getD []) b] }) st cause

/-- CTX_OPEN (R311): FFV1 needs a valid configuration record. Its state buffer is of class 3 (R306). -/
def ctxOpen (s : State) (t : Thread) (x : Sample) (l : List Byte) : UnitOut :=
  let h := b32 l 4
  let (s, bad) := if h = noHandle then (s, false) else readLines s h 0 (b32 l 8)
  let (st, cause) := if h = noHandle then (0, 0) else bufOutcome s h
  let cfg := if h = noHandle then none else some (bufRead s h 0 (b32 l 8))
  if bad then .gone (sampleUe s x.h)
  else if st ≠ 0 ∧ (st, cause) ≠ (1, 1) then .done (noteFail s x.h h) st cause
  else openWith s x.h t.stage (b8 l 2) (ctxOpts l) cfg st cause

/-- The planes that an access unit of a copy coded with BYPASS decodes to, in a context that has met just the access units
before it, from an IDR access unit on (R354). -/
def exactPlanes (s : State) (p : Nat) (c : Ctx) (au : Config.Au) : Option (List Config.Plane) :=
  let got := c.history.map (·.bytes) ++ [au.bytes]
  s.copies.findSome? fun k =>
    if k.part ≠ p || c.format ≠ 2 then none
    else (List.range k.exact_.length).findSome? fun i =>
      let run := (k.exact_.drop i).take got.length
      if (run.head?.any fun y => y.2.1) && run.map (fun y => some y.1) = got then run.getLast?.map fun y => y.2.2 else none

/-- New pictures of a context, held to those planes where they are sound and have their form. -/
def asExact (l : Option (List Config.Plane)) (before : Nat) (c : Ctx) : Ctx :=
  match l with
  | none => c
  | some l =>
    let form (q : List Config.Plane) : List (Nat × Nat) := q.map fun y => (y.w, y.h)
    { c with store := c.store.zipIdx.map fun (z, i) =>
        if before ≤ i && z.pic.cause = 0 && z.pic.depth = 10 && form z.pic.planes = form l then
          { z with pic := { z.pic with planes := l } } else z }

/-- Whether a new picture of a context cannot be written now (R14, R64). -/
def drawHeld (s : State) (d : Nat) (c : Ctx) (before : Nat) : Bool :=
  (c.store.drop before).any fun z => z.buf.any fun b => !bufOpen s d b 0 (((bufOf s b).map bufSize).getD 0)

/-- An access unit reaches its context: its pictures take their buffers and are decoded, settled and put in order. An error
gives the state that waits: while memory has no room for a reserved buffer, or a port takes no writes; else the state, what the decoding came to, and its first cause; the tile of the
thread counts it (R312, R319 to R326, Table 18.10). -/
def runAu (s : State) (th : ThreadRef) (h : Nat) (c : Ctx) (au : Config.Au) : Except State (State × AuWork × Nat) :=
  let w := auWork c au
  match takePics s h c w w.pics with
  | none => .error (poolWait s)
  | some (t, bufs) =>
    let known := (sampleOf s h).bind fun x => exactPlanes s x.part c au
    let c' := asExact known c.store.length (stepCtx c au w bufs)
    if drawHeld t (thDie th) c' c.store.length then .error s else
    let s := setCtx t h c.ctx fun _ => c'
    let s := bump64 (drawPics s c' c.store.length) 0x6188 1
    .ok (tileEvent (tileEvent (tileEvent s th 0x020 w.run.eu) th 0x028 w.run.rp) th 0x050 1, w, auCause c w bufs)

/-- The source cause of an access unit whose data did not arrive: the record's own, or, where the status of its fetch has no
code of Table 8.8, one that no rule names (R313, log entry 62). -/
def lostCause (st cs : Nat) : Nat := if cs ≠ 0 then cs else 1 + (Config.contentWord 8 [st]).toNat % 8

/-- DECODE_AU (R312, R313, R319 to R326). Its ticket carries the outcome of its data (R275), is DAMAGED when the data is
marked (R299) or a picture record written is, and OK otherwise. -/
def decodeAu (s : State) (t : Thread) (x : Sample) (c : Ctx) (blk : Nat) (l : List Byte) : UnitOut :=
  let h := b32 l 4
  let n := b32 l 8
  let (s, bad) := if h = noHandle then (s, false) else readLines s h 0 n
  let (st, cs) := if h = noHandle then (0, 0) else bufOutcome s h
  let marked := st = 1 && cs = 1
  let ended := st ≠ 0 && !marked
  let cause := if marked then 1 else if ended then lostCause st cs else if bits (b8 l 16) 6 6 = 1 then b8 l 17 else 0
  let data := if h = noHandle || ended then none else some (bufRead s h 0 n)
  if bad then .gone (sampleUe s x.h)
  else match runAu s t.th x.h c ⟨BitVec.ofNat 32 (b32 l 12), b8 l 16 % 32, cause, data⟩ with
    | .error s => .wait s
    | .ok (s, w, first) =>
      let (s, dmg, dc) := writeRecords s t blk l first w.run.eu w.run.rp
      if ended then .done (noteFail s x.h h) st cs else if marked then .done s 1 1 else .done s dmg dc

/-- The end-of-stream output process: every picture that has not left the reordering leaves it, once (R312). -/
def flushOut (s : State) (h : Nat) (c : Ctx) : State :=
  let nums := Config.flush c.opts c.config c.history
  setCtx s h c.ctx fun c => { emit c nums with flushed := c.flushed ++ nums }

/-- FLUSH (R312). -/
def flushCtx (s : State) (t : Thread) (x : Sample) (c : Ctx) (blk : Nat) (l : List Byte) : UnitOut :=
  let (s, dmg, dc) := writeRecords (flushOut s x.h c) t blk l 0 0 0
  .done s dmg dc

/-- CTX_CLOSE (R312). -/
def closeCtx (s : State) (x : Sample) (c : Ctx) : State :=
  let s := ctxDrop s x.h c.ctx (c.store.filterMap (·.buf) ++ [c.stateBuf])
  setSample s x.h fun y => { y with ctxs := y.ctxs.filter fun z => z.ctx ≠ c.ctx }

/-- Whether a thread has an EU command outstanding that was issued before number n and satisfies p. -/
def euOf (t : Thread) (n : Nat) (p : List Byte → Bool) : Bool :=
  t.tickets.any fun k =>
    match k.deferred with
    | some (.eu blk m) => m < n && p (tsRead t blk 64)
    | _ => false

/-- An EU command issued before number n that is still outstanding on the tile of thread th, which serves one at a time, or
for context c of sample h, that of a thread set aside among them (R308, R335). -/
def euBefore (s : State) (th : ThreadRef) (h c n : Nat) : Bool :=
  (s.threads.any fun t => (thTile t.th).isSome &&
    euOf t n fun l => thTile t.th = thTile th || (t.sample = h && b8 l 2 = c)) ||
  (sampleOf s h).any fun x => x.moved.any fun t => euOf t n fun l => b8 l 2 = c

/-- Whether the entropy unit of a thread's tile serves or waits to serve a command of a program (R335). -/
def euBusy (s : State) (th : ThreadRef) : Bool :=
  s.threads.any fun t => thTile t.th = thTile th && euOf t s.nextId fun _ => true

/-- Whether the data of an EU command can be read. -/
def euReady (s : State) (th : ThreadRef) (l : List Byte) : Bool :=
  (euFunc l ≠ 1 && euFunc l ≠ 2) || b32 l 4 = noHandle || bufReady s (thDie th) (b32 l 4) 0 (b32 l 8)

/-- Runs an EU command whose issue number is n. -/
def euRun (s : State) (th : ThreadRef) (blk n : Nat) : UnitOut :=
  match threadOf s th with
  | none => .gone s
  | some t =>
    match sampleOf s t.sample with
    | none => .gone s
    | some x =>
      let l := tsRead t blk 64
      if euBefore s th x.h (b8 l 2) n then .wait s
      else if !euBlockOk s t x l then .done s 5 0
      else if !euReady s th l then .wait s
      else if euFunc l = 1 then ctxOpen s t x l
      else match ctxOf x (b8 l 2) with
        | none => .done s 5 0
        | some c =>
          if euFunc l = 2 then decodeAu s t x c blk l
          else if euFunc l = 3 then flushCtx s t x c blk l
          else .done (closeCtx s x c) 0 0

/-- Issues an EU command, which stands outstanding until its TICKET_COMPLETE: contexts change only then (R307, R309). A block
that names another function of Table 9.3 is another command; one that names none completes RANGE (R310). -/
def euIssue (s : State) (func : Nat) (x : Orony) : State :=
  match threadOf s x.th with
  | none => s
  | some t =>
    let f := euFunc (tsRead t (rs t x.a).toNat 64)
    if f ≠ func ∧ 1 ≤ f ∧ f ≤ 4 then s
    else unitIssue s 0x00 x (fun blk s => (.eu blk s.nextId, { s with nextId := s.nextId + 1 })) fun s _ => .wait s

/-- CTX_OPEN. -/
def execCtxOpen (x : Orony) (s : State) : Out := .next (euIssue s 1 x)
/-- DECODE_AU. -/
def execDecodeAu (x : Orony) (s : State) : Out := .next (euIssue s 2 x)
/-- FLUSH. -/
def execFlush (x : Orony) (s : State) : Out := .next (euIssue s 3 x)
/-- CTX_CLOSE. -/
def execCtxClose (x : Orony) (s : State) : Out := .next (euIssue s 4 x)

/-- RP (R302): the spec gives no command block of the pipe to programs, so every block completes RANGE (log entry 21). -/
def execRp (x : Orony) (s : State) : Out :=
  .next (unitIssue s 0x01 x (fun blk s => (.iu blk 0, s)) fun s _ => .done s 5 0)

end Sys2Proof.Machine
end

