-- ==== Sys2Proof/Machine/Image.lean ====
section
/-!
DEFINITION. The image unit: RESAMPLE, WARP, COLOUR, BLUR and BLEND (R363 to R377).
-/

namespace Sys2Proof.Machine

/-! ### Pictures in buffers (R315, Table 9.4) -/

/-- A picture record as the IU reads it, with the buffer it names. -/
structure PicIn where
  rec_ : List Byte
  buf : Nat
  deriving DecidableEq, Repr

def PicIn.width (p : PicIn) : Nat := b16 p.rec_ 4
def PicIn.height (p : PicIn) : Nat := b16 p.rec_ 6
def PicIn.cropL (p : PicIn) : Nat := b16 p.rec_ 8
def PicIn.cropT (p : PicIn) : Nat := b16 p.rec_ 10
def PicIn.outW (p : PicIn) : Nat := b16 p.rec_ 12
def PicIn.outH (p : PicIn) : Nat := b16 p.rec_ 14
def PicIn.rgb (p : PicIn) : Bool := 128 ≤ b8 p.rec_ 20
def PicIn.chroma (p : PicIn) : Nat := bits (b8 p.rec_ 20) 6 5
def PicIn.depth (p : PicIn) : Nat := b8 p.rec_ 20 % 32
def PicIn.cont (p : PicIn) : Nat := if bits (b8 p.rec_ 21) 6 6 = 1 then 2 else 1
def PicIn.alpha (p : PicIn) : Bool := bits (b8 p.rec_ 21) 5 5 = 1
def PicIn.absent (p : PicIn) : Bool := bits (b8 p.rec_ 21) 1 1 = 1
def PicIn.damaged (p : PicIn) : Bool := b8 p.rec_ 21 % 2 = 1
def PicIn.count (p : PicIn) : Nat := b8 p.rec_ 23

/-- Subsampling of plane k across and down: chroma planes by CHROMA, and by SUBS for formats with free sampling factors,
whose CHROMA is 0 (log entry 22). -/
def subsOf (chroma subs planes : Nat) (rgb alpha : Bool) (k : Nat) : Nat × Nat :=
  let colour := planes - (if alpha then 1 else 0)
  if rgb || k = 0 || colour ≤ k || colour < 3 then (1, 1)
  else if chroma = 1 then (2, 2) else if chroma = 2 then (2, 1) else if chroma = 3 then (1, 1)
  else (2 ^ bits subs 1 0, 2 ^ bits subs 3 2)

def PicIn.sub (p : PicIn) (k : Nat) : Nat × Nat := subsOf p.chroma (b8 p.rec_ 28) p.count p.rgb p.alpha k

/-- Coded sizes of the planes. -/
def PicIn.sizes (p : PicIn) : List (Nat × Nat) :=
  (List.range p.count).map fun k => (ceilDiv p.width (p.sub k).1, ceilDiv p.height (p.sub k).2)

/-- What a plane holds. -/
inductive PlaneKind where
  | main
  | chroma
  | alpha
  deriving DecidableEq, Repr

def kindOfPlane (planes : Nat) (rgb alpha : Bool) (k : Nat) : PlaneKind :=
  if alpha && k + 1 = planes then .alpha else if rgb || k = 0 then .main else .chroma

def PicIn.kind (p : PicIn) (k : Nat) : PlaneKind := kindOfPlane p.count p.rgb p.alpha k

/-- A plane's output window: its width, height and samples. -/
abbrev Win := Nat × Nat × (Nat → Nat → Nat)

def Win.w (v : Win) : Nat := v.1
def Win.h (v : Win) : Nat := v.2.1
def Win.px (v : Win) (x y : Nat) : Nat := v.2.2 x y

/-- Sample (x, y) of plane k of a picture in a buffer. -/
def samplePx (s : State) (p : PicIn) (k x y : Nat) : Nat :=
  let o := (planeOffs p.cont 0 p.sizes).getD k 0 + y * pitchOf (p.sizes.getD k (0, 0)).1 p.cont + x * p.cont
  leNat (bufRead s p.buf o p.cont)

/-- The output window of plane k (Table 11.1). -/
def winOf (s : State) (p : PicIn) (k : Nat) : Win :=
  let (sx, sy) := p.sub k
  ⟨ceilDiv p.outW sx, ceilDiv p.outH sy, fun x y => samplePx s p k (p.cropL / sx + x) (p.cropT / sy + y)⟩

/-- The integer sample at (i, j), outside the window by EDGE (R371). -/
def Win.at (v : Win) (edge : Option Nat) (i j : Int) : Nat :=
  if 0 ≤ i ∧ i < Win.w v ∧ 0 ≤ j ∧ j < Win.h v then Win.px v i.toNat j.toNat
  else match edge with
    | some c => c
    | none => Win.px v (clampI 0 (Win.w v - 1 : Int) i).toNat (clampI 0 (Win.h v - 1 : Int) j).toNat

/-- The constant of EDGE 1 on a plane (R371). -/
def edgeConst (k : PlaneKind) (depth v : Nat) : Nat :=
  match k with
  | .main => v
  | .chroma => 2 ^ (depth - 1)
  | .alpha => 0

/-! ### FP32 constants -/

/-- p / q rounded to FP32. -/
def f32q (p q : Nat) : Word := BitVec.ofNat 32 (packQ fp32 false p q)
def f32n (n : Int) : Word := f32ofInt n
def f32abs (x : Word) : Word := x &&& 0x7FFFFFFF
/-- The nearest integer; a value with none becomes 0. -/
def f32rne (x : Word) : Int := ((ofFp32 x).toIntRne).getD 0
/-- The least integer not below a value. -/
def f32ceil (x : Word) : Int := -(ofFp32 (f32neg x)).floor
def f32le2 (x y : Word) : Bool := f32lt x y || ofFp32 x = ofFp32 y

/-! ### Kernels (R369, R370, Table 11.3) -/

/-- The kernel of a filter other than area at t (log entry 23 for the order of operations). -/
def kernel (filter : Nat) (t : Word) : Word :=
  let a := f32abs t
  if filter = 1 then if f32lt a (f32n 1) then f32sub (f32n 1) a else 0
  else if filter = 2 then
    let a2 := f32mul a a
    let a3 := f32mul a2 a
    if f32le2 a (f32n 1) then f32add (f32sub (f32mul (f32q 3 2) a3) (f32mul (f32q 5 2) a2)) (f32n 1)
    else if f32lt a (f32n 2) then
      f32add (f32sub (f32add (f32mul (f32neg (f32q 1 2)) a3) (f32mul (f32q 5 2) a2)) (f32mul (f32n 4) a)) (f32n 2)
    else 0
  else
    if ofFp32 a = ofFp32 0 then f32n 1
    else if f32lt a (f32n 3) then
      let pi : Word := 0x40490FDB
      f32div (f32mul (sinpi t) (sinpi (f32div t (f32n 3))))
        (f32div (f32mul (f32mul pi pi) (f32mul t t)) (f32n 3))
    else 0

def kernelLimit (filter : Nat) : Nat := if filter ≤ 1 then 16 else if filter = 2 then 8 else 5

/-- Taps on each side at a scale (Table 11.3). -/
def kernelReach (filter : Nat) (seff : Word) : Nat :=
  (if filter = 0 then f32ceil (f32div (f32add seff (f32n 1)) (f32n 2))
   else f32ceil (f32mul (f32n filter) seff)).toNat

/-- Overlap of [j - 0.5, j + 0.5) with the area of width seff about n + p/64 (R369). -/
def areaWeight (seff : Word) (n j : Int) (p : Nat) : Word :=
  let half := f32div seff (f32n 2)
  let c := f32add (f32n n) (f32q p 64)
  let lo := f32max (f32sub (f32n j) (f32q 1 2)) (f32sub c half)
  let hi := f32min (f32add (f32n j) (f32q 1 2)) (f32add c half)
  if f32lt lo hi then f32sub hi lo else 0

/-- Raw weights of taps n - R + 1 to n + R. -/
def rawWeights (filter : Nat) (seff : Word) (n : Int) (p : Nat) : List Word :=
  let r := kernelReach filter seff
  (List.range (2 * r)).map fun (i : Nat) =>
    let j : Int := n - r + 1 + i
    if filter = 0 then areaWeight seff n j p
    else kernel filter (f32div (f32n ((j - n) * 64 - p)) (f32mul (f32n 64) seff))

/-- Index of the largest weight, the lowest on ties. -/
def maxIdx (l : List Word) : Nat :=
  ((l.zipIdx).foldl (fun (a : Word × Nat) e => if f32lt a.1 e.1 then e else a) (l.headD 0, 0)).2

/-- Weights quantised to Q14 (R370). -/
def quantise (l : List Word) : List Int :=
  let sw := l.foldl f32add (f32neg 0)
  let c := l.map fun w => f32rne (f32mul (f32div w sw) (f32n 16384))
  c.modify (maxIdx l) fun x => x + 16384 - c.foldl (· + ·) 0

/-- The scale of one dimension (R369). -/
def scaleOf (filter c16 o : Nat) : Word :=
  f32min (f32max (f32n 1) (f32div (f32n c16) (f32n (o * 65536 : Nat)))) (f32n (kernelLimit filter))

/-- Position of output index x in units of 2^-16 sample (R368). -/
def resamplePos (c16 : Int) (w16 o x : Nat) : Int := c16 + ((2 * x + 1) * w16 / (2 * o) : Nat) - 32768

/-! ### Separable filtering (R371) -/

/-- The horizontal pass: sum of weights by samples, 4 fractional bits kept. -/
def horiz (c : List Int) (src : Nat → Nat) : Int :=
  clampI (-(2 ^ 21)) (2 ^ 21 - 1)
    ((((c.zipIdx).map fun (w, i) => w * (src i : Int)).foldl (· + ·) 0 + 512) / 1024)

/-- The vertical pass with its change of depth. -/
def vert (c : List Int) (h : Nat → Int) (di do_ : Nat) : Nat :=
  let sh := 18 + di - do_
  (clampI 0 (2 ^ do_ - 1) ((((c.zipIdx).map fun (w, i) => w * h i).foldl (· + ·) 0 + 2 ^ (sh - 1)) / 2 ^ sh)).toNat

/-- One output sample: taps from (nx, ny) minus their reaches plus 1. -/
def filterPx (v : Win) (edge : Option Nat) (cx cy : List Int) (x0 y0 : Int) (di do_ : Nat) : Nat :=
  vert cy (fun k => horiz cx fun i => Win.at v edge (x0 + i) (y0 + k)) di do_

/-- A value that keeps its place and changes depth (R371). -/
def redepth (v di do_ : Nat) : Nat := vert [16384] (fun _ => horiz [16384] fun _ => v) di do_

/-! ### The command block (Table 11.1) -/

structure IuBlk where
  func : Nat
  filter : Nat
  flipH : Bool
  flipV : Bool
  edge : Bool
  odepth : Nat
  o16 : Bool
  src : Nat
  dst : Nat
  srec : Nat
  drec : Nat
  cx : Int
  cy : Int
  cw : Nat
  ch : Nat
  ow : Nat
  oh : Nat
  aux : Nat
  edgeVal : Nat
  deriving DecidableEq, Repr

def signed16 (x : Nat) : Int := if x < 32768 then x else (x : Int) - 65536

def parseIu (l : List Byte) : IuBlk :=
  { func := b8 l 0, filter := b8 l 1 % 4, flipH := bits (b8 l 1) 2 2 = 1, flipV := bits (b8 l 1) 3 3 = 1,
    edge := bits (b8 l 1) 4 4 = 1, odepth := b8 l 2 % 32, o16 := bits (b8 l 2) 5 5 = 1, src := b32 l 4, dst := b32 l 8,
    srec := b32 l 12, drec := b32 l 16, cx := signed16 (b16 l 20), cy := signed16 (b16 l 22), cw := b16 l 24,
    ch := b16 l 26, ow := b16 l 28, oh := b16 l 30, aux := b32 l 32, edgeVal := b16 l 36 }

def dimOk (n : Nat) : Bool := 1 ≤ n && n ≤ 16384

/-- Whether the block keeps Table 11.1: the fields of its function in range, the others 0. -/
def iuFields (l : List Byte) : Bool :=
  let b := parseIu l
  bits (b8 l 1) 7 5 = 0 && !odepthBad (b8 l 2) && b8 l 3 = 0 && zeroBytes l 38 64 && b.srec % 32 = 0 && b.drec % 32 = 0 &&
  (if b.func = 1 then dimOk b.cw && dimOk b.ch && dimOk b.ow && dimOk b.oh && b.aux = 0
   else zeroBytes l 20 28 && b.aux % 64 = 0 &&
    (if b.func = 2 then (b.filter = 1 || b.filter = 2) && dimOk b.ow && dimOk b.oh
     else if b.func = 4 then b8 l 1 / 16 * 16 = b8 l 1 && zeroBytes l 28 32
     else (b.func = 3 || b.func = 5) && b8 l 1 = 0 && zeroBytes l 28 32 && zeroBytes l 36 38))

/-- Bytes of a function's auxiliary block (Table 11.4). -/
def auxLen (func : Nat) : Nat := if func = 1 then 0 else if func = 3 then 128 else if func = 2 then 24 else 64

/-- Whether a source can be read as a picture: held, present, and as large as its record says. -/
def picOk (s : State) (h : Nat) (p : PicIn) : Bool :=
  holds s h p.buf && !p.absent && 1 ≤ p.depth && p.depth ≤ 16 && 1 ≤ p.count && p.count ≤ 5 &&
  p.cropL + p.outW ≤ p.width && p.cropT + p.outH ≤ p.height &&
  (bufOf s p.buf).any fun b => planesBytes p.cont p.sizes ≤ bufSize b

/-- The output picture's shape: size, plane count, RGB, CHROMA. -/
structure OutShape where
  w : Nat
  h : Nat
  count : Nat
  rgb : Bool
  chroma : Nat
  depth : Nat
  o16 : Bool
  deriving DecidableEq, Repr

def outShape (b : IuBlk) (p : PicIn) (aux : List Byte) : OutShape :=
  let d := if b.odepth = 0 then p.depth else b.odepth
  let own := b.func ≠ 3 || bits (b8 aux 1) 6 6 = 1
  { w := if b.func ≤ 2 then b.ow else p.outW, h := if b.func ≤ 2 then b.oh else p.outH,
    count := if own then p.count else 3 + (if p.alpha then 1 else 0),
    rgb := if own then p.rgb else bits (b8 aux 0) 6 6 = 1, chroma := if own then p.chroma else 3, depth := d,
    o16 := b.o16 || d ≠ 8 }

/-- The output picture's record (R364). -/
def outRecord (o : OutShape) (copy : PicIn) (dst : Nat) : List Byte :=
  let r := copy.rec_
  toLe 4 dst ++ toLe 2 o.w ++ toLe 2 o.h ++ toLe 4 0 ++ toLe 2 o.w ++ toLe 2 o.h ++ sliceB r 16 4 ++
  toLe 1 ((if o.rgb then 128 else 0) + o.chroma * 32 + o.depth % 32) ++
  toLe 1 ((if o.o16 then 64 else 0) + b8 r 21 % 64) ++ sliceB r 22 1 ++ toLe 1 o.count ++ sliceB r 24 5 ++ [0, 0, 0]

/-- Subsampling of plane k of the output. -/
def OutShape.sub (o : OutShape) (p : PicIn) (k : Nat) : Nat × Nat := subsOf o.chroma (b8 p.rec_ 28) o.count o.rgb p.alpha k

def OutShape.sizes (o : OutShape) (p : PicIn) : List (Nat × Nat) :=
  (List.range o.count).map fun k => (ceilDiv o.w (o.sub p k).1, ceilDiv o.h (o.sub p k).2)

/-! ### The functions -/

/-- RESAMPLE (R368 to R372): sample (x, y) of plane k. -/
def resamplePx (s : State) (b : IuBlk) (p : PicIn) (do_ k : Nat) : Nat → Nat → Nat :=
  let (sx, sy) := p.sub k
  let v := winOf s p k
  let edge := if b.edge then some (edgeConst (p.kind k) p.depth b.edgeVal) else none
  let cx16 := b.cx * 65536 / (sx : Int)
  let cy16 := b.cy * 65536 / (sy : Int)
  let cw16 := b.cw * 65536 / sx
  let ch16 := b.ch * 65536 / sy
  let ow := ceilDiv b.ow sx
  let oh := ceilDiv b.oh sy
  let ex := scaleOf b.filter cw16 ow
  let ey := scaleOf b.filter ch16 oh
  fun x y =>
    let x := if b.flipH then ow - 1 - x else x
    let y := if b.flipV then oh - 1 - y else y
    let px := resamplePos cx16 cw16 ow x
    let py := resamplePos cy16 ch16 oh y
    let nx := px / 65536
    let ny := py / 65536
    let wx := quantise (rawWeights b.filter ex nx (px % 65536 / 1024).toNat)
    let wy := quantise (rawWeights b.filter ey ny (py % 65536 / 1024).toNat)
    filterPx v edge wx wy (nx - kernelReach b.filter ex + 1) (ny - kernelReach b.filter ey + 1) p.depth do_

/-- Whether a coordinate lies beyond 2^14 either way (R373). -/
def beyond (v : Word) : Bool := f32lt (f32n 16384) (f32abs v)

/-- A coordinate of WARP in units of 2^-16 sample; beyond 2^14 it lies outside every window (R373). -/
def warpPos (v : Word) : Int :=
  if beyond v then if (ofFp32 v).lt (ofFp32 0) then -(20000 * 65536) else 20000 * 65536
  else f32rne (f32mul (f32sub v (f32q 1 2)) (f32n 65536))

/-- A word for a sample whose value is not a number, of the command's fields, its auxiliary block and the sample's place, and
not of handles or offsets (R257, log entry 4). -/
def iuFree (l aux : List Byte) (at_ : List Nat) : Word :=
  Config.contentWord 4 ((sliceB l 0 4 ++ sliceB l 20 44 ++ aux).map (·.toNat) ++ at_)

/-- WARP (R373): sample (x, y) of plane k; `free` stands for a sample whose source point is not a number. -/
def warpPx (s : State) (b : IuBlk) (p : PicIn) (aux : List Byte) (free : List Nat → Word) (do_ k : Nat) :
    Nat → Nat → Nat :=
  let (sx, sy) := p.sub k
  let v := winOf s p k
  let edge := if b.edge then some (edgeConst (p.kind k) p.depth b.edgeVal) else none
  let m (i : Nat) : Word := f32At aux (4 * i)
  let cx := f32div (m 2) (f32n sx)
  let cy := f32div (m 5) (f32n sy)
  let ow := ceilDiv b.ow sx
  let oh := ceilDiv b.oh sy
  fun x y =>
    let x := if b.flipH then ow - 1 - x else x
    let y := if b.flipV then oh - 1 - y else y
    let xh := f32add (f32n x) (f32q 1 2)
    let yh := f32add (f32n y) (f32q 1 2)
    let vx := f32add (f32fma (m 1) yh (f32mul (m 0) xh)) cx
    let vy := f32add (f32fma (m 4) yh (f32mul (m 3) xh)) cy
    if ofFp32 vx = .nan ∨ ofFp32 vy = .nan then (free [k, x, y, vx.toNat, vy.toNat]).toNat % 2 ^ do_
    else if (beyond vx || beyond vy) && b.edge then redepth (edgeConst (p.kind k) p.depth b.edgeVal) p.depth do_
    else
      let px := warpPos vx
      let py := warpPos vy
      let one := f32n 1
      let wx := quantise (rawWeights b.filter one (px / 65536) (px % 65536 / 1024).toNat)
      let wy := quantise (rawWeights b.filter one (py / 65536) (py % 65536 / 1024).toNat)
      let r := kernelReach b.filter one
      filterPx v edge wx wy (px / 65536 - r + 1) (py / 65536 - r + 1) p.depth do_

/-- The blur weights of one dimension (R376). -/
def blurWeights (sigma : Word) : List Int :=
  let r := Nat.min 16 (f32ceil (f32mul (f32n 3) sigma)).toNat
  quantise ((List.range (2 * r + 1)).map fun (i : Nat) =>
    let k : Int := (i : Int) - r
    exp32 (f32neg (f32div (f32n (k * k)) (f32mul (f32n 2) (f32mul sigma sigma)))))

/-- BLUR (R376). -/
def blurPx (s : State) (b : IuBlk) (p : PicIn) (aux : List Byte) (do_ k : Nat) : Nat → Nat → Nat :=
  let (sx, sy) := p.sub k
  let v := winOf s p k
  let edge := if b.edge then some (edgeConst (p.kind k) p.depth b.edgeVal) else none
  let wx := blurWeights (f32div (f32At aux 0) (f32n sx))
  let wy := blurWeights (f32div (f32At aux 4) (f32n sy))
  fun x y => filterPx v edge wx wy ((x : Int) - (wx.length / 2 : Nat)) ((y : Int) - (wy.length / 2 : Nat)) p.depth do_

/-- BLEND (R377). -/
def blendPx (s : State) (p q : PicIn) (weight do_ k : Nat) : Nat → Nat → Nat :=
  let v := winOf s p k
  let u := winOf s q k
  fun x y => redepth ((Win.px v x y * (256 - weight) + Win.px u x y * weight + 128) / 256) p.depth do_

/-! ### COLOUR (R374, R375) -/

/-- Three FP32 values. -/
structure V3 where
  a : Word
  b : Word
  c : Word
  deriving DecidableEq, Repr

def V3.get (v : V3) (i : Nat) : Word := if i = 0 then v.a else if i = 1 then v.b else v.c

/-- Kr, Kg, Kb of a standard. -/
def kOf (std : Nat) : V3 :=
  let kr := if std = 0 then f32q 299 1000 else if std = 1 then f32q 2126 10000 else f32q 2627 10000
  let kb := if std = 0 then f32q 114 1000 else if std = 1 then f32q 722 10000 else f32q 593 10000
  ⟨kr, f32sub (f32sub (f32n 1) kr) kb, kb⟩

/-- (2 (1 - Kr), 2 (1 - Kb)). -/
def kTwo (std : Nat) : Word × Word :=
  (f32mul (f32n 2) (f32sub (f32n 1) (kOf std).a), f32mul (f32n 2) (f32sub (f32n 1) (kOf std).c))

/-- (Y, Cb, Cr) to (R, G, B), step 3 of Table 11.5. -/
def toRgb (std : Nat) (v : V3) : V3 :=
  let k := kOf std
  let r := f32add v.a (f32mul (kTwo std).1 v.c)
  let b := f32add v.a (f32mul (kTwo std).2 v.b)
  ⟨r, f32div (f32sub (f32sub v.a (f32mul k.a r)) (f32mul k.c b)) k.b, b⟩

/-- (R, G, B) to (Y, Cb, Cr), step 6. -/
def toYcc (std : Nat) (v : V3) : V3 :=
  let k := kOf std
  let y := f32add (f32add (f32mul k.a v.a) (f32mul k.b v.b)) (f32mul k.c v.c)
  ⟨y, f32div (f32sub v.c y) (kTwo std).2, f32div (f32sub v.a y) (kTwo std).1⟩

/-- A 3 by 3 matrix by rows. -/
abbrev M3 := List V3

def M3.at (m : M3) (i j : Nat) : Word := (m.getD i ⟨0, 0, 0⟩).get j

/-- An element of a product: ((a0 b0 + a1 b1) + a2 b2) (R375). -/
def dot3 (a b : Nat → Word) : Word := f32add (f32add (f32mul (a 0) (b 0)) (f32mul (a 1) (b 1))) (f32mul (a 2) (b 2))

def M3.mul (m n : M3) : M3 :=
  let e (i j : Nat) : Word := dot3 (M3.at m i) fun k => M3.at n k j
  (List.range 3).map fun i => ⟨e i 0, e i 1, e i 2⟩

/-- A matrix applied to offsets. -/
def M3.app (m : M3) (o : V3) : V3 := ⟨dot3 (M3.at m 0) o.get, dot3 (M3.at m 1) o.get, dot3 (M3.at m 2) o.get⟩

/-- A component: fma(m2, B, fma(m1, G, m0 R)) + o (R375). -/
def component (m : M3) (o v : V3) (i : Nat) : Word :=
  f32add (f32fma (M3.at m i 2) v.c (f32fma (M3.at m i 1) v.b (f32mul (M3.at m i 0) v.a))) (o.get i)

def affine (m : M3) (o v : V3) : V3 := ⟨component m o v 0, component m o v 1, component m o v 2⟩

/-- The matrices of a standard from and to (R, G, B). -/
def stdMats (std : Nat) : M3 × M3 :=
  let k := kOf std
  let two := kTwo std
  let half := f32q 1 2
  let z : Word := 0
  ([⟨k.a, k.b, k.c⟩, ⟨f32div (f32neg k.a) two.2, f32div (f32neg k.b) two.2, half⟩,
    ⟨half, f32div (f32neg k.b) two.1, f32div (f32neg k.c) two.1⟩],
   [⟨f32n 1, z, two.1⟩, ⟨f32n 1, f32neg (f32div (f32mul k.c two.2) k.b), f32neg (f32div (f32mul k.a two.1) k.b)⟩,
    ⟨f32n 1, two.2, z⟩])

/-- Jitter factors b, c, s, h. -/
structure Jit where
  b : Word
  c : Word
  s : Word
  h : Word
  deriving DecidableEq, Repr

def jitOf (aux : List Byte) : Jit := ⟨f32At aux 52, f32At aux 56, f32At aux 60, f32At aux 64⟩

def Jit.neutral (j : Jit) : Bool := j.b = f32n 1 && j.c = f32n 1 && j.s = f32n 1 && ofFp32 j.h = ofFp32 0

/-- Offset of the contrast step: 0.5 (1 - c). -/
def Jit.off (j : Jit) : Word := f32mul (f32q 1 2) (f32sub (f32n 1) j.c)

/-- The jitter matrix H (S (C Bm)) and its offsets (R375); H is formed as the return of the rotated conversion (log entry
23). -/
def jitMatrix (std : Nat) (j : Jit) : M3 × V3 :=
  let diag (x : Word) : M3 := [⟨x, 0, 0⟩, ⟨0, x, 0⟩, ⟨0, 0, x⟩]
  let k := kOf std
  let si := f32sub (f32n 1) j.s
  let u : V3 := ⟨f32mul si k.a, f32mul si k.b, f32mul si k.c⟩
  let sm : M3 := [⟨f32add j.s u.a, u.b, u.c⟩, ⟨u.a, f32add j.s u.b, u.c⟩, ⟨u.a, u.b, f32add j.s u.c⟩]
  let co := cospi j.h
  let sn := sinpi j.h
  let rot : M3 := [⟨f32n 1, 0, 0⟩, ⟨0, co, f32neg sn⟩, ⟨0, sn, co⟩]
  let (fwd, back) := stdMats std
  let hm := M3.mul back (M3.mul rot fwd)
  let o := j.off
  (M3.mul hm (M3.mul sm (M3.mul (diag j.c) (diag j.b))), M3.app hm (M3.app sm ⟨o, o, o⟩))

/-- A luma or R, G, B value of v parts of 256 normalised (R374). -/
def normY (full : Bool) (d : Nat) (v : Int) : Word :=
  let k : Int := 2 ^ (d - 8)
  if full then f32div (f32n v) (f32n (256 * (2 ^ d - 1))) else f32div (f32n (v - 256 * 16 * k)) (f32n (256 * 219 * k))

/-- A chroma value of v parts of 256 normalised. -/
def normC (full : Bool) (d : Nat) (v : Int) : Word :=
  let k : Int := 2 ^ (d - 8)
  if full then f32div (f32n (v - 256 * 2 ^ (d - 1))) (f32n (256 * (2 ^ d - 1)))
  else f32div (f32n (v - 256 * 128 * k)) (f32n (256 * 224 * k))

/-- An FP32 value quantised to d bits; `free` where it is not a number. -/
def quantD (d : Nat) (free : Word) (v : Word) : Nat :=
  match ofFp32 v with
  | .nan => free.toNat % 2 ^ d
  | x => match x.toIntRne with
    | some i => (clampI 0 (2 ^ d - 1) i).toNat
    | none => if x.lt (ofFp32 0) then 0 else 2 ^ d - 1

def denormY (full : Bool) (d : Nat) (free v : Word) : Nat :=
  let k : Int := 2 ^ (d - 8)
  quantD d free (if full then f32mul v (f32n (2 ^ d - 1)) else f32add (f32mul v (f32n (219 * k))) (f32n (16 * k)))

def denormC (full : Bool) (d : Nat) (free v : Word) : Nat :=
  let k : Int := 2 ^ (d - 8)
  quantD d free (if full then f32add (f32mul v (f32n (2 ^ d - 1))) (f32n (2 ^ (d - 1)))
    else f32add (f32mul v (f32n (224 * k))) (f32n (128 * k)))

/-- Bilinear upsampling in one dimension: the first of the two chroma indices and the weight of the second, of 16. Chroma sits
on the first luma position of its group, or midway (step 1 of Table 11.5; other samplings the same way, log entry 23). -/
def upIdx (sub : Nat) (mid : Bool) (x : Nat) : Int × Nat :=
  let u : Int := if mid then (2 * x - (sub - 1) : Int) else 2 * x
  (u / (2 * sub : Int), (u % (2 * sub : Int) * 16 / (2 * sub : Int)).toNat)

/-- A chroma sample at a luma position, in parts of 256, with edge replication. -/
def upsample (v : Win) (sx sy : Nat) (midX midY : Bool) (x y : Nat) : Int :=
  let (i, fx) := if sx = 1 then ((x : Int), 0) else upIdx sx midX x
  let (j, fy) := if sy = 1 then ((y : Int), 0) else upIdx sy midY y
  let g (a b : Int) : Int := Win.at v none a b
  (16 - fx : Int) * (16 - fy) * g i j + fx * (16 - fy) * g (i + 1) j + (16 - fx : Int) * fy * g i (j + 1) +
    fx * fy * g (i + 1) (j + 1)

/-- x^(p/q) of a fixed value that is not negative. -/
def fxPow (x : Int) (p q : Nat) : Int := if x ≤ 0 then 0 else fxExp (fxLn x.toNat (2 ^ 512) * p / q)

/-- The transfer functions of Table 11.5 on [0, 1] as BT.709 and BT.2100 define them (PRESUMED, log entry 72): BT.709, PQ and
HLG by their codes. -/
def tfEncoded (code : Nat) (l : Int) : Int :=
  if code = 1 then
    if l < fxQ 18 1000 then 9 * l / 2 else fxMul (fxQ 1099 1000) (fxPow l 45 100) - fxQ 99 1000
  else if code = 2 then
    let y := fxPow l 2610 16384
    fxPow (fxDiv (fxQ 3424 4096 + fxMul (fxQ 2413 128) y) (fxOne + fxMul (fxQ 2392 128) y)) 2523 32
  else if l ≤ fxOne / 12 then fxSqrt (3 * l)
  else fxMul (fxQ 17883277 100000000) (fxLn (12 * l - fxQ 28466892 100000000).toNat (2 ^ 512)) + fxQ 55991073 100000000

/-- Their inverses. -/
def tfLinear (code : Nat) (v : Int) : Int :=
  if code = 1 then
    if v < fxQ 81 1000 then 2 * v / 9 else fxPow (fxDiv (v + fxQ 99 1000) (fxQ 1099 1000)) 100 45
  else if code = 2 then
    let y := fxPow v 32 2523
    fxPow (fxDiv (max 0 (y - fxQ 3424 4096)) (fxQ 2413 128 - fxMul (fxQ 2392 128) y)) 16384 2610
  else if 2 * v ≤ fxOne then fxMul v v / 3
  else (fxExp (fxDiv (v - fxQ 55991073 100000000) (fxQ 17883277 100000000)) + fxQ 28466892 100000000) / 12

/-- A transfer function on an FP32 value in [0, 1]: a free value within 2^-14 of the true one, since the tables' knots are not
printed (R374, log entry 6). -/
def transfer (linear : Bool) (code : Nat) (x : Word) : Word :=
  let v := fxOf (ofFp32 x)
  if linear then heldTo (Config.tfLinear code x) (tfLinear code v) (2 ^ 498)
  else heldTo (Config.tfEncode code x) (tfEncoded code v) (2 ^ 498)

def clamp01 (x : Word) : Word := f32min (f32max x 0) (f32n 1)

/-- The normalised components of a pixel: (Y, Cb, Cr), or (R, G, B) of an RGB picture whose planes are G, B, R. -/
def pixelIn (s : State) (p : PicIn) (aux : List Byte) (x y : Nat) : V3 :=
  let full := bits (b8 aux 0) 2 2 = 1
  let site := bits (b8 aux 0) 5 4
  let lum (k : Nat) : Word := normY full p.depth (256 * (Win.px (winOf s p k) x y : Int))
  let chr (k : Nat) : Word :=
    let (sx, sy) := p.sub k
    normC full p.depth (upsample (winOf s p k) sx sy (site = 1) (site ≠ 2) x y)
  if p.rgb then ⟨lum 2, lum 0, lum 1⟩
  else if p.count - (if p.alpha then 1 else 0) < 3 then ⟨lum 0, 0, 0⟩
  else ⟨lum 0, chr 1, chr 2⟩

/-- Steps 3 to 6 of Table 11.5: (R, G, B), or (Y, Cb, Cr) when OUT_RGB is 0. -/
def colourSteps (aux : List Byte) (rgbIn : Bool) (v : V3) : V3 :=
  let std := b8 aux 0 % 4
  let m : M3 := (List.range 3).map fun i =>
    ⟨f32At aux (4 + 12 * i), f32At aux (8 + 12 * i), f32At aux (12 + 12 * i)⟩
  let off : V3 := ⟨f32At aux 40, f32At aux 44, f32At aux 48⟩
  let v := if rgbIn then v else if bits (b8 aux 0) 7 7 = 1 then affine m off v else toRgb std v
  let j := jitOf aux
  let v := if j.neutral then v else let (jm, jo) := jitMatrix std j; affine jm jo v
  let tin := b8 aux 1 % 8
  let tout := bits (b8 aux 1) 5 3
  let tf (x : Word) : Word :=
    let x := clamp01 x
    let l := if tin = 0 then x else transfer true tin x
    if tout = 0 then l else transfer false tout (clamp01 l)
  let v := if tin = tout then v else ⟨tf v.a, tf v.b, tf v.c⟩
  if bits (b8 aux 0) 6 6 = 1 then v else toYcc std v

/-- COLOUR without JONLY: sample (x, y) of plane k. -/
def colourPx (s : State) (p : PicIn) (aux : List Byte) (free : Word) (do_ count k : Nat) (x y : Nat) : Nat :=
  let full := bits (b8 aux 0) 3 3 = 1
  if p.alpha && k + 1 = count then redepth (Win.px (winOf s p (p.count - 1)) x y) p.depth do_
  else
    let v := colourSteps aux p.rgb (pixelIn s p aux x y)
    if bits (b8 aux 0) 6 6 = 1 then denormY full do_ free (v.get (if k = 0 then 1 else if k = 1 then 2 else 0))
    else if k = 0 then denormY full do_ free v.a else denormC full do_ free (v.get k)

/-- COLOUR with JONLY (R375): J in place on an RGB picture, its equivalent on the planes of a Y, Cb, Cr picture. -/
def jitterPx (s : State) (p : PicIn) (aux : List Byte) (free : Word) (do_ k : Nat) (x y : Nat) : Nat :=
  let fin := bits (b8 aux 0) 2 2 = 1
  let fout := bits (b8 aux 0) 3 3 = 1
  let j := jitOf aux
  let at_ (k : Nat) : Nat := Win.px (winOf s p k) x y
  if p.kind k = .alpha then redepth (at_ k) p.depth do_
  else if p.rgb then
    let v : V3 := pixelIn s p aux x y
    let w := if j.neutral then v else let (m, o) := jitMatrix (b8 aux 0 % 4) j; affine m o v
    denormY fout do_ free (w.get (if k = 0 then 1 else if k = 1 then 2 else 0))
  else if p.kind k = .main then
    denormY fout do_ free (f32add (f32mul (f32mul j.c j.b) (normY fin p.depth (256 * (at_ k : Int)))) j.off)
  else
    let cb := normC fin p.depth (256 * (at_ 1 : Int))
    let cr := normC fin p.depth (256 * (at_ 2 : Int))
    let co := cospi j.h
    let sn := sinpi j.h
    let g := f32mul (f32mul j.c j.b) j.s
    let r := if k = 1 then f32sub (f32mul co cb) (f32mul sn cr) else f32add (f32mul sn cb) (f32mul co cr)
    denormC fout do_ free (f32mul g r)

/-- Whether a function's auxiliary block keeps Table 11.4. -/
def auxOk (b : IuBlk) (p : PicIn) (do_ : Nat) (aux : List Byte) : Bool :=
  if b.func = 3 then
    b8 aux 0 % 4 ≠ 3 && bits (b8 aux 0) 5 4 ≠ 3 && b8 aux 1 % 8 ≤ 3 && bits (b8 aux 1) 5 3 ≤ 3 && b8 aux 1 < 128 &&
    zeroBytes aux 2 4 && zeroBytes aux 68 128 && (bits (b8 aux 0) 2 2 = 1 || 8 ≤ p.depth) &&
    (bits (b8 aux 0) 3 3 = 1 || 8 ≤ do_)
  else if b.func = 4 then
    let ok (x : Word) : Bool := f32le2 (f32q 1 10) x && f32le2 x (f32n 16)
    ok (f32At aux 0) && ok (f32At aux 4)
  else if b.func = 5 then b32 aux 4 % 32 = 0 && b16 aux 8 ≤ 256
  else true

/-- The second source of BLEND. -/
def second (t : Thread) (aux : List Byte) : PicIn := ⟨tsRead t (b32 aux 4) 32, b32 aux 0⟩

def secondOk (s : State) (t : Thread) (b : IuBlk) (p : PicIn) (aux : List Byte) : Bool :=
  if b.func = 5 then
    let q := second t aux
    tsIn t (b32 aux 4) 32 && b32 aux 0 ≠ b.dst && picOk s t.sample q && q.outW = p.outW && q.outH = p.outH &&
    q.count = p.count && q.rgb = p.rgb && q.chroma = p.chroma && q.alpha = p.alpha && q.depth = p.depth &&
    b8 q.rec_ 28 = b8 p.rec_ 28
  else true

/-- Whether the IU takes a block (R363). -/
def iuOk (s : State) (t : Thread) (l : List Byte) : Bool :=
  let b := parseIu l
  let p : PicIn := ⟨tsRead t b.srec 32, b.src⟩
  let aux := tsRead t b.aux (auxLen b.func)
  iuFields l && tsIn t b.srec 32 && tsIn t b.drec 32 && tsIn t b.aux (auxLen b.func) && picOk s t.sample p &&
  b.dst ≠ b.src && holds s t.sample b.dst && auxOk b p (outShape b p aux).depth aux && secondOk s t b p aux &&
  (bufOf s b.dst).any fun u =>
    let o := outShape b p aux
    planesBytes (if o.o16 then 2 else 1) (o.sizes p) ≤ bufSize u

/-- Sample (x, y) of output plane k. -/
def iuPx (s : State) (t : Thread) (b : IuBlk) (p : PicIn) (aux : List Byte) (o : OutShape) (free : List Nat → Word) (k : Nat) :
    Nat → Nat → Nat :=
  if b.func = 1 then resamplePx s b p o.depth k
  else if b.func = 2 then warpPx s b p aux free o.depth k
  else if b.func = 3 then
    fun x y =>
      if bits (b8 aux 1) 6 6 = 1 then jitterPx s p aux (free [k, x, y]) o.depth k x y
      else colourPx s p aux (free [k, x, y]) o.depth o.count k x y
  else if b.func = 4 then blurPx s b p aux o.depth k
  else blendPx s p (second t aux) (b16 aux 8) o.depth k

/-- The buffers that a command reads. -/
def iuReads (t : Thread) (b : IuBlk) (aux : List Byte) : List Nat := b.src :: (if b.func = 5 then [(second t aux).buf] else [])

/-- Pixels that a command is counted over (Table 11.2). -/
def iuPixels (b : IuBlk) (p : PicIn) : Nat :=
  if b.func = 1 then Nat.max (b.cw * b.ch) (b.ow * b.oh) else if b.func = 2 then b.ow * b.oh else p.outW * p.outH

/-- An IU command issued before number n that is still outstanding on the tile of thread th (R365). -/
def iuBefore (s : State) (th : ThreadRef) (n : Nat) : Bool :=
  s.threads.any fun t => thTile t.th = thTile th && t.tickets.any fun k =>
    match k.deferred with
    | some (.iu _ m) => m < n
    | _ => false

/-- The planes of a command's output. -/
def iuPlanes (s : State) (t : Thread) (l : List Byte) (p : PicIn) (aux : List Byte) : List Byte :=
  let b := parseIu l
  let o := outShape b p aux
  ((o.sizes p).zipIdx).flatMap fun (d, k) =>
    planeData (if o.o16 then 2 else 1) d.1 d.2 (iuPx s t b p aux o (iuFree l aux) k)

/-- The output of a command: the planes reach DST, the record the tile store, and the tile counts the pixels (R364, Table
18.10). -/
def iuWrite (s : State) (t : Thread) (l : List Byte) (p : PicIn) (aux : List Byte) : State :=
  let b := parseIu l
  let copy := if b.func = 5 && !p.damaged && (second t aux).damaged then second t aux else p
  let s := bufWrite s b.dst 0 (iuPlanes s t l p aux)
  tileEvent (setThread s t.th fun t => tsWrite t b.drec (outRecord (outShape b p aux) copy b.dst)) t.th 0x030 (iuPixels b p)

/-- Runs an IU command whose issue number is n. -/
def iuRun (s : State) (th : ThreadRef) (blk n : Nat) : UnitOut :=
  match threadOf s th with
  | none => .gone s
  | some t =>
    let l := tsRead t blk 64
    let b := parseIu l
    let p : PicIn := ⟨tsRead t b.srec 32, b.src⟩
    let aux := tsRead t b.aux (auxLen b.func)
    let reads := iuReads t b aux
    let whole (h : Nat) : Nat := ((bufOf s h).map bufSize).getD 0
    if iuBefore s th n then .wait s
    else if !iuOk s t l then .done s 5 0
    else if (reads.any fun h => !bufReady s (thDie th) h 0 (whole h)) || !bufOpen s (thDie th) b.dst 0 (whole b.dst) then .wait s
    else
      let marked := reads.any fun h => bufOutcome s h = (1, 1)
      let ended := reads.find? fun h => (bufOutcome s h).1 ≠ 0 && bufOutcome s h ≠ (1, 1)
      let (s, bad) := readLines s b.src 0 (planesBytes p.cont p.sizes)
      let (s, bad') := if b.func = 5 ∧ !bad then readLines s (second t aux).buf 0 (planesBytes p.cont p.sizes) else (s, bad)
      let (s, bad') := if bad' || ended.isSome then (s, bad') else mergeLine s b.dst 0 (iuPlanes s t l p aux).length
      if bad' then .gone (sampleUe s t.sample)
      else match ended with
        | some h => .done (noteFail s t.sample h) (bufOutcome s h).1 (bufOutcome s h).2
        | none => if marked then .done (iuWrite s t l p aux) 1 1 else .done (iuWrite s t l p aux) 0 0

/-- Issues an IU command, which stands outstanding until its TICKET_COMPLETE: a tile's IU serves one at a time, in order
(R365). A block that names another function of Table 11.1 is another command, and one that names none completes RANGE. -/
def iuIssue (s : State) (func : Nat) (x : Orony) : State :=
  match threadOf s x.th with
  | none => s
  | some t =>
    let f := b8 (tsRead t (rs t x.a).toNat 64) 0
    if f ≠ func ∧ 1 ≤ f ∧ f ≤ 5 then s
    else unitIssue s 0x02 x (fun blk s => (.iu blk s.nextId, { s with nextId := s.nextId + 1 })) fun s _ => .wait s

/-- RESAMPLE. -/
def execResample (x : Orony) (s : State) : Out := .next (iuIssue s 1 x)
/-- WARP. -/
def execWarp (x : Orony) (s : State) : Out := .next (iuIssue s 2 x)
/-- COLOUR. -/
def execColour (x : Orony) (s : State) : Out := .next (iuIssue s 3 x)
/-- BLUR. -/
def execBlur (x : Orony) (s : State) : Out := .next (iuIssue s 4 x)
/-- BLEND. -/
def execBlend (x : Orony) (s : State) : Out := .next (iuIssue s 5 x)

end Sys2Proof.Machine
end

