-- ==== Sys2Proof/Machine/Encode.lean ====
section
/-!
DEFINITION. Weight delivery, whole-layer lattice jobs, code selection and the dictionary units (R33 to R36, R464 to R475,
R489 to R491).
-/

namespace Sys2Proof.Machine

/-! ### Weight delivery (R467 to R471) -/

/-- The image bytes that a chunk is made of, its rows and its bias: from and length. -/
def chunkSpans (m : Model) (c : Nat) : List (Nat × Nat) :=
  match (chunksOf m)[c]? with
  | none => []
  | some k =>
    match m.layers[k.layer]? with
    | none => []
    | some y => (m.wOff + y.rowsOff + k.row * y.rowStride, (k.rows - 1) * y.rowStride + rowLen y.fmtB y.k) ::
        (if y.bias then [(m.wOff + y.biasOff + 4 * k.row, 4 * k.rows)] else [])

/-- Reads chunk c from a die's copy; whether a line is uncorrectable. -/
def readChunk (s : State) (m : Model) (d c : Nat) : State × Bool :=
  match m.copies.find? fun e => e.1 = d with
  | none => (s, true)
  | some e => (chunkSpans m c).foldl (fun (a : State × Bool) z =>
      let (s, bad) := readObject a.1 z.1 z.2 e.2
      (s, a.2 || bad)) (s, false)

/-- Whether chunk c of a die's copy lies on a paused memory port (R64). -/
def chunkPaused (s : State) (m : Model) (d c : Nat) : Bool :=
  (m.copies.find? fun e => e.1 = d).any fun e => (chunkSpans m c).any fun z => objectPaused s false z.1 z.2 e.2

/-- Reads chunk c from the lowest-numbered other die in service that holds a sound copy of it. -/
def soundCopy (s : State) (m : Model) (c : Nat) : List Nat → State × Bool
  | [] => (s, false)
  | d :: ds =>
    if m.copies.any fun e => e.1 = d then
      match readChunk s m d c with
      | (s, false) => (s, true)
      | (s, true) => soundCopy s m c ds
    else soundCopy s m c ds

/-- A layer job of a thread: its ticket, model and the chunks it still needs. -/
structure LayerJob where
  th : ThreadRef
  ticket : Nat
  model : Nat
  need : List Nat
  deriving DecidableEq, Repr

def jobsIn (t : Thread) : List LayerJob := t.tickets.filterMap fun k =>
  match k.deferred with
  | some (.layer _ m need) => some ⟨t.th, k.num, m, need⟩
  | _ => none

/-- The cluster of a thread, 24 for a management thread. -/
def clusterOf (th : ThreadRef) : Nat := match thTile th with | some t => t / 4 | none => 24

/-- Whether a job has claimed a chunk that it still reads. -/
def claims (s : State) (j : LayerJob) (c : Nat) : Bool :=
  s.landing.any fun b => b.cluster = clusterOf j.th && b.model = j.model && b.chunk = c && b.claims.contains (j.th, j.ticket)

/-- Jobs of a model on a die that wait for chunks. -/
def waitingJobs (s : State) (d model : Nat) : List LayerJob :=
  (s.threads.flatMap jobsIn).filter fun j => thDie j.th = d && j.model = model && j.need.any fun c => !claims s j c

/-- The landing buffer that a die's rotation filled last. -/
def lastLanding (s : State) (d model : Nat) : Option LandBuf :=
  (s.landing.filter fun b => b.cluster / 6 = d && b.model = model).foldl (fun a b =>
    match a with | none => some b | some y => if y.seq < b.seq then some b else a) none

/-- The next chunk of a rotation: the first after c in cyclic order that is needed (R469). -/
def nextChunk (total c : Nat) (need : Nat → Bool) : Option Nat :=
  ((List.range total).map fun i => (c + 1 + i) % total).find? need

/-- Sets the deferred work of a ticket. -/
def setDeferred (s : State) (th : ThreadRef) (n : Nat) (op : Option UnitOp) (status : Nat) : State :=
  setThread s th fun t =>
    { t with tickets := updIf (fun k => k.num = n) (fun k => { k with deferred := op, status := status }) t.tickets }

/-- CHUNK_FETCH (R64, R469, R471): the next chunk starts to land in the clusters whose jobs need it, once their buffer has
been released. It waits for a paused memory port, and a repair from another die for a route that changes (R14). -/
def execChunkFetch (d : Fin 4) (model : Nat) (s : State) : Out :=
  .next (
    match s.models.find? fun m => m.uid = model with
    | none => s
    | some m =>
      let jobs := waitingJobs s d model
      let wants (c : Nat) (j : LayerJob) : Bool := j.need.contains c && !claims s j c
      let last := lastLanding s d model
      let total := (chunksOf m).length
      let landing := s.landing.any fun b => b.cluster / 6 = d.val && b.model = model && !b.ready
      if !alive s || dieLost s d || landing then s
      else match nextChunk total ((last.map (·.chunk)).getD (total - 1)) fun c => jobs.any (wants c) with
      | none => s
      | some c =>
        let buf := match last with | some b => 1 - b.buf | none => 0
        let clusters := (List.range 24).filter fun k => jobs.any fun j => clusterOf j.th = k && wants c j
        let busy := s.landing.any fun b => b.model = model && b.buf = buf && clusters.contains b.cluster && !b.released
        if busy || chunkPaused s m d c then s
        else
          let land (s : State) : State :=
            let stays (b : LandBuf) : Bool := !(b.model = model && b.buf = buf && clusters.contains b.cluster)
            { s with
              nextId := s.nextId + 1
              landing := s.landing.filter stays ++ clusters.map fun k => ⟨k, model, buf, c, false, false, s.nextId, []⟩ }
          let others := (diesUp s).filter (· ≠ d.val)
          match readChunk s m d c with
          | (s, false) => land s
          | (s, true) =>
            if others.any fun x => routeHeld s x d || chunkPaused s m x c then s
            else match soundCopy s m c others with
            | (s, true) =>
              match m.copies.find? fun e => e.1 = d.val with
              | some e => land ((chunkSpans m c).foldl (fun s z => repairLines s z.1 z.2 e.2) s)
              | none => s
            | (s, false) =>
              (jobs.filter (wants c)).foldl (fun s j => setDeferred s j.th j.ticket none 1) s)

/-- A chunk that stands ready in a cluster, and newer than the other buffer's, is claimed by the jobs that need it (R470). -/
def claimBy (s : State) (cluster model buf : Nat) (js : List LayerJob) : State :=
  let mine (b : LandBuf) : Bool := b.cluster = cluster && b.model = model && b.buf = buf
  let add (b : LandBuf) : List (ThreadRef × Nat) :=
    (js.filter fun j => clusterOf j.th = cluster && j.model = model && j.need.contains b.chunk &&
      !b.claims.contains (j.th, j.ticket)).map fun j => (j.th, j.ticket)
  let claim (b : LandBuf) : LandBuf := { b with claims := b.claims ++ add b, released := b.released && (add b).isEmpty }
  { s with landing := updIf mine claim s.landing }

/-- CHUNK_READY (R35, R470): the ready token is set; jobs claim the chunk and held loads go on. -/
def execChunkReady (cluster : Fin 24) (model : Nat) (buf : Fin 2) (s : State) : Out :=
  .next (
    let mine (b : LandBuf) : Bool := b.cluster = cluster.val && b.model = model && b.buf = buf.val && !b.ready
    if !alive s || !s.landing.any mine then s
    else
      let s := { s with landing := updIf mine (fun b => { b with ready := true }) s.landing }
      let s := claimBy s cluster model buf (s.threads.flatMap jobsIn)
      setThreadsIf s (fun t => t.state = 5 && clusterOf t.th = cluster.val && t.waitOn % 2 = buf.val &&
        (stageModel s t (t.waitOn / 2)).any fun m => m.uid = model) fun t => { t with state := 1 })

/-- LANDING_BUFFER_RELEASE (R470): the jobs that claimed the chunk have read it, and the buffer is released. -/
def execLandingBufferRelease (cluster : Fin 24) (model : Nat) (buf : Fin 2) (s : State) : Out :=
  .next (
    match s.landing.find? fun b => b.cluster = cluster.val && b.model = model && b.buf = buf.val && b.ready && !b.released with
    | none => s
    | some b =>
      if !alive s then s
      else
        let s := b.claims.foldl (fun s e =>
          match (threadOf s e.1).bind fun t => t.tickets.find? fun k => k.num = e.2 with
          | some k =>
            (match k.deferred with
             | some (.layer blk m need) => setDeferred s e.1 e.2 (some (.layer blk m (need.filter (· ≠ b.chunk)))) k.status
             | _ => s)
          | none => s) s
        { s with landing := updIf (fun x => x = b) (fun x => { x with released := true, claims := [] }) s.landing })

/-! ### LAYER and SELECT (R472 to R475) -/

/-- The fields of a BLS command block (Table 14.6). -/
structure BlsBlk where
  func : Nat
  msel : Nat
  round : Nat
  nosat : Bool
  fa : Nat
  fc : Nat
  idx : Nat
  aOff : Nat
  aStr : Nat
  cOff : Nat
  cStr : Nat
  m : Nat
  purpose : Nat
  draw : Nat
  frame : Nat
  temp : Word
  deriving DecidableEq, Repr

def parseBls (l : List Byte) : BlsBlk :=
  ⟨b8 l 0, b8 l 1 % 2, bits (b8 l 1) 2 1, bits (b8 l 1) 3 3 = 1, b8 l 2, b8 l 3, b32 l 4, b32 l 8, b32 l 12, b32 l 16,
   b32 l 20, b16 l 24, b8 l 26, leAt l 28 6, b16 l 34, f32At l 36⟩

/-- A layer of the stage's model that MSEL selects. -/
def blsLayer (s : State) (t : Thread) (b : BlsBlk) : Option (Model × Layer) :=
  (stageModel s t b.msel).bind fun m => (m.layers[b.idx]?).map fun y => (m, y)

/-- Whether a LAYER block is valid (R475). -/
def layerOk (s : State) (t : Thread) (l : List Byte) : Bool :=
  let b := parseBls l
  match blsLayer s t b with
  | none => false
  | some (_, y) =>
    let a : LatMat := ⟨b.aOff, b.aStr, b.m, b.fa, y.k⟩
    let c : LatMat := ⟨b.cOff, b.cStr, b.m, b.fc, y.n⟩
    b8 l 1 < 16 && b.round ≠ 3 && 1 ≤ b.m && b.m ≤ 4096 && b.purpose = 0 && b8 l 27 = 0 && b.frame = 0 && b.temp = 0 &&
    zeroBytes l 40 64 && a.ok && c.ok && a.fin_ ≤ t.tsBytes && c.fin_ ≤ t.tsBytes && !c.clash a &&
    floatType b.fa == floatType y.fmtB

/-- Whether a SELECT block is valid. -/
def selectOk (t : Thread) (l : List Byte) : Bool :=
  let b := parseBls l
  let a : LatMat := ⟨b.aOff, b.aStr, b.m, 7, b.idx⟩
  let c : LatMat := ⟨b.cOff, b.cStr, b.m, 7, 1⟩
  b8 l 1 = 0 && b.fa = 7 && b.fc = 0 && 1 ≤ b.idx && b.idx ≤ 65536 && 1 ≤ b.m && b.m ≤ 4096 && 0x10 ≤ b.purpose &&
  b.purpose ≤ 0x7F && b8 l 27 = 0 && zeroBytes l 40 64 && a.ok && c.ok && a.fin_ ≤ t.tsBytes && c.fin_ ≤ t.tsBytes &&
  !c.clash a && finite32 l 36 && f32le2 0 b.temp

/-- The FP32 accumulations of a row of A (R473). -/
def layerAcc (m : Model) (y : Layer) (fa : Nat) (rowA : List Byte) : List Word :=
  let a := (List.range y.k).map (rowValue fa y.k rowA)
  (List.range y.n).map fun j => lmmaAcc (biasOf m y j) a ((List.range y.k).map (rowValue y.fmtB y.k (weightRow m y j)))

/-- Row r of C: the accumulations through FUNC and converted to FMT_C. -/
def layerRow (s : State) (h : Nat) (m : Model) (y : Layer) (b : BlsBlk) (rowA : List Byte) (r : Nat) : List Byte :=
  let u (j : Nat) : Nat := if b.round = 2 then stochBits s h b.draw (r * y.n + j) else 0
  let acc := layerAcc m y b.fa rowA
  let v := if y.func = 0 then acc.map ofFp32 else lactRow y.func (acc.flatMap fun w => toLe 4 w.toNat) 7 y.n
  rowBytes b.fc b.round b.nosat u v

/-- Writes C of a LAYER job. -/
def layerWrite (s : State) (th : ThreadRef) (blk : Nat) : State × Nat :=
  match threadOf s th with
  | none => (s, 5)
  | some t =>
    let l := tsRead t blk 64
    let b := parseBls l
    match blsLayer s t b with
    | none => (s, 5)
    | some (m, y) =>
      if !layerOk s t l then (s, 5)
      else
        let a : LatMat := ⟨b.aOff, b.aStr, b.m, b.fa, y.k⟩
        let c : LatMat := ⟨b.cOff, b.cStr, b.m, b.fc, y.n⟩
        let rows := (List.range b.m).map fun r => layerRow s t.sample m y b (a.row t r) r
        (tileEvent (setThread s th fun t => latWrite t c rows) th 0x038 (cellOps b.m y.n y.k), 0)

/-- A LAYER command, whose job waits for the chunks of its layer (R470). -/
def layerIssue (x : Orony) (s : State) : State :=
  issueScalar s 5 0x03 x fun s t =>
    let blk := (rs t x.a).toNat
    match blkFault t blk with
    | some e => pfault s x.th e 0
    | none =>
      let l := tsRead t blk 64
      let b := parseBls l
      match if b.func = 1 && layerOk s t l then blsLayer s t b else none with
      | none => takeTicket s x.th x.d 5 false none fun s _ => s
      | some (m, _) =>
        let need := ((chunksOf m).zipIdx.filter fun (c, _) => c.layer = b.idx).map (·.2)
        takeTicket s x.th x.d 0 false (some (.layer blk m.uid need)) fun s n =>
          match lastLanding { s with landing := s.landing.filter fun y => y.cluster = clusterOf x.th && y.ready }
              (thDie x.th) m.uid with
          | some y => claimBy s y.cluster m.uid y.buf [⟨x.th, n, m.uid, need⟩]
          | none => s

/-- LAYER; a block that names SELECT is the other command. -/
def execLayer (x : Orony) (s : State) : Out :=
  .next (
    match threadOf s x.th with
    | none => s
    | some t => if b8 (tsRead t (rs t x.a).toNat 64) 0 = 2 then s else layerIssue x s)

/-- The result of SELECT for a row of logits (R249, R474). -/
def selectRow (s : State) (x : Sample) (b : BlsBlk) (logits : List Word) (r : Nat) : Word :=
  let l := logits.map fun w => if ofFp32 w = .nan then 0xFF800000 else w
  let inf (w : Word) : Bool := ofFp32 w = .inf true
  if l.all inf then 0x7F7FFFFF
  else if ofFp32 b.temp = ofFp32 0 ∨ ofFp32 b.temp = ofFp32 0x80000000 then
    BitVec.ofNat 32 (((l.zipIdx).foldl (fun (a : Option (Word × Nat)) e =>
      match a with
      | none => if inf e.1 then none else some e
      | some y => if f32lt y.1 e.1 then some e else a) none).map (·.2) |>.getD 0)
  else
    let base := b.draw + r * ceilDiv b.idx 4
    let noise (j : Nat) : Word := (sampleDraw s x b.frame b.purpose ((base + j / 4) % 2 ^ 48)).word (j % 4)
    match gumbelMax noise (l.map fun w => f32mul w b.temp) with
    | some j => BitVec.ofNat 32 j
    | none => 0x7F7FFFFF

/-- SELECT on a block: the state and its ticket status. -/
def selectRun (s : State) (th : ThreadRef) (blk : Nat) : UnitOut :=
  match threadOf s th with
  | none => .gone s
  | some t =>
    let l := tsRead t blk 64
    let b := parseBls l
    match sampleOf s t.sample with
    | none => .gone s
    | some x =>
      if b.func ≠ 2 || !selectOk t l then .done s 5 0
      else
        let a : LatMat := ⟨b.aOff, b.aStr, b.m, 7, b.idx⟩
        let rows := (List.range b.m).map fun r =>
          let row := a.row t r
          toLe 4 (selectRow s x b ((List.range b.idx).map fun j => wordAt row (4 * j)) r).toNat
        .done (setThread s th fun t => latWrite t ⟨b.cOff, b.cStr, b.m, 7, 1⟩ rows) 0 0

/-- SELECT. -/
def execSelect (x : Orony) (s : State) : Out :=
  .next (
    match threadOf s x.th with
    | none => s
    | some t =>
      if b8 (tsRead t (rs t x.a).toNat 64) 0 = 1 then s
      else unitIssue s 0x03 x (fun blk s => (.iu blk 0, s)) fun s blk => selectRun s x.th blk)

/-! ### TOKENISE (R489 to R491) -/

/-- Length of the well-formed UTF-8 sequence at the head of a list, else 0 and the length of the maximal ill-formed subpart
(R489). -/
def utf8At (l : List Byte) : Nat × Nat :=
  let b (i : Nat) : Nat := b8 l i
  let has (i : Nat) (lo hi : Nat) : Bool := i < l.length && lo ≤ b i && b i ≤ hi
  let lead := b 0
  if lead < 0x80 then (1, 0)
  else if lead < 0xC2 ∨ 0xF4 < lead then (0, 1)
  else
    let n := if lead < 0xE0 then 2 else if lead < 0xF0 then 3 else 4
    let lo := if lead = 0xE0 then 0xA0 else if lead = 0xF0 then 0x90 else 0x80
    let hi := if lead = 0xED then 0x9F else if lead = 0xF4 then 0x8F else 0xBF
    if !has 1 lo hi then (0, 1)
    else if n = 2 then (2, 0)
    else if !has 2 0x80 0xBF then (0, 2)
    else if n = 3 then (3, 0)
    else if !has 3 0x80 0xBF then (0, 3)
    else (4, 0)

/-- The pieces of an input: a well-formed run, or none for a maximal ill-formed subpart. -/
def utf8Runs : Nat → List Byte → List Byte → List (Option (List Byte))
  | 0, run, _ => if run.isEmpty then [] else [some run]
  | fuel + 1, run, l =>
    if l.isEmpty then if run.isEmpty then [] else [some run]
    else match utf8At l with
      | (0, k) => (if run.isEmpty then [] else [some run]) ++ none :: utf8Runs fuel [] (l.drop k)
      | (k, _) => utf8Runs fuel (run ++ l.take k) (l.drop k)

/-- The longest entry that opens a run. -/
def longestEntry (d : Dict) (l : List Byte) : Option (List Byte × Nat) :=
  (d.entries.filter fun e => e.1.isPrefixOf l).foldl (fun a e =>
    match a with
    | none => some e
    | some y => if y.1.length < e.1.length then some e else a) none

/-- A token: its id and whether it is a fallback or a REPLACE. -/
structure Token where
  id : Nat
  fall : Bool
  repl : Bool
  deriving DecidableEq, Repr

/-- Greedy longest match over a well-formed run (R489). -/
def matchRun (d : Dict) : Nat → List Byte → List Token
  | 0, _ => []
  | fuel + 1, l =>
    match l with
    | [] => []
    | b :: rest =>
      match longestEntry d l with
      | some e => ⟨e.2, false, false⟩ :: matchRun d fuel (l.drop e.1.length)
      | none => ⟨d.byteBase + b.toNat, true, false⟩ :: matchRun d fuel rest

/-- The tokens of an input. -/
def tokens (d : Dict) (l : List Byte) : List Token :=
  (utf8Runs l.length [] l).flatMap fun p =>
    match p with
    | none => [⟨d.replace, false, true⟩]
    | some r => matchRun d r.length r

/-- The dictionary unit that takes a die's command: of the die's units in service, or of the first die that has any, the one
with fewer bytes queued, the lower-numbered on equal counts (R490, R621). -/
def duFor (s : State) (d : Nat) : Option Nat :=
  (dieOrder d).findSome? fun k =>
    match !duLost s (2 * k), !duLost s (2 * k + 1) with
    | true, true => some (if duQueued s (2 * k + 1) < duQueued s (2 * k) then 2 * k + 1 else 2 * k)
    | true, false => some (2 * k)
    | false, true => some (2 * k + 1)
    | false, false => none

/-- Counts a command of unit u (Table 14.11). -/
def duCount (s : State) (u dict nbytes : Nat) (ts : List Token) : State :=
  let o := dieBase (u / 2) + 0x5000 + 0x100 * (u % 2)
  let s := setFld s o 31 16 dict
  let s := bump64 s (o + 0x04) nbytes
  let s := bump64 s (o + 0x0C) ts.length
  let s := bumpBy s (o + 0x14) (ts.filter (·.repl)).length
  let s := bumpBy s (o + 0x18) (ts.filter (·.fall)).length
  bump s (o + 0x1C)

/-- A dictionary as die d's copy holds it: where a line of it was corrected to another codeword, what its entries and special
ids then say is free (R548, log entry 54). -/
def dictOn (m : Dict) (d : Nat) : Dict :=
  match m.garbled.find? (·.1 = d) with
  | none => m
  | some g =>
    let word (i : Nat) : Nat := leNat ((List.range 4).map fun j => Config.lineByte g.2.2 (64 * i + j)) % 2 ^ 31
    { m with
      byteBase := word 0, replace := word 1, bos := word 2, eos := word 3, pad := word 4
      entries := m.entries.zipIdx.map fun (e, i) =>
        ((List.range e.1.length).map fun j => Config.lineByte g.2.2 (64 * (i + 5) + 8 + j), word (i + 5)) }

/-- The dictionary of a thread's stage. -/
def stageDict (s : State) (t : Thread) : Option Dict :=
  (stageOf s t).bind fun st => (dictOf s t.part st.dict).map fun d => dictOn d (thDie t.th)

/-- A dictionary unit reads the copy of its die, of which a bad line is repaired from another die's copy: false when no die
holds it sound (Table 16.1, R471). -/
def dictSound (s : State) (d die : Nat) (m : Dict) : State × Bool :=
  let at_ := if m.copies.any (·.1 = die) then die else d
  if m.copies.any (·.1 = at_) then soundObject s m.copies at_ 0 m.imageBytes else (s, true)

/-- Whether the copy of its dictionary that a unit of die `die` reads lies on a paused memory port (R64). -/
def dictPaused (s : State) (die : Nat) (m : Dict) : Bool :=
  (m.copies.find? (·.1 = die)).any fun c => objectPaused s false 0 m.imageBytes c.2

/-- Whether a DU block is valid (Table 14.9). -/
def duOk (s : State) (t : Thread) (l : List Byte) : Bool :=
  let inOk := if b8 l 1 = 1 then b32 l 4 = 0 && b32 l 8 = 0
    else b32 l 8 ≤ 65536 && holds s t.sample (b32 l 4) && (bufOf s (b32 l 4)).any fun b => b32 l 8 ≤ bufSize b
  b8 l 0 = 1 && b8 l 1 ≤ 1 && zeroBytes l 2 4 && zeroBytes l 37 64 && 1 ≤ b32 l 16 && b32 l 16 ≤ 65536 && inOk &&
  holds s t.sample (b32 l 12) && ((bufOf s (b32 l 12)).any fun b => 4 * b32 l 16 ≤ bufSize b) && (stageDict s t).isSome

/-- Where a command's input stands: its bytes with a ticket status and a cause, or still to come. -/
inductive DuInput where
  | ready (l : List Byte) (status cause : Nat)
  | wait (s : State)
  | lost (s : State)
  deriving DecidableEq, Repr

/-- Bytes of a buffer whose fetch has ended. -/
def duBuffer (s : State) (x : Sample) (d h n : Nat) : State × DuInput :=
  if !bufReady s d h 0 n then (s, .wait s)
  else
    let o := bufOutcome s h
    if o.1 ≠ 0 ∧ o ≠ (1, 1) then (noteFail s x.h h, .ready [] o.1 o.2)
    else
      let (s, bad) := readLines s h 0 n
      if bad then (s, .lost s) else (s, .ready (bufRead s h 0 n) o.1 o.2)

/-- The caption's stream: no index record has this CTX. -/
def captionCtx : Nat := 0x10000

/-- The sample's caption: it is asked for at the first TOKENISE that wants it (R291, R491). -/
def caption (s : State) (x : Sample) (die : Nat) : State × DuInput :=
  match x.dir with
  | none => (s, .ready [] x.dirStatus x.dirCause)
  | some d =>
    if d.csrc = 0xFFFFFFFF ∨ d.clen = 0 then (s, .ready [] 0 0)
    else match x.recs.find? fun r => r.recno = captionNo with
      | none =>
        let c := rangeCause s x.part d.csrc d.coff d.clen
        let r := if c ≠ 0 then badRec (blankRec captionNo) c else goodRec (blankRec captionNo) [(d.csrc, d.coff, d.clen)]
        let s := setSample s x.h fun y => { y with recs := y.recs ++ [{ r with ctx := captionCtx, named := true }] }
        if c ≠ 0 then (s, .ready [] 1 c) else (s, .wait s)
      | some r =>
        if r.status ≠ 0 then (s, .ready [] r.status r.cause)
        else match r.handle with
          | some h => duBuffer s x die h d.clen
          | none => (s, .wait s)

/-- Input bytes that a command names (Table 14.9). -/
def duBytes (s : State) (t : Thread) (l : List Byte) : Nat :=
  if b8 l 1 = 1 then (((sampleOf s t.sample).bind (·.dir)).map (·.clen)).getD 0 else b32 l 8

/-- Whether a command of partition p issued before number n still stands in a dictionary unit's queue (R585). -/
def duBefore (s : State) (p u n : Nat) : Bool :=
  s.threads.any fun t => t.part = p && t.tickets.any fun k =>
    match k.deferred with
    | some (.tokenise _ v _ m) => v = u && m < n
    | _ => false

/-- A TOKENISE command is sent to a unit; one that reads the sample's caption asks for it. -/
def duSend (s : State) (t : Thread) (blk : Nat) : UnitOp × State :=
  let l := tsRead t blk 64
  let op := UnitOp.tokenise blk ((duFor s (thDie t.th)).getD 0) (duBytes s t l) s.nextId
  let s := { s with nextId := s.nextId + 1 }
  match sampleOf s t.sample with
  | some x =>
    if duOk s t l && b8 l 1 = 1 && !(x.recs.any fun r => r.recno = captionNo) then (op, (caption s x (thDie t.th)).1) else (op, s)
  | none => (op, s)

/-- The input of a command (Table 14.9). -/
def duInput (s : State) (x : Sample) (die : Nat) (l : List Byte) : State × DuInput :=
  if b8 l 1 = 1 then caption s x die else duBuffer s x die (b32 l 4) (b32 l 8)

/-- The commands in a dictionary unit's queue: thread, block and number of each. -/
def duQueue (s : State) (u : Nat) : List (Thread × Nat × Nat) :=
  s.threads.flatMap fun t => t.tickets.filterMap fun k =>
    match k.deferred with
    | some (.tokenise blk v _ m) => if v = u then some (t, blk, m) else none
    | _ => none

/-- Whether a unit could run a command of its queue now: no port that it needs is paused, and its input has come. -/
def duReady (s : State) (u : Nat) (t : Thread) (blk : Nat) : Bool :=
  let l := tsRead t blk 64
  match sampleOf s t.sample, stageDict s t with
  | some x, some d =>
    !duOk s t l || (!dictPaused s (u / 2) d && bufOpen s (thDie t.th) (b32 l 12) 0 (4 * b32 l 16) &&
      (match (duInput s x (thDie t.th) l).2 with | .wait _ => false | _ => true))
  | _, _ => true

/-- Whether the unit comes to partition p next: no other partition whose command it could run now comes before it (R585). -/
def duTurn (s : State) (u p : Nat) : Bool :=
  (duQueue s u).all fun e =>
    e.1.part = p || turnBefore s u p e.1.part || duBefore s e.1.part u e.2.2 || !duReady s u e.1 e.2.1

/-- Runs a TOKENISE command sent to a unit, or to another where that one has been lost (R621). Commands of one partition are
served in the order in which they were issued, those of several in turns (R585). -/
def duRun (s : State) (th : ThreadRef) (blk unit seq : Nat) : UnitOut :=
  match threadOf s th with
  | none => .gone s
  | some t =>
    if duBefore s t.part unit seq || !duTurn s unit t.part then .wait s else
    let after := ((duQueue s unit).filter fun e => e.2.2 ≠ seq).map (·.1.part)
    let l := tsRead t blk 64
    match sampleOf s t.sample, stageDict s t with
    | some x, some d =>
      if !duOk s t l then .done s 5 0
      else
        let (s, i) := duInput s x (thDie th) l
        match i, if duLost s unit then duFor s (thDie th) else some unit with
        | .wait s, _ => .wait s
        | _, none => .wait s
        | .lost s, _ => .gone (sampleUe s x.h)
        | .ready bytes st cause, some u =>
          let ts := tokens d bytes
          let ids := (ts.take (b32 l 16)).flatMap fun k => toLe 4 k.id
          if dictPaused s (u / 2) d || !bufOpen s (thDie th) (b32 l 12) 0 ids.length then .wait s else
          match dictSound s (thDie th) (u / 2) d with
          | (s, false) => .done s 1 0
          | (s, true) =>
          match mergeLine s (b32 l 12) 0 ids.length with
          | (s, true) => .gone (sampleUe s x.h)
          | (s, false) =>
          let s := bufWrite s (b32 l 12) 0 ids
          let s := setThread s th fun t => tsWrite t (blk + 20)
            (toLe 4 ts.length ++ toLe 4 (ts.filter (·.repl)).length ++ toLe 4 (ts.filter (·.fall)).length ++
             toLe 4 bytes.length ++ toLe 1 (if b8 l 1 = 1 then cause else 0))
          let s := countTurn (duCount s u d.id bytes.length ts) unit t.part bytes.length after.eraseDups
          let isDu := ((stageOf s t).map (·.template)).getD 0 = 9
          let more (y : Sample) : Sample :=
            { y with stageCharged := modAt y.stageCharged t.stage (· + bytes.length) }
          .done (if isDu then setSample s x.h more else s) st cause
    | _, _ => .done s 5 0

/-- TOKENISE: the command stands in its unit's queue until its TICKET_COMPLETE. -/
def execTokenise (x : Orony) (s : State) : Out :=
  .next (
    match threadOf s x.th with
    | none => s
    | some t => unitIssue s 0x04 x (fun blk s => duSend s t blk) fun s _ => .wait s)

end Sys2Proof.Machine
end

