-- ==== Sys2Proof/Machine/Tickets.lean ====
section
/-!
DEFINITION. The completion of DMA, unit and lattice tickets (R198, R199, R275, R436).
-/

namespace Sys2Proof.Machine

/-- Whether a ticket is a host transfer's, which ends with the transfer (R293). -/
def hostTicket (s : State) (th : ThreadRef) (n : Nat) : Bool :=
  s.transfers.any fun t =>
    match t.kind with
    | .hmrd h k _ _ _ => h = th && k = n
    | .hmwr h k _ _ _ => h = th && k = n
    | _ => false

/-- Ends a ticket with what its unit did; a unit that still waits leaves the ticket outstanding. -/
def settleUnit (th : ThreadRef) (n : Nat) (o : UnitOut) : State :=
  match o with
  | .done s st c => endTicket s th n st c
  | .wait s => s
  | .gone s => s

/-- The same for the entropy unit: when a DECODE_AU completes its thread stands at a frame boundary (R260, R307). -/
def settleEu (th : ThreadRef) (n func : Nat) (o : UnitOut) : State :=
  match o with
  | .done s st c => if func = 2 then markFrame (endTicket s th n st c) th else endTicket s th n st c
  | .wait s => s
  | .gone s => s

/-- A layer job whose last chunks are claimed finishes (R470). -/
def finishLayer (s : State) (th : ThreadRef) (n blk model : Nat) (need : List Nat) : State :=
  if need.all (claims s ⟨th, n, model, need⟩) then
    let (s, st) := layerWrite s th blk
    let drop (b : LandBuf) : LandBuf := { b with claims := b.claims.filter fun c => c ≠ (th, n) }
    endTicket { s with landing := s.landing.map drop } th n st 0
  else s

/-- TICKET_COMPLETE (R198): the work that waited is done now if it can be, and the ticket completes with its status. -/
def execTicketComplete (th : ThreadRef) (ticket : Nat) (s : State) : Out :=
  .next (
    match (threadOf s th).bind fun t => (t.tickets.find? fun k => k.num = ticket).map fun k => (t, k) with
    | none => s
    | some (t, k) =>
      if !alive s || k.done || hostTicket s th ticket then s
      else match k.deferred with
      | none => endTicket (setSample s t.sample fun y => { y with fail := k.fail }) th ticket k.status k.cause
      | some (.drd h off ts n) =>
        if !bufReady s (thDie th) h off n then s
        else (match drdNow s th h off ts n with
          | (s, some o) => endTicket s th ticket o.1 o.2
          | (s, none) => s)
      | some (.dwr h off ts n) =>
        if !bufOpen s (thDie th) h off n then s
        else (match dwrNow s th h off ts n with
          | (s, false) => endTicket s th ticket 0 0
          | (s, true) => s)
      | some (.dout off ts n) =>
        if !stageOpen s (thDie th) t.sample off n then s
        else (match doutNow s th off ts n with
          | (s, false) => endTicket s th ticket 0 0
          | (s, true) => s)
      | some (.didx first n ts) =>
        (match didxNow s th first n ts with
         | (s, some o) => endTicket s th ticket o.1 o.2
         | (s, none) => s)
      | some (.eu blk seq) => settleEu th ticket (euFunc (tsRead t blk 64)) (euRun s th blk seq)
      | some (.iu blk seq) => settleUnit th ticket (iuRun s th blk seq)
      | some (.tokenise blk u _ seq) => settleUnit th ticket (duRun s th blk u seq)
      | some (.lat kind blk seq) =>
        if latBefore s th seq then s
        else if kind = 3 then lredTaken s t ticket blk
        else (match latRun s th kind blk with
         | .done s => endTicket s th ticket 0 0
         | .range => endTicket s th ticket 5 0
         | .wait => s)
      | some (.layer blk m need) => finishLayer s th ticket blk m need
      | some (.lred _) => s)

end Sys2Proof.Machine
end

