-- ==== Sys2Proof/Machine/Loads.lean ====
section
/-!
DEFINITION. Model and dictionary images: reading, checking, loading and unloading (R458 to R465, R487, R488).
-/

namespace Sys2Proof.Machine

/-! ### Model images (Tables 14.1 and 14.2) -/

def readLayer (l : List Byte) (o : Nat) : Layer :=
  { fmtB := b8 l o, bias := b8 l (o + 1) = 1, func := b16 l (o + 2), n := b16 l (o + 4), k := b16 l (o + 6),
    rowsOff := leAt l (o + 8) 8, rowStride := b32 l (o + 16), biasOff := leAt l (o + 20) 8 }

/-- Part programs, back to back from PROG_OFF. -/
def readParts (l : List Byte) : Nat → List Nat → List (List Byte)
  | _, [] => []
  | o, n :: ns => sliceB l o n :: readParts l (o + n) ns

def partLens (l : List Byte) : List Nat := (List.range 16).map fun p => b32 l (48 + 4 * p)

/-- A model from its image; `ch` is the chunk size in bytes. -/
def readModel (l : List Byte) (uid p id ch : Nat) : Model :=
  let parts := 2 ^ (b8 l 6 % 8)
  { uid := uid, part := p, id := id, imageBytes := l.length, chunkBytes := ch, parts := parts, tsMin := b32 l 12,
    paramMin := b16 l 28, paramMax := b16 l 30, progs := readParts l (b32 l 20) ((partLens l).take parts),
    layers := (List.range (b32 l 8)).map fun i => readLayer l (b32 l 16 + 64 * i),
    weights := sliceB l (leAt l 32 8) (leAt l 40 8), copies := [], wOff := leAt l 32 8, garbled := [] }

/-- Bad offsets of the header of a model image. -/
def modelHeaderBad (l : List Byte) : Bad :=
  let n := l.length
  let lens := partLens l
  let parts := 2 ^ (b8 l 6 % 8)
  let layers := b32 l 8
  let layerEnd := b32 l 16 + 64 * layers
  let progEnd := b32 l 20 + b32 l 24
  let w := leAt l 32 8
  badIf (b32 l 0 ≠ 0x4C444F4D || n < 128) 0 ++ badIf (b8 l 4 ≠ 3) 4 ++ badIf (b8 l 5 ≠ 1) 5 ++ badIf (4 < b8 l 6) 6 ++
  badIf (b8 l 7 ≠ 0) 7 ++ badIf (layers = 0 || 4096 < layers) 8 ++ badIf (b32 l 12 % 256 ≠ 0) 12 ++
  badIf (b32 l 16 % 64 ≠ 0 || b32 l 16 < 128 || w < layerEnd) 16 ++
  badIf (b32 l 20 % 8 ≠ 0 || b32 l 20 < 128 || w < progEnd || (b32 l 20 < layerEnd && b32 l 16 < progEnd)) 20 ++
  badIf (b32 l 24 ≠ lens.foldl (· + ·) 0 || b32 l 24 < 8 || 65536 < b32 l 24) 24 ++ badIf (4096 < b16 l 28) 28 ++
  badIf (b16 l 30 < b16 l 28 || 4096 < b16 l 30) 30 ++ badIf (w % 4096 ≠ 0 || w < 128 || 2 ^ 24 < w) 32 ++
  badIf (leAt l 40 8 = 0 || 2 ^ 34 < leAt l 40 8 || n < w + leAt l 40 8) 40 ++
  (lens.zipIdx.flatMap fun (x, p) => badIf (x % 8 ≠ 0 || (if p < parts then x = 0 else x ≠ 0)) (48 + 4 * p)) ++
  badIf (!zeroBytes l 112 120) 112 ++ badIf (b32 l 120 ≠ crc32c (sliceB l 128 (w - 128))) 120 ++
  badIf (b32 l 124 ≠ crc32c (l.take 124)) 124

/-- Bad offsets of layer record i, at o (Table 14.2, R434, R464). -/
def layerBad (l : List Byte) (ch o : Nat) : Bad :=
  let y := readLayer l o
  let row := rowLen y.fmtB y.k
  let w := leAt l 32 8
  let bytes := ((List.range y.n).flatMap fun r => sliceB l (w + y.rowsOff + r * y.rowStride) row) ++
    (if y.bias then sliceB l (w + y.biasOff) (4 * y.n) else [])
  let rb := roundUp row 4
  badIf (!etypeOk y.fmtB) o ++ badIf (1 < b8 l (o + 1)) (o + 1) ++ badIf (0x0D < y.func) (o + 2) ++
  badIf (y.n = 0 || 4096 < y.n ||
    (if y.n < 64 then ch < 64 + y.n * (rb + 4) else (ch - 64) / (64 * (rb + 4)) = 0)) (o + 4) ++
  badIf (y.k = 0 || 4096 < y.k || (etypePacked y.fmtB && y.k * etypeBits y.fmtB % 8 ≠ 0) ||
    (etypeMx y.fmtB && y.k % 32 ≠ 0)) (o + 6) ++
  badIf (y.rowsOff % 4 ≠ 0 || leAt l 40 8 < y.rowsOff + (y.n - 1) * y.rowStride + row) (o + 8) ++
  badIf (y.rowStride % 4 ≠ 0 || y.rowStride < row) (o + 16) ++
  badIf (if y.bias then y.biasOff % 4 ≠ 0 || leAt l 40 8 < y.biasOff + 4 * y.n else y.biasOff ≠ 0) (o + 20) ++
  badIf (b32 l (o + 28) ≠ crc32c bytes) (o + 28) ++ badIf (!zeroBytes l (o + 32) (o + 64)) (o + 32)

/-- Step 4 of Table 14.3: the offset of the first bad field. -/
def modelBad (l : List Byte) (ch : Nat) : Option Nat :=
  let h := modelHeaderBad l
  if l.length < 128 ∨ 4096 < b32 l 8 then leastOf h
  else leastOf (h ++ (List.range (b32 l 8)).flatMap fun i => layerBad l ch (b32 l 16 + 64 * i))

/-- Step 5: the offset of the first bad instruction word, or of the PART_LEN of a program that is bad as a whole. -/
def partsBad (l : List Byte) (m : Model) : Option Nat :=
  m.progs.zipIdx.findSome? fun (g, p) =>
    (progBad g (List.range 16) true false false m.tsMin m.paramMin).map fun b =>
      match b with
      | some o => b32 l 20 + ((partLens l).take p).foldl (· + ·) 0 + o
      | none => 48 + 4 * p

/-! ### Copies (R33, R462) -/

/-- A fit failure of a load outside any stage (R461). -/
def loadRefused (code short : Nat) : Result := ⟨0x02, 0xFF * 256 + code, short, 0, false⟩

/-- RANGE of a step on an image offset (R461). -/
def imageRange (step o : Nat) : Result := ⟨0x0A, 8, 0, o + 2 ^ 32 * step, false⟩

/-- Step 6 for an object of n stored bytes and a charge: store its copies or say what is short. -/
def fitCopies (s : State) (p charge n : Nat) : Except Result (State × List (Nat × List Nat)) :=
  let pool := poolReserved s p + charge
  if poolQuota s p < pool then .error (loadRefused 6 (pool - poolQuota s p))
  else match storeCopies s p n (diesUp s) with
    | (s, l, none) => .ok (s, l)
    | (_, _, some short) => .error (loadRefused 0x10 short)

/-- Stores model m, of an image of n bytes with `prog` bytes of part programs, where it fits (R461, R462). -/
def keepModel (s : State) (x : Cmd) (n prog : Nat) (m : Model) : State :=
  if 8 ≤ s.models.length then complete s x (loadRefused 0x0E 1)
  else if 212992 < istoreUsed s + prog then complete s x (loadRefused 2 (istoreUsed s + prog - 212992))
  else match fitCopies s x.part (4 * roundUp n 65536) n with
  | .error r => complete s x r
  | .ok (t, cs) =>
    complete { t with models := t.models ++ [{ m with copies := cs }], nextId := t.nextId + 1 } x
      ⟨0, 0, m.id, (chunksOf m).length, false⟩

/-- Steps 2 to 5 of Table 14.3 on an image read: chunks of ch bytes, model_id id. -/
def checkModel (s : State) (x : Cmd) (l : List Byte) (id ch : Nat) : State :=
  if id = 0xFFFF then complete s x (range 0x18)
  else if (modelOf s x.part id).isSome then complete s x denied
  else match modelBad l ch with
  | some o => complete s x (imageRange 4 o)
  | none => match partsBad l (readModel l s.nextId x.part id ch) with
    | some o => complete s x (imageRange 5 o)
    | none => keepModel s x l.length (b32 l 24) (readModel l s.nextId x.part id ch)

/-- Chunk size in bytes of MODEL_LOAD's operand. -/
def chunkSize (x : Cmd) : Nat := 1024 * (if xopBits x 0 63 0 = 0 then 1024 else xopBits x 0 63 0)

/-- MODEL_LOAD (R460 to R464, Table 14.3). -/
def execModelLoad (c : Nat) (s : State) : Out :=
  .next (withHost s c 0x03 fun s x =>
    withImage s x (opBits x 1 34 0) fun s l => checkModel s x l (opBits x 2 15 0) (chunkSize x))

/-- Whether a loaded recipe names a model or dictionary (R172, R465). -/
def namedModel (s : State) (p id : Nat) : Bool :=
  s.recipes.any fun r => r.part = p && r.stages.any fun g => g.model0 = id || g.model1 = id
def namedDict (s : State) (p id : Nat) : Bool := s.recipes.any fun r => r.part = p && r.stages.any fun g => g.dict = id

/-- MODEL_UNLOAD (R465). -/
def execModelUnload (c : Nat) (s : State) : Out :=
  .next (withCmd s c 0x04 fun s x =>
    let id := opBits x 0 15 0
    match modelOf s x.part id with
    | none => complete s x (range 8)
    | some m =>
      if namedModel s x.part id then complete s x denied
      else
        let s := { s with models := s.models.filter fun y => y.uid ≠ m.uid
                          landing := s.landing.filter fun b => b.model ≠ m.uid }
        complete (freeBufs s (m.copies.flatMap (·.2))) x (plain 0))

/-! ### Dictionaries (R487, R488) -/

/-- The n entries of a section that lies from o to fin, with the offset of each, and the offsets of malformed fields (R487):
an entry that the section does not hold, or what follows the last one, counts by its first byte, and no entry is read
behind one whose length is bad. -/
def readEntries (l : List Byte) : Nat → Nat → Nat → List (Nat × List Byte × Nat) × Bad
  | 0, o, fin => ([], badIf (o ≠ fin) o)
  | n + 1, o, fin =>
    let len := b8 l (o + 4)
    let size := roundUp (8 + len) 8
    if fin < o + size then ([], [o])
    else if len = 0 || 64 < len then ([], [o + 4])
    else
      let r := readEntries l n (o + size) fin
      ((o, sliceB l (o + 8) len, b32 l o) :: r.1,
        badIf (!zeroBytes l (o + 5) (o + 8)) (o + 5) ++ badIf (!zeroBytes l (o + 8 + len) (o + size)) (o + 8 + len) ++ r.2)

def idMax : Nat := 0x7F7FFFFF

/-- Bad offsets of a dictionary's header. -/
def dictHeaderBad (l : List Byte) : Bad :=
  let base := b32 l 20
  let sp := [(24, b32 l 24), (28, b32 l 28), (32, b32 l 32), (36, b32 l 36)]
  badIf (b32 l 0 ≠ 0x54434944 || l.length < 64 || 2 ^ 29 < l.length) 0 ++ badIf (b8 l 4 ≠ 3) 4 ++ badIf (b8 l 5 ≠ 1) 5 ++
  badIf (!zeroBytes l 6 8) 6 ++ badIf (b32 l 8 = 0 || 4194304 < b32 l 8) 8 ++
  badIf (b32 l 12 % 64 ≠ 0 || b32 l 12 < 64) 12 ++ badIf (l.length < b32 l 12 + b32 l 16) 16 ++
  badIf (idMax < base + 255) 20 ++
  ((sp.zipIdx).flatMap fun (e, i) =>
    badIf (idMax < e.2 || (base ≤ e.2 && e.2 ≤ base + 255) || (sp.take i).any fun y => y.2 = e.2) e.1) ++
  badIf (!zeroBytes l 40 56) 40 ++ badIf (b32 l 56 ≠ crc32c (sliceB l (b32 l 12) (b32 l 16))) 56 ++
  badIf (b32 l 60 ≠ crc32c (l.take 60)) 60

/-- Bad offsets among a dictionary's entries: an id out of range or met before, or bytes met before. -/
def entriesBad (l : List Byte) (es : List (Nat × List Byte × Nat)) : Bad :=
  let base := b32 l 20
  let sp := [b32 l 24, b32 l 28, b32 l 32, b32 l 36]
  (es.zipIdx).flatMap fun (e, i) =>
    let before := es.take i
    badIf (idMax < e.2.2 || (base ≤ e.2.2 && e.2.2 ≤ base + 255) || sp.contains e.2.2 ||
      before.any fun y => y.2.2 = e.2.2) e.1 ++
    badIf (before.any fun y => y.2.1 = e.2.1) (e.1 + 8)

/-- The offset of the first bad field, or the entries. -/
def dictCheck (l : List Byte) : Except Nat (List (List Byte × Nat)) :=
  let r := if l.length < 64 then ([], []) else readEntries l (b32 l 8) (b32 l 12) (b32 l 12 + b32 l 16)
  match leastOf (dictHeaderBad l ++ r.2 ++ entriesBad l r.1) with
  | some o => .error o
  | none => .ok (r.1.map (·.2))

/-- Stores a dictionary of an image l where it fits (R461, R488). -/
def keepDict (s : State) (x : Cmd) (l : List Byte) (id : Nat) (es : List (List Byte × Nat)) : State :=
  if 16 ≤ s.dicts.length ∨ 8 ≤ (s.dicts.filter (·.part = x.part)).length then complete s x (loadRefused 0x0F 1)
  else match fitCopies s x.part (4 * roundUp (2 * l.length) 65536) (2 * l.length) with
  | .error r => complete s x r
  | .ok (t, cs) =>
    complete { t with dicts := t.dicts ++ [⟨x.part, id, l.length, l.take 64, b32 l 20, b32 l 24, b32 l 28, b32 l 32, b32 l 36,
      es, cs, []⟩] } x (okWith id)

/-- Steps 2 to 4 of DICT_LOAD on an image read. -/
def checkDict (s : State) (x : Cmd) (l : List Byte) (id : Nat) : State :=
  if id = 0xFFFF then complete s x (range 0x18)
  else if (dictOf s x.part id).isSome then complete s x denied
  else match dictCheck l with
  | .error o => complete s x (imageRange 4 o)
  | .ok es => keepDict s x l id es

/-- DICT_LOAD (R488). -/
def execDictLoad (c : Nat) (s : State) : Out :=
  .next (withHost s c 0x05 fun s x =>
    withImage s x (opBits x 1 34 0) fun s l => checkDict s x l (opBits x 2 15 0))

/-- DICT_UNLOAD (R465). -/
def execDictUnload (c : Nat) (s : State) : Out :=
  .next (withCmd s c 0x06 fun s x =>
    let id := opBits x 0 15 0
    match dictOf s x.part id with
    | none => complete s x (range 8)
    | some m =>
      if namedDict s x.part id then complete s x denied
      else
        let s := { s with dicts := s.dicts.filter fun y => !(y.part = x.part && y.id = id) }
        complete (freeBufs s (m.copies.flatMap (·.2))) x (plain 0))

end Sys2Proof.Machine
end

