-- ==== Sys2Proof/Machine/Spills.lean ====
section
/-!
DEFINITION. Activation spill: codecs, stored bytes, SPILL, RESTORE, SPILL_FREE and the rebuild of a lost copy (R559 to
R573).
-/

namespace Sys2Proof.Machine

/-! ### Codecs (R560 to R562) -/

/-- Stored bytes of one page of 16-bit values under a lossless codec (R560). -/
def pageBytes (codec : Nat) (page : List Byte) : Nat :=
  let n := page.length / 2
  let vs := ((List.range n).map fun i => leAt page (2 * i) 2).filter (· ≠ 0)
  let m := vs.length
  if m = 0 then 0
  else
    let e (v : Nat) : Nat := if codec = 1 then bits v 14 7 else bits v 14 10
    let hi := (vs.map e).foldl Nat.max 0
    let lo := (vs.map e).foldl Nat.min hi
    let w := if hi = lo then 0 else log2Up (hi - lo + 1)
    let lb := if codec = 1 then 8 else 11
    let p := roundUp (16 + ceilDiv n 8 + ceilDiv (m * (lb + w)) 8) 64
    if p < 2 * n then p else 2 * n

/-- Stored bytes of one copy of a range (Table 16.5). -/
def storedBytes (codec : Nat) (l : List Byte) : Nat :=
  if codec = 1 ∨ codec = 2 then
    let ps := chunksBy 4096 l
    64 + ceilDiv ps.length 64 * 64 + (ps.map (pageBytes codec)).foldl (· + ·) 0
  else spillWorst codec l.length

/-- The 8 bits of stochastic rounding of value i of a SPILL from address a (R561). -/
def spillBits (a i : Nat) : Nat := fieldOf (fun k => cbg (counter 0 (bits a 45 6) (bits a 61 46) 0x07 k) 0) 0 8 i

/-- One block of 32 BF16 values through MXFP8 and back (R561, R562); `i0` is its first index. -/
def lossyBlock (a : Nat) (nearest : Bool) (i0 : Nat) (blk : List Byte) : List Byte :=
  let xs := (List.range (blk.length / 2)).map fun i => elemValue 5 (leAt blk (2 * i) 2)
  let r := mxBlock 0x0A (if nearest then 0 else 2) (fun i => spillBits a (i0 + i)) xs
  r.2.flatMap fun y => toLe 2 (convertTo 5 0 true 0 (scaled r.1 (elemValue 0x0A y)))

/-- What RESTORE returns for a spilled range. -/
def spilled (codec a : Nat) (nearest : Bool) (l : List Byte) : List Byte :=
  if codec = 3 then (chunksBy 64 l).zipIdx.flatMap fun (b, k) => lossyBlock a nearest (32 * k) b else l

/-! ### Handles (R566, R569) -/

def spillHandle (x : Spill) : Nat :=
  x.part + x.codec * 2 ^ 4 + (if x.mirror then 2 ^ 7 else 0) + x.slot * 2 ^ 20 + x.gen * 2 ^ 40

def namedSpill (s : State) (x : Cmd) (h : Nat) : Option Spill :=
  s.spills.find? fun y => y.part = x.part && spillHandle y = h && stillNames s x 0x52 h y.dying

/-- The next generation of a slot: modulo 2^24, skipping 0. -/
def nextGen (g : Nat) : Nat := if (g + 1) % 2 ^ 24 = 0 then 1 else (g + 1) % 2 ^ 24

def setSpill (s : State) (x : Spill) (f : Spill → Spill) : State :=
  { s with spills := updIf (fun y => y.slot = x.slot && y.gen = x.gen) f s.spills }

/-! ### SPILL -/

/-- Reserves the copies of a SPILL of n worst-case bytes; the number of those that found a die comes with them. -/
def reserveCopies (s : State) (p n : Nat) : Nat → List (Nat × List Nat) → State × List (Nat × List Nat)
  | 0, l => (s, l)
  | k + 1, l =>
    match placeCopy s p n (l.map (·.1)) with
    | some (t, d, hs) => reserveCopies t p n k (l ++ [(d, hs)])
    | none => (s, l)

/-- SPILLs under way, which each take a handle. -/
def spillsRunning (s : State) : List Transfer := s.transfers.filter fun t => t.kind = .spill

/-- A failure of Table 16.6. -/
def spillRefused (code short : Nat) : Result := ⟨0x02, 0xFF * 256 + code, short, 0, false⟩

/-- SPILL (R559, R563 to R565, Table 16.6): its checks and reservation. -/
def execSpill (c : Nat) (s : State) : Out :=
  .next (withCmd s c 0x50 fun s x =>
    let a := op64 x 0
    let n := opBits x 1 39 0
    let copies := 1 + opBits x 2 8 8
    let worst := spillWorst (opBits x 2 3 0) n
    let total := spillCharge s x.part + roundUp worst 4096 * copies
    let quota := fld s (partBase x.part + 0x20) 19 0 * 2 ^ 20
    let run := spillsRunning s
    if 2 ^ 64 < a + n then complete s x (range 0x10)
    else if quota < total then complete s x (spillRefused 0x11 (ceilDiv (total - quota) (2 ^ 20)))
    else if 65536 ≤ ((s.spills.filter (·.part = x.part)).length + (run.filter (·.part = x.part)).length) ∨
        262144 ≤ s.spills.length + run.length then complete s x (spillRefused 0x12 1)
    else
      let (t, l) := reserveCopies s x.part worst copies []
      if l.length < copies then complete s x (spillRefused 0x13 (spillLack t worst (l.map (·.1))))
      else
        let (i, t) := fresh t
        startCmd { t with transfers := t.transfers ++ [{ newTransfer i x.part c .spill n with bufs := l }] } c)

/-- The buffers of a reservation that n stored bytes fill, and the rest (R564). -/
def splitBufs (s : State) : Nat → List Nat → List Nat × List Nat
  | _, [] => ([], [])
  | n, h :: hs =>
    if n = 0 then ([], h :: hs)
    else
      let (a, b) := splitBufs s (n - ((bufOf s h).map bufSize).getD 0) hs
      (h :: a, b)

/-- A copy of n stored bytes takes the buffers of an object of that size, out of its reservation; where the die lacks room for
the smaller ones it keeps the first of those reserved (R552, R564, log entry 66). -/
def shrinkCopy (s : State) (p n d : Nat) (hs : List Nat) : State × List Nat :=
  match allocObject (freeBufs s hs) p .spill d n with
  | some r => r
  | none =>
    let (a, b) := splitBufs s n hs
    (freeBufs s b, a)

/-- The same for each copy, whose lines are then written. -/
def shrinkCopies (s : State) (p n : Nat) : List (Nat × List Nat) → State × List SpillCopy
  | [] => (s, [])
  | b :: l =>
    let (s, hs) := shrinkCopy s p n b.1 b.2
    let (s, cs) := shrinkCopies (markWritten s n hs) p n l
    (s, ⟨b.1, hs, false⟩ :: cs)

/-- A SPILL ends with every copy written (R567). -/
def endSpill (s : State) (t : Transfer) (x : Cmd) (l : List Byte) : State :=
  let codec := opBits x 2 3 0
  let n := storedBytes codec l
  let s := { s with transfers := s.transfers.filter fun y => y.id ≠ t.id }
  match firstFrom (fun i => !s.spills.any fun y => y.slot = i) 262144 0 with
  | none => s
  | some slot =>
    let g := nextGen (look (fun _ => 0) s.spillGens slot)
    let (s, cs) := shrinkCopies s x.part n t.bufs
    let y : Spill :=
      { part := x.part, slot := slot, gen := g, codec := codec, mirror := opBits x 2 8 8 = 1, bytes := l.length,
        stored := n, data := spilled codec (op64 x 0) (xopBits x 0 0 0 = 1) l,
        copies := cs, lostDie := none, dying := none }
    let s := cs.foldl (fun s c => crossed s (portOf s t.part / 2) c.die n) s
    let s := { s with spills := s.spills ++ [y], spillGens := put (fun _ => 0) slot g s.spillGens }
    engineBytes (complete s x ⟨0, 0, spillHandle y, n, false⟩) t (l.length, n * cs.length)

/-- What is left of a SPILL's range is read; at an unresolvable fault nothing is kept. -/
def runSpill (s : State) (t : Transfer) (x : Cmd) : State :=
  match readIn s t (cmdKey s x (op64 x 0)) (opBits x 1 39 0) with
  | (s, .ok l) => endSpill s t x l
  | (s, .error e) =>
    let s := freeBufs { s with transfers := s.transfers.filter fun y => y.id ≠ t.id } (t.bufs.flatMap (·.2))
    engineBytes (complete s x (partialR e)) t (e, 0)

/-! ### RESTORE -/

/-- The copy that RESTORE reads: the first that is not being rebuilt. One with an uncorrectable line is lost as with its
die (Table 16.1). -/
def spillSource : Nat → State → Nat → Nat → State × Option Spill
  | 0, s, _, _ => (s, none)
  | k + 1, s, slot, gen =>
    match s.spills.find? fun y => y.slot = slot && y.gen = gen with
    | none => (s, none)
    | some y =>
      match y.copies.find? fun c => !c.rebuilding with
      | none => (s, none)
      | some c =>
        let (s, bad) := c.bufs.foldl (fun (a : State × Bool) h =>
          if a.2 then a else readLines a.1 h 0 (((bufOf a.1 h).map bufSize).getD 0)) (s, false)
        if bad then spillSource k (loseSpillCopy s y c.die) slot gen else (s, some y)

/-- SPILL_LOST: the die whose loss took the last copy, and the handle (Table 16.8). -/
def spillLost (x : Cmd) (y : Spill) : Result := ⟨0x0B, y.lostDie.getD 0, (op64 x 0), 0, false⟩

/-- RESTORE (R568 to R571). -/
def execRestore (c : Nat) (s : State) : Out :=
  .next (withCmd s c 0x51 fun s x =>
    match namedSpill s x (op64 x 0) with
    | none => complete s x (range 8)
    | some y =>
      if opBits x 2 39 0 ≠ y.bytes then complete s x (range 0x18)
      else if y.copies.isEmpty then complete s x (spillLost x y)
      else
        let (i, s) := fresh s
        startCmd { s with transfers := s.transfers ++
          [newTransfer i x.part c .restore y.bytes] } c)

/-- What is left of a RESTORE is written. -/
def runRestore (s : State) (t : Transfer) (x : Cmd) : State :=
  let drop (s : State) : State := { s with transfers := s.transfers.filter fun y => y.id ≠ t.id }
  match namedSpill s x (op64 x 0) with
  | none => complete (drop s) x (range 8)
  | some y =>
    match spillSource 2 s y.slot y.gen with
    | (s, none) =>
      let y := (s.spills.find? fun z => z.slot = y.slot && z.gen = y.gen).getD y
      complete (drop s) x (spillLost x y)
    | (s, some y) =>
      let s := ((y.copies.find? fun c => !c.rebuilding).map (·.die)).elim s fun d => crossed s d (portOf s t.part / 2) y.stored
      match writeOut s t (cmdKey s x (op64 x 1)) y.data with
      | (s, none) => engineBytes (complete (drop s) x (plain 0)) t (y.stored, y.data.length)
      | (s, some e) => engineBytes (complete (drop s) x (partialR e)) t (y.stored, e)

/-- Writes requests 0 to n - 1 of a RESTORE and those in `extra`. -/
def restoreSome (s : State) (t : Transfer) (x : Cmd) (n : Nat) (extra : List Nat) : State :=
  match namedSpill s x (op64 x 0) with
  | some y =>
    let key := cmdKey s x (op64 x 1)
    ((pieces key y.data.length).filter fun r => !reqDone t r && (r.num < n || extra.contains r.num)).foldl
      (fun s r => if pieceBad key s r.load then s else pieceWrite t.part key y.data s r.load) s
  | none => s

/-! ### SPILL_FREE and rebuilds -/

/-- SPILL_FREE (R569): the handle is invalid for every command taken from now on. -/
def execSpillFree (c : Nat) (s : State) : Out :=
  .next (withCmd s c 0x52 fun s x =>
    match namedSpill s x (op64 x 0) with
    | none => complete s x (range 8)
    | some y => startCmd (setSpill s y fun z => { z with dying := some x.id }) c)

/-- SPILL_FREE_DRAINED (R569): the charge returns, and the copies go once the writes that read them are retired (R46). -/
def execSpillFreeDrained (c : Nat) (s : State) : Out :=
  .next (withStarted s c 0x52 fun s x =>
    let h := op64 x 0
    let mine (y : Spill) : Bool := y.part = x.part && spillHandle y = h
    if s.cmds.any fun y => y.part = x.part && y.id < x.id && [0x51, 0x52].contains y.opcode && op64 y 0 = h then s
    else
      let hs := (s.spills.filter mine).flatMap fun y => y.copies.flatMap (·.bufs)
      complete (freeAfter { s with spills := s.spills.filter fun y => !mine y } x.part hs) x (plain 0))

/-- SPILL_COPY_REBUILD_END (R570): the handle is mirrored again. -/
def execSpillCopyRebuildEnd (slot : Nat) (s : State) : Out :=
  .next (if !alive s then s
    else match s.spills.find? fun y => y.slot = slot && y.copies.any (·.rebuilding) with
    | none => s
    | some y =>
      let s := ((y.copies.filter (·.rebuilding)).flatMap (·.bufs)).foldl (fun s h =>
        markWritten s (((bufOf s h).map bufSize).getD 0) [h]) s
      setSpill s y fun z => { z with copies := z.copies.map fun c => { c with rebuilding := false } })

/-- Handles left single are mirrored again where a die can hold the copy (R570). -/
def remirror (s : State) : State :=
  (s.spills.filter fun y => y.mirror && y.copies.length = 1).foldl (fun s y =>
    match placeCopy s y.part y.stored (y.copies.map (·.die)) with
    | some (s, d, hs) => setSpill s y fun z => { z with copies := z.copies ++ [⟨d, hs, true⟩] }
    | none => s) s

end Sys2Proof.Machine
end

