-- ==== Sys2Proof/Machine/Transfers.lean ====
section
/-!
DEFINITION. Transfers at the host ports: completion, translation faults, invalidations, retirement, link changes and
request timeouts (R42 to R51, R293 to R298, R613, R664, R665).
-/

namespace Sys2Proof.Machine

def transferOf (s : State) (n : Nat) : Option Transfer := s.transfers.find? fun t => t.id = n

def dropTransfer (s : State) (t : Transfer) : State := { s with transfers := s.transfers.filter fun y => y.id ≠ t.id }

def setTransfer (s : State) (n : Nat) (f : Transfer → Transfer) : State :=
  { s with transfers := updIf (fun t => t.id = n) f s.transfers }

/-! ### Completion -/

/-- A copy command's elements have moved, or it ends at an unresolvable fault (R296). -/
def runCopyCmd (s : State) (t : Transfer) (x : Cmd) : State :=
  match runCopy s t x with
  | (u, none) => engineBytes (complete (dropTransfer u t) x (plain 0)) t (copyMoved s t x t.elements)
  | (u, some e) => engineBytes (complete (dropTransfer u t) x (partialR e)) t (copyMoved s t x e)

/-- The bytes of a thread's host read reach its data region (R236); after a PARTIAL those below E stay. -/
def runHostRead (s : State) (t : Transfer) (th : ThreadRef) (ticket ts addr n : Nat) : State :=
  let key := hostKey pf0Space addr
  match readIn s t key n with
  | (s, .ok l) => endTicket (spaceWrite (dropTransfer s t) th ts l) th ticket 0 0
  | (s, .error e) => endTicket (spaceWrite (dropTransfer s t) th ts ((gathered s key n t.got).take e)) th ticket 4 0

/-- A thread's host write. -/
def runHostWrite (s : State) (t : Transfer) (th : ThreadRef) (ticket ts addr n : Nat) : State :=
  match threadOf s th with
  | none => dropTransfer s t
  | some y =>
    match writeOut s t (hostKey pf0Space addr) (spaceRead s y ts n) with
    | (s, none) => endTicket (dropTransfer s t) th ticket 0 0
    | (s, some _) => endTicket (dropTransfer s t) th ticket 4 0

/-- What is left of a transfer moves, and its owner completes. -/
def runTransfer (s : State) (t : Transfer) : State :=
  match t.kind, cmdOf s t.cmd with
  | .place q pos _, _ => endPlacement s q pos true
  | .hmrd th k ts a n, _ => runHostRead s t th k ts a n
  | .hmwr th k ts a n, _ => runHostWrite s t th k ts a n
  | .spill, some x => runSpill s t x
  | .restore, some x => runRestore s t x
  | .copy _, some x => runCopyCmd s t x
  | .copyLayout, some x => runCopyCmd s t x
  | .gather _, some x => runCopyCmd s t x
  | .scatter _, some x => runCopyCmd s t x
  | _, none => dropTransfer s t

/-- Whether block memory that a transfer reads or writes lies behind a paused memory port, or behind a route that
changes, between its die and that of the partition's port (R14, R64). -/
def memoryHeld (s : State) (t : Transfer) : Bool :=
  let port := portOf s t.part / 2
  match t.kind, cmdOf s t.cmd with
  | .place q pos _, _ => placeHeld s t q pos
  | .spill, _ => t.bufs.any fun b => objectPaused s true 0 t.elements b.2 || routeHeld s port b.1
  | .restore, some x => (namedSpill s x (op64 x 0)).any fun y => (y.copies.find? fun c => !c.rebuilding).any fun c =>
      objectPaused s false 0 y.stored c.bufs || routeHeld s c.die port
  | _, _ => false

/-- Whether a transfer has its tags on its port: the reads begun before it leave room among the 4,096 (R37). One that has
none waits in its engine. -/
def hasTags (s : State) (t : Transfer) : Bool :=
  let port := portOf s t.part
  hostFetches s port + tagsOf s port (s.transfers.takeWhile fun y => y.id ≠ t.id) + readTags s t ≤ 4096

/-- Whether a transfer could end now. -/
def transferReady (s : State) (t : Transfer) : Bool :=
  !t.halted && canSend s t.part && hasTags s t && !memoryHeld s t

/-- The tile DMA engines that serve a copy, SPILL or RESTORE command, as a server of R585: those of the die of its partition's
primary port (R419, R574). -/
def engineOf (s : State) (t : Transfer) : Option Nat :=
  match t.kind with
  | .place _ _ _ => none
  | .hmrd _ _ _ _ _ => none
  | .hmwr _ _ _ _ _ => none
  | _ => some (8 + primaryPort s t.part / 2)

/-- Whether the engines come to a command next: none of its partition that was issued before it and none of a partition whose
turn comes before could end now (R585; DESIGN CHOICE, log entry 70). -/
def engineTurn (s : State) (t : Transfer) : Bool :=
  match engineOf s t with
  | none => true
  | some u =>
    (s.transfers.takeWhile fun y => y.id ≠ t.id).all (fun y => y.part ≠ t.part || engineOf s y ≠ some u || !transferReady s y) &&
    s.transfers.all fun y => y.part = t.part || engineOf s y ≠ some u || turnBefore s u t.part y.part || !transferReady s y

/-- Input bytes of a copy, SPILL or RESTORE command. -/
def inputBytes (s : State) (t : Transfer) : Nat :=
  match t.kind, cmdOf s t.cmd with
  | .spill, _ => t.elements
  | .restore, _ => t.elements
  | _, some x => (copyMoved s t x t.elements).1
  | _, none => 0

/-- Counts a command that its engines have served. -/
def countEngine (s : State) (t : Transfer) : State :=
  match engineOf s t with
  | none => s
  | some u =>
    countTurn s u t.part (inputBytes s t) ((s.transfers.filter fun y => y.id ≠ t.id && engineOf s y = some u).map (·.part)).eraseDups

/-- TRANSFER_COMPLETE (R293): the last request of a transfer that is not halted has completed. -/
def execTransferComplete (x : Nat) (s : State) : Out :=
  .next (match transferOf s x with
    | some t => if alive s && transferReady s t && engineTurn s t then runTransfer (countEngine s t) t else s
    | none => s)

/-! ### Translation faults (R42, R43, R294 to R298) -/

/-- The first element of request r of a transfer. -/
def reqFirst (s : State) (t : Transfer) (r : Nat) : Option Nat :=
  let byte (addr : Nat) : Option Nat := ((pieces addr t.elements).find? fun y => y.num = r).map (·.first)
  match t.kind, cmdOf s t.cmd with
  | .place q pos _, _ =>
    match epochOf s q, sampleAt s q pos with
    | some e, some x => byte (slotKey e (x.placed.getD 0))
    | _, _ => none
  | .hmrd _ _ _ a _, _ => byte a
  | .hmwr _ _ _ a _, _ => byte a
  | .spill, some x => byte (op64 x 0)
  | .restore, some x => byte (op64 x 1)
  | k, some x => (copyEnds s x).bind fun (f, d) => ((copyReqs k f d).find? fun y => y.num = r).map (·.first)
  | _, none => none

/-- The address key from which a transfer reads host memory as bytes; none for the others. -/
def readKey (s : State) (t : Transfer) : Option Nat :=
  match t.kind, cmdOf s t.cmd with
  | .hmrd _ _ _ a _, _ => some (hostKey pf0Space a)
  | .spill, some x => some (cmdKey s x (op64 x 0))
  | _, _ => none

/-- Requests 0 to n - 1 and those in `extra` complete. What reads have brought is kept until the transfer ends (R295). -/
def moveSome (s : State) (t : Transfer) (n : Nat) (extra : List Nat) : State :=
  match t.kind, cmdOf s t.cmd with
  | .place q pos _, _ => placeSome s t q pos n extra
  | .hmwr th _ ts a len, _ =>
    match threadOf s th with
    | none => s
    | some y =>
      let key := hostKey pf0Space a
      ((pieces key len).filter fun r => !reqDone t r && (r.num < n || extra.contains r.num)).foldl
        (fun s r => if pieceBad key s r.load then s else pieceWrite t.part key (spaceRead s y ts len) s r.load) s
  | .hmrd _ _ _ _ _, _ | .spill, _ =>
    (match readKey s t with
    | some key => setTransfer s t.id fun y => { y with got := gather s key t.elements n extra t.got }
    | none => s)
  | .restore, some x => restoreSome s t x n extra
  | _, some x => copySome s t x n extra
  | _, none => s

/-- An unresolvable fault ends a transfer at element E (R296). -/
def endUnresolved (s : State) (t : Transfer) (e : Nat) : State :=
  match t.kind, cmdOf s t.cmd with
  | .place q pos _, _ => endPlacement s q pos false
  | .hmrd th k ts a _, _ =>
    endTicket (spaceWrite (dropTransfer s t) th ts ((gathered s (hostKey pf0Space a) t.elements t.got).take e)) th k 4 0
  | .hmwr th k _ _ _, _ => endTicket (dropTransfer s t) th k 4 0
  | k, some x =>
    let n := match k with
      | .spill => (e, 0)
      | .restore => (e, e)
      | _ => copyMoved s t x e
    engineBytes (complete (freeBufs (dropTransfer s t) (t.bufs.flatMap (·.2))) x (partialR e)) t n
  | _, none => dropTransfer s t

/-- Faults of a page, with one more. -/
def countFault (l : List (Nat × Nat)) (page : Nat) : List (Nat × Nat) :=
  if l.any fun f => f.1 = page then updIf (fun f => f.1 = page) (fun f => (f.1, f.2 + 1)) l else l ++ [(page, 1)]

/-- Whether a page has faulted for the ninth time (R296). -/
def ninth (l : List (Nat × Nat)) (page : Nat) : Bool := l.any fun f => f.1 = page && 9 ≤ f.2

/-- MASK of the requests after request r that are done (R294). -/
def maskWord (done : List Nat) (r : Nat) : DWord :=
  BitVec.ofNat 64 (((List.range 64).filter fun i => done.contains (r + 1 + i)).foldl (fun a i => a + 2 ^ i) 0)

/-- A translation without the needed permission for request `a.req` of a transfer. -/
def faultTransfer (s : State) (t : Transfer) (a : AtsAnswer) : State :=
  match reqFirst s t a.req with
  | none => s
  | some e =>
    let lane := (cmdOf s t.cmd).any fun x => (copyEnds s x).any fun (f, d) => oneLane t.kind x f d
    let late := if lane then [] else a.done.filter fun d => a.req < d && d ≤ a.req + 64
    if e < t.moved || t.extra.contains (a.req, 0) then s
    else
      let s := moveSome s t a.req late
      let extra := t.extra ++ (late.filter fun d => !t.extra.contains (d, 0)).map ((·, 0))
      let faults := countFault t.faults a.page
      let s := setTransfer s t.id fun y =>
        { y with moved := e, extra := extra, mask := maskWord (extra.map (·.1)) a.req, faults := faults, page := a.page }
      match transferOf s t.id with
      | none => s
      | some y =>
        if a.pri && !ninth faults a.page then setTransfer s t.id fun y => { y with halted := true }
        else endUnresolved s y e

/-- The same for a fetch of a host range, whose requests up to the one that faults have completed; a halted fetch's timer
stands (R290). -/
def faultFetch (s : State) (f : Fetch) (a : AtsAnswer) : State :=
  match fetchKey s f with
  | none => s
  | some key =>
    match (pieces key f.len).find? fun r => r.num = a.req with
    | none => s
    | some r =>
      if f.got.any (·.1 = a.req) then s
      else
        let faults := countFault f.faults a.page
        let late := a.done.filter fun d => a.req < d && d ≤ a.req + 64
        let got := gather s key f.len a.req late f.got
        let s := setFetch s f.id fun g =>
          { g with moved := r.first, mask := maskWord (got.map (·.1)) a.req, got := got, faults := faults }
        if a.pri && !ninth faults a.page then setFetch s f.id fun g => { g with halted := true }
        else fetchEnds s f (.hostFault r.first)

/-! A command's own reads before its work begins (an image, a table, a record, a list) are known at the port by 2^32 plus
the command's number. -/

/-- The parts of a substitution log that a resumed cursor names, as address ranges of its ring (Table 15.9). -/
def logSpans (s : State) (key : Nat) : List (Nat × Nat) :=
  let k := hostBytes s key 128
  if faulty s key 128 || leAt k 0 4 ≠ 0x52535543 || leAt k 124 4 ≠ crc32c (k.take 124) then []
  else
    let size := 2 ^ leAt k 56 1
    let n := Nat.min size (leAt k 64 8 - leAt k 72 8)
    let i := leAt k 72 8 % size
    let head := Nat.min n (size - i)
    [(leAt k 48 8 + 64 * i, 64 * head), (leAt k 48 8, 64 * (n - head))]

/-- The host address ranges that a command reads before its work begins, in the order of its reads. -/
def ownSpans (s : State) (x : Cmd) : List (Nat × Nat) :=
  let table : Nat × Nat := (op64 x 4, 64 + 32 * Nat.min 256 (leAt (hostBytes s (cmdKey s x (op64 x 4)) 64) 4 2))
  if x.opcode ∈ [0x01, 0x08] then [(op64 x 0, opBits x 1 31 0)]
  else if x.opcode ∈ [0x03, 0x05] then [(op64 x 0, opBits x 1 34 0)]
  else if x.opcode = 0x40 then [(op64 x 0, 128)]
  else if x.opcode = 0x07 then ((recipeOf s x.part (opBits x 0 31 0)).map fun r => (r.calTable, 16 * r.calN)).toList
  else if x.opcode = 0x10 then [table]
  else if x.opcode = 0x11 then table :: (op64 x 0, 128) :: logSpans s (cmdKey s x (op64 x 0))
  else if x.opcode = 0x30 then [(op64 x 1, 64 + 8 * opBits x 2 23 0)]
  else if x.opcode = 0x42 then [(op64 x 2, 160 * opBits x 3 15 0)]
  else if x.opcode ∈ [0x44, 0x45] then [(op64 x 2, 64 + 48 * opBits x 3 23 0)]
  else []

/-- What is held of a command's reads. -/
def haltOf (s : State) (c : Nat) : ReadHalt := (s.readHalts.find? fun h => h.cmd = c).getD ⟨c, false, 0, 0, [], []⟩

/-- Whether a command has come to its reads: EPOCH_OPEN and EPOCH_RESUME have steps before theirs (Table 15.3). -/
def comesToRead (s : State) (x : Cmd) : Bool :=
  if x.opcode = 0x10 then !queueTaken s x.q x.id && qDrEn s x.q && (recipeOf s x.part (opBits x 0 31 0)).isSome
  else if x.opcode = 0x11 then !queueTaken s x.q x.id && qDrEn s x.q
  else true

/-- The command that has not begun its work and whose reads the port knows by this number. -/
def readerOf (s : State) (n : Nat) : Option Cmd :=
  (cmdOf s (n - 2 ^ 32)).filter fun x => 2 ^ 32 ≤ n && !x.started && mayStart s x && comesToRead s x && !(ownSpans s x).isEmpty

def setHalt (s : State) (h : ReadHalt) : State :=
  { s with readHalts := (s.readHalts.filter fun y => y.cmd ≠ h.cmd) ++ [h] }

/-- A command's read ends at an unresolvable fault of span k: it loads nothing, and completes PARTIAL with the bytes before
it (R296), which for a list of a copy command are no elements, or RANGE where a resume's log does not read (Table 15.9). -/
def endRead (s : State) (x : Cmd) (k e : Nat) : State :=
  complete { s with readHalts := s.readHalts.filter fun y => y.cmd ≠ x.id } x
    (if x.opcode = 0x11 ∧ 2 ≤ k then ⟨0x0A, 8, 0, 5, false⟩ else partialR (if x.opcode ∈ [0x42, 0x44, 0x45] then 0 else e))

/-- The request of a command's reads for a page: its span's number, the span and the request. -/
def ownRequest (s : State) (x : Cmd) (page : Nat) : Option (Nat × (Nat × Nat) × Req (Nat × Nat)) :=
  (ownSpans s x).zipIdx.findSome? fun (sp, k) =>
    ((pieces sp.1 sp.2).find? fun r => (sp.1 + r.load.1) / 4096 = page).map fun r => (k, sp, r)

/-- What the requests of a range that satisfy `done` bring. -/
def bringSpan (s : State) (x : Cmd) (sp : Nat × Nat) (done : Nat → Bool) : List (Nat × List Byte) :=
  let key := cmdKey s x sp.1
  ((pieces sp.1 sp.2).filter fun r => done r.num && !pieceBad key s r.load).map fun r =>
    (key + r.load.1, hostBytes s (key + r.load.1) (r.load.2 - r.load.1))

/-- A translation without the needed permission for a page of a command's own reads: the reads before it and the requests
behind it that complete are kept (R294, R295). -/
def faultRead (s : State) (x : Cmd) (a : AtsAnswer) : State :=
  let h := haltOf s x.id
  let u := withBrought s h
  match ownRequest u x a.page with
  | none => s
  | some (k, sp, r) =>
    let key := cmdKey s x sp.1
    if (broughtAt u (key + r.load.1)).isSome then s
    else
      let late := a.done.filter fun d => r.num < d && d ≤ r.num + 64
      let got := ((ownSpans u x).take k).flatMap (fun y => bringSpan u x y fun _ => true) ++
        bringSpan u x sp fun n => n < r.num || late.contains n
      let got := h.got ++ got.filter fun g => !h.got.any (·.1 = g.1)
      let done := ((pieces sp.1 sp.2).filter fun y => got.any (·.1 = key + y.load.1)).map (·.num)
      let faults := countFault h.faults a.page
      if a.pri && !ninth faults a.page then setHalt s ⟨x.id, true, r.first, maskWord done r.num, got, faults⟩
      else endRead s x k r.first

/-- ATS_TRANSLATION_COMPLETION (R42, R43). -/
def execAtsTranslationCompletion (x : Nat) (a : AtsAnswer) (s : State) : Out :=
  .next (if !alive s || a.granted then s
    else match transferOf s x, fetchOf s x with
    | some t, _ => if t.halted || !canSend s t.part then s else faultTransfer s t a
    | none, some f => if f.halted || f.drive.isSome || !canSend s f.part then s else faultFetch s f a
    | none, none =>
      match readerOf s x with
      | some c => if readHalted s c.id || !canSend s c.part then s else faultRead s c a
      | none => s)

/-- The number of the span in which a command's read is halted. -/
def haltSpan (s : State) (x : Cmd) : Nat :=
  let h := haltOf s x.id
  let u := withBrought s h
  let whole (sp : Nat × Nat) : Bool := (pieces sp.1 sp.2).all fun r => (broughtAt u (cmdKey s x sp.1 + r.load.1)).isSome
  ((ownSpans u x).takeWhile whole).length

/-- The page request of a halted transfer or fetch has been answered: it resumes, or the fault is unresolvable. -/
def pageAnswer (s : State) (x : Nat) (ok : Bool) : State :=
  match transferOf s x, fetchOf s x with
  | some t, _ =>
    if !t.halted || !canSend s t.part then s
    else if ok then setTransfer s x fun y => { y with halted := false }
    else endUnresolved s t t.moved
  | none, some f =>
    if !f.halted || !canSend s f.part then s
    else if ok then setFetch s f.id fun g => { g with halted := false }
    else fetchEnds s f (.hostFault f.moved)
  | none, none =>
    match readerOf s x with
    | some c =>
      if !readHalted s c.id || !canSend s c.part then s
      else if ok then setHalt s { haltOf s c.id with halted := false }
      else endRead s c (haltSpan s c) (haltOf s c.id).moved
    | none => s

/-- PAGE_REQUEST_RESPONSE (R43, R295). -/
def execPageRequestResponse (x : Nat) (ok : Bool) (s : State) : Out := .next (if alive s then pageAnswer s x ok else s)

/-- PAGE_REQUEST_TIMEOUT (R296): 500 ms after the page request was issued. -/
def execPageRequestTimeout (x : Nat) (s : State) : Out := .next (if alive s then pageAnswer s x false else s)

/-! ### Invalidations (R44, R298) -/

/-- Bytes of host memory that a transfer's requests touch, from the first up to the last. -/
def spanOf (s : State) (t : Transfer) : List (Nat × Nat) :=
  let desc (d : Desc) : Nat × Nat := (d.lo.toNat, d.hi.toNat)
  match t.kind, cmdOf s t.cmd with
  | .place q pos _, _ =>
    match epochOf s q, sampleAt s q pos with
    | some e, some x => let a := slotKey e (x.placed.getD 0) % 2 ^ 64; [(a, a + t.elements)]
    | _, _ => []
  | .hmrd _ _ _ a n, _ => [(a, a + n)]
  | .hmwr _ _ _ a n, _ => [(a, a + n)]
  | .spill, some x => [(op64 x 0, op64 x 0 + t.elements)]
  | .restore, some x => [(op64 x 1, op64 x 1 + t.elements)]
  | _, some x => (match copyEnds s x with | some (f, d) => [desc f.desc, desc d.desc] | none => [])
  | _, none => []

def fetchSpan (s : State) (f : Fetch) : List (Nat × Nat) :=
  match kindOf s f.part f.src with
  | some (.host base _ _) => [(base + f.off, base + f.off + f.len)]
  | _ => []

/-- Whether byte ranges touch pages lo to hi. -/
def touches (l : List (Nat × Nat)) (lo hi : Nat) : Bool := l.any fun r => r.1 < (hi + 1) * 4096 && lo * 4096 < r.2

/-- Transfers and fetches of a function that have requests issued on a port for pages lo to hi. -/
def issuedOn (s : State) (p port lo hi : Nat) : List Nat :=
  if portOf s p ≠ port then []
  else
    ((s.transfers.filter fun t => t.part = p && !t.halted && touches (spanOf s t) lo hi).map (·.id)) ++
    ((s.fetches.filter fun f => f.part = p && !f.halted && !f.ended && touches (fetchSpan s f) lo hi).map (·.id))

/-- ATS_INVALIDATION (R44, R298): transfers of the function halted on that port, one of whose pages it covers, resume with
fresh translations. -/
def execAtsInvalidation (fn : Fin 16) (port : Fin 8) (lo hi : Nat) (s : State) : Out :=
  .next (if !alive s || !s.hpUp.getLsbD port then s
    else
      let (n, s) := fresh s
      let i : Invalidation := ⟨n, port, fn, lo, hi, issuedOn s fn port lo hi⟩
      let here (p : Nat) : Bool := p = fn.val && portOf s p = port.val
      let mine (t : Transfer) : Bool := here t.part && t.halted && touches (spanOf s t) lo hi
      let mineF (f : Fetch) : Bool := here f.part && f.halted && touches (fetchSpan s f) lo hi
      let mineR (h : ReadHalt) : Bool := h.halted && s.cmds.any fun x => x.id = h.cmd && here x.part &&
        touches ((ownSpans (withBrought s h) x).map fun r => (r.1, r.1 + r.2)) lo hi
      { s with
        readHalts := updIf mineR (fun h => { h with halted := false }) s.readHalts
        invs := s.invs ++ [i]
        transfers := updIf mine (fun t => { t with halted := false }) s.transfers
        fetches := updIf mineF (fun f => { f with halted := false }) s.fetches })

/-- Whether a transfer or fetch still has requests issued. -/
def inFlight (s : State) (n : Nat) : Bool :=
  (s.transfers.any fun t => t.id = n && !t.halted) || s.fetches.any fun f => f.id = n && !f.halted && !f.ended

/-- INVALIDATION_COMPLETION (R44): sent once every request issued before has completed. -/
def execInvalidationCompletion (port : Fin 8) (tag : Nat) (s : State) : Out :=
  .next (match s.invs.find? fun i => i.port = port.val && i.tag = tag with
    | some i =>
      if !alive s || !s.hpUp.getLsbD port || i.waits.any (inFlight s) then s
      else { s with invs := s.invs.filter fun y => y.tag ≠ tag }
    | none => s)

/-! ### Retirement (R46) -/

/-- RETIREMENT_READ: a read is issued behind the partition's unretired writes on a port. -/
def execRetirementRead (port : Fin 8) (p : Fin 16) (s : State) : Out :=
  .next (if !alive s || !s.hpUp.getLsbD port then s
    else
      let mine (u : Unretired) : Bool := u.port = port.val && u.part = p.val && !u.writes.isEmpty && u.covered.isNone
      { s with unretired := updIf mine (fun u => { u with covered := some u.writes.length }) s.unretired })

/-- RETIREMENT_READ_RETURN: the writes issued before the read are retired, and what they read from is freed. -/
def execRetirementReadReturn (port : Fin 8) (p : Fin 16) (s : State) : Out :=
  .next (match s.unretired.find? fun u => u.port = port.val && u.part = p.val with
    | none => s
    | some u =>
      match u.covered with
      | none => s
      | some n =>
        if !alive s || !s.hpUp.getLsbD port then s
        else
          let left : Unretired := { u with writes := u.writes.drop n, covered := none }
          let others := s.unretired.filter fun v => !(v.port = port.val && v.part = p.val)
          let s := { s with unretired := if left.writes.isEmpty then others else others ++ [left] }
          freeBufs s ((u.writes.take n).flatMap (·.frees)))

/-! ### Links (R45 to R51, R613, R664, R665) -/

/-- HOST_LINK_DOWN. -/
def execHostLinkDown (port : Fin 8) (s : State) : Out := .next (if alive s then hostDown s port else s)

/-- A stranded partition resumes on a port that is up, its primary when that one is: unretired writes are sent again, and
then the requests that waited are issued in their order. -/
def resumePart (s : State) (p : Nat) : State :=
  let old := portOf s p
  let toSec := !(p = 0 || (priValid s p && s.hpUp.getLsbD (primaryPort s p)))
  let new := if p = 0 then ((List.range 8).find? fun h => s.hpUp.getLsbD h).getD old
    else if toSec then secondaryPort s p else primaryPort s p
  let s := if new = old then resend s p old new else moveTo s p new toSec
  sendWaiting (setPart s p fun x => { x with stranded := false }) p

/-- Whether an enabled partition stands on a port that is not up (R664). -/
def portless (s : State) (p : Nat) : Bool := p ≠ 0 && partEn s p && !s.hpUp.getLsbD (portOf s p)

/-- HOST_LINK_UP (R51, R664). Partition 0 takes the port when its own has never come up. DESIGN CHOICE (log entry 68): a
partition enabled while neither of its ports was up takes the first one that comes up, as a stranded one does. -/
def execHostLinkUp (port : Fin 8) (s : State) : Out :=
  .next (if !alive s || hpLost s port || s.hpUp.getLsbD port then s
    else
      let s := { s with hpUp := s.hpUp ||| BitVec.twoPow 8 port }
      let s := if s.hpUp.getLsbD s.port0 || (part s 0).stranded then s else { s with port0 := port.val }
      (List.range 16).foldl (fun s p => if ((part s p).stranded || portless s p) && anyPortUp s p then resumePart s p else s) s)

/-- MOVE_BACK_TO_PRIMARY (R49). -/
def execMoveBackToPrimary (p : Fin 16) (s : State) : Out :=
  .next (
    let clear := !s.unretired.any fun u => u.part = p.val && u.port = secondaryPort s p && !u.writes.isEmpty
    if alive s && p.val ≠ 0 && (part s p).onSecondary && !(part s p).stranded && priValid s p &&
        s.hpUp.getLsbD (primaryPort s p) && clear then moveTo s p (primaryPort s p) false else s)

/-- HOST_REQUEST_TIMEOUT (R613): the second expiry is taken as Completer Abort, which a fetch retries under R287 and which
ends any other transfer. -/
def execHostRequestTimeout (port : Fin 8) (x : Nat) (s : State) : Out :=
  .next (if !alive s || !s.hpUp.getLsbD port then s
    else afterExpiry (requestExpiry s 5 port (port / 2) x) fun s => match transferOf s x, fetchOf s x with
      | some t, _ => if t.halted || !canSend s t.part || portOf s t.part ≠ port then s else endUnresolved s t t.moved
      | none, some f =>
        if f.halted || f.drive.isSome || !canSend s f.part || portOf s f.part ≠ port then s else fetchEnds s f .hostError
      | none, none => s)

/-- HOST_PORT_TRAINING (R38, R39, R628 step 3): the ports that train are up, and HP_DONE sets. A port whose link partner
does not complete training reports HOST_LINK_DOWN; one without a partner has no link that could. -/
def execHostPortTraining (links : PortTraining) (s : State) : Out :=
  .next (if !alive s || s.boot.hpDone then s
    else
      let up := BitVec.ofNat 8 (maskOf 8 fun h => links.trained.getLsbD h && !hpLost s h)
      let low := ((List.range 8).find? fun h => up.getLsbD h).getD 0
      let t : State := { s with
        hpUp := up, port0 := low
        boot := { s.boot with hpDone := true, fwBusy := s.boot.fwBusy || s.boot.fwPending, fwPending := false } }
      let failed := (List.range 8).filter fun h => links.partner.getLsbD h && !links.trained.getLsbD h && !hpLost s h
      failed.foldl (fun t h => raise t ⟨8, false, h / 2, none, 5, h⟩) t)

end Sys2Proof.Machine
end

