-- ==== Sys2Proof/Machine/Sideband.lean ====
section
/-!
DEFINITION. The sideband pins, the SMBus target and the TAP (R65 to R80, R111 to R113, R659, R660).
-/

namespace Sys2Proof.Machine

/-! ### Reset and its conditions (R66, R68, R69) -/

/-- What a reset leaves of a die: its fuses, its strap, what its sensors read, and which raw bits its noise source has used
(R253). -/
def keepDie (x : Die) : Die :=
  { Die.reset with lot := x.lot, wafer := x.wafer, x := x.x, y := x.y, serial := x.serial, full := x.full,
                   fuseOk := x.fuseOk, tj := x.tj, sensor := x.sensor, mv := x.mv, fixed := x.fixed,
                   noise := NoiseSrc.reset x.noise.pos }

/-- The block enters reset: nothing survives but the hosts' memory, the fuses and the boundary-scan register (R69, R113,
R660). DESIGN CHOICE (log entry 68): THERM_N is released, and taken from the sensors again at reset release. -/
def enterReset (s : State) : State :=
  let pins : Pins := { Pins.reset with resetLow := s.pins.resetLow, pwrLow := s.pins.pwrLow, refLost := s.pins.refLost,
                                       inReset := true, stepHigh := s.pins.stepHigh }
  { State.reset with pending := s.pending, hostMem := s.hostMem, hostFaults := s.hostFaults, tap := s.tap,
                     dies := s.dies.map keepDie, freeCtr := s.freeCtr, pins := pins }

/-- RESET_N_LOW (R66, R68). -/
def execResetNLow (lowNs : Nat) (s : State) : Out :=
  .next (onPulse s lowNs 1000 10000 fun s => enterReset { s with pins := { s.pins with resetLow := true } })

/-- PWR_GOOD_FALL (R66, R69). -/
def execPwrGoodFall (lowNs : Nat) (s : State) : Out :=
  .next (onPulse s lowNs 1000 10000 fun s => enterReset { s with pins := { s.pins with pwrLow := true } })

/-- REFCLK_LOSS (R69). -/
def execRefclkLoss (s : State) : Out := .next (enterReset { s with pins := { s.pins with refLost := true } })

/-- Dies held out of service at reset release: fuses unsound, or another module serial than die 0's (R111). -/
def fuseBad (s : State) (d : Nat) : Bool :=
  !(dieAt s d).fuseOk || (dieAt s d).serial ≠ (dieAt s 0).serial

/-- One die's fuses are checked. -/
def checkFuses (s : State) (d : Nat) : State :=
  if fuseBad s d then
    raise { s with fuseLost := s.fuseLost ++ [d] } ⟨0x18, false, d, none, 3, d⟩
  else s

/-- RESET_RELEASE (R68, R76, R80, R111, R545, R645): straps are sampled, keys drawn and fuses checked. Every block is taken
as production-fused: no fuse field of the spec says which blocks are, and R80 holds those (DESIGN CHOICE, log entry
53). -/
def execResetRelease (k : Straps) (s : State) : Out :=
  .next (if !s.pins.inReset then s
    else
      let hold := k.testmode || !(dieAt s 0).fuseOk
      let s := { s with
        pins := { s.pins with resetLow := false, pwrLow := false, refLost := false, inReset := false, testHeld := hold }
        smbus := ⟨k.addr, [], false⟩
        dies := s.dies.zipIdx.map fun (x, d) => { x with fixed := k.vfix.getLsbD d } }
      let s := (List.range 16).foldl drawKeys s
      thermN ((List.range 4).foldl checkFuses s))

/-! ### STEP pins (R66, R70 to R72) -/

/-- STEP_EDGE. -/
def execStepEdge (pin : Fin 4) (highNs : Nat) (s : State) : Out :=
  .next (if !alive s || s.pins.stepStuck.getD pin false then s else onPulse s highNs 20 100 (edgeTaken pin))

/-- STEP_STUCK: the pin has stayed high since its accepted edge. -/
def execStepStuck (pin : Fin 4) (s : State) : Out :=
  .next (if !alive s || !s.pins.stepHigh.getD pin false || s.pins.stepStuck.getD pin false then s
    else
      let s := { s with pins := { s.pins with stepStuck := modAt s.pins.stepStuck pin fun _ => true } }
      let s := raise s ⟨0x1C, false, 0, none, 0, 0⟩
      (mappedTo s pin).foldl (fun s p => postEvent s p 4 pin) s)

/-- A STEP pin is low, and no longer stuck. -/
def stepLow (pin : Nat) (s : State) : State :=
  let t := { s with pins := { s.pins with stepStuck := modAt s.pins.stepStuck pin fun _ => false
                                          stepHigh := modAt s.pins.stepHigh pin fun _ => false } }
  if s.pins.stepStuck.getD pin false then (mappedTo t pin).foldl (fun s p => postEvent s p 5 pin) t else t

/-- STEP_STUCK_CLEAR: a low, accepted by the same filter. -/
def execStepStuckClear (pin : Fin 4) (lowNs : Nat) (s : State) : Out :=
  .next (if !alive s then s else onPulse s lowNs 20 100 (stepLow pin))

/-! ### ALIVE (R73, R74, R609) -/

/-- Whether ALIVE toggles. -/
def toggling (s : State) : Bool := s.pins.aliveRun && alive s && s.boot.fwRun && !(dieAt s 0).wdogExp

/-- ALIVE_TOGGLE. -/
def execAliveToggle (s : State) : Out :=
  .next (if toggling s then { s with pins := { s.pins with alive := !s.pins.alive } } else s)

/-! ### The SMBus target (R76, R77, R112, R113) -/

/-- CRC-8 of packet error checking: polynomial x^8 + x^2 + x + 1 (PRESUMED, log entry 24). -/
def pecBit : Nat → Nat → Nat
  | 0, c => c
  | k + 1, c => pecBit k (if 128 ≤ c then (2 * c ^^^ 0x107) else 2 * c)

def pec (l : List Byte) : Byte := BitVec.ofNat 8 (l.foldl (fun c b => pecBit 8 (c ^^^ b.toNat)) 0)

/-- The target's address (R76). -/
def smbusAddr (s : State) : Nat := 0x58 + s.smbus.addr.toNat

/-- Whether the target answers an address now. -/
def smbusHears (s : State) (addr : BitVec 7) : Bool := addr.toNat = smbusAddr s && !s.pins.inReset

/-- A block read: the count, the bytes and the PEC of the transaction, whose first bytes are `sent`. -/
def smbusReply (s : State) (sent data : List Byte) : State :=
  let wr : List Byte := BitVec.ofNat 8 (2 * smbusAddr s) :: sent
  let rd : List Byte := BitVec.ofNat 8 (2 * smbusAddr s + 1) :: BitVec.ofNat 8 data.length :: data
  { s with smbus := { s.smbus with reply := BitVec.ofNat 8 data.length :: data ++ [pec (wr ++ rd)], nack := false } }

def smbusNack (s : State) : State := { s with smbus := { s.smbus with reply := [], nack := true } }

/-- SMBUS_IDENTITY (Table 3.10). -/
def execSmbusIdentity (addr : BitVec 7) (s : State) : Out :=
  .next (if smbusHears s addr then
      smbusReply s [0x00] (toLe 4 ((readReg s 0).getD 0).toNat ++ toLe 4 ((readReg s 4).getD 0).toNat ++ toLe 8 (modSerial s))
    else s)

/-- SMBUS_DIE_IDENTITY: the die's fuses, in service or lost; zeros when the VAUX management path gives no answer within
2 µs (R113). -/
def execSmbusDieIdentity (addr : BitVec 7) (d : DieAsked) (s : State) : Out :=
  .next (if smbusHears s addr then
      let x := dieAt s d.die
      let fuses := x.lot.take 6 ++ [x.wafer, x.x, x.y, 0x42, 0x00] ++ toLe 3 x.full.toNat ++ [if x.fuseOk then 1 else 0, 0]
      smbusReply s [BitVec.ofNat 8 (d.die + 1)] (if d.answers then fuses else List.replicate 16 0)
    else s)

/-- SMBUS_HEALTH. -/
def execSmbusHealth (addr : BitVec 7) (s : State) : Out :=
  .next (if smbusHears s addr then
      let temp (x : Die) : Byte := if x.sensor then BitVec.ofInt 8 x.tj else 0x80
      let st : Nat := (if s.pins.thermN then 1 else 0) + (if toggling s then 2 else 0)
      smbusReply s [0x10] (toLe 4 ((readReg s 0xC).getD 0).toNat ++ s.dies.map temp ++ [BitVec.ofNat 8 st, 0, 0, 0])
    else s)

/-- The status byte and word that command 0x20 returns for an offset; a register of a lost die is read at once as 0
(R90). -/
def smbusWord (s : State) (o : Nat) : Nat × Nat :=
  if 0x004FFFFF < o || o % 4 ≠ 0 || (regFields o).isNone then (1, 0) else (0, ((readReg s o).getD 0).toNat)

/-- Bytes of the write part of command 0x20 after the address: the code, the count and the offset. -/
def smbusSent (bytes : List Byte) : List Byte := [0x20, BitVec.ofNat 8 bytes.length] ++ bytes

/-- Whether a PEC byte that the master sent behind a write part fits it; one that it did not send is not checked (R76). -/
def pecOk (s : State) (sent : List Byte) (p : Option Byte) : Bool :=
  p.all fun b => b = pec (BitVec.ofNat 8 (2 * smbusAddr s) :: sent)

/-- SMBUS_REGISTER_READ: a byte count other than 4 is NACKed (R112), and so is a PEC that does not fit, as SMBus has it
(R76; PRESUMED, log entry 24). -/
def execSmbusRegisterRead (addr : BitVec 7) (block : SmbusBlock) (s : State) : Out :=
  .next (if !smbusHears s addr then s
    else if block.bytes.length ≠ 4 || !pecOk s (smbusSent block.bytes) block.pec then smbusNack s
    else
      let r := smbusWord s (leAt block.bytes 0 4)
      smbusReply s (smbusSent block.bytes) (BitVec.ofNat 8 r.1 :: toLe 4 r.2))

/-- SMBUS_UNKNOWN_COMMAND: a code outside Table 3.10 is NACKed; the others are commands of their own. -/
def execSmbusUnknownCommand (addr : BitVec 7) (code : Byte) (s : State) : Out :=
  .next (if smbusHears s addr && !([0x00, 0x01, 0x02, 0x03, 0x04, 0x10, 0x20] : List Byte).contains code then smbusNack s else s)

/-- SCL_LOW_TIMEOUT (R66): the target interface starts afresh. -/
def execSclLowTimeout (lowMs : Nat) (s : State) : Out :=
  .next (if s.pins.inReset then s
    else onPulse s lowMs 25 35 fun s => { s with smbus := { s.smbus with reply := [], nack := false } })

/-! ### The TAP (R659, R660, Table 20.6) -/

/-- An instruction is loaded: it selects a data register and sets how the outputs are driven. -/
def loadIr (s : State) (ir : Byte) (dr pins : Nat) : State :=
  { s with tap := { s.tap with ir := ir, dr := dr, pins := pins } }

/-- The bits that stand in the data register that the instruction selects, the one nearest TDO first: 32 bits of IDCODE, the
boundary-scan register, or the bypass bit (Table 20.6). Nothing is said of what the IEEE 1687 network holds. -/
def tapData (t : Tap) : List Bool :=
  if t.dr = 0 then (List.range 32).map fun i => Nat.testBit 0x10404B47 i else if t.dr = 1 then t.bscan else if t.dr = 2 then [false] else []

/-- TEST_LOGIC_RESET. -/
def execTestLogicReset (s : State) : Out := .next (loadIr s 0x01 0 0)
/-- IDCODE. -/
def execIdcode (s : State) : Out := .next (loadIr s 0x01 0 0)

/-- SAMPLE_PRELOAD: the register's 97 cells take the values given. -/
def execSamplePreload (pins : List Bool) (s : State) : Out :=
  .next (
    let s := loadIr s 0x02 1 0
    { s with tap := { s.tap with bscan := (List.range 97).map fun i => pins.getD i false } })

/-- EXTEST. -/
def execExtest (s : State) : Out := .next (loadIr s 0x03 1 1)
/-- CLAMP. -/
def execClamp (s : State) : Out := .next (loadIr s 0x04 2 2)
/-- HIGHZ. -/
def execHighz (s : State) : Out := .next (loadIr s 0x05 2 3)
/-- INSTR_1687: the network while the CSU debug lock is open, bypass otherwise. -/
def execInstr1687 (s : State) : Out := .next (loadIr s 0x10 (if s.tap.debugOpen then 3 else 2) 0)

/-- BYPASS, or any code that is not listed; a listed code is a command of its own. -/
def execBypass (code : Byte) (s : State) : Out :=
  .next (if ([0x01, 0x02, 0x03, 0x04, 0x05, 0x10] : List Byte).contains code then s else loadIr s code 2 0)

end Sys2Proof.Machine
end

