-- ==== Sys2Proof/Machine/Health.lean ====
section
/-!
DEFINITION. Hangs, timeouts, revivals and the firmware watchdog (R14, R28, R596, R608, R611, R613, R622, R623).
-/

namespace Sys2Proof.Machine

/-- The die of a unit (Table 18.3). -/
def unitDie (k i : Nat) : Nat :=
  if k = 1 then i / 24 else if k = 2 then i / 6 else if k = 3 then i else if k = 4 then i / 4 else if k = 5 then i / 2
  else if k = 6 then i / 4 else if k = 7 then (edgeEnds i).1 else if k = 8 then i / 2 else 0

/-! ### Links and accesses between dies -/

/-- QUADRILLE_REQUEST_TIMEOUT (R613): the second expiry loses the edge. -/
def execQuadrilleRequestTimeout (e : Fin 4) (req : Nat) (s : State) : Out :=
  .next (if !alive s || !edgeUp s e then s
    else afterExpiry (requestExpiry s 7 e (unitDie 7 e) req) fun s => raise s ⟨0x0D, false, unitDie 7 e, none, 7, e⟩)

/-- ROUTE_CHANGE_DRAINED (R14): held transfers go on the new route. -/
def execRouteChangeDrained (src dst : Fin 4) (s : State) : Out :=
  .next (if !alive s then s
    else
      let s := { s with routeHolds := s.routeHolds.filter (· ≠ (src.val, dst.val)) }
      s.lreds.foldl lredTry (wakeTokens s))

/-- CROSSING_ACCESS_TIMEOUT (R28): a read returns 0 and a write is discarded; an SMBus read reports it and records
nothing (R112). An access to a die already declared lost completes at once and is no such access (R90). -/
def execCrossingAccessTimeout (a : CrossingAccess) (s : State) : Out :=
  .next (
    if s.pins.inReset || unitCount a.kind ≤ a.index || dieLost s (unitDie a.kind a.index) then s
    else
      let noted (s : State) : State :=
        if s.fatal then s else raise s ⟨0x10, false, unitDie a.kind a.index, none, a.kind, a.index⟩
      match a.src with
      | .smbus bytes => if bytes.length = 4 then smbusReply s (smbusSent bytes) [2, 0, 0, 0, 0] else s
      | .host => noted s
      | .mgmt d n dst =>
        match threadOf s (.mgmt d n) with
        | some t =>
          if t.state = 1 && alive s then
            noted (setThread s (.mgmt d n) fun t => nextPc (if a.write then t else ws t dst 0))
          else s
        | none => s)

/-- HOSTLINK_CRC (R596, Table 18.4): a flit is replayed. -/
def execHostlinkCrc (port : Fin 8) (s : State) : Out :=
  .next (if !alive s || !s.hpUp.getLsbD port then s
    else
      let forced := armed s 2 port
      raise (if forced then disarm s 2 else s) ⟨7, forced, port / 2, none, 5, port⟩)

/-- CSU_FAULT (R596). -/
def execCsuFault (s : State) : Out := .next (if alive s then raise s ⟨0x19, false, 0, none, 0, 0⟩ else s)

/-! ### Watchdogs (R608, R611, R615) -/

/-- The source that a hung unit raises. -/
def hangSource (k : Nat) : Option Nat :=
  if k = 1 then some 0x0B else if k = 2 then some 0x0C else if k = 3 then some 0x0E else if k = 8 then some 0x1D else none

/-- HANDSHAKE_WATCHDOG (R611, Table 18.4). -/
def execHandshakeWatchdog (kind index : Nat) (s : State) : Out :=
  .next (match hangSource kind with
    | none => s
    | some src =>
      if !alive s || unitCount kind ≤ index || unitLost s kind index then s
      else
        let forced := kind = 1 && armed s 4 index
        raise (if forced then disarm s 4 else s) ⟨src, forced, unitDie kind index, none, kind, index⟩)

/-- A die's management Minuet halts (R608). -/
def haltMgmt (s : State) (d : Nat) : State :=
  let s := stopThreads s fun x => match x.th with | .mgmt e _ => e.val = d | _ => false
  setDie s d fun x => { x with mmRun := false, mmHalted := true, wdogExp := true }

/-- FIRMWARE_WATCHDOG (R608): a KICK in the same instant meets the arbiter (R615). -/
def execFirmwareWatchdog (d : Fin 4) (meetsKick : Bool) (s : State) : Out :=
  .next (if !alive s || dieLost s d || !(dieAt s d).mmRun then s
    else
      let (kick, s) := if meetsKick then arbitrate s else (false, s)
      if kick then setDie s d fun x => { x with kickUs := x.us }
      else
        let s := if meetsKick then bump (bump64 s 0x2010 1) (dieBase d + 0x200C) else s
        raise (haltMgmt s d) ⟨0x13, false, d, none, 3, d⟩)

/-! ### Start of the firmware and revivals (R36, R233, R622, R623, R628 step 5) -/

/-- Thread n of die d's management Minuet at the start of its program (R235). -/
def mgmtThread (s : State) (d : Fin 4) (n : Fin 4) : Thread :=
  { th := .mgmt d n, state := 1, part := 0, sample := 65536, stage := 0, partNo := 0, pc := 0,
    progLen := leAt s.boot.image 24 4, s := [], v := [], p := [], region := [], tsBytes := 2097152, csBytes := 0, plen := 0,
    tickets := [], nextTicket := 1, waitOn := 0, waitReg := 0, published := 0, ending := false, fault := 0 }

/-- The firmware starts on die d. -/
def startMgmt (s : State) (d : Fin 4) : State :=
  let s := setDie s d fun x => { x with mmRun := true, mmHalted := false, wdogExp := false, kickUs := x.us }
  let ts := [0, 1, 2, 3].map (mgmtThread s d)
  { s with threads := (s.threads.filter fun t => !ts.any fun y => y.th = t.th) ++ ts }

/-- A die comes up again by itself: its timer unit starts from 0, its data region is as after reset and its firmware starts. -/
def bringUpDie (s : State) (d : Fin 4) : State :=
  let s := setDie s d fun x => { x with us := 0, kickUs := 0, mmHalted := false, wdogExp := false, hb := 0, region := [] }
  if s.boot.fwRun then startMgmt s d else s

/-- ENABLE of the tiles that have come back into service. -/
def enableTiles (was s : State) : State :=
  (List.range 96).foldl (fun s t => if tileLost was t && !tileLost s t then setFld s (tileBase t) 0 0 1 else s) s

/-- A unit returns to service, and the unit that the request named with it. -/
def returnUnit (s : State) (r : Revival) : State :=
  let back := { s with lost := s.lost.filter fun x => x ≠ (r.kind, r.index) && x ≠ r.named }
  if (unreachable back).any fun d => r.kind = 3 && d = r.index then s
  else
    let t := markUnreachable back
    let t := if r.kind = 4 then { t with mpUp := t.mpUp ||| BitVec.twoPow 16 r.index } else t
    let t := if r.kind = 3 then bringUpDie t (Fin.ofNat 4 r.index) else t
    let t := holdRoutes s (enableTiles s t)
    let t := if r.kind = 3 ∨ r.kind = 4 then (diesUp t).foldl refetchCopies (remirror t) else t
    degradedEvent s (thermN t)

/-- REVIVAL_SELF_TEST_END (R622): FLT_REVIVE_ST holds 2 for a pass and 3 for a failure. -/
def execRevivalSelfTestEnd (pass : Bool) (s : State) : Out :=
  .next (match s.revival with
    | none => s
    | some r =>
      if !alive s then s
      else
        let t := if pass then returnUnit s r else s
        let lost := if r.kind = 7 then t.lost.contains (7, r.index) else unitLost t r.kind r.index
        setFld { t with revival := none } 0x101C 1 0 (if lost then 3 else 2))

end Sys2Proof.Machine
end

