-- ==== Sys2Proof/Machine/Boot.lean ====
section
/-!
DEFINITION. Start-up: the firmware image, the restore and the save of the Forget-me-not record (chapter 19).
-/

namespace Sys2Proof.Machine

/-! ### The firmware image (R631 to R633, Tables 19.2 and 19.4) -/

/-- Whether a section of the image is placed as Table 19.2 and R632 say. -/
def sectionOk (l : List Byte) (offAt lenAt top : Nat) : Bool :=
  let o := leAt l offAt 4
  let n := leAt l lenAt 4
  o % 8 = 0 && 8 ≤ n && n ≤ top && 256 ≤ o && o + n ≤ leAt l 16 4 - 96

def imageLenOk (l : List Byte) : Bool := 4096 ≤ leAt l 16 4 && leAt l 16 4 ≤ 4194304 && leAt l 16 4 % 64 = 0

/-- Whether the header obeys Table 19.2, apart from IF_MAJ and IF_MIN. -/
def imageHeaderOk (l : List Byte) : Bool :=
  leAt l 0 4 = 0x57464E4A && zeroBytes l 6 8 && zeroBytes l 14 16 && imageLenOk l && sectionOk l 20 24 524288 &&
  sectionOk l 28 32 49152 && zeroBytes l 36 64 && leAt l 64 1 = 0x04 && zeroBytes l 161 256

/-- FW_ERR for an image at an address key, with its bytes when it is accepted (R632). -/
def checkImage (s : State) (key : Nat) : Except Nat (List Byte) :=
  if faulty s key 256 then .error 1
  else
    let h := hostBytes s key 256
    if !imageLenOk h then .error 2
    else
      let n := leAt h 16 4
      if faulty s key n then .error 1
      else
        let l := hostBytes s key n
        if !imageHeaderOk l then .error 2
        else if leAt l 4 1 ≠ 3 ∨ leAt l 5 1 ≠ 1 then .error 5
        else if sha384 (sliceB l 64 97) ≠ Config.keyHash then .error 3
        else if !ecdsaVerify (sliceB l 64 97) (l.drop (n - 96)) (l.take (n - 96)) then .error 4
        else .ok l

/-- FIRMWARE_IMAGE_CHECK (R632, R633, R628 step 5): the firmware runs on every die in service, or FW_ERR records the first
failure. -/
def execFirmwareImageCheck (s : State) : Out :=
  .next (if !alive s || !s.boot.fwBusy || s.boot.fwRun || !canSend s 0 then s
    else
      match checkImage s (hostKey pf0Space (reg64 s 0x100)) with
      | .error e => { s with boot := { s.boot with fwBusy := false, fwErr := e } }
      | .ok l =>
        let s := readReturned s 0 l.length
        let s := { s with boot := { s.boot with fwBusy := false, fwErr := 0, fwRun := true, image := l }
                          pins := { s.pins with aliveRun := true } }
        (diesUp s).foldl (fun s d => startMgmt s (Fin.ofNat 4 d)) s)

/-! ### The record (R636 to R643) -/

/-- The error code of a copy, 0 when it is valid, and its bytes (R641). -/
def checkCopy (s : State) (key : Nat) (forced : Bool) : Nat × List Byte :=
  if forced then (2, [])
  else if faulty s key 4096 then (1, [])
  else
    let l := hostBytes s key 4096
    let n := leAt l 6 2
    if leAt l 0 4 ≠ 0x544D4746 then (2, l)
    else if 504 < n then (5, l)
    else if leAt l 60 4 ≠ crc32c (l.take 60 ++ sliceB l 64 (8 * n)) then (2, l)
    else if leAt l 4 1 ≠ 3 then (3, l)
    else if leAt l 16 8 ≠ modSerial s then (4, l)
    else (0, l)

/-- Entries applied, skipped and rejected by a restore. -/
structure Applied where
  st : State
  done : Nat
  skipped : Nat
  rejected : Nat
  deriving DecidableEq, Repr

/-- Applies one entry as a write of PF0. -/
def applyEntry (a : Applied) (o : Nat) (v : Word) : Applied :=
  if retained o ≠ some true || (match dieOf o with | some d => dieLost a.st d | none => false) then
    { a with skipped := a.skipped + 1 }
  else
    let t := writeReg a.st 0 o none v
    if reg t 0x1C ≠ reg a.st 0x1C then { a with st := t, rejected := a.rejected + 1 }
    else { a with st := t, done := a.done + 1 }

/-- Step 6 ends: READY, and the time since reset release (R628, R630). -/
def becomeReady (s : State) : State :=
  let ms := Nat.min 65535 ((s.us - s.releaseUs) / 1000)
  setReg { s with boot := { s.boot with ready := true, restoreRun := false } } 0x134 (BitVec.ofNat 32 ms)

/-- Applies a valid copy. -/
def applyCopy (s : State) (l : List Byte) (fromB : Bool) : State :=
  let es := (List.range (leAt l 6 2)).map fun i => (leAt l (64 + 8 * i) 4, BitVec.ofNat 32 (leAt l (68 + 8 * i) 4))
  let open_ := { s with boot := { s.boot with restoreRun := false } }
  let r := es.foldl (fun a e => applyEntry a e.1 e.2) ⟨open_, 0, 0, 0⟩
  let s := setReg r.st 0x120 (BitVec.ofNat 32 (r.done % 65536))
  let s := setReg s 0x124 (BitVec.ofNat 32 (r.rejected % 65536 * 65536 + r.skipped % 65536))
  { s with boot := { s.boot with seq := leAt l 8 8, seqBase := reg64 s 0x108, seqInB := fromB, fromB := fromB, applied := true } }

/-- Both copies are examined, and the one with the higher SEQ is applied (R641, R642). -/
def restoreRecord (s : State) : State :=
  let forced := armed s 6 0
  let s := if forced then disarm s 6 else s
  let base := reg64 s 0x108
  let (ea, a) := checkCopy s (hostKey pf0Space base) forced
  let (eb, b) := checkCopy s (hostKey pf0Space (base + 0x1000)) forced
  let s := readReturned s 0 (a.length + b.length)
  let s := { s with boot := { s.boot with fmnErrA := ea, fmnErrB := eb } }
  if ea ≠ 0 ∧ eb ≠ 0 then raise s ⟨0x12, forced, 0, none, 0, 0⟩
  else
    let useB := eb = 0 && (ea ≠ 0 || leAt a 8 8 < leAt b 8 8)
    applyCopy s (if useB then b else a) useB

/-- RECORD_RESTORE (R628 step 6, R636, R641, R642). -/
def execRecordRestore (s : State) : Out :=
  .next (if !alive s || !s.boot.restoreRun || !s.boot.memDone then s
    else
      let errs (e : Nat) : State := { s with boot := { s.boot with fmnErrA := e, fmnErrB := e } }
      if s.boot.startOnly then becomeReady (errs 0xF)
      else if reg64 s 0x108 = 0 then becomeReady (errs 1)
      else if !canSend s 0 then s
      else becomeReady (restoreRecord s))

/-- FORGET_ME_NOT_SAVE (R639, R640). -/
def execForgetMeNotSave (s : State) : Out :=
  .next (if !alive s || !s.boot.savePending || reg64 s 0x108 = 0 || !canSend s 0 then s else saveRecord s)

end Sys2Proof.Machine
end

