-- ==== Sys2Proof/Machine/Cache.lean ====
section
/-!
DEFINITION. The sample cache's commands and the transcoder (R343 to R361, Tables 10.1 to 10.5).
-/

namespace Sys2Proof.Machine

/-! ### CACHE_RESERVE, CACHE_PIN, CACHE_UNPIN, CACHE_EVICT (R343 to R349) -/

/-- REFUSED_FIT of a cache command: a code of Table 10.2 and the shortfall. -/
def cacheRefused (code lack : Nat) : Result := ⟨0x02, 0xFF00 + code, lack, 0, false⟩

def isCopy (s : State) (p id : Nat) : Bool := kindOf s p id = some .copy

/-- Room that the cache commands may evict for: at most n bytes stay charged. -/
def evictAll (s : State) (p n : Nat) : State := evictTo (s.cache.length + 1) s p n

/-- What an OK of CACHE_RESERVE carries (R344). -/
def reserveOk (s : State) (p : Nat) : Result :=
  let n := (s.cache.filter fun c => c.part = p).length
  let k := (s.copies.filter fun c => c.part = p && c.failed.isNone).length
  ⟨0, 0, (part s p).cacheMib % 2 ^ 20 + mibUp (pinnedCharge s p) % 2 ^ 20 * 2 ^ 20 + mibUp (cacheCharge s p) % 2 ^ 20 * 2 ^ 40,
    n % 2 ^ 32 + k % 2 ^ 16 * 2 ^ 32, false⟩

/-- Bytes of buffers that fill a partition's pool reservations. -/
def poolHeld (s : State) (p : Nat) : Nat :=
  let mine (o : Owner) : Bool := match o with | .cache => false | .spill => false | .runAhead => false | _ => true
  ((s.bufs.filter fun b => b.part = p && mine b.own).map bufSize).foldl (· + ·) 0

/-- Free block memory that no reservation has set aside: of a partition's cache, or of its pool (R169, R343). -/
def freeForCache (s : State) : Nat :=
  let aside (p : Nat) : Nat :=
    ((part s p).cacheMib * 2 ^ 20 - cacheCharge s p) + (poolReserved s p - poolHeld s p)
  ((diesUp s).map (freeOnDie s)).foldl (· + ·) 0 - ((List.range 16).map aside).foldl (· + ·) 0

/-- CACHE_RESERVE (R343, R344, Table 10.1). -/
def execCacheReserve (c : Nat) (s : State) : Out :=
  .next (withCmd s c 0x31 fun s x =>
    let new := opBits x 0 19 0
    let quota := fld s (partBase x.part + 0x1C) 19 0
    let old := (part s x.part).cacheMib
    let free := freeForCache s / 2 ^ 20
    let pinned := mibUp (pinnedCharge s x.part)
    if quota < new then complete s x (cacheRefused 0x09 (new - quota))
    else if old < new ∧ free < new - old then complete s x (cacheRefused 0x0A (new - old - free))
    else if new < pinned then complete s x (cacheRefused 0x0B (pinned - new))
    else
      let s := evictAll s x.part (new * 2 ^ 20)
      let s := setPart s x.part fun y => { y with cacheMib := new, cacheBar := none }
      complete s x (reserveOk s x.part))

/-- CACHE_PIN (R346): a copy is pinned from birth. -/
def execCachePin (c : Nat) (s : State) : Out :=
  .next (withCmd s c 0x32 fun s x =>
    let id := opBits x 0 31 0
    let pins := (part s x.part).pins
    if !isBound s x.part id then complete s x (range 8)
    else if isCopy s x.part id || pins.contains id then complete s x (plain 0)
    else if 1024 ≤ pins.length then complete s x (cacheRefused 0x0D 1)
    else complete (setPart s x.part fun y => { y with pins := y.pins ++ [id] }) x (plain 0))

/-- CACHE_UNPIN (R346). -/
def execCacheUnpin (c : Nat) (s : State) : Out :=
  .next (withCmd s c 0x33 fun s x =>
    let id := opBits x 0 31 0
    if !isBound s x.part id || isCopy s x.part id then complete s x (range 8)
    else complete (setPart s x.part fun y => { y with pins := y.pins.filter (· ≠ id) }) x (plain 0))

/-- CACHE_EVICT (R347): with ALL every entry and every copy of the partition. -/
def execCacheEvict (c : Nat) (s : State) : Out :=
  .next (withCmd s c 0x34 fun s x =>
    let id := opBits x 0 31 0
    if opBits x 1 0 0 = 1 then
      let s := dropEntries s x.part fun _ => true
      complete ((s.copies.filter fun k => k.part = x.part).foldl dropCopy s) x (plain 0)
    else if !isBound s x.part id then complete s x (range 8)
    else
      let s := dropEntries s x.part fun e => e.src = id
      let s := match copyOf s x.part id with | some k => dropCopy s k | none => s
      complete s x (plain 0))

/-! ### TRANSCODE: its head and its thread (R350, R357, R358) -/

/-- Whether a transcode head keeps Table 10.3, its entries included. -/
def headOk (l : List Byte) (n : Nat) : Bool :=
  zeroBytes l 10 12 && 1 ≤ leAt l 12 4 && leAt l 12 4 ≤ 1048576 && 1 ≤ leAt l 16 1 && leAt l 16 1 ≤ 7 &&
  leAt l 17 1 < 64 && leAt l 18 1 < 2 && zeroBytes l 24 64 && leAt l 4 6 % 32 = 0 &&
  (List.range n).all fun i => leAt l (68 + 8 * i) 4 = 0

/-- Copies of a partition (R357). -/
def copyCount (s : State) (p : Nat) : Nat := (s.copies.filter fun k => k.part = p && k.failed.isNone).length

/-- TRANSCODE (R350, R357, R359): copies that are under way count towards the limit of copies. The head and
the list are read, and the command takes its thread; with none free it waits. -/
def execTranscode (c : Nat) (s : State) : Out :=
  .next (withHost s c 0x30 fun s x =>
    let id := opBits x 0 31 0
    let n := opBits x 2 23 0
    let key := cmdKey s x (op64 x 1)
    let l := hostBytes s key (64 + 8 * n)
    if isBound s x.part id ∨ id = 0xFFFFFFFF then complete s x (range 8)
    else if idsSpent s x.part ∨ 4096 ≤ copyCount s x.part + (s.transcodes.filter fun k => k.part = x.part).length then
      complete s x (cacheRefused 0x0C 1)
    else if faulty s key (64 + 8 * n) then complete s x (partialR (okBytes s key (64 + 8 * n)))
    else if !headOk l n ∨ !isBound s x.part (leAt l 0 4) then complete (readReturned s x.part l.length) x (range 16)
    else match if mayTake s x.part then encoderPlace s x.part (leAt l 0 4) (leAt l 4 6) (32 * leAt l 12 4) else none with
      | none => s
      | some (t, k) =>
        let s := readReturned s x.part l.length
        let s := { s with
          threads := s.threads ++ [encoderThread x.part (transcodeTag c) t k]
          transcodes := s.transcodes ++ [⟨c, x.part, id, l ++ toLe 8 (if x.xops.isEmpty then 2 ^ 21 else xopBits x 0 63 0)⟩] }
        startCmd s c)

/-- The command leaves its thread and its record behind. -/
def endTranscode (s : State) (c : Nat) : State :=
  let s := stopThreads s fun t => t.sample = transcodeTag c
  { s with transcodes := s.transcodes.filter fun y => y.cmd ≠ c }

/-! ### Decoding the input (R351 to R355) -/

/-- Settings of a transcode (Table 10.4). -/
structure EncSet where
  gop : Nat
  qpi : Nat
  qpp : Nat
  search : Nat
  bypass : Bool
  accept : Bool
  deriving DecidableEq, Repr

/-- XOP0 as the settings it gives; a command without extension has SEARCH 1 and zeros (Table 10.4). -/
def encSet (v : Nat) : EncSet :=
  let q := bits v 8 8 = 1
  { gop := if bits v 7 0 = 0 then 16 else bits v 7 0
    qpi := if q then bits v 14 9 else 22
    qpp := if q then bits v 20 15 else 25
    search := bits v 22 21
    bypass := bits v 23 23 = 1
    accept := bits v 24 24 = 1 }

/-- The reading of a transcode's input: the state, how the reads of sources end that are not used yet, and the bytes read. -/
structure Input where
  s : State
  reads : List SourceRead
  n : Nat
  deriving DecidableEq, Repr

/-- A part of the input with its bytes or what they come to, still to come, or the end of the command. -/
inductive InputRead (α : Type) where
  | got (i : Input) (a : α)
  | wait
  | stop (s : State) (t : Result)
  deriving DecidableEq, Repr

def InputRead.bind {α β : Type} (r : InputRead α) (f : Input → α → InputRead β) : InputRead β :=
  match r with
  | .got i a => f i a
  | .wait => .wait
  | .stop s t => .stop s t

/-- Runs f over a list, one element after another. -/
def inputAll {α β : Type} (f : Input → α → InputRead β) (i : Input) : List α → InputRead (List β)
  | [] => .got i []
  | a :: l => (f i a).bind fun i b => (inputAll f i l).bind fun i bs => .got i (b :: bs)

/-- Bytes of a host range before the page that cannot be resolved. -/
def okOf (s : State) (p src off len : Nat) : Nat :=
  match kindOf s p src with
  | some (.host base _ pasid) => okBytes s (hostKey pasid (base + off)) len
  | _ => 0

/-- len bytes of a source at off, read for die d as any fetch is: of an entry of the cache, a copy, a drive or a host range
(R338, R355, Table 10.5). Without bytes there is the cause for which they are damaged. -/
def inputRange (p d : Nat) (i : Input) (e : Nat × Nat × Nat) : InputRead (Option (List Byte) × Nat) :=
  let (src, off, len) := e
  let asks := (readEntry i.s p src off len).2.isNone && (openSource i.s p src).any fun y => y.kind ≠ .copy
  match asks, i.reads with
  | true, [] => .wait
  | _, reads =>
    let left := if asks then reads.drop 1 else reads
    match readRange i.s d p src off len false (if asks then reads.headD (.data []) else .data []) with
    | (_, .wait) => .wait
    | (s, .bytes l) => .got ⟨s, left, i.n + len⟩ (some l, 0)
    | (s, .ended st cause) =>
      if st = 1 then .got ⟨s, left, i.n⟩ (none, cause)
      else .stop s (if st = 3 then ⟨0x05, src % 65536, off, 0, false⟩
        else if st = 4 then partialR (i.n + okOf s p src off len) else ⟨0x06, src % 65536, 0, 0, false⟩)

/-- The data of a record of the input: its bytes, none when it is damaged so that it has none, and its cause. Sound data is
inserted into the cache (R339). -/
def inputRecord (p d : Nat) (i : Input) (r : Rec) : InputRead (Rec × Option (List Byte) × Nat) :=
  let listed : InputRead Rec := match r.list with
    | some e => (inputRange p d i e).bind fun i l => match l with
      | (some l, _) => .got i (withList i.s p r l)
      | (none, c) => .got i { noData r 1 c with list := none }
    | none => .got i r
  listed.bind fun i r =>
    if r.status ≠ 0 then .got i (r, none, r.cause)
    else (inputAll (inputRange p d) i r.extents).bind fun i ls =>
      match ls.find? fun y => y.1.isNone with
      | some y => .got i (r, none, y.2)
      | none =>
        let parts := ls.filterMap (·.1)
        let l := parts.flatten
        if r.crc.any fun c => c ≠ BitVec.ofNat 32 (crc32c l) then .got i (r, some l, 1)
        else
          let s := (r.extents.zip parts).foldl (fun s (e, l) => insertEntry s p d e.1 e.2.1 l) i.s
          .got { i with s := s } (r, some l, 0)

/-- The configuration and the access units that a head names (R350): the records of its CTX but the configuration record, which
is delivered and not decoded. Index records that lie outside their source, or cannot be read, are damage before any picture,
with FRAME 0 (R269, DESIGN CHOICE, log entry 63). -/
def inputAus (p d : Nat) (i : Input) (head : List Byte) : InputRead (List Byte × List Config.Au) :=
  let src := leAt head 0 4
  let off := leAt head 4 6
  let n := leAt head 12 4
  let lost (s : State) (c : Nat) : InputRead (List Byte × List Config.Au) := .stop s ⟨0x07, c, 0, 0, false⟩
  let c := rangeCause i.s p src off (32 * n)
  if c ≠ 0 then lost i.s c
  else (inputRange p d i (src, off, 32 * n)).bind fun i l =>
    match l with
    | (none, c) => lost i.s c
    | (some l, _) =>
      let i := { i with s := insertEntry i.s p d src off l }
      let recs := (List.range n).map fun k => readRecord i.s p 64 k (sliceB l (32 * k) 32)
      let cfg := leAt head 20 4
      (inputAll (inputRecord p d) i (recs.filter fun r => r.recno = cfg)).bind fun i c =>
      (inputAll (inputRecord p d) i (recs.filter fun r => r.ctx = leAt head 17 1 && r.recno ≠ cfg)).bind fun i rs =>
        .got i (((c.head?.bind fun e => e.2.1).getD []),
          rs.map fun (r, d, cause) => ⟨BitVec.ofNat 32 r.frame, r.flags % 32, cause, d⟩)

/-- What decoding the input has come to: the context, the pictures in output order, and the work units of EU and RP. -/
structure InputDecode where
  c : Ctx
  pics : List Config.Pic
  eu : Nat
  rp : Nat
  deriving DecidableEq, Repr

/-- The pictures in the output queue leave it. -/
def InputDecode.drain (a : InputDecode) (c : Ctx) : InputDecode :=
  { a with
    c := { c with queue := [] }
    pics := a.pics ++ c.queue.filterMap fun n => (c.store.find? fun z => z.pic.num = n).map (·.pic) }

/-- One access unit of the input is decoded; its pictures have room. -/
def transcodeAu (a : InputDecode) (au : Config.Au) : InputDecode :=
  let w := auWork a.c au
  let a := a.drain (stepCtx a.c au w (w.pics.map fun _ => some 0))
  { a with
    c := { a.c with store := a.c.store.filter fun z => w.keep.contains z.pic.num }
    eu := a.eu + w.run.eu
    rp := a.rp + w.run.rp }

/-- Options of the context that decodes the input: DROP 0 and OUT16 1 (R351). -/
def inputOpts (head : List Byte) : List Nat := [leAt head 16 1, 0, 0, 1, leAt head 18 1, 0, leAt head 19 1]

/-- The pictures of the input in output order, flushed at the end (R351). -/
def transcodePics (head config : List Byte) (aus : List Config.Au) : InputDecode :=
  let a := aus.foldl transcodeAu ⟨newCtx (leAt head 17 1) 0 (inputOpts head) config 0, [], 0, 0⟩
  a.drain (emit a.c (Config.flush a.c.opts a.c.config a.c.history))

/-- Chroma sampling as CHROMA would state it; none for 4:1:1 and every other sampling (R352). -/
def samplingOf (p : Config.Pic) : Option Nat :=
  if p.chroma ≠ 0 then some p.chroma
  else if p.planes.length < 3 then some 0
  else if p.subs = 5 then some 1 else if p.subs = 1 then some 2 else if p.subs = 0 then some 3 else none

/-- Whether a picture lies outside R352. -/
def outsideEnc (p : Config.Pic) : Bool :=
  !p.absent && (p.rgb || p.alpha || 10 < p.depth || 8192 < p.width || 35651584 < p.width * p.height ||
    !(samplingOf p).any fun k => k < 3)

/-- A picture as it is encoded: 10 bits a sample, and 4:0:0 with both chroma planes 512 (R352). -/
def encPic (p : Config.Pic) : Config.Pic :=
  let up (v : Option Nat) : Option Nat := v.map fun x => x * 2 ^ (10 - p.depth)
  let planes := p.planes.map fun q => { q with samples := q.samples.map up }
  if samplingOf p = some 0 then
    let w := ceilDiv p.width 2
    let h := ceilDiv p.height 2
    let c : Config.Plane := ⟨w, h, List.replicate (w * h) (some 512)⟩
    { p with depth := 10, chroma := 1, planes := planes ++ [c, c] }
  else { p with depth := 10, planes := planes }

/-- A picture of the same form with every sample 512. -/
def grey (p : Config.Pic) : Config.Pic :=
  { p with planes := p.planes.map fun y => { y with samples := y.samples.map fun _ => some 512 } }

/-- An absent picture repeats the preceding one; one before any other is 512 everywhere, and has the form of the first that is
not absent (R355). -/
def fillAbsent (first : Option Config.Pic) : Option Config.Pic → List Config.Pic → List Config.Pic
  | _, [] => []
  | prev, p :: ps =>
    let q : Config.Pic :=
      if !p.absent then encPic p
      else match prev.or (first.map grey) with
        | some r => { r with num := p.num, frame := p.frame }
        | none => p
    q :: fillAbsent first (some q) ps

/-- For each picture its distance from the IDR picture it follows; 0 for an IDR picture itself (R353). `n` counts pictures
since the last IDR picture, none before the first. -/
def idrDistances (gop : Nat) (keys : List Nat) : Option Nat → List Nat → List Nat
  | _, [] => []
  | n, f :: fs =>
    let d := match n with
      | none => 0
      | some k => if keys.contains f || gop ≤ k + 1 then 0 else k + 1
    d :: idrDistances gop keys (some d) fs

/-- How the input ends a transcode before any picture is kept: a picture outside R352, or damage (R352, R355). -/
def inputEnds (accept : Bool) (l : List Config.Pic) : Option Result :=
  l.findSome? fun p =>
    if outsideEnc p then some (range 16)
    else if !accept && (p.absent || p.cause ≠ 0) then some ⟨0x07, p.cause.toNat, p.frame.toNat, 0, false⟩
    else none

/-! ### The copy (R356, R357) -/

/-- An index record of a copy. -/
def copyRecord (id off frame dist : Nat) (au : List Byte) : List Byte :=
  toLe 4 id ++ toLe 6 off ++ toLe 3 au.length ++ toLe 1 (16 + if dist = 0 then 1 else 0) ++ toLe 2 0 ++ toLe 4 frame ++
  toLe 4 dist ++ toLe 4 (crc32c au) ++ toLe 4 0

/-- The records of the pictures, their access units from byte `off` on. -/
def copyRecords (id : Nat) : Nat → List (Nat × Nat × List Byte) → List Byte
  | _, [] => []
  | off, (frame, dist, au) :: rest => copyRecord id off frame dist au ++ copyRecords id (off + au.length) rest

/-- The bytes of a copy of pictures given by FRAME, distance from their IDR picture and access unit. -/
def copyBytes (id : Nat) (l : List (Nat × Nat × List Byte)) : List Byte :=
  let start := roundUp (32 * l.length) 4096
  copyRecords id start l ++ List.replicate (start - 32 * l.length) 0 ++ l.flatMap fun e => e.2.2

/-- Bytes of a copy of the first k pictures. -/
def copySize (l : List (Nat × Nat × List Byte)) (k : Nat) : Nat :=
  roundUp (32 * k) 4096 + ((l.take k).map fun e => e.2.2.length).foldl (· + ·) 0

/-- The thread that encodes for a tag (R358). -/
def encoderOf (s : State) (tag : Nat) : Option ThreadRef := (s.threads.find? fun t => t.sample = tag).map (·.th)

/-- Buffers for n bytes on a die, or on the next of R554 that has room, once their ports take writes (R64); an object of no
bytes takes none. -/
def cacheBufs (s : State) (p d n : Nat) : Option (State × Nat × List Nat) :=
  if n = 0 then some (s, d, []) else (allocNear s p .cache d n).filter fun r => !objectPaused r.1 true 0 n r.2.2

/-- The copy and its regeneration record are placed and the id is bound; with no memory free the command waits (R357, R359,
R555). -/
def placeTranscode (s : State) (x : Cmd) (r : TranscodeRun) (d : Nat) (data : List Byte) (pics bad : Nat)
    (exact_ : List (List Byte × Bool × List Config.Plane)) : State :=
  let put := (cacheBufs s x.part d data.length).bind fun (s, d, hs) =>
    (cacheBufs s x.part 0 r.regen.length).map fun (s, _, gs) => (s, d, hs, gs)
  match put with
  | none => if s.mpPaused = 0 then poolWait s else s
  | some (s, d, hs, gs) =>
    let s := markWritten (markWritten s data.length hs) r.regen.length gs
    let s := { s with
      sources := (s.sources.filter fun y => !(y.part = x.part && y.id = r.id)) ++ [⟨x.part, r.id, .copy, 0, 0, none, false⟩]
      copies := (s.copies.filter fun y => !(y.part = x.part && y.id = r.id)) ++
        [⟨x.part, r.id, d, hs, data, pics, r.regen, gs, false, none, exact_⟩] }
    complete (endTranscode s x.id) x ⟨0, 0, pics, data.length % 2 ^ 40 + bad % 2 ^ 24 * 2 ^ 40, false⟩

/-- One picture of a copy: FRAME, distance from its IDR picture, access unit, and the planes that decode from it. -/
structure CodedPic where
  frame : Nat
  dist : Nat
  au : List Byte
  planes : List Config.Plane
  deriving DecidableEq, Repr

def CodedPic.entry (y : CodedPic) : Nat × Nat × List Byte := (y.frame, y.dist, y.au)

/-- What a copy keeps of its pictures' planes: under BYPASS all of them (R354). -/
def exactOf (e : EncSet) (l : List CodedPic) : List (List Byte × Bool × List Config.Plane) :=
  if e.bypass then l.map fun y => (y.au, y.dist = 0, y.planes) else []

/-- The copy of pictures, or its refusal when it outgrows the reservation after eviction (R345, Table 10.5). -/
def keepTranscode (s : State) (x : Cmd) (r : TranscodeRun) (d : Nat) (e : EncSet) (pics : List CodedPic) (bad : Nat) : State :=
  let l := pics.map (·.entry)
  let room := cacheRoom s x.part
  let regen := roundUp r.regen.length 4096
  let need (k : Nat) : Nat := roundUp (copySize l k) 4096 + regen
  let s := evictAll s x.part (room - need l.length)
  let held := cacheCharge s x.part
  match (List.range (l.length + 1)).find? fun k => room < held + need k with
  | some k => complete (endTranscode s x.id) x (cacheRefused 0x0B (mibUp (held + need k - room)))
  | none => placeTranscode s x r d (copyBytes r.id l) l.length bad (exactOf e pics)

/-- The settings of a regeneration record's transcode, and its key frames. -/
def runSet (regen : List Byte) : EncSet := encSet (leAt regen (regen.length - 8) 8)
def runKeys (regen : List Byte) : List Nat := (List.range ((regen.length - 72) / 8)).map fun i => leAt regen (64 + 8 * i) 4

/-- A NAL unit of a parameter set with its start code (H.265, PRESUMED, log entry 9). -/
def paramNal (type : Nat) (l : List Byte) : List Byte := toLe 1 0 ++ toLe 1 0 ++ toLe 1 0 ++ toLe 1 1 ++ toLe 1 (2 * type) ++ toLe 1 1 ++ l

/-- The access unit of a picture: an IDR access unit is preceded by its VPS, SPS and PPS (R351). -/
def codedAu (sets : List Byte × List Byte × List Byte) (idr : Bool) (slice : List Byte) : List Byte :=
  if idr then paramNal 32 sets.1 ++ paramNal 33 sets.2.1 ++ paramNal 34 sets.2.2 ++ slice else slice

/-- How a picture is coded (R351, R352). -/
def codingOf (e : EncSet) (p : Config.Pic) : Config.Coding :=
  { profile := if p.chroma = 2 then .main422_10 else .main10, ctb := 32, slices := 1, tiles := false, deblocking := true,
    sao := true, window := (p.outW, p.outH), bypass := e.bypass, search := e.search, qpi := e.qpi, qpp := e.qpp }

/-- Pictures coded one after another, each given with its distance from its IDR picture: an IDR picture by itself, another one
from the preceding picture as decoded, which under BYPASS is that picture itself (R351, R354). -/
def encodeFrom (e : EncSet) : Option (List Config.Plane) → List (Config.Pic × Nat) → List CodedPic
  | _, [] => []
  | prev, (p, dist) :: l =>
    let k := codingOf e p
    let c := Config.encode k (if dist = 0 then none else prev) p
    let planes := if e.bypass then p.planes else c.2
    ⟨p.frame.toNat, dist, codedAu (Config.paramSets k) (dist = 0) c.1, planes⟩ :: encodeFrom e (some planes) l

/-- The pictures as the copy holds them. -/
def encodeAll (e : EncSet) (keys : List Nat) (l : List Config.Pic) : List CodedPic :=
  let enc := fillAbsent ((l.find? fun p => !p.absent).map encPic) none l
  encodeFrom e none (enc.zip (idrDistances e.gop keys none (enc.map (·.frame.toNat))))

/-- What becomes of a transcode whose input has been read, on the thread given; its tile counts the decoding (Table 18.10). -/
def finishTranscode (s : State) (x : Cmd) (r : TranscodeRun) (th : ThreadRef) (config : List Byte) (aus : List Config.Au) :
    State :=
  let e := runSet r.regen
  let d := transcodePics r.regen config aus
  let s := bump64 s 0x6188 aus.length
  let s := tileEvent (tileEvent (tileEvent s th 0x020 d.eu) th 0x028 d.rp) th 0x050 aus.length
  let fin (t : Result) : State := complete (endTranscode s x.id) x t
  if leAt r.regen 16 1 = 7 ∧ !ffv1Ok config then fin (range 16)
  else match inputEnds e.accept d.pics with
    | some t => fin t
    | none =>
      if isBound s x.part r.id then fin (range 8)
      else if idsSpent s x.part ∨ 4096 ≤ copyCount s x.part then fin (cacheRefused 0x0C 1)
      else keepTranscode s x r (thDie th) e (encodeAll e (runKeys r.regen) d.pics)
        (d.pics.filter fun p => p.absent || p.cause ≠ 0).length

/-- TRANSCODE_DONE (R350, R359, Table 10.5): its input is read, decoded and encoded on its thread; a transcode whose tile was
lost waits for another (R358). -/
def execTranscodeDone (c : Nat) (e : TranscodeEnd) (s : State) : Out :=
  .next (withStarted s c 0x30 fun s x =>
    match s.transcodes.find? fun r => r.cmd = c, encoderOf s (transcodeTag c) with
    | some r, some th =>
      let fin (s : State) (t : Result) : State := complete (endTranscode s c) x t
      (match e with
      | .read reads =>
        (match inputAus x.part (thDie th) ⟨s, reads, 0⟩ r.regen with
         | .got i (config, aus) => finishTranscode i.s x r th config aus
         | .wait => s
         | .stop s t => fin s t)
      | .sourceTimeout src off => fin s ⟨0x05, src.toNat % 65536, off, 0, false⟩
      | .sourceGone src => fin s ⟨0x06, src.toNat % 65536, 0, 0, false⟩)
    | _, _ => s)

/-- TRANSCODE_PROGRESS_TIMEOUT (R358): the work done, in events, has no stated unit of the encoder, and is free (log entry
4). -/
def execTranscodeProgressTimeout (c : Nat) (s : State) : Out :=
  .next (withStarted s c 0x30 fun s x =>
    let n := (Config.freeWord s.freeCtr).toNat
    complete (endTranscode { s with freeCtr := s.freeCtr + 1 } c) x ⟨0x0C, 0, n, 0, false⟩)

/-! ### Regeneration (R361) -/

def setCopy (s : State) (k : CopySource) (f : CopySource → CopySource) : State :=
  { s with copies := updIf (fun y => y.part = k.part && y.id = k.id) f s.copies }

/-- A regeneration fails: the copy goes with its byte entries and its id is unbound, and what waits for it ends with the
status. -/
def failCopy (s : State) (k : CopySource) (status : Nat) : State :=
  let t := freeBufs (stopThreads s fun t => t.sample = regenTag k.part k.id) (k.bufs ++ k.regenBufs)
  setCopy (dropEntries t k.part fun e => e.src = k.id) k fun y => { y with
    bufs := [], data := [], regen := [], regenBufs := [], regenerating := false, failed := some status, exact_ := [] }

/-- The copy's bytes, coded again from its input, stand on the die of the thread that the regeneration holds, or the next of
R554 with room; while none has, the copy goes on waiting. -/
def regenerated (s : State) (k : CopySource) (th : ThreadRef) (config : List Byte) (aus : List Config.Au) : State :=
  let e := runSet k.regen
  let d := transcodePics k.regen config aus
  if leAt k.regen 16 1 = 7 && !ffv1Ok config || (inputEnds e.accept d.pics).isSome then failCopy s k 2
  else
    let l := encodeAll e (runKeys k.regen) d.pics
    let data := copyBytes k.id (l.map (·.entry))
    match cacheBufs s k.part (thDie th) data.length with
    | some (t, die, hs) =>
      setCopy (freeThread (markWritten t data.length hs) th) k fun y =>
        { y with bufs := hs, die := die, data := data, pictures := l.length, regenerating := false, exact_ := exactOf e l }
    | none => if s.mpPaused = 0 then poolWait s else s

/-- COPY_REGENERATION_END (R361): the input is read and coded again on the thread that the regeneration holds, as a TRANSCODE
would; while no thread is held, or the input cannot be read yet, the copy goes on waiting. An input that is damaged, or
differs so that no copy comes of it, ends it as SOURCE_GONE does, and one that ends PARTIAL with that status (DESIGN CHOICE,
log entry 63). -/
def execCopyRegenerationEnd (p : Fin 16) (id : Nat) (r : TranscodeEnd) (s : State) : Out :=
  .next (match copyOf s p id, encoderOf s (regenTag p id) with
    | some k, some th =>
      if !alive s || !k.regenerating || k.failed.isSome then s
      else match r with
        | .read reads =>
          (match inputAus p (thDie th) ⟨s, reads, 0⟩ k.regen with
           | .got i (config, aus) => regenerated i.s k th config aus
           | .wait => s
           | .stop s t => failCopy s k (if t.status = 5 then 3 else if t.status = 4 then 4 else 2))
        | .sourceTimeout _ _ => failCopy s k 3
        | .sourceGone _ => failCopy s k 2
    | _, _ => s)

end Sys2Proof.Machine
end

