-- ==== Sys2Proof/Machine/Templates.lean ====
section
/-!
DEFINITION. The stage templates that make picture lists: DECODE, RAW_UNPACK, GEOMETRY, COLOUR, AUGMENT and TEMPORAL (R328 to
R334, R378 to R391, R669). The program of a template is the firmware's; what stands here is the result that the rules fix,
which the template's END brings about in one step (log entry 25).
-/

namespace Sys2Proof.Machine

/-! ### What a template's work comes to -/

/-- The work done with its result, still to come, short of buffers in memory, ended by a program fault, ended with a ticket
status of a source, or gone with its sample. -/
inductive Tpl (α : Type) where
  | ok (s : State) (a : α)
  | wait
  /-- still to come, with what has been asked for -/
  | later (s : State)
  | full
  | fault (reason : Nat)
  /-- ended with a ticket status of a request, whose source and offset are given (R290) -/
  | source (status cause : Nat) (at_ : Nat × Nat)
  | gone (s : State)
  deriving DecidableEq, Repr

def Tpl.bind {α β : Type} (r : Tpl α) (f : State → α → Tpl β) : Tpl β :=
  match r with
  | .ok s a => f s a
  | .wait => .wait
  | .later s => .later s
  | .full => .full
  | .fault e => .fault e
  | .source st c a => .source st c a
  | .gone s => .gone s

/-- Runs f over a list, one element after another. -/
def tplAll {α β : Type} (f : State → α → Tpl β) (s : State) : List α → Tpl (List β)
  | [] => .ok s []
  | a :: l => (f s a).bind fun s b => (tplAll f s l).bind fun s bs => .ok s (b :: bs)

/-- What a template hands over: the state of its token and its buffers in order. -/
structure TplEnd where
  state : Nat
  outs : List Nat
  deriving DecidableEq, Repr

/-- The thread, sample and stage that a template runs for. -/
structure TplRun where
  th : ThreadRef
  h : Nat
  g : Nat
  deriving DecidableEq, Repr

/-- Reads n bytes of a buffer through its lines, once they can be read (Table 16.1); a fetch into it that ended SOURCE_GONE,
SOURCE_TIMEOUT or PARTIAL ends the read so (R259, R430). -/
def tplLines (s : State) (r : TplRun) (b n : Nat) : Tpl Unit :=
  let o := bufOutcome s b
  if !bufReady s (thDie r.th) b 0 n then .wait
  else if 2 ≤ o.1 ∧ o.1 ≤ 4 then
    .source o.1 o.2 (match landingOf s b with | some (.ended _ _ src off) => (src, off) | _ => (0, 0))
  else
    let (s, bad) := readLines s b 0 n
    if bad then .gone (sampleUe s r.h) else .ok (tileEvent (crossed s (hDie b) (thDie r.th) n) r.th 0x010 n) ()

/-- A buffer of n bytes from the stage's reservation, held by the stage (R216, R553, R555). -/
def tplAlloc (s : State) (r : TplRun) (n : Nat) : Tpl Nat :=
  match threadOf s r.th, sampleOf s r.h with
  | some t, some x =>
    let (k, m) := picClass n
    if poolOf s t k < holdsOf s t k + m then .fault 7
    else
      let own : Owner := .stage x.recipe r.g
      match if 1 < m then allocLarge s x.part own (thDie r.th) m else alloc s x.part own (thDie r.th) k with
      | some (s, b) => .ok (setSample s r.h fun y => { y with held := y.held ++ [(r.g, b)] }) b
      | none => .full
  | _, _ => .gone s

/-- A buffer of the stage with the bytes given, once its ports take writes (R14, R64). -/
def tplBuffer (s : State) (r : TplRun) (l : List Byte) : Tpl Nat :=
  (tplAlloc s r l.length).bind fun s b =>
    if !bufOpen s (thDie r.th) b 0 l.length then .wait
    else .ok (tileEvent (bufWrite (crossed s (thDie r.th) (hDie b) l.length) b 0 l) r.th 0x018 l.length) b

/-- The stage takes a reference to a buffer that the sample already holds. -/
def tplRef (s : State) (r : TplRun) (b : Nat) : State :=
  match sampleOf s r.h with
  | none => s
  | some x =>
    if b = noHandle || x.held.contains (r.g, b) then s
    else setBuf (setSample s r.h fun y => { y with held := y.held ++ [(r.g, b)] }) b fun u => { u with refs := u.refs + 1 }

/-- The stage lets go of a buffer. -/
def letGo (s : State) (r : TplRun) (b : Nat) : State :=
  dropRef (setSample s r.h fun z => { z with held := eraseHeld z.held (r.g, b) }) b

/-! ### Picture lists (R330) -/

/-- A picture list: its header fields and the records of context 0 and context 1. -/
structure PicList where
  frame : Nat
  short : Bool
  recs0 : List (List Byte)
  recs1 : List (List Byte)
  deriving DecidableEq, Repr

def PicList.recs (l : PicList) (c : Nat) : List (List Byte) := if c = 0 then l.recs0 else l.recs1
def PicList.all (l : PicList) : List (List Byte) := l.recs0 ++ l.recs1

/-- The picture of a record. -/
def picOf (l : List Byte) : PicIn := ⟨l, b32 l 0⟩

/-- A record counts as damaged or absent. -/
def recBad (l : List Byte) : Bool := (picOf l).damaged || (picOf l).absent

/-- Damaged or absent pictures of a list. -/
def PicList.bad (l : PicList) : Nat := (l.all.filter recBad).length

/-- The bytes of a list (R330). -/
def PicList.bytes (l : PicList) : List Byte :=
  toLe 4 l.recs0.length ++ toLe 4 l.recs1.length ++ toLe 4 l.bad ++ toLe 4 l.frame ++ toLe 1 (if l.short then 1 else 0) ++
  List.replicate 15 0 ++ l.all.flatten

/-- The list in a buffer. -/
def readPicList (s : State) (b : Nat) : PicList :=
  let hd := bufRead s b 0 32
  let n0 := b32 hd 0
  let n1 := b32 hd 4
  let at_ (i : Nat) : List Byte := bufRead s b (32 + 32 * i) 32
  ⟨b32 hd 12, b8 hd 16 % 2 = 1, (List.range n0).map at_, (List.range n1).map fun i => at_ (n0 + i)⟩

/-- The parent's stage of a template's stage. -/
def tplParent (s : State) (r : TplRun) : Option (Sample × Nat) :=
  match sampleOf s r.h with
  | none => none
  | some x => ((recipeOf s x.part x.recipe).bind fun y => y.stages[r.g]?).map fun st => (x, st.parent)

/-- Buffers that the parent handed over, in order. -/
def parentBufs (x : Sample) (p : Nat) : List Nat := ((x.handed.find? (·.1 = p)).map (·.2)).getD []

/-- The state of the parent's token. -/
def parentState (x : Sample) (p : Nat) : Nat := x.tokens.getD p 0

/-- Bytes of the planes of a picture. -/
def picBytes (p : PicIn) : Nat := planesBytes p.cont p.sizes

/-- The parent's picture list, read with all of its pictures. -/
def parentList (s : State) (r : TplRun) : Tpl PicList :=
  match tplParent s r with
  | none => .fault 4
  | some (x, p) =>
    match (parentBufs x p).head? with
    | none => .fault 4
    | some b =>
      (tplLines s r b 32).bind fun s _ =>
      let l := readPicList s b
      (tplLines s r b (32 + 32 * l.all.length)).bind fun s _ =>
      (tplAll (fun s p => tplLines s r p.buf (picBytes p)) s ((l.all.map picOf).filter fun p => !p.absent)).bind fun s _ =>
      .ok s l

/-- A list is written and handed over, with one reference to every picture in it. -/
def handList (s : State) (r : TplRun) (l : PicList) (state : Nat) : Tpl TplEnd :=
  (tplBuffer s r l.bytes).bind fun s b =>
    let pics := ((l.all.map fun y => b32 y 0).filter (· ≠ noHandle)).eraseDups
    .ok (pics.foldl (fun s h => tplRef s r h) s) ⟨state, b :: pics⟩

/-- DROPPED above the limit, else DAMAGED when a picture is, else DONE (R331). -/
def limitState (l : PicList) (limit : Nat) : Nat :=
  if limit ≠ 0xFFFF ∧ limit < l.bad then 3 else if l.all.any fun y => (picOf y).damaged then 2 else 1

/-- The parameter block of a template's stage. -/
def tplParams (s : State) (r : TplRun) : List Byte :=
  match sampleOf s r.h with
  | none => []
  | some x => (((recipeOf s x.part x.recipe).bind fun y => y.stages[r.g]?).map (·.params)).getD []

/-- A draw of the sample (R220, R241). -/
def tplDraw (s : State) (r : TplRun) (frame purpose draw : Nat) : Quad :=
  match sampleOf s r.h with
  | some x => sampleDraw s x frame purpose (draw % 2 ^ 48)
  | none => ⟨0, 0, 0, 0⟩

/-! ### DECODE (R328 to R331) -/

/-- Number of a clip's first record or element (R328). -/
def clipStart (s : State) (r : TplRun) (start : Bool) (count clip : Nat) : Nat :=
  if start then below (tplDraw s r 0 4 0).x0.toNat (Nat.max 1 (count - clip)) 32 else 0

/-- Pictures whose FRAME lies within that of others. -/
def withinClip (clip l : List (List Byte)) : List (List Byte) :=
  match (clip.map fun y => b32 y 16), leastOf (clip.map fun y => b32 y 16) with
  | fs, some lo => l.filter fun y => lo ≤ b32 y 16 && b32 y 16 ≤ fs.foldl Nat.max 0
  | _, none => []

/-- What a DECODE template's block and its sample's records make of the clip: contexts, its lowest context, the clip's
length, whether its start is drawn, the clip start's FRAME, and the records to decode (R327, R328). -/
structure DecodePlan where
  mask : Nat
  low : Nat
  clip : Nat
  drawn : Bool
  frame : Option Nat
  recs : List Rec
  deriving DecidableEq, Repr

/-- The number of the configuration record of context c. -/
def cfgRec (l : List Byte) (c : Nat) : Nat := b32 l (12 + 4 * c)

def decodePlan (s : State) (r : TplRun) (x : Sample) (l : List Byte) : DecodePlan :=
  let mask := b8 l 2 % 4
  let low := if mask = 2 then 1 else 0
  let drawn := b8 l 5 = 1
  let clip := b32 l 8
  let recs := x.recs.filter fun y => y.recno ≠ captionNo
  let n := clipStart s r drawn recs.length clip
  let first := recs.find? fun y => n ≤ y.recno && y.ctx = low
  let coded (y : Rec) : Bool :=
    y.ctx < 2 && bitN mask y.ctx && y.ctx < contextsOf s x && y.recno ≠ cfgRec l 0 && y.recno ≠ cfgRec l 1
  let from_ (y : Rec) : Bool := !drawn || first.any fun z => z.recno - z.keyback ≤ y.recno
  ⟨mask, low, clip, drawn, if drawn then first.map (·.frame) else none, recs.filter fun y => coded y && from_ y⟩

/-- The picture records that a template's contexts have output. -/
def outOf (x : Sample) (g c : Nat) : List (List Byte) := (x.pics.filter fun y => y.stage = g && y.ctx = c).map (·.bytes)

/-- Pictures output are discarded: their records, and the references to their buffers. -/
def discardPics (s : State) (r : TplRun) (p : PicRec → Bool) : State :=
  match sampleOf s r.h with
  | none => s
  | some x =>
    let out := x.pics.filter fun y => y.stage = r.g && p y
    out.foldl (fun s y =>
      let h := b32 y.bytes 0
      if h = noHandle then s else letGo s r h)
      (setSample s r.h fun z => { z with pics := z.pics.filter fun y => !(y.stage = r.g && p y) })

/-- Before the clip's first picture is output the lowest context's pictures are discarded; those of the other stay until the
clip's FRAME range is known (R328, R329, log entry 25). -/
def discardEarly (s : State) (r : TplRun) (d : DecodePlan) : State :=
  match d.frame with
  | none => if d.drawn then discardPics s r fun _ => true else s
  | some f =>
    let begun := (sampleOf s r.h).any fun x => (outOf x r.g d.low).any fun y => b32 y 16 = f
    let s := if begun then s else discardPics s r fun y => y.ctx = d.low
    let early := match (sampleOf s r.h).map fun x => (outOf x r.g d.low).takeWhile fun y => b32 y 16 ≠ f with
      | some l => l
      | none => []
    discardPics s r fun y => y.ctx = d.low && early.contains y.bytes

/-- Every picture in a context's queue is output; the first that is damaged leaves its cause in the damage record (R299). -/
def outputAll (s : State) (r : TplRun) (c : Nat) : State :=
  let (s, l) := (List.range (queued s r.h c)).foldl (fun (a : State × List (List Byte)) _ =>
    let (s, b) := outputPic a.1 r.h r.g r.g c
    (s, a.2 ++ [b])) (s, [])
  match l.find? fun b => b8 b 21 % 2 = 1 with
  | some b => keepCause s r.h 1 (b8 b 22)
  | none => s

/-- The buffer of a record that a template has read goes back; the record is consumed. -/
def releaseRec (s : State) (h : Nat) (y : Rec) : State :=
  let s := setRec s h y.recno fun z => { z with consumed := true, handle := none }
  match y.handle with
  | some b => dropRef s b
  | none => s

/-- The data of a record that the template has named: its bytes, none when it has none, and its cause. A record not yet named
is named now. -/
def recordData (s : State) (r : TplRun) (y : Rec) : Tpl (Option (List Byte) × Nat) :=
  if !y.named then .later (nameRec s r.h r.g y.recno)
  else if y.status = 2 ∨ y.status = 3 ∨ y.status = 4 then .source y.status y.cause y.failAt
  else match y.handle with
  | none => if y.status = 0 then .wait else .ok s (none, y.cause)
  | some b =>
    (tplLines s r b y.bytes).bind fun s _ =>
      match bufOutcome s b with
      | (0, _) => .ok s (some (bufRead s b 0 y.bytes), if y.damaged then y.cause else 0)
      | (1, c) => if c = 1 then .ok s (some (bufRead s b 0 y.bytes), 1) else .ok s (none, c)
      | (st, c) => .source st c (match landingOf s b with | some (.ended _ _ src off) => (src, off) | _ => (0, 0))

/-- Whether the other context names a configuration record too, and has yet to open with it (R327). -/
def sharedCfg (x : Sample) (l : List Byte) (c : Nat) : Bool :=
  cfgRec l (1 - c) = cfgRec l c && bitN (b8 l 2) (1 - c) && (ctxOf x (1 - c)).isNone

/-- The template opens a context with its options and its configuration record (R311, R327). One that is REJECTED drops the
sample (log entry 25). -/
def openCtx (s : State) (r : TplRun) (x : Sample) (l : List Byte) (c : Nat) : Tpl TplEnd :=
  let format := if c = 1 ∧ b8 l 1 ≠ 0 then b8 l 1 else b8 l 0
  let opts := ctxOpts (toLe 1 1 ++ toLe 1 format ++ List.replicate 10 0 ++ toLe 1 (b8 l 3) ++ toLe 1 (b8 l 4))
  let go (s : State) (cfg : Option (List Byte)) (used : Option Rec) : Tpl TplEnd :=
    match openWith s r.h r.g c opts cfg 0 0 with
    | .done s st _ => if st = 0 then .later (match used with | some y => releaseRec s r.h y | none => s) else .ok s ⟨3, []⟩
    | .wait s => .later s
    | .gone s => .gone s
  match x.recs.find? fun y => y.recno = cfgRec l c && y.recno ≠ captionNo && !y.consumed with
  | none => go s none none
  | some y => (recordData s r y).bind fun s d => go s d.1 (if sharedCfg x l c then none else some y)

/-- One record is decoded, and what its context outputs is kept or discarded. -/
def decodeRec (s : State) (r : TplRun) (d : DecodePlan) (c : Ctx) (y : Rec) : Tpl TplEnd :=
  (recordData s r y).bind fun s e =>
    if euBusy s r.th then .wait
    else match runAu s r.th r.h c ⟨BitVec.ofNat 32 y.frame, y.flags % 32, e.2, e.1⟩ with
    | .error t => if t = s then .wait else .full
    | .ok (s, _, _) =>
      let s := dropPics (outputAll s r c.ctx) r.h c.ctx
      .later (discardEarly (releaseRec s r.h y) r d)

/-- The contexts that the stage holds are flushed and closed. -/
def finishCtxs (s : State) (r : TplRun) (d : DecodePlan) (l : List Ctx) : State :=
  l.foldl (fun s c =>
    let s := outputAll (flushOut s r.h c) r c.ctx
    match (sampleOf s r.h).bind fun x => (ctxOf x c.ctx).map fun c => (x, c) with
    | some (x, c) => discardEarly (closeCtx s x c) r d
    | none => s) s

/-- The list of the pictures that the template's contexts have output (R329 to R331). -/
def decodeList (s : State) (r : TplRun) (x : Sample) (d : DecodePlan) (limit : Nat) : Tpl TplEnd :=
  let all := outOf x r.g d.low
  let taken := if d.clip = 0 then all else all.take d.clip
  let other := withinClip taken (outOf x r.g (1 - d.low))
  let short := d.clip ≠ 0 && taken.length < d.clip
  let list : PicList := ⟨(taken.head?.map fun z => b32 z 16).getD 0, short, if d.low = 0 then taken else other,
    if d.low = 0 then other else taken⟩
  let s := discardPics s r fun y => !(list.recs y.ctx).contains y.bytes
  let s := setSample s r.h fun y => { y with short := y.short || short, damagedPics := list.bad }
  handList s r list (limitState list limit)

/-- What is left to decode: everything, or, once the clip is whole, the other context up to its last record within the clip's
frames (R328, R329). -/
def leftOver (x : Sample) (g : Nat) (d : DecodePlan) : List Rec :=
  let rest := d.recs.filter fun y => !y.consumed
  let out := outOf x g d.low
  if d.clip = 0 ∨ out.length < d.clip then rest
  else
    let last := maxOf ((out.take d.clip).map fun z => b32 z 16)
    (((rest.filter fun y => y.ctx ≠ d.low).reverse).dropWhile fun y => last < y.frame).reverse

/-- The DECODE template: each END does the next piece of its work, a record named, a context opened, an access unit decoded or
the contexts flushed, and the last hands over the list (log entry 25). -/
def tplDecode (s : State) (r : TplRun) : Tpl TplEnd :=
  match sampleOf s r.h with
  | none => .gone s
  | some x =>
    if x.dirStatus = 2 ∨ x.dirStatus = 3 ∨ x.dirStatus = 4 then .source x.dirStatus x.dirCause x.dirAt
    else if x.dirStatus = 0 ∧ !x.recsRead then .wait
    else
      let l := tplParams s r
      let d := decodePlan s r x l
      let open_ := x.ctxs.filter fun c => c.stage = r.g
      match leftOver x r.g d with
      | y :: _ =>
        match ctxOf x y.ctx with
        | none => openCtx s r x l y.ctx
        | some c => if c.stage = r.g then decodeRec s r d c y else .fault 4
      | [] => if open_.isEmpty then decodeList s r x d (b16 l 6) else .later (finishCtxs s r d open_)

/-! ### RAW_UNPACK (R332 to R334, R669) -/

/-- The fields of a RAW_UNPACK block (Table 9.7). -/
structure RawSet where
  pack : Nat
  comps : Nat
  chroma : Nat
  rgb : Bool
  bswap : Bool
  alpha : Bool
  depth : Nat
  out16 : Bool
  drop : Bool
  width : Nat
  height : Nat
  dataOff : Nat
  rowPad : Nat
  deriving DecidableEq, Repr

def parseRaw (l : List Byte) : RawSet :=
  { pack := b8 l 0, comps := bits (b8 l 1) 2 0, chroma := bits (b8 l 1) 4 3, rgb := bitN (b8 l 1) 5, bswap := bitN (b8 l 1) 6,
    alpha := bitN (b8 l 1) 7, depth := bits (b8 l 2) 4 0, out16 := bitN (b8 l 2) 5, drop := bitN (b8 l 3) 0,
    width := b16 l 4, height := b16 l 6, dataOff := b32 l 8, rowPad := b32 l 12 }

/-- Planar packings (Table 9.8). -/
def RawSet.planar (w : RawSet) : Bool := w.pack = 7 || w.pack = 8

/-- Size of component k's plane. -/
def RawSet.size (w : RawSet) (k : Nat) : Nat × Nat :=
  let (sx, sy) := if w.planar then subsOf (if w.chroma = 0 then 3 else w.chroma) 0 w.comps w.rgb w.alpha k else (1, 1)
  (ceilDiv w.width sx, ceilDiv w.height sy)

/-- Bytes of a row of n samples. -/
def RawSet.row (w : RawSet) (n : Nat) : Nat :=
  if w.pack ≤ 2 then ceilDiv n 3 * 4 else if w.pack = 3 then ceilDiv (n * 10) 32 * 4
  else if w.pack = 5 ∨ w.pack = 7 then n else 2 * n

/-- n bytes of an element at an offset as one word, in the packing's byte order. -/
def RawSet.word (w : RawSet) (l : List Byte) (o n : Nat) : Nat :=
  if w.bswap then leNat ((sliceB l o n).reverse) else leAt l o n

/-- Sample j of the row that begins at byte o (Table 9.8). -/
def RawSet.sample (w : RawSet) (l : List Byte) (o j : Nat) : Nat :=
  if w.pack = 1 then w.word l (o + 4 * (j / 3)) 4 / 2 ^ (22 - 10 * (j % 3)) % 1024
  else if w.pack = 2 then w.word l (o + 4 * (j / 3)) 4 / 2 ^ (20 - 10 * (j % 3)) % 1024
  else if w.pack = 3 then
    let p := 10 * j
    let two := w.word l (o + 4 * (p / 32)) 4 * 2 ^ 32 + w.word l (o + 4 * (p / 32) + 4) 4
    two / 2 ^ (54 - p % 32) % 1024
  else if w.pack = 4 then w.word l (o + 2 * j) 2 / 16
  else if w.pack = 5 ∨ w.pack = 7 then leAt l (o + j) 1
  else if w.pack = 9 then w.word l (o + 2 * j) 2 / 2 ^ (16 - w.depth)
  else w.word l (o + 2 * j) 2 % 2 ^ w.depth

/-- Byte offset of row y of component k within an element, the row's samples and its bytes without padding. -/
def RawSet.rowAt (w : RawSet) (k y : Nat) : Nat × Nat :=
  if w.planar then
    let before := ((List.range k).map fun i => (w.row (w.size i).1 + w.rowPad) * (w.size i).2).foldl (· + ·) 0
    let n := w.row (w.size k).1
    (w.dataOff + before + y * (n + w.rowPad), n)
  else
    let n := w.row (w.width * w.comps)
    (w.dataOff + y * (n + w.rowPad), n)

/-- Bytes that DATA_OFF and the frame need. -/
def RawSet.need (w : RawSet) : Nat :=
  if w.planar then
    w.dataOff + ((List.range w.comps).map fun i => (w.row (w.size i).1 + w.rowPad) * (w.size i).2).foldl (· + ·) 0
  else w.dataOff + (w.row (w.width * w.comps) + w.rowPad) * w.height

/-- The component that plane k of the output shows: R, G, B go to G, B, R. -/
def RawSet.comp (w : RawSet) (k : Nat) : Nat :=
  if w.rgb then if k = 0 then 1 else if k = 1 then 2 else if k = 2 then 0 else k else k

/-- Plane k from an element's bytes, none where its rows do not reach. -/
def RawSet.plane (w : RawSet) (l : List Byte) (k : Nat) : Config.Plane :=
  let c := w.comp k
  let (pw, ph) := w.size c
  ⟨pw, ph, (List.range ph).flatMap fun y =>
    let (o, n) := w.rowAt c y
    (List.range pw).map fun x =>
      if l.length < o + n then none else some (w.sample l o (if w.planar then x else x * w.comps + c))⟩

/-- The picture of an element: its bytes, none for one without data, and the cause its source gave (R334, R669). -/
def RawSet.pic (w : RawSet) (frame : Nat) (l : Option (List Byte)) (cause : Nat) : Config.Pic :=
  let bytes := l.getD []
  let cut := l.isSome && bytes.length < w.need
  let why := if cause ≠ 0 then cause else if cut then 0x17 else 0
  let colour := w.comps - (if w.alpha then 1 else 0)
  let p : Config.Pic :=
    { (default : Config.Pic) with
      width := w.width, height := w.height, outW := w.width, outH := w.height, frame := BitVec.ofNat 32 frame, rgb := w.rgb
      chroma := if w.planar ∧ w.chroma ≠ 0 then w.chroma else if 3 ≤ colour then 3 else 0
      depth := w.depth, alpha := w.alpha, cause := BitVec.ofNat 8 why
      planes := (List.range w.comps).map (w.plane bytes) }
  let p := concealFrom none p
  { p with absent := why ≠ 0 && w.drop }

/-- Whether the stage's reservation can supply a buffer of n bytes (R216). -/
def tplSupplies (s : State) (r : TplRun) (n : Nat) : Bool :=
  (threadOf s r.th).any fun t => let (k, m) := picClass n; holdsOf s t k + m ≤ poolOf s t k

/-- A picture that no buffer of the reservation can hold is damaged with cause DPB_SHORT, unless another cause stands, and
absent (R315, R322). -/
def withoutBuffer (p : Config.Pic) : Config.Pic := { p with absent := true, cause := if p.cause = 0 then 0x1A else p.cause }

/-- One element becomes a picture record, its planes in a buffer of the stage. -/
def rawPicture (s : State) (r : TplRun) (w : RawSet) (y : Rec) (order : Nat) : Tpl (List Byte) :=
  (recordData s r y).bind fun s (l, cause) =>
    let p := w.pic y.frame l cause
    let c := contBytes w.depth w.out16
    let p := if tplSupplies s r (planesBytes c (picSizes p)) then p else withoutBuffer p
    if p.absent then .ok s (picRecBytes p noHandle (c = 2) order)
    else
      (tplBuffer s r (p.planes.flatMap fun q => planeData c q.w q.h (planePx q))).bind fun s b =>
      .ok s (picRecBytes p b (c = 2) order)

/-- The RAW_UNPACK template: each END unpacks one element, and the last hands over the list (log entry 25). -/
def tplRaw (s : State) (r : TplRun) : Tpl TplEnd :=
  match sampleOf s r.h with
  | none => .gone s
  | some x =>
    if x.dirStatus = 2 ∨ x.dirStatus = 3 ∨ x.dirStatus = 4 then .source x.dirStatus x.dirCause x.dirAt
    else if x.dirStatus = 0 ∧ !x.recsRead then .wait
    else
      let l := tplParams s r
      let clip := b32 l 16
      let recs := x.recs.filter fun y => y.recno ≠ captionNo
      let n := clipStart s r (b8 l 20 = 1) recs.length clip
      let after := recs.filter fun y => n ≤ y.recno
      let taken := if clip = 0 then after else after.take clip
      let done := outOf x r.g 0
      match taken.drop done.length with
      | y :: _ =>
        (rawPicture s r (parseRaw l) y done.length).bind fun s b =>
          let s := if b8 b 21 % 2 = 1 then keepCause s r.h 1 (b8 b 22) else s
          .later (setSample (releaseRec s r.h y) r.h fun z => { z with pics := z.pics ++ [⟨r.g, 0, b⟩] })
      | [] =>
        let short := taken.length < clip
        let list : PicList := ⟨(taken.head?.map (·.frame)).getD 0, short, done, []⟩
        let s := setSample s r.h fun y => { y with short := y.short || short, damagedPics := list.bad }
        handList s r list (limitState list (b16 l 22))

/-! ### Pictures made from pictures -/

/-- The window of a picture as a picture of its own in a new buffer, sample (x, y) of plane k given by px. -/
def makePic (s : State) (r : TplRun) (p : PicIn) (o : OutShape) (px : Nat → Nat → Nat → Nat) : Tpl PicIn :=
  let c := if o.o16 then 2 else 1
  let data := (o.sizes p).zipIdx.flatMap fun (d, k) => planeData c d.1 d.2 (px k)
  (tplBuffer s r data).bind fun s b => .ok s ⟨outRecord o p b, b⟩

/-- The tile's IU has worked n pixels for a template (Table 18.10). -/
def tplPixels (r : TplRun) (n : Nat) (s : State) : State := tileEvent s r.th 0x030 n

/-- Runs f over the pictures of the contexts that a mask selects; f gets the picture and its place in its context's list.
Absent pictures, and those of other contexts, are carried over (R382, R383). -/
def overList (s : State) (r : TplRun) (l : PicList) (mask : Nat) (f : State → PicIn → Nat → Tpl (List Byte)) : Tpl PicList :=
  let one (c : Nat) (s : State) (e : List Byte × Nat) : Tpl (List Byte) :=
    let p := picOf e.1
    if bitN mask c && picOk s r.h p then f s p e.2 else .ok s e.1
  (tplAll (one 0) s l.recs0.zipIdx).bind fun s a =>
  (tplAll (one 1) s l.recs1.zipIdx).bind fun s b => .ok s { l with recs0 := a, recs1 := b }

/-- A template over its parent's list publishes its parent's state (R382). -/
def mapTemplate (s : State) (r : TplRun) (mask : Nat) (f : State → PicIn → Nat → Tpl (List Byte)) : Tpl TplEnd :=
  (parentList s r).bind fun s l => (overList s r l mask f).bind fun s m =>
    let st := match tplParent s r with | some (x, p) => parentState x p | none => 1
    handList s r m st

/-- A shape of a given size that keeps a picture's planes. -/
def shapeOf (p : PicIn) (w h depth : Nat) (o16 : Bool) : OutShape :=
  let d := if depth = 0 then p.depth else depth
  ⟨w, h, p.count, p.rgb, p.chroma, d, o16 || d ≠ 8⟩

/-! ### GEOMETRY (R379 to R382) -/

/-- FP32 product of a value and an exact u24, rounded once (R244). -/
def mulU (a : Word) (w : Word) : Word := toFp32 ((ofFp32 a).mul (u24 w))

/-- Square root, correctly rounded; the quiet NaN below zero. -/
def f32sqrt (x : Word) : Word :=
  match ofFp32 x with
  | .nan => 0x7FC00000
  | .inf neg => if neg then 0x7FC00000 else x
  | .fin neg m e =>
    if m = 0 then x
    else if neg then 0x7FC00000
    else
      let odd := e % 2 ≠ 0
      let n := (if odd then 2 * m else m) * 2 ^ 64
      let q := isqrt 48 n 0
      toFp32 (.fin false (2 * q + (if q * q = n then 0 else 1)) ((if odd then e - 1 else e) / 2 - 33))

/-- Crop origin and size. -/
structure Crop where
  x : Int
  y : Int
  w : Nat
  h : Nat
  deriving DecidableEq, Repr

/-- One attempt of MODE 3 (R380). -/
def cropAttempt (l : List Byte) (w h : Nat) (q : Quad) : Option Crop :=
  let area := f32mul (f32mul (f32n w) (f32n h)) (f32add (f32At l 16) (mulU (f32sub (f32At l 20) (f32At l 16)) q.x0))
  let k := exp32 (f32add (f32At l 24) (mulU (f32sub (f32At l 28) (f32At l 24)) q.x1))
  let cw := f32rne (f32sqrt (f32mul area k))
  let ch := f32rne (f32sqrt (f32div area k))
  if 1 ≤ cw ∧ cw ≤ w ∧ 1 ≤ ch ∧ ch ≤ h then
    some ⟨(below q.x2.toNat (w - cw.toNat + 1) 32 : Nat), (below q.x3.toNat (h - ch.toNat + 1) 32 : Nat), cw.toNat, ch.toNat⟩
  else none

/-- The crop of MODE 3 when no attempt fits (R380). -/
def cropRest (l : List Byte) (w h : Nat) : Crop :=
  let ri := f32div (f32n w) (f32n h)
  let lo := exp32 (f32At l 24)
  let hi := exp32 (f32At l 28)
  let (cw, ch) : Int × Int :=
    if f32lt ri lo then ((w : Int), f32rne (f32div (f32n w) lo))
    else if f32lt hi ri then (f32rne (f32mul (f32n h) hi), (h : Int))
    else ((w : Int), (h : Int))
  ⟨((w : Int) - cw) / 2, ((h : Int) - ch) / 2, cw.toNat, ch.toNat⟩

/-- The crop of a picture at frame field f (R380). -/
def cropOf (s : State) (r : TplRun) (l : List Byte) (p : PicIn) (f : Nat) : Crop :=
  let m := b8 l 0 % 4
  if m = 0 then ⟨0, 0, p.outW, p.outH⟩
  else if m = 1 then ⟨signed16 (b16 l 8), signed16 (b16 l 10), b16 l 12, b16 l 14⟩
  else if m = 2 then
    ⟨((p.outW : Int) - b16 l 12) / 2, ((p.outH : Int) - b16 l 14) / 2, b16 l 12, b16 l 14⟩
  else ((List.range 10).findSome? fun a => cropAttempt l p.outW p.outH (tplDraw s r f 1 a)).getD (cropRest l p.outW p.outH)

/-- A value drawn symmetrically: (mid - range) + (2 range) u24 (R381, R385). -/
def spread2 (mid range w : Word) : Word := f32add (f32sub mid range) (mulU (f32mul (f32n 2) range) w)

/-- The warp matrix as six FP32 values (R381), each evaluated left to right. -/
def warpMatrix (l : List Byte) (c : Crop) (ow oh : Nat) (q : Quad) : List Byte :=
  let h := f32add (f32neg (f32At l 40)) (mulU (f32mul (f32n 2) (f32At l 40)) q.x0)
  let sc := spread2 (f32n 1) (f32At l 44) q.x1
  let cw := f32n c.w
  let ch := f32n c.h
  let shift (w : Word) (n : Word) : Word :=
    f32mul (f32add (f32neg (f32At l 48)) (mulU (f32mul (f32n 2) (f32At l 48)) w)) n
  let tx := shift q.x2 cw
  let ty := shift q.x3 ch
  let co := cospi h
  let si := sinpi h
  let den (n : Nat) : Word := f32mul (f32n n) sc
  let two := f32mul (f32n 2) sc
  let a := f32div (f32mul co cw) (den ow)
  let b := f32div (f32mul si ch) (den oh)
  let cc := f32sub (f32sub (f32add (f32n c.x) (f32div cw (f32n 2))) tx) (f32div (f32add (f32mul co cw) (f32mul si ch)) two)
  let d := f32div (f32mul (f32neg si) cw) (den ow)
  let e := f32div (f32mul co ch) (den oh)
  let ff := f32sub (f32sub (f32add (f32n c.y) (f32div ch (f32n 2))) ty) (f32div (f32sub (f32mul co ch) (f32mul si cw)) two)
  [a, b, cc, d, e, ff].flatMap fun v => toLe 4 v.toNat

/-- A word for a sample of a template's picture whose value is not a number, of its parameter block and the sample's place
(R234, R257, log entry 4). -/
def tplFree (l : List Byte) (at_ : List Nat) : Word := Config.contentWord 5 (l.map (·.toNat) ++ at_)

/-- One picture through GEOMETRY. -/
def geometryPic (l : List Byte) (r : TplRun) (s : State) (p : PicIn) (pos : Nat) : Tpl (List Byte) :=
  let f := if bitN (b8 l 0) 5 then pos % 2 ^ 16 else 0
  let flips := (tplDraw s r f 2 0).x0.toNat
  let c := cropOf s r l p f
  let ow := b16 l 4
  let oh := b16 l 6
  let b : IuBlk :=
    { func := 1, filter := bits (b8 l 0) 3 2, flipH := flips % 65536 < b16 l 32, flipV := flips / 65536 < b16 l 34,
      edge := bitN (b8 l 0) 4, odepth := b8 l 2 % 32, o16 := bitN (b8 l 2) 5, src := p.buf, dst := 0, srec := 0, drec := 0,
      cx := c.x, cy := c.y, cw := c.w, ch := c.h, ow := ow, oh := oh, aux := 0, edgeVal := b16 l 36 }
  let o := shapeOf p ow oh b.odepth b.o16
  let px (k : Nat) : Nat → Nat → Nat :=
    if bitN (b8 l 0) 6 then warpPx s b p (warpMatrix l c ow oh (tplDraw s r f 1 16)) (tplFree l) o.depth k
    else resamplePx s b p o.depth k
  (makePic s r p o px).bind fun s q =>
    .ok (tplPixels r (if bitN (b8 l 0) 6 then ow * oh else Nat.max (c.w * c.h) (ow * oh)) s) q.rec_

def tplGeometry (s : State) (r : TplRun) : Tpl TplEnd :=
  let l := tplParams s r
  mapTemplate s r (b8 l 1) (geometryPic l r)

/-! ### COLOUR (R383) -/

/-- A COLOUR auxiliary block with bytes 0 and 1 and the jitter given. -/
def colourAux (a b : Nat) (j : Jit) : List Byte :=
  toLe 1 a ++ toLe 1 b ++ List.replicate 50 0 ++ ([j.b, j.c, j.s, j.h].flatMap fun v => toLe 4 v.toNat) ++ List.replicate 60 0

def neutralJit : Jit := ⟨f32n 1, f32n 1, f32n 1, 0⟩

/-- One picture through COLOUR; one that its command refuses, in or to narrow range with a depth below 8 (R374), is carried
over (log entry 32). -/
def colourPic (l : List Byte) (r : TplRun) (s : State) (p : PicIn) (_ : Nat) : Tpl (List Byte) :=
  let aux := colourAux (b8 l 0) (b8 l 1) neutralJit
  let d := if b8 l 2 % 32 = 0 then p.depth else b8 l 2 % 32
  if !bitN (b8 aux 0) 2 && decide (p.depth < 8) || !bitN (b8 aux 0) 3 && decide (d < 8) then .ok s p.rec_ else
  let o : OutShape := ⟨p.outW, p.outH, 3 + (if p.alpha then 1 else 0), bitN (b8 l 0) 6, 3, d, bitN (b8 l 2) 5 || d ≠ 8⟩
  (makePic s r p o fun k x y => colourPx s p aux (tplFree l [k, x, y]) d o.count k x y).bind fun s q =>
    .ok (tplPixels r (p.outW * p.outH) s) q.rec_

def tplColour (s : State) (r : TplRun) : Tpl TplEnd :=
  let l := tplParams s r
  mapTemplate s r (b8 l 3) (colourPic l r)

/-! ### AUGMENT (R384 to R387) -/

/-- A step of AUGMENT on a picture: whether the IU serves it, and sample (x, y) of plane k of the result. -/
structure AugOp where
  iu : Bool
  px : State → PicIn → Nat → Nat → Nat → Nat

/-- Colour jitter, when it is drawn (R385). -/
def augJitter (l : List Byte) (draw : Nat → Nat → Quad) : Option AugOp :=
  let q := draw 3 0
  if bitN (b8 l 0) 0 && (draw 3 1).x0.toNat % 65536 < b16 l 4 then
    let one := f32n 1
    let j : Jit := ⟨spread2 one (f32At l 12) q.x0, spread2 one (f32At l 16) q.x1, spread2 one (f32At l 20) q.x2,
      f32add (f32neg (f32At l 24)) (mulU (f32mul (f32n 2) (f32At l 24)) q.x3)⟩
    let full := if bitN (b8 l 3) 2 then 12 else 0
    some <| .mk true fun s p k x y => jitterPx s p (colourAux (b8 l 3 % 4 + full) 64 j) (tplFree l [k, x, y]) p.depth k x y
  else none

/-- Blur, when it is drawn. -/
def augBlur (l : List Byte) (draw : Nat → Nat → Quad) : Option AugOp :=
  let q := draw 3 2
  if bitN (b8 l 0) 1 && q.x0.toNat % 65536 < b16 l 6 then
    let sg := f32add (f32At l 28) (mulU (f32sub (f32At l 32) (f32At l 28)) q.x1)
    let aux := toLe 4 sg.toNat ++ toLe 4 sg.toNat
    some <| .mk true fun s p k => blurPx s (parseIu (List.replicate 64 0)) p aux p.depth k
  else none

/-- Sizes of the planes of a picture's window. -/
def PicIn.windows (p : PicIn) : List (Nat × Nat) :=
  (List.range p.count).map fun k => (ceilDiv p.outW (p.sub k).1, ceilDiv p.outH (p.sub k).2)

/-- Samples of the noised planes before plane k. -/
def noiseBase (l : List Byte) (p : PicIn) (k : Nat) : Nat :=
  (((p.windows.zipIdx).filter fun (_, i) => i < k && bitN (b8 l 2) i).map fun (d, _) => d.1 * d.2).foldl (· + ·) 0

/-- Noise, when it is drawn (R386). -/
def augNoise (l : List Byte) (draw : Nat → Nat → Quad) : Option AugOp :=
  if bitN (b8 l 0) 2 && (draw 5 (2 ^ 47)).x0.toNat % 65536 < b16 l 8 then
    some <| .mk false fun s p k x y =>
      let v := Win.px (winOf s p k) x y
      if bitN (b8 l 2) k then
        let i := noiseBase l p k + y * (p.windows.getD k (0, 0)).1 + x
        let z := normalOf (((draw 5 (i / 4)).word (i % 4)).toNat / 256) 24
        quantD p.depth (tplFree l [k, x, y]) (f32add (f32n v) (f32mul (f32mul (f32At l 36) z) (f32n (2 ^ p.depth - 1))))
      else v
  else none

/-- The k lowest of keys by number, the lower number first on equal keys. -/
def lowestKeys (keys : List Nat) (k : Nat) : List Nat :=
  (((keys.zipIdx).mergeSort fun a b => a.1 < b.1 || (a.1 = b.1 && a.2 ≤ b.2)).take k).map (·.2)

/-- The patch mask (R387). -/
def augMask (l : List Byte) (draw : Nat → Nat → Quad) (p : PicIn) : Option AugOp :=
  if bitN (b8 l 0) 3 then
    let n := b8 l 40
    let across := ceilDiv p.outW n
    let q := across * ceilDiv p.outH n
    let keys := (List.range q).map fun i => ((draw 6 (2 ^ 47 + i / 4)).word (i % 4)).toNat
    let masked := lowestKeys keys ((b16 l 42 * q + 32768) / 65536)
    some <| .mk false fun s p k x y =>
      let (sx, sy) := p.sub k
      let hit := masked.contains (y * sy / n * across + x * sx / n)
      let v := Win.px (winOf s p k) x y
      match p.kind k with
      | .alpha => v
      | .main => if hit then b16 l 44 else v
      | .chroma => if hit then 2 ^ (p.depth - 1) else v
  else none

/-- The steps that apply, one after another: each makes a new picture of its parent's window, and the buffer of the step
before is freed once it has been read. -/
def augSteps (r : TplRun) (made : Bool) (s : State) (p : PicIn) : List AugOp → Tpl (List Byte)
  | [] => .ok s p.rec_
  | op :: ops =>
    (makePic s r p (shapeOf p p.outW p.outH 0 (p.cont = 2)) fun k => op.px s p k).bind fun s q =>
      let s := tplPixels r (if op.iu then p.outW * p.outH else 0) s
      augSteps r true (if made then letGo s r p.buf else s) q ops

/-- One picture through AUGMENT, in the order of Table 11.8; one that no step touches is carried over. The COLOUR command of
jitter refuses a narrow-range picture of depth below 8 (R374), which the step then leaves as it is (log entry 32). -/
def augmentPic (l : List Byte) (r : TplRun) (s : State) (p : PicIn) (pos : Nat) : Tpl (List Byte) :=
  let f := if bitN (b8 l 0) 4 then pos % 2 ^ 16 else 0
  let draw (purpose n : Nat) : Quad := tplDraw s r f purpose n
  let jitter := if bitN (b8 l 3) 2 || 8 ≤ p.depth then augJitter l draw else none
  augSteps r false s p ([jitter, augBlur l draw, augNoise l draw, augMask l draw p].filterMap id)

def tplAugment (s : State) (r : TplRun) : Tpl TplEnd :=
  let l := tplParams s r
  mapTemplate s r (b8 l 1) (augmentPic l r)

/-! ### TEMPORAL (R388 to R391) -/

/-- The times q_k of the output pictures in 1/256 picture, and whether an unjittered one exceeds the last picture (R389). -/
def temporalTimes (l : List Byte) (draw : Nat → Quad) (len : Nat) : List Nat × Bool :=
  let t := b16 l 2
  let num := b16 l 4
  let den := b16 l 6
  let j := b8 l 1
  let span := (t - 1) * den * 256 / num
  let m := Nat.max 1 (len - (span + 255) / 256)
  let o := if bitN (b8 l 0) 2 then below (draw 1).x0.toNat m 32 else 0
  let last : Int := ((len - 1 : Nat) : Int) * 256
  let plain_ (k : Nat) : Int := ((o * 256 + k * den * 256 / num : Nat) : Int)
  let time (k : Nat) : Nat :=
    let w := ((draw (2 + k / 4)).word (k % 4)).toNat
    let q := if 0 < j then plain_ k + ((below w (2 * j + 1) 32 : Nat) - (j : Int)) * 256 else plain_ k
    (clampI 0 last q).toNat
  ((List.range t).map time, (List.range t).any fun k => last < plain_ k)

/-- The nearest picture to i that is not absent, the lower on a tie. -/
def nearestPic (l : List (List Byte)) (i : Nat) : Option (List Byte) :=
  let ok (n : Nat) : Option (List Byte) := (l[n]?).filter fun y => !(picOf y).absent
  (List.range (l.length + 1)).findSome? fun d => (if d ≤ i then ok (i - d) else none).or (ok (i + d))

/-- A record with ORDER k. -/
def withOrder (l : List Byte) (k : Nat) : List Byte := l.take 24 ++ toLe 4 k ++ l.drop 28

/-- Two pictures that one command can blend (R363). -/
def sameShape (p q : PicIn) : Bool :=
  q.outW = p.outW && q.outH = p.outH && q.count = p.count && q.rgb = p.rgb && q.chroma = p.chroma && q.alpha = p.alpha &&
  q.depth = p.depth && b8 q.rec_ 28 = b8 p.rec_ 28

/-- The network of MODE 2 for pictures of C planes, where R480 lets a pair pass through it. -/
def temporalNet (s : State) (r : TplRun) (p q : PicIn) : Option Model :=
  ((threadOf s r.th).bind fun t => stageModel s t 0).filter fun m =>
    q.count = p.count && ((p.sizes ++ q.sizes).all fun z => z = p.sizes.headD (0, 0)) &&
    ((m.layers[0]?).any fun y => y.k = 2 * p.count + 1) && ((m.layers.getLast?).any fun y => y.n = p.count)

/-- Whether each of the layers takes FP32 rows of the width that the one before gives (R434, R473): where one does not, no
rule gives its job a result (log entry 26). -/
def netRuns (m : Model) : Bool :=
  (m.layers.all fun y => floatType y.fmtB) && ((m.layers.zip (m.layers.drop 1)).all fun (a, b) => b.k = a.n)

/-- The last layer's row for one luma position, of the input row given (R479). -/
def netRow (s : State) (r : TplRun) (m : Model) (row : List Word) : List Byte :=
  let b : BlsBlk :=
    { func := 1, msel := 0, round := 0, nosat := false, fa := 7, fc := 7, idx := 0, aOff := 0, aStr := 0, cOff := 0, cStr := 0,
      m := 1, purpose := 0, draw := 0, frame := 0, temp := 0 }
  m.layers.foldl (fun l y => layerRow s r.h m y b l 0) (row.flatMap fun v => toLe 4 v.toNat)

/-- Sample (x, y) of plane k of the picture that the network makes of two at phase w/256 (R479). -/
def netPx (s : State) (r : TplRun) (m : Model) (p q : PicIn) (w k x y : Nat) : Nat :=
  let at_ (z : PicIn) (c : Nat) : Word :=
    f32div (f32n (((winOf s z c).px x y : Nat) : Int)) (f32n (2 ^ z.depth - 1))
  let row := (List.range p.count).map (at_ p) ++ (List.range p.count).map (at_ q) ++ [f32div (f32n w) (f32n 256)]
  let free := Config.contentWord 6 ([m.id, k, x, y] ++ row.map (·.toNat))
  if netRuns m then
    let v := BitVec.ofNat 32 (leAt (netRow s r m row) (4 * k) 4)
    quantD p.depth free (f32mul v (f32n (2 ^ p.depth - 1)))
  else free.toNat % 2 ^ p.depth

/-- Cell operations of LAYER jobs over n rows, of at most 4,096 rows each (R479, R486, Table 18.10). -/
def layerCells (ls : List Layer) (n : Nat) : Nat :=
  ((List.range (ceilDiv n 4096)).flatMap fun i => ls.map fun y => cellOps (Nat.min 4096 (n - 4096 * i)) y.n y.k).foldl
    (· + ·) 0

/-- The picture between two, at phase w/256: a blend, or in MODE 2 what the network makes of them (R390, R479, R480). -/
def between (s : State) (r : TplRun) (net : Bool) (p q : PicIn) (w : Nat) : Tpl (List Byte) :=
  let o := shapeOf p p.outW p.outH 0 (p.cont = 2)
  let m := if net then temporalNet s r p q else none
  let px (k x y : Nat) : Nat :=
    match m with
    | some m => netPx s r m p q w k x y
    | none => blendPx s p q w p.depth k x y
  let copy := if !p.damaged && q.damaged then q else p
  let count (s : State) : State := match m with
    | some m => tileEvent s r.th 0x038 (layerCells m.layers (p.outW * p.outH))
    | none => tplPixels r (p.outW * p.outH) s
  (makePic s r copy o px).bind fun s z => .ok (count s) z.rec_

/-- Output picture k at time q. In MODE 2 a pair whose planes have one size passes through the network at every phase, and
another pair is blended as in MODE 1 (R390, R480). -/
def temporalPic (s : State) (r : TplRun) (mode : Nat) (l : List (List Byte)) (k q : Nat) : Tpl (List Byte) :=
  let near (i : Nat) : List Byte := (nearestPic l i).getD []
  let absent (i : Nat) : Bool := (l[i]?).any fun y => (picOf y).absent
  if mode = 0 then .ok s (withOrder (near ((q + 127) / 256)) k)
  else
    let i := q / 256
    let j := Nat.min (i + 1) (l.length - 1)
    let w := q % 256
    if w = 0 ∧ mode = 1 ∨ absent j ∧ !absent i then .ok s (withOrder (near i) k)
    else if absent i ∧ !absent j then .ok s (withOrder (near j) k)
    else
      let a := picOf (near i)
      let b := picOf (near j)
      let net := mode = 2 && (temporalNet s r a b).isSome
      if !net && (w = 0 || a = b || !sameShape a b) then .ok s (withOrder (near i) k)
      else (between s r net a b w).bind fun s y => .ok s (withOrder y k)

def tplTemporal (s : State) (r : TplRun) : Tpl TplEnd :=
  (parentList s r).bind fun s m =>
    let l := tplParams s r
    let c := if m.recs0.isEmpty then 1 else 0
    let src := m.recs c
    if src.all fun y => (picOf y).absent then .ok s ⟨3, []⟩
    else
      let (times, over_) := temporalTimes l (tplDraw s r 0 4) src.length
      (tplAll (fun s (q, k) => temporalPic s r (b8 l 0 % 4) src k q) s times.zipIdx).bind fun s out =>
        let list : PicList := { m with
          short := m.short || over_, recs0 := if c = 0 then out else m.recs0, recs1 := if c = 0 then m.recs1 else out }
        let s := if over_ then setSample s r.h fun y => { y with short := true } else s
        handList s r list (if out.any fun y => (picOf y).damaged then 2 else 1)

end Sys2Proof.Machine
end

