-- ==== Sys2Proof/Machine/Outputs.lean ====
section
/-!
DEFINITION. The stage templates PATCHIFY, TOKENISE and PACK (R425 to R430, R481 to R486, R492 to R495), and END, by which a
template's thread brings its result about (log entry 25).
-/

namespace Sys2Proof.Machine

/-! ### PATCHIFY (R481 to R486) -/

structure PatchSet where
  p : Nat
  t : Nat
  tube : Bool
  mask : Bool
  keepOnly : Bool
  proj : Bool
  ctx : Nat
  planes : List Nat
  etype : Nat
  round : Nat
  nosat : Bool
  norm : Bool
  mratio : Nat
  frames : Nat
  deriving DecidableEq, Repr

def parsePatch (l : List Byte) : PatchSet :=
  { p := b8 l 0 % 64, t := b8 l 1 % 16, tube := bitN (b8 l 1) 4, mask := bitN (b8 l 1) 5, keepOnly := bitN (b8 l 1) 6,
    proj := bitN (b8 l 1) 7, ctx := b8 l 2 % 2, planes := (List.range 4).filter fun k => bitN (b8 l 2) (4 + k),
    etype := b8 l 3, round := b8 l 4 % 4, nosat := bitN (b8 l 4) 2, norm := bitN (b8 l 4) 3, mratio := b16 l 6,
    frames := b32 l 8 }

/-- Window size of plane k. -/
def winSize (p : PicIn) (k : Nat) : Nat × Nat := (ceilDiv p.outW (p.sub k).1, ceilDiv p.outH (p.sub k).2)

/-- Features of token (tt, gy, gx) as FP32 values (R482). -/
def tokenFeatures (s : State) (w : PatchSet) (pics : List PicIn) (size : Nat × Nat) (tt gy gx : Nat) : List Word :=
  (List.range w.t).flatMap fun dt => w.planes.flatMap fun k => (List.range w.p).flatMap fun dy => (List.range w.p).map fun dx =>
    let x := gx * w.p + dx
    let y := gy * w.p + dy
    match pics[tt * w.t + dt]? with
    | none => 0
    | some p =>
      if p.absent || size.1 ≤ x || size.2 ≤ y then 0
      else
        let v := Win.px (winOf s p k) x y
        if w.norm then f32div (f32n v) (f32n (2 ^ p.depth - 1)) else f32n v

/-- The token grid. -/
structure Grid where
  w : Nat
  h : Nat
  t : Nat
  deriving DecidableEq, Repr

def Grid.count (g : Grid) : Nat := g.w * g.h * g.t

/-- The masked tokens (R484). -/
def maskedTokens (s : State) (r : TplRun) (w : PatchSet) (g : Grid) : Nat → Bool :=
  let u := if w.tube then g.w * g.h else g.count
  let keys := (List.range u).map fun i => ((tplDraw s r 0 6 (i / 4)).word (i % 4)).toNat
  let hit := lowestKeys keys ((w.mratio * u + 32768) / 65536)
  fun q => w.mask && hit.contains (if w.tube then q % (g.w * g.h) else q)

/-- The layer that PROJ passes the rows through. -/
def projLayer (s : State) (r : TplRun) : Option (Model × Layer) :=
  ((threadOf s r.th).bind fun t => stageModel s t 0).bind fun m => (m.layers[0]?).map fun y => (m, y)

/-- Row i of buffer 0 for features, as element type and rounding say (R486). -/
def patchRow (s : State) (r : TplRun) (w : PatchSet) (zero_ : Bool) (i : Nat) (l : List Word) : List Byte :=
  match if w.proj then projLayer s r else none with
  | some (m, y) =>
    let job := i / 4096
    let b : BlsBlk :=
      { func := 1, msel := 0, round := w.round, nosat := w.nosat, fa := 7, fc := w.etype, idx := 0, aOff := 0, aStr := 0,
        cOff := 0, cStr := 0, m := 1, purpose := 0, draw := 2 ^ 46 + job * 2 ^ 20, frame := 0, temp := 0 }
    if zero_ then rowBytes w.etype 0 false (fun _ => 0) (List.replicate y.n (ofFp32 0))
    else layerRow s r.h m y b (l.flatMap fun v => toLe 4 v.toNat) (i % 4096)
  | none =>
    let u (j : Nat) : Nat := if w.round = 2 then stochBits s r.h (2 ^ 46) (i * l.length + j) else 0
    if zero_ then rowBytes w.etype 0 false (fun _ => 0) (l.map fun _ => ofFp32 0)
    else rowBytes w.etype w.round w.nosat u (l.map ofFp32)

/-- Counts the cell operations of the LAYER jobs of PROJ over n rows (R486, Table 18.10). -/
def countProj (s : State) (r : TplRun) (w : PatchSet) (n : Nat) : State :=
  match if w.proj then projLayer s r else none with
  | some (_, y) => tileEvent s r.th 0x038 (layerCells [y] n)
  | none => s

/-- The PATCHIFY template. -/
def tplPatchify (s : State) (r : TplRun) : Tpl TplEnd :=
  (parentList s r).bind fun s m =>
    let w := parsePatch (tplParams s r)
    let all := (m.recs w.ctx).map picOf
    let pics := if w.frames = 0 then all else all.take w.frames
    let there := pics.filter fun p => !p.absent
    let live := if there.isEmpty then pics else there
    let sizes := live.flatMap fun p => w.planes.map (winSize p)
    let size := sizes.headD (0, 0)
    let g : Grid := ⟨ceilDiv size.1 (Nat.max 1 w.p), ceilDiv size.2 (Nat.max 1 w.p), ceilDiv pics.length (Nat.max 1 w.t)⟩
    let windows := live.any fun p => live.any fun q => p.outW ≠ q.outW || p.outH ≠ q.outH
    if sizes.any (fun z => z ≠ size) || windows || 1048576 < g.count then .ok s ⟨3, []⟩
    else
      let masked := maskedTokens s r w g
      let tokens := (List.range g.count).filter fun q => !(w.keepOnly && masked q)
      let rows := tokens.zipIdx.map fun (q, i) =>
        let plane := g.w * g.h
        patchRow s r w (masked q) i (tokenFeatures s w pics size (q / plane) (q % plane / g.w) (q % g.w))
      let words := tokens.map fun q => if w.keepOnly then q else if masked q then 1 else 0
      (tplBuffer s r rows.flatten).bind fun s a =>
      (tplBuffer s r (words.flatMap (toLe 4))).bind fun s b =>
      .ok (countProj s r w rows.length) ⟨if pics.any PicIn.damaged then 2 else 1, [a, b]⟩

/-! ### TOKENISE (R492 to R495) -/

/-- The output of TOKENISE for matched tokens: header and id words; `drop` says which are dropped. -/
def tokeniseBytes (l : List Byte) (d : Dict) (ts : List Token) (drop : Nat → Bool) (damaged noCaption : Bool) : List Byte :=
  let bos := if bitN (b8 l 0) 0 then [d.bos] else []
  let eos := if bitN (b8 l 0) 1 then [d.eos] else []
  let max := b32 l 4
  let kept := ((ts.zipIdx).filter fun e => !drop e.2).map fun e => e.1.id
  let room := max - bos.length - eos.length
  let ids := bos ++ kept.take room ++ eos
  let flags := (if ts.any (·.repl) then 1 else 0) + (if room < kept.length then 2 else 0) + (if damaged then 4 else 0) +
    (if noCaption then 8 else 0)
  toLe 4 ids.length ++ toLe 4 ts.length ++ toLe 4 (ts.length - kept.length) ++ toLe 1 flags ++ List.replicate 19 0 ++
  (ids ++ List.replicate (max - ids.length) d.pad).flatMap (toLe 4)

/-- The TOKENISE template. -/
def tplTokenise (s : State) (r : TplRun) : Tpl TplEnd :=
  match threadOf s r.th, sampleOf s r.h with
  | some t, some x =>
    match stageDict s t, duFor s (thDie r.th) with
    | some d, some u =>
      (match caption s x (thDie r.th) with
       | (_, .wait s) => .later s
       | (_, .lost s) => .gone (sampleUe s r.h)
       | (s, .ready bytes st cause) =>
         if st = 2 ∨ st = 3 ∨ st = 4 then .source st cause (((x.recs.find? fun y => y.recno = captionNo).map (·.failAt)).getD x.dirAt)
         else
           let l := tplParams s r
           if st ≠ 0 ∧ (bytes.isEmpty ∨ bitN (b8 l 0) 3) then .ok s ⟨3, []⟩
           else if dictPaused s (u / 2) d then .wait
           else
             let (s, sound) := dictSound s (thDie r.th) (u / 2) d
             let st := if sound then st else 1
             let ts := if sound then tokens d bytes else []
             let drop (k : Nat) : Bool :=
               bitN (b8 l 0) 2 && ((tplDraw s r 0 0x0A (k / 4)).word (k % 4)).toNat % 65536 < b16 l 8
             let none_ := x.dir.any fun e => e.csrc = 0xFFFFFFFF
             let s := setSample (duCount s u d.id bytes.length ts) r.h fun y =>
               { y with stageCharged := modAt y.stageCharged r.g (· + bytes.length), cause := if st ≠ 0 then cause else y.cause }
             (tplBuffer s r (tokeniseBytes l d ts drop (st ≠ 0) none_)).bind fun s b =>
             .ok s ⟨if st ≠ 0 then 2 else 1, [b]⟩)
    | _, _ => .wait
  | _, _ => .gone s

/-! ### PACK (R425 to R430) -/

/-- A move record (Table 12.5). -/
structure Move where
  kind : Nat
  sel : Nat
  dst : Nat
  round : Nat
  nosat : Bool
  norm : Bool
  first : Nat
  deriving DecidableEq, Repr

def parseMove (l : List Byte) (m : Nat) : Move :=
  let o := 8 + 16 * m
  ⟨b8 l o % 2, b8 l (o + 1), b8 l (o + 2), b8 l (o + 3) % 4, bitN (b8 l (o + 3)) 2, bitN (b8 l (o + 3)) 3, b32 l (o + 4)⟩

/-- A sample v of depth d as the bits of an element of a type (R428). -/
def packSample (e : Nat) (m : Move) (u d v : Nat) : Nat :=
  let b := etypeBits e
  if e = 1 ∨ e = 9 then if b < d then Nat.min (2 ^ b - 1) ((v + 2 ^ (d - b - 1)) / 2 ^ (d - b)) else v
  else if e = 2 ∨ e = 8 then
    let w : Int := (v : Int) - 2 ^ (d - 1)
    let q : Int := if b < d then (w + 2 ^ (d - b - 1)) / 2 ^ (d - b) else w
    (clampI (-(2 ^ (b - 1))) (2 ^ (b - 1) - 1) q % 2 ^ b).toNat
  else convertTo e m.round m.nosat u (if m.norm then ofFp32 (f32div (f32n v) (f32n (2 ^ d - 1))) else Fp.ofInt v)

/-- Stochastic bits of element i of move n (R429). -/
def packBits8 (s : State) (r : TplRun) (m : Move) (n i : Nat) : Nat :=
  if m.round = 2 then stochBits s r.h (2 ^ 47 + 2 ^ 40 * n) i else 0

/-- A KIND 0 move: the bytes of each destination element and where they go. -/
def planeMove (s : State) (r : TplRun) (l : PicList) (m : Move) (n : Nat) (d : Desc) : List (Nat × List Byte) :=
  let pics := (l.recs (m.sel % 2)).map picOf
  let planes := (List.range 4).filter fun k => bitN m.sel (4 + k)
  (boxIdx d.extent).map fun i =>
    let at_ (k : Nat) : Nat := i.getD k 0
    let v : Nat := match pics[m.first + at_ 1]?, planes[at_ 2]? with
      | some p, some k =>
        let (w, h) := winSize p k
        if p.absent || p.count ≤ k || h ≤ at_ 3 || w ≤ at_ 4 then 0
        else packSample d.etype m (packBits8 s r m n (logical d.extent i)) p.depth (Win.px (winOf s p k) (at_ 4) (at_ 3))
      | _, _ => 0
    ((elemAddr d i).1, toLe (etypeBytes d.etype) v)

/-- Bits of an element of a tensor in a buffer, and its block's scale. -/
def tensorElem (s : State) (b : Nat) (d : Desc) (i : List Nat) : Nat × Nat :=
  let (a, bit) := elemAddr d i
  (leNat (bufRead s b a (elemSpan d i).2) / 2 ^ bit % 2 ^ etypeBits d.etype, leNat (bufRead s b (scaleAddr d i) 1))

/-- Its value. -/
def tensorValue (s : State) (b : Nat) (d : Desc) (i : List Nat) : Fp :=
  let (x, sc) := tensorElem s b d i
  if etypeMx d.etype then scaled sc (elemValue d.etype x) else elemValue d.etype x

/-- A KIND 1 move: runs along dimension 5, written as element bytes and scales. A move between like types keeps the bits. -/
def tensorMove (s : State) (r : TplRun) (b : Nat) (m : Move) (n : Nat) (a d : Desc) : List (Nat × List Byte) :=
  let bits := etypeBits d.etype
  (boxIdx (d.extent.take 5)).flatMap fun i =>
    let idx (j : Nat) : List Nat := i ++ [j]
    let len := d.ext 5
    let run : List Nat × List Nat :=
      if a.etype = d.etype then
        ((List.range len).map fun j => (tensorElem s b a (idx j)).1,
         if etypeMx d.etype then (List.range (len / 32)).map fun g => (tensorElem s b a (idx (32 * g))).2 else [])
      else
        let u (j : Nat) : Nat := packBits8 s r m n (logical d.extent (idx j))
        let xs := (List.range len).map fun j => tensorValue s b a (idx j)
        if etypeMx d.etype then
          let bs := (chunksBy 32 xs).zipIdx.map fun (c, g) =>
            mxBlock d.etype m.round (fun j => u (32 * g + j)) c
          (bs.flatMap (·.2), bs.map (·.1))
        else (xs.zipIdx.map fun (x, j) => convertTo d.etype m.round m.nosat (u j) x, [])
    let elems : List (Nat × List Byte) :=
      if denseLast d.etype then [((elemAddr d (idx 0)).1, packBits bits run.1)]
      else run.1.zipIdx.map fun (x, j) => ((elemAddr d (idx j)).1, toLe (etypeBytes d.etype) x)
    elems ++ run.2.zipIdx.map fun (v, g) => (scaleAddr d (idx (32 * g)), toLe 1 v)

/-- What one move writes (R427, R428); a BUFFER tensor whose range exceeds its buffer's class is a BUF_RANGE fault
(R425). -/
def packMove (s : State) (r : TplRun) (x : Sample) (outs src : List Desc) (p : Nat) (e : Move × Nat) :
    Tpl (List (Nat × List Byte)) :=
  let m := e.1
  match outs[m.dst]? with
  | none => .ok s []
  | some d =>
    if m.kind = 0 then (parentList s r).bind fun s l => .ok s (planeMove s r l m e.2 d)
    else
      match src[m.sel]?, (parentBufs x p)[m.sel]? with
      | some a, some b =>
        let size := ((bufOf s b).map bufSize).getD 0
        if size < a.rangeBase + a.rangeBytes then .fault 5
        else (tplLines s r b a.hi.toNat).bind fun s _ => .ok s (tensorMove s r b m e.2 a d)
      | _, _ => .fault 4

/-- Bytes of a move reach the staging area as those of DOUT do: its lines that they fill only in part are read first, and the
tile's DMA counts them (R430, R547). -/
def packWrite (s : State) (r : TplRun) : List (Nat × List Byte) → Tpl Unit
  | [] => .ok s ()
  | w :: ws =>
    if !stageOpen s (thDie r.th) r.h w.1 w.2.length then .wait
    else
      match mergeObject s w.1 w.2.length (((sampleOf s r.h).map (·.stagingBufs)).getD []) with
      | (s, true) => .gone (sampleUe s r.h)
      | (s, false) =>
        let die := ((stagingHandle s r.h w.1).map hDie).getD (thDie r.th)
        packWrite (tileEvent (stage (crossed s (thDie r.th) die w.2.length) r.h w.1 w.2) r.th 0x018 w.2.length) r ws

/-- The PACK template: every move's bytes reach the staging area, by the path of DOUT (R430). -/
def tplPack (s : State) (r : TplRun) : Tpl TplEnd :=
  match tplParent s r with
  | none => .fault 4
  | some (x, p) =>
    let l := tplParams s r
    let stages := ((recipeOf s x.part x.recipe).map (·.stages)).getD []
    let outs := ((stages[r.g]?).map (·.outs)).getD []
    let src := ((stages[p]?).map (·.outs)).getD []
    let moves := ((List.range (b8 l 0)).map (parseMove l)).zipIdx
    (tplAll (fun s e =>
      (packMove s r x outs src p e).bind fun s ws =>
        let slot := ((outs[e.1.dst]?).map (·.space)).getD 1 = 1
        if slot then packWrite s r ws else .ok s ()) s moves).bind
      fun s _ => .ok s ⟨parentState x p, []⟩

/-! ### END (R227) -/

/-- The result of a template by its id; none for a stage that runs a program of its own. -/
def runTemplate (s : State) (r : TplRun) (template : Nat) : Option (Tpl TplEnd) :=
  if template = 1 then some (tplDecode s r) else if template = 2 then some (tplRaw s r)
  else if template = 3 then some (tplGeometry s r) else if template = 4 then some (tplColour s r)
  else if template = 5 then some (tplAugment s r) else if template = 6 then some (tplTemporal s r)
  else if template = 8 then some (tplPatchify s r) else if template = 9 then some (tplTokenise s r)
  else if template = 0x0A then some (tplPack s r)
  else none

/-- A template publishes its token and its thread is free: what it hands over goes to the children in order (R163). -/
def publishTemplate (s : State) (r : TplRun) (e : TplEnd) : State :=
  if e.state = 3 then publishToken s r.h r.g 3
  else
    let s := setSample s r.h fun x => { x with handed := x.handed.filter (·.1 ≠ r.g) ++ [(r.g, e.outs)] }
    publishToken (freeThread s r.th) r.h r.g e.state

/-- What a template's END does with its result; with data or buffers still to come the thread has not reached its END. -/
def endTemplate (s : State) (r : TplRun) (o : Tpl TplEnd) : State :=
  match o with
  | .ok t e => publishTemplate t r e
  | .wait => s
  | .later t => t
  | .full => poolWait s
  | .fault e => pfault s r.th e 0
  | .source st c at_ =>
    dropFinished s r.h (if st = 2 then 3 else if st = 3 then 4 else 5) c at_.1 at_.2
  | .gone t => t

/-- END: waits for every ticket, publishes DONE when the thread has not published, and frees the thread. A template's thread
ends with the template's own result. -/
def execEndThread (x : Orony) (s : State) : Out :=
  .next (issueScalar s 8 0x02 x fun s t =>
    let r : TplRun := ⟨t.th, t.sample, t.stage⟩
    match (stageOf s t).bind fun st => if (thTile t.th).isSome && t.published = 0 then runTemplate s r st.template else none with
    | some o => if (outstanding t).isEmpty then endTemplate s r o else s
    | none => beginEnd s x.th)

end Sys2Proof.Machine
end

