-- ==== Sys2Proof/Machine/Pace.lean ====
section
/-!
DEFINITION. The pace monitor: what a tile's events are charged to (R23, R173, R335, R365, R456, R475).
-/

namespace Sys2Proof.Machine

/-- Whether a unit of the tile of thread t serves its ticket now: the unit has taken the command, and waits neither for data
nor for a chunk nor for other parts of a group (R335, R365, R456, R475). The dictionary units are not the tile's (R188). -/
def serves (s : State) (t : Thread) (k : Ticket) : Bool :=
  !k.done && match k.deferred with
    | none => true
    | some (.eu blk m) =>
      let l := tsRead t blk 64
      !euBefore s t.th t.sample (b8 l 2) m && euReady s t.th l
    | some (.iu _ m) => !iuBefore s t.th m
    | some (.lat kind blk m) => !latBefore s t.th m && (kind = 3 || match latRun s t.th kind blk with | .wait => false | _ => true)
    | some (.layer _ m need) => need.all (claims s ⟨t.th, k.num, m, need⟩)
    | some _ => false

/-- PACE_REFRESH (R23, R173, R624, R649): a tile's report is its events of the last 64 µs over 64, reduced by its die's gate
level; the events are charged equally to the samples whose work occupies the tile, those of the vector unit as vector events
(chapter 5, log entry 42), and a deferred sample that they carry over its budget becomes a straggler (R519). -/
def execPaceRefresh (t : Fin 96) (events : PaceCount) (s : State) : Out :=
  .next (if !alive s || tileLost s t then s else
    let b := tileBase t + 0x1000
    let g := (dieAt s (t.val / 24)).gate
    let pace := events.all / 64 * (16 - g) / 16
    let s := setFld s b 15 0 pace
    let s := if pace % 65536 < fld s (b + 4) 15 0 then setFld s (b + 4) 15 0 pace else s
    let s := bump64 s (b + 0x48) events.all
    let run := s.threads.filter fun x => thTile x.th = some t.val && (x.state = 1 || x.tickets.any (serves s x))
    let hs := (run.map (·.sample)).eraseDups
    if hs.isEmpty then s
    else
      let n := events.all / hs.length
      let v := Nat.min events.vec events.all / hs.length
      let s := bump64 s (b + 0x40) (n * hs.length)
      let s := hs.foldl (fun s h =>
        setSample s h fun x =>
          let stages := (((run.filter fun y => y.sample = h).map (·.stage)).eraseDups).filter fun g => !chargedDu s x g
          stages.foldl (fun x g => chargeStage x g (n / stages.length) (v / stages.length) (lanes16 s t)) x) s
      hs.foldl overBudget s)

end Sys2Proof.Machine
end

