-- ==== Sys2Proof/Machine/Power.lean ====
section
/-!
DEFINITION. The power governor: the estimate, envelope and thermal steps, the shutdown and regulator faults (R646 to R651,
R655).
-/

namespace Sys2Proof.Machine

/-! ### Steps (R646 to R649) -/

/-- A restriction on a die: the steps that stand, the VCORE setting in mV that they allow, and their gate levels. -/
structure Limit where
  steps : Nat
  mv : Option Nat
  gates : Nat
  deriving DecidableEq, Repr

def envLimit (x : Die) : Limit := ⟨x.envSteps, x.envMv, x.envGates⟩
def thermLimit (x : Die) : Limit := ⟨x.thermSteps, x.thermMv, x.thermGates⟩

def setEnv (x : Die) (l : Limit) : Die :=
  { x with envSteps := l.steps, envMv := l.mv, envGates := l.gates, gate := l.gates + x.thermGates }
def setTherm (x : Die) (l : Limit) : Die :=
  { x with thermSteps := l.steps, thermMv := l.mv, thermGates := l.gates, gate := x.envGates + l.gates }

/-- The lowest of the three settings of R646. -/
def vcoreSet (dvset : Nat) (x : Die) : Nat := Nat.min dvset (Nat.min (x.envMv.getD 1023) (x.thermMv.getD 1023))

/-- One step down: 10 mV, or one gate level under a strap or at 0.50 V; none at gate level 15. -/
def stepDown (dvset : Nat) (x : Die) (l : Limit) : Option Limit :=
  if x.fixed || vcoreSet dvset x ≤ 500 then
    if 15 ≤ x.gate then none else some ⟨l.steps + 1, l.mv, l.gates + 1⟩
  else some ⟨l.steps + 1, some (Nat.max 500 (vcoreSet dvset x - 10)), l.gates⟩

/-- One step undone, gate levels first. -/
def stepUp (dvset : Nat) (l : Limit) : Limit :=
  if l.steps ≤ 1 then ⟨0, none, 0⟩
  else if 0 < l.gates then ⟨l.steps - 1, l.mv, l.gates - 1⟩
  else ⟨l.steps - 1, match l.mv with | some m => if dvset ≤ m + 10 then none else some (m + 10) | none => none, 0⟩

def dvsetOf (s : State) (d : Nat) : Nat := fld s (dieBase d + 0x1000) 9 0

/-! ### The block estimate (R647, R655, Table 20.3) -/

/-- The counters of Table 18.11 that the estimate uses: their offsets, and pW for each byte or line moved in 1 ms. -/
def powerCounters : List (Nat × Nat) :=
  (List.range 16).map (fun i => (0x6000 + 8 * i, 2400)) ++ (List.range 4).map (fun i => (0x6080 + 16 * i, 29300)) ++
  (List.range 8).map (fun i => (0x6140 + 8 * i, 625)) ++ (List.range 16).map fun i => (0x60C0 + 8 * i, 834600)

/-- The port rails in pW, from what the counters have advanced since the last estimate; a counter wraps at 2^64 (R627, R655). -/
def movedPower (s : State) : Nat :=
  (powerCounters.zipIdx.map fun (c, i) => (reg64 s c.1 + 2 ^ 64 - s.counted.getD i 0) % 2 ^ 64 * c.2).foldl (· + ·) 0

/-- The estimate in pW: VCORE as measured, or as the firmware estimates it under a strap; the fixed terms; what has moved. -/
def estimate (s : State) (m : PowerReading) : Nat :=
  m.dw.foldl (· + ·) 0 * 10 ^ 11 + 61 * 10 ^ 12 + movedPower s

/-- The first die of a list that is greatest under a measure. -/
def greatest (f : Nat → Nat) (l : List Nat) : Option Nat :=
  l.foldl (fun a d => match a with | none => some d | some b => if f b < f d then some d else some b) none

/-- An envelope step on the die of greatest VCORE power. -/
def envDown (s : State) : State :=
  match greatest (fun d => (dieAt s d).dw) (List.range 4) with
  | none => s
  | some d =>
    match stepDown (dvsetOf s d) (dieAt s d) (envLimit (dieAt s d)) with
    | some l => setW1c (setDie s d fun x => setEnv x l) 0x500C 1 0x5010
    | none => s

/-- One step undone on the most restricted die: the highest gate level, then the lowest setting. -/
def envUp (s : State) : State :=
  let held := (List.range 4).filter fun d => 0 < (dieAt s d).envSteps
  match greatest (fun d => (dieAt s d).gate * 1024 + (1023 - vcoreSet (dvsetOf s d) (dieAt s d))) held with
  | none => s
  | some d => setDie s d fun x => setEnv x (stepUp (dvsetOf s d) (envLimit x))

/-- PGU_ESTIMATE (R647): nothing changes until FW_RUN (R645). -/
def execPguEstimate (m : PowerReading) (s : State) : Out :=
  .next (if s.pins.inReset || s.pins.testHeld then s
    else
      let e := estimate s m
      let read (x : Die) (d : Nat) : Die := { x with dw := m.dw.getD d 0, da := m.da.getD d 0, mv := m.mv.getD d x.mv }
      let s := { s with
        dies := s.dies.zipIdx.map fun (x, d) => read x d
        energy := s.energy + e
        counted := powerCounters.map fun c => reg64 s c.1 }
      let s := setFld s 0x5008 25 16 (Nat.min 1023 (e / 10 ^ 12))
      let env := fld s 0x5000 9 0 * 10 ^ 12
      if !s.boot.fwRun || s.fatal then s
      else if env < e then envDown s
      else if e * 100 < env * 95 then envUp s
      else s)

/-! ### Temperature (R75, R648) -/

/-- A sensor reading; reaching 100 °C is THERM_WARN, with a THERMAL event while the block runs. -/
def readTj (s : State) (d : Nat) (tj : Int) : State :=
  let cool := !(dieAt s d).sensor || decide ((dieAt s d).tj < 100)
  let s := thermN (setDie s d fun x => { x with tj := tj, sensor := true })
  if cool && decide (100 ≤ tj) then
    let t := raise s ⟨0x14, false, d, none, 3, d⟩
    if alive s then postAll t 8 ((tj % 256).toNat + 256 * d) else t
  else s

/-- VCORE after a shutdown: off on dies 1 to 3, 0.50 V on die 0, and unchanged under a strap. -/
def shutVcore (x : Die) (d : Nat) : Die := if x.fixed then x else { x with mv := if d = 0 then 500 else 0 }

/-- The shutdown at 115 °C: the block stops, whatever stopped it before; THERM_N stays asserted until reset (R75, R648). -/
def thermShutdown (s : State) (d : Nat) (tj : Int) : State :=
  let s := readTj s d tj
  if s.pins.tripped then s
  else
    let s := raise s ⟨0x15, false, d, none, 3, d⟩
    thermN { s with pins := { s.pins with tripped := true }
                    dies := s.dies.zipIdx.map fun (x, i) => shutVcore x i }

/-- THERMAL_STEP (R75, R648): a reading of a die's sensor, or none. One step down at 100 °C or more, one undone below 95 °C,
while the firmware runs; the shutdown at 115 °C. The sensors read in every state out of reset. -/
def execThermalStep (d : Fin 4) (reading : Option Int) (s : State) : Out :=
  .next (if s.pins.inReset then s
    else match reading with
    | none => thermN (setDie s d fun x => { x with sensor := false })
    | some tj =>
      if 115 ≤ tj then thermShutdown s d tj else
      let s := readTj s d tj
      if !s.boot.fwRun || s.fatal || s.pins.testHeld then s
      else if 100 ≤ tj then
        match stepDown (dvsetOf s d) (dieAt s d) (thermLimit (dieAt s d)) with
        | some l => setW1c (setDie s d fun x => setTherm x l) 0x500C 0 0x5014
        | none => s
      else if tj < 95 then setDie s d fun x => setTherm x (stepUp (dvsetOf s d) (thermLimit x))
      else s)

/-- THERM_TRIP (R75, R648): a reading of 115 °C or more. -/
def execThermTrip (d : Fin 4) (tj : Int) (s : State) : Out :=
  .next (if s.pins.inReset || decide (tj < 115) then s else thermShutdown s d tj)

/-- PGU_FAULT (R650): a regulator that does not answer has failed three transactions; a strapped die has no PMBus. -/
def execPguFault (d : Fin 4) (c : PguCause) (s : State) : Out :=
  .next (if !alive s || dieLost s d then s
    else
      let bus := !(dieAt s d).fixed
      let fault (s : State) : State := raise s ⟨0x17, false, d, none, 3, d⟩
      match c with
      | .noAck => if bus then fault (bumpBy s (dieBase d + 0x1010) 3) else s
      | .outputFault => if bus then fault s else s
      | .vcoreRange => fault s)

end Sys2Proof.Machine
end

