-- ==== Sys2Proof/Machine/Registers.lean ====
section
/-!
DEFINITION. Register writes as commands: the general write, its special cases, and the writes that have a row of their
own (chapters 3, 4, 17, 18, 19).
-/

namespace Sys2Proof.Machine

/-- REGISTER_WRITE (R9, R102, R103): a write of one aligned word. -/
def execRegisterWrite (fn : Fin 16) (port : Fin 8) (off : Nat) (v : Word) (s : State) : Out :=
  .next (busWrite s fn port off v)

/-- Offsets of the doorbell page that hold a register; the words of the push slots are WO (Table 4.4). -/
def pageReg (o : Nat) : Bool := o % 4 = 0 && (o < 0x30 || (0x100 ≤ o && o < 0x200))

/-- Whether an access to BAR2 addresses a doorbell register or a push slot: one aligned word, or a write of several words
within one slot (R85, R86, Table 4.4). -/
def doorbellHit (s : State) (fn : Nat) (a : BusAccess) : Bool :=
  let o := a.off % 0x1000
  a.off < 0x40000 && owner s (a.off / 0x1000) = fn && a.enables && pageReg o &&
  (a.bytes = 4 || (a.write && 0x100 ≤ o && a.bytes % 4 = 0 && 0 < a.bytes && o % 64 + a.bytes ≤ 64))

/-- PUSH_MASK.FILLED: group i is 0xF when push slot i is full (R122, R125). -/
def pushFilled (x : Queue) : Nat :=
  (x.push.zipIdx.map fun (y, i) => if y.mask = 0xFFFF then 15 * 16 ^ i else 0).foldl (· + ·) 0

/-- What a read of the doorbell page of queue q returns at an offset; none where no register stands. A WO register reads 0
(R9, R122, Table 4.4). -/
def readPage (s : State) (q o : Nat) : Option Word :=
  let x := queue s q
  if !pageReg o then none
  else some (
    if o = 0x00 then x.sqPi else if o = 0x04 then x.cqCi else if o = 0x08 then x.drPi else if o = 0x0C then 0
    else if o = 0x10 then x.sqCi else if o = 0x14 then x.cqPi else if o = 0x18 then x.drCi
    else if o = 0x1C then BitVec.ofNat 32 (pushFilled x) else if o = 0x20 then x.errIdx else if o = 0x24 then x.errOff
    else if o = 0x28 then x.stepCnt else if o = 0x2C then x.stepIgn else 0)

/-- What a read of function fn's BAR2 returns: the pages of the queues that it owns (R85, R87). -/
def readBar2 (s : State) (fn off : Nat) : Option Word :=
  if off < 0x40000 ∧ owner s (off / 0x1000) = fn then readPage s (off / 0x1000) (off % 0x1000) else none

/-- Whether an access to BAR0 addresses a register (R86, R87). -/
def registerHit (s : State) (fn : Nat) (a : BusAccess) : Bool :=
  a.bytes = 4 && a.off % 4 = 0 && a.enables && resolve s fn a.off ≠ .none

/-- UNSUPPORTED_REQUEST (R81, R87): an access to a BAR that addresses no register is counted and reported, and changes
nothing else. An access that does address one, or that lies outside the BAR, is no such access. -/
def execUnsupportedRequest (fn : Fin 16) (port : Fin 8) (a : BusAccess) (s : State) : Out :=
  .next (if presented s fn port && a.off < barSize fn a.bar2 && !(if a.bar2 then doorbellHit s fn a else registerHit s fn a)
    then unsupported s fn a.write else s)

/-- WRITE_ONE_TO_CLEAR (R94 to R96). -/
def execWriteOneToClear (fn : Fin 16) (port : Fin 8) (off : Nat) (v : Word) (s : State) : Out :=
  .next (busWrite s fn port off v)

/-- BIT_ALIAS_WRITE (R98). -/
def execBitAliasWrite (fn : Fin 16) (port : Fin 8) (off : Nat) (v : Word) (s : State) : Out :=
  .next (busWrite s fn port off v)

/-- HIGH_HALF_WRITE (R93). -/
def execHighHalfWrite (fn : Fin 16) (port : Fin 8) (off : Nat) (v : Word) (s : State) : Out :=
  .next (busWrite s fn port off v)

/-- LOW_HALF_WRITE (R93). -/
def execLowHalfWrite (fn : Fin 16) (port : Fin 8) (off : Nat) (v : Word) (s : State) : Out :=
  .next (busWrite s fn port off v)

/-- CFG_LOCK (R101): a write of BLK_LOCK. -/
def execCfgLock (port : Fin 8) (v : Word) (s : State) : Out := .next (busWrite s 0 port 0x10 v)

/-- PART_CTRL_RESET (R588, R589): a write of PART_CTRL. -/
def execPartCtrlReset (port : Fin 8) (p : Fin 16) (v : Word) (s : State) : Out :=
  .next (busWrite s 0 port (partBase p) v)

/-- PART_CTRL_ENABLE (R107): a write of PART_CTRL. -/
def execPartCtrlEnable (port : Fin 8) (p : Fin 16) (v : Word) (s : State) : Out :=
  .next (busWrite s 0 port (partBase p) v)

/-- PART_KEY_SLOT (R546): a write of PART_KEY. -/
def execPartKeySlot (port : Fin 8) (p : Fin 16) (v : Word) (s : State) : Out :=
  .next (busWrite s 0 port (partBase p + 0x28) v)

/-- FUNCTION_LEVEL_RESET (R579): a partition reset of the function's partition. -/
def execFunctionLevelReset (fn : Fin 16) (s : State) : Out :=
  .next (if alive s then partReset s fn else s)

/-- Offset of queue q's set-up block in a function's BAR0 (R84, R114). -/
def queueOff (fn q : Nat) : Nat := if fn = 0 then queueBase q else 0x40000 + q * 0x1000

/-- Q_CTRL_ENABLE (R116, R117): a write of Q_CTRL. -/
def execQCtrlEnable (fn : Fin 16) (port : Fin 8) (q : Fin 64) (v : Word) (s : State) : Out :=
  .next (busWrite s fn port (queueOff fn q) v)

/-- Q_CTRL_DR_EN (R116, R117): a write of Q_CTRL. -/
def execQCtrlDrEn (fn : Fin 16) (port : Fin 8) (q : Fin 64) (v : Word) (s : State) : Out :=
  .next (busWrite s fn port (queueOff fn q) v)

/-- DIE_SP_CTRL_ENABLE (R630): a write of DIE_SP_CTRL. -/
def execDieSpCtrlEnable (port : Fin 8) (d : Fin 4) (v : Word) (s : State) : Out :=
  .next (busWrite s 0 port (dieBase d + 0x104) v)

/-- DIE_SP_CTRL_DISABLE (R667): a write of DIE_SP_CTRL. -/
def execDieSpCtrlDisable (port : Fin 8) (d : Fin 4) (v : Word) (s : State) : Out :=
  .next (busWrite s 0 port (dieBase d + 0x104) v)

/-- TILE_CTRL_DISABLE (R233): a write of TILE_CTRL. -/
def execTileCtrlDisable (port : Fin 8) (t : Fin 96) (v : Word) (s : State) : Out :=
  .next (busWrite s 0 port (tileBase t) v)

/-- TILE_CTRL_ENABLE (R623): a write of TILE_CTRL. -/
def execTileCtrlEnable (port : Fin 8) (t : Fin 96) (v : Word) (s : State) : Out :=
  .next (busWrite s 0 port (tileBase t) v)

/-- FLT_REVIVE (R622). -/
def execFltRevive (port : Fin 8) (v : Word) (s : State) : Out := .next (busWrite s 0 port 0x1018 v)

/-- FORCE_EN (R602): a write of FLT_CTRL. -/
def execForceEn (port : Fin 8) (v : Word) (s : State) : Out := .next (busWrite s 0 port 0x1000 v)

/-- FLT_FORCE (R602, R603). -/
def execFltForce (port : Fin 8) (v : Word) (s : State) : Out := .next (busWrite s 0 port 0x1010 v)

/-- FW_BASE_WRITE (R634): a write of the high half of BLK_FW_BASE. -/
def execFwBaseWrite (port : Fin 8) (v : Word) (s : State) : Out := .next (busWrite s 0 port 0x104 v)

/-- BOOT_RESTORE (R636): a write of BLK_BOOT_CTRL. -/
def execBootRestore (port : Fin 8) (v : Word) (s : State) : Out := .next (busWrite s 0 port 0x110 v)

/-- BOOT_START (R636): a write of BLK_BOOT_CTRL. -/
def execBootStart (port : Fin 8) (v : Word) (s : State) : Out := .next (busWrite s 0 port 0x110 v)

/-- SAVE (R639): a write of BLK_BOOT_CTRL. -/
def execSave (port : Fin 8) (v : Word) (s : State) : Out := .next (busWrite s 0 port 0x110 v)

/-- QUIESCE (R644): a write of BLK_BOOT_CTRL. -/
def execQuiesce (port : Fin 8) (v : Word) (s : State) : Out := .next (busWrite s 0 port 0x110 v)

/-- PGU_ENV_MAX (R651). -/
def execPguEnvMax (port : Fin 8) (v : Word) (s : State) : Out := .next (busWrite s 0 port 0x5004 v)

end Sys2Proof.Machine
end

