-- ==== Sys2Proof/Machine/Scalar.lean ====
section
/-!
DEFINITION. The scalar class and the branch class of Orony (R207 to R209, Tables 6.4 and 6.5).
-/

namespace Sys2Proof.Machine

/-- Operand Y of a scalar instruction. -/
def scalarY (t : Thread) (x : Orony) : Word := if x.i then x.imm else rs t x.b

/-- s[D] takes f of operands X and Y, and the next instruction follows. -/
def scalarOp (op : Nat) (f : Word → Word → Word) (x : Orony) (s : State) : State :=
  issueScalar s 0 op x fun s t => setThread s x.th fun _ => nextPc (ws t x.d (f (rs t x.a) (scalarY t x)))

/-- ADD (Table 6.4). -/
def execAdd (x : Orony) (s : State) : Out := .next (scalarOp 0x0 (fun x y => x + y) x s)

/-- SUB (Table 6.4). -/
def execSub (x : Orony) (s : State) : Out := .next (scalarOp 0x1 (fun x y => x - y) x s)

/-- AND (Table 6.4). -/
def execAnd (x : Orony) (s : State) : Out := .next (scalarOp 0x2 (fun x y => x &&& y) x s)

/-- OR (Table 6.4). -/
def execOr (x : Orony) (s : State) : Out := .next (scalarOp 0x3 (fun x y => x ||| y) x s)

/-- XOR (Table 6.4). -/
def execXor (x : Orony) (s : State) : Out := .next (scalarOp 0x4 (fun x y => x ^^^ y) x s)

/-- SHL (Table 6.4). -/
def execShl (x : Orony) (s : State) : Out := .next (scalarOp 0x5 (fun x y => x <<< (y.toNat % 32)) x s)

/-- SHR (Table 6.4). -/
def execShr (x : Orony) (s : State) : Out := .next (scalarOp 0x6 (fun x y => x >>> (y.toNat % 32)) x s)

/-- SRA (Table 6.4). -/
def execSra (x : Orony) (s : State) : Out := .next (scalarOp 0x7 (fun x y => x.sshiftRight (y.toNat % 32)) x s)

/-- MUL (Table 6.4). -/
def execMul (x : Orony) (s : State) : Out := .next (scalarOp 0x8 (fun x y => x * y) x s)

/-- MULHU (Table 6.4). -/
def execMulhu (x : Orony) (s : State) : Out := .next (scalarOp 0x9 (fun x y => BitVec.ofNat 32 (x.toNat * y.toNat / 2 ^ 32)) x s)

/-- MULHS (Table 6.4). -/
def execMulhs (x : Orony) (s : State) : Out := .next (scalarOp 0xa (fun x y => BitVec.ofInt 32 (x.toInt * y.toInt / 2 ^ 32)) x s)

/-- DIVU (Table 6.4). -/
def execDivu (x : Orony) (s : State) : Out := .next (scalarOp 0xb (fun x y => if y = 0 then 0xFFFFFFFF else BitVec.ofNat 32 (x.toNat / y.toNat)) x s)

/-- REMU (Table 6.4). -/
def execRemu (x : Orony) (s : State) : Out := .next (scalarOp 0xc (fun x y => if y = 0 then x else BitVec.ofNat 32 (x.toNat % y.toNat)) x s)

/-- MIN (Table 6.4). -/
def execMin (x : Orony) (s : State) : Out := .next (scalarOp 0xd (fun x y => if sltB y x then y else x) x s)

/-- MAX (Table 6.4). -/
def execMax (x : Orony) (s : State) : Out := .next (scalarOp 0xe (fun x y => if sltB x y then y else x) x s)

/-- MINU (Table 6.4). -/
def execMinu (x : Orony) (s : State) : Out := .next (scalarOp 0xf (fun x y => if ultB y x then y else x) x s)

/-- MAXU (Table 6.4). -/
def execMaxu (x : Orony) (s : State) : Out := .next (scalarOp 0x10 (fun x y => if ultB x y then y else x) x s)

/-- SLT (Table 6.4). -/
def execSlt (x : Orony) (s : State) : Out := .next (scalarOp 0x11 (fun x y => oneIf (sltB x y)) x s)

/-- SLTU (Table 6.4). -/
def execSltu (x : Orony) (s : State) : Out := .next (scalarOp 0x12 (fun x y => oneIf (ultB x y)) x s)

/-- SEQ (Table 6.4). -/
def execSeq (x : Orony) (s : State) : Out := .next (scalarOp 0x13 (fun x y => oneIf (x == y)) x s)

/-- MOVI (Table 6.4). -/
def execMovi (x : Orony) (s : State) : Out := .next (scalarOp 0x14 (fun _ y => y) x s)

/-! ### Branches -/

/-- The target of a direct branch (R208). -/
def branchTarget (t : Thread) (imm : Word) : Nat := (((t.pc : Int) + 8 * imm.toInt) % 2 ^ 32).toNat

/-- A direct branch, taken when the condition holds. -/
def branchOp (op : Nat) (c : Thread → Bool) (x : Orony) (s : State) : State :=
  issueScalar s 1 op x fun s t =>
    setThread s x.th fun _ => if c t then { t with pc := branchTarget t x.imm } else nextPc t

/-- BR. -/
def execBr (x : Orony) (s : State) : Out := .next (branchOp 0x00 (fun _ => true) x s)
/-- BEQ. -/
def execBeq (x : Orony) (s : State) : Out := .next (branchOp 0x01 (fun t => rs t x.a == rs t x.b) x s)
/-- BNE. -/
def execBne (x : Orony) (s : State) : Out := .next (branchOp 0x02 (fun t => rs t x.a != rs t x.b) x s)
/-- BLT. -/
def execBlt (x : Orony) (s : State) : Out := .next (branchOp 0x03 (fun t => sltB (rs t x.a) (rs t x.b)) x s)
/-- BLTU. -/
def execBltu (x : Orony) (s : State) : Out := .next (branchOp 0x04 (fun t => ultB (rs t x.a) (rs t x.b)) x s)
/-- BGE. -/
def execBge (x : Orony) (s : State) : Out := .next (branchOp 0x05 (fun t => !sltB (rs t x.a) (rs t x.b)) x s)
/-- BGEU. -/
def execBgeu (x : Orony) (s : State) : Out := .next (branchOp 0x06 (fun t => !ultB (rs t x.a) (rs t x.b)) x s)
/-- PANY. -/
def execPany (x : Orony) (s : State) : Out := .next (branchOp 0x07 (fun t => anyBit (rp t x.a)) x s)
/-- PALL. -/
def execPall (x : Orony) (s : State) : Out := .next (branchOp 0x08 (fun t => allBits (rp t x.a)) x s)

/-- CALL: the offset of the next instruction goes to s[D] first. -/
def execCall (x : Orony) (s : State) : Out :=
  .next (issueScalar s 1 0x09 x fun s t =>
    setThread s x.th fun _ => { ws t x.d (BitVec.ofNat 32 (t.pc + 8)) with pc := branchTarget t x.imm })

/-- JR (R209). -/
def execJr (x : Orony) (s : State) : Out :=
  .next (issueScalar s 1 0x0A x fun s t =>
    let o := (rs t x.a).toNat
    if o % 8 ≠ 0 ∨ t.progLen ≤ o then pfault s x.th 9 0 else setThread s x.th fun _ => { t with pc := o })

end Sys2Proof.Machine
end

