-- ==== Sys2Proof/Machine/Dispatch.lean ====
section
/-!
DEFINITION. The meaning of every command, one arm each.
-/

namespace Sys2Proof.Machine

def exec (i : Instr) (s : State) : Host.Outcome State Fault Refusal :=
  match i with
  | .registerWrite fn port off v => Sys2Proof.Machine.execRegisterWrite fn port off v s
  | .unsupportedRequest fn port a => Sys2Proof.Machine.execUnsupportedRequest fn port a s
  | .writeOneToClear fn port off v => Sys2Proof.Machine.execWriteOneToClear fn port off v s
  | .bitAliasWrite fn port off v => Sys2Proof.Machine.execBitAliasWrite fn port off v s
  | .highHalfWrite fn port off v => Sys2Proof.Machine.execHighHalfWrite fn port off v s
  | .lowHalfWrite fn port off v => Sys2Proof.Machine.execLowHalfWrite fn port off v s
  | .cfgLock port v => Sys2Proof.Machine.execCfgLock port v s
  | .partCtrlReset port p v => Sys2Proof.Machine.execPartCtrlReset port p v s
  | .partCtrlEnable port p v => Sys2Proof.Machine.execPartCtrlEnable port p v s
  | .partKeySlot port p v => Sys2Proof.Machine.execPartKeySlot port p v s
  | .stepSrcWrite port p v edge => Sys2Proof.Machine.execStepSrcWrite port p v edge s
  | .functionLevelReset fn => Sys2Proof.Machine.execFunctionLevelReset fn s
  | .qCtrlEnable fn port q v => Sys2Proof.Machine.execQCtrlEnable fn port q v s
  | .qCtrlDrEn fn port q v => Sys2Proof.Machine.execQCtrlDrEn fn port q v s
  | .dbSqPi fn port q v => Sys2Proof.Machine.execDbSqPi fn port q v s
  | .dbCqCi fn port q v => Sys2Proof.Machine.execDbCqCi fn port q v s
  | .dbDrPi fn port q v => Sys2Proof.Machine.execDbDrPi fn port q v s
  | .dbStep fn port q v => Sys2Proof.Machine.execDbStep fn port q v s
  | .pushSlotWrite fn port q off bytes => Sys2Proof.Machine.execPushSlotWrite fn port q off bytes s
  | .takeSqEntry p => Sys2Proof.Machine.execTakeSqEntry p s
  | .coalUsExpiry q => Sys2Proof.Machine.execCoalUsExpiry q s
  | .nop c => Sys2Proof.Machine.execNop c s
  | .recipeLoad c => Sys2Proof.Machine.execRecipeLoad c s
  | .recipeUnload c => Sys2Proof.Machine.execRecipeUnload c s
  | .modelLoad c => Sys2Proof.Machine.execModelLoad c s
  | .modelUnload c => Sys2Proof.Machine.execModelUnload c s
  | .dictLoad c => Sys2Proof.Machine.execDictLoad c s
  | .dictUnload c => Sys2Proof.Machine.execDictUnload c s
  | .calibrate c => Sys2Proof.Machine.execCalibrate c s
  | .calibrateDone c m => Sys2Proof.Machine.execCalibrateDone c m s
  | .fusedChain c => Sys2Proof.Machine.execFusedChain c s
  | .epochOpen c => Sys2Proof.Machine.execEpochOpen c s
  | .epochResume c => Sys2Proof.Machine.execEpochResume c s
  | .epochClose c => Sys2Proof.Machine.execEpochClose c s
  | .sourceBind c => Sys2Proof.Machine.execSourceBind c s
  | .sourceUnbind c => Sys2Proof.Machine.execSourceUnbind c s
  | .sourceUnbindDrained c => Sys2Proof.Machine.execSourceUnbindDrained c s
  | .nsGrant c => Sys2Proof.Machine.execNsGrant c s
  | .transcode c => Sys2Proof.Machine.execTranscode c s
  | .transcodeDone c e => Sys2Proof.Machine.execTranscodeDone c e s
  | .cacheReserve c => Sys2Proof.Machine.execCacheReserve c s
  | .cachePin c => Sys2Proof.Machine.execCachePin c s
  | .cacheUnpin c => Sys2Proof.Machine.execCacheUnpin c s
  | .cacheEvict c => Sys2Proof.Machine.execCacheEvict c s
  | .tensorCreate c => Sys2Proof.Machine.execTensorCreate c s
  | .tensorDestroy c => Sys2Proof.Machine.execTensorDestroy c s
  | .tensorDestroyDrained c => Sys2Proof.Machine.execTensorDestroyDrained c s
  | .copy c => Sys2Proof.Machine.execCopy c s
  | .copyLayout c => Sys2Proof.Machine.execCopyLayout c s
  | .gather c => Sys2Proof.Machine.execGather c s
  | .scatter c => Sys2Proof.Machine.execScatter c s
  | .spill c => Sys2Proof.Machine.execSpill c s
  | .restore c => Sys2Proof.Machine.execRestore c s
  | .spillFree c => Sys2Proof.Machine.execSpillFree c s
  | .spillFreeDrained c => Sys2Proof.Machine.execSpillFreeDrained c s
  | .eventWait c => Sys2Proof.Machine.execEventWait c s
  | .abort c => Sys2Proof.Machine.execAbort c s
  | .transferComplete x => Sys2Proof.Machine.execTransferComplete x s
  | .atsTranslationCompletion x a => Sys2Proof.Machine.execAtsTranslationCompletion x a s
  | .pageRequestResponse x ok => Sys2Proof.Machine.execPageRequestResponse x ok s
  | .pageRequestTimeout x => Sys2Proof.Machine.execPageRequestTimeout x s
  | .atsInvalidation fn port lo hi => Sys2Proof.Machine.execAtsInvalidation fn port lo hi s
  | .invalidationCompletion port tag => Sys2Proof.Machine.execInvalidationCompletion port tag s
  | .retirementRead port p => Sys2Proof.Machine.execRetirementRead port p s
  | .hostLinkDown port => Sys2Proof.Machine.execHostLinkDown port s
  | .hostLinkUp port => Sys2Proof.Machine.execHostLinkUp port s
  | .moveBackToPrimary p => Sys2Proof.Machine.execMoveBackToPrimary p s
  | .hostRequestTimeout port x => Sys2Proof.Machine.execHostRequestTimeout port x s
  | .hostPortTraining links => Sys2Proof.Machine.execHostPortTraining links s
  | .resetNLow lowNs => Sys2Proof.Machine.execResetNLow lowNs s
  | .pwrGoodFall lowNs => Sys2Proof.Machine.execPwrGoodFall lowNs s
  | .refclkLoss => Sys2Proof.Machine.execRefclkLoss s
  | .resetRelease k => Sys2Proof.Machine.execResetRelease k s
  | .stepEdge pin highNs => Sys2Proof.Machine.execStepEdge pin highNs s
  | .stepStuck pin => Sys2Proof.Machine.execStepStuck pin s
  | .stepStuckClear pin lowNs => Sys2Proof.Machine.execStepStuckClear pin lowNs s
  | .aliveToggle => Sys2Proof.Machine.execAliveToggle s
  | .smbusIdentity addr => Sys2Proof.Machine.execSmbusIdentity addr s
  | .smbusDieIdentity addr d => Sys2Proof.Machine.execSmbusDieIdentity addr d s
  | .smbusHealth addr => Sys2Proof.Machine.execSmbusHealth addr s
  | .smbusRegisterRead addr block => Sys2Proof.Machine.execSmbusRegisterRead addr block s
  | .smbusUnknownCommand addr code => Sys2Proof.Machine.execSmbusUnknownCommand addr code s
  | .sclLowTimeout lowMs => Sys2Proof.Machine.execSclLowTimeout lowMs s
  | .testLogicReset => Sys2Proof.Machine.execTestLogicReset s
  | .idcode => Sys2Proof.Machine.execIdcode s
  | .samplePreload pins => Sys2Proof.Machine.execSamplePreload pins s
  | .extest => Sys2Proof.Machine.execExtest s
  | .clamp => Sys2Proof.Machine.execClamp s
  | .highz => Sys2Proof.Machine.execHighz s
  | .instr1687 => Sys2Proof.Machine.execInstr1687 s
  | .bypass code => Sys2Proof.Machine.execBypass code s
  | .driveArrival sp link a => Sys2Proof.Machine.execDriveArrival sp link a s
  | .driveReady sp link r => Sys2Proof.Machine.execDriveReady sp link r s
  | .driveReadyTimeout sp link => Sys2Proof.Machine.execDriveReadyTimeout sp link s
  | .driveRemoval sp at_ => Sys2Proof.Machine.execDriveRemoval sp at_ s
  | .dieSpCtrlEnable port d v => Sys2Proof.Machine.execDieSpCtrlEnable port d v s
  | .dieSpCtrlDisable port d v => Sys2Proof.Machine.execDieSpCtrlDisable port d v s
  | .positionIssue from_ r => Sys2Proof.Machine.execPositionIssue from_ r s
  | .threadAssign => Sys2Proof.Machine.execThreadAssign s
  | .fetchIssue d r => Sys2Proof.Machine.execFetchIssue d r s
  | .fetchCompletion f r => Sys2Proof.Machine.execFetchCompletion f r s
  | .fetchAttemptTimeout f meets => Sys2Proof.Machine.execFetchAttemptTimeout f meets s
  | .nvmeAbortTimeout f => Sys2Proof.Machine.execNvmeAbortTimeout f s
  | .ticketComplete th ticket => Sys2Proof.Machine.execTicketComplete th ticket s
  | .chunkFetch d model => Sys2Proof.Machine.execChunkFetch d model s
  | .chunkReady cluster model buf => Sys2Proof.Machine.execChunkReady cluster model buf s
  | .landingBufferRelease cluster model buf => Sys2Proof.Machine.execLandingBufferRelease cluster model buf s
  | .placementCopyEnd q pos => Sys2Proof.Machine.execPlacementCopyEnd q pos s
  | .deliveryEntryTake q => Sys2Proof.Machine.execDeliveryEntryTake q s
  | .batchRelease q => Sys2Proof.Machine.execBatchRelease q s
  | .graceWindowEnd q meets => Sys2Proof.Machine.execGraceWindowEnd q meets s
  | .budgetExceeded sample => Sys2Proof.Machine.execBudgetExceeded sample s
  | .hardTimeout sample => Sys2Proof.Machine.execHardTimeout sample s
  | .releaseTreeTimeout kind index => Sys2Proof.Machine.execReleaseTreeTimeout kind index s
  | .fLiveRecompute u a => Sys2Proof.Machine.execFLiveRecompute u a s
  | .paceRefresh t events => Sys2Proof.Machine.execPaceRefresh t events s
  | .allocationResume => Sys2Proof.Machine.execAllocationResume s
  | .superblockRetire d sb => Sys2Proof.Machine.execSuperblockRetire d sb s
  | .patrolScrub d sb line r => Sys2Proof.Machine.execPatrolScrub d sb line r s
  | .dramTempRead mp inRange => Sys2Proof.Machine.execDramTempRead mp inRange s
  | .memoryTraining trained => Sys2Proof.Machine.execMemoryTraining trained s
  | .memoryRequestTimeout mp req => Sys2Proof.Machine.execMemoryRequestTimeout mp req s
  | .quadrilleRequestTimeout e req => Sys2Proof.Machine.execQuadrilleRequestTimeout e req s
  | .routeChangeDrained src dst => Sys2Proof.Machine.execRouteChangeDrained src dst s
  | .crossingAccessTimeout a => Sys2Proof.Machine.execCrossingAccessTimeout a s
  | .handshakeWatchdog kind index => Sys2Proof.Machine.execHandshakeWatchdog kind index s
  | .copyRegenerationEnd p id r => Sys2Proof.Machine.execCopyRegenerationEnd p id r s
  | .tileCtrlDisable port t v => Sys2Proof.Machine.execTileCtrlDisable port t v s
  | .tileCtrlEnable port t v => Sys2Proof.Machine.execTileCtrlEnable port t v s
  | .fltRevive port v => Sys2Proof.Machine.execFltRevive port v s
  | .revivalSelfTestEnd pass => Sys2Proof.Machine.execRevivalSelfTestEnd pass s
  | .forceEn port v => Sys2Proof.Machine.execForceEn port v s
  | .fltForce port v => Sys2Proof.Machine.execFltForce port v s
  | .firmwareWatchdog d meetsKick => Sys2Proof.Machine.execFirmwareWatchdog d meetsKick s
  | .transcodeProgressTimeout c => Sys2Proof.Machine.execTranscodeProgressTimeout c s
  | .fwBaseWrite port v => Sys2Proof.Machine.execFwBaseWrite port v s
  | .firmwareImageCheck => Sys2Proof.Machine.execFirmwareImageCheck s
  | .bootRestore port v => Sys2Proof.Machine.execBootRestore port v s
  | .recordRestore => Sys2Proof.Machine.execRecordRestore s
  | .bootStart port v => Sys2Proof.Machine.execBootStart port v s
  | .save port v => Sys2Proof.Machine.execSave port v s
  | .forgetMeNotSave => Sys2Proof.Machine.execForgetMeNotSave s
  | .quiesce port v => Sys2Proof.Machine.execQuiesce port v s
  | .pguEnvMax port v => Sys2Proof.Machine.execPguEnvMax port v s
  | .pguEstimate m => Sys2Proof.Machine.execPguEstimate m s
  | .thermalStep d tj => Sys2Proof.Machine.execThermalStep d tj s
  | .thermTrip d tj => Sys2Proof.Machine.execThermTrip d tj s
  | .pguFault d c => Sys2Proof.Machine.execPguFault d c s
  | .add x => Sys2Proof.Machine.execAdd x s
  | .sub x => Sys2Proof.Machine.execSub x s
  | .and x => Sys2Proof.Machine.execAnd x s
  | .or x => Sys2Proof.Machine.execOr x s
  | .xor x => Sys2Proof.Machine.execXor x s
  | .shl x => Sys2Proof.Machine.execShl x s
  | .shr x => Sys2Proof.Machine.execShr x s
  | .sra x => Sys2Proof.Machine.execSra x s
  | .mul x => Sys2Proof.Machine.execMul x s
  | .mulhu x => Sys2Proof.Machine.execMulhu x s
  | .mulhs x => Sys2Proof.Machine.execMulhs x s
  | .divu x => Sys2Proof.Machine.execDivu x s
  | .remu x => Sys2Proof.Machine.execRemu x s
  | .min x => Sys2Proof.Machine.execMin x s
  | .max x => Sys2Proof.Machine.execMax x s
  | .minu x => Sys2Proof.Machine.execMinu x s
  | .maxu x => Sys2Proof.Machine.execMaxu x s
  | .slt x => Sys2Proof.Machine.execSlt x s
  | .sltu x => Sys2Proof.Machine.execSltu x s
  | .seq x => Sys2Proof.Machine.execSeq x s
  | .movi x => Sys2Proof.Machine.execMovi x s
  | .br x => Sys2Proof.Machine.execBr x s
  | .beq x => Sys2Proof.Machine.execBeq x s
  | .bne x => Sys2Proof.Machine.execBne x s
  | .blt x => Sys2Proof.Machine.execBlt x s
  | .bltu x => Sys2Proof.Machine.execBltu x s
  | .bge x => Sys2Proof.Machine.execBge x s
  | .bgeu x => Sys2Proof.Machine.execBgeu x s
  | .pany x => Sys2Proof.Machine.execPany x s
  | .pall x => Sys2Proof.Machine.execPall x s
  | .call x => Sys2Proof.Machine.execCall x s
  | .jr x => Sys2Proof.Machine.execJr x s
  | .vadd x => Sys2Proof.Machine.execVadd x s
  | .vsub x => Sys2Proof.Machine.execVsub x s
  | .vadds x => Sys2Proof.Machine.execVadds x s
  | .vaddus x => Sys2Proof.Machine.execVaddus x s
  | .vmul x => Sys2Proof.Machine.execVmul x s
  | .vmulhu x => Sys2Proof.Machine.execVmulhu x s
  | .vmin x => Sys2Proof.Machine.execVmin x s
  | .vmax x => Sys2Proof.Machine.execVmax x s
  | .vminu x => Sys2Proof.Machine.execVminu x s
  | .vmaxu x => Sys2Proof.Machine.execVmaxu x s
  | .vand x => Sys2Proof.Machine.execVand x s
  | .vor x => Sys2Proof.Machine.execVor x s
  | .vxor x => Sys2Proof.Machine.execVxor x s
  | .vshl x => Sys2Proof.Machine.execVshl x s
  | .vshr x => Sys2Proof.Machine.execVshr x s
  | .vsra x => Sys2Proof.Machine.execVsra x s
  | .vceq x => Sys2Proof.Machine.execVceq x s
  | .vclt x => Sys2Proof.Machine.execVclt x s
  | .vcltu x => Sys2Proof.Machine.execVcltu x s
  | .vsel x => Sys2Proof.Machine.execVsel x s
  | .vbc x => Sys2Proof.Machine.execVbc x s
  | .vext x => Sys2Proof.Machine.execVext x s
  | .vins x => Sys2Proof.Machine.execVins x s
  | .vrsum x => Sys2Proof.Machine.execVrsum x s
  | .vfadd x => Sys2Proof.Machine.execVfadd x s
  | .vfmul x => Sys2Proof.Machine.execVfmul x s
  | .vfma x => Sys2Proof.Machine.execVfma x s
  | .vcvtif x => Sys2Proof.Machine.execVcvtif x s
  | .vcvtfi x => Sys2Proof.Machine.execVcvtfi x s
  | .lds x => Sys2Proof.Machine.execLds x s
  | .sts x => Sys2Proof.Machine.execSts x s
  | .ldv x => Sys2Proof.Machine.execLdv x s
  | .stv x => Sys2Proof.Machine.execStv x s
  | .ldvg x => Sys2Proof.Machine.execLdvg x s
  | .stvx x => Sys2Proof.Machine.execStvx x s
  | .balloc x => Sys2Proof.Machine.execBalloc x s
  | .bref x => Sys2Proof.Machine.execBref x s
  | .bfree x => Sys2Proof.Machine.execBfree x s
  | .drd x => Sys2Proof.Machine.execDrd x s
  | .dwr x => Sys2Proof.Machine.execDwr x s
  | .dout x => Sys2Proof.Machine.execDout x s
  | .didx x => Sys2Proof.Machine.execDidx x s
  | .dwait x => Sys2Proof.Machine.execDwait x s
  | .rp x => Sys2Proof.Machine.execRp x s
  | .ctxOpen x => Sys2Proof.Machine.execCtxOpen x s
  | .decodeAu x => Sys2Proof.Machine.execDecodeAu x s
  | .flush x => Sys2Proof.Machine.execFlush x s
  | .ctxClose x => Sys2Proof.Machine.execCtxClose x s
  | .resample x => Sys2Proof.Machine.execResample x s
  | .warp x => Sys2Proof.Machine.execWarp x s
  | .colour x => Sys2Proof.Machine.execColour x s
  | .blur x => Sys2Proof.Machine.execBlur x s
  | .blend x => Sys2Proof.Machine.execBlend x s
  | .layer x => Sys2Proof.Machine.execLayer x s
  | .select x => Sys2Proof.Machine.execSelect x s
  | .tokenise x => Sys2Proof.Machine.execTokenise x s
  | .cbg x => Sys2Proof.Machine.execCbg x s
  | .vcbg x => Sys2Proof.Machine.execVcbg x s
  | .uwait x => Sys2Proof.Machine.execUwait x s
  | .lmma x => Sys2Proof.Machine.execLmma x s
  | .lact x => Sys2Proof.Machine.execLact x s
  | .lcvt x => Sys2Proof.Machine.execLcvt x s
  | .lred x => Sys2Proof.Machine.execLred x s
  | .lwait x => Sys2Proof.Machine.execLwait x s
  | .bwait x => Sys2Proof.Machine.execBwait x s
  | .bpub x => Sys2Proof.Machine.execBpub x s
  | .oronyNop x => Sys2Proof.Machine.execOronyNop x s
  | .yield x => Sys2Proof.Machine.execYield x s
  | .endThread x => Sys2Proof.Machine.execEndThread x s
  | .trap x => Sys2Proof.Machine.execTrap x s
  | .rdsr x => Sys2Proof.Machine.execRdsr x s
  | .regrd x => Sys2Proof.Machine.execRegrd x s
  | .regwr x => Sys2Proof.Machine.execRegwr x s
  | .hmrd x => Sys2Proof.Machine.execHmrd x s
  | .hmwr x => Sys2Proof.Machine.execHmwr x s
  | .kick x => Sys2Proof.Machine.execKick x s
  | .hostlinkCrc port => Sys2Proof.Machine.execHostlinkCrc port s
  | .csuFault => Sys2Proof.Machine.execCsuFault s
  | .retirementReadReturn port p => Sys2Proof.Machine.execRetirementReadReturn port p s
  | .nvmeAbortCompletion f => Sys2Proof.Machine.execNvmeAbortCompletion f s
  | .spillCopyRebuildEnd slot => Sys2Proof.Machine.execSpillCopyRebuildEnd slot s
  | .downstreamPortContainment sp link => Sys2Proof.Machine.execDownstreamPortContainment sp link s

end Sys2Proof.Machine
end

