-- ==== Sys2Proof/Machine/Tick.lean ====
section
/-!
DEFINITION. What passes with time alone: the µs counts of the timer units (R610, R616, R617), the report of faults
owed, and the end of partition resets (R589).
-/

namespace Sys2Proof.Machine

/-! ### Errors of SRAM and datapath words (R596, Table 18.2) -/

/-- Threads that hold words of a tile, a cluster or a die. -/
def threadsIn (s : State) (kind index : Nat) : List Thread :=
  let size := if kind = 1 then 1 else if kind = 2 then 4 else 24
  s.threads.filter fun t => (thTile t.th).any fun i => i / size = index

/-- An SRAM or datapath word was corrected, or was not: then its sample's stage runs again under R164, or its unit leaves service
where the word belongs to no sample. -/
def sramWord (s : State) (e : Config.SramError) : State :=
  let die := if e.kind = 1 then e.index / 24 else if e.kind = 2 then e.index / 6 else e.index
  if e.kind = 0 || 4 ≤ e.kind || unitCount e.kind ≤ e.index || unitLost s e.kind e.index then s
  else if !e.uncorrected then raise s ⟨0x05, false, die, none, e.kind, e.index⟩
  else match e.thread.bind fun i => (threadsIn s e.kind e.index)[i]? with
    | none => raise s ⟨0x06, false, die, none, e.kind, e.index⟩
    | some t =>
      let u := raise s ⟨0x06, false, die, some t.part, e.kind, e.index⟩
      if u.threads.any (·.th = t.th) then rerunLost u t.sample t.stage else u

/-- Whether a word errs in this µs, and which, is free: no command says so (log entry 71). -/
def sramTick (s : State) : State :=
  let t := { s with freeCtr := s.freeCtr + 1 }
  match Config.sramError s.freeCtr with
  | some e => sramWord t e
  | none => t

/-- 1 µs on die 0's timer unit and on every die in service; nothing runs in reset (log entry 15). -/
def tick (s : State) : State :=
  if s.pins.inReset then s
  else
    let t := reportOwed s
    let t := if alive t then sramTick ((List.range 16).foldl endReset t) else t
    { t with us := s.us + 1
             dies := t.dies.zipIdx.map fun (x, d) => if dieLost t d then x else { x with us := x.us + 1 } }

end Sys2Proof.Machine
end

