-- ==== Sys2Proof/Laws/State.lean ====
section
/-!
SUPPORT. What each update of the state does to each of its fields, true by unfolding.
-/

namespace Sys2Proof.Machine

variable (s : State)

/-! ### setReg -/

@[simp] theorem setReg_pending (o : Nat) (v : Word) : (setReg s o v).pending = s.pending := rfl
@[simp] theorem setReg_regs (o : Nat) (v : Word) : (setReg s o v).regs = put regReset o v s.regs := rfl
@[simp] theorem setReg_lowHalf (o : Nat) (v : Word) : (setReg s o v).lowHalf = s.lowHalf := rfl
@[simp] theorem setReg_queues (o : Nat) (v : Word) : (setReg s o v).queues = s.queues := rfl
@[simp] theorem setReg_parts (o : Nat) (v : Word) : (setReg s o v).parts = s.parts := rfl
@[simp] theorem setReg_dies (o : Nat) (v : Word) : (setReg s o v).dies = s.dies := rfl
@[simp] theorem setReg_pins (o : Nat) (v : Word) : (setReg s o v).pins = s.pins := rfl
@[simp] theorem setReg_boot (o : Nat) (v : Word) : (setReg s o v).boot = s.boot := rfl
@[simp] theorem setReg_tap (o : Nat) (v : Word) : (setReg s o v).tap = s.tap := rfl
@[simp] theorem setReg_smbus (o : Nat) (v : Word) : (setReg s o v).smbus = s.smbus := rfl
@[simp] theorem setReg_hostMem (o : Nat) (v : Word) : (setReg s o v).hostMem = s.hostMem := rfl
@[simp] theorem setReg_hostFaults (o : Nat) (v : Word) : (setReg s o v).hostFaults = s.hostFaults := rfl
@[simp] theorem setReg_unretired (o : Nat) (v : Word) : (setReg s o v).unretired = s.unretired := rfl
@[simp] theorem setReg_irqs (o : Nat) (v : Word) : (setReg s o v).irqs = s.irqs := rfl
@[simp] theorem setReg_cmds (o : Nat) (v : Word) : (setReg s o v).cmds = s.cmds := rfl
@[simp] theorem setReg_nextCmd (o : Nat) (v : Word) : (setReg s o v).nextCmd = s.nextCmd := rfl
@[simp] theorem setReg_sources (o : Nat) (v : Word) : (setReg s o v).sources = s.sources := rfl
@[simp] theorem setReg_grants (o : Nat) (v : Word) : (setReg s o v).grants = s.grants := rfl
@[simp] theorem setReg_drives (o : Nat) (v : Word) : (setReg s o v).drives = s.drives := rfl
@[simp] theorem setReg_recipes (o : Nat) (v : Word) : (setReg s o v).recipes = s.recipes := rfl
@[simp] theorem setReg_models (o : Nat) (v : Word) : (setReg s o v).models = s.models := rfl
@[simp] theorem setReg_dicts (o : Nat) (v : Word) : (setReg s o v).dicts = s.dicts := rfl
@[simp] theorem setReg_tensors (o : Nat) (v : Word) : (setReg s o v).tensors = s.tensors := rfl
@[simp] theorem setReg_tensorGens (o : Nat) (v : Word) : (setReg s o v).tensorGens = s.tensorGens := rfl
@[simp] theorem setReg_spills (o : Nat) (v : Word) : (setReg s o v).spills = s.spills := rfl
@[simp] theorem setReg_spillGens (o : Nat) (v : Word) : (setReg s o v).spillGens = s.spillGens := rfl
@[simp] theorem setReg_cache (o : Nat) (v : Word) : (setReg s o v).cache = s.cache := rfl
@[simp] theorem setReg_copies (o : Nat) (v : Word) : (setReg s o v).copies = s.copies := rfl
@[simp] theorem setReg_transcodes (o : Nat) (v : Word) : (setReg s o v).transcodes = s.transcodes := rfl
@[simp] theorem setReg_bufs (o : Nat) (v : Word) : (setReg s o v).bufs = s.bufs := rfl
@[simp] theorem setReg_lowRate (o : Nat) (v : Word) : (setReg s o v).lowRate = s.lowRate := rfl
@[simp] theorem setReg_sbCorrected (o : Nat) (v : Word) : (setReg s o v).sbCorrected = s.sbCorrected := rfl
@[simp] theorem setReg_readHalts (o : Nat) (v : Word) : (setReg s o v).readHalts = s.readHalts := rfl
@[simp] theorem setReg_brought (o : Nat) (v : Word) : (setReg s o v).brought = s.brought := rfl
@[simp] theorem setReg_carried (o : Nat) (v : Word) : (setReg s o v).carried = s.carried := rfl
@[simp] theorem setReg_turns (o : Nat) (v : Word) : (setReg s o v).turns = s.turns := rfl
@[simp] theorem setReg_urReports (o : Nat) (v : Word) : (setReg s o v).urReports = s.urReports := rfl
@[simp] theorem setReg_lastIssue (o : Nat) (v : Word) : (setReg s o v).lastIssue = s.lastIssue := rfl
@[simp] theorem setReg_owed (o : Nat) (v : Word) : (setReg s o v).owed = s.owed := rfl
@[simp] theorem setReg_superblocks (o : Nat) (v : Word) : (setReg s o v).superblocks = s.superblocks := rfl
@[simp] theorem setReg_allocWaits (o : Nat) (v : Word) : (setReg s o v).allocWaits = s.allocWaits := rfl
@[simp] theorem setReg_samples (o : Nat) (v : Word) : (setReg s o v).samples = s.samples := rfl
@[simp] theorem setReg_threads (o : Nat) (v : Word) : (setReg s o v).threads = s.threads := rfl
@[simp] theorem setReg_landing (o : Nat) (v : Word) : (setReg s o v).landing = s.landing := rfl
@[simp] theorem setReg_lreds (o : Nat) (v : Word) : (setReg s o v).lreds = s.lreds := rfl
@[simp] theorem setReg_fetches (o : Nat) (v : Word) : (setReg s o v).fetches = s.fetches := rfl
@[simp] theorem setReg_transfers (o : Nat) (v : Word) : (setReg s o v).transfers = s.transfers := rfl
@[simp] theorem setReg_epochs (o : Nat) (v : Word) : (setReg s o v).epochs = s.epochs := rfl
@[simp] theorem setReg_calRuns (o : Nat) (v : Word) : (setReg s o v).calRuns = s.calRuns := rfl
@[simp] theorem setReg_invs (o : Nat) (v : Word) : (setReg s o v).invs = s.invs := rfl
@[simp] theorem setReg_lost (o : Nat) (v : Word) : (setReg s o v).lost = s.lost := rfl
@[simp] theorem setReg_fuseLost (o : Nat) (v : Word) : (setReg s o v).fuseLost = s.fuseLost := rfl
@[simp] theorem setReg_mpUp (o : Nat) (v : Word) : (setReg s o v).mpUp = s.mpUp := rfl
@[simp] theorem setReg_hpUp (o : Nat) (v : Word) : (setReg s o v).hpUp = s.hpUp := rfl
@[simp] theorem setReg_mpPaused (o : Nat) (v : Word) : (setReg s o v).mpPaused = s.mpPaused := rfl
@[simp] theorem setReg_revival (o : Nat) (v : Word) : (setReg s o v).revival = s.revival := rfl
@[simp] theorem setReg_reissued (o : Nat) (v : Word) : (setReg s o v).reissued = s.reissued := rfl
@[simp] theorem setReg_routeHolds (o : Nat) (v : Word) : (setReg s o v).routeHolds = s.routeHolds := rfl
@[simp] theorem setReg_escCount (o : Nat) (v : Word) : (setReg s o v).escCount = s.escCount := rfl
@[simp] theorem setReg_fatal (o : Nat) (v : Word) : (setReg s o v).fatal = s.fatal := rfl
@[simp] theorem setReg_us (o : Nat) (v : Word) : (setReg s o v).us = s.us := rfl
@[simp] theorem setReg_releaseUs (o : Nat) (v : Word) : (setReg s o v).releaseUs = s.releaseUs := rfl
@[simp] theorem setReg_port0 (o : Nat) (v : Word) : (setReg s o v).port0 = s.port0 := rfl
@[simp] theorem setReg_keySlots (o : Nat) (v : Word) : (setReg s o v).keySlots = s.keySlots := rfl
@[simp] theorem setReg_derivations (o : Nat) (v : Word) : (setReg s o v).derivations = s.derivations := rfl
@[simp] theorem setReg_keyDerived (o : Nat) (v : Word) : (setReg s o v).keyDerived = s.keyDerived := rfl
@[simp] theorem setReg_scrubRun (o : Nat) (v : Word) : (setReg s o v).scrubRun = s.scrubRun := rfl
@[simp] theorem setReg_memU (o : Nat) (v : Word) : (setReg s o v).memU = s.memU := rfl
@[simp] theorem setReg_act (o : Nat) (v : Word) : (setReg s o v).act = s.act := rfl
@[simp] theorem setReg_energy (o : Nat) (v : Word) : (setReg s o v).energy = s.energy := rfl
@[simp] theorem setReg_counted (o : Nat) (v : Word) : (setReg s o v).counted = s.counted := rfl
@[simp] theorem setReg_freeCtr (o : Nat) (v : Word) : (setReg s o v).freeCtr = s.freeCtr := rfl
@[simp] theorem setReg_nextId (o : Nat) (v : Word) : (setReg s o v).nextId = s.nextId := rfl

/-! ### setFld -/

@[simp] theorem setFld_pending (o a b x : Nat) : (setFld s o a b x).pending = s.pending := rfl
@[simp] theorem setFld_regs (o a b x : Nat) :
    (setFld s o a b x).regs = put regReset o (withBits (reg s o).toNat a b x) s.regs := rfl
@[simp] theorem setFld_lowHalf (o a b x : Nat) : (setFld s o a b x).lowHalf = s.lowHalf := rfl
@[simp] theorem setFld_queues (o a b x : Nat) : (setFld s o a b x).queues = s.queues := rfl
@[simp] theorem setFld_parts (o a b x : Nat) : (setFld s o a b x).parts = s.parts := rfl
@[simp] theorem setFld_dies (o a b x : Nat) : (setFld s o a b x).dies = s.dies := rfl
@[simp] theorem setFld_pins (o a b x : Nat) : (setFld s o a b x).pins = s.pins := rfl
@[simp] theorem setFld_boot (o a b x : Nat) : (setFld s o a b x).boot = s.boot := rfl
@[simp] theorem setFld_tap (o a b x : Nat) : (setFld s o a b x).tap = s.tap := rfl
@[simp] theorem setFld_smbus (o a b x : Nat) : (setFld s o a b x).smbus = s.smbus := rfl
@[simp] theorem setFld_hostMem (o a b x : Nat) : (setFld s o a b x).hostMem = s.hostMem := rfl
@[simp] theorem setFld_hostFaults (o a b x : Nat) : (setFld s o a b x).hostFaults = s.hostFaults := rfl
@[simp] theorem setFld_unretired (o a b x : Nat) : (setFld s o a b x).unretired = s.unretired := rfl
@[simp] theorem setFld_irqs (o a b x : Nat) : (setFld s o a b x).irqs = s.irqs := rfl
@[simp] theorem setFld_cmds (o a b x : Nat) : (setFld s o a b x).cmds = s.cmds := rfl
@[simp] theorem setFld_nextCmd (o a b x : Nat) : (setFld s o a b x).nextCmd = s.nextCmd := rfl
@[simp] theorem setFld_sources (o a b x : Nat) : (setFld s o a b x).sources = s.sources := rfl
@[simp] theorem setFld_grants (o a b x : Nat) : (setFld s o a b x).grants = s.grants := rfl
@[simp] theorem setFld_drives (o a b x : Nat) : (setFld s o a b x).drives = s.drives := rfl
@[simp] theorem setFld_recipes (o a b x : Nat) : (setFld s o a b x).recipes = s.recipes := rfl
@[simp] theorem setFld_models (o a b x : Nat) : (setFld s o a b x).models = s.models := rfl
@[simp] theorem setFld_dicts (o a b x : Nat) : (setFld s o a b x).dicts = s.dicts := rfl
@[simp] theorem setFld_tensors (o a b x : Nat) : (setFld s o a b x).tensors = s.tensors := rfl
@[simp] theorem setFld_tensorGens (o a b x : Nat) : (setFld s o a b x).tensorGens = s.tensorGens := rfl
@[simp] theorem setFld_spills (o a b x : Nat) : (setFld s o a b x).spills = s.spills := rfl
@[simp] theorem setFld_spillGens (o a b x : Nat) : (setFld s o a b x).spillGens = s.spillGens := rfl
@[simp] theorem setFld_cache (o a b x : Nat) : (setFld s o a b x).cache = s.cache := rfl
@[simp] theorem setFld_copies (o a b x : Nat) : (setFld s o a b x).copies = s.copies := rfl
@[simp] theorem setFld_transcodes (o a b x : Nat) : (setFld s o a b x).transcodes = s.transcodes := rfl
@[simp] theorem setFld_bufs (o a b x : Nat) : (setFld s o a b x).bufs = s.bufs := rfl
@[simp] theorem setFld_lowRate (o a b x : Nat) : (setFld s o a b x).lowRate = s.lowRate := rfl
@[simp] theorem setFld_sbCorrected (o a b x : Nat) : (setFld s o a b x).sbCorrected = s.sbCorrected := rfl
@[simp] theorem setFld_readHalts (o a b x : Nat) : (setFld s o a b x).readHalts = s.readHalts := rfl
@[simp] theorem setFld_brought (o a b x : Nat) : (setFld s o a b x).brought = s.brought := rfl
@[simp] theorem setFld_carried (o a b x : Nat) : (setFld s o a b x).carried = s.carried := rfl
@[simp] theorem setFld_turns (o a b x : Nat) : (setFld s o a b x).turns = s.turns := rfl
@[simp] theorem setFld_urReports (o a b x : Nat) : (setFld s o a b x).urReports = s.urReports := rfl
@[simp] theorem setFld_lastIssue (o a b x : Nat) : (setFld s o a b x).lastIssue = s.lastIssue := rfl
@[simp] theorem setFld_owed (o a b x : Nat) : (setFld s o a b x).owed = s.owed := rfl
@[simp] theorem setFld_superblocks (o a b x : Nat) : (setFld s o a b x).superblocks = s.superblocks := rfl
@[simp] theorem setFld_allocWaits (o a b x : Nat) : (setFld s o a b x).allocWaits = s.allocWaits := rfl
@[simp] theorem setFld_samples (o a b x : Nat) : (setFld s o a b x).samples = s.samples := rfl
@[simp] theorem setFld_threads (o a b x : Nat) : (setFld s o a b x).threads = s.threads := rfl
@[simp] theorem setFld_landing (o a b x : Nat) : (setFld s o a b x).landing = s.landing := rfl
@[simp] theorem setFld_lreds (o a b x : Nat) : (setFld s o a b x).lreds = s.lreds := rfl
@[simp] theorem setFld_fetches (o a b x : Nat) : (setFld s o a b x).fetches = s.fetches := rfl
@[simp] theorem setFld_transfers (o a b x : Nat) : (setFld s o a b x).transfers = s.transfers := rfl
@[simp] theorem setFld_epochs (o a b x : Nat) : (setFld s o a b x).epochs = s.epochs := rfl
@[simp] theorem setFld_calRuns (o a b x : Nat) : (setFld s o a b x).calRuns = s.calRuns := rfl
@[simp] theorem setFld_invs (o a b x : Nat) : (setFld s o a b x).invs = s.invs := rfl
@[simp] theorem setFld_lost (o a b x : Nat) : (setFld s o a b x).lost = s.lost := rfl
@[simp] theorem setFld_fuseLost (o a b x : Nat) : (setFld s o a b x).fuseLost = s.fuseLost := rfl
@[simp] theorem setFld_mpUp (o a b x : Nat) : (setFld s o a b x).mpUp = s.mpUp := rfl
@[simp] theorem setFld_hpUp (o a b x : Nat) : (setFld s o a b x).hpUp = s.hpUp := rfl
@[simp] theorem setFld_mpPaused (o a b x : Nat) : (setFld s o a b x).mpPaused = s.mpPaused := rfl
@[simp] theorem setFld_revival (o a b x : Nat) : (setFld s o a b x).revival = s.revival := rfl
@[simp] theorem setFld_reissued (o a b x : Nat) : (setFld s o a b x).reissued = s.reissued := rfl
@[simp] theorem setFld_routeHolds (o a b x : Nat) : (setFld s o a b x).routeHolds = s.routeHolds := rfl
@[simp] theorem setFld_escCount (o a b x : Nat) : (setFld s o a b x).escCount = s.escCount := rfl
@[simp] theorem setFld_fatal (o a b x : Nat) : (setFld s o a b x).fatal = s.fatal := rfl
@[simp] theorem setFld_us (o a b x : Nat) : (setFld s o a b x).us = s.us := rfl
@[simp] theorem setFld_releaseUs (o a b x : Nat) : (setFld s o a b x).releaseUs = s.releaseUs := rfl
@[simp] theorem setFld_port0 (o a b x : Nat) : (setFld s o a b x).port0 = s.port0 := rfl
@[simp] theorem setFld_keySlots (o a b x : Nat) : (setFld s o a b x).keySlots = s.keySlots := rfl
@[simp] theorem setFld_derivations (o a b x : Nat) : (setFld s o a b x).derivations = s.derivations := rfl
@[simp] theorem setFld_keyDerived (o a b x : Nat) : (setFld s o a b x).keyDerived = s.keyDerived := rfl
@[simp] theorem setFld_scrubRun (o a b x : Nat) : (setFld s o a b x).scrubRun = s.scrubRun := rfl
@[simp] theorem setFld_memU (o a b x : Nat) : (setFld s o a b x).memU = s.memU := rfl
@[simp] theorem setFld_act (o a b x : Nat) : (setFld s o a b x).act = s.act := rfl
@[simp] theorem setFld_energy (o a b x : Nat) : (setFld s o a b x).energy = s.energy := rfl
@[simp] theorem setFld_counted (o a b x : Nat) : (setFld s o a b x).counted = s.counted := rfl
@[simp] theorem setFld_freeCtr (o a b x : Nat) : (setFld s o a b x).freeCtr = s.freeCtr := rfl
@[simp] theorem setFld_nextId (o a b x : Nat) : (setFld s o a b x).nextId = s.nextId := rfl

/-! ### bump -/

@[simp] theorem bump_pending (o : Nat) : (bump s o).pending = s.pending := rfl
@[simp] theorem bump_regs (o : Nat) : (bump s o).regs = put regReset o (reg s o + 1) s.regs := rfl
@[simp] theorem bump_lowHalf (o : Nat) : (bump s o).lowHalf = s.lowHalf := rfl
@[simp] theorem bump_queues (o : Nat) : (bump s o).queues = s.queues := rfl
@[simp] theorem bump_parts (o : Nat) : (bump s o).parts = s.parts := rfl
@[simp] theorem bump_dies (o : Nat) : (bump s o).dies = s.dies := rfl
@[simp] theorem bump_pins (o : Nat) : (bump s o).pins = s.pins := rfl
@[simp] theorem bump_boot (o : Nat) : (bump s o).boot = s.boot := rfl
@[simp] theorem bump_tap (o : Nat) : (bump s o).tap = s.tap := rfl
@[simp] theorem bump_smbus (o : Nat) : (bump s o).smbus = s.smbus := rfl
@[simp] theorem bump_hostMem (o : Nat) : (bump s o).hostMem = s.hostMem := rfl
@[simp] theorem bump_hostFaults (o : Nat) : (bump s o).hostFaults = s.hostFaults := rfl
@[simp] theorem bump_unretired (o : Nat) : (bump s o).unretired = s.unretired := rfl
@[simp] theorem bump_irqs (o : Nat) : (bump s o).irqs = s.irqs := rfl
@[simp] theorem bump_cmds (o : Nat) : (bump s o).cmds = s.cmds := rfl
@[simp] theorem bump_nextCmd (o : Nat) : (bump s o).nextCmd = s.nextCmd := rfl
@[simp] theorem bump_sources (o : Nat) : (bump s o).sources = s.sources := rfl
@[simp] theorem bump_grants (o : Nat) : (bump s o).grants = s.grants := rfl
@[simp] theorem bump_drives (o : Nat) : (bump s o).drives = s.drives := rfl
@[simp] theorem bump_recipes (o : Nat) : (bump s o).recipes = s.recipes := rfl
@[simp] theorem bump_models (o : Nat) : (bump s o).models = s.models := rfl
@[simp] theorem bump_dicts (o : Nat) : (bump s o).dicts = s.dicts := rfl
@[simp] theorem bump_tensors (o : Nat) : (bump s o).tensors = s.tensors := rfl
@[simp] theorem bump_tensorGens (o : Nat) : (bump s o).tensorGens = s.tensorGens := rfl
@[simp] theorem bump_spills (o : Nat) : (bump s o).spills = s.spills := rfl
@[simp] theorem bump_spillGens (o : Nat) : (bump s o).spillGens = s.spillGens := rfl
@[simp] theorem bump_cache (o : Nat) : (bump s o).cache = s.cache := rfl
@[simp] theorem bump_copies (o : Nat) : (bump s o).copies = s.copies := rfl
@[simp] theorem bump_transcodes (o : Nat) : (bump s o).transcodes = s.transcodes := rfl
@[simp] theorem bump_bufs (o : Nat) : (bump s o).bufs = s.bufs := rfl
@[simp] theorem bump_lowRate (o : Nat) : (bump s o).lowRate = s.lowRate := rfl
@[simp] theorem bump_sbCorrected (o : Nat) : (bump s o).sbCorrected = s.sbCorrected := rfl
@[simp] theorem bump_readHalts (o : Nat) : (bump s o).readHalts = s.readHalts := rfl
@[simp] theorem bump_brought (o : Nat) : (bump s o).brought = s.brought := rfl
@[simp] theorem bump_carried (o : Nat) : (bump s o).carried = s.carried := rfl
@[simp] theorem bump_turns (o : Nat) : (bump s o).turns = s.turns := rfl
@[simp] theorem bump_urReports (o : Nat) : (bump s o).urReports = s.urReports := rfl
@[simp] theorem bump_lastIssue (o : Nat) : (bump s o).lastIssue = s.lastIssue := rfl
@[simp] theorem bump_owed (o : Nat) : (bump s o).owed = s.owed := rfl
@[simp] theorem bump_superblocks (o : Nat) : (bump s o).superblocks = s.superblocks := rfl
@[simp] theorem bump_allocWaits (o : Nat) : (bump s o).allocWaits = s.allocWaits := rfl
@[simp] theorem bump_samples (o : Nat) : (bump s o).samples = s.samples := rfl
@[simp] theorem bump_threads (o : Nat) : (bump s o).threads = s.threads := rfl
@[simp] theorem bump_landing (o : Nat) : (bump s o).landing = s.landing := rfl
@[simp] theorem bump_lreds (o : Nat) : (bump s o).lreds = s.lreds := rfl
@[simp] theorem bump_fetches (o : Nat) : (bump s o).fetches = s.fetches := rfl
@[simp] theorem bump_transfers (o : Nat) : (bump s o).transfers = s.transfers := rfl
@[simp] theorem bump_epochs (o : Nat) : (bump s o).epochs = s.epochs := rfl
@[simp] theorem bump_calRuns (o : Nat) : (bump s o).calRuns = s.calRuns := rfl
@[simp] theorem bump_invs (o : Nat) : (bump s o).invs = s.invs := rfl
@[simp] theorem bump_lost (o : Nat) : (bump s o).lost = s.lost := rfl
@[simp] theorem bump_fuseLost (o : Nat) : (bump s o).fuseLost = s.fuseLost := rfl
@[simp] theorem bump_mpUp (o : Nat) : (bump s o).mpUp = s.mpUp := rfl
@[simp] theorem bump_hpUp (o : Nat) : (bump s o).hpUp = s.hpUp := rfl
@[simp] theorem bump_mpPaused (o : Nat) : (bump s o).mpPaused = s.mpPaused := rfl
@[simp] theorem bump_revival (o : Nat) : (bump s o).revival = s.revival := rfl
@[simp] theorem bump_reissued (o : Nat) : (bump s o).reissued = s.reissued := rfl
@[simp] theorem bump_routeHolds (o : Nat) : (bump s o).routeHolds = s.routeHolds := rfl
@[simp] theorem bump_escCount (o : Nat) : (bump s o).escCount = s.escCount := rfl
@[simp] theorem bump_fatal (o : Nat) : (bump s o).fatal = s.fatal := rfl
@[simp] theorem bump_us (o : Nat) : (bump s o).us = s.us := rfl
@[simp] theorem bump_releaseUs (o : Nat) : (bump s o).releaseUs = s.releaseUs := rfl
@[simp] theorem bump_port0 (o : Nat) : (bump s o).port0 = s.port0 := rfl
@[simp] theorem bump_keySlots (o : Nat) : (bump s o).keySlots = s.keySlots := rfl
@[simp] theorem bump_derivations (o : Nat) : (bump s o).derivations = s.derivations := rfl
@[simp] theorem bump_keyDerived (o : Nat) : (bump s o).keyDerived = s.keyDerived := rfl
@[simp] theorem bump_scrubRun (o : Nat) : (bump s o).scrubRun = s.scrubRun := rfl
@[simp] theorem bump_memU (o : Nat) : (bump s o).memU = s.memU := rfl
@[simp] theorem bump_act (o : Nat) : (bump s o).act = s.act := rfl
@[simp] theorem bump_energy (o : Nat) : (bump s o).energy = s.energy := rfl
@[simp] theorem bump_counted (o : Nat) : (bump s o).counted = s.counted := rfl
@[simp] theorem bump_freeCtr (o : Nat) : (bump s o).freeCtr = s.freeCtr := rfl
@[simp] theorem bump_nextId (o : Nat) : (bump s o).nextId = s.nextId := rfl

/-! ### setPart -/

@[simp] theorem setPart_pending (p : Nat) (f : Part → Part) : (setPart s p f).pending = s.pending := rfl
@[simp] theorem setPart_regs (p : Nat) (f : Part → Part) : (setPart s p f).regs = s.regs := rfl
@[simp] theorem setPart_lowHalf (p : Nat) (f : Part → Part) : (setPart s p f).lowHalf = s.lowHalf := rfl
@[simp] theorem setPart_queues (p : Nat) (f : Part → Part) : (setPart s p f).queues = s.queues := rfl
@[simp] theorem setPart_parts (p : Nat) (f : Part → Part) : (setPart s p f).parts = modAt s.parts p f := rfl
@[simp] theorem setPart_dies (p : Nat) (f : Part → Part) : (setPart s p f).dies = s.dies := rfl
@[simp] theorem setPart_pins (p : Nat) (f : Part → Part) : (setPart s p f).pins = s.pins := rfl
@[simp] theorem setPart_boot (p : Nat) (f : Part → Part) : (setPart s p f).boot = s.boot := rfl
@[simp] theorem setPart_tap (p : Nat) (f : Part → Part) : (setPart s p f).tap = s.tap := rfl
@[simp] theorem setPart_smbus (p : Nat) (f : Part → Part) : (setPart s p f).smbus = s.smbus := rfl
@[simp] theorem setPart_hostMem (p : Nat) (f : Part → Part) : (setPart s p f).hostMem = s.hostMem := rfl
@[simp] theorem setPart_hostFaults (p : Nat) (f : Part → Part) : (setPart s p f).hostFaults = s.hostFaults := rfl
@[simp] theorem setPart_unretired (p : Nat) (f : Part → Part) : (setPart s p f).unretired = s.unretired := rfl
@[simp] theorem setPart_irqs (p : Nat) (f : Part → Part) : (setPart s p f).irqs = s.irqs := rfl
@[simp] theorem setPart_cmds (p : Nat) (f : Part → Part) : (setPart s p f).cmds = s.cmds := rfl
@[simp] theorem setPart_nextCmd (p : Nat) (f : Part → Part) : (setPart s p f).nextCmd = s.nextCmd := rfl
@[simp] theorem setPart_sources (p : Nat) (f : Part → Part) : (setPart s p f).sources = s.sources := rfl
@[simp] theorem setPart_grants (p : Nat) (f : Part → Part) : (setPart s p f).grants = s.grants := rfl
@[simp] theorem setPart_drives (p : Nat) (f : Part → Part) : (setPart s p f).drives = s.drives := rfl
@[simp] theorem setPart_recipes (p : Nat) (f : Part → Part) : (setPart s p f).recipes = s.recipes := rfl
@[simp] theorem setPart_models (p : Nat) (f : Part → Part) : (setPart s p f).models = s.models := rfl
@[simp] theorem setPart_dicts (p : Nat) (f : Part → Part) : (setPart s p f).dicts = s.dicts := rfl
@[simp] theorem setPart_tensors (p : Nat) (f : Part → Part) : (setPart s p f).tensors = s.tensors := rfl
@[simp] theorem setPart_tensorGens (p : Nat) (f : Part → Part) : (setPart s p f).tensorGens = s.tensorGens := rfl
@[simp] theorem setPart_spills (p : Nat) (f : Part → Part) : (setPart s p f).spills = s.spills := rfl
@[simp] theorem setPart_spillGens (p : Nat) (f : Part → Part) : (setPart s p f).spillGens = s.spillGens := rfl
@[simp] theorem setPart_cache (p : Nat) (f : Part → Part) : (setPart s p f).cache = s.cache := rfl
@[simp] theorem setPart_copies (p : Nat) (f : Part → Part) : (setPart s p f).copies = s.copies := rfl
@[simp] theorem setPart_transcodes (p : Nat) (f : Part → Part) : (setPart s p f).transcodes = s.transcodes := rfl
@[simp] theorem setPart_bufs (p : Nat) (f : Part → Part) : (setPart s p f).bufs = s.bufs := rfl
@[simp] theorem setPart_lowRate (p : Nat) (f : Part → Part) : (setPart s p f).lowRate = s.lowRate := rfl
@[simp] theorem setPart_sbCorrected (p : Nat) (f : Part → Part) : (setPart s p f).sbCorrected = s.sbCorrected := rfl
@[simp] theorem setPart_readHalts (p : Nat) (f : Part → Part) : (setPart s p f).readHalts = s.readHalts := rfl
@[simp] theorem setPart_brought (p : Nat) (f : Part → Part) : (setPart s p f).brought = s.brought := rfl
@[simp] theorem setPart_carried (p : Nat) (f : Part → Part) : (setPart s p f).carried = s.carried := rfl
@[simp] theorem setPart_turns (p : Nat) (f : Part → Part) : (setPart s p f).turns = s.turns := rfl
@[simp] theorem setPart_urReports (p : Nat) (f : Part → Part) : (setPart s p f).urReports = s.urReports := rfl
@[simp] theorem setPart_lastIssue (p : Nat) (f : Part → Part) : (setPart s p f).lastIssue = s.lastIssue := rfl
@[simp] theorem setPart_owed (p : Nat) (f : Part → Part) : (setPart s p f).owed = s.owed := rfl
@[simp] theorem setPart_superblocks (p : Nat) (f : Part → Part) : (setPart s p f).superblocks = s.superblocks := rfl
@[simp] theorem setPart_allocWaits (p : Nat) (f : Part → Part) : (setPart s p f).allocWaits = s.allocWaits := rfl
@[simp] theorem setPart_samples (p : Nat) (f : Part → Part) : (setPart s p f).samples = s.samples := rfl
@[simp] theorem setPart_threads (p : Nat) (f : Part → Part) : (setPart s p f).threads = s.threads := rfl
@[simp] theorem setPart_landing (p : Nat) (f : Part → Part) : (setPart s p f).landing = s.landing := rfl
@[simp] theorem setPart_lreds (p : Nat) (f : Part → Part) : (setPart s p f).lreds = s.lreds := rfl
@[simp] theorem setPart_fetches (p : Nat) (f : Part → Part) : (setPart s p f).fetches = s.fetches := rfl
@[simp] theorem setPart_transfers (p : Nat) (f : Part → Part) : (setPart s p f).transfers = s.transfers := rfl
@[simp] theorem setPart_epochs (p : Nat) (f : Part → Part) : (setPart s p f).epochs = s.epochs := rfl
@[simp] theorem setPart_calRuns (p : Nat) (f : Part → Part) : (setPart s p f).calRuns = s.calRuns := rfl
@[simp] theorem setPart_invs (p : Nat) (f : Part → Part) : (setPart s p f).invs = s.invs := rfl
@[simp] theorem setPart_lost (p : Nat) (f : Part → Part) : (setPart s p f).lost = s.lost := rfl
@[simp] theorem setPart_fuseLost (p : Nat) (f : Part → Part) : (setPart s p f).fuseLost = s.fuseLost := rfl
@[simp] theorem setPart_mpUp (p : Nat) (f : Part → Part) : (setPart s p f).mpUp = s.mpUp := rfl
@[simp] theorem setPart_hpUp (p : Nat) (f : Part → Part) : (setPart s p f).hpUp = s.hpUp := rfl
@[simp] theorem setPart_mpPaused (p : Nat) (f : Part → Part) : (setPart s p f).mpPaused = s.mpPaused := rfl
@[simp] theorem setPart_revival (p : Nat) (f : Part → Part) : (setPart s p f).revival = s.revival := rfl
@[simp] theorem setPart_reissued (p : Nat) (f : Part → Part) : (setPart s p f).reissued = s.reissued := rfl
@[simp] theorem setPart_routeHolds (p : Nat) (f : Part → Part) : (setPart s p f).routeHolds = s.routeHolds := rfl
@[simp] theorem setPart_escCount (p : Nat) (f : Part → Part) : (setPart s p f).escCount = s.escCount := rfl
@[simp] theorem setPart_fatal (p : Nat) (f : Part → Part) : (setPart s p f).fatal = s.fatal := rfl
@[simp] theorem setPart_us (p : Nat) (f : Part → Part) : (setPart s p f).us = s.us := rfl
@[simp] theorem setPart_releaseUs (p : Nat) (f : Part → Part) : (setPart s p f).releaseUs = s.releaseUs := rfl
@[simp] theorem setPart_port0 (p : Nat) (f : Part → Part) : (setPart s p f).port0 = s.port0 := rfl
@[simp] theorem setPart_keySlots (p : Nat) (f : Part → Part) : (setPart s p f).keySlots = s.keySlots := rfl
@[simp] theorem setPart_derivations (p : Nat) (f : Part → Part) : (setPart s p f).derivations = s.derivations := rfl
@[simp] theorem setPart_keyDerived (p : Nat) (f : Part → Part) : (setPart s p f).keyDerived = s.keyDerived := rfl
@[simp] theorem setPart_scrubRun (p : Nat) (f : Part → Part) : (setPart s p f).scrubRun = s.scrubRun := rfl
@[simp] theorem setPart_memU (p : Nat) (f : Part → Part) : (setPart s p f).memU = s.memU := rfl
@[simp] theorem setPart_act (p : Nat) (f : Part → Part) : (setPart s p f).act = s.act := rfl
@[simp] theorem setPart_energy (p : Nat) (f : Part → Part) : (setPart s p f).energy = s.energy := rfl
@[simp] theorem setPart_counted (p : Nat) (f : Part → Part) : (setPart s p f).counted = s.counted := rfl
@[simp] theorem setPart_freeCtr (p : Nat) (f : Part → Part) : (setPart s p f).freeCtr = s.freeCtr := rfl
@[simp] theorem setPart_nextId (p : Nat) (f : Part → Part) : (setPart s p f).nextId = s.nextId := rfl

/-! ### setQueue -/

@[simp] theorem setQueue_pending (q : Nat) (f : Queue → Queue) : (setQueue s q f).pending = s.pending := rfl
@[simp] theorem setQueue_regs (q : Nat) (f : Queue → Queue) : (setQueue s q f).regs = s.regs := rfl
@[simp] theorem setQueue_lowHalf (q : Nat) (f : Queue → Queue) : (setQueue s q f).lowHalf = s.lowHalf := rfl
@[simp] theorem setQueue_queues (q : Nat) (f : Queue → Queue) : (setQueue s q f).queues = modAt s.queues q f := rfl
@[simp] theorem setQueue_parts (q : Nat) (f : Queue → Queue) : (setQueue s q f).parts = s.parts := rfl
@[simp] theorem setQueue_dies (q : Nat) (f : Queue → Queue) : (setQueue s q f).dies = s.dies := rfl
@[simp] theorem setQueue_pins (q : Nat) (f : Queue → Queue) : (setQueue s q f).pins = s.pins := rfl
@[simp] theorem setQueue_boot (q : Nat) (f : Queue → Queue) : (setQueue s q f).boot = s.boot := rfl
@[simp] theorem setQueue_tap (q : Nat) (f : Queue → Queue) : (setQueue s q f).tap = s.tap := rfl
@[simp] theorem setQueue_smbus (q : Nat) (f : Queue → Queue) : (setQueue s q f).smbus = s.smbus := rfl
@[simp] theorem setQueue_hostMem (q : Nat) (f : Queue → Queue) : (setQueue s q f).hostMem = s.hostMem := rfl
@[simp] theorem setQueue_hostFaults (q : Nat) (f : Queue → Queue) : (setQueue s q f).hostFaults = s.hostFaults := rfl
@[simp] theorem setQueue_unretired (q : Nat) (f : Queue → Queue) : (setQueue s q f).unretired = s.unretired := rfl
@[simp] theorem setQueue_irqs (q : Nat) (f : Queue → Queue) : (setQueue s q f).irqs = s.irqs := rfl
@[simp] theorem setQueue_cmds (q : Nat) (f : Queue → Queue) : (setQueue s q f).cmds = s.cmds := rfl
@[simp] theorem setQueue_nextCmd (q : Nat) (f : Queue → Queue) : (setQueue s q f).nextCmd = s.nextCmd := rfl
@[simp] theorem setQueue_sources (q : Nat) (f : Queue → Queue) : (setQueue s q f).sources = s.sources := rfl
@[simp] theorem setQueue_grants (q : Nat) (f : Queue → Queue) : (setQueue s q f).grants = s.grants := rfl
@[simp] theorem setQueue_drives (q : Nat) (f : Queue → Queue) : (setQueue s q f).drives = s.drives := rfl
@[simp] theorem setQueue_recipes (q : Nat) (f : Queue → Queue) : (setQueue s q f).recipes = s.recipes := rfl
@[simp] theorem setQueue_models (q : Nat) (f : Queue → Queue) : (setQueue s q f).models = s.models := rfl
@[simp] theorem setQueue_dicts (q : Nat) (f : Queue → Queue) : (setQueue s q f).dicts = s.dicts := rfl
@[simp] theorem setQueue_tensors (q : Nat) (f : Queue → Queue) : (setQueue s q f).tensors = s.tensors := rfl
@[simp] theorem setQueue_tensorGens (q : Nat) (f : Queue → Queue) : (setQueue s q f).tensorGens = s.tensorGens := rfl
@[simp] theorem setQueue_spills (q : Nat) (f : Queue → Queue) : (setQueue s q f).spills = s.spills := rfl
@[simp] theorem setQueue_spillGens (q : Nat) (f : Queue → Queue) : (setQueue s q f).spillGens = s.spillGens := rfl
@[simp] theorem setQueue_cache (q : Nat) (f : Queue → Queue) : (setQueue s q f).cache = s.cache := rfl
@[simp] theorem setQueue_copies (q : Nat) (f : Queue → Queue) : (setQueue s q f).copies = s.copies := rfl
@[simp] theorem setQueue_transcodes (q : Nat) (f : Queue → Queue) : (setQueue s q f).transcodes = s.transcodes := rfl
@[simp] theorem setQueue_bufs (q : Nat) (f : Queue → Queue) : (setQueue s q f).bufs = s.bufs := rfl
@[simp] theorem setQueue_lowRate (q : Nat) (f : Queue → Queue) : (setQueue s q f).lowRate = s.lowRate := rfl
@[simp] theorem setQueue_sbCorrected (q : Nat) (f : Queue → Queue) : (setQueue s q f).sbCorrected = s.sbCorrected := rfl
@[simp] theorem setQueue_readHalts (q : Nat) (f : Queue → Queue) : (setQueue s q f).readHalts = s.readHalts := rfl
@[simp] theorem setQueue_brought (q : Nat) (f : Queue → Queue) : (setQueue s q f).brought = s.brought := rfl
@[simp] theorem setQueue_carried (q : Nat) (f : Queue → Queue) : (setQueue s q f).carried = s.carried := rfl
@[simp] theorem setQueue_turns (q : Nat) (f : Queue → Queue) : (setQueue s q f).turns = s.turns := rfl
@[simp] theorem setQueue_urReports (q : Nat) (f : Queue → Queue) : (setQueue s q f).urReports = s.urReports := rfl
@[simp] theorem setQueue_lastIssue (q : Nat) (f : Queue → Queue) : (setQueue s q f).lastIssue = s.lastIssue := rfl
@[simp] theorem setQueue_owed (q : Nat) (f : Queue → Queue) : (setQueue s q f).owed = s.owed := rfl
@[simp] theorem setQueue_superblocks (q : Nat) (f : Queue → Queue) : (setQueue s q f).superblocks = s.superblocks := rfl
@[simp] theorem setQueue_allocWaits (q : Nat) (f : Queue → Queue) : (setQueue s q f).allocWaits = s.allocWaits := rfl
@[simp] theorem setQueue_samples (q : Nat) (f : Queue → Queue) : (setQueue s q f).samples = s.samples := rfl
@[simp] theorem setQueue_threads (q : Nat) (f : Queue → Queue) : (setQueue s q f).threads = s.threads := rfl
@[simp] theorem setQueue_landing (q : Nat) (f : Queue → Queue) : (setQueue s q f).landing = s.landing := rfl
@[simp] theorem setQueue_lreds (q : Nat) (f : Queue → Queue) : (setQueue s q f).lreds = s.lreds := rfl
@[simp] theorem setQueue_fetches (q : Nat) (f : Queue → Queue) : (setQueue s q f).fetches = s.fetches := rfl
@[simp] theorem setQueue_transfers (q : Nat) (f : Queue → Queue) : (setQueue s q f).transfers = s.transfers := rfl
@[simp] theorem setQueue_epochs (q : Nat) (f : Queue → Queue) : (setQueue s q f).epochs = s.epochs := rfl
@[simp] theorem setQueue_calRuns (q : Nat) (f : Queue → Queue) : (setQueue s q f).calRuns = s.calRuns := rfl
@[simp] theorem setQueue_invs (q : Nat) (f : Queue → Queue) : (setQueue s q f).invs = s.invs := rfl
@[simp] theorem setQueue_lost (q : Nat) (f : Queue → Queue) : (setQueue s q f).lost = s.lost := rfl
@[simp] theorem setQueue_fuseLost (q : Nat) (f : Queue → Queue) : (setQueue s q f).fuseLost = s.fuseLost := rfl
@[simp] theorem setQueue_mpUp (q : Nat) (f : Queue → Queue) : (setQueue s q f).mpUp = s.mpUp := rfl
@[simp] theorem setQueue_hpUp (q : Nat) (f : Queue → Queue) : (setQueue s q f).hpUp = s.hpUp := rfl
@[simp] theorem setQueue_mpPaused (q : Nat) (f : Queue → Queue) : (setQueue s q f).mpPaused = s.mpPaused := rfl
@[simp] theorem setQueue_revival (q : Nat) (f : Queue → Queue) : (setQueue s q f).revival = s.revival := rfl
@[simp] theorem setQueue_reissued (q : Nat) (f : Queue → Queue) : (setQueue s q f).reissued = s.reissued := rfl
@[simp] theorem setQueue_routeHolds (q : Nat) (f : Queue → Queue) : (setQueue s q f).routeHolds = s.routeHolds := rfl
@[simp] theorem setQueue_escCount (q : Nat) (f : Queue → Queue) : (setQueue s q f).escCount = s.escCount := rfl
@[simp] theorem setQueue_fatal (q : Nat) (f : Queue → Queue) : (setQueue s q f).fatal = s.fatal := rfl
@[simp] theorem setQueue_us (q : Nat) (f : Queue → Queue) : (setQueue s q f).us = s.us := rfl
@[simp] theorem setQueue_releaseUs (q : Nat) (f : Queue → Queue) : (setQueue s q f).releaseUs = s.releaseUs := rfl
@[simp] theorem setQueue_port0 (q : Nat) (f : Queue → Queue) : (setQueue s q f).port0 = s.port0 := rfl
@[simp] theorem setQueue_keySlots (q : Nat) (f : Queue → Queue) : (setQueue s q f).keySlots = s.keySlots := rfl
@[simp] theorem setQueue_derivations (q : Nat) (f : Queue → Queue) : (setQueue s q f).derivations = s.derivations := rfl
@[simp] theorem setQueue_keyDerived (q : Nat) (f : Queue → Queue) : (setQueue s q f).keyDerived = s.keyDerived := rfl
@[simp] theorem setQueue_scrubRun (q : Nat) (f : Queue → Queue) : (setQueue s q f).scrubRun = s.scrubRun := rfl
@[simp] theorem setQueue_memU (q : Nat) (f : Queue → Queue) : (setQueue s q f).memU = s.memU := rfl
@[simp] theorem setQueue_act (q : Nat) (f : Queue → Queue) : (setQueue s q f).act = s.act := rfl
@[simp] theorem setQueue_energy (q : Nat) (f : Queue → Queue) : (setQueue s q f).energy = s.energy := rfl
@[simp] theorem setQueue_counted (q : Nat) (f : Queue → Queue) : (setQueue s q f).counted = s.counted := rfl
@[simp] theorem setQueue_freeCtr (q : Nat) (f : Queue → Queue) : (setQueue s q f).freeCtr = s.freeCtr := rfl
@[simp] theorem setQueue_nextId (q : Nat) (f : Queue → Queue) : (setQueue s q f).nextId = s.nextId := rfl

/-! ### setDie -/

@[simp] theorem setDie_pending (d : Nat) (f : Die → Die) : (setDie s d f).pending = s.pending := rfl
@[simp] theorem setDie_regs (d : Nat) (f : Die → Die) : (setDie s d f).regs = s.regs := rfl
@[simp] theorem setDie_lowHalf (d : Nat) (f : Die → Die) : (setDie s d f).lowHalf = s.lowHalf := rfl
@[simp] theorem setDie_queues (d : Nat) (f : Die → Die) : (setDie s d f).queues = s.queues := rfl
@[simp] theorem setDie_parts (d : Nat) (f : Die → Die) : (setDie s d f).parts = s.parts := rfl
@[simp] theorem setDie_dies (d : Nat) (f : Die → Die) : (setDie s d f).dies = modAt s.dies d f := rfl
@[simp] theorem setDie_pins (d : Nat) (f : Die → Die) : (setDie s d f).pins = s.pins := rfl
@[simp] theorem setDie_boot (d : Nat) (f : Die → Die) : (setDie s d f).boot = s.boot := rfl
@[simp] theorem setDie_tap (d : Nat) (f : Die → Die) : (setDie s d f).tap = s.tap := rfl
@[simp] theorem setDie_smbus (d : Nat) (f : Die → Die) : (setDie s d f).smbus = s.smbus := rfl
@[simp] theorem setDie_hostMem (d : Nat) (f : Die → Die) : (setDie s d f).hostMem = s.hostMem := rfl
@[simp] theorem setDie_hostFaults (d : Nat) (f : Die → Die) : (setDie s d f).hostFaults = s.hostFaults := rfl
@[simp] theorem setDie_unretired (d : Nat) (f : Die → Die) : (setDie s d f).unretired = s.unretired := rfl
@[simp] theorem setDie_irqs (d : Nat) (f : Die → Die) : (setDie s d f).irqs = s.irqs := rfl
@[simp] theorem setDie_cmds (d : Nat) (f : Die → Die) : (setDie s d f).cmds = s.cmds := rfl
@[simp] theorem setDie_nextCmd (d : Nat) (f : Die → Die) : (setDie s d f).nextCmd = s.nextCmd := rfl
@[simp] theorem setDie_sources (d : Nat) (f : Die → Die) : (setDie s d f).sources = s.sources := rfl
@[simp] theorem setDie_grants (d : Nat) (f : Die → Die) : (setDie s d f).grants = s.grants := rfl
@[simp] theorem setDie_drives (d : Nat) (f : Die → Die) : (setDie s d f).drives = s.drives := rfl
@[simp] theorem setDie_recipes (d : Nat) (f : Die → Die) : (setDie s d f).recipes = s.recipes := rfl
@[simp] theorem setDie_models (d : Nat) (f : Die → Die) : (setDie s d f).models = s.models := rfl
@[simp] theorem setDie_dicts (d : Nat) (f : Die → Die) : (setDie s d f).dicts = s.dicts := rfl
@[simp] theorem setDie_tensors (d : Nat) (f : Die → Die) : (setDie s d f).tensors = s.tensors := rfl
@[simp] theorem setDie_tensorGens (d : Nat) (f : Die → Die) : (setDie s d f).tensorGens = s.tensorGens := rfl
@[simp] theorem setDie_spills (d : Nat) (f : Die → Die) : (setDie s d f).spills = s.spills := rfl
@[simp] theorem setDie_spillGens (d : Nat) (f : Die → Die) : (setDie s d f).spillGens = s.spillGens := rfl
@[simp] theorem setDie_cache (d : Nat) (f : Die → Die) : (setDie s d f).cache = s.cache := rfl
@[simp] theorem setDie_copies (d : Nat) (f : Die → Die) : (setDie s d f).copies = s.copies := rfl
@[simp] theorem setDie_transcodes (d : Nat) (f : Die → Die) : (setDie s d f).transcodes = s.transcodes := rfl
@[simp] theorem setDie_bufs (d : Nat) (f : Die → Die) : (setDie s d f).bufs = s.bufs := rfl
@[simp] theorem setDie_lowRate (d : Nat) (f : Die → Die) : (setDie s d f).lowRate = s.lowRate := rfl
@[simp] theorem setDie_sbCorrected (d : Nat) (f : Die → Die) : (setDie s d f).sbCorrected = s.sbCorrected := rfl
@[simp] theorem setDie_readHalts (d : Nat) (f : Die → Die) : (setDie s d f).readHalts = s.readHalts := rfl
@[simp] theorem setDie_brought (d : Nat) (f : Die → Die) : (setDie s d f).brought = s.brought := rfl
@[simp] theorem setDie_carried (d : Nat) (f : Die → Die) : (setDie s d f).carried = s.carried := rfl
@[simp] theorem setDie_turns (d : Nat) (f : Die → Die) : (setDie s d f).turns = s.turns := rfl
@[simp] theorem setDie_urReports (d : Nat) (f : Die → Die) : (setDie s d f).urReports = s.urReports := rfl
@[simp] theorem setDie_lastIssue (d : Nat) (f : Die → Die) : (setDie s d f).lastIssue = s.lastIssue := rfl
@[simp] theorem setDie_owed (d : Nat) (f : Die → Die) : (setDie s d f).owed = s.owed := rfl
@[simp] theorem setDie_superblocks (d : Nat) (f : Die → Die) : (setDie s d f).superblocks = s.superblocks := rfl
@[simp] theorem setDie_allocWaits (d : Nat) (f : Die → Die) : (setDie s d f).allocWaits = s.allocWaits := rfl
@[simp] theorem setDie_samples (d : Nat) (f : Die → Die) : (setDie s d f).samples = s.samples := rfl
@[simp] theorem setDie_threads (d : Nat) (f : Die → Die) : (setDie s d f).threads = s.threads := rfl
@[simp] theorem setDie_landing (d : Nat) (f : Die → Die) : (setDie s d f).landing = s.landing := rfl
@[simp] theorem setDie_lreds (d : Nat) (f : Die → Die) : (setDie s d f).lreds = s.lreds := rfl
@[simp] theorem setDie_fetches (d : Nat) (f : Die → Die) : (setDie s d f).fetches = s.fetches := rfl
@[simp] theorem setDie_transfers (d : Nat) (f : Die → Die) : (setDie s d f).transfers = s.transfers := rfl
@[simp] theorem setDie_epochs (d : Nat) (f : Die → Die) : (setDie s d f).epochs = s.epochs := rfl
@[simp] theorem setDie_calRuns (d : Nat) (f : Die → Die) : (setDie s d f).calRuns = s.calRuns := rfl
@[simp] theorem setDie_invs (d : Nat) (f : Die → Die) : (setDie s d f).invs = s.invs := rfl
@[simp] theorem setDie_lost (d : Nat) (f : Die → Die) : (setDie s d f).lost = s.lost := rfl
@[simp] theorem setDie_fuseLost (d : Nat) (f : Die → Die) : (setDie s d f).fuseLost = s.fuseLost := rfl
@[simp] theorem setDie_mpUp (d : Nat) (f : Die → Die) : (setDie s d f).mpUp = s.mpUp := rfl
@[simp] theorem setDie_hpUp (d : Nat) (f : Die → Die) : (setDie s d f).hpUp = s.hpUp := rfl
@[simp] theorem setDie_mpPaused (d : Nat) (f : Die → Die) : (setDie s d f).mpPaused = s.mpPaused := rfl
@[simp] theorem setDie_revival (d : Nat) (f : Die → Die) : (setDie s d f).revival = s.revival := rfl
@[simp] theorem setDie_reissued (d : Nat) (f : Die → Die) : (setDie s d f).reissued = s.reissued := rfl
@[simp] theorem setDie_routeHolds (d : Nat) (f : Die → Die) : (setDie s d f).routeHolds = s.routeHolds := rfl
@[simp] theorem setDie_escCount (d : Nat) (f : Die → Die) : (setDie s d f).escCount = s.escCount := rfl
@[simp] theorem setDie_fatal (d : Nat) (f : Die → Die) : (setDie s d f).fatal = s.fatal := rfl
@[simp] theorem setDie_us (d : Nat) (f : Die → Die) : (setDie s d f).us = s.us := rfl
@[simp] theorem setDie_releaseUs (d : Nat) (f : Die → Die) : (setDie s d f).releaseUs = s.releaseUs := rfl
@[simp] theorem setDie_port0 (d : Nat) (f : Die → Die) : (setDie s d f).port0 = s.port0 := rfl
@[simp] theorem setDie_keySlots (d : Nat) (f : Die → Die) : (setDie s d f).keySlots = s.keySlots := rfl
@[simp] theorem setDie_derivations (d : Nat) (f : Die → Die) : (setDie s d f).derivations = s.derivations := rfl
@[simp] theorem setDie_keyDerived (d : Nat) (f : Die → Die) : (setDie s d f).keyDerived = s.keyDerived := rfl
@[simp] theorem setDie_scrubRun (d : Nat) (f : Die → Die) : (setDie s d f).scrubRun = s.scrubRun := rfl
@[simp] theorem setDie_memU (d : Nat) (f : Die → Die) : (setDie s d f).memU = s.memU := rfl
@[simp] theorem setDie_act (d : Nat) (f : Die → Die) : (setDie s d f).act = s.act := rfl
@[simp] theorem setDie_energy (d : Nat) (f : Die → Die) : (setDie s d f).energy = s.energy := rfl
@[simp] theorem setDie_counted (d : Nat) (f : Die → Die) : (setDie s d f).counted = s.counted := rfl
@[simp] theorem setDie_freeCtr (d : Nat) (f : Die → Die) : (setDie s d f).freeCtr = s.freeCtr := rfl
@[simp] theorem setDie_nextId (d : Nat) (f : Die → Die) : (setDie s d f).nextId = s.nextId := rfl

/-! ### setBuf -/

@[simp] theorem setBuf_pending (h : Nat) (f : Buf → Buf) : (setBuf s h f).pending = s.pending := rfl
@[simp] theorem setBuf_regs (h : Nat) (f : Buf → Buf) : (setBuf s h f).regs = s.regs := rfl
@[simp] theorem setBuf_lowHalf (h : Nat) (f : Buf → Buf) : (setBuf s h f).lowHalf = s.lowHalf := rfl
@[simp] theorem setBuf_queues (h : Nat) (f : Buf → Buf) : (setBuf s h f).queues = s.queues := rfl
@[simp] theorem setBuf_parts (h : Nat) (f : Buf → Buf) : (setBuf s h f).parts = s.parts := rfl
@[simp] theorem setBuf_dies (h : Nat) (f : Buf → Buf) : (setBuf s h f).dies = s.dies := rfl
@[simp] theorem setBuf_pins (h : Nat) (f : Buf → Buf) : (setBuf s h f).pins = s.pins := rfl
@[simp] theorem setBuf_boot (h : Nat) (f : Buf → Buf) : (setBuf s h f).boot = s.boot := rfl
@[simp] theorem setBuf_tap (h : Nat) (f : Buf → Buf) : (setBuf s h f).tap = s.tap := rfl
@[simp] theorem setBuf_smbus (h : Nat) (f : Buf → Buf) : (setBuf s h f).smbus = s.smbus := rfl
@[simp] theorem setBuf_hostMem (h : Nat) (f : Buf → Buf) : (setBuf s h f).hostMem = s.hostMem := rfl
@[simp] theorem setBuf_hostFaults (h : Nat) (f : Buf → Buf) : (setBuf s h f).hostFaults = s.hostFaults := rfl
@[simp] theorem setBuf_unretired (h : Nat) (f : Buf → Buf) : (setBuf s h f).unretired = s.unretired := rfl
@[simp] theorem setBuf_irqs (h : Nat) (f : Buf → Buf) : (setBuf s h f).irqs = s.irqs := rfl
@[simp] theorem setBuf_cmds (h : Nat) (f : Buf → Buf) : (setBuf s h f).cmds = s.cmds := rfl
@[simp] theorem setBuf_nextCmd (h : Nat) (f : Buf → Buf) : (setBuf s h f).nextCmd = s.nextCmd := rfl
@[simp] theorem setBuf_sources (h : Nat) (f : Buf → Buf) : (setBuf s h f).sources = s.sources := rfl
@[simp] theorem setBuf_grants (h : Nat) (f : Buf → Buf) : (setBuf s h f).grants = s.grants := rfl
@[simp] theorem setBuf_drives (h : Nat) (f : Buf → Buf) : (setBuf s h f).drives = s.drives := rfl
@[simp] theorem setBuf_recipes (h : Nat) (f : Buf → Buf) : (setBuf s h f).recipes = s.recipes := rfl
@[simp] theorem setBuf_models (h : Nat) (f : Buf → Buf) : (setBuf s h f).models = s.models := rfl
@[simp] theorem setBuf_dicts (h : Nat) (f : Buf → Buf) : (setBuf s h f).dicts = s.dicts := rfl
@[simp] theorem setBuf_tensors (h : Nat) (f : Buf → Buf) : (setBuf s h f).tensors = s.tensors := rfl
@[simp] theorem setBuf_tensorGens (h : Nat) (f : Buf → Buf) : (setBuf s h f).tensorGens = s.tensorGens := rfl
@[simp] theorem setBuf_spills (h : Nat) (f : Buf → Buf) : (setBuf s h f).spills = s.spills := rfl
@[simp] theorem setBuf_spillGens (h : Nat) (f : Buf → Buf) : (setBuf s h f).spillGens = s.spillGens := rfl
@[simp] theorem setBuf_cache (h : Nat) (f : Buf → Buf) : (setBuf s h f).cache = s.cache := rfl
@[simp] theorem setBuf_copies (h : Nat) (f : Buf → Buf) : (setBuf s h f).copies = s.copies := rfl
@[simp] theorem setBuf_transcodes (h : Nat) (f : Buf → Buf) : (setBuf s h f).transcodes = s.transcodes := rfl
@[simp] theorem setBuf_bufs (h : Nat) (f : Buf → Buf) :
    (setBuf s h f).bufs = updIf (fun b => b.handle = h) f s.bufs := rfl
@[simp] theorem setBuf_lowRate (h : Nat) (f : Buf → Buf) : (setBuf s h f).lowRate = s.lowRate := rfl
@[simp] theorem setBuf_sbCorrected (h : Nat) (f : Buf → Buf) : (setBuf s h f).sbCorrected = s.sbCorrected := rfl
@[simp] theorem setBuf_readHalts (h : Nat) (f : Buf → Buf) : (setBuf s h f).readHalts = s.readHalts := rfl
@[simp] theorem setBuf_brought (h : Nat) (f : Buf → Buf) : (setBuf s h f).brought = s.brought := rfl
@[simp] theorem setBuf_carried (h : Nat) (f : Buf → Buf) : (setBuf s h f).carried = s.carried := rfl
@[simp] theorem setBuf_turns (h : Nat) (f : Buf → Buf) : (setBuf s h f).turns = s.turns := rfl
@[simp] theorem setBuf_urReports (h : Nat) (f : Buf → Buf) : (setBuf s h f).urReports = s.urReports := rfl
@[simp] theorem setBuf_lastIssue (h : Nat) (f : Buf → Buf) : (setBuf s h f).lastIssue = s.lastIssue := rfl
@[simp] theorem setBuf_owed (h : Nat) (f : Buf → Buf) : (setBuf s h f).owed = s.owed := rfl
@[simp] theorem setBuf_superblocks (h : Nat) (f : Buf → Buf) : (setBuf s h f).superblocks = s.superblocks := rfl
@[simp] theorem setBuf_allocWaits (h : Nat) (f : Buf → Buf) : (setBuf s h f).allocWaits = s.allocWaits := rfl
@[simp] theorem setBuf_samples (h : Nat) (f : Buf → Buf) : (setBuf s h f).samples = s.samples := rfl
@[simp] theorem setBuf_threads (h : Nat) (f : Buf → Buf) : (setBuf s h f).threads = s.threads := rfl
@[simp] theorem setBuf_landing (h : Nat) (f : Buf → Buf) : (setBuf s h f).landing = s.landing := rfl
@[simp] theorem setBuf_lreds (h : Nat) (f : Buf → Buf) : (setBuf s h f).lreds = s.lreds := rfl
@[simp] theorem setBuf_fetches (h : Nat) (f : Buf → Buf) : (setBuf s h f).fetches = s.fetches := rfl
@[simp] theorem setBuf_transfers (h : Nat) (f : Buf → Buf) : (setBuf s h f).transfers = s.transfers := rfl
@[simp] theorem setBuf_epochs (h : Nat) (f : Buf → Buf) : (setBuf s h f).epochs = s.epochs := rfl
@[simp] theorem setBuf_calRuns (h : Nat) (f : Buf → Buf) : (setBuf s h f).calRuns = s.calRuns := rfl
@[simp] theorem setBuf_invs (h : Nat) (f : Buf → Buf) : (setBuf s h f).invs = s.invs := rfl
@[simp] theorem setBuf_lost (h : Nat) (f : Buf → Buf) : (setBuf s h f).lost = s.lost := rfl
@[simp] theorem setBuf_fuseLost (h : Nat) (f : Buf → Buf) : (setBuf s h f).fuseLost = s.fuseLost := rfl
@[simp] theorem setBuf_mpUp (h : Nat) (f : Buf → Buf) : (setBuf s h f).mpUp = s.mpUp := rfl
@[simp] theorem setBuf_hpUp (h : Nat) (f : Buf → Buf) : (setBuf s h f).hpUp = s.hpUp := rfl
@[simp] theorem setBuf_mpPaused (h : Nat) (f : Buf → Buf) : (setBuf s h f).mpPaused = s.mpPaused := rfl
@[simp] theorem setBuf_revival (h : Nat) (f : Buf → Buf) : (setBuf s h f).revival = s.revival := rfl
@[simp] theorem setBuf_reissued (h : Nat) (f : Buf → Buf) : (setBuf s h f).reissued = s.reissued := rfl
@[simp] theorem setBuf_routeHolds (h : Nat) (f : Buf → Buf) : (setBuf s h f).routeHolds = s.routeHolds := rfl
@[simp] theorem setBuf_escCount (h : Nat) (f : Buf → Buf) : (setBuf s h f).escCount = s.escCount := rfl
@[simp] theorem setBuf_fatal (h : Nat) (f : Buf → Buf) : (setBuf s h f).fatal = s.fatal := rfl
@[simp] theorem setBuf_us (h : Nat) (f : Buf → Buf) : (setBuf s h f).us = s.us := rfl
@[simp] theorem setBuf_releaseUs (h : Nat) (f : Buf → Buf) : (setBuf s h f).releaseUs = s.releaseUs := rfl
@[simp] theorem setBuf_port0 (h : Nat) (f : Buf → Buf) : (setBuf s h f).port0 = s.port0 := rfl
@[simp] theorem setBuf_keySlots (h : Nat) (f : Buf → Buf) : (setBuf s h f).keySlots = s.keySlots := rfl
@[simp] theorem setBuf_derivations (h : Nat) (f : Buf → Buf) : (setBuf s h f).derivations = s.derivations := rfl
@[simp] theorem setBuf_keyDerived (h : Nat) (f : Buf → Buf) : (setBuf s h f).keyDerived = s.keyDerived := rfl
@[simp] theorem setBuf_scrubRun (h : Nat) (f : Buf → Buf) : (setBuf s h f).scrubRun = s.scrubRun := rfl
@[simp] theorem setBuf_memU (h : Nat) (f : Buf → Buf) : (setBuf s h f).memU = s.memU := rfl
@[simp] theorem setBuf_act (h : Nat) (f : Buf → Buf) : (setBuf s h f).act = s.act := rfl
@[simp] theorem setBuf_energy (h : Nat) (f : Buf → Buf) : (setBuf s h f).energy = s.energy := rfl
@[simp] theorem setBuf_counted (h : Nat) (f : Buf → Buf) : (setBuf s h f).counted = s.counted := rfl
@[simp] theorem setBuf_freeCtr (h : Nat) (f : Buf → Buf) : (setBuf s h f).freeCtr = s.freeCtr := rfl
@[simp] theorem setBuf_nextId (h : Nat) (f : Buf → Buf) : (setBuf s h f).nextId = s.nextId := rfl

/-! ### setThread -/

@[simp] theorem setThread_pending (th : ThreadRef) (f : Thread → Thread) : (setThread s th f).pending = s.pending := rfl
@[simp] theorem setThread_regs (th : ThreadRef) (f : Thread → Thread) : (setThread s th f).regs = s.regs := rfl
@[simp] theorem setThread_lowHalf (th : ThreadRef) (f : Thread → Thread) : (setThread s th f).lowHalf = s.lowHalf := rfl
@[simp] theorem setThread_queues (th : ThreadRef) (f : Thread → Thread) : (setThread s th f).queues = s.queues := rfl
@[simp] theorem setThread_parts (th : ThreadRef) (f : Thread → Thread) : (setThread s th f).parts = s.parts := rfl
@[simp] theorem setThread_dies (th : ThreadRef) (f : Thread → Thread) : (setThread s th f).dies = s.dies := rfl
@[simp] theorem setThread_pins (th : ThreadRef) (f : Thread → Thread) : (setThread s th f).pins = s.pins := rfl
@[simp] theorem setThread_boot (th : ThreadRef) (f : Thread → Thread) : (setThread s th f).boot = s.boot := rfl
@[simp] theorem setThread_tap (th : ThreadRef) (f : Thread → Thread) : (setThread s th f).tap = s.tap := rfl
@[simp] theorem setThread_smbus (th : ThreadRef) (f : Thread → Thread) : (setThread s th f).smbus = s.smbus := rfl
@[simp] theorem setThread_hostMem (th : ThreadRef) (f : Thread → Thread) : (setThread s th f).hostMem = s.hostMem := rfl
@[simp] theorem setThread_hostFaults (th : ThreadRef) (f : Thread → Thread) :
    (setThread s th f).hostFaults = s.hostFaults := rfl
@[simp] theorem setThread_unretired (th : ThreadRef) (f : Thread → Thread) :
    (setThread s th f).unretired = s.unretired := rfl
@[simp] theorem setThread_irqs (th : ThreadRef) (f : Thread → Thread) : (setThread s th f).irqs = s.irqs := rfl
@[simp] theorem setThread_cmds (th : ThreadRef) (f : Thread → Thread) : (setThread s th f).cmds = s.cmds := rfl
@[simp] theorem setThread_nextCmd (th : ThreadRef) (f : Thread → Thread) : (setThread s th f).nextCmd = s.nextCmd := rfl
@[simp] theorem setThread_sources (th : ThreadRef) (f : Thread → Thread) : (setThread s th f).sources = s.sources := rfl
@[simp] theorem setThread_grants (th : ThreadRef) (f : Thread → Thread) : (setThread s th f).grants = s.grants := rfl
@[simp] theorem setThread_drives (th : ThreadRef) (f : Thread → Thread) : (setThread s th f).drives = s.drives := rfl
@[simp] theorem setThread_recipes (th : ThreadRef) (f : Thread → Thread) : (setThread s th f).recipes = s.recipes := rfl
@[simp] theorem setThread_models (th : ThreadRef) (f : Thread → Thread) : (setThread s th f).models = s.models := rfl
@[simp] theorem setThread_dicts (th : ThreadRef) (f : Thread → Thread) : (setThread s th f).dicts = s.dicts := rfl
@[simp] theorem setThread_tensors (th : ThreadRef) (f : Thread → Thread) : (setThread s th f).tensors = s.tensors := rfl
@[simp] theorem setThread_tensorGens (th : ThreadRef) (f : Thread → Thread) :
    (setThread s th f).tensorGens = s.tensorGens := rfl
@[simp] theorem setThread_spills (th : ThreadRef) (f : Thread → Thread) : (setThread s th f).spills = s.spills := rfl
@[simp] theorem setThread_spillGens (th : ThreadRef) (f : Thread → Thread) :
    (setThread s th f).spillGens = s.spillGens := rfl
@[simp] theorem setThread_cache (th : ThreadRef) (f : Thread → Thread) : (setThread s th f).cache = s.cache := rfl
@[simp] theorem setThread_copies (th : ThreadRef) (f : Thread → Thread) : (setThread s th f).copies = s.copies := rfl
@[simp] theorem setThread_transcodes (th : ThreadRef) (f : Thread → Thread) :
    (setThread s th f).transcodes = s.transcodes := rfl
@[simp] theorem setThread_bufs (th : ThreadRef) (f : Thread → Thread) : (setThread s th f).bufs = s.bufs := rfl
@[simp] theorem setThread_lowRate (th : ThreadRef) (f : Thread → Thread) :
    (setThread s th f).lowRate = s.lowRate := rfl
@[simp] theorem setThread_sbCorrected (th : ThreadRef) (f : Thread → Thread) :
    (setThread s th f).sbCorrected = s.sbCorrected := rfl
@[simp] theorem setThread_readHalts (th : ThreadRef) (f : Thread → Thread) :
    (setThread s th f).readHalts = s.readHalts := rfl
@[simp] theorem setThread_brought (th : ThreadRef) (f : Thread → Thread) :
    (setThread s th f).brought = s.brought := rfl
@[simp] theorem setThread_carried (th : ThreadRef) (f : Thread → Thread) :
    (setThread s th f).carried = s.carried := rfl
@[simp] theorem setThread_turns (th : ThreadRef) (f : Thread → Thread) :
    (setThread s th f).turns = s.turns := rfl
@[simp] theorem setThread_urReports (th : ThreadRef) (f : Thread → Thread) :
    (setThread s th f).urReports = s.urReports := rfl
@[simp] theorem setThread_lastIssue (th : ThreadRef) (f : Thread → Thread) :
    (setThread s th f).lastIssue = s.lastIssue := rfl
@[simp] theorem setThread_owed (th : ThreadRef) (f : Thread → Thread) :
    (setThread s th f).owed = s.owed := rfl
@[simp] theorem setThread_superblocks (th : ThreadRef) (f : Thread → Thread) :
    (setThread s th f).superblocks = s.superblocks := rfl
@[simp] theorem setThread_allocWaits (th : ThreadRef) (f : Thread → Thread) :
    (setThread s th f).allocWaits = s.allocWaits := rfl
@[simp] theorem setThread_samples (th : ThreadRef) (f : Thread → Thread) : (setThread s th f).samples = s.samples := rfl
@[simp] theorem setThread_threads (th : ThreadRef) (f : Thread → Thread) :
    (setThread s th f).threads = updIf (fun t => t.th = th) f s.threads := rfl
@[simp] theorem setThread_landing (th : ThreadRef) (f : Thread → Thread) : (setThread s th f).landing = s.landing := rfl
@[simp] theorem setThread_lreds (th : ThreadRef) (f : Thread → Thread) : (setThread s th f).lreds = s.lreds := rfl
@[simp] theorem setThread_fetches (th : ThreadRef) (f : Thread → Thread) : (setThread s th f).fetches = s.fetches := rfl
@[simp] theorem setThread_transfers (th : ThreadRef) (f : Thread → Thread) :
    (setThread s th f).transfers = s.transfers := rfl
@[simp] theorem setThread_epochs (th : ThreadRef) (f : Thread → Thread) : (setThread s th f).epochs = s.epochs := rfl
@[simp] theorem setThread_calRuns (th : ThreadRef) (f : Thread → Thread) : (setThread s th f).calRuns = s.calRuns := rfl
@[simp] theorem setThread_invs (th : ThreadRef) (f : Thread → Thread) : (setThread s th f).invs = s.invs := rfl
@[simp] theorem setThread_lost (th : ThreadRef) (f : Thread → Thread) : (setThread s th f).lost = s.lost := rfl
@[simp] theorem setThread_fuseLost (th : ThreadRef) (f : Thread → Thread) :
    (setThread s th f).fuseLost = s.fuseLost := rfl
@[simp] theorem setThread_mpUp (th : ThreadRef) (f : Thread → Thread) : (setThread s th f).mpUp = s.mpUp := rfl
@[simp] theorem setThread_hpUp (th : ThreadRef) (f : Thread → Thread) : (setThread s th f).hpUp = s.hpUp := rfl
@[simp] theorem setThread_mpPaused (th : ThreadRef) (f : Thread → Thread) :
    (setThread s th f).mpPaused = s.mpPaused := rfl
@[simp] theorem setThread_revival (th : ThreadRef) (f : Thread → Thread) : (setThread s th f).revival = s.revival := rfl
@[simp] theorem setThread_reissued (th : ThreadRef) (f : Thread → Thread) :
    (setThread s th f).reissued = s.reissued := rfl
@[simp] theorem setThread_routeHolds (th : ThreadRef) (f : Thread → Thread) :
    (setThread s th f).routeHolds = s.routeHolds := rfl
@[simp] theorem setThread_escCount (th : ThreadRef) (f : Thread → Thread) :
    (setThread s th f).escCount = s.escCount := rfl
@[simp] theorem setThread_fatal (th : ThreadRef) (f : Thread → Thread) : (setThread s th f).fatal = s.fatal := rfl
@[simp] theorem setThread_us (th : ThreadRef) (f : Thread → Thread) : (setThread s th f).us = s.us := rfl
@[simp] theorem setThread_releaseUs (th : ThreadRef) (f : Thread → Thread) :
    (setThread s th f).releaseUs = s.releaseUs := rfl
@[simp] theorem setThread_port0 (th : ThreadRef) (f : Thread → Thread) : (setThread s th f).port0 = s.port0 := rfl
@[simp] theorem setThread_keySlots (th : ThreadRef) (f : Thread → Thread) :
    (setThread s th f).keySlots = s.keySlots := rfl
@[simp] theorem setThread_derivations (th : ThreadRef) (f : Thread → Thread) :
    (setThread s th f).derivations = s.derivations := rfl
@[simp] theorem setThread_keyDerived (th : ThreadRef) (f : Thread → Thread) :
    (setThread s th f).keyDerived = s.keyDerived := rfl
@[simp] theorem setThread_scrubRun (th : ThreadRef) (f : Thread → Thread) :
    (setThread s th f).scrubRun = s.scrubRun := rfl
@[simp] theorem setThread_memU (th : ThreadRef) (f : Thread → Thread) : (setThread s th f).memU = s.memU := rfl
@[simp] theorem setThread_act (th : ThreadRef) (f : Thread → Thread) : (setThread s th f).act = s.act := rfl
@[simp] theorem setThread_energy (th : ThreadRef) (f : Thread → Thread) : (setThread s th f).energy = s.energy := rfl
@[simp] theorem setThread_counted (th : ThreadRef) (f : Thread → Thread) : (setThread s th f).counted = s.counted := rfl
@[simp] theorem setThread_freeCtr (th : ThreadRef) (f : Thread → Thread) : (setThread s th f).freeCtr = s.freeCtr := rfl
@[simp] theorem setThread_nextId (th : ThreadRef) (f : Thread → Thread) : (setThread s th f).nextId = s.nextId := rfl

/-! ### setSample -/

@[simp] theorem setSample_pending (h : Nat) (f : Sample → Sample) : (setSample s h f).pending = s.pending := rfl
@[simp] theorem setSample_regs (h : Nat) (f : Sample → Sample) : (setSample s h f).regs = s.regs := rfl
@[simp] theorem setSample_lowHalf (h : Nat) (f : Sample → Sample) : (setSample s h f).lowHalf = s.lowHalf := rfl
@[simp] theorem setSample_queues (h : Nat) (f : Sample → Sample) : (setSample s h f).queues = s.queues := rfl
@[simp] theorem setSample_parts (h : Nat) (f : Sample → Sample) : (setSample s h f).parts = s.parts := rfl
@[simp] theorem setSample_dies (h : Nat) (f : Sample → Sample) : (setSample s h f).dies = s.dies := rfl
@[simp] theorem setSample_pins (h : Nat) (f : Sample → Sample) : (setSample s h f).pins = s.pins := rfl
@[simp] theorem setSample_boot (h : Nat) (f : Sample → Sample) : (setSample s h f).boot = s.boot := rfl
@[simp] theorem setSample_tap (h : Nat) (f : Sample → Sample) : (setSample s h f).tap = s.tap := rfl
@[simp] theorem setSample_smbus (h : Nat) (f : Sample → Sample) : (setSample s h f).smbus = s.smbus := rfl
@[simp] theorem setSample_hostMem (h : Nat) (f : Sample → Sample) : (setSample s h f).hostMem = s.hostMem := rfl
@[simp] theorem setSample_hostFaults (h : Nat) (f : Sample → Sample) :
    (setSample s h f).hostFaults = s.hostFaults := rfl
@[simp] theorem setSample_unretired (h : Nat) (f : Sample → Sample) : (setSample s h f).unretired = s.unretired := rfl
@[simp] theorem setSample_irqs (h : Nat) (f : Sample → Sample) : (setSample s h f).irqs = s.irqs := rfl
@[simp] theorem setSample_cmds (h : Nat) (f : Sample → Sample) : (setSample s h f).cmds = s.cmds := rfl
@[simp] theorem setSample_nextCmd (h : Nat) (f : Sample → Sample) : (setSample s h f).nextCmd = s.nextCmd := rfl
@[simp] theorem setSample_sources (h : Nat) (f : Sample → Sample) : (setSample s h f).sources = s.sources := rfl
@[simp] theorem setSample_grants (h : Nat) (f : Sample → Sample) : (setSample s h f).grants = s.grants := rfl
@[simp] theorem setSample_drives (h : Nat) (f : Sample → Sample) : (setSample s h f).drives = s.drives := rfl
@[simp] theorem setSample_recipes (h : Nat) (f : Sample → Sample) : (setSample s h f).recipes = s.recipes := rfl
@[simp] theorem setSample_models (h : Nat) (f : Sample → Sample) : (setSample s h f).models = s.models := rfl
@[simp] theorem setSample_dicts (h : Nat) (f : Sample → Sample) : (setSample s h f).dicts = s.dicts := rfl
@[simp] theorem setSample_tensors (h : Nat) (f : Sample → Sample) : (setSample s h f).tensors = s.tensors := rfl
@[simp] theorem setSample_tensorGens (h : Nat) (f : Sample → Sample) :
    (setSample s h f).tensorGens = s.tensorGens := rfl
@[simp] theorem setSample_spills (h : Nat) (f : Sample → Sample) : (setSample s h f).spills = s.spills := rfl
@[simp] theorem setSample_spillGens (h : Nat) (f : Sample → Sample) : (setSample s h f).spillGens = s.spillGens := rfl
@[simp] theorem setSample_cache (h : Nat) (f : Sample → Sample) : (setSample s h f).cache = s.cache := rfl
@[simp] theorem setSample_copies (h : Nat) (f : Sample → Sample) : (setSample s h f).copies = s.copies := rfl
@[simp] theorem setSample_transcodes (h : Nat) (f : Sample → Sample) :
    (setSample s h f).transcodes = s.transcodes := rfl
@[simp] theorem setSample_bufs (h : Nat) (f : Sample → Sample) : (setSample s h f).bufs = s.bufs := rfl
@[simp] theorem setSample_lowRate (h : Nat) (f : Sample → Sample) :
    (setSample s h f).lowRate = s.lowRate := rfl
@[simp] theorem setSample_sbCorrected (h : Nat) (f : Sample → Sample) :
    (setSample s h f).sbCorrected = s.sbCorrected := rfl
@[simp] theorem setSample_readHalts (h : Nat) (f : Sample → Sample) :
    (setSample s h f).readHalts = s.readHalts := rfl
@[simp] theorem setSample_brought (h : Nat) (f : Sample → Sample) :
    (setSample s h f).brought = s.brought := rfl
@[simp] theorem setSample_carried (h : Nat) (f : Sample → Sample) :
    (setSample s h f).carried = s.carried := rfl
@[simp] theorem setSample_turns (h : Nat) (f : Sample → Sample) :
    (setSample s h f).turns = s.turns := rfl
@[simp] theorem setSample_urReports (h : Nat) (f : Sample → Sample) :
    (setSample s h f).urReports = s.urReports := rfl
@[simp] theorem setSample_lastIssue (h : Nat) (f : Sample → Sample) :
    (setSample s h f).lastIssue = s.lastIssue := rfl
@[simp] theorem setSample_owed (h : Nat) (f : Sample → Sample) :
    (setSample s h f).owed = s.owed := rfl
@[simp] theorem setSample_superblocks (h : Nat) (f : Sample → Sample) :
    (setSample s h f).superblocks = s.superblocks := rfl
@[simp] theorem setSample_allocWaits (h : Nat) (f : Sample → Sample) :
    (setSample s h f).allocWaits = s.allocWaits := rfl
@[simp] theorem setSample_samples (h : Nat) (f : Sample → Sample) :
    (setSample s h f).samples = updIf (fun x => x.h = h) f s.samples := rfl
@[simp] theorem setSample_threads (h : Nat) (f : Sample → Sample) : (setSample s h f).threads = s.threads := rfl
@[simp] theorem setSample_landing (h : Nat) (f : Sample → Sample) : (setSample s h f).landing = s.landing := rfl
@[simp] theorem setSample_lreds (h : Nat) (f : Sample → Sample) : (setSample s h f).lreds = s.lreds := rfl
@[simp] theorem setSample_fetches (h : Nat) (f : Sample → Sample) : (setSample s h f).fetches = s.fetches := rfl
@[simp] theorem setSample_transfers (h : Nat) (f : Sample → Sample) : (setSample s h f).transfers = s.transfers := rfl
@[simp] theorem setSample_epochs (h : Nat) (f : Sample → Sample) : (setSample s h f).epochs = s.epochs := rfl
@[simp] theorem setSample_calRuns (h : Nat) (f : Sample → Sample) : (setSample s h f).calRuns = s.calRuns := rfl
@[simp] theorem setSample_invs (h : Nat) (f : Sample → Sample) : (setSample s h f).invs = s.invs := rfl
@[simp] theorem setSample_lost (h : Nat) (f : Sample → Sample) : (setSample s h f).lost = s.lost := rfl
@[simp] theorem setSample_fuseLost (h : Nat) (f : Sample → Sample) : (setSample s h f).fuseLost = s.fuseLost := rfl
@[simp] theorem setSample_mpUp (h : Nat) (f : Sample → Sample) : (setSample s h f).mpUp = s.mpUp := rfl
@[simp] theorem setSample_hpUp (h : Nat) (f : Sample → Sample) : (setSample s h f).hpUp = s.hpUp := rfl
@[simp] theorem setSample_mpPaused (h : Nat) (f : Sample → Sample) : (setSample s h f).mpPaused = s.mpPaused := rfl
@[simp] theorem setSample_revival (h : Nat) (f : Sample → Sample) : (setSample s h f).revival = s.revival := rfl
@[simp] theorem setSample_reissued (h : Nat) (f : Sample → Sample) : (setSample s h f).reissued = s.reissued := rfl
@[simp] theorem setSample_routeHolds (h : Nat) (f : Sample → Sample) :
    (setSample s h f).routeHolds = s.routeHolds := rfl
@[simp] theorem setSample_escCount (h : Nat) (f : Sample → Sample) : (setSample s h f).escCount = s.escCount := rfl
@[simp] theorem setSample_fatal (h : Nat) (f : Sample → Sample) : (setSample s h f).fatal = s.fatal := rfl
@[simp] theorem setSample_us (h : Nat) (f : Sample → Sample) : (setSample s h f).us = s.us := rfl
@[simp] theorem setSample_releaseUs (h : Nat) (f : Sample → Sample) : (setSample s h f).releaseUs = s.releaseUs := rfl
@[simp] theorem setSample_port0 (h : Nat) (f : Sample → Sample) : (setSample s h f).port0 = s.port0 := rfl
@[simp] theorem setSample_keySlots (h : Nat) (f : Sample → Sample) : (setSample s h f).keySlots = s.keySlots := rfl
@[simp] theorem setSample_derivations (h : Nat) (f : Sample → Sample) :
    (setSample s h f).derivations = s.derivations := rfl
@[simp] theorem setSample_keyDerived (h : Nat) (f : Sample → Sample) :
    (setSample s h f).keyDerived = s.keyDerived := rfl
@[simp] theorem setSample_scrubRun (h : Nat) (f : Sample → Sample) : (setSample s h f).scrubRun = s.scrubRun := rfl
@[simp] theorem setSample_memU (h : Nat) (f : Sample → Sample) : (setSample s h f).memU = s.memU := rfl
@[simp] theorem setSample_act (h : Nat) (f : Sample → Sample) : (setSample s h f).act = s.act := rfl
@[simp] theorem setSample_energy (h : Nat) (f : Sample → Sample) : (setSample s h f).energy = s.energy := rfl
@[simp] theorem setSample_counted (h : Nat) (f : Sample → Sample) : (setSample s h f).counted = s.counted := rfl
@[simp] theorem setSample_freeCtr (h : Nat) (f : Sample → Sample) : (setSample s h f).freeCtr = s.freeCtr := rfl
@[simp] theorem setSample_nextId (h : Nat) (f : Sample → Sample) : (setSample s h f).nextId = s.nextId := rfl

/-! ### setEpoch -/

@[simp] theorem setEpoch_pending (q : Nat) (f : Epoch → Epoch) : (setEpoch s q f).pending = s.pending := rfl
@[simp] theorem setEpoch_regs (q : Nat) (f : Epoch → Epoch) : (setEpoch s q f).regs = s.regs := rfl
@[simp] theorem setEpoch_lowHalf (q : Nat) (f : Epoch → Epoch) : (setEpoch s q f).lowHalf = s.lowHalf := rfl
@[simp] theorem setEpoch_queues (q : Nat) (f : Epoch → Epoch) : (setEpoch s q f).queues = s.queues := rfl
@[simp] theorem setEpoch_parts (q : Nat) (f : Epoch → Epoch) : (setEpoch s q f).parts = s.parts := rfl
@[simp] theorem setEpoch_dies (q : Nat) (f : Epoch → Epoch) : (setEpoch s q f).dies = s.dies := rfl
@[simp] theorem setEpoch_pins (q : Nat) (f : Epoch → Epoch) : (setEpoch s q f).pins = s.pins := rfl
@[simp] theorem setEpoch_boot (q : Nat) (f : Epoch → Epoch) : (setEpoch s q f).boot = s.boot := rfl
@[simp] theorem setEpoch_tap (q : Nat) (f : Epoch → Epoch) : (setEpoch s q f).tap = s.tap := rfl
@[simp] theorem setEpoch_smbus (q : Nat) (f : Epoch → Epoch) : (setEpoch s q f).smbus = s.smbus := rfl
@[simp] theorem setEpoch_hostMem (q : Nat) (f : Epoch → Epoch) : (setEpoch s q f).hostMem = s.hostMem := rfl
@[simp] theorem setEpoch_hostFaults (q : Nat) (f : Epoch → Epoch) : (setEpoch s q f).hostFaults = s.hostFaults := rfl
@[simp] theorem setEpoch_unretired (q : Nat) (f : Epoch → Epoch) : (setEpoch s q f).unretired = s.unretired := rfl
@[simp] theorem setEpoch_irqs (q : Nat) (f : Epoch → Epoch) : (setEpoch s q f).irqs = s.irqs := rfl
@[simp] theorem setEpoch_cmds (q : Nat) (f : Epoch → Epoch) : (setEpoch s q f).cmds = s.cmds := rfl
@[simp] theorem setEpoch_nextCmd (q : Nat) (f : Epoch → Epoch) : (setEpoch s q f).nextCmd = s.nextCmd := rfl
@[simp] theorem setEpoch_sources (q : Nat) (f : Epoch → Epoch) : (setEpoch s q f).sources = s.sources := rfl
@[simp] theorem setEpoch_grants (q : Nat) (f : Epoch → Epoch) : (setEpoch s q f).grants = s.grants := rfl
@[simp] theorem setEpoch_drives (q : Nat) (f : Epoch → Epoch) : (setEpoch s q f).drives = s.drives := rfl
@[simp] theorem setEpoch_recipes (q : Nat) (f : Epoch → Epoch) : (setEpoch s q f).recipes = s.recipes := rfl
@[simp] theorem setEpoch_models (q : Nat) (f : Epoch → Epoch) : (setEpoch s q f).models = s.models := rfl
@[simp] theorem setEpoch_dicts (q : Nat) (f : Epoch → Epoch) : (setEpoch s q f).dicts = s.dicts := rfl
@[simp] theorem setEpoch_tensors (q : Nat) (f : Epoch → Epoch) : (setEpoch s q f).tensors = s.tensors := rfl
@[simp] theorem setEpoch_tensorGens (q : Nat) (f : Epoch → Epoch) : (setEpoch s q f).tensorGens = s.tensorGens := rfl
@[simp] theorem setEpoch_spills (q : Nat) (f : Epoch → Epoch) : (setEpoch s q f).spills = s.spills := rfl
@[simp] theorem setEpoch_spillGens (q : Nat) (f : Epoch → Epoch) : (setEpoch s q f).spillGens = s.spillGens := rfl
@[simp] theorem setEpoch_cache (q : Nat) (f : Epoch → Epoch) : (setEpoch s q f).cache = s.cache := rfl
@[simp] theorem setEpoch_copies (q : Nat) (f : Epoch → Epoch) : (setEpoch s q f).copies = s.copies := rfl
@[simp] theorem setEpoch_transcodes (q : Nat) (f : Epoch → Epoch) : (setEpoch s q f).transcodes = s.transcodes := rfl
@[simp] theorem setEpoch_bufs (q : Nat) (f : Epoch → Epoch) : (setEpoch s q f).bufs = s.bufs := rfl
@[simp] theorem setEpoch_lowRate (q : Nat) (f : Epoch → Epoch) : (setEpoch s q f).lowRate = s.lowRate := rfl
@[simp] theorem setEpoch_sbCorrected (q : Nat) (f : Epoch → Epoch) : (setEpoch s q f).sbCorrected = s.sbCorrected := rfl
@[simp] theorem setEpoch_readHalts (q : Nat) (f : Epoch → Epoch) : (setEpoch s q f).readHalts = s.readHalts := rfl
@[simp] theorem setEpoch_brought (q : Nat) (f : Epoch → Epoch) : (setEpoch s q f).brought = s.brought := rfl
@[simp] theorem setEpoch_carried (q : Nat) (f : Epoch → Epoch) : (setEpoch s q f).carried = s.carried := rfl
@[simp] theorem setEpoch_turns (q : Nat) (f : Epoch → Epoch) : (setEpoch s q f).turns = s.turns := rfl
@[simp] theorem setEpoch_urReports (q : Nat) (f : Epoch → Epoch) : (setEpoch s q f).urReports = s.urReports := rfl
@[simp] theorem setEpoch_lastIssue (q : Nat) (f : Epoch → Epoch) : (setEpoch s q f).lastIssue = s.lastIssue := rfl
@[simp] theorem setEpoch_owed (q : Nat) (f : Epoch → Epoch) : (setEpoch s q f).owed = s.owed := rfl
@[simp] theorem setEpoch_superblocks (q : Nat) (f : Epoch → Epoch) : (setEpoch s q f).superblocks = s.superblocks := rfl
@[simp] theorem setEpoch_allocWaits (q : Nat) (f : Epoch → Epoch) : (setEpoch s q f).allocWaits = s.allocWaits := rfl
@[simp] theorem setEpoch_samples (q : Nat) (f : Epoch → Epoch) : (setEpoch s q f).samples = s.samples := rfl
@[simp] theorem setEpoch_threads (q : Nat) (f : Epoch → Epoch) : (setEpoch s q f).threads = s.threads := rfl
@[simp] theorem setEpoch_landing (q : Nat) (f : Epoch → Epoch) : (setEpoch s q f).landing = s.landing := rfl
@[simp] theorem setEpoch_lreds (q : Nat) (f : Epoch → Epoch) : (setEpoch s q f).lreds = s.lreds := rfl
@[simp] theorem setEpoch_fetches (q : Nat) (f : Epoch → Epoch) : (setEpoch s q f).fetches = s.fetches := rfl
@[simp] theorem setEpoch_transfers (q : Nat) (f : Epoch → Epoch) : (setEpoch s q f).transfers = s.transfers := rfl
@[simp] theorem setEpoch_epochs (q : Nat) (f : Epoch → Epoch) :
    (setEpoch s q f).epochs = updIf (fun e => e.q = q) f s.epochs := rfl
@[simp] theorem setEpoch_calRuns (q : Nat) (f : Epoch → Epoch) : (setEpoch s q f).calRuns = s.calRuns := rfl
@[simp] theorem setEpoch_invs (q : Nat) (f : Epoch → Epoch) : (setEpoch s q f).invs = s.invs := rfl
@[simp] theorem setEpoch_lost (q : Nat) (f : Epoch → Epoch) : (setEpoch s q f).lost = s.lost := rfl
@[simp] theorem setEpoch_fuseLost (q : Nat) (f : Epoch → Epoch) : (setEpoch s q f).fuseLost = s.fuseLost := rfl
@[simp] theorem setEpoch_mpUp (q : Nat) (f : Epoch → Epoch) : (setEpoch s q f).mpUp = s.mpUp := rfl
@[simp] theorem setEpoch_hpUp (q : Nat) (f : Epoch → Epoch) : (setEpoch s q f).hpUp = s.hpUp := rfl
@[simp] theorem setEpoch_mpPaused (q : Nat) (f : Epoch → Epoch) : (setEpoch s q f).mpPaused = s.mpPaused := rfl
@[simp] theorem setEpoch_revival (q : Nat) (f : Epoch → Epoch) : (setEpoch s q f).revival = s.revival := rfl
@[simp] theorem setEpoch_reissued (q : Nat) (f : Epoch → Epoch) : (setEpoch s q f).reissued = s.reissued := rfl
@[simp] theorem setEpoch_routeHolds (q : Nat) (f : Epoch → Epoch) : (setEpoch s q f).routeHolds = s.routeHolds := rfl
@[simp] theorem setEpoch_escCount (q : Nat) (f : Epoch → Epoch) : (setEpoch s q f).escCount = s.escCount := rfl
@[simp] theorem setEpoch_fatal (q : Nat) (f : Epoch → Epoch) : (setEpoch s q f).fatal = s.fatal := rfl
@[simp] theorem setEpoch_us (q : Nat) (f : Epoch → Epoch) : (setEpoch s q f).us = s.us := rfl
@[simp] theorem setEpoch_releaseUs (q : Nat) (f : Epoch → Epoch) : (setEpoch s q f).releaseUs = s.releaseUs := rfl
@[simp] theorem setEpoch_port0 (q : Nat) (f : Epoch → Epoch) : (setEpoch s q f).port0 = s.port0 := rfl
@[simp] theorem setEpoch_keySlots (q : Nat) (f : Epoch → Epoch) : (setEpoch s q f).keySlots = s.keySlots := rfl
@[simp] theorem setEpoch_derivations (q : Nat) (f : Epoch → Epoch) : (setEpoch s q f).derivations = s.derivations := rfl
@[simp] theorem setEpoch_keyDerived (q : Nat) (f : Epoch → Epoch) : (setEpoch s q f).keyDerived = s.keyDerived := rfl
@[simp] theorem setEpoch_scrubRun (q : Nat) (f : Epoch → Epoch) : (setEpoch s q f).scrubRun = s.scrubRun := rfl
@[simp] theorem setEpoch_memU (q : Nat) (f : Epoch → Epoch) : (setEpoch s q f).memU = s.memU := rfl
@[simp] theorem setEpoch_act (q : Nat) (f : Epoch → Epoch) : (setEpoch s q f).act = s.act := rfl
@[simp] theorem setEpoch_energy (q : Nat) (f : Epoch → Epoch) : (setEpoch s q f).energy = s.energy := rfl
@[simp] theorem setEpoch_counted (q : Nat) (f : Epoch → Epoch) : (setEpoch s q f).counted = s.counted := rfl
@[simp] theorem setEpoch_freeCtr (q : Nat) (f : Epoch → Epoch) : (setEpoch s q f).freeCtr = s.freeCtr := rfl
@[simp] theorem setEpoch_nextId (q : Nat) (f : Epoch → Epoch) : (setEpoch s q f).nextId = s.nextId := rfl

/-! ### poke -/

@[simp] theorem poke_pending (k : Nat) (l : List Byte) : (poke s k l).pending = s.pending := rfl
@[simp] theorem poke_regs (k : Nat) (l : List Byte) : (poke s k l).regs = s.regs := rfl
@[simp] theorem poke_lowHalf (k : Nat) (l : List Byte) : (poke s k l).lowHalf = s.lowHalf := rfl
@[simp] theorem poke_queues (k : Nat) (l : List Byte) : (poke s k l).queues = s.queues := rfl
@[simp] theorem poke_parts (k : Nat) (l : List Byte) : (poke s k l).parts = s.parts := rfl
@[simp] theorem poke_dies (k : Nat) (l : List Byte) : (poke s k l).dies = s.dies := rfl
@[simp] theorem poke_pins (k : Nat) (l : List Byte) : (poke s k l).pins = s.pins := rfl
@[simp] theorem poke_boot (k : Nat) (l : List Byte) : (poke s k l).boot = s.boot := rfl
@[simp] theorem poke_tap (k : Nat) (l : List Byte) : (poke s k l).tap = s.tap := rfl
@[simp] theorem poke_smbus (k : Nat) (l : List Byte) : (poke s k l).smbus = s.smbus := rfl
@[simp] theorem poke_hostMem (k : Nat) (l : List Byte) : (poke s k l).hostMem = putAll zero k l s.hostMem := rfl
@[simp] theorem poke_hostFaults (k : Nat) (l : List Byte) : (poke s k l).hostFaults = s.hostFaults := rfl
@[simp] theorem poke_unretired (k : Nat) (l : List Byte) : (poke s k l).unretired = s.unretired := rfl
@[simp] theorem poke_irqs (k : Nat) (l : List Byte) : (poke s k l).irqs = s.irqs := rfl
@[simp] theorem poke_cmds (k : Nat) (l : List Byte) : (poke s k l).cmds = s.cmds := rfl
@[simp] theorem poke_nextCmd (k : Nat) (l : List Byte) : (poke s k l).nextCmd = s.nextCmd := rfl
@[simp] theorem poke_sources (k : Nat) (l : List Byte) : (poke s k l).sources = s.sources := rfl
@[simp] theorem poke_grants (k : Nat) (l : List Byte) : (poke s k l).grants = s.grants := rfl
@[simp] theorem poke_drives (k : Nat) (l : List Byte) : (poke s k l).drives = s.drives := rfl
@[simp] theorem poke_recipes (k : Nat) (l : List Byte) : (poke s k l).recipes = s.recipes := rfl
@[simp] theorem poke_models (k : Nat) (l : List Byte) : (poke s k l).models = s.models := rfl
@[simp] theorem poke_dicts (k : Nat) (l : List Byte) : (poke s k l).dicts = s.dicts := rfl
@[simp] theorem poke_tensors (k : Nat) (l : List Byte) : (poke s k l).tensors = s.tensors := rfl
@[simp] theorem poke_tensorGens (k : Nat) (l : List Byte) : (poke s k l).tensorGens = s.tensorGens := rfl
@[simp] theorem poke_spills (k : Nat) (l : List Byte) : (poke s k l).spills = s.spills := rfl
@[simp] theorem poke_spillGens (k : Nat) (l : List Byte) : (poke s k l).spillGens = s.spillGens := rfl
@[simp] theorem poke_cache (k : Nat) (l : List Byte) : (poke s k l).cache = s.cache := rfl
@[simp] theorem poke_copies (k : Nat) (l : List Byte) : (poke s k l).copies = s.copies := rfl
@[simp] theorem poke_transcodes (k : Nat) (l : List Byte) : (poke s k l).transcodes = s.transcodes := rfl
@[simp] theorem poke_bufs (k : Nat) (l : List Byte) : (poke s k l).bufs = s.bufs := rfl
@[simp] theorem poke_lowRate (k : Nat) (l : List Byte) : (poke s k l).lowRate = s.lowRate := rfl
@[simp] theorem poke_sbCorrected (k : Nat) (l : List Byte) : (poke s k l).sbCorrected = s.sbCorrected := rfl
@[simp] theorem poke_readHalts (k : Nat) (l : List Byte) : (poke s k l).readHalts = s.readHalts := rfl
@[simp] theorem poke_brought (k : Nat) (l : List Byte) : (poke s k l).brought = s.brought := rfl
@[simp] theorem poke_carried (k : Nat) (l : List Byte) : (poke s k l).carried = s.carried := rfl
@[simp] theorem poke_turns (k : Nat) (l : List Byte) : (poke s k l).turns = s.turns := rfl
@[simp] theorem poke_urReports (k : Nat) (l : List Byte) : (poke s k l).urReports = s.urReports := rfl
@[simp] theorem poke_lastIssue (k : Nat) (l : List Byte) : (poke s k l).lastIssue = s.lastIssue := rfl
@[simp] theorem poke_owed (k : Nat) (l : List Byte) : (poke s k l).owed = s.owed := rfl
@[simp] theorem poke_superblocks (k : Nat) (l : List Byte) : (poke s k l).superblocks = s.superblocks := rfl
@[simp] theorem poke_allocWaits (k : Nat) (l : List Byte) : (poke s k l).allocWaits = s.allocWaits := rfl
@[simp] theorem poke_samples (k : Nat) (l : List Byte) : (poke s k l).samples = s.samples := rfl
@[simp] theorem poke_threads (k : Nat) (l : List Byte) : (poke s k l).threads = s.threads := rfl
@[simp] theorem poke_landing (k : Nat) (l : List Byte) : (poke s k l).landing = s.landing := rfl
@[simp] theorem poke_lreds (k : Nat) (l : List Byte) : (poke s k l).lreds = s.lreds := rfl
@[simp] theorem poke_fetches (k : Nat) (l : List Byte) : (poke s k l).fetches = s.fetches := rfl
@[simp] theorem poke_transfers (k : Nat) (l : List Byte) : (poke s k l).transfers = s.transfers := rfl
@[simp] theorem poke_epochs (k : Nat) (l : List Byte) : (poke s k l).epochs = s.epochs := rfl
@[simp] theorem poke_calRuns (k : Nat) (l : List Byte) : (poke s k l).calRuns = s.calRuns := rfl
@[simp] theorem poke_invs (k : Nat) (l : List Byte) : (poke s k l).invs = s.invs := rfl
@[simp] theorem poke_lost (k : Nat) (l : List Byte) : (poke s k l).lost = s.lost := rfl
@[simp] theorem poke_fuseLost (k : Nat) (l : List Byte) : (poke s k l).fuseLost = s.fuseLost := rfl
@[simp] theorem poke_mpUp (k : Nat) (l : List Byte) : (poke s k l).mpUp = s.mpUp := rfl
@[simp] theorem poke_hpUp (k : Nat) (l : List Byte) : (poke s k l).hpUp = s.hpUp := rfl
@[simp] theorem poke_mpPaused (k : Nat) (l : List Byte) : (poke s k l).mpPaused = s.mpPaused := rfl
@[simp] theorem poke_revival (k : Nat) (l : List Byte) : (poke s k l).revival = s.revival := rfl
@[simp] theorem poke_reissued (k : Nat) (l : List Byte) : (poke s k l).reissued = s.reissued := rfl
@[simp] theorem poke_routeHolds (k : Nat) (l : List Byte) : (poke s k l).routeHolds = s.routeHolds := rfl
@[simp] theorem poke_escCount (k : Nat) (l : List Byte) : (poke s k l).escCount = s.escCount := rfl
@[simp] theorem poke_fatal (k : Nat) (l : List Byte) : (poke s k l).fatal = s.fatal := rfl
@[simp] theorem poke_us (k : Nat) (l : List Byte) : (poke s k l).us = s.us := rfl
@[simp] theorem poke_releaseUs (k : Nat) (l : List Byte) : (poke s k l).releaseUs = s.releaseUs := rfl
@[simp] theorem poke_port0 (k : Nat) (l : List Byte) : (poke s k l).port0 = s.port0 := rfl
@[simp] theorem poke_keySlots (k : Nat) (l : List Byte) : (poke s k l).keySlots = s.keySlots := rfl
@[simp] theorem poke_derivations (k : Nat) (l : List Byte) : (poke s k l).derivations = s.derivations := rfl
@[simp] theorem poke_keyDerived (k : Nat) (l : List Byte) : (poke s k l).keyDerived = s.keyDerived := rfl
@[simp] theorem poke_scrubRun (k : Nat) (l : List Byte) : (poke s k l).scrubRun = s.scrubRun := rfl
@[simp] theorem poke_memU (k : Nat) (l : List Byte) : (poke s k l).memU = s.memU := rfl
@[simp] theorem poke_act (k : Nat) (l : List Byte) : (poke s k l).act = s.act := rfl
@[simp] theorem poke_energy (k : Nat) (l : List Byte) : (poke s k l).energy = s.energy := rfl
@[simp] theorem poke_counted (k : Nat) (l : List Byte) : (poke s k l).counted = s.counted := rfl
@[simp] theorem poke_freeCtr (k : Nat) (l : List Byte) : (poke s k l).freeCtr = s.freeCtr := rfl
@[simp] theorem poke_nextId (k : Nat) (l : List Byte) : (poke s k l).nextId = s.nextId := rfl

/-! ### startCmd -/

@[simp] theorem startCmd_pending (c : Nat) : (startCmd s c).pending = s.pending := rfl
@[simp] theorem startCmd_regs (c : Nat) : (startCmd s c).regs = s.regs := rfl
@[simp] theorem startCmd_lowHalf (c : Nat) : (startCmd s c).lowHalf = s.lowHalf := rfl
@[simp] theorem startCmd_queues (c : Nat) : (startCmd s c).queues = s.queues := rfl
@[simp] theorem startCmd_parts (c : Nat) : (startCmd s c).parts = s.parts := rfl
@[simp] theorem startCmd_dies (c : Nat) : (startCmd s c).dies = s.dies := rfl
@[simp] theorem startCmd_pins (c : Nat) : (startCmd s c).pins = s.pins := rfl
@[simp] theorem startCmd_boot (c : Nat) : (startCmd s c).boot = s.boot := rfl
@[simp] theorem startCmd_tap (c : Nat) : (startCmd s c).tap = s.tap := rfl
@[simp] theorem startCmd_smbus (c : Nat) : (startCmd s c).smbus = s.smbus := rfl
@[simp] theorem startCmd_hostMem (c : Nat) : (startCmd s c).hostMem = s.hostMem := rfl
@[simp] theorem startCmd_hostFaults (c : Nat) : (startCmd s c).hostFaults = s.hostFaults := rfl
@[simp] theorem startCmd_unretired (c : Nat) : (startCmd s c).unretired = s.unretired := rfl
@[simp] theorem startCmd_irqs (c : Nat) : (startCmd s c).irqs = s.irqs := rfl
@[simp] theorem startCmd_cmds (c : Nat) :
    (startCmd s c).cmds = updIf (fun x => x.id = c) (fun x => { x with started := true }) s.cmds := rfl
@[simp] theorem startCmd_nextCmd (c : Nat) : (startCmd s c).nextCmd = s.nextCmd := rfl
@[simp] theorem startCmd_sources (c : Nat) : (startCmd s c).sources = s.sources := rfl
@[simp] theorem startCmd_grants (c : Nat) : (startCmd s c).grants = s.grants := rfl
@[simp] theorem startCmd_drives (c : Nat) : (startCmd s c).drives = s.drives := rfl
@[simp] theorem startCmd_recipes (c : Nat) : (startCmd s c).recipes = s.recipes := rfl
@[simp] theorem startCmd_models (c : Nat) : (startCmd s c).models = s.models := rfl
@[simp] theorem startCmd_dicts (c : Nat) : (startCmd s c).dicts = s.dicts := rfl
@[simp] theorem startCmd_tensors (c : Nat) : (startCmd s c).tensors = s.tensors := rfl
@[simp] theorem startCmd_tensorGens (c : Nat) : (startCmd s c).tensorGens = s.tensorGens := rfl
@[simp] theorem startCmd_spills (c : Nat) : (startCmd s c).spills = s.spills := rfl
@[simp] theorem startCmd_spillGens (c : Nat) : (startCmd s c).spillGens = s.spillGens := rfl
@[simp] theorem startCmd_cache (c : Nat) : (startCmd s c).cache = s.cache := rfl
@[simp] theorem startCmd_copies (c : Nat) : (startCmd s c).copies = s.copies := rfl
@[simp] theorem startCmd_transcodes (c : Nat) : (startCmd s c).transcodes = s.transcodes := rfl
@[simp] theorem startCmd_bufs (c : Nat) : (startCmd s c).bufs = s.bufs := rfl
@[simp] theorem startCmd_lowRate (c : Nat) : (startCmd s c).lowRate = s.lowRate := rfl
@[simp] theorem startCmd_sbCorrected (c : Nat) : (startCmd s c).sbCorrected = s.sbCorrected := rfl
@[simp] theorem startCmd_readHalts (c : Nat) : (startCmd s c).readHalts = s.readHalts := rfl
@[simp] theorem startCmd_brought (c : Nat) : (startCmd s c).brought = s.brought := rfl
@[simp] theorem startCmd_carried (c : Nat) : (startCmd s c).carried = s.carried := rfl
@[simp] theorem startCmd_turns (c : Nat) : (startCmd s c).turns = s.turns := rfl
@[simp] theorem startCmd_urReports (c : Nat) : (startCmd s c).urReports = s.urReports := rfl
@[simp] theorem startCmd_lastIssue (c : Nat) : (startCmd s c).lastIssue = s.lastIssue := rfl
@[simp] theorem startCmd_owed (c : Nat) : (startCmd s c).owed = s.owed := rfl
@[simp] theorem startCmd_superblocks (c : Nat) : (startCmd s c).superblocks = s.superblocks := rfl
@[simp] theorem startCmd_allocWaits (c : Nat) : (startCmd s c).allocWaits = s.allocWaits := rfl
@[simp] theorem startCmd_samples (c : Nat) : (startCmd s c).samples = s.samples := rfl
@[simp] theorem startCmd_threads (c : Nat) : (startCmd s c).threads = s.threads := rfl
@[simp] theorem startCmd_landing (c : Nat) : (startCmd s c).landing = s.landing := rfl
@[simp] theorem startCmd_lreds (c : Nat) : (startCmd s c).lreds = s.lreds := rfl
@[simp] theorem startCmd_fetches (c : Nat) : (startCmd s c).fetches = s.fetches := rfl
@[simp] theorem startCmd_transfers (c : Nat) : (startCmd s c).transfers = s.transfers := rfl
@[simp] theorem startCmd_epochs (c : Nat) : (startCmd s c).epochs = s.epochs := rfl
@[simp] theorem startCmd_calRuns (c : Nat) : (startCmd s c).calRuns = s.calRuns := rfl
@[simp] theorem startCmd_invs (c : Nat) : (startCmd s c).invs = s.invs := rfl
@[simp] theorem startCmd_lost (c : Nat) : (startCmd s c).lost = s.lost := rfl
@[simp] theorem startCmd_fuseLost (c : Nat) : (startCmd s c).fuseLost = s.fuseLost := rfl
@[simp] theorem startCmd_mpUp (c : Nat) : (startCmd s c).mpUp = s.mpUp := rfl
@[simp] theorem startCmd_hpUp (c : Nat) : (startCmd s c).hpUp = s.hpUp := rfl
@[simp] theorem startCmd_mpPaused (c : Nat) : (startCmd s c).mpPaused = s.mpPaused := rfl
@[simp] theorem startCmd_revival (c : Nat) : (startCmd s c).revival = s.revival := rfl
@[simp] theorem startCmd_reissued (c : Nat) : (startCmd s c).reissued = s.reissued := rfl
@[simp] theorem startCmd_routeHolds (c : Nat) : (startCmd s c).routeHolds = s.routeHolds := rfl
@[simp] theorem startCmd_escCount (c : Nat) : (startCmd s c).escCount = s.escCount := rfl
@[simp] theorem startCmd_fatal (c : Nat) : (startCmd s c).fatal = s.fatal := rfl
@[simp] theorem startCmd_us (c : Nat) : (startCmd s c).us = s.us := rfl
@[simp] theorem startCmd_releaseUs (c : Nat) : (startCmd s c).releaseUs = s.releaseUs := rfl
@[simp] theorem startCmd_port0 (c : Nat) : (startCmd s c).port0 = s.port0 := rfl
@[simp] theorem startCmd_keySlots (c : Nat) : (startCmd s c).keySlots = s.keySlots := rfl
@[simp] theorem startCmd_derivations (c : Nat) : (startCmd s c).derivations = s.derivations := rfl
@[simp] theorem startCmd_keyDerived (c : Nat) : (startCmd s c).keyDerived = s.keyDerived := rfl
@[simp] theorem startCmd_scrubRun (c : Nat) : (startCmd s c).scrubRun = s.scrubRun := rfl
@[simp] theorem startCmd_memU (c : Nat) : (startCmd s c).memU = s.memU := rfl
@[simp] theorem startCmd_act (c : Nat) : (startCmd s c).act = s.act := rfl
@[simp] theorem startCmd_energy (c : Nat) : (startCmd s c).energy = s.energy := rfl
@[simp] theorem startCmd_counted (c : Nat) : (startCmd s c).counted = s.counted := rfl
@[simp] theorem startCmd_freeCtr (c : Nat) : (startCmd s c).freeCtr = s.freeCtr := rfl
@[simp] theorem startCmd_nextId (c : Nat) : (startCmd s c).nextId = s.nextId := rfl

end Sys2Proof.Machine
end

