-- ==== Sys2Proof/Laws/Store.lean ====
section
/-!
SUPPORT. Sparse data: what a key reads as after each operation, and that each keeps the canonical form.
-/

namespace Sys2Proof.Machine

variable {α : Type} {d : Nat → α} {m : Sparse α} {j k : Nat} {v : α}

theorem above_mono {i : Nat} (h : above k m = true) (hi : i ≤ k) : above i m = true := by
  simp only [above, List.all_eq_true, decide_eq_true_eq] at h ⊢
  exact fun e he => Nat.lt_of_le_of_lt hi (h e he)

/-- A key that lies below every listed one is unlisted. -/
theorem look_of_above (h : above k m = true) (hj : j ≤ k) : look d m j = d j := by
  induction m with
  | nil => rfl
  | cons e m ih =>
    simp only [above, List.all_cons, Bool.and_eq_true, decide_eq_true_eq] at h
    rw [look, if_neg (by omega)]
    exact ih h.2

@[simp] theorem look_enlist_self : look d (enlist k v m) k = v := by
  induction m with
  | nil => simp [enlist, look]
  | cons e m ih =>
    simp only [enlist]
    split
    · simp [look]
    · split
      · simp [look]
      · rename_i h1 h2
        rw [look, if_neg h2, ih]

theorem look_enlist_ne (h : j ≠ k) : look d (enlist k v m) j = look d m j := by
  induction m with
  | nil => simp [enlist, look, h.symm]
  | cons e m ih =>
    simp only [enlist]
    split
    · rw [look, if_neg h.symm]
    · split
      · rename_i h2; subst h2; simp [look, h.symm]
      · simp only [look, ih]

theorem look_unlist_ne (h : j ≠ k) : look d (unlist k m) j = look d m j := by
  induction m with
  | nil => rfl
  | cons e m ih =>
    simp only [unlist]
    split
    · rename_i h2; subst h2; rw [look, if_neg h.symm]
    · split
      · rfl
      · simp only [look, ih]

theorem above_enlist : above j (enlist k v m) = true ↔ j < k ∧ above j m = true := by
  induction m with
  | nil => simp [enlist, above]
  | cons e m ih =>
    simp only [above, List.all_cons, Bool.and_eq_true, decide_eq_true_eq] at ih ⊢
    simp only [enlist]
    split
    · simp
    · split
      · rename_i h2; subst h2; simp only [List.all_cons, Bool.and_eq_true, decide_eq_true_eq]; tauto
      · simp only [List.all_cons, Bool.and_eq_true, decide_eq_true_eq, ih]; tauto

theorem above_unlist (h : above j m = true) : above j (unlist k m) = true := by
  induction m with
  | nil => rfl
  | cons e m ih =>
    simp only [above, List.all_cons, Bool.and_eq_true, decide_eq_true_eq] at h ih
    simp only [unlist]
    split
    · exact h.2
    · split
      · simpa [above] using h
      · simpa [above] using ⟨h.1, by simpa [above] using ih h.2⟩

variable [DecidableEq α]

theorem wf_cons {e : Nat × α} : wf d (e :: m) = true ↔ above e.1 m = true ∧ e.2 ≠ d e.1 ∧ wf d m = true := by
  simp [wf, and_assoc]

theorem look_unlist_self (h : wf d m = true) : look d (unlist k m) k = d k := by
  induction m with
  | nil => rfl
  | cons e m ih =>
    obtain ⟨h1, -, h3⟩ := wf_cons.1 h
    simp only [unlist]
    split
    · rename_i h4; exact look_of_above h1 (Nat.le_of_eq h4.symm)
    · split
      · rename_i h4 h5; rw [look, if_neg h4]; exact look_of_above (above_mono h1 (Nat.le_of_lt h5)) (Nat.le_refl k)
      · rename_i h4 h5; rw [look, if_neg h4]; exact ih h3

theorem wf_enlist (h : wf d m = true) (hv : v ≠ d k) : wf d (enlist k v m) = true := by
  induction m with
  | nil => simp [enlist, wf, above, hv]
  | cons e m ih =>
    obtain ⟨h1, h2, h3⟩ := wf_cons.1 h
    simp only [enlist]
    split
    · rename_i h4
      refine wf_cons.2 ⟨?_, hv, h⟩
      simpa [above] using ⟨h4, by simpa [above] using above_mono h1 (Nat.le_of_lt h4)⟩
    · split
      · rename_i h4 h5; subst h5; exact wf_cons.2 ⟨h1, hv, h3⟩
      · rename_i h4 h5
        exact wf_cons.2 ⟨above_enlist.2 ⟨by omega, h1⟩, h2, ih h3⟩

theorem wf_unlist (h : wf d m = true) : wf d (unlist k m) = true := by
  induction m with
  | nil => rfl
  | cons e m ih =>
    obtain ⟨h1, h2, h3⟩ := wf_cons.1 h
    simp only [unlist]
    split
    · exact h3
    · split
      · exact h
      · exact wf_cons.2 ⟨above_unlist h1, h2, ih h3⟩

/-- A write leaves every other key. -/
theorem look_put_ne (h : j ≠ k) : look d (put d k v m) j = look d m j := by
  unfold put
  split
  · exact look_unlist_ne h
  · exact look_enlist_ne h

/-- A key reads as what was written to it. -/
theorem look_put_self (h : wf d m = true) : look d (put d k v m) k = v := by
  unfold put
  split
  · rename_i hv; rw [look_unlist_self h, hv]
  · exact look_enlist_self

/-- A write keeps the canonical form. -/
theorem wf_put (h : wf d m = true) : wf d (put d k v m) = true := by
  unfold put
  split
  · exact wf_unlist h
  · rename_i hv; exact wf_enlist h hv

theorem wf_putAll {l : List α} (h : wf d m = true) : wf d (putAll d k l m) = true := by
  induction l generalizing k m with
  | nil => exact h
  | cons v l ih => exact ih (wf_put h)

/-- A run of writes leaves every key outside it. -/
theorem look_putAll_outside {l : List α} (h : j < k ∨ k + l.length ≤ j) : look d (putAll d k l m) j = look d m j := by
  induction l generalizing k m with
  | nil => rfl
  | cons v l ih =>
    rw [List.length_cons] at h
    rw [putAll, ih (by omega), look_put_ne (by omega)]

/-- The i-th key of a run of writes reads as its i-th value. -/
theorem look_putAll_inside {l : List α} {i : Nat} {x : α} (h : wf d m = true) (hi : l[i]? = some x) :
    look d (putAll d k l m) (k + i) = x := by
  induction l generalizing k m i with
  | nil => simp at hi
  | cons v l ih =>
    cases i with
    | zero =>
      rw [putAll, look_putAll_outside (by omega)]
      simp only [List.getElem?_cons_zero, Option.some.injEq] at hi
      rw [Nat.add_zero, look_put_self h, hi]
    | succ i =>
      rw [List.getElem?_cons_succ] at hi
      rw [putAll, show k + (i + 1) = k + 1 + i by omega]
      exact ih (wf_put h) hi

/-- Canonical lists that read alike are equal. -/
theorem eq_of_look {a b : Sparse α} (ha : wf d a = true) (hb : wf d b = true) (h : ∀ i, look d a i = look d b i) :
    a = b := by
  induction a generalizing b with
  | nil =>
    cases b with
    | nil => rfl
    | cons e b =>
      obtain ⟨-, h2, -⟩ := wf_cons.1 hb
      have := h e.1
      rw [look, look, if_pos rfl] at this
      exact absurd this.symm h2
  | cons e a ih =>
    obtain ⟨a1, a2, a3⟩ := wf_cons.1 ha
    cases b with
    | nil =>
      have := h e.1
      rw [look, look, if_pos rfl] at this
      exact absurd this a2
    | cons f b =>
      obtain ⟨b1, b2, b3⟩ := wf_cons.1 hb
      have key : e.1 = f.1 := by
        rcases Nat.lt_trichotomy e.1 f.1 with lt | eq | gt
        · have := h e.1
          rw [look, if_pos rfl, look, if_neg (by omega), look_of_above b1 (Nat.le_of_lt lt)] at this
          exact absurd this a2
        · exact eq
        · have := h f.1
          rw [look, if_neg (by omega), look, if_pos rfl, look_of_above a1 (Nat.le_of_lt gt)] at this
          exact absurd this.symm b2
      have val : e.2 = f.2 := by
        have := h e.1
        rwa [look, if_pos rfl, look, if_pos key.symm] at this
      have rest : a = b := ih a3 b3 fun i => by
        by_cases hi : i ≤ e.1
        · rw [look_of_above a1 hi, look_of_above b1 (key ▸ hi)]
        · have := h i
          rwa [look, if_neg (by omega), look, if_neg (by omega)] at this
      rw [rest, Prod.ext key val]

/-! ### Bytes and list updates -/

@[simp] theorem length_toLe (n x : Nat) : (toLe n x).length = n := by
  induction n generalizing x with
  | zero => rfl
  | succ n ih => rw [toLe, List.length_cons, ih]

omit [DecidableEq α] in
@[simp] theorem length_lookAll {m : Sparse α} {n : Nat} : (lookAll d m k n).length = n := by simp [lookAll]

theorem leNat_toLe (n x : Nat) : leNat (toLe n x) = x % 256 ^ n := by
  induction n generalizing x with
  | zero => simp [toLe, leNat, Nat.mod_one]
  | succ n ih =>
    rw [toLe, leNat, ih, BitVec.toNat_ofNat, show 256 ^ (n + 1) = 256 * 256 ^ n from Nat.pow_succ',
      Nat.mod_mul]

@[simp] theorem length_modAt {β : Type} {l : List β} {i : Nat} {f : β → β} : (modAt l i f).length = l.length := by
  simp [modAt]

@[simp] theorem length_updIf {β : Type} {p : β → Bool} {f : β → β} {l : List β} :
    (updIf p f l).length = l.length := by
  simp [updIf]

end Sys2Proof.Machine
end

