-- ==== Sys2Proof/Safety.lean ====
section
/-!
DEFINITION. The terms that claims use: when a thread issues an instruction, when a command starts, which registers an
ordinary write reaches, where a completion entry goes, and the canonical form that every step keeps.
-/

namespace Sys2Proof.Machine

/-! ### Orony instructions -/

/-- Thread t of s issues x as operation op of class c: it is READY and it is its Minuet's turn, the class and fields are
allowed to it, and the guard is not the complement of p0, which never executes (R198, R205, R229, R236). -/
def issues (s : State) (c op : Nat) (x : Orony) (t : Thread) : Bool :=
  decide (threadOf s x.th = some t) && alive s && t.state == 1 && !t.ending && classOk x.th c && fieldsOk c op x &&
  decide (turnOf s (minuetOf x.th) = some (thNum x.th)) && !(x.pred == 0 && x.pneg)

/-- It issues x, and bit 0 of the guard is 1: an instruction that is guarded as a whole executes (R205). -/
def executes (s : State) (c op : Nat) (x : Orony) (t : Thread) : Bool :=
  issues s c op x t && (guard16 t x).getLsbD 0

/-- Operand Y of a scalar instruction: s[B], or IMM when I is 1 (R207). -/
def operandY (t : Thread) (x : Orony) : Word := if x.i then x.imm else rs t x.b


/-- Fewer than 64 tickets of the thread are outstanding (R199). -/
def ticketFree (t : Thread) : Bool := decide ((outstanding t).length < 64)

/-- An instruction of a class that the guard's bit 0 governs as a whole, beside the unit functions that read their
block first: every class but the vector class and the vector loads and stores (R205). -/
def guardedWhole (c op : Nat) : Bool :=
  c ≠ 2 && !(c = 3 && 2 ≤ op) && !(c = 5 && (op = 0 || op = 2 || op = 3))

/-! ### Commands of the submission queues -/

/-- Command c of s is x, of the given opcode, not begun, not held back by a dependency marker (R131), and the block serves
it. -/
def starts (s : State) (c op : Nat) (x : Cmd) : Bool :=
  decide (cmdOf s c = some x) && x.opcode == op && !x.started && mayStart s x && alive s

/-- The same for a command that begins with a read of host memory: its partition has a port (R664), and no translation
fault has halted the read (R294). -/
def reads (s : State) (c op : Nat) (x : Cmd) : Bool :=
  starts s c op x && !(part s x.part).stranded && s.readHalts.all fun h => h.cmd != c

/-- The same for the later step of a command already under way. -/
def underway (s : State) (c op : Nat) (x : Cmd) : Bool :=
  decide (cmdOf s c = some x) && x.opcode == op && x.started && alive s

/-- Address key and length of the completion entry that queue q's next completion fills (R118, R130). -/
def cqeSpan (s : State) (q : Nat) : Nat × Nat :=
  let c := cqSel s q
  (hostKey (qSpace s c) (reg64 s (queueBase c + 0x14) + 32 * ((queue s c).cqPi.toNat % cqDepth s c)), 32)

/-- Address key and length of the mirror of the completion queue's producer index (R133). -/
def mirrorSpan (s : State) (q : Nat) : Nat × Nat :=
  let c := cqSel s q
  (hostKey (qSpace s c) (reg64 s (queueBase c + 0x20)), 4)

/-- Key a lies outside a span. -/
def outside (a : Nat) (sp : Nat × Nat) : Bool := a < sp.1 || sp.1 + sp.2 ≤ a

/-! ### Register writes -/

/-- The word that a write of v leaves in the RW and RWL fields of the register at o. -/
def written (s : State) (o : Nat) (v : Word) : Word := (reg s o &&& ~~~(rwMask o)) ||| (v &&& rwMask o)

/-- An access of function fn through a port reaches its BAR0, and the address names the given target (R39, R82 to R85). -/
def accessible (s : State) (fn port off : Nat) (to_ : Target) : Bool :=
  presented s fn port && decide (resolve s fn off = to_)

/-- The register at o, its die in service and the block not FATAL, can be written now, with CFG_LOCK 0 (R90, R101, R601). -/
def unlocked (s : State) (o : Nat) : Bool := !s.fatal && !dieOut s o && fld s 0x10 0 0 == 0

/-- The 32-bit register at o can be written, and no rule rejects the word `want` with the action bits `act` (R103). -/
def settable (s : State) (o : Nat) (want act : Word) : Bool :=
  unlocked s o && !isLowHalf o && !isHighHalf o &&
  !rejected s o (reg s o).toNat want.toNat (2 ^ 32 * want.toNat) act.toNat

/-- The bits of a write that perform actions: those of the register's WO fields. -/
def actions (o : Nat) (v : Word) : Word := onesOf o none v .wo

/-- The bits of a write that fall on W1C fields. -/
def clears (o : Nat) (v : Word) : Word := onesOf o none v .w1c

/-- Registers whose write sets nothing going beside their own fields. -/
def quietReg (o : Nat) : Bool :=
  !([0x104, 0x110, 0x1000, 0x1010, 0x1018, 0x5004] : List Nat).contains o &&
  !(0x40000 ≤ o && o < 0x50000 && ([0, 0x1C, 0x28] : List Nat).contains (o % 0x1000)) &&
  !(0x50000 ≤ o && o < 0x90000 && o % 0x1000 = 0) &&
  !(0x100000 ≤ o && (o % 0x100000 = 0x104 || (0x80000 ≤ o % 0x100000 && o % 0x2000 = 0)))

/-- s after the register at o has taken the word `want`; a change of a retained register asks for a save (R639). -/
def stored (s : State) (o : Nat) (want : Word) : State := noteChange (setReg s o want) o (want ≠ reg s o)

/-- The low half that a write of the high half at o brings along: the port's pending one, else the present one (R93). -/
def lowOf (s : State) (port o : Nat) : Word := (pendingLow s port (o - 4)).getD (reg s (o - 4))

/-- s after the 64-bit register whose high half stands at o has taken both halves, the pending one used up (R93). -/
def storedPair (s : State) (port o : Nat) (want : Word) : State :=
  let t : State := { s with lowHalf := s.lowHalf.filter fun x => x.1 ≠ lowKey port (o - 4) }
  noteChange (setReg (setReg t o want) (o - 4) (lowOf s port o)) o
    (want ≠ reg s o || lowOf s port o ≠ reg s (o - 4))

/-- The high half at o can be written, and no rule rejects it with its low half (R103). -/
def pairSettable (s : State) (port o : Nat) (want : Word) : Bool :=
  unlocked s o && !isLowHalf o && isHighHalf o &&
  !rejected s o (reg s o).toNat want.toNat ((lowOf s port o).toNat + 2 ^ 32 * want.toNat) 0

/-- Function fn reaches the doorbell page of queue q through a port, and the block takes its writes (R39, R85, R589, R601). -/
def pageOpen (s : State) (fn port q : Nat) : Bool :=
  presented s fn port && owner s q == fn && !s.fatal && !(part s fn).resetting

/-! ### What every step keeps -/

/-- The canonical form of the sparse host memory and register words (no address is listed twice or lists what it reads as
while unlisted), the number of the block's queues, partitions and dies, and that the port of partition 0 is a host port. -/
def canonical (s : State) : Bool :=
  Memory.wf s.hostMem && wf regReset s.regs && s.queues.length == 64 && s.parts.length == 16 && s.dies.length == 4 &&
  decide (s.port0 < 8)

end Sys2Proof.Machine
end

