-- ==== Sys2Proof/Laws/Ops.lean ====
section
/-!
SUPPORT. The shared operations: what each can change, and that each keeps the queue of waiting commands and the
canonical form.
-/

namespace Sys2Proof.Machine

variable {s t u : State}

/-! ### Keeping the canonical form -/

theorem canonical_iff : canonical s = true ↔ wf zero s.hostMem = true ∧ wf regReset s.regs = true ∧
    s.queues.length = 64 ∧ s.parts.length = 16 ∧ s.dies.length = 4 ∧ s.port0 < 8 := by
  simp [canonical, Memory.wf, and_assoc]

/-- t has the waiting commands of s, and the canonical form where s has it. -/
def Keeps (s t : State) : Prop := t.pending = s.pending ∧ (canonical s = true → canonical t = true)

theorem Keeps.refl (s : State) : Keeps s s := ⟨rfl, id⟩

theorem Keeps.trans (h : Keeps s t) (g : Keeps t u) : Keeps s u := ⟨g.1.trans h.1, fun x => g.2 (h.2 x)⟩

/-- An update of fields that the canonical form does not mention. -/
theorem keeps_of_eq (h : t.pending = s.pending) (hm : t.hostMem = s.hostMem) (hr : t.regs = s.regs)
    (hq : t.queues.length = s.queues.length) (hp : t.parts.length = s.parts.length)
    (hd : t.dies.length = s.dies.length) (h0 : t.port0 = s.port0) : Keeps s t :=
  ⟨h, fun c => by rw [canonical_iff] at c ⊢; rwa [hm, hr, hq, hp, hd, h0]⟩

theorem keeps_ite {p : Prop} [Decidable p] (h : p → Keeps s t) (g : ¬p → Keeps s u) : Keeps s (if p then t else u) := by
  split
  · exact h ‹_›
  · exact g ‹_›

theorem keeps_foldl {β : Type} {f : State → β → State} {l : List β} (h : ∀ s x, Keeps s (f s x)) :
    Keeps s (l.foldl f s) := by
  induction l generalizing s with
  | nil => exact .refl s
  | cons x l ih => exact (h s x).trans ih

theorem keeps_setReg (o : Nat) (v : Word) : Keeps s (setReg s o v) :=
  ⟨rfl, fun c => by rw [canonical_iff] at c ⊢; exact ⟨c.1, wf_put c.2.1, c.2.2⟩⟩

theorem keeps_setFld (o a b x : Nat) : Keeps s (setFld s o a b x) := keeps_setReg _ _
theorem keeps_bumpBy (o n : Nat) : Keeps s (bumpBy s o n) := keeps_setReg _ _
theorem keeps_bump (o : Nat) : Keeps s (bump s o) := keeps_setReg _ _
theorem keeps_bump64 (o n : Nat) : Keeps s (bump64 s o n) := (keeps_setReg _ _).trans (keeps_setReg _ _)
theorem keeps_setW1c (o b k : Nat) : Keeps s (setW1c s o b k) := (keeps_setFld _ _ _ _).trans (keeps_bump _)

theorem keeps_setPart (p : Nat) (f : Part → Part) : Keeps s (setPart s p f) := keeps_of_eq rfl rfl rfl rfl (by simp) rfl rfl
theorem keeps_setQueue (q : Nat) (f : Queue → Queue) : Keeps s (setQueue s q f) :=
  keeps_of_eq rfl rfl rfl (by simp) rfl rfl rfl
theorem keeps_setDie (d : Nat) (f : Die → Die) : Keeps s (setDie s d f) := keeps_of_eq rfl rfl rfl rfl rfl (by simp) rfl
theorem keeps_setBuf (h : Nat) (f : Buf → Buf) : Keeps s (setBuf s h f) := keeps_of_eq rfl rfl rfl rfl rfl rfl rfl
theorem keeps_setThread (th : ThreadRef) (f : Thread → Thread) : Keeps s (setThread s th f) :=
  keeps_of_eq rfl rfl rfl rfl rfl rfl rfl
theorem keeps_setSample (h : Nat) (f : Sample → Sample) : Keeps s (setSample s h f) :=
  keeps_of_eq rfl rfl rfl rfl rfl rfl rfl
theorem keeps_setEpoch (q : Nat) (f : Epoch → Epoch) : Keeps s (setEpoch s q f) := keeps_of_eq rfl rfl rfl rfl rfl rfl rfl
theorem keeps_startCmd (c : Nat) : Keeps s (startCmd s c) := keeps_of_eq rfl rfl rfl rfl rfl rfl rfl
theorem keeps_fresh : Keeps s (fresh s).2 := keeps_of_eq rfl rfl rfl rfl rfl rfl rfl
theorem keeps_arbitrate : Keeps s (arbitrate s).2 := keeps_of_eq rfl rfl rfl rfl rfl rfl rfl

theorem keeps_poke (k : Nat) (l : List Byte) : Keeps s (poke s k l) :=
  ⟨rfl, fun c => by rw [canonical_iff] at c ⊢; exact ⟨wf_putAll c.1, c.2⟩⟩

theorem Keeps.unretired (h : Keeps s t) (l : List Unretired) : Keeps s { t with unretired := l } :=
  h.trans (keeps_of_eq rfl rfl rfl rfl rfl rfl rfl)
theorem Keeps.irqs (h : Keeps s t) (l : List Irq) : Keeps s { t with irqs := l } :=
  h.trans (keeps_of_eq rfl rfl rfl rfl rfl rfl rfl)
theorem Keeps.cmds (h : Keeps s t) (l : List Cmd) : Keeps s { t with cmds := l } :=
  h.trans (keeps_of_eq rfl rfl rfl rfl rfl rfl rfl)

theorem keeps_sendWrite (port : Nat) (w : HostWrite) : Keeps s (sendWrite s port w) := by
  unfold sendWrite
  refine Keeps.unretired (Keeps.trans ?_ (keeps_bump64 _ _)) _
  exact keeps_ite (fun _ => .refl s) fun _ => keeps_poke _ _

theorem keeps_hostReq (p : Nat) (r : HostReq) : Keeps s (hostReq s p r) := by
  unfold hostReq
  split
  · split
    · exact keeps_sendWrite _ _
    · exact (Keeps.refl s).irqs _
  · exact keeps_setPart _ _

theorem keeps_hostWrite (p k : Nat) (l : List Byte) : Keeps s (hostWrite s p k l) := keeps_hostReq _ _

theorem keeps_sendWaiting (p : Nat) : Keeps s (sendWaiting s p) :=
  (keeps_setPart _ _).trans (keeps_foldl fun _ _ => keeps_hostReq _ _)

theorem keeps_resend (p old new : Nat) : Keeps s (resend s p old new) :=
  ((Keeps.refl s).unretired _).trans (keeps_foldl fun _ _ => keeps_sendWrite _ _)

theorem keeps_queueIrq (c : Nat) : Keeps s (queueIrq s c) := (keeps_setQueue _ _).trans (keeps_hostReq _ _)

theorem keeps_mirror (c : Nat) : Keeps s (mirror s c) :=
  (keeps_hostWrite _ _ _).trans ((keeps_setQueue _ _).trans (keeps_ite (fun _ => keeps_queueIrq _) fun _ => .refl _))

theorem keeps_writeCqe (q : Nat) (l : List Byte) : Keeps s (writeCqe s q l) :=
  (keeps_hostWrite _ _ _).trans ((keeps_setQueue _ _).trans (keeps_mirror _))

theorem keeps_complete (x : Cmd) (r : Result) : Keeps s (complete s x r) :=
  ((Keeps.refl s).cmds _).trans (keeps_writeCqe _ _)

theorem keeps_completeReset (x : Cmd) : Keeps s (completeReset s x) :=
  keeps_ite (fun _ => keeps_complete _ _) fun _ => (Keeps.refl s).cmds _

theorem keeps_batchReady (q : Nat) (tag ci : Word) (r : Result) (last : Bool) : Keeps s (batchReady s q tag ci r last) :=
  keeps_writeCqe _ _

theorem keeps_postEvent (p code data : Nat) : Keeps s (postEvent s p code data) := by
  unfold postEvent
  split
  · exact keeps_complete _ _
  · exact keeps_setPart _ _

theorem keeps_postAll (code data : Nat) : Keeps s (postAll s code data) := keeps_foldl fun _ _ => keeps_postEvent _ _ _

theorem keeps_withCmd {c op : Nat} {f : State → Cmd → State} (h : ∀ s x, Keeps s (f s x)) : Keeps s (withCmd s c op f) := by
  unfold withCmd
  split
  · exact keeps_ite (fun _ => h _ _) fun _ => .refl s
  · exact .refl s

theorem keeps_withStarted {c op : Nat} {f : State → Cmd → State} (h : ∀ s x, Keeps s (f s x)) :
    Keeps s (withStarted s c op f) := by
  unfold withStarted
  split
  · exact keeps_ite (fun _ => h _ _) fun _ => .refl s
  · exact .refl s

theorem keeps_withHost {c op : Nat} {f : State → Cmd → State} (h : ∀ s x, Keeps s (f s x)) : Keeps s (withHost s c op f) :=
  keeps_withCmd fun s x => keeps_ite (fun _ => .refl _) fun _ => by
    split
    · exact h _ _
    · rename_i r _
      exact (keeps_of_eq (t := withBrought s r) rfl rfl rfl rfl rfl rfl rfl).trans
        ((h (withBrought s r) x).trans (keeps_of_eq rfl rfl rfl rfl rfl rfl rfl))

theorem keeps_tileEvent (th : ThreadRef) (o n : Nat) : Keeps s (tileEvent s th o n) := by
  unfold tileEvent
  split
  · exact keeps_bump64 _ _
  · exact .refl s

theorem keeps_issued (th : ThreadRef) : Keeps s (issued s th) :=
  Keeps.trans (keeps_of_eq rfl rfl rfl rfl rfl rfl rfl) (keeps_tileEvent _ _ _)

/-! ### What a request toward a host can change -/

/-- t differs from s at most in what requests toward hosts touch: host memory, register words (their counts), the
unretired writes, the interrupts raised, the partitions' waiting requests and the queues. -/
def HostOnly (s t : State) : Prop :=
  t = { s with hostMem := t.hostMem, regs := t.regs, unretired := t.unretired, irqs := t.irqs, parts := t.parts
               queues := t.queues }

theorem HostOnly.refl (s : State) : HostOnly s s := rfl

theorem HostOnly.trans (h : HostOnly s t) (g : HostOnly t u) : HostOnly s u :=
  Eq.trans g (by rw [h])

theorem hostOnly_ite {p : Prop} [Decidable p] (h : HostOnly s t) (g : HostOnly s u) : HostOnly s (if p then t else u) := by
  split
  · exact h
  · exact g

theorem hostOnly_setReg (o : Nat) (v : Word) : HostOnly s (setReg s o v) := rfl
theorem hostOnly_setPart (p : Nat) (f : Part → Part) : HostOnly s (setPart s p f) := rfl
theorem hostOnly_setQueue (q : Nat) (f : Queue → Queue) : HostOnly s (setQueue s q f) := rfl
theorem hostOnly_poke (k : Nat) (l : List Byte) : HostOnly s (poke s k l) := rfl
theorem hostOnly_bump64 (o n : Nat) : HostOnly s (bump64 s o n) := (hostOnly_setReg _ _).trans (hostOnly_setReg _ _)
theorem HostOnly.unretired (h : HostOnly s t) (l : List Unretired) : HostOnly s { t with unretired := l } := h.trans rfl
theorem HostOnly.irqs (h : HostOnly s t) (l : List Irq) : HostOnly s { t with irqs := l } := h.trans rfl

theorem hostOnly_sendWrite (port : Nat) (w : HostWrite) : HostOnly s (sendWrite s port w) := by
  unfold sendWrite
  refine HostOnly.unretired (HostOnly.trans ?_ (hostOnly_bump64 _ _)) _
  exact hostOnly_ite (.refl s) (hostOnly_poke _ _)

theorem hostOnly_hostReq (p : Nat) (r : HostReq) : HostOnly s (hostReq s p r) := by
  unfold hostReq
  split
  · split
    · exact hostOnly_sendWrite _ _
    · exact (HostOnly.refl s).irqs _
  · exact hostOnly_setPart _ _

theorem hostOnly_hostWrite (p k : Nat) (l : List Byte) : HostOnly s (hostWrite s p k l) := hostOnly_hostReq _ _
theorem hostOnly_queueIrq (c : Nat) : HostOnly s (queueIrq s c) := (hostOnly_setQueue _ _).trans (hostOnly_hostReq _ _)
theorem hostOnly_mirror (c : Nat) : HostOnly s (mirror s c) :=
  (hostOnly_hostWrite _ _ _).trans ((hostOnly_setQueue _ _).trans (hostOnly_ite (hostOnly_queueIrq _) (.refl _)))
theorem hostOnly_writeCqe (q : Nat) (l : List Byte) : HostOnly s (writeCqe s q l) :=
  (hostOnly_hostWrite _ _ _).trans ((hostOnly_setQueue _ _).trans (hostOnly_mirror _))

/-- A completion takes its command off and writes its entry. -/
theorem complete_cmds (x : Cmd) (r : Result) : (complete s x r).cmds = s.cmds.filter fun y => y.id ≠ x.id :=
  congrArg State.cmds (hostOnly_writeCqe (s := { s with cmds := s.cmds.filter fun y => y.id ≠ x.id }) _ _)

/-! ### Host memory -/

/-- A store leaves every byte outside it. -/
theorem look_poke_outside {a k : Nat} {l : List Byte} (h : a < k ∨ k + l.length ≤ a) :
    look zero (poke s k l).hostMem a = look zero s.hostMem a := look_putAll_outside h

/-- A store reads back. -/
theorem hostBytes_poke (k : Nat) (l : List Byte) (h : canonical s = true) (b : s.brought = []) :
    hostBytes (poke s k l) k l.length = l := by
  rw [canonical_iff] at h
  apply List.ext_getElem?
  intro i
  by_cases hi : i < l.length
  · have hl : l[i]? = some l[i] := List.getElem?_eq_getElem hi
    rw [hl]
    simp [hostBytes, b, lookAll, hi, look_putAll_inside h.1 hl]
  · rw [List.getElem?_eq_none (by simp [hostBytes, b]; omega), List.getElem?_eq_none (by omega)]

/-! ### Threads -/

theorem threadOf_th {th : ThreadRef} {x : Thread} (h : threadOf s th = some x) : x.th = th := by
  simpa [threadOf] using List.find?_some h

/-- An update of a thread that keeps its name: what it answers, and that every other thread is as before. -/
theorem threadOf_setThread_self {th : ThreadRef} {x : Thread} {f : Thread → Thread} (h : threadOf s th = some x)
    (hf : ∀ t, (f t).th = t.th) : threadOf (setThread s th f) th = some (f x) := by
  simp only [threadOf, setThread_threads, updIf] at h ⊢
  revert h
  generalize s.threads = l
  intro h
  induction l with
  | nil => simp at h
  | cons a l ih =>
    by_cases g : a.th = th
    · simp_all
    · simp_all

theorem threadOf_setThread_ne {th th' : ThreadRef} {f : Thread → Thread} (h : th' ≠ th) (hf : ∀ t, t.th = th → (f t).th = th) :
    threadOf (setThread s th f) th' = threadOf s th' := by
  simp only [threadOf, setThread_threads, updIf]
  generalize s.threads = l
  induction l with
  | nil => rfl
  | cons a l ih =>
    simp only [List.map_cons, List.find?_cons, ih]
    by_cases g : a.th = th
    · simp [g, hf a g, h.symm]
    · simp [g]

end Sys2Proof.Machine
end

