-- ==== Sys2Proof/Laws/Issue.lean ====
section
/-!
SUPPORT. What issuing an instruction and starting a command can do, said once.
-/

namespace Sys2Proof.Machine

variable {s : State} {c op : Nat} {x : Orony} {t : Thread} {f : State → Thread → State}

/-- Issuing touches nothing but the count of instructions and the turn. -/
theorem issued_eq (th : ThreadRef) : issued s th =
    { s with regs := (issued s th).regs, lastIssue := put (fun _ => 31) (minuetOf th) (thNum th) s.lastIssue } := by
  unfold issued tileEvent
  split <;> rfl

theorem issues_iff : issues s c op x t = true ↔ threadOf s x.th = some t ∧ alive s = true ∧ t.state = 1 ∧
    t.ending = false ∧ classOk x.th c = true ∧ fieldsOk c op x = true ∧
    turnOf s (minuetOf x.th) = some (thNum x.th) ∧ ¬(x.pred = 0 ∧ x.pneg = true) := by
  simp only [issues, Bool.and_eq_true, decide_eq_true_eq, beq_iff_eq, Bool.not_eq_true', and_assoc]
  cases t.ending <;> cases x.pneg <;> by_cases h : x.pred = 0 <;> simp [h]

theorem issue_ready (h : issues s c op x t = true) : issue s c op x f = f (issued s x.th) t := by
  obtain ⟨h1, h2, h3, h4, h5, h6, h7, h8⟩ := issues_iff.1 h
  simp only [issue, h1, h2, h3, h4, h5, h6, h7]
  by_cases g : x.pred = 0 <;> simp_all

theorem executes_iff : executes s c op x t = true ↔ issues s c op x t = true ∧ (guard16 t x).getLsbD 0 = true := by
  simp [executes]

theorem issueScalar_executes (h : executes s c op x t = true) : issueScalar s c op x f = f (issued s x.th) t := by
  obtain ⟨h1, h2⟩ := executes_iff.1 h
  rw [issueScalar, issue_ready h1, if_pos h2]

theorem issueScalar_guardOff (h : issues s c op x t = true) (g : (guard16 t x).getLsbD 0 = false) :
    issueScalar s c op x f = setThread (issued s x.th) x.th nextPc := by
  rw [issueScalar, issue_ready h, if_neg (by rw [g]; exact Bool.false_ne_true)]

/-- Every outcome of an issue: nothing, the next instruction, or the effect. -/
theorem issue_cases : issue s c op x f = s ∨ issue s c op x f = setThread (issued s x.th) x.th nextPc ∨
    ∃ t, issues s c op x t = true ∧ issue s c op x f = f (issued s x.th) t := by
  unfold issue
  split
  · rename_i t ht
    split
    · rename_i h1
      split
      · exact .inr (.inl rfl)
      · rename_i h2
        refine .inr (.inr ⟨t, issues_iff.2 ?_, rfl⟩)
        simp_all
    · exact .inl rfl
  · exact .inl rfl

theorem issueScalar_cases : issueScalar s c op x f = s ∨ issueScalar s c op x f = setThread (issued s x.th) x.th nextPc ∨
    ∃ t, executes s c op x t = true ∧ issueScalar s c op x f = f (issued s x.th) t := by
  rcases issue_cases (s := s) (c := c) (op := op) (x := x)
    (f := fun s t => if (guard16 t x).getLsbD 0 then f s t else setThread s x.th nextPc) with h | h | ⟨t, h1, h2⟩
  · exact .inl h
  · exact .inr (.inl h)
  · by_cases g : (guard16 t x).getLsbD 0 = true
    · exact .inr (.inr ⟨t, executes_iff.2 ⟨h1, g⟩, h2.trans (if_pos g)⟩)
    · exact .inr (.inl (h2.trans (if_neg g)))

theorem keeps_issue (h : ∀ s t, Keeps s (f s t)) : Keeps s (issue s c op x f) := by
  rcases issue_cases (s := s) (c := c) (op := op) (x := x) (f := f) with g | g | ⟨t, -, g⟩ <;> rw [g]
  · exact .refl s
  · exact (keeps_issued _).trans (keeps_setThread _ _)
  · exact (keeps_issued _).trans (h _ t)

theorem keeps_issueScalar (h : ∀ s t, Keeps s (f s t)) : Keeps s (issueScalar s c op x f) :=
  keeps_issue fun _ _ => keeps_ite (fun _ => h _ _) fun _ => keeps_setThread _ _

/-! ### Commands -/

variable {n k : Nat} {y : Cmd} {g : State → Cmd → State}

theorem withCmd_starts (h : starts s n k y = true) : withCmd s n k g = g s y := by
  simp only [starts, Bool.and_eq_true, decide_eq_true_eq, beq_iff_eq] at h
  simp_all [withCmd]

theorem withHost_reads (h : reads s n k y = true) : withHost s n k g = g s y := by
  simp only [reads, Bool.and_eq_true, Bool.not_eq_true', List.all_eq_true, bne_iff_ne] at h
  have none : s.readHalts.find? (fun r => decide (r.cmd = n)) = none := by simpa using h.2
  have free : readHalted s n = false := by simpa [readHalted] using fun r hr e => absurd e (h.2 r hr)
  rw [withHost, withCmd_starts h.1.1, if_neg (by simp [h.1.2, free]), none]

theorem withStarted_underway (h : underway s n k y = true) : withStarted s n k g = g s y := by
  simp only [underway, Bool.and_eq_true, decide_eq_true_eq, beq_iff_eq] at h
  simp_all [withStarted]

theorem withCmd_cases : withCmd s n k g = s ∨ ∃ y, starts s n k y = true ∧ withCmd s n k g = g s y := by
  unfold withCmd
  split
  · rename_i y hy
    split
    · exact .inr ⟨y, by simp_all [starts], rfl⟩
    · exact .inl rfl
  · exact .inl rfl

theorem withStarted_cases : withStarted s n k g = s ∨ ∃ y, underway s n k y = true ∧ withStarted s n k g = g s y := by
  unfold withStarted
  split
  · rename_i y hy
    split
    · exact .inr ⟨y, by simp_all [underway], rfl⟩
    · exact .inl rfl
  · exact .inl rfl

end Sys2Proof.Machine
end

