-- ==== Sys2Proof/Certificates/Slice0/Obligations.lean ====
section
/-!
DEFINITION. What is stated about the block, for the provers: one Prop per statement, most of them the rules of spec/ that a
command's effect follows. "log entry n" is notes/assumptions/n.md.
-/

open Sys2Proof Sys2Proof.Machine

/-! ### The queue of commands and the step -/

/-- One step takes the command at the front of the queue and runs it on the state with the rest of the queue. -/
def Obligations.StepRunsFrontCommand : Prop :=
  ∀ (c : Instr) (rest : List Instr) (s : State), s.pending = c :: rest → step s = exec c { s with pending := rest }

/-- On an empty queue the faults owed are reported (log entry 5), partition resets end (log entry 14), an SRAM word may err (log
entry 71), and 1 µs passes on the timer units of the block and of every die in service, outside reset; the model's choice of what
an idle step is (log entry 15). -/
def Obligations.IdleStepCountsMicrosecond : Prop :=
  ∀ s r v w : State, s.pending = [] → r = reportOwed s → v = (List.range 16).foldl endReset r →
    w = (if alive r then sramTick v else r) →
    (s.owed = [] → r = s) ∧ ((∀ p, p < 16 → (part r p).resetting = false) → v = r) ∧
    (sramTick v = { v with freeCtr := v.freeCtr + 1 } ∨ ∃ e, sramTick v = sramWord { v with freeCtr := v.freeCtr + 1 } e) ∧
    (s.pins.inReset = true → step s = .next s) ∧
    (s.pins.inReset = false → ∃ t, step s = .next t ∧ t.us = s.us + 1 ∧ t.dies.length = w.dies.length ∧
      (∀ (d : Nat) (x : Die), w.dies[d]? = some x →
        t.dies[d]? = some (if dieLost w d then x else { x with us := x.us + 1 })) ∧
      t = { w with us := t.us, dies := t.dies })

/-- Every command answers a next state: the block has no fault and no refusal of its own; and no command puts a command on
the queue or takes one off it. -/
def Obligations.CommandsAnswerNext : Prop :=
  (∀ (c : Instr) (s : State), ∃ t, exec c s = .next t) ∧
  (∀ (c : Instr) (s t : State), exec c s = .next t → t.pending = s.pending)

/-! ### Orony: scalar and branch classes -/

/-- Orony operation `i` (class 0, operation `op`) writes f X Y to s[D] and goes on at the next instruction. -/
def ScalarGives (i : Orony → Instr) (op : Nat) (f : Word → Word → Word) : Prop :=
  ∀ (x : Orony) (s : State) (t : Thread), executes s 0 op x t = true →
    exec (i x) s = .next (setThread (issued s x.th) x.th fun _ => nextPc (ws t x.d (f (rs t x.a) (operandY t x))))

/-- R207: the operations of Table 6.4 (MOVI with R207's row), and W is 0 in every one of them. -/
def Obligations.ScalarResults : Prop :=
  ScalarGives .add 0x00 (fun x y => x + y) ∧ ScalarGives .sub 0x01 (fun x y => x - y) ∧
  ScalarGives .and 0x02 (fun x y => x &&& y) ∧ ScalarGives .or 0x03 (fun x y => x ||| y) ∧
  ScalarGives .xor 0x04 (fun x y => x ^^^ y) ∧
  ScalarGives .shl 0x05 (fun x y => x <<< (y.toNat % 32)) ∧ ScalarGives .shr 0x06 (fun x y => x >>> (y.toNat % 32)) ∧
  ScalarGives .sra 0x07 (fun x y => x.sshiftRight (y.toNat % 32)) ∧
  ScalarGives .mul 0x08 (fun x y => BitVec.ofNat 32 (x.toNat * y.toNat)) ∧
  ScalarGives .mulhu 0x09 (fun x y => BitVec.ofNat 32 (x.toNat * y.toNat / 2 ^ 32)) ∧
  ScalarGives .mulhs 0x0A (fun x y => BitVec.ofInt 32 (x.toInt * y.toInt / 2 ^ 32)) ∧
  ScalarGives .divu 0x0B (fun x y => if y = 0 then 0xFFFFFFFF else x / y) ∧
  ScalarGives .remu 0x0C (fun x y => if y = 0 then x else x % y) ∧
  ScalarGives .min 0x0D (fun x y => if x.toInt ≤ y.toInt then x else y) ∧
  ScalarGives .max 0x0E (fun x y => if x.toInt ≤ y.toInt then y else x) ∧
  ScalarGives .minu 0x0F (fun x y => if x.toNat ≤ y.toNat then x else y) ∧
  ScalarGives .maxu 0x10 (fun x y => if x.toNat ≤ y.toNat then y else x) ∧
  ScalarGives .slt 0x11 (fun x y => if x.toInt < y.toInt then 1 else 0) ∧
  ScalarGives .sltu 0x12 (fun x y => if x.toNat < y.toNat then 1 else 0) ∧
  ScalarGives .seq 0x13 (fun x y => if x = y then 1 else 0) ∧
  ScalarGives .movi 0x14 (fun _ y => y) ∧
  (∀ (op : Nat) (x : Orony), fieldsOk 0 op x = true → x.w = 0) ∧
  (∀ x : Orony, fieldsOk 0 0x14 x = true → x.i = true ∧ x.a = 0 ∧ x.b = 0)

/-- Branch operation `i` (class 1, operation `op`) goes on at its target where the condition holds, else at the next
instruction. -/
def BranchWhen (i : Orony → Instr) (op : Nat) (c : Thread → Orony → Prop) : Prop :=
  ∀ (x : Orony) (s : State) (t : Thread), executes s 1 op x t = true →
    (c t x → exec (i x) s = .next (setThread (issued s x.th) x.th fun _ => { t with pc := branchTarget t x.imm })) ∧
    (¬ c t x → exec (i x) s = .next (setThread (issued s x.th) x.th fun _ => nextPc t))

/-- R208: Table 6.5; a branch inside the program reaches offset + 8 × IMM, and JR the offset s[A] where R209 allows it; I and W
are 0. -/
def Obligations.BranchResults : Prop :=
  BranchWhen .br 0x00 (fun _ _ => True) ∧
  BranchWhen .beq 0x01 (fun t x => rs t x.a = rs t x.b) ∧
  BranchWhen .bne 0x02 (fun t x => rs t x.a ≠ rs t x.b) ∧
  BranchWhen .blt 0x03 (fun t x => (rs t x.a).toInt < (rs t x.b).toInt) ∧
  BranchWhen .bltu 0x04 (fun t x => (rs t x.a).toNat < (rs t x.b).toNat) ∧
  BranchWhen .bge 0x05 (fun t x => (rs t x.b).toInt ≤ (rs t x.a).toInt) ∧
  BranchWhen .bgeu 0x06 (fun t x => (rs t x.b).toNat ≤ (rs t x.a).toNat) ∧
  BranchWhen .pany 0x07 (fun t x => ∃ i, i < 16 ∧ (rp t x.a).getLsbD i = true) ∧
  BranchWhen .pall 0x08 (fun t x => ∀ i, i < 16 → (rp t x.a).getLsbD i = true) ∧
  (∀ (x : Orony) (s : State) (t : Thread), executes s 1 0x09 x t = true →
    exec (.call x) s = .next (setThread (issued s x.th) x.th fun _ =>
      { ws t x.d (BitVec.ofNat 32 (t.pc + 8)) with pc := branchTarget t x.imm })) ∧
  (∀ (t : Thread) (imm : Word), 0 ≤ (t.pc : Int) + 8 * imm.toInt → (t.pc : Int) + 8 * imm.toInt < 2 ^ 32 →
    (branchTarget t imm : Int) = (t.pc : Int) + 8 * imm.toInt) ∧
  (∀ (x : Orony) (s : State) (t : Thread), executes s 1 0x0A x t = true →
    (rs t x.a).toNat % 8 = 0 → (rs t x.a).toNat < t.progLen →
    exec (.jr x) s = .next (setThread (issued s x.th) x.th fun _ => { t with pc := (rs t x.a).toNat })) ∧
  (∀ (op : Nat) (x : Orony), fieldsOk 1 op x = true → x.i = false ∧ x.w = 0 ∧ (op = 0x0A → x.imm = 0) ∧
    (op = 0x07 ∨ op = 0x08 → x.a.toNat ≤ 7))

/-- R209: JR to an offset that is no multiple of 8, or is not below the program's length, takes the program fault JUMP_RANGE. -/
def Obligations.JumpRangeFault : Prop :=
  ∀ (x : Orony) (s : State) (t : Thread), executes s 1 0x0A x t = true →
    (rs t x.a).toNat % 8 ≠ 0 ∨ t.progLen ≤ (rs t x.a).toNat → exec (.jr x) s = .next (pfault (issued s x.th) x.th 0x09 0)

/-- FUNC of the block that a unit command names, for the units of several functions (Tables 9.3, 11.1, 14.6). -/
def unitFunc : Instr → Option Nat
  | .ctxOpen _ => some 1
  | .decodeAu _ => some 2
  | .flush _ => some 3
  | .ctxClose _ => some 4
  | .resample _ => some 1
  | .warp _ => some 2
  | .colour _ => some 3
  | .blur _ => some 4
  | .blend _ => some 5
  | .layer _ => some 1
  | .select _ => some 2
  | _ => none

/-- R205: an instruction that is guarded as a whole has no effect when bit 0 of its guard is 0: the next instruction
follows; and one guarded by the complement of p0 never executes. -/
def Obligations.GuardedExecution : Prop :=
  (∀ (i : Instr) (c op : Nat) (x : Orony) (s : State) (t : Thread), i.orony = some (c, op, x) →
     (guardedWhole c op = true ∨ unitFunc i = some (b8 (tsRead t (rs t x.a).toNat 64) 0)) →
     issues s c op x t = true → (guard16 t x).getLsbD 0 = false → exec i s = .next (setThread (issued s x.th) x.th nextPc)) ∧
  (∀ (i : Instr) (c op : Nat) (x : Orony) (s t' : State), i.orony = some (c, op, x) → x.pred = 0 → x.pneg = true →
     exec i s = .next t' → t' = s ∨ t' = setThread (issued s x.th) x.th nextPc)

/-- Of the registers, an instruction that issues moves none but its tile's count of instructions (Table 18.10), and its
Minuet's turn passes on (R198). -/
def CountsIssue (x : Orony) (s s' : State) : Prop :=
  (∀ o, (∀ n, thTile x.th = some n → o ≠ tileBase n + 0x1008 ∧ o ≠ tileBase n + 0x100C) → reg s' o = reg s o) ∧
  (∀ m, m ≠ minuetOf x.th → look (fun _ => 31) s'.lastIssue m = look (fun _ => 31) s.lastIssue m)

/-- What the scalar and branch classes leave unchanged (JR's program fault apart): only the issuing thread changes, and in
it only s[D] and the program counter, beside the count of instructions and the turn; no other thread, register, buffer, sample
or byte of host memory does. -/
def Obligations.ScalarBranchFrame : Prop :=
  ∀ (i : Instr) (c op : Nat) (x : Orony) (s s' : State), i.orony = some (c, op, x) → c ≤ 1 → ¬(c = 1 ∧ op = 0x0A) →
    exec i s = .next s' →
    s' = { s with threads := s'.threads, regs := s'.regs, lastIssue := s'.lastIssue } ∧ CountsIssue x s s' ∧
    (∀ a, look zero s'.hostMem a = look zero s.hostMem a) ∧
    (∀ th, th ≠ x.th → threadOf s' th = threadOf s th) ∧
    (∀ t, threadOf s x.th = some t → ∃ u, threadOf s' x.th = some u ∧ u = { t with s := u.s, pc := u.pc } ∧
      ∀ r, r ≠ x.d.val → rs u r = rs t r)

/-! ### Orony: vector class -/

/-- Vector operation `i` (class 2, operation `op`) writes f t e to element e of v[D] where the guard allows it, f reading the
registers as they were, and goes on at the next instruction (R205). -/
def VectorGives (i : Orony → Instr) (op : Nat) (f : Thread → Orony → Nat → Word) : Prop :=
  ∀ (x : Orony) (s : State) (t : Thread), issues s 2 op x t = true →
    exec (i x) s = .next (setThread (issued s x.th) x.th fun _ => nextPc (writeVec t (guard16 t x) x.d (f t x)))

/-- Element e of operand Y: v[B], or with I set IMM's low w bits in each subword (R206). -/
def elementY (t : Thread) (x : Orony) (e : Nat) : Word :=
  if x.i then subwords (32 / 2 ^ x.w.val) (fun _ _ => x.imm.toNat) 0 0 else rv t x.b e

/-- Each subword of w = 32, 16, 8 or 4 bits of the result is f w of the operands' subwords, modulo 2^w (R206, R210). -/
def SubwordGives (i : Orony → Instr) (op : Nat) (f : Nat → Nat → Nat → Nat) : Prop :=
  VectorGives i op fun t x e => subwords (32 / 2 ^ x.w.val) (f (32 / 2 ^ x.w.val)) (rv t x.a e) (elementY t x e)

/-- Compare `i` writes bit e of p[D]: the comparison of element e, and 0 where the guard is 0 (Table 6.6). -/
def CompareGives (i : Orony → Instr) (op : Nat) (c : Word → Word → Bool) : Prop :=
  ∀ (x : Orony) (s : State) (t : Thread), issues s 2 op x t = true →
    exec (i x) s = .next (setThread (issued s x.th) x.th fun _ => nextPc (wp t x.d
      (maskBits fun e => (guard16 t x).getLsbD e && c (rv t x.a e) (elementY t x e))))

/-- Table 6.6, integer operations, compares and moves. -/
def Obligations.VectorIntegerResults : Prop :=
  SubwordGives .vadd 0x00 (fun _ x y => x + y) ∧ SubwordGives .vsub 0x01 (fun w x y => x + 2 ^ w - y) ∧
  SubwordGives .vadds 0x02 (fun w x y => satS w (sgn w x + sgn w y)) ∧
  SubwordGives .vaddus 0x03 (fun w x y => Nat.min (2 ^ w - 1) (x + y)) ∧
  SubwordGives .vmul 0x04 (fun _ x y => x * y) ∧ SubwordGives .vmulhu 0x05 (fun w x y => x * y / 2 ^ w) ∧
  SubwordGives .vmin 0x06 (fun w x y => if sgn w y < sgn w x then y else x) ∧
  SubwordGives .vmax 0x07 (fun w x y => if sgn w x < sgn w y then y else x) ∧
  SubwordGives .vminu 0x08 (fun _ x y => Nat.min x y) ∧ SubwordGives .vmaxu 0x09 (fun _ x y => Nat.max x y) ∧
  SubwordGives .vand 0x0A (fun _ x y => x &&& y) ∧ SubwordGives .vor 0x0B (fun _ x y => x ||| y) ∧
  SubwordGives .vxor 0x0C (fun _ x y => x ^^^ y) ∧ SubwordGives .vshl 0x0D (fun w x y => x * 2 ^ (y % w)) ∧
  SubwordGives .vshr 0x0E (fun w x y => x / 2 ^ (y % w)) ∧
  SubwordGives .vsra 0x0F (fun w x y => wrapI w (sgn w x / 2 ^ (y % w))) ∧
  CompareGives .vceq 0x10 (fun x y => x = y) ∧ CompareGives .vclt 0x11 (fun x y => x.toInt < y.toInt) ∧
  CompareGives .vcltu 0x12 (fun x y => x.toNat < y.toNat) ∧
  VectorGives .vsel 0x13 (fun t x e => if (rp t (x.imm.toNat % 8)).getLsbD e then rv t x.a e else rv t x.b e) ∧
  VectorGives .vbc 0x14 (fun t x _ =>
    subwords (32 / 2 ^ x.w.val) (fun _ _ => (if x.i then x.imm else rs t x.a).toNat) 0 0) ∧
  (∀ (x : Orony) (s : State) (t : Thread), issues s 2 0x15 x t = true →
    exec (.vext x) s = .next (setThread (issued s x.th) x.th fun _ => nextPc (ws t x.d (rv t x.a x.imm.toNat)))) ∧
  (∀ (x : Orony) (s : State) (t : Thread), issues s 2 0x16 x t = true →
    exec (.vins x) s = .next (setThread (issued s x.th) x.th fun _ => nextPc
      (if (guard16 t x).getLsbD x.imm.toNat then wv t x.d x.imm.toNat (rs t x.a) else t))) ∧
  (∀ (x : Orony) (s : State) (t : Thread), issues s 2 0x17 x t = true →
    exec (.vrsum x) s = .next (setThread (issued s x.th) x.th fun _ => nextPc (ws t x.d
      (((guarded t x).map fun e => rv t x.a e).foldl (· + ·) 0))))

/-- A binary32 NaN: exponent all ones and a fraction other than 0. -/
def isNanWord (x : Word) : Bool := x.toNat / 2 ^ 23 % 256 = 255 && x.toNat % 2 ^ 23 ≠ 0

/-- Table 6.6, FP32 operations (R211): rounding, NaN results and saturation are those of the binary32 functions of the
model, whose results on NaN operands are the last three clauses. -/
def Obligations.VectorFloatResults : Prop :=
  VectorGives .vfadd 0x18 (fun t x e => f32add (rv t x.a e) (elementY t x e)) ∧
  VectorGives .vfmul 0x19 (fun t x e => f32mul (rv t x.a e) (elementY t x e)) ∧
  VectorGives .vfma 0x1A (fun t x e => f32fma (rv t x.a e) (elementY t x e) (rv t x.d e)) ∧
  VectorGives .vcvtif 0x1B (fun t x e => f32ofInt (rv t x.a e).toInt) ∧
  VectorGives .vcvtfi 0x1C (fun t x e => f32toInt (rv t x.a e)) ∧
  (∀ x y z : Word, isNanWord x = true → f32add x y = 0x7FC00000 ∧ f32mul x y = 0x7FC00000 ∧ f32fma x y z = 0x7FC00000) ∧
  (∀ x : Word, isNanWord x = true → f32toInt x = 0)

/-! ### Orony: tile store -/

/-- A load or store of n bytes at address a of the thread's region is aligned and lies below TS_BYTES (R212, R214). -/
def regionOk (t : Thread) (a n : Nat) : Bool := a % n = 0 && a + n ≤ t.tsBytes

/-- The bytes that LDS reads with W 0: the thread's region, and on a management Minuet the data region of its die, which its
threads share (R214, R236). -/
def regionBytes (s : State) (t : Thread) (a n : Nat) : List Byte :=
  match t.th with
  | .tile _ _ => tsRead t a n
  | .mgmt d _ => lookAll zero ((s.dies[d.val]?.map (·.region)).getD []) a n

/-- Loads from the thread's region and stores to it (W 0), Table 6.7: addresses (s[A] + IMM) mod 2^32, gathers and
scatters with element i of v[B] added; STVX stores in ascending element order. On a management Minuet the region is the one
that its threads share (R236). -/
def Obligations.TileStoreAccesses : Prop :=
  (∀ (x : Orony) (s : State) (t : Thread), executes s 3 0x00 x t = true → x.w = 0 →
    regionOk t (rs t x.a + x.imm).toNat 4 = true →
    exec (.lds x) s = .next (setThread (issued s x.th) x.th fun _ =>
      nextPc (ws t x.d (BitVec.ofNat 32 (leNat (regionBytes s t (rs t x.a + x.imm).toNat 4)))))) ∧
  (∀ (x : Orony) (s : State) (t : Thread), executes s 3 0x01 x t = true →
    regionOk t (rs t x.a + x.imm).toNat 4 = true →
    (∀ n k, x.th = .tile n k → exec (.sts x) s = .next (setThread (setThread (issued s x.th) x.th fun u =>
      tsWrite u (rs t x.a + x.imm).toNat (toLe 4 (rs t x.b).toNat)) x.th nextPc)) ∧
    (∀ d k, x.th = .mgmt d k → exec (.sts x) s = .next (setThread { issued s x.th with
      dies := modAt s.dies d fun y =>
        { y with region := putAll zero (rs t x.a + x.imm).toNat (toLe 4 (rs t x.b).toNat) y.region } } x.th nextPc))) ∧
  (∀ (x : Orony) (s : State) (t : Thread) (n : Nat), issues s 3 0x02 x t = true → thTile x.th = some n → x.w = 0 →
    regionOk t (rs t x.a + x.imm).toNat 64 = true →
    exec (.ldv x) s = .next (setThread (issued s x.th) x.th fun _ => nextPc (writeVec t (guard16 t x) x.d fun e =>
      wordAt (tsRead t (rs t x.a + x.imm).toNat 64) (4 * e)))) ∧
  (∀ (x : Orony) (s : State) (t : Thread) (n : Nat), issues s 3 0x03 x t = true → thTile x.th = some n →
    regionOk t (rs t x.a + x.imm).toNat 64 = true →
    exec (.stv x) s = .next (setThread (issued s x.th) x.th fun _ => nextPc (storeWords t ((guarded t x).map fun e =>
      ((rs t x.a + x.imm).toNat + 4 * e, rv t x.b e))))) ∧
  (∀ (x : Orony) (s : State) (t : Thread) (n : Nat), issues s 3 0x04 x t = true → thTile x.th = some n → x.w = 0 →
    ((guarded t x).all fun e => regionOk t (rs t x.a + x.imm + rv t x.b e).toNat 4) = true →
    exec (.ldvg x) s = .next (setThread (issued s x.th) x.th fun _ => nextPc ((guarded t x).foldl (fun u e => wv u x.d e
      (BitVec.ofNat 32 (leNat (tsRead t (rs t x.a + x.imm + rv t x.b e).toNat 4)))) t))) ∧
  (∀ (x : Orony) (s : State) (t : Thread) (n : Nat), issues s 3 0x05 x t = true → thTile x.th = some n →
    ((guarded t x).all fun e => regionOk t (rs t x.a + x.imm + rv t x.b e).toNat 4) = true →
    exec (.stvx x) s = .next (setThread (issued s x.th) x.th fun _ => nextPc (storeWords t ((guarded t x).map fun e =>
      ((rs t x.a + x.imm + rv t x.b e).toNat, rv t x.d e)))))

/-- What the vector class leaves unchanged: only the issuing thread changes, and in it only its registers and program
counter; its tile-store region, tickets and state, every other thread and every byte of host memory stay. VEXT and VRSUM
write s[D] alone, a compare p[D] alone, every other operation v[D] alone. -/
def Obligations.VectorFrame : Prop :=
  ∀ (i : Instr) (op : Nat) (x : Orony) (s s' : State), i.orony = some (2, op, x) → exec i s = .next s' →
    s' = { s with threads := s'.threads, regs := s'.regs, lastIssue := s'.lastIssue } ∧ CountsIssue x s s' ∧
    (∀ a, look zero s'.hostMem a = look zero s.hostMem a) ∧
    (∀ th, th ≠ x.th → threadOf s' th = threadOf s th) ∧
    (∀ t, threadOf s x.th = some t → ∃ u, threadOf s' x.th = some u ∧
      u = { t with pc := u.pc, s := u.s, v := u.v, p := u.p } ∧
      (∀ r, r ≠ x.d.val ∨ (op ≠ 0x15 ∧ op ≠ 0x17) → rs u r = rs t r) ∧
      (∀ r, r ≠ x.d.val ∨ ¬(0x10 ≤ op ∧ op ≤ 0x12) → rp u r = rp t r) ∧
      (∀ r e, e < 16 → r ≠ x.d.val ∨ (0x10 ≤ op ∧ op ≤ 0x12) ∨ op = 0x15 ∨ op = 0x17 → rv u r e = rv t r e) ∧
      (∀ e, e < 16 → (guard16 t x).getLsbD e = false → rv u x.d e = rv t x.d e))

/-- What the scalar stores leave unchanged: STS writes the four bytes at (s[A] + IMM) mod 2^32 of its thread's region, on a
management Minuet of its die's, and no other byte of it, no register, no other region and no byte of host memory. -/
def Obligations.ScalarStoreFrame : Prop :=
  (∀ (x : Orony) (s : State) (t : Thread) (d : Fin 4) (k : Fin 4), executes s 3 0x01 x t = true → x.th = .mgmt d k →
    regionOk t (rs t x.a + x.imm).toNat 4 = true →
    ∃ s', exec (.sts x) s = .next s' ∧
      s' = { s with threads := s'.threads, dies := s'.dies, regs := s'.regs, lastIssue := s'.lastIssue } ∧
      CountsIssue x s s' ∧ threadOf s' x.th = some { t with pc := t.pc + 8 } ∧
      (∀ th, th ≠ x.th → threadOf s' th = threadOf s th) ∧
      (∀ e, e ≠ d.val → s'.dies[e]? = s.dies[e]?) ∧
      (∀ y, s.dies[d.val]? = some y → ∃ z, s'.dies[d.val]? = some z ∧ z = { y with region := z.region } ∧
        ∀ a, outside a ((rs t x.a + x.imm).toNat, 4) = true → look zero z.region a = look zero y.region a)) ∧
  ∀ (x : Orony) (s : State) (t : Thread) (n : Nat), executes s 3 0x01 x t = true → thTile x.th = some n →
    regionOk t (rs t x.a + x.imm).toNat 4 = true →
    ∃ s' u, exec (.sts x) s = .next s' ∧ s' = { s with threads := s'.threads, regs := s'.regs, lastIssue := s'.lastIssue } ∧
      CountsIssue x s s' ∧ threadOf s' x.th = some u ∧
      u = { t with pc := t.pc + 8, region := u.region } ∧
      (∀ a, outside a ((rs t x.a + x.imm).toNat, 4) = true → look zero u.region a = look zero t.region a) ∧
      (∀ a, look zero s'.hostMem a = look zero s.hostMem a) ∧
      (∀ th, th ≠ x.th → threadOf s' th = threadOf s th)

/-- Loads from the cluster store (W 1): the bytes that stand there; a chunk whose ready token is not set waits in WAIT_CS and
the load issues anew; outside the spaces of R214 the program fault CS_RANGE. Bytes that no rule gives a content are free (log
entry 4). -/
def Obligations.ClusterStoreLoads : Prop :=
  ∀ (x : Orony) (s : State) (t : Thread) (n : Nat), x.w = 1 → thTile x.th = some n →
    (executes s 3 0x00 x t = true → (rs t x.a + x.imm).toNat % 4 = 0 →
      (∀ l, csRead (issued s x.th) t (rs t x.a + x.imm).toNat 4 = .bytes l →
        exec (.lds x) s = .next (setThread (issued s x.th) x.th fun _ =>
          nextPc (ws t x.d (wordAt l 0)))) ∧
      (∀ i b, csRead (issued s x.th) t (rs t x.a + x.imm).toNat 4 = .wait i b →
        exec (.lds x) s = .next (setThread (issued s x.th) x.th fun u => { u with state := 5, waitOn := csWait i b })) ∧
      (csRead (issued s x.th) t (rs t x.a + x.imm).toNat 4 = .range → exec (.lds x) s = .next (pfault (issued s x.th) x.th 0x03 0))) ∧
    (issues s 3 0x02 x t = true → (rs t x.a + x.imm).toNat % 64 = 0 →
      (∀ l, csRead (issued s x.th) t (rs t x.a + x.imm).toNat 64 = .bytes l →
        exec (.ldv x) s = .next (setThread (issued s x.th) x.th fun _ =>
          nextPc (writeVec t (guard16 t x) x.d fun e => wordAt l (4 * e)))) ∧
      (∀ i b, csRead (issued s x.th) t (rs t x.a + x.imm).toNat 64 = .wait i b →
        exec (.ldv x) s = .next (setThread (issued s x.th) x.th fun u => { u with state := 5, waitOn := csWait i b })) ∧
      (csRead (issued s x.th) t (rs t x.a + x.imm).toNat 64 = .range → exec (.ldv x) s = .next (pfault (issued s x.th) x.th 0x03 0)))

/-! ### Orony: buffers, DMA and tickets -/

/-- The operands of DRD and DWR fit: the sample holds the buffer, the offsets are multiples of 64, the bytes lie inside
the buffer and inside the thread's region (R215, R217). -/
def dmaOk (s : State) (t : Thread) (h off ts n : Nat) : Bool :=
  holds s t.sample h && (bufOf s h).any (fun b => off + n ≤ bufSize b) && off % 64 = 0 && ts % 64 = 0 &&
  ts + n ≤ t.tsBytes

/-- BALLOC, BREF and BFREE (R215 to R217, R555, R558); v is s with the issue counted. -/
def Obligations.BufferOperations : Prop :=
  ∀ (x : Orony) (s v : State) (t : Thread) (y : Sample), sampleOf s t.sample = some y → v = issued s x.th →
    (executes s 4 0x00 x t = true →
      holdsOf v t (x.imm.toNat % 8) + Nat.max 1 (x.imm.toNat / 256) ≤ poolOf v t (x.imm.toNat % 8) →
      (x.imm.toNat / 256 ≤ 1 → ∀ s' h, alloc v t.part (.stage y.recipe t.stage) (thDie x.th) (x.imm.toNat % 8) = some (s', h) →
        exec (.balloc x) s = .next (takeBuffer s' x.th x.d h)) ∧
      (2 ≤ x.imm.toNat / 256 → ∀ s' h,
        allocLarge v t.part (.stage y.recipe t.stage) (thDie x.th) (x.imm.toNat / 256) = some (s', h) →
        exec (.balloc x) s = .next (takeBuffer s' x.th x.d h)) ∧
      (x.imm.toNat / 256 ≤ 1 → alloc v t.part (.stage y.recipe t.stage) (thDie x.th) (x.imm.toNat % 8) = none →
        exec (.balloc x) s = .next (setThread
          { poolWait v with allocWaits := s.allocWaits ++ [⟨x.th, x.imm.toNat % 8, 1, x.d⟩] } x.th
          fun u => { u with state := 2 }))) ∧
    (executes s 4 0x00 x t = true →
      poolOf v t (x.imm.toNat % 8) < holdsOf v t (x.imm.toNat % 8) + Nat.max 1 (x.imm.toNat / 256) →
      exec (.balloc x) s = .next (pfault v x.th 0x07 0)) ∧
    (executes s 4 0x01 x t = true → holds s t.sample (rs t x.a).toNat = true →
      ∀ b, bufOf s (rs t x.a).toNat = some b →
        (b.refs < 65535 → exec (.bref x) s = .next (setThread (setSample
          (setBuf v (rs t x.a).toNat fun b => { b with refs := b.refs + 1 }) t.sample
          fun y => { y with held := y.held ++ [(ownTag t, (rs t x.a).toNat)] }) x.th nextPc)) ∧
        (65535 ≤ b.refs → exec (.bref x) s = .next (pfault v x.th 0x08 0))) ∧
    (executes s 4 0x02 x t = true → holds s t.sample (rs t x.a).toNat = true →
      exec (.bfree x) s = .next (setThread (release1 v t (rs t x.a).toNat) x.th nextPc)) ∧
    (holds s t.sample (rs t x.a).toNat = false →
      (executes s 4 0x01 x t = true → exec (.bref x) s = .next (pfault v x.th 0x04 0)) ∧
      (executes s 4 0x02 x t = true → exec (.bfree x) s = .next (pfault v x.th 0x04 0)))

/-- DRD at once where the data has landed, and deferred while it has not; DWR and DOUT at once while the ports and the route to
the buffer or the staging area are open, and deferred while they are not (a whole number of lines; a last line in part is read
first, R547); DIDX: each takes a ticket, and the tile, the memory ports' lines and the edges between two dies are counted
(R215, R217, R275, Tables 18.10 and 18.11). -/
def Obligations.DmaTransfers : Prop :=
  ∀ (x : Orony) (s v : State) (t : Thread), v = issued s x.th → ticketFree t = true →
    (executes s 4 0x03 x t = true →
      dmaOk v t (rs t x.a).toNat (rs t (x.a + 1)).toNat (rs t x.b).toNat x.imm.toNat = true →
      (bufReady v (thDie x.th) (rs t x.a).toNat (rs t (x.a + 1)).toNat x.imm.toNat = true →
        bufOutcome v (rs t x.a).toNat = (0, 0) →
        ∀ u s', readLines v (rs t x.a).toNat (rs t (x.a + 1)).toNat x.imm.toNat = (u, false) →
        s' = crossed u (hDie (rs t x.a).toNat) (thDie x.th) x.imm.toNat →
        exec (.drd x) s = .next (takeTicket (tileEvent (setThread s' x.th fun u => tsWrite u (rs t x.b).toNat
          (bufRead s' (rs t x.a).toNat (rs t (x.a + 1)).toNat x.imm.toNat)) x.th 0x010 x.imm.toNat) x.th x.d 0 false none
          fun s _ => s)) ∧
      (bufReady v (thDie x.th) (rs t x.a).toNat (rs t (x.a + 1)).toNat x.imm.toNat = false →
        exec (.drd x) s = .next (takeTicket v x.th x.d 0 false
          (some (.drd (rs t x.a).toNat (rs t (x.a + 1)).toNat (rs t x.b).toNat x.imm.toNat)) fun s _ => s))) ∧
    (executes s 4 0x04 x t = true →
      dmaOk v t (rs t x.a).toNat (rs t (x.a + 1)).toNat (rs t x.b).toNat x.imm.toNat = true →
      (bufOpen v (thDie x.th) (rs t x.a).toNat (rs t (x.a + 1)).toNat x.imm.toNat = true → x.imm.toNat % 64 = 0 →
        exec (.dwr x) s = .next (takeTicket (tileEvent (bufWrite
          (crossed v (thDie x.th) (hDie (rs t x.a).toNat) x.imm.toNat) (rs t x.a).toNat (rs t (x.a + 1)).toNat
          (tsRead t (rs t x.b).toNat x.imm.toNat)) x.th 0x018 x.imm.toNat) x.th x.d 0 true none fun s _ => s)) ∧
      (bufOpen v (thDie x.th) (rs t x.a).toNat (rs t (x.a + 1)).toNat x.imm.toNat = true →
        ∀ s', dwrNow v x.th (rs t x.a).toNat (rs t (x.a + 1)).toNat (rs t x.b).toNat x.imm.toNat = (s', false) →
        exec (.dwr x) s = .next (takeTicket s' x.th x.d 0 true none fun s _ => s)) ∧
      (bufOpen v (thDie x.th) (rs t x.a).toNat (rs t (x.a + 1)).toNat x.imm.toNat = false →
        exec (.dwr x) s = .next (takeTicket v x.th x.d 0 true
          (some (.dwr (rs t x.a).toNat (rs t (x.a + 1)).toNat (rs t x.b).toNat x.imm.toNat)) fun s _ => s))) ∧
    (executes s 4 0x05 x t = true → (rs t x.a).toNat % 64 = 0 → (rs t x.a).toNat + x.imm.toNat ≤ outBytesOf v t →
      (rs t x.b).toNat % 64 = 0 → (rs t x.b).toNat + x.imm.toNat ≤ t.tsBytes →
      (stageOpen v (thDie x.th) t.sample (rs t x.a).toNat x.imm.toNat = true → x.imm.toNat % 64 = 0 →
        exec (.dout x) s = .next (takeTicket (tileEvent (stage (crossed v (thDie x.th)
          (((stagingHandle v t.sample (rs t x.a).toNat).map hDie).getD (thDie x.th)) x.imm.toNat) t.sample (rs t x.a).toNat
          (tsRead t (rs t x.b).toNat x.imm.toNat)) x.th 0x018 x.imm.toNat) x.th x.d 0 true none fun s _ => s)) ∧
      (stageOpen v (thDie x.th) t.sample (rs t x.a).toNat x.imm.toNat = true →
        ∀ s', doutNow v x.th (rs t x.a).toNat (rs t x.b).toNat x.imm.toNat = (s', false) →
        exec (.dout x) s = .next (takeTicket s' x.th x.d 0 true none fun s _ => s)) ∧
      (stageOpen v (thDie x.th) t.sample (rs t x.a).toNat x.imm.toNat = false →
        exec (.dout x) s = .next (takeTicket v x.th x.d 0 true
          (some (.dout (rs t x.a).toNat (rs t x.b).toNat x.imm.toNat)) fun s _ => s))) ∧
    (executes s 4 0x06 x t = true → (rs t x.b).toNat % 64 = 0 → (rs t x.b).toNat + 32 * x.imm.toNat ≤ t.tsBytes →
      exec (.didx x) s = .next (takeTicket v x.th x.d 0 false
        (some (.didx (rs t x.a).toNat x.imm.toNat (rs t x.b).toNat)) fun s _ => s))

/-- R214 and R217: a scalar access to the thread's region that is misaligned takes the program fault TS_ALIGN, an aligned one
that reaches beyond TS_BYTES takes TS_RANGE (that alignment is looked at first is the model's reading, log entry 27); a DOUT whose offset
plus length exceeds OUT_BYTES takes OUT_RANGE, a DRD or DWR beyond its buffer BUF_RANGE, and one whose handle the sample does
not hold HANDLE. -/
def Obligations.RangeAndAlignmentFaults : Prop :=
  (∀ (x : Orony) (s : State) (t : Thread),
     (executes s 3 0x00 x t = true → x.w = 0 →
       ((rs t x.a + x.imm).toNat % 4 ≠ 0 → exec (.lds x) s = .next (pfault (issued s x.th) x.th 0x02 0)) ∧
       ((rs t x.a + x.imm).toNat % 4 = 0 → t.tsBytes < (rs t x.a + x.imm).toNat + 4 →
         exec (.lds x) s = .next (pfault (issued s x.th) x.th 0x01 0))) ∧
     (executes s 3 0x01 x t = true →
       ((rs t x.a + x.imm).toNat % 4 ≠ 0 → exec (.sts x) s = .next (pfault (issued s x.th) x.th 0x02 0)) ∧
       ((rs t x.a + x.imm).toNat % 4 = 0 → t.tsBytes < (rs t x.a + x.imm).toNat + 4 →
         exec (.sts x) s = .next (pfault (issued s x.th) x.th 0x01 0)))) ∧
  (∀ (x : Orony) (s : State) (t : Thread),
     (executes s 4 0x05 x t = true → (rs t x.a).toNat % 64 = 0 → outBytesOf s t < (rs t x.a).toNat + x.imm.toNat →
       exec (.dout x) s = .next (pfault (issued s x.th) x.th 0x06 0)) ∧
     (∀ b, holds s t.sample (rs t x.a).toNat = true → bufOf s (rs t x.a).toNat = some b →
       (rs t (x.a + 1)).toNat % 64 = 0 → bufSize b < (rs t (x.a + 1)).toNat + x.imm.toNat →
       (executes s 4 0x03 x t = true → exec (.drd x) s = .next (pfault (issued s x.th) x.th 0x05 0)) ∧
       (executes s 4 0x04 x t = true → exec (.dwr x) s = .next (pfault (issued s x.th) x.th 0x05 0))) ∧
     (holds s t.sample (rs t x.a).toNat = false →
       (executes s 4 0x03 x t = true → exec (.drd x) s = .next (pfault (issued s x.th) x.th 0x04 0)) ∧
       (executes s 4 0x04 x t = true → exec (.dwr x) s = .next (pfault (issued s x.th) x.th 0x04 0))))

/-- R199, Table 6.8, Table 6.9, R223: a ticket is written to s[D] and the next instruction follows; an instruction that would take
a 65th outstanding ticket waits in WAIT_TICKET; DWAIT, UWAIT and LWAIT on a ticket that has completed write its status and go
on, and on an outstanding one the thread waits in WAIT_DMA or WAIT_UNIT. Tickets numbered from 1 are the model's choice (log
entry 27). -/
def Obligations.TicketsAndWaits : Prop :=
  ((∀ (s : State) (t : Thread) (d status : Nat) (w : Bool) (op : Option UnitOp), threadOf s t.th = some t →
     (ticketFree t = true → ∃ u, threadOf (takeTicket s t.th d status w op fun s _ => s) t.th = some u ∧
       u = { t with s := u.s, pc := t.pc + 8, nextTicket := t.nextTicket + 1,
                    tickets := t.tickets ++ [⟨t.nextTicket, status, false, w, op, ((sampleOf s t.sample).map (·.fail)).getD (0, 0),
                      ((sampleOf s t.sample).map (·.cause)).getD 0⟩] } ∧
       u.s = put zero d (BitVec.ofNat 32 t.nextTicket) t.s)) ∧
   (∀ (x : Orony) (s : State) (t : Thread), ticketFree t = false →
     (executes s 4 0x04 x t = true →
       dmaOk s t (rs t x.a).toNat (rs t (x.a + 1)).toNat (rs t x.b).toNat x.imm.toNat = true →
       exec (.dwr x) s = .next (setThread (issued s x.th) x.th fun u => { u with state := 6 })) ∧
     (executes s 4 0x06 x t = true → (rs t x.b).toNat % 64 = 0 → (rs t x.b).toNat + 32 * x.imm.toNat ≤ t.tsBytes →
       exec (.didx x) s = .next (setThread (issued s x.th) x.th fun u => { u with state := 6 })))) ∧
  (∀ (x : Orony) (s : State) (t : Thread) (k : Ticket), rs t x.a ≠ 0 →
     (t.tickets.find? fun k => k.num = (rs t x.a).toNat) = some k →
     (k.done = true →
       (executes s 4 0x07 x t = true → x.i = false → exec (.dwait x) s = .next (setThread (issued s x.th) t.th fun u =>
         nextPc { ws u x.d (BitVec.ofNat 32 k.status) with state := 1 })) ∧
       (executes s 5 0x06 x t = true → exec (.uwait x) s = .next (setThread (issued s x.th) t.th fun u =>
         nextPc { ws u x.d (BitVec.ofNat 32 k.status) with state := 1 })) ∧
       (executes s 6 0x04 x t = true → exec (.lwait x) s = .next (setThread (issued s x.th) t.th fun u =>
         nextPc { ws u x.d (BitVec.ofNat 32 k.status) with state := 1 }))) ∧
     (k.done = false →
       (executes s 4 0x07 x t = true → x.i = false → exec (.dwait x) s = .next (setThread (issued s x.th) t.th fun u =>
         { u with state := 2, waitOn := (rs t x.a).toNat, waitReg := x.d })) ∧
       (executes s 5 0x06 x t = true → exec (.uwait x) s = .next (setThread (issued s x.th) t.th fun u =>
         { u with state := 3, waitOn := (rs t x.a).toNat, waitReg := x.d })) ∧
       (executes s 6 0x04 x t = true → exec (.lwait x) s = .next (setThread (issued s x.th) t.th fun u =>
         { u with state := 3, waitOn := (rs t x.a).toNat, waitReg := x.d }))))

/-! ### Orony: units and lattice -/

/-- A command or operation block: 64 bytes at a multiple of 64 inside the region, at the offset in s[A] (R219, R223). -/
def blockIn (t : Thread) (x : Orony) : Bool := (rs t x.a).toNat % 64 = 0 && (rs t x.a).toNat + 64 ≤ t.tsBytes

/-- The 64 bytes of an instruction's command or operation block. -/
def blockOf (t : Thread) (x : Orony) : List Byte := tsRead t (rs t x.a).toNat 64

/-- The thread executes a unit or lattice instruction on a block of its region with a ticket to spare. -/
def invokes (s : State) (c op : Nat) (x : Orony) (t : Thread) : Bool :=
  executes s c op x t && blockIn t x && ticketFree t

/-- A thread executes unit instruction `i` (class 5, operation `op`) on a block of function `f`: the command takes a ticket and
stands in its unit's order of issue, to be run when the ticket completes (R308, R335, R365, R436). -/
def UnitQueues (i : Orony → Instr) (op f : Nat) (w : Nat → Nat → UnitOp) : Prop :=
  ∀ (x : Orony) (s : State) (t : Thread), invokes s 5 op x t = true → b8 (blockOf t x) 0 = f →
    exec (i x) s = .next (takeTicket { issued s x.th with nextId := s.nextId + 1 } x.th x.d 0 false
      (some (w (rs t x.a).toNat s.nextId)) fun s _ => s)

/-- Ticket n of thread t, outstanding in s, stands for the unit command at block `blk`, number `seq`, in the EU's order or the
IU's; the block serves, and the command is the next (R308, R335, R365). -/
def unitTurn (s : State) (w : Nat → Nat → UnitOp) (t : Thread) (n blk seq : Nat) : Prop :=
  alive s = true ∧ threadOf s t.th = some t ∧
  (∃ st wr f c, (t.tickets.find? fun k => k.num = n) = some ⟨n, st, false, wr, some (w blk seq), f, c⟩) ∧ hostTicket s t.th n = false

/-- The entropy unit: CTX_OPEN, DECODE_AU, FLUSH and CTX_CLOSE take a ticket in the order of issue; the ticket completes with the
status that the context, the access unit or the queue gives, once no earlier command of the tile or context stands and the data
can be read, and a DECODE_AU's thread then stands at a frame boundary (R260, R308, R310 to R313, R335). What the external
standards fix is free (log entry 9). -/
def Obligations.EntropyUnitFunctions : Prop :=
  UnitQueues .ctxOpen 0x00 1 .eu ∧ UnitQueues .decodeAu 0x00 2 .eu ∧ UnitQueues .flush 0x00 3 .eu ∧
  UnitQueues .ctxClose 0x00 4 .eu ∧
  (∀ (s : State) (t : Thread) (y : Sample) (n blk seq : Nat) (l : List Byte), unitTurn s .eu t n blk seq →
    sampleOf s t.sample = some y → l = tsRead t blk 64 → euBefore s t.th y.h (b8 l 2) seq = false →
    (euBlockOk s t y l = false → exec (.ticketComplete t.th n) s =
      .next (if euFunc l = 2 then markFrame (endTicket s t.th n 5 0) t.th else endTicket s t.th n 5 0)) ∧
    (euBlockOk s t y l = true → euReady s t.th l = true →
      (euFunc l = 1 → ∀ s' st c, ctxOpen s t y l = .done s' st c →
        exec (.ticketComplete t.th n) s = .next (endTicket s' t.th n st c)) ∧
      (∀ k, ctxOf y (b8 l 2) = some k →
        (euFunc l = 2 → ∀ s' st c, decodeAu s t y k blk l = .done s' st c →
          exec (.ticketComplete t.th n) s = .next (markFrame (endTicket s' t.th n st c) t.th)) ∧
        (euFunc l = 3 → ∃ s' st c, st ≤ 1 ∧ flushCtx s t y k blk l = .done s' st c ∧
          exec (.ticketComplete t.th n) s = .next (endTicket s' t.th n st c)) ∧
        (euFunc l = 4 → exec (.ticketComplete t.th n) s = .next (endTicket (closeCtx s y k) t.th n 0 0)))))

/-- No memory port is to report a forced error, and no line is marked: reads report nothing (R548, R603). -/
def soundMemory (s : State) : Bool := fld s 0x1010 1 0 == 0 && s.superblocks.all fun x => x.badLines.isEmpty

/-- s after an image command has read its pictures: their lines are counted (Table 18.11). -/
def iuReadsDone (s : State) (t : Thread) (l : List Byte) (p : PicIn) (aux : List Byte) : State :=
  let u := (readLines s (parseIu l).src 0 (planesBytes p.cont p.sizes)).1
  if (parseIu l).func = 5 then
    (readLines u (second t aux).buf 0 (planesBytes p.cont p.sizes)).1
  else u

/-- The image unit: RESAMPLE, WARP, COLOUR, BLUR and BLEND take a ticket in the order of issue. When it is the command's turn and
every picture it reads stands whole in sound memory, the ticket completes OK, the planes that the function computes stand in
DST from byte 0 and the output's picture record at DREC of the thread's region; a block that its checks refuse completes RANGE
(R363 to R365, Tables 11.1 to 11.4). -/
def Obligations.ImageUnitFunctions : Prop :=
  UnitQueues .resample 0x02 1 .iu ∧ UnitQueues .warp 0x02 2 .iu ∧ UnitQueues .colour 0x02 3 .iu ∧
  UnitQueues .blur 0x02 4 .iu ∧ UnitQueues .blend 0x02 5 .iu ∧
  (∀ (s : State) (t : Thread) (n blk seq : Nat) (l : List Byte) (p : PicIn) (aux : List Byte), unitTurn s .iu t n blk seq →
    l = tsRead t blk 64 → p = ⟨tsRead t (parseIu l).srec 32, (parseIu l).src⟩ →
    aux = tsRead t (parseIu l).aux (auxLen (parseIu l).func) → iuBefore s t.th seq = false →
    (iuOk s t l = false → exec (.ticketComplete t.th n) s = .next (endTicket s t.th n 5 0)) ∧
    (iuOk s t l = true → soundMemory s = true →
      (∀ h, h ∈ iuReads t (parseIu l) aux → bufOutcome s h = (0, 0) ∧
        bufReady s (thDie t.th) h 0 (((bufOf s h).map bufSize).getD 0) = true) →
      bufOpen s (thDie t.th) (parseIu l).dst 0 (((bufOf s (parseIu l).dst).map bufSize).getD 0) = true →
      ∀ v, v = (mergeLine (iuReadsDone s t l p aux) (parseIu l).dst 0 (iuPlanes s t l p aux).length).1 →
      exec (.ticketComplete t.th n) s = .next (endTicket (iuWrite v t l p aux) t.th n 0 0) ∧
      v = { s with regs := v.regs } ∧
      (∀ u, bufOf s (parseIu l).dst = some u → wf zero u.data = true →
        bufRead (iuWrite v t l p aux) (parseIu l).dst 0 (iuPlanes s t l p aux).length = iuPlanes s t l p aux) ∧
      (∃ u r, threadOf (iuWrite v t l p aux) t.th = some u ∧ u = tsWrite t (parseIu l).drec r ∧ r.length = 32)))

/-- The reconstruction pipe completes RANGE for every block (log entry 21); LAYER waits deferred for the chunks of its layer and
takes what has landed; SELECT runs at once; TOKENISE takes its place at the dictionary unit that has the fewest bytes queued, and
completes with what the unit gives once no earlier command of its partition stands there and the unit's turn is its partition's
(R219, R302, R470, R490, R585). -/
def Obligations.PipeAndEncoderUnitFunctions : Prop :=
  (∀ (x : Orony) (s : State) (t : Thread), invokes s 5 0x01 x t = true →
     exec (.rp x) s = .next (takeTicket (issued s x.th) x.th x.d 5 false none fun s _ => s)) ∧
  (∀ (x : Orony) (s v : State) (t : Thread), v = issued s x.th →
     (∀ m y, invokes s 5 0x03 x t = true → (parseBls (blockOf t x)).func = 1 → layerOk v t (blockOf t x) = true →
       blsLayer v t (parseBls (blockOf t x)) = some (m, y) →
       (s.landing.find? fun b => b.cluster = clusterOf x.th && b.ready) = none →
       exec (.layer x) s = .next (takeTicket v x.th x.d 0 false (some (.layer (rs t x.a).toNat m.uid
         (((chunksOf m).zipIdx.filter fun (c, _) => c.layer = (parseBls (blockOf t x)).idx).map (·.2)))) fun s _ => s)) ∧
     (∀ s' c, invokes s 5 0x03 x t = true → b8 (blockOf t x) 0 = 2 →
       selectRun v x.th (rs t x.a).toNat = .done s' 0 c →
       exec (.select x) s = .next (takeTicket s' x.th x.d 0 false none fun s _ => s)) ∧
     (∀ s' o, invokes s 5 0x04 x t = true → duSend v t (rs t x.a).toNat = (o, s') →
       exec (.tokenise x) s = .next (takeTicket s' x.th x.d 0 false (some o) fun s _ => s) ∧
       ∃ u n, o = .tokenise (rs t x.a).toNat u n s.nextId)) ∧
  (∀ (s u : State) (t : Thread) (n blk d m seq st c : Nat), unitTurn s (fun b q => .tokenise b d m q) t n blk seq →
     (duRun s t.th blk d seq = .done u st c → exec (.ticketComplete t.th n) s = .next (endTicket u t.th n st c)) ∧
     (duBefore s t.part d seq = true ∨ duTurn s d t.part = false → exec (.ticketComplete t.th n) s = .next s))

/-- R220 to R222: CBG writes the four words of its draw to s[D] to s[D + 3], VCBG those of draws j = 0 to 3 to elements 4 j to
4 j + 3 of v[D]; a purpose that programs may not use takes PURPOSE. -/
def Obligations.CounterGeneratorDraws : Prop :=
  ∀ (x : Orony) (s : State) (t : Thread),
    (purposeOk ((rs t (x.a + 1)).toNat / 65536 % 256) = true →
      (executes s 5 0x05 x t = true → exec (.cbg x) s = .next (setThread (issued s x.th) x.th fun u =>
        nextPc (ws (ws (ws (ws u x.d ((threadDraw s t x.a 0).word 0)) (x.d + 1) ((threadDraw s t x.a 0).word 1))
          (x.d + 2) ((threadDraw s t x.a 0).word 2)) (x.d + 3) ((threadDraw s t x.a 0).word 3)))) ∧
      (executes s 5 0x07 x t = true → exec (.vcbg x) s = .next (setThread (issued s x.th) x.th fun u =>
        nextPc ((List.range 16).foldl (fun u e => wv u x.d e ((threadDraw s t x.a (e / 4)).word (e % 4))) u)))) ∧
    (purposeOk ((rs t (x.a + 1)).toNat / 65536 % 256) = false →
      (executes s 5 0x05 x t = true → exec (.cbg x) s = .next (pfault (issued s x.th) t.th 0x0A 0)) ∧
      (executes s 5 0x07 x t = true → exec (.vcbg x) s = .next (pfault (issued s x.th) t.th 0x0A 0))) ∧
    (∀ p : Nat, p < 256 → (purposeOk p = false ↔
      p = 0x00 ∨ p = 0x08 ∨ p = 0x09 ∨ p = 0x0B ∨ (0x0C ≤ p ∧ p ≤ 0x0F) ∨ (0x80 ≤ p ∧ p ≤ 0xFF)))

/-- Lattice operation `i` of kind `k` on a valid block whose operands stand in the thread's region writes the rows of C and
counts `n` cell operations, when no earlier operation of the tile waits; behind one that does it takes its place (R456, R455). -/
def LatticeGives (i : Orony → Instr) (k : Nat) (rowsB : Thread → LatBlk → List Byte) (n : LatBlk → Nat) : Prop :=
  ∀ (x : Orony) (s v : State) (t : Thread), v = issued s x.th → invokes s 6 k x t = true →
    latOk k t.tsBytes (blockOf t x) = true → (k = 0 → (parseLat (blockOf t x)).cluster = false) →
    (latBefore s x.th s.nextId = false →
      exec (i x) s = .next (takeTicket (tileEvent (setThread v x.th fun u => latWrite u (parseLat (blockOf t x)).matC
        ((List.range (parseLat (blockOf t x)).m).map
          (latRow v t k (parseLat (blockOf t x)) (rowsB t (parseLat (blockOf t x)))))) x.th 0x038
        (n (parseLat (blockOf t x)))) x.th x.d 0 false none fun s _ => s)) ∧
    (latBefore s x.th s.nextId = true →
      exec (i x) s = .next (takeTicket { v with nextId := s.nextId + 1 } x.th x.d 0 false
        (some (.lat k (rs t x.a).toNat s.nextId)) fun s _ => s))

/-- LMMA, LACT, LCVT and LRED, and LMMA whose matB stands in the cluster store, which waits deferred for chunks that are not
ready; an operand outside the space completes RANGE and C is not written (R223, R224, R456). -/
def Obligations.LatticeOperations : Prop :=
  LatticeGives .lmma 0 (fun t b => (List.range b.n).flatMap (b.matB.row t)) (fun b => cellOps b.m b.n b.k) ∧
  LatticeGives .lact 1 (fun _ _ => []) (fun _ => 0) ∧ LatticeGives .lcvt 2 (fun _ _ => []) (fun _ => 0) ∧
  (∀ (x : Orony) (s : State) (t : Thread), invokes s 6 3 x t = true → latOk 3 t.tsBytes (blockOf t x) = true →
    (latBefore s x.th s.nextId = false →
      exec (.lred x) s = .next (takeTicket (issued s x.th) x.th x.d 0 false (some (.lred (rs t x.a).toNat)) fun s n =>
        lredJoin s t n (rs t x.a).toNat)) ∧
    (latBefore s x.th s.nextId = true →
      exec (.lred x) s = .next (takeTicket { issued s x.th with nextId := s.nextId + 1 } x.th x.d 0 false
        (some (.lat 3 (rs t x.a).toNat s.nextId)) fun s _ => s))) ∧
  (∀ (x : Orony) (s v : State) (t : Thread) (b : LatBlk), v = issued s x.th → invokes s 6 0 x t = true →
    b = parseLat (blockOf t x) → latOk 0 t.tsBytes (blockOf t x) = true → b.cluster = true →
    (∀ l, csRows v t b.matB = .bytes l → latBefore s x.th s.nextId = false →
      exec (.lmma x) s = .next (takeTicket (tileEvent (setThread v x.th fun u =>
        latWrite u b.matC ((List.range b.m).map (latRow v t 0 b l))) x.th 0x038 (cellOps b.m b.n b.k)) x.th x.d 0 false none
          fun s _ => s)) ∧
    (∀ i k, csRows v t b.matB = .wait i k → exec (.lmma x) s = .next (takeTicket { v with nextId := s.nextId + 1 } x.th x.d 0
      false (some (.lat 0 (rs t x.a).toNat s.nextId)) fun s _ => s)) ∧
    (csRows v t b.matB = .range → exec (.lmma x) s = .next (takeTicket v x.th x.d 5 false none fun s _ => s))) ∧
  (∀ (x : Orony) (s : State) (t : Thread),
    (invokes s 6 0 x t = true → latOk 0 t.tsBytes (blockOf t x) = false →
      exec (.lmma x) s = .next (takeTicket (issued s x.th) x.th x.d 5 false none fun s _ => s)) ∧
    (invokes s 6 1 x t = true → latOk 1 t.tsBytes (blockOf t x) = false →
      exec (.lact x) s = .next (takeTicket (issued s x.th) x.th x.d 5 false none fun s _ => s)) ∧
    (invokes s 6 2 x t = true → latOk 2 t.tsBytes (blockOf t x) = false →
      exec (.lcvt x) s = .next (takeTicket (issued s x.th) x.th x.d 5 false none fun s _ => s)) ∧
    (invokes s 6 3 x t = true → latOk 3 t.tsBytes (blockOf t x) = false →
      exec (.lred x) s = .next (takeTicket (issued s x.th) x.th x.d 5 false none fun s _ => s)))

/-! ### Orony: barriers, system and management -/

/-- What the thread of a stage template has computed by its END; none for a thread of a recipe program (log entry 25). -/
def templateEnd (s : State) (t : Thread) : Option (Tpl TplEnd) :=
  (stageOf s t).bind fun st =>
    if (thTile t.th).isSome && t.published = 0 then runTemplate s ⟨t.th, t.sample, t.stage⟩ st.template else none

/-- BWAIT, which a token that a route change holds does not end (R14), and BPUB (R225, R226); NOP, YIELD, END, TRAP and RDSR
(Table 6.13, Table 6.10); an END of a stage template's thread also does what the template computes (log entry 25). -/
def Obligations.BarrierAndSystemOperations : Prop :=
  (∀ (x : Orony) (s : State) (t : Thread) (y : Sample), sampleOf s t.sample = some y →
     (executes s 7 0x00 x t = true →
       (y.tokens.getD x.imm.toNat 0 ≠ 0 → tokenHeld s t.sample x.imm.toNat x.th = false →
         exec (.bwait x) s = .next (setThread (issued s x.th) x.th fun u =>
           nextPc (ws u x.d (BitVec.ofNat 32 (y.tokens.getD x.imm.toNat 0))))) ∧
       (y.tokens.getD x.imm.toNat 0 = 0 ∨ tokenHeld s t.sample x.imm.toNat x.th = true →
         exec (.bwait x) s = .next (setThread (issued s x.th) x.th fun u =>
           { u with state := 4, waitOn := x.imm.toNat, waitReg := x.d }))) ∧
     (executes s 7 0x01 x t = true →
       (t.published ≠ 0 → exec (.bpub x) s = .next (pfault (issued s x.th) x.th 0x0B 0)) ∧
       (t.published = 0 → writesPending t = true → exec (.bpub x) s = .next (setThread (issued s x.th) x.th fun u =>
         { u with state := 7, waitReg := x.imm.toNat })) ∧
       (t.published = 0 → writesPending t = false → encodeParts s t = none →
         exec (.bpub x) s = .next (publishToken (tokenFrom
           (setThread (issued s x.th) t.th fun u => nextPc { u with published := x.imm.toNat, state := 1 }) t) t.sample t.stage
           x.imm.toNat)))) ∧
  (∀ (x : Orony) (s : State) (t : Thread),
     (executes s 8 0x00 x t = true → exec (.oronyNop x) s = .next (setThread (issued s x.th) x.th nextPc)) ∧
     (executes s 8 0x01 x t = true → exec (.yield x) s = .next (setThread (issued s x.th) x.th nextPc)) ∧
     (executes s 8 0x02 x t = true → templateEnd (issued s x.th) t = none →
       (outstanding t = [] → exec (.endThread x) s = .next (finishThread (issued s x.th) t)) ∧
       (outstanding t ≠ [] → exec (.endThread x) s = .next (setThread (issued s x.th) x.th fun u =>
         { u with ending := true, state := 2, waitOn := 0 }))) ∧
     (executes s 8 0x02 x t = true → ∀ o, templateEnd (issued s x.th) t = some o →
       (outstanding t = [] → exec (.endThread x) s = .next (endTemplate (issued s x.th) ⟨t.th, t.sample, t.stage⟩ o)) ∧
       (outstanding t ≠ [] → exec (.endThread x) s = .next (issued s x.th))) ∧
     (executes s 8 0x03 x t = true → exec (.trap x) s = .next (pfault (issued s x.th) x.th 0x0C (x.imm.toNat % 256))) ∧
     (executes s 8 0x04 x t = true → ∀ v, specialReg (issued s x.th) t x.imm.toNat = some v →
       exec (.rdsr x) s = .next (setThread (issued s x.th) x.th fun u => nextPc (ws u x.d (BitVec.ofNat 32 v)))) ∧
     (∀ y n, sampleOf s t.sample = some y → thTile t.th = some n →
       specialReg s t 0x00 = some (thNum t.th) ∧ specialReg s t 0x01 = some n ∧ specialReg s t 0x04 = some y.h ∧
       specialReg s t 0x05 = some (y.dsidx % 2 ^ 32) ∧ specialReg s t 0x06 = some (y.dsidx / 2 ^ 32 % 256) ∧
       specialReg s t 0x07 = some (y.epoch % 65536) ∧ specialReg s t 0x08 = some (y.pos % 2 ^ 32) ∧
       specialReg s t 0x09 = some (y.pos / 2 ^ 32 % 256) ∧ specialReg s t 0x0A = some t.stage ∧
       specialReg s t 0x0E = some t.tsBytes ∧ specialReg s t 0x0F = some t.plen))

/-- The management class (Table 6.16): register reads and writes, host memory moves as transfers with a ticket, and KICK. -/
def Obligations.ManagementOperations : Prop :=
  ∀ (x : Orony) (s : State) (t : Thread),
    (executes s 9 0x00 x t = true →
      (∀ v, peekReg (issued s x.th) (rs t x.a).toNat = some v →
        exec (.regrd x) s = .next (setThread (issued s x.th) x.th fun u => nextPc (ws u x.d v))) ∧
      (peekReg (issued s x.th) (rs t x.a).toNat = none → ∃ v, exec (.regrd x) s = .next (setThread
        (setReg (issued s x.th) 0x2C (reg (issued s x.th) 0x2C + 1)) x.th fun u => nextPc (ws u x.d v)))) ∧
    (executes s 9 0x01 x t = true →
      (∀ o, resolve s 0 (rs t x.a).toNat = .word o →
        exec (.regwr x) s = .next (writeReg (setThread (issued s x.th) x.th nextPc) (8 + thDie x.th) o none (rs t x.b))) ∧
      (∀ o b, resolve s 0 (rs t x.a).toNat = .alias_ o b → exec (.regwr x) s =
        .next (writeReg (setThread (issued s x.th) x.th nextPc) (8 + thDie x.th) o (some b) (rs t x.b)))) ∧
    (executes s 9 0x02 x t = true → ticketFree t = true → (rs t x.b).toNat % 64 = 0 →
      (rs t x.b).toNat + x.imm.toNat ≤ t.tsBytes →
      exec (.hmrd x) s = .next (takeTicket (issued s x.th) x.th x.d 0 false none fun s n =>
        { s with nextId := s.nextId + 1
                 transfers := s.transfers ++ [newTransfer s.nextId t.part 0 (.hmrd x.th n (rs t x.b).toNat
                   ((rs t x.a).toNat + 2 ^ 32 * (rs t (x.a + 1)).toNat) x.imm.toNat) x.imm.toNat] })) ∧
    (executes s 9 0x03 x t = true → ticketFree t = true → (rs t x.b).toNat % 64 = 0 →
      (rs t x.b).toNat + x.imm.toNat ≤ t.tsBytes →
      exec (.hmwr x) s = .next (takeTicket (issued s x.th) x.th x.d 0 true none fun s n =>
        { s with nextId := s.nextId + 1
                 transfers := s.transfers ++ [newTransfer s.nextId t.part 0 (.hmwr x.th n (rs t x.b).toNat
                   ((rs t x.a).toNat + 2 ^ 32 * (rs t (x.a + 1)).toNat) x.imm.toNat) x.imm.toNat] })) ∧
    (executes s 9 0x04 x t = true →
      exec (.kick x) s = .next (setThread (setDie (issued s x.th) (thDie x.th) fun y =>
        { y with kickUs := y.us, hb := y.hb + 1 }) x.th nextPc))

/-! ### Register writes -/

/-- A write of an ordinary register sets its RW fields, an RWL field too while CFG_LOCK is 0, and leaves its other bits; no other
register word changes but for the request of a save (R9). -/
def Obligations.RegisterWriteSetsFields : Prop :=
  ∀ (fn : Fin 16) (port : Fin 8) (off o : Nat) (v : Word) (s : State), accessible s fn port off (.word o) = true →
    settable s o (written s o v) (actions o v) = true → quietReg o = true → clears o v = 0 →
    exec (.registerWrite fn port off v) s = .next (stored s o (written s o v)) ∧
    (canonical s = true → reg (stored s o (written s o v)) o = (reg s o &&& ~~~(rwMask o)) ||| (v &&& rwMask o)) ∧
    (∀ o', o' ≠ o → reg (stored s o (written s o v)) o' = reg s o')

/-- s after an access of function fn that addresses no register: counted, and reported by the function (R87). -/
def urCounted (s : State) (fn : Nat) (write : Bool) : State :=
  { setReg s 0x2C (reg s 0x2C + 1) with urReports := s.urReports ++ [(fn, write)] }

/-- R87: an access that addresses no register is discarded, counted by BLK_UR_CNT and reported by its function; R86: an access
to BAR0 that is not one aligned word with every byte enable set addresses none; nor does one to a doorbell page that the
function does not own (R85). A write of a register that the function only reads changes nothing, and PF0 only reads the set-up
of a queue that an enabled partition of a VF owns (R592, Table 17.1; the model's reading, log entry 69). -/
def Obligations.UnaddressedAccessCounted : Prop :=
  (∀ (fn : Fin 16) (port : Fin 8) (off : Nat) (v : Word) (s : State), accessible s fn port off .none = true →
    exec (.registerWrite fn port off v) s = .next (urCounted s fn true)) ∧
  (∀ (fn : Fin 16) (port : Fin 8) (off o : Nat) (v : Word) (s : State), accessible s fn port off (.view o) = true →
    exec (.registerWrite fn port off v) s = .next s) ∧
  (∀ (q : Fin 64) (o : Nat) (s : State), o < 0x1000 → (regFields (queueBase q + o)).isSome = true →
    resolve s 0 (queueBase q + o) =
      if owner s q ≠ 0 ∧ partEn s (owner s q) = true then .view (queueBase q + o) else .word (queueBase q + o)) ∧
  (∀ (fn : Fin 16) (port : Fin 8) (a : BusAccess) (s : State), presented s fn port = true → a.off < barSize fn a.bar2 →
    (a.bar2 = false → (a.bytes ≠ 4 ∨ a.off % 4 ≠ 0 ∨ a.enables = false ∨ resolve s fn a.off = .none) →
      exec (.unsupportedRequest fn port a) s = .next (urCounted s fn a.write)) ∧
    (a.bar2 = true → (owner s (a.off / 0x1000) ≠ fn ∨ a.enables = false ∨ a.off % 4 ≠ 0) →
      exec (.unsupportedRequest fn port a) s = .next (urCounted s fn a.write)))

/-- R94 to R96: writing 1 to a set W1C bit of an ordinary register clears that bit alone, and a cause that is still present
sets it again at once and advances its companion counter. -/
def Obligations.WriteOneClearsBit : Prop :=
  ∀ (fn : Fin 16) (port : Fin 8) (off o b : Nat) (s : State), b < 32 → canonical s = true →
    accessible s fn port off (.word o) = true → settable s o (reg s o) 0 = true → quietReg o = true → rwMask o = 0 →
    actions o (BitVec.twoPow 32 b) = 0 → clears o (BitVec.twoPow 32 b) = BitVec.twoPow 32 b →
    (reg s o).getLsbD b = true → ∃ t, exec (.writeOneToClear fn port off (BitVec.twoPow 32 b)) s = .next t ∧
      (causeStands s o b = false → companion o b ≠ o → reg t o = reg s o &&& ~~~(BitVec.twoPow 32 b)) ∧
      (causeStands s o b = true → companion o b ≠ o → reg t o = reg s o ∧
        reg t (companion o b) = reg s (companion o b) + 1)

/-- R97 and R98: bit b of the register at offset o below 0x40000 has its own address, and a write there sets that one bit to
data bit 0 where it is RW, keeping the register's other bits. -/
def Obligations.AliasWritesOneBit : Prop :=
  (∀ (o b : Nat) (s : State), b < 32 → o % 4 = 0 → o < 0x40000 → (regFields o).isSome = true →
    resolve s 0 (0x800000 + 32 * o + 4 * b) = .alias_ o b) ∧
  (∀ (off o b : Nat) (s : State), resolve s 0 off = .alias_ o b →
    b < 32 ∧ o % 4 = 0 ∧ o < 0x40000 ∧ off = 0x800000 + (o / 4 * 32 + b) * 4) ∧
  (∀ (port : Fin 8) (off o b : Nat) (v want : Word) (s : State), b < 32 → accessible s 0 port off (.alias_ o b) = true →
    (rwMask o).getLsbD b = true → clears o (BitVec.twoPow 32 b) = 0 → actions o (BitVec.twoPow 32 b) = 0 →
    quietReg o = true →
    want = ((reg s o &&& ~~~(BitVec.twoPow 32 b)) ||| (if v.getLsbD 0 then BitVec.twoPow 32 b else 0)) →
    settable s o want 0 = true → exec (.bitAliasWrite 0 port off v) s = .next (stored s o want))

/-- R93: a write of a low half changes no register and is held for its port; a write of the high half applies both halves in
one step and uses the pending one up. -/
def Obligations.SixtyFourBitWrites : Prop :=
  (∀ (fn : Fin 16) (port : Fin 8) (off o : Nat) (v : Word) (s : State), accessible s fn port off (.word o) = true →
    unlocked s o = true → isLowHalf o = true → rwMask o ≠ 0 →
    ∃ t, exec (.lowHalfWrite fn port off v) s = .next t ∧ t.regs = s.regs ∧
      pendingLow t port o = some ((reg s o &&& ~~~(rwMask o)) ||| (v &&& rwMask o)) ∧
      (∀ port' o', lowKey port' o' ≠ lowKey port o → pendingLow t port' o' = pendingLow s port' o')) ∧
  (∀ (fn : Fin 16) (port : Fin 8) (off o : Nat) (v : Word) (s : State), accessible s fn port off (.word o) = true →
    pairSettable s port o (written s o v) = true → quietReg o = true → clears o v = 0 → actions o v = 0 →
    exec (.highHalfWrite fn port off v) s = .next (storedPair s port o (written s o v)) ∧
    pendingLow (storedPair s port o (written s o v)) port (o - 4) = none)

/-- R103: a set-up write that breaks a rule is ignored as a whole, CFG_REJ sets and BLK_CFG_REJ_ADDR takes the offset, for a
VF's write PF0's (the model's choice, log entry 47); R101 and R102: writing 1 to CFG_LOCK sets it, and once it is 1 a write
that would clear it keeps it, sets LOCK_WR and changes nothing else. -/
def Obligations.RejectedAndLockedWrites : Prop :=
  (∀ (fn : Fin 16) (port : Fin 8) (off o : Nat) (v : Word) (s : State), accessible s fn port off (.word o) = true →
     unlocked s o = true → isLowHalf o = false → isHighHalf o = false →
     rejected s o (reg s o).toNat (written s o v).toNat (2 ^ 32 * (written s o v).toNat) (actions o v).toNat = true →
     exec (.registerWrite fn port off v) s = .next (setReg (setW1c s 0x14 0 0x1C) 0x18 (BitVec.ofNat 32 o))) ∧
  (∀ (port : Fin 8) (v : Word) (s : State), presented s 0 port = true → s.fatal = false →
     (fld s 0x10 0 0 = 0 → settable s 0x10 (written s 0x10 v) 0 = true →
       exec (.cfgLock port v) s = .next (stored s 0x10 (written s 0x10 v))) ∧
     (fld s 0x10 0 0 = 1 → v.getLsbD 0 = false → s.boot.restoreRun = false →
       exec (.cfgLock port v) s = .next (setW1c s 0x14 1 0x20)))

/-- PART_CTRL, PART_KEY, PART_STEP and a Function Level Reset: a partition reset, VFp enabled, or disabled after a partition
reset; a changed key slot resets the partition, which takes the new slot as the reset ends; a changed step source, with an
arbiter deciding a coincident edge; the reset sets RESETTING, and its last step, on a tick, clears it with Q_CTRL of the owned
queues (R107, R546, R579, R580, R588, R589; that a tick ends it is the model's choice, log entry 14). -/
def Obligations.PartitionControlWrites : Prop :=
  ∀ (port : Fin 8) (p : Fin 16) (v : Word) (s : State),
    (∀ want, want = written s (partBase p) v → accessible s 0 port (partBase p) (.word (partBase p)) = true →
      settable s (partBase p) want (actions (partBase p) v) = true → clears (partBase p) v = 0 →
      (want.getLsbD 0 = (reg s (partBase p)).getLsbD 0 → (actions (partBase p) v).getLsbD 31 = true →
        exec (.partCtrlReset port p v) s = .next (partReset (stored s (partBase p) want) p)) ∧
      ((reg s (partBase p)).getLsbD 0 = false → want.getLsbD 0 = true → (actions (partBase p) v).getLsbD 31 = false →
        exec (.partCtrlEnable port p v) s = .next (setPart (stored s (partBase p) want) p fun x => { x with
          stranded := false
          onSecondary := secValid (stored s (partBase p) want) p &&
            !s.hpUp.getLsbD (primaryPort (stored s (partBase p) want) p) &&
            s.hpUp.getLsbD (secondaryPort (stored s (partBase p) want) p) })) ∧
      ((reg s (partBase p)).getLsbD 0 = true → want.getLsbD 0 = false →
        exec (.partCtrlEnable port p v) s = .next (setPart
          (partReset (setFld (stored s (partBase p) want) (partBase p) 0 0 1) p) p fun x => { x with thenOff := true }))) ∧
    (∀ o want, o = partBase p + 0x28 → want = written s o v → accessible s 0 port o (.word o) = true →
      settable s o want 0 = true → clears o v = 0 → actions o v = 0 → want ≠ reg s o →
      exec (.partKeySlot port p v) s = .next (setPart (partReset (setReg (stored s o want) o (reg s o)) p) p fun x =>
        { x with thenSlot := some (bits want.toNat 3 0) })) ∧
    (∀ o, o = partBase p + 0xC → accessible s 0 port o (.word o) = true → settable s o (written s o v) 0 = true →
      clears o v = 0 → actions o v = 0 →
      exec (.stepSrcWrite port p v none) s = .next (stored s o (written s o v))) ∧
    (∀ (e : Fin 4) (o : Nat) (u : State), o = partBase p + 0xC → u = { s with freeCtr := s.freeCtr + 1 } →
      exec (.stepSrcWrite port p v (some e)) s = .next (busWrite (edgeAt e u) 0 port o v) ∨
      exec (.stepSrcWrite port p v (some e)) s = .next (edgeAt e (busWrite u 0 port o v))) ∧
    (alive s = true → exec (.functionLevelReset p) s = .next (partReset s p)) ∧
    (canonical s = true →
      ((part s p).resetting = false → (part (partReset s p) p).resetting = true) ∧
      ((part s p).resetting = true → partReset s p = s ∧ ∃ t, endReset s p = t ∧ (part t p).resetting = false ∧
        (∀ q, q < 64 → owner s q = p → reg t (queueBase q) = 0) ∧
        ((part s p).thenOff = true → fld t (partBase p) 0 0 = 0) ∧
        (∀ k, k < 16 → (part s p).thenSlot = some k → fld t (partBase p + 0x28) 3 0 = k)))

/-- Q_CTRL: enabling SQ and CQ q sets their indices to 0 and disabling leaves them; the same for the delivery ring (R117). -/
def Obligations.QueueControlWrites : Prop :=
  ∀ (fn : Fin 16) (port : Fin 8) (q : Fin 64) (v want : Word) (s : State), want = written s (queueBase q) v →
    accessible s fn port (queueOff fn q) (.word (queueBase q)) = true →
    settable s (queueBase q) want (actions (queueBase q) v) = true → clears (queueBase q) v = 0 →
    (want.getLsbD 1 = (reg s (queueBase q)).getLsbD 1 →
      ((reg s (queueBase q)).getLsbD 0 = false → want.getLsbD 0 = true →
        exec (.qCtrlEnable fn port q v) s = .next (setQueue (stored s (queueBase q) want) q fun x =>
          { x with sqPi := 0, sqCi := 0, cqPi := 0, cqCi := 0, sqStop := false, promised := 0, mirrored := 0, marker := 0 })) ∧
      ((reg s (queueBase q)).getLsbD 0 = true → want.getLsbD 0 = false →
        exec (.qCtrlEnable fn port q v) s = .next (stored s (queueBase q) want))) ∧
    (want.getLsbD 0 = (reg s (queueBase q)).getLsbD 0 →
      ((reg s (queueBase q)).getLsbD 1 = false → want.getLsbD 1 = true →
        exec (.qCtrlDrEn fn port q v) s = .next (setQueue (stored s (queueBase q) want) q fun x =>
          { x with drPi := 0, drCi := 0, drStop := false })) ∧
      ((reg s (queueBase q)).getLsbD 1 = true → want.getLsbD 1 = false →
        exec (.qCtrlDrEn fn port q v) s = .next (stored s (queueBase q) want)))

/-- Unit controls and fault forcing: a source port comes up or goes down with every drive on it, a tile is taken out or
revived, FLT_REVIVE starts a self-test, FORCE_EN and FLT_FORCE (R233, R602, R603, R622, R623, R630, R667). -/
def Obligations.UnitControlWrites : Prop :=
  ∀ (port : Fin 8) (v want : Word) (o : Nat) (s : State), want = written s o v →
    accessible s 0 port o (.word o) = true → settable s o want (actions o v) = true → clears o v = 0 →
    (∀ d : Fin 4, o = dieBase d + 0x104 →
      ((reg s o).getLsbD 0 = false → want.getLsbD 0 = true →
        exec (.dieSpCtrlEnable port d v) s = .next (stored s o want)) ∧
      ((reg s o).getLsbD 0 = true → want.getLsbD 0 = false →
        exec (.dieSpCtrlDisable port d v) s = .next ((List.range 4).foldl (fun s i => containLink s d i)
          { stored s o want with lowRate := (stored s o want).lowRate.filter fun x => x.1 ≠ d.val }))) ∧
    (∀ t : Fin 96, o = tileBase t →
      (want.getLsbD 0 = false → exec (.tileCtrlDisable port t v) s = .next (takeOut (stored s o want) 1 t)) ∧
      (want.getLsbD 0 = true → tileLost s t = true →
        exec (.tileCtrlEnable port t v) s = .next (startRevival (setFld (stored s o want) o 0 0 0) 1 t))) ∧
    (o = 0x1018 → exec (.fltRevive port v) s = .next
      (startRevival (stored s o want) (bits (actions o v).toNat 15 12) (bits (actions o v).toNat 11 0))) ∧
    (o = 0x1000 → (want.getLsbD 0 = true → exec (.forceEn port v) s = .next (stored s o want)) ∧
      (want.getLsbD 0 = false → exec (.forceEn port v) s = .next (thermN (setReg (stored s o want) 0x1010 0)))) ∧
    (o = 0x1010 → exec (.fltForce port v) s = .next (armForce (stored s o want) (reg s o).toNat want.toNat))

/-- BLK_FW_BASE, BLK_BOOT_CTRL and PGU_ENV_MAX: the image fetch starts at once or once ports have trained; step 6 begins, with
or without the record; a save is asked for; QUIESCE; a lowered cap lowers PGU_ENV (R634, R636, R639, R644, R651). -/
def Obligations.BootAndEnvelopeWrites : Prop :=
  ∀ (port : Fin 8) (v want : Word) (o : Nat) (s t : State), want = written s o v → t = stored s o want →
    accessible s 0 port o (.word o) = true →
    (o = 0x104 → pairSettable s port o want = true → s.boot.fwRun = false →
      (s.boot.hpDone = true → exec (.fwBaseWrite port v) s = .next { storedPair s port o want with
        boot := { (storedPair s port o want).boot with fwBusy := true } }) ∧
      (s.boot.hpDone = false → exec (.fwBaseWrite port v) s = .next { storedPair s port o want with
        boot := { (storedPair s port o want).boot with fwPending := true } })) ∧
    (o = 0x110 → settable s o want (actions o v) = true →
      (v = 1 → exec (.bootRestore port v) s = .next { t with boot := { t.boot with restoreRun := true, startOnly := false } }) ∧
      (v = 2 → exec (.bootStart port v) s = .next { t with boot := { t.boot with restoreRun := true, startOnly := true } }) ∧
      (v = 4 → exec (.save port v) s = .next { t with boot := { t.boot with savePending := true } }) ∧
      (v = 8 → exec (.quiesce port v) s = .next (doQuiesce t))) ∧
    (o = 0x5004 → settable s o want 0 = true → actions o v = 0 → clears o v = 0 →
      (bits want.toNat 9 0 < fld s 0x5000 9 0 →
        exec (.pguEnvMax port v) s = .next (setFld t 0x5000 9 0 (bits want.toNat 9 0))) ∧
      (fld s 0x5000 9 0 ≤ bits want.toNat 9 0 → exec (.pguEnvMax port v) s = .next t))

/-! ### Doorbells, queues and events -/

/-- R120: an index write within the ring's bounds is accepted, counted by BLK_DBCNT and sets the index; any other is ignored:
DB_ERR sets, DB_ERR_IDX and DB_ERR_OFF record it, and no index changes. -/
def Obligations.IndexWrites : Prop :=
  (∀ (fn : Fin 16) (port : Fin 8) (q : Fin 64) (v : Word) (s : State), pageOpen s fn port q = true →
     (qEnable s q = true → (v - (queue s q).sqCi).toNat ≤ sqDepth s q →
       (v - (queue s q).sqPi).toNat ≤ ((queue s q).sqCi + BitVec.ofNat 32 (sqDepth s q) - (queue s q).sqPi).toNat →
       exec (.dbSqPi fn port q v) s = .next (setQueue (bump64 s 0x30 1) q fun x => { x with sqPi := v, sqStop := false })) ∧
     (qEnable s q = true → (v - (queue s q).cqCi).toNat ≤ ((queue s q).cqPi - (queue s q).cqCi).toNat →
       exec (.dbCqCi fn port q v) s = .next (setQueue (bump64 s 0x30 1) q fun x => { x with cqCi := v })) ∧
     (qDrEn s q = true → (v - (queue s q).drCi).toNat ≤ drDepth s q →
       (v - (queue s q).drPi).toNat ≤ ((queue s q).drCi + BitVec.ofNat 32 (drDepth s q) - (queue s q).drPi).toNat →
       exec (.dbDrPi fn port q v) s = .next (setQueue (bump64 s 0x30 1) q fun x => { x with drPi := v, drStop := false }))) ∧
  (∀ (fn : Fin 16) (port : Fin 8) (q : Fin 64) (v : Word) (s : State), pageOpen s fn port q = true →
     ((qEnable s q = false ∨ sqDepth s q < (v - (queue s q).sqCi).toNat ∨
         ((queue s q).sqCi + BitVec.ofNat 32 (sqDepth s q) - (queue s q).sqPi).toNat < (v - (queue s q).sqPi).toNat) →
       exec (.dbSqPi fn port q v) s = .next (setQueue (setW1c s (queueBase q + 4) 2 (queueBase q + 0x50)) q fun x =>
         { x with errIdx := v, errOff := 0x0 })) ∧
     ((qEnable s q = false ∨ ((queue s q).cqPi - (queue s q).cqCi).toNat < (v - (queue s q).cqCi).toNat) →
       exec (.dbCqCi fn port q v) s = .next (setQueue (setW1c s (queueBase q + 4) 2 (queueBase q + 0x50)) q fun x =>
         { x with errIdx := v, errOff := 0x4 })) ∧
     ((qDrEn s q = false ∨ drDepth s q < (v - (queue s q).drCi).toNat ∨
         ((queue s q).drCi + BitVec.ofNat 32 (drDepth s q) - (queue s q).drPi).toNat < (v - (queue s q).drPi).toNat) →
       exec (.dbDrPi fn port q v) s = .next (setQueue (setW1c s (queueBase q + 4) 2 (queueBase q + 0x50)) q fun x =>
         { x with errIdx := v, errOff := 0x8 })))

/-- R124 and R125: DB_STEP is a step event of the owning partition when its step source is the doorbell, and is ignored and
counted otherwise; a push-slot write stores its bytes and sets the mask bits of the words it covers. -/
def Obligations.StepAndPushWrites : Prop :=
  ∀ (fn : Fin 16) (port : Fin 8) (q : Fin 64) (s : State), pageOpen s fn port q = true →
    (∀ v, fld s (partBase (owner s q) + 0xC) 2 0 = 0 → exec (.dbStep fn port q v) s = .next (stepEvent
      (setQueue (bump64 s 0x30 1) q fun x => { x with stepCnt := x.stepCnt + 1 }) (owner s q))) ∧
    (∀ v, fld s (partBase (owner s q) + 0xC) 2 0 ≠ 0 → exec (.dbStep fn port q v) s = .next
      (setQueue s q fun x => { x with stepIgn := x.stepIgn + 1 })) ∧
    (∀ slot word bytes, slot < 4 → word < 16 → bytes ≠ [] → bytes.length % 4 = 0 → 4 * word + bytes.length ≤ 64 →
      exec (.pushSlotWrite fn port q (0x100 + 64 * slot + 4 * word) bytes) s = .next (setQueue s q fun x =>
        { x with push := modAt x.push slot fun y =>
          { mask := y.mask ||| BitVec.ofNat 16 ((2 ^ (bytes.length / 4) - 1) * 2 ^ word),
            bytes := putAll zero (4 * word) bytes y.bytes } }))

/-- R126, R127, R129, R130: the entry at the ring's or push slot's index is taken from the partition's queue whose turn it is,
while its CQ has a slot to promise; a whole, well-formed entry without an extension becomes an outstanding command. -/
def Obligations.EntryTaken : Prop :=
  ∀ (p : Fin 16) (s u : State) (e : List Byte) (q : Nat), alive s = true → s.boot.ready = true →
    (part s p).resetting = false → canSend s p = true → 0 < (part s p).rrLeft → (part s p).rrQueue = q →
    takable s p q = true → q < 64 → s.queues.length = 64 → s.parts.length = 16 →
    sqEntry (setPart s p fun x => { x with rrLeft := x.rrLeft - 1 }) q (queue s q).sqCi = (some e, u) →
    leAt e 1 1 < 128 → malformed e none = none →
    ∃ t y, exec (.takeSqEntry p) s = .next t ∧ t.cmds = s.cmds ++ [y] ∧ y.q = q ∧ y.id = s.nextCmd ∧
      t.nextCmd = s.nextCmd + 1 ∧ y.opcode = leAt e 0 1 ∧ y.tag = BitVec.ofNat 32 (leAt e 4 4) ∧ y.ops = operandsOf e ∧
      y.xops = [] ∧ y.started = false ∧ y.ci = (queue s q).sqCi + 1 ∧ (queue t q).sqCi = (queue s q).sqCi + 1

/-- COAL_US_EXPIRY, NOP, EVENT_WAIT and ABORT (R133, R141, R145, R147). -/
def Obligations.EventAndAbortCommands : Prop :=
  (∀ (q : Fin 64) (s : State), alive s = true → 0 < (queue s q).mirrored → fld s (queueBase q + 0x44) 7 7 = 1 →
    fld s (queueBase q + 0x44) 31 16 ≠ 0 → exec (.coalUsExpiry q) s = .next (queueIrq s q)) ∧
  (∀ (c : Nat) (s : State) (x : Cmd), starts s c 0x00 x = true → exec (.nop c) s = .next (complete s x (plain 0))) ∧
  (∀ (c : Nat) (s : State) (x : Cmd), starts s c 0x60 x = true →
    (∀ e es, (part s x.part).events = e :: es → exec (.eventWait c) s = .next
      (complete (setPart s x.part fun y => { y with events := es }) x ⟨0, 0, e.code, e.data.toNat, false⟩)) ∧
    ((part s x.part).events = [] → exec (.eventWait c) s = .next (startCmd s c))) ∧
  (∀ (c : Nat) (s : State) (x : Cmd), starts s c 0x61 x = true →
    (owner s (opBits x 1 5 0) ≠ x.part → exec (.abort c) s = .next (complete s x (plain 0x0F))) ∧
    (owner s (opBits x 1 5 0) = x.part →
      ((s.cmds.find? fun y => y.q = opBits x 1 5 0 && y.tag.toNat = opBits x 0 31 0 && y.id ≠ x.id) = none →
        exec (.abort c) s = .next (complete s x (okWith 0))) ∧
      (∀ y, (s.cmds.find? fun y => y.q = opBits x 1 5 0 && y.tag.toNat = opBits x 0 31 0 && y.id ≠ x.id) = some y →
        ¬ y.opcode ∈ [0x10, 0x11, 0x61] → exec (.abort c) s = .next
          (complete (complete (unwind s y) y ⟨0x0E, 0, x.tag.toNat, 0, false⟩) x (okWith 1)))))

/-- What the queue commands that only note something or begin a longer one leave unchanged: of host memory nothing but the
completion entry and the mirrored producer index, of the registers nothing but the host ports' byte counters, of the rings
nothing but the completion queue's; no thread, sample or epoch. -/
def Obligations.QueueCommandFrame : Prop :=
  ∀ (i : Instr) (c : Nat) (s s' : State) (x : Cmd), canonical s = true → cmdOf s c = some x →
    i ∈ ([.nop c, .eventWait c, .recipeLoad c, .fusedChain c, .recipeUnload c, .modelUnload c, .dictUnload c, .calibrate c,
      .sourceBind c, .nsGrant c, .cachePin c, .cacheUnpin c, .tensorCreate c, .tensorDestroy c, .copyLayout c, .restore c,
      .spillFree c] : List Instr) → exec i s = .next s' →
    (∀ a, outside a (cqeSpan s x.q) = true → outside a (mirrorSpan s x.q) = true →
      look zero s'.hostMem a = look zero s.hostMem a) ∧
    (∀ o, o < 0x6000 ∨ 0x6080 ≤ o → reg s' o = reg s o) ∧
    (∀ q, q ≠ cqSel s x.q → queue s' q = queue s q) ∧
    s'.threads = s.threads ∧ s'.samples = s.samples ∧ s'.epochs = s.epochs ∧ s'.tap = s.tap

/-! ### Loads and calibration -/

/-- The n bytes that a load command's operand 0 names can be read and are l; u is s after the read. -/
def imageRead (s : State) (x : Cmd) (n : Nat) (l : List Byte) (u : State) : Prop :=
  faulty s (cmdKey s x (op64 x 0)) n = false ∧ hostBytes s (cmdKey s x (op64 x 0)) n = l ∧ readReturned s x.part n = u

/-- RECIPE_LOAD, FUSED_CHAIN and RECIPE_UNLOAD: an image that passes its checks goes on to fit and admission, and one that fits
and is admitted is loaded, RESULT0 its recipe_id; a recipe that no epoch and no calibration uses is unloaded (R155, R165 to
R172, Table 5.4, Table 5.9). -/
def Obligations.RecipeLoads : Prop :=
  ∀ (c id : Nat) (s u : State) (x : Cmd) (l : List Byte),
    (∀ r, reads s c 0x01 x = true → imageRead s x (opBits x 1 31 0) l u → id = opBits x 1 63 32 → id ≠ 0 → id ≠ 0xFFFFFFFF →
      recipeOf u x.part id = none → imageBad u x.part l = none →
      r = readRecipe l x.part id (qSpace u x.q) (xopBits x 0 0 0 = 1) → programsBad l r = none → namesBad u r = none →
      calBad l id = none → exec (.recipeLoad c) s = .next (loadChecked u x r)) ∧
    (∀ r, reads s c 0x08 x = true → imageRead s x (opBits x 1 31 0) l u → id = opBits x 1 63 32 → id ≠ 0 → id ≠ 0xFFFFFFFF →
      recipeOf u x.part id = none → chainBad u x.part l = none →
      r = chainRecipe u x.part id (qSpace u x.q) l (xopBits x 0 0 0 = 1) → builtBad l r = none →
      exec (.fusedChain c) s = .next (loadChecked u x r)) ∧
    (∀ r, loadFit u r = none → (if (uncosted r).isNone then admissionStop u r else none) = none →
      loadChecked u x r = complete { u with recipes := u.recipes ++ [r] } x
        ⟨0, 0, r.id, 0, calStale u r && (uncosted r).isNone⟩) ∧
    (∀ r, starts s c 0x02 x = true → recipeOf s x.part (opBits x 0 31 0) = some r →
      ((s.epochs.all fun e => !(e.part = x.part && e.recipe = opBits x 0 31 0)) = true →
        (s.cmds.all fun k => !(k.part = x.part && k.opcode = 7 && opBits k 0 31 0 = opBits x 0 31 0)) = true →
        s.cmds.any (claimsRecipe s x.part (opBits x 0 31 0)) = false →
        exec (.recipeUnload c) s = .next (complete { s with recipes := s.recipes.filter fun r =>
          !(r.part = x.part && r.id = opBits x 0 31 0) } x (plain 0))) ∧
      ((s.epochs.any fun e => e.part = x.part && e.recipe = opBits x 0 31 0) = true ∨
        (s.cmds.any fun k => k.part = x.part && k.opcode = 7 && opBits k 0 31 0 = opBits x 0 31 0) = true ∨
        s.cmds.any (claimsRecipe s x.part (opBits x 0 31 0)) = true →
        exec (.recipeUnload c) s = .next (complete s x (plain 0x0F))))

/-- MODEL_LOAD, DICT_LOAD and their unloads: a sound image that fits is stored once for each die in service; one that no loaded
recipe names is unloaded and its copies freed (R460 to R465, R487, R488). -/
def Obligations.ModelAndDictionaryLoads : Prop :=
  ∀ (c id : Nat) (s u t : State) (x : Cmd) (l : List Byte) (cs : List (Nat × List Nat)),
    (∀ m, reads s c 0x03 x = true → imageRead s x (opBits x 1 34 0) l u → id = opBits x 2 15 0 → id ≠ 0xFFFF →
      modelOf u x.part id = none → modelBad l (chunkSize x) = none → m = readModel l u.nextId x.part id (chunkSize x) →
      partsBad l m = none → u.models.length < 8 → istoreUsed u + b32 l 24 ≤ 212992 →
      fitCopies u x.part (4 * roundUp l.length 65536) l.length = .ok (t, cs) →
      exec (.modelLoad c) s = .next (complete { t with models := t.models ++ [{ m with copies := cs }], nextId := t.nextId + 1 } x
        ⟨0, 0, id, (chunksOf m).length, false⟩)) ∧
    (∀ es, reads s c 0x05 x = true → imageRead s x (opBits x 1 34 0) l u → id = opBits x 2 15 0 → id ≠ 0xFFFF →
      dictOf u x.part id = none → dictCheck l = .ok es → u.dicts.length < 16 →
      (u.dicts.filter (·.part = x.part)).length < 8 →
      fitCopies u x.part (4 * roundUp (2 * l.length) 65536) (2 * l.length) = .ok (t, cs) →
      exec (.dictLoad c) s = .next (complete { t with dicts := t.dicts ++ [⟨x.part, id, l.length, l.take 64, b32 l 20, b32 l 24,
        b32 l 28, b32 l 32, b32 l 36, es, cs, []⟩] } x (okWith id))) ∧
    (∀ m, starts s c 0x04 x = true → modelOf s x.part (opBits x 0 15 0) = some m →
      (namedModel s x.part (opBits x 0 15 0) = false → exec (.modelUnload c) s = .next (complete (freeBufs
        { s with models := s.models.filter fun y => y.uid ≠ m.uid, landing := s.landing.filter fun b => b.model ≠ m.uid }
        (m.copies.flatMap (·.2))) x (plain 0))) ∧
      (namedModel s x.part (opBits x 0 15 0) = true → exec (.modelUnload c) s = .next (complete s x (plain 0x0F)))) ∧
    (∀ m, starts s c 0x06 x = true → dictOf s x.part (opBits x 0 15 0) = some m →
      (namedDict s x.part (opBits x 0 15 0) = false → exec (.dictUnload c) s = .next (complete (freeBufs
        { s with dicts := s.dicts.filter fun y => !(y.part = x.part && y.id = opBits x 0 15 0) }
        (m.copies.flatMap (·.2))) x (plain 0))) ∧
      (namedDict s x.part (opBits x 0 15 0) = true → exec (.dictUnload c) s = .next (complete s x (plain 0x0F))))

/-- CALIBRATE starts a run over the recipe's table; with enough measured samples it writes the 256-byte record, keeps its means
and answers OK with the count; F_LIVE and PACE recompute (R174 to R177, R181, R624). -/
def Obligations.CalibrationAndCosts : Prop :=
  (∀ (c n : Nat) (s : State) (x : Cmd) (r : Recipe) (l : List Byte), reads s c 0x07 x = true →
    recipeOf s x.part (opBits x 0 31 0) = some r → 1 ≤ opBits x 1 15 0 → opBits x 1 15 0 ≤ r.calN → n = 16 * r.calN →
    faulty s (hostKey (qSpace s x.q) r.calTable) n = false → l = hostBytes s (hostKey (qSpace s x.q) r.calTable) n →
    exec (.calibrate c) s = .next (startCmd { readReturned s x.part n with calRuns := s.calRuns ++ [⟨c, x.part, r.id, opBits x 1 15 0,
      0, 0, (List.range r.calN).map fun i => (leAt l (16 * i) 4, leAt l (16 * i + 4) 5, !zeroBytes l (16 * i + 9) (16 * i + 16)),
      xopBits x 0 15 0, op64 x 2, [], false, 0, none⟩] } c)) ∧
  (∀ (c : Nat) (m : LoadContext) (s u : State) (x : Cmd) (run : CalRun) (r : Recipe) (k : CalRec), underway s c 0x07 x = true →
    (s.calRuns.find? fun r => r.cmd = c) = some run → run.failed = none → run.damaged ≤ run.want / 4 →
    run.want ≤ run.measured.length → recipeOf s x.part run.recipe = some r → u = endCal s c →
    k = ⟨run.want, run.lanes14, m, (List.range r.stages.length).map fun g =>
      (meanOf ((run.measured.take run.want).map fun v => (v.getD g (0, 0)).1),
       meanOf ((run.measured.take run.want).map fun v => (v.getD g (0, 0)).2))⟩ →
    (faulty u (hostKey (qSpace s x.q) run.recAddr) 256 = false →
      exec (.calibrateDone c m) s = .next (complete { hostWrite u x.part (hostKey (qSpace s x.q) run.recAddr)
          (calBytes run.recipe r.stages.length k) with
        recipes := updIf (fun y => y.part = x.part && y.id = run.recipe) (fun y => { y with cal := some k })
          (hostWrite u x.part (hostKey (qSpace s x.q) run.recAddr) (calBytes run.recipe r.stages.length k)).recipes } x
        (okWith run.want))) ∧
    (∀ n, faulty u (hostKey (qSpace s x.q) run.recAddr) 256 = true → n = okBytes u (hostKey (qSpace s x.q) run.recAddr) 256 →
      exec (.calibrateDone c m) s = .next (complete (hostWrite u x.part (hostKey (qSpace s x.q) run.recAddr)
        ((calBytes run.recipe r.stages.length k).take n)) x (partialR n)))) ∧
  (∀ (mu a : Nat) (s : State), alive s = true → ∃ t, exec (.fLiveRecompute mu a) s = .next t ∧ t.memU = mu ∧ t.act = a ∧
    t.recipes.length = s.recipes.length ∧ ∀ (i g : Nat) (r : Recipe) (st : Stage), s.recipes[i]? = some r →
      r.stages[g]? = some st → ∃ r', t.recipes[i]? = some r' ∧ r'.fLive[g]? = some (liveOf (r.recent.getD g [])
        (if r.fixedCost || r.cal.isNone then (if st.template = 9 then st.declDu else st.declCost)
         else ((((r.cal.map (·.cost)).getD []).getD g (0, 0)).1 + (((r.cal.map (·.cost)).getD []).getD g (0, 0)).2)))) ∧
  (∀ (t : Fin 96) (events vec pace : Nat) (s u v : State), alive s = true → tileLost s t = false →
    pace = events / 64 * (16 - (dieAt s (t.val / 24)).gate) / 16 → u = setFld s (tileBase t + 0x1000) 15 0 pace →
    v = bump64
      (if pace % 65536 < fld u (tileBase t + 0x1000 + 4) 15 0 then setFld u (tileBase t + 0x1000 + 4) 15 0 pace else u)
      (tileBase t + 0x1000 + 0x48) events →
    (v.threads.all fun x => !(thTile x.th = some t.val && (x.state = 1 || x.tickets.any (serves v x)))) = true →
    exec (.paceRefresh t ⟨events, vec⟩) s = .next v)

/-! ### Epochs -/

/-- EPOCH_OPEN, EPOCH_RESUME and EPOCH_CLOSE on a CQ's queue: the epoch is opened at batch 0 or at the batch after the cursor's,
once its table, recipe, operands, fit and admission have passed, and the command completes as its first sample starts; a close
without DRAIN ends it at once (R144, R256, R498, R532 to R535, R537). -/
def Obligations.EpochCommands : Prop :=
  ∀ (c : Nat) (s u : State) (x : Cmd) (r : Recipe) (l : List Byte) (e : Epoch),
    (reads s c 0x10 x = true → queueTaken s x.q c = false → qDrEn s x.q = true → recipeOf s x.part (opBits x 0 31 0) = some r →
      readTable s x = .ok l → u = readReturned s x.part l.length → stepSix l r (opBits x 5 12 0) (xopBits x 0 1 0) = none →
      epochFit u r = none → admissionStop u r = none → modeOf r (xopBits x 0 1 0) ≠ 2 →
      e = newEpoch u x r l (opBits x 0 47 32) (opBits x 3 40 0) 0 (BitVec.ofNat 128 (op64 x 2 * 2 ^ 64 + op64 x 1)) →
      exec (.epochOpen c) s = .next (settle (openBatch { startCmd u x.id with
        epochs := u.epochs ++ [{ e with opening := some (x.id, 0, 0, calStale u r) }] } x.q 0) x.q)) ∧
    (∀ (k : List Byte) (seed : BitVec 128) (logs : List LogRec),
      reads s c 0x11 x = true → queueTaken s x.q c = false → qDrEn s x.q = true → readTable s x = .ok l →
      u = readReturned s x.part l.length → faulty u (cmdKey u x (op64 x 0)) 128 = false →
      k = hostBytes u (cmdKey u x (op64 x 0)) 128 → leAt k 0 4 = 0x52535543 → leAt k 4 1 = 3 → leAt k 124 4 = crc32c (k.take 124) →
      recipeOf u x.part (leAt k 8 4) = some r → bitN (leAt k 12 1) 5 = false →
      seed = BitVec.ofNat 128 (op64 x 2 * 2 ^ 64 + op64 x 1) → leAt k 40 8 = keyHash seed (tableCrc l) →
      leAt k 14 2 = opBits x 5 12 0 →
      readLogs u (qSpace u x.q) (leAt k 48 8) (leAt k 56 1) (leAt k 72 8) (leAt k 64 8 - leAt k 72 8) = some logs →
      stepSix l r (opBits x 5 12 0) (xopBits x 0 1 0) = none → epochFit u r = none → admissionStop u r = none →
      ∃ e' t, exec (.epochResume c) s = .next (settle (openBatch t x.q (leAt k 16 8 + 1)) x.q) ∧
        t = { startCmd u x.id with epochs := u.epochs ++ [e'] } ∧ e'.opening = some (x.id, 0, 0, calStale u r) ∧
        e'.q = x.q ∧ e'.seed = seed ∧ e'.recipe = r.id ∧ e'.n = leAt k 32 6 ∧
        e'.num = leAt k 6 2 ∧ e'.first = leAt k 16 8 + 1 ∧ e'.logHead = leAt k 64 8 ∧ e'.logFloor = leAt k 72 8 ∧
        e'.logLive = logs ∧ e'.delivered = leAt k 80 8 ∧ e'.droppedN = leAt k 88 8 ∧ e'.deferredN = leAt k 96 8) ∧
    (starts s c 0x12 x = true → epochOf s x.q = some e →
      (opBits x 0 0 0 = 1 → exec (.epochClose c) s = .next (startCmd s c)) ∧
      (opBits x 0 0 0 ≠ 1 → exec (.epochClose c) s = .next (finishClose (complete (endEpoch (closeOpening s x.q) x.q) x
        (okWith (lastReleased e))) x.q (lastReleased e) 1))) ∧
    (∀ (q : Nat) (r0 r1 : Nat) (cal : Bool), epochOf s q = some e → e.opening = some (c, r0, r1, cal) → cmdOf s c = some x →
      (∃ y, y ∈ s.samples ∧ ofEpoch q y = true ∧ y.started = true) →
      finishOpen s q = complete (setEpoch s q fun e => { e with opening := none }) x ⟨0, 0, r0, r1, cal⟩)

/-! ### Sources and drives -/

/-- SOURCE_BIND, SOURCE_UNBIND with its end, and NS_GRANT (R263, R266, R267, Table 8.1); a drive arrives on an enabled empty
link, becomes available or unusable, and leaves on removal or containment (R55 to R59). -/
def Obligations.SourcesAndDrives : Prop :=
  (∀ (c id : Nat) (s : State) (x : Cmd), id = opBits x 0 31 0 →
     (∀ k ms, starts s c 0x20 x = true → isBound s x.part id = false → idsSpent s x.part = false →
       ms = (if xopBits x 0 15 0 = 0 then (if opBits x 0 39 32 = 1 then 10 else 50) else xopBits x 0 15 0) →
       (opBits x 0 39 32 = 1 ∧ k = .host (op64 x 1) (opBits x 2 47 0) (qSpace s x.q) ∨
        opBits x 0 39 32 ≠ 1 ∧ ∃ d n, linkPresent s (opBits x 1 33 32) (opBits x 1 35 34) = true ∧
         (x.part = 0 ∨ s.grants.contains ⟨x.part, opBits x 1 33 32, opBits x 1 35 34, BitVec.ofNat 32 (opBits x 1 31 0)⟩ = true) ∧
         driveOf s (opBits x 1 33 32) (opBits x 1 35 34) = some d ∧ d.state = .available ∧
         (d.nss.find? fun n => n.nsid = BitVec.ofNat 32 (opBits x 1 31 0)) = some n ∧
         k = .nvme (opBits x 1 33 32) (opBits x 1 35 34) (BitVec.ofNat 32 (opBits x 1 31 0)) n.lba n.blocks) →
       exec (.sourceBind c) s = .next (complete { s with
         sources := (s.sources.filter fun y => !(y.part = x.part && y.id = id)) ++
           [⟨x.part, id, k, ms, if x.xops.isEmpty then 2 else xopBits x 1 1 0, none, false⟩]
         copies := s.copies.filter fun y => !(y.part = x.part && y.id = id) } x (plain 0))) ∧
     (starts s c 0x21 x = true → isBound s x.part id = true → (openSource s x.part id).isSome = true →
       exec (.sourceUnbind c) s = .next (startCmd { dropEntries s x.part (fun e => e.src = id) with
         sources := updIf (fun y => y.part = x.part && y.id = id) (fun y => { y with unbinding := some c })
           (dropEntries s x.part fun e => e.src = id).sources } c)) ∧
     (∀ y, underway s c 0x21 x = true → (s.sources.find? fun y => y.unbinding = some c) = some y →
       (s.fetches.all fun f => !(f.part = x.part && f.src = y.id && !f.ended)) = true →
       copyOf (dropEntries s x.part fun e => e.src = y.id) x.part y.id = none →
       ∃ t, exec (.sourceUnbindDrained c) s = .next (complete t x (plain 0)) ∧
         t = setPart { dropEntries s x.part (fun e => e.src = y.id) with
               sources := (dropEntries s x.part fun e => e.src = y.id).sources.filter fun z => z.unbinding ≠ some c } x.part
             (fun z => { z with pins := z.pins.filter (· ≠ y.id) })) ∧
     (∀ g d, starts s c 0x22 x = true → x.part = 0 →
       g = ⟨opBits x 0 3 0, opBits x 0 5 4, opBits x 0 7 6, BitVec.ofNat 32 (opBits x 0 63 32)⟩ → g.part ≠ 0 →
       linkPresent s g.sp g.link = true → driveOf s g.sp g.link = some d → d.state = .available →
       (d.nss.any fun n => n.nsid = g.nsid) = true → opBits x 0 8 8 = 0 →
       exec (.nsGrant c) s = .next (complete { s with grants := s.grants.filter (· ≠ g) ++ [g] } x (plain 0)))) ∧
  (∀ (sp link : Fin 4) (s : State),
     (∀ (a : LinkTrain) (u : State), s.pins.inReset = false → linkOn s sp link = true → driveOf s sp link = none →
       (isPresent s sp link = true ∧ u = s ∨ isPresent s sp link = false ∧ 10 ≤ a.stableMs ∧ u = setPresent s sp link true) →
       (16 ≤ a.gtps → exec (.driveArrival sp link a) s = .next { u with
         lowRate := s.lowRate.filter (· ≠ (sp.val, link.val)), drives := s.drives ++ [⟨sp, link, .starting, 0, []⟩] }) ∧
       (a.gtps < 16 → exec (.driveArrival sp link a) s = .next { u with
         lowRate := s.lowRate.filter (· ≠ (sp.val, link.val)) ++ [(sp.val, link.val)] })) ∧
     (∀ a : LinkTrain, isPresent s sp link = false → a.stableMs < 1 → exec (.driveArrival sp link a) s = .next s) ∧
     (∀ d, alive s = true → driveOf s sp link = some d → d.state = .starting →
       (∀ mdts nss, exec (.driveReady sp link (.ready mdts nss)) s = .next (postEvent (setDrive s sp link fun d => { d with
         state := .available, mdts := Nat.min mdts 1048576
         nss := (nss.filter fun n => n.lba = 512 || n.lba = 4096).take 32 }) 0 1 (sp.val + 4 * link.val))) ∧
       (∀ (step : Byte) (sf : BitVec 15), 2 ≤ step.toNat → step.toNat ≤ 5 →
         exec (.driveReady sp link (.failed step sf)) s = .next (driveUnusable s sp link step.toNat sf.toNat)) ∧
       exec (.driveReadyTimeout sp link) s = .next (driveUnusable s sp link 1 0)) ∧
     (alive s = true → (driveOf s sp link).isSome = true →
       exec (.driveRemoval sp ⟨link, none⟩) s = .next
         (raise (containLink s sp link) ⟨9, false, sp, none, 6, 4 * sp.val + link.val⟩) ∧
       (∀ n u, 10 ≤ n → u = { setPresent s sp link false with lowRate := s.lowRate.filter (· ≠ (sp.val, link.val)) } →
         exec (.driveRemoval sp ⟨link, some n⟩) s = .next
           (raise (containLink u sp link) ⟨9, false, sp, none, 6, 4 * sp.val + link.val⟩)) ∧
       (∀ n, n < 1 → exec (.driveRemoval sp ⟨link, some n⟩) s = .next s) ∧
       exec (.downstreamPortContainment sp link) s = .next
         (raise (containLink s sp link) ⟨9, false, sp, none, 6, 4 * sp.val + link.val⟩)))

/-! ### Cache -/

/-- TRANSCODE, its end and its progress time-out (R350 to R359, Table 10.5): what the encoder puts out is a free value (log entry
9), and so is the work that a time-out reports (log entry 4); CACHE_RESERVE, CACHE_PIN, CACHE_UNPIN, CACHE_EVICT and the end of
a copy's regeneration (R343 to R349, R361). -/
def Obligations.TranscodeAndCacheCommands : Prop :=
  (∀ (c id n : Nat) (s u : State) (x : Cmd) (l : List Byte) (r : TranscodeRun),
     (∀ t k, reads s c 0x30 x = true → id = opBits x 0 31 0 → n = 64 + 8 * opBits x 2 23 0 → isBound s x.part id = false →
       id ≠ 0xFFFFFFFF → idsSpent s x.part = false →
       copyCount s x.part + (s.transcodes.filter fun k => k.part = x.part).length < 4096 →
       faulty s (cmdKey s x (op64 x 1)) n = false → l = hostBytes s (cmdKey s x (op64 x 1)) n →
       headOk l (opBits x 2 23 0) = true → isBound s x.part (leAt l 0 4) = true → mayTake s x.part = true →
       encoderPlace s x.part (leAt l 0 4) (leAt l 4 6) (32 * leAt l 12 4) = some (t, k) → u = readReturned s x.part l.length →
       exec (.transcode c) s = .next (startCmd { u with
         threads := u.threads ++ [encoderThread x.part (transcodeTag c) t k]
         transcodes := u.transcodes ++
           [⟨c, x.part, id, l ++ toLe 8 (if x.xops.isEmpty then 2 ^ 21 else xopBits x 0 63 0)⟩] } c)) ∧
     (∀ l th, underway s c 0x30 x = true → (s.transcodes.find? fun r => r.cmd = c) = some r →
       encoderOf s (transcodeTag c) = some th →
       (∀ i config aus, inputAus x.part (thDie th) ⟨s, l, 0⟩ r.regen = .got i (config, aus) →
         exec (.transcodeDone c (.read l)) s = .next (finishTranscode i.s x r th config aus)) ∧
       (∀ v t, inputAus x.part (thDie th) ⟨s, l, 0⟩ r.regen = .stop v t →
         exec (.transcodeDone c (.read l)) s = .next (complete (endTranscode v c) x t))) ∧
     (∀ th config aus pics, pics = (transcodePics r.regen config aus).pics → (leAt r.regen 16 1 = 7 → ffv1Ok config = true) →
       inputEnds (runSet r.regen).accept pics = none →
       u = tileEvent (tileEvent (tileEvent (bump64 s 0x6188 aus.length) th 0x020 (transcodePics r.regen config aus).eu) th 0x028
         (transcodePics r.regen config aus).rp) th 0x050 aus.length →
       isBound u x.part r.id = false → idsSpent u x.part = false → copyCount u x.part < 4096 →
       finishTranscode s x r th config aus = keepTranscode u x r (thDie th) (runSet r.regen)
         (encodeAll (runSet r.regen) (runKeys r.regen) pics)
         (pics.filter fun p => p.absent || p.cause ≠ 0).length) ∧
     (∀ src off th, underway s c 0x30 x = true → (s.transcodes.find? fun r => r.cmd = c) = some r →
       encoderOf s (transcodeTag c) = some th →
       exec (.transcodeDone c (.sourceTimeout src off)) s =
         .next (complete (endTranscode s c) x ⟨0x05, src.toNat % 65536, off, 0, false⟩) ∧
       exec (.transcodeDone c (.sourceGone src)) s =
         .next (complete (endTranscode s c) x ⟨0x06, src.toNat % 65536, 0, 0, false⟩)) ∧
     (underway s c 0x30 x = true → ∃ v : Word, exec (.transcodeProgressTimeout c) s = .next
       (complete (endTranscode { s with freeCtr := s.freeCtr + 1 } c) x ⟨0x0C, 0, v.toNat, 0, false⟩))) ∧
  (∀ (c id : Nat) (s : State) (x : Cmd) (pins : List Nat), id = opBits x 0 31 0 → pins = (part s x.part).pins →
     (∀ new, starts s c 0x31 x = true → new = opBits x 0 19 0 → new ≤ fld s (partBase x.part + 0x1C) 19 0 →
       new ≤ (part s x.part).cacheMib + freeForCache s / 2 ^ 20 →
       mibUp (pinnedCharge s x.part) ≤ new → ∃ t, t = setPart (evictAll s x.part (new * 2 ^ 20)) x.part
         (fun y => { y with cacheMib := new, cacheBar := none }) ∧ exec (.cacheReserve c) s = .next (complete t x (reserveOk t x.part))) ∧
     (starts s c 0x32 x = true → isBound s x.part id = true →
       (isCopy s x.part id = true ∨ id ∈ pins → exec (.cachePin c) s = .next (complete s x (plain 0))) ∧
       (isCopy s x.part id = false → id ∉ pins → pins.length < 1024 → exec (.cachePin c) s = .next
         (complete (setPart s x.part fun y => { y with pins := y.pins ++ [id] }) x (plain 0)))) ∧
     (starts s c 0x33 x = true → isBound s x.part id = true → isCopy s x.part id = false →
       exec (.cacheUnpin c) s = .next
         (complete (setPart s x.part fun y => { y with pins := y.pins.filter (· ≠ id) }) x (plain 0))) ∧
     (starts s c 0x34 x = true →
       (opBits x 1 0 0 = 1 → ∃ t, t = dropEntries s x.part (fun _ => true) ∧ exec (.cacheEvict c) s = .next
         (complete ((t.copies.filter fun k => k.part = x.part).foldl dropCopy t) x (plain 0))) ∧
       (opBits x 1 0 0 ≠ 1 → isBound s x.part id = true → ∀ t, t = dropEntries s x.part (fun e => e.src = id) →
         (copyOf t x.part id = none → exec (.cacheEvict c) s = .next (complete t x (plain 0))) ∧
         (∀ k, copyOf t x.part id = some k → exec (.cacheEvict c) s = .next (complete (dropCopy t k) x (plain 0))))) ∧
     (∀ (p : Fin 16) (cp : Nat) (k : CopySource) (t : State) (th : ThreadRef) (l : List SourceRead), copyOf s p cp = some k →
       alive s = true → k.regenerating = true → k.failed = none → encoderOf s (regenTag p cp) = some th →
       (∀ i config aus, inputAus p (thDie th) ⟨s, l, 0⟩ k.regen = .got i (config, aus) →
         exec (.copyRegenerationEnd p cp (.read l)) s = .next (regenerated i.s k th config aus)) ∧
       (∀ v r, inputAus p (thDie th) ⟨s, l, 0⟩ k.regen = .stop v r →
         exec (.copyRegenerationEnd p cp (.read l)) s =
           .next (failCopy v k (if r.status = 5 then 3 else if r.status = 4 then 4 else 2))) ∧
       (∀ (config : List Byte) (aus : List Config.Au) (pics : List CodedPic) (data : List Byte) (die : Nat) (hs : List Nat),
         pics = encodeAll (runSet k.regen) (runKeys k.regen) (transcodePics k.regen config aus).pics →
         data = copyBytes k.id (pics.map (·.entry)) → (leAt k.regen 16 1 = 7 → ffv1Ok config = true) →
         inputEnds (runSet k.regen).accept (transcodePics k.regen config aus).pics = none →
         cacheBufs s k.part (thDie th) data.length = some (t, die, hs) →
         regenerated s k th config aus = setCopy (freeThread (markWritten t data.length hs) th) k fun y =>
           { y with bufs := hs, die := die, data := data, pictures := pics.length, regenerating := false
                    exact_ := exactOf (runSet k.regen) pics }) ∧
       (∀ src off, exec (.copyRegenerationEnd p cp (.sourceTimeout src off)) s = .next (failCopy s k 3)) ∧
       (∀ src, exec (.copyRegenerationEnd p cp (.sourceGone src)) s = .next (failCopy s k 2))))

/-! ### Tensors and spills -/

/-- TENSOR_CREATE hands out the lowest free slot (the model's choice, log entry 34) with its generation, TENSOR_DESTROY ends once
no earlier command names the handle (R403, R406 to R408); COPY, COPY_LAYOUT, GATHER and SCATTER on two tensors of one type, the
destination writable, become a transfer of the elements their lists name, and two slices of COPY that meet are refused (R409
to R417, R422). -/
def Obligations.TensorCommands : Prop :=
  (∀ (c i : Nat) (s u : State) (x : Cmd) (l : List Byte) (y : Tensor),
     (reads s c 0x40 x = true → imageRead s x 128 l u → tensorBad l = none →
       ((parseDesc l).ro = true ∨ xopBits x 0 0 0 = 1 ∨ aliasAt (parseDesc l) = none) →
       firstFrom (fun i => !u.tensors.any fun y => y.slot = i) 65536 0 = some i →
       (u.tensors.filter (·.part = x.part)).length < 16384 →
       y = ⟨x.part, i, look (fun _ => 0) u.tensorGens i, parseDesc l, xopBits x 0 0 0 = 1, qSpace u x.q, none⟩ →
       exec (.tensorCreate c) s = .next (complete { u with
         tensors := u.tensors ++ [y]
         tensorGens := put (fun _ => 0) i ((look (fun _ => 0) u.tensorGens i + 1) % 2 ^ 32) u.tensorGens } x
         (okWith (tensorHandle y)))) ∧
     (∀ d, reads s c 0x40 x = true → imageRead s x 128 l u → tensorBad l = none → (parseDesc l).ro = false →
       xopBits x 0 0 0 ≠ 1 → aliasAt (parseDesc l) = some d →
       exec (.tensorCreate c) s = .next (complete u x ⟨0x08, d, 0, 0, false⟩)) ∧
     (starts s c 0x41 x = true → namedTensor s x (op64 x 0) = some y →
       exec (.tensorDestroy c) s = .next (startCmd { s with
         tensors := updIf (fun z => z.slot = y.slot && z.gen = y.gen) (fun z => { z with dying := some x.id }) s.tensors } c)) ∧
     (underway s c 0x41 x = true →
       (s.cmds.all fun y => !(y.part = x.part && y.id < x.id && namesTensor y (op64 x 0))) = true →
       exec (.tensorDestroyDrained c) s = .next (complete { s with
         tensors := s.tensors.filter fun t => !(t.part = x.part && tensorHandle t = op64 x 0) } x (plain 0)))) ∧
  (∀ (c : Nat) (s u : State) (x : Cmd) (f t : Tensor) (l : List Byte),
     namedTensor s x (op64 x 0) = some f → namedTensor s x (op64 x 1) = some t → t.desc.ro = false →
     f.desc.etype = t.desc.etype →
     (reads s c 0x42 x = true → sameLayout f.desc t.desc = true →
       faulty s (cmdKey s x (op64 x 2)) (160 * opBits x 3 15 0) = false →
       l = hostBytes s (cmdKey s x (op64 x 2)) (160 * opBits x 3 15 0) → u = readReturned s x.part (160 * opBits x 3 15 0) →
       (∀ i, i < opBits x 3 15 0 → sliceBad f.desc t.desc (sliceB l (160 * i) 160) = []) →
       ((∀ (i j : Nat) (a b : Slice), i < j → (slicesOf l)[i]? = some a → (slicesOf l)[j]? = some b →
           boxesMeet a.reg a.regN b.reg b.regN = false) →
         exec (.copy c) s = .next (startCopy u x (.copy l) f t)) ∧
       (∀ (i j : Nat) (a b : Slice), i < j → j < opBits x 3 15 0 → (slicesOf l)[i]? = some a → (slicesOf l)[j]? = some b →
           boxesMeet a.reg a.regN b.reg b.regN = true → ∃ (i' j' : Nat) (a' b' : Slice), i' < j' ∧ j' ≤ j ∧
           (slicesOf l)[i']? = some a' ∧ (slicesOf l)[j']? = some b' ∧ boxesMeet a'.reg a'.regN b'.reg b'.regN = true ∧
           exec (.copy c) s = .next (complete u x ⟨0x09, i', j', 0, false⟩))) ∧
     (starts s c 0x43 x = true → f.desc.extent = t.desc.extent →
       exec (.copyLayout c) s = .next (startCopy s x .copyLayout f t)) ∧
     (sameLayout f.desc t.desc = true → ∀ n, n = 64 + 48 * opBits x 3 23 0 →
       faulty s (cmdKey s x (op64 x 2)) n = false → l = hostBytes s (cmdKey s x (op64 x 2)) n → u = readReturned s x.part n →
       coordBad t.desc l = false →
       (reads s c 0x44 x = true → (∀ (i j : Nat) (a b : Box), i < j → (gatherBoxes f.desc t.desc l)[i]? = some a →
           (gatherBoxes f.desc t.desc l)[j]? = some b → boxesMeet a.lo a.n b.lo b.n = false) →
         exec (.gather c) s = .next (startCopy u x (.gather l) f t)) ∧
       (reads s c 0x45 x = true → singleLane x t = true ∨ (∀ (i j : Nat) (a b : Box), i < j →
           (gatherBoxes f.desc t.desc l)[i]? = some a → (gatherBoxes f.desc t.desc l)[j]? = some b →
           a.dst ≠ b.dst ∧ boxesMeet a.lo a.n b.lo b.n = false) →
         exec (.scatter c) s = .next (startCopy u x (.scatter l) f t))))

/-- SPILL reserves its copies and becomes a transfer; RESTORE of a held spill becomes one back; SPILL_FREE ends once no earlier
command names the handle, and frees the copies (R559 to R568). -/
def Obligations.SpillCommands : Prop :=
  ∀ (c n copies worst i : Nat) (s t : State) (x : Cmd) (y : Spill) (l : List (Nat × List Nat)),
    (starts s c 0x50 x = true → n = opBits x 1 39 0 → copies = 1 + opBits x 2 8 8 → worst = spillWorst (opBits x 2 3 0) n →
      op64 x 0 + n ≤ 2 ^ 64 →
      spillCharge s x.part + roundUp worst 4096 * copies ≤ fld s (partBase x.part + 0x20) 19 0 * 2 ^ 20 →
      (s.spills.filter (·.part = x.part)).length + ((spillsRunning s).filter (·.part = x.part)).length < 65536 →
      s.spills.length + (spillsRunning s).length < 262144 → reserveCopies s x.part worst copies [] = (t, l) →
      l.length = copies → i = t.nextId →
      exec (.spill c) s = .next (startCmd { t with
        nextId := t.nextId + 1
        transfers := t.transfers ++ [{ newTransfer i x.part c .spill n with bufs := l }] } c)) ∧
    (starts s c 0x51 x = true → namedSpill s x (op64 x 0) = some y → opBits x 2 39 0 = y.bytes → y.copies ≠ [] →
      i = s.nextId → exec (.restore c) s = .next (startCmd { s with
        nextId := s.nextId + 1
        transfers := s.transfers ++ [newTransfer i x.part c .restore y.bytes] } c)) ∧
    (starts s c 0x52 x = true → namedSpill s x (op64 x 0) = some y →
      exec (.spillFree c) s = .next (startCmd (setSpill s y fun z => { z with dying := some x.id }) c)) ∧
    (underway s c 0x52 x = true → (s.cmds.all fun y =>
        !(y.part = x.part && y.id < x.id && [0x51, 0x52].contains y.opcode && op64 y 0 = op64 x 0)) = true →
      exec (.spillFreeDrained c) s = .next (complete (freeAfter
        { s with spills := s.spills.filter fun y => !(y.part = x.part && spillHandle y = op64 x 0) } x.part
        ((s.spills.filter fun y => y.part = x.part && spillHandle y = op64 x 0).flatMap fun y => y.copies.flatMap (·.bufs))) x
        (plain 0))) ∧
    (∀ slot, alive s = true → (s.spills.find? fun y => y.slot = slot && y.copies.any (·.rebuilding)) = some y →
      exec (.spillCopyRebuildEnd slot) s = .next (setSpill (((y.copies.filter (·.rebuilding)).flatMap (·.bufs)).foldl
          (fun s h => markWritten s (((bufOf s h).map bufSize).getD 0) [h]) s) y
        fun z => { z with copies := z.copies.map fun c => { c with rebuilding := false } }))

/-! ### Transfers and host ports -/

/-- A transfer whose last request completes moves what is left and its owner completes, a copy, SPILL or RESTORE when its
partition's turn at the engines has come (log entry 70); translations, page requests and invalidations halt, resume or end it
(R42 to R44, R293 to R298, R585). -/
def Obligations.TransferEvents : Prop :=
  ∀ (x : Nat) (s u v : State) (t : Transfer) (f : Fetch) (y : Cmd), alive s = true →
    (transferOf s x = some t → t.halted = false → canSend s t.part = true →
      (cmdOf s t.cmd = some y → (t.kind = .copyLayout ∨ ∃ l, t.kind = .copy l ∨ t.kind = .gather l ∨ t.kind = .scatter l) →
        hasTags s t = true → memoryHeld s t = false → engineTurn s t = true → v = countEngine s t → runCopy v t y = (u, none) →
        exec (.transferComplete x) s = .next
          (engineBytes (complete (dropTransfer u t) y (plain 0)) t (copyMoved v t y t.elements))) ∧
      (cmdOf s t.cmd = some y → t.kind = .spill → hasTags s t = true → memoryHeld s t = false → engineTurn s t = true →
        v = countEngine s t → ∀ l, readIn v t (cmdKey v y (op64 y 0)) (opBits y 1 39 0) = (u, .ok l) →
        exec (.transferComplete x) s = .next (endSpill u t y l)) ∧
      (engineTurn s t = false → exec (.transferComplete x) s = .next s) ∧
      (∀ q pos i, t.kind = .place q pos i → hasTags s t = true → memoryHeld s t = false →
        exec (.transferComplete x) s = .next (endPlacement s q pos true)) ∧
      (∀ a : AtsAnswer, a.granted = false → exec (.atsTranslationCompletion x a) s = .next (faultTransfer s t a)) ∧
      (∀ (a : AtsAnswer) (e : Nat), reqFirst s t a.req = some e → (e < t.moved ∨ t.extra.contains (a.req, 0) = true) →
        faultTransfer s t a = s)) ∧
    (transferOf s x = some t → t.halted = true → canSend s t.part = true →
      exec (.pageRequestResponse x true) s = .next (setTransfer s x fun y => { y with halted := false }) ∧
      exec (.pageRequestResponse x false) s = .next (endUnresolved s t t.moved) ∧
      exec (.pageRequestTimeout x) s = .next (endUnresolved s t t.moved)) ∧
    (transferOf s x = none → fetchOf s x = some f → f.halted = true → canSend s f.part = true →
      exec (.pageRequestResponse x true) s = .next (setFetch s f.id fun g => { g with halted := false }) ∧
      exec (.pageRequestTimeout x) s = .next (fetchEnds s f (.hostFault f.moved))) ∧
    (∀ (fn : Fin 16) (port : Fin 8) (lo hi : Nat) (v : State), s.hpUp.getLsbD port = true → v = { s with nextId := s.nextId + 1 } →
      exec (.atsInvalidation fn port lo hi) s = .next { v with
        readHalts := updIf (fun h => h.halted && s.cmds.any fun x => x.id = h.cmd && (x.part = fn.val && portOf v x.part = port.val) &&
          touches ((ownSpans (withBrought v h) x).map fun r => (r.1, r.1 + r.2)) lo hi)
          (fun h => { h with halted := false }) s.readHalts
        invs := s.invs ++ [⟨s.nextId, port, fn, lo, hi, issuedOn v fn port lo hi⟩]
        transfers := updIf (fun t => (t.part = fn.val && portOf v t.part = port.val) && t.halted && touches (spanOf v t) lo hi)
          (fun t => { t with halted := false }) s.transfers
        fetches := updIf (fun f => (f.part = fn.val && portOf v f.part = port.val) && f.halted && touches (fetchSpan v f) lo hi)
          (fun f => { f with halted := false }) s.fetches }) ∧
    (∀ (port : Fin 8) (tag : Nat) (i : Invalidation), (s.invs.find? fun i => i.port = port.val && i.tag = tag) = some i →
      s.hpUp.getLsbD port = true → i.waits.any (inFlight s) = false →
      exec (.invalidationCompletion port tag) s = .next { s with invs := s.invs.filter fun y => y.tag ≠ tag })

/-- Retirement reads, link changes, failover, request time-outs and training of the host ports (R45 to R50, R613, R664, R665). A
partition that has had no port yet goes on with the first that comes up (the model's choice, log entry 68). -/
def Obligations.HostPortEvents : Prop :=
  ∀ (port : Fin 8) (p : Fin 16) (s : State), alive s = true →
    (s.hpUp.getLsbD port = true →
      exec (.retirementRead port p) s = .next { s with
        unretired := updIf (fun u => u.port = port.val && u.part = p.val && !u.writes.isEmpty && u.covered.isNone)
          (fun u => { u with covered := some u.writes.length }) s.unretired } ∧
      (∀ (u : Unretired) (n : Nat), (s.unretired.find? fun u => u.port = port.val && u.part = p.val) = some u →
        u.covered = some n → ∃ t, exec (.retirementReadReturn port p) s = .next
          (freeBufs t ((u.writes.take n).flatMap (·.frees))) ∧ t = { s with unretired := t.unretired } ∧
          (∀ v, v ∈ t.unretired ↔ (v ∈ s.unretired ∧ ¬(v.port = port.val ∧ v.part = p.val)) ∨
            (v = { u with writes := u.writes.drop n, covered := none } ∧ u.writes.drop n ≠ []))) ∧
      exec (.hostLinkDown port) s = .next (hostDown s port) ∧
      (∀ (x : Nat) (t : Transfer) (u : State), requestExpiry s 5 port (port / 2) x = (u, true) → transferOf u x = some t →
        t.halted = false → canSend u t.part = true → portOf u t.part = port →
        exec (.hostRequestTimeout port x) s = .next (endUnresolved u t t.moved)) ∧
      (∀ (x : Nat) (u : State), requestExpiry s 5 port (port / 2) x = (u, false) →
        exec (.hostRequestTimeout port x) s = .next u)) ∧
    (hpLost s port = false → s.hpUp.getLsbD port = false →
      exec (.hostLinkUp port) s = .next ((List.range 16).foldl
        (fun s p => if ((part s p).stranded || portless s p) && anyPortUp s p then resumePart s p else s)
        { s with
          hpUp := s.hpUp ||| BitVec.twoPow 8 port
          port0 := if (s.hpUp ||| BitVec.twoPow 8 port).getLsbD s.port0 || (part s 0).stranded then s.port0 else port.val })) ∧
    (p ≠ 0 → (part s p).onSecondary = true → (part s p).stranded = false → priValid s p = true →
      s.hpUp.getLsbD (primaryPort s p) = true →
      (s.unretired.all fun u => !(u.part = p.val && u.port = secondaryPort s p && !u.writes.isEmpty)) = true →
      exec (.moveBackToPrimary p) s = .next (moveTo s p (primaryPort s p) false)) ∧
    (∀ trained partner : BitVec 8, s.boot.hpDone = false → ∃ t,
      exec (.hostPortTraining ⟨trained, partner⟩) s = .next (((List.range 8).filter fun h =>
        partner.getLsbD h && !trained.getLsbD h && !hpLost s h).foldl (fun t h => raise t ⟨8, false, h / 2, none, 5, h⟩) t) ∧
      (∀ h, h < 8 → (t.hpUp.getLsbD h = true ↔ trained.getLsbD h = true ∧ hpLost s h = false)) ∧
      (∀ h, h < 8 → t.hpUp.getLsbD h = true → t.port0 ≤ h ∧ t.hpUp.getLsbD t.port0 = true) ∧ t.boot.hpDone = true ∧
      t.boot.fwBusy = (s.boot.fwBusy || s.boot.fwPending) ∧
      t.boot = { s.boot with hpDone := true, fwBusy := t.boot.fwBusy, fwPending := false } ∧
      t = { s with hpUp := t.hpUp, port0 := t.port0, boot := t.boot })

/-! ### Sideband -/

/-- RESET_N_LOW, PWR_GOOD_FALL, REFCLK_LOSS and RESET_RELEASE: a pulse of 10 µs or more is accepted, one below 1 µs rejected, and
one between is the input's choice (log entry 4); what survives a reset (R66, R68, R69, R76, R80, R111, R113, R660). -/
def Obligations.ResetAndRelease : Prop :=
  ∀ (s : State) (n : Nat),
    (10000 ≤ n →
      exec (.resetNLow n) s = .next (enterReset { s with pins := { s.pins with resetLow := true } }) ∧
      exec (.pwrGoodFall n) s = .next (enterReset { s with pins := { s.pins with pwrLow := true } })) ∧
    (n < 1000 → exec (.resetNLow n) s = .next s ∧ exec (.pwrGoodFall n) s = .next s) ∧
    exec .refclkLoss s = .next (enterReset { s with pins := { s.pins with refLost := true } }) ∧
    (∃ t, enterReset s = t ∧ t.pins.inReset = true ∧ t.hostMem = s.hostMem ∧ t.tap = s.tap ∧ t.regs = State.reset.regs ∧
      t.queues = State.reset.queues ∧ t.parts = State.reset.parts ∧ t.cmds = [] ∧ t.threads = [] ∧ t.samples = [] ∧
      t.bufs = [] ∧ t.epochs = [] ∧ t.recipes = [] ∧ t.models = [] ∧ t.spills = [] ∧ t.tensors = [] ∧ t.transfers = [] ∧
      t.fetches = [] ∧ t.fatal = false) ∧
    (∀ (k : Straps) (u : State), s.pins.inReset = true → u = { s with
        pins := { s.pins with resetLow := false, pwrLow := false, refLost := false, inReset := false
                              testHeld := k.testmode || !(dieAt s 0).fuseOk }
        smbus := ⟨k.addr, [], false⟩
        dies := s.dies.zipIdx.map fun (x, d) => { x with fixed := k.vfix.getLsbD d } } →
      exec (.resetRelease k) s = .next (thermN ((List.range 4).foldl checkFuses ((List.range 16).foldl drawKeys u)))) ∧
    (∀ d, (dieAt s d).fuseOk = true → (dieAt s d).serial = (dieAt s 0).serial → checkFuses s d = s)

/-- The STEP pins and ALIVE: an accepted edge is a step of every partition that the pin drives, within 10 µs of the last one it
is counted and rejected; a pin stuck high is reported until it is low (R70 to R74). -/
def Obligations.StepAndAlivePins : Prop :=
  ∀ (pin : Fin 4) (n : Nat) (s u : State),
    (alive s = true → s.pins.stepStuck.getD pin false = false → 100 ≤ n →
      ((∀ t, s.pins.stepLast.getD pin none = some t → t + 10 ≤ s.us) →
        u = { s with pins := { s.pins with stepLast := modAt s.pins.stepLast pin fun _ => some s.us
                                           stepHigh := modAt s.pins.stepHigh pin fun _ => true } } →
        exec (.stepEdge pin n) s = .next ((mappedTo u pin).foldl stepEvent u)) ∧
      (∀ t, s.pins.stepLast.getD pin none = some t → s.us < t + 10 → exec (.stepEdge pin n) s = .next
        { s with pins := { s.pins with stepRejected := modAt s.pins.stepRejected pin (· + 1) } })) ∧
    (n < 20 → exec (.stepEdge pin n) s = .next s) ∧
    (alive s = true → s.pins.stepHigh.getD pin false = true → s.pins.stepStuck.getD pin false = false →
      u = raise { s with pins := { s.pins with stepStuck := modAt s.pins.stepStuck pin fun _ => true } }
        ⟨0x1C, false, 0, none, 0, 0⟩ →
      exec (.stepStuck pin) s = .next ((mappedTo u pin).foldl (fun s p => postEvent s p 4 pin) u)) ∧
    (alive s = true → s.pins.stepStuck.getD pin false = true → 100 ≤ n →
      u = { s with pins := { s.pins with stepStuck := modAt s.pins.stepStuck pin fun _ => false
                                         stepHigh := modAt s.pins.stepHigh pin fun _ => false } } →
      exec (.stepStuckClear pin n) s = .next ((mappedTo u pin).foldl (fun s p => postEvent s p 5 pin) u)) ∧
    (toggling s = true → exec .aliveToggle s = .next { s with pins := { s.pins with alive := !s.pins.alive } })

/-- The SMBus target's commands: block replies of Table 3.10, zeros for a die that gives no answer, a NACK for a bad byte count, an
unknown code or a PEC that does not fit (the last is the model's choice, log entry 24), and a clock held low
for 35 ms or more starts the interface afresh (R66, R76, R112, R113); the TAP's instructions (Table 20.6): each loads its code,
selects its data register and sets the drive of the outputs, and any code that is not listed is BYPASS. -/
def Obligations.SmbusAndTapCommands : Prop :=
  (∀ (addr : BitVec 7) (s : State),
     (smbusHears s addr = true →
       exec (.smbusIdentity addr) s = .next (smbusReply s [0x00]
         (toLe 4 ((readReg s 0).getD 0).toNat ++ toLe 4 ((readReg s 4).getD 0).toNat ++ toLe 8 (modSerial s))) ∧
       (∀ d : Fin 4, exec (.smbusDieIdentity addr ⟨d, true⟩) s = .next (smbusReply s [BitVec.ofNat 8 (d + 1)]
           ((dieAt s d).lot.take 6 ++ [(dieAt s d).wafer, (dieAt s d).x, (dieAt s d).y, 0x42, 0x00] ++
            toLe 3 (dieAt s d).full.toNat ++ [if (dieAt s d).fuseOk then 1 else 0, 0])) ∧
         exec (.smbusDieIdentity addr ⟨d, false⟩) s = .next (smbusReply s [BitVec.ofNat 8 (d + 1)] (List.replicate 16 0))) ∧
       exec (.smbusHealth addr) s = .next (smbusReply s [0x10] (toLe 4 ((readReg s 0xC).getD 0).toNat ++
         s.dies.map (fun x => if x.sensor then BitVec.ofInt 8 x.tj else 0x80) ++
         [BitVec.ofNat 8 ((if s.pins.thermN then 1 else 0) + (if toggling s then 2 else 0)), 0, 0, 0])) ∧
       (∀ (l : List Byte) (p : Option Byte), l.length = 4 →
         (∀ b, p = some b → b = pec ([BitVec.ofNat 8 (2 * smbusAddr s), 0x20, 0x04] ++ l)) →
         exec (.smbusRegisterRead addr ⟨l, p⟩) s = .next (smbusReply s ([0x20, 0x04] ++ l)
           (BitVec.ofNat 8 (smbusWord s (leAt l 0 4)).1 :: toLe 4 (smbusWord s (leAt l 0 4)).2))) ∧
       (∀ (l : List Byte) (p : Option Byte), l.length ≠ 4 ∨
         (∃ b, p = some b ∧ b ≠ pec ([BitVec.ofNat 8 (2 * smbusAddr s), 0x20, BitVec.ofNat 8 l.length] ++ l)) →
         exec (.smbusRegisterRead addr ⟨l, p⟩) s = .next { s with smbus := { s.smbus with reply := [], nack := true } }) ∧
       (∀ code : Byte, code ∉ ([0x00, 0x01, 0x02, 0x03, 0x04, 0x10, 0x20] : List Byte) →
         exec (.smbusUnknownCommand addr code) s = .next { s with smbus := { s.smbus with reply := [], nack := true } })) ∧
     (∀ n, s.pins.inReset = false → 35 ≤ n → exec (.sclLowTimeout n) s = .next
       { s with smbus := { s.smbus with reply := [], nack := false } }) ∧
     (∀ o, o ≤ 0x004FFFFF → o % 4 = 0 → (regFields o).isSome = true →
       smbusWord s o = (0, ((readReg s o).getD 0).toNat)) ∧
     (∀ o, 0x004FFFFF < o ∨ o % 4 ≠ 0 ∨ regFields o = none → smbusWord s o = (1, 0))) ∧
  (∀ (s : State),
     exec .testLogicReset s = .next { s with tap := { s.tap with ir := 0x01, dr := 0, pins := 0 } } ∧
     exec .idcode s = .next { s with tap := { s.tap with ir := 0x01, dr := 0, pins := 0 } } ∧
     (∀ l : List Bool, exec (.samplePreload l) s = .next { s with
       tap := { s.tap with ir := 0x02, dr := 1, pins := 0, bscan := (List.range 97).map fun i => l.getD i false } }) ∧
     exec .extest s = .next { s with tap := { s.tap with ir := 0x03, dr := 1, pins := 1 } } ∧
     exec .clamp s = .next { s with tap := { s.tap with ir := 0x04, dr := 2, pins := 2 } } ∧
     exec .highz s = .next { s with tap := { s.tap with ir := 0x05, dr := 2, pins := 3 } } ∧
     exec .instr1687 s = .next { s with tap := { s.tap with ir := 0x10, dr := if s.tap.debugOpen then 3 else 2, pins := 0 } } ∧
     (∀ code : Byte, code ∉ ([0x01, 0x02, 0x03, 0x04, 0x05, 0x10] : List Byte) →
       exec (.bypass code) s = .next { s with tap := { s.tap with ir := code, dr := 2, pins := 0 } })) ∧
  (∀ t : Tap, (t.dr = 0 → (tapData t).length = 32 ∧ ∀ i, i < 32 → (tapData t)[i]? = some (Nat.testBit 0x10404B47 i)) ∧
    (t.dr = 1 → tapData t = t.bscan) ∧ (t.dr = 2 → (tapData t).length = 1))

/-! ### Engines -/

/-- POSITION_ISSUE gives the next position a sample, THREAD_ASSIGN gives the partition that comes first a thread, FETCH_ISSUE
sends the first piece that can go, and a fetch's completion, attempt time-out and abort completion end it (R268 to R270,
R277 to R291, R582, R583, R591). -/
def Obligations.IssueAndFetchEvents : Prop :=
  ∀ (s u : State), alive s = true →
    (∀ (q : Fin 64) (r : SourceRead) (e : Epoch) (h : Nat) (y : Recipe) (d : Dataset) (dir : Option DirEntry) (st c p : Nat),
      epochOf s q = some e → startedOf s q < e.inflight → e.reissue = [] →
      p = skipGone e (e.gone.length + 1) e.nextIssue → p < e.n → freeHandle s = some h → recipeOf s e.part e.recipe = some y →
      e.datasets[(indexOf e p).1]? = some d → readDirectory s e.part d.dir ((indexOf e p).2 - d.base) r = some (dir, st, c) →
      ∃ x, exec (.positionIssue (.epoch q) r) s = .next { setEpoch s q (fun e => { e with nextIssue := p + 1 }) with
          samples := s.samples ++ [x] } ∧
        x.h = h ∧ x.part = e.part ∧ x.recipe = e.recipe ∧ x.pos = p ∧ x.from_ = .epoch q ∧ x.epoch = e.num ∧
        x.dset = (indexOf e p).1 ∧ x.dsidx = (indexOf e p).2 ∧ x.dir = dir ∧ x.dirStatus = st ∧ x.dirCause = c ∧
        x.deferred = false ∧ x.tokens = List.replicate y.stages.length 0) ∧
    (∀ (p : Nat) (l : List Nat) (v : State), v = noteWaits (refetchAll s) → ((List.range 16).filter fun p => (assignIn v p).isSome) = p :: l →
      assignIn v (l.foldl (fun a b => if servedBefore v b a then b else a) p) = some u → exec .threadAssign s = .next u) ∧
    (∀ (d : Fin 4) (r : SourceRead), dieLost s d = false →
      (∀ x, x ∈ engineSamples s d → (x.recsRead = true ∨ x.dirStatus ≠ 0 ∨ wantsIndex s x.h = false) ∧ pendingList x = none) →
      (∀ f, f ∈ s.fetches → f.die = d.val → f.stalled = false) →
      (nextPieces s d).findSome? (issuePiece s d) = some u → exec (.fetchIssue d r) s = .next u) ∧
    (∀ (f : Nat) (g : Fetch), fetchOf s f = some g → g.halted = false →
      (∀ r, (g.drive.isSome = true ∨ canSend s g.part = true) →
        exec (.fetchCompletion f r) s = .next (fetchEnds s g r)) ∧
      ((g.drive.isSome = true ∨ canSend s g.part = true) →
        exec (.fetchAttemptTimeout f none) s = .next (attemptExpires s g false)) ∧
      (g.drive = none → canSend s g.part = false → ∀ m, exec (.fetchAttemptTimeout f m) s = .next s)) ∧
    (∀ (f : Nat) (g : Fetch) (held : List Nat), oldAttempt s f = some (g, held) →
      exec (.nvmeAbortCompletion f) s = .next (attemptOver s f g held) ∧
      (fetchOf s f = none → ∀ l, exec (.fetchCompletion f (.data l)) s = .next (attemptOver s f g held)) ∧
      (∀ sp link d, g.drive = some (sp, link) → driveOf s sp link = some d →
        exec (.nvmeAbortTimeout f) s = .next (containLink (driveUnusable s sp link 6 0) sp link)))

/-- TICKET_COMPLETE does the work that waited and completes the ticket; a model's next chunk is fetched, becomes ready in its
clusters' landing buffer and is claimed, and the buffer is released (R35, R198, R466 to R470). -/
def Obligations.TicketAndChunkEvents : Prop :=
  ∀ (s u : State), alive s = true →
    (∀ (th : ThreadRef) (n : Nat) (t : Thread) (k : Ticket), threadOf s th = some t →
      (t.tickets.find? fun k => k.num = n) = some k → k.done = false → hostTicket s th n = false →
      (k.deferred = none → exec (.ticketComplete th n) s =
        .next (endTicket (setSample s t.sample fun y => { y with fail := k.fail }) th n k.status k.cause)) ∧
      (∀ h off ts len st c, k.deferred = some (.drd h off ts len) → bufReady s (thDie th) h off len = true →
        drdNow s th h off ts len = (u, some (st, c)) → exec (.ticketComplete th n) s = .next (endTicket u th n st c)) ∧
      (∀ i c ts st cause, k.deferred = some (.didx i c ts) → didxNow s th i c ts = (u, some (st, cause)) →
        exec (.ticketComplete th n) s = .next (endTicket u th n st cause))) ∧
    (∀ (d : Fin 4) (m : Model) (c buf : Nat), (s.models.find? fun y => y.uid = m.uid) = some m → dieLost s d = false →
      lastLanding s d m.uid = none → buf = 0 →
      nextChunk (chunksOf m).length ((chunksOf m).length - 1)
        (fun c => (waitingJobs s d m.uid).any fun j => j.need.contains c && !claims s j c) = some c →
      (s.landing.all fun b => !(b.model = m.uid && b.buf = buf && !b.released)) = true →
      chunkPaused s m d c = false → readChunk s m d c = (u, false) →
      ∃ ks : List Nat, exec (.chunkFetch d m.uid) s = .next { u with
          nextId := u.nextId + 1
          landing := u.landing.filter (fun b => !(b.model = m.uid && b.buf = buf && ks.contains b.cluster)) ++
            ks.map fun k => ⟨k, m.uid, buf, c, false, false, u.nextId, []⟩ } ∧
        ∀ k, k ∈ ks ↔ k < 24 ∧ ∃ j, j ∈ waitingJobs s d m.uid ∧ clusterOf j.th = k ∧ j.need.contains c = true ∧
          claims s j c = false) ∧
    (∀ (k : Fin 24) (m : Nat) (b : Fin 2), (s.landing.any fun y =>
        y.cluster = k.val && y.model = m && y.buf = b.val && !y.ready) = true →
      u = { s with
        landing := updIf (fun y => y.cluster = k.val && y.model = m && y.buf = b.val && !y.ready)
          (fun y => { y with ready := true }) s.landing } →
      exec (.chunkReady k m b) s = .next (setThreadsIf (claimBy u k m b (u.threads.flatMap jobsIn))
        (fun t => t.state = 5 && clusterOf t.th = k.val && t.waitOn % 2 = b.val &&
          (stageModel (claimBy u k m b (u.threads.flatMap jobsIn)) t (t.waitOn / 2)).any fun y => y.uid = m)
        fun t => { t with state := 1 })) ∧
    (∀ (k : Fin 24) (m : Nat) (b : Fin 2) (y : LandBuf), (s.landing.find? fun y =>
        y.cluster = k.val && y.model = m && y.buf = b.val && y.ready && !y.released) = some y → y.claims = [] →
      exec (.landingBufferRelease k m b) s = .next { s with
        landing := updIf (fun x => x = y) (fun x => { x with released := true, claims := [] }) s.landing })

/-! ### Delivery -/

/-- Placement copies end, a delivery entry is taken for the open batch, a complete batch that is due is released, and the grace
window, the budget and the hard time-out act, and a release step that a unit in service carries is raised when it expires,
forced where the force bit names the unit (R151 to R153, R503, R506 to R520, R536, R539, R604, R663). -/
def Obligations.DeliveryEvents : Prop :=
  ∀ (q : Fin 64) (s u : State) (e : Epoch), alive s = true →
    (∀ pos t, s.transfers.find? (isPlace q pos) = some t → t.halted = false → canSend s t.part = true →
      placeHeld s t q pos = false → exec (.placementCopyEnd q pos) s = .next (endPlacement s q pos true)) ∧
    (∀ (key : Nat) (l : List Byte), epochOf s q = some e → (part s e.part).resetting = false → canSend s e.part = true → qDrEn s q = true →
      (queue s q).drStop = false → drCount s q ≠ 0 → cqFree s (cqSel s q) = true →
      (e.entries.all fun d => d.batch ≠ e.open_) = true →
      ((e.slots.any (·.pos.isSome)) = true ∨ batchComplete s e = true) →
      key = hostKey (qSpace s q) (reg64 s (queueBase q + 0x28) + (queue s q).drCi.toNat % drDepth s q * 64) →
      (faulty s key 64 = true → exec (.deliveryEntryTake q) s = .next (fetchErr s q true)) ∧
      (faulty s key 64 = false → l = hostBytes s key 64 → deliveryErr l e = none →
        u = setQueue (setQueue (readReturned s e.part 64) q fun x => { x with drCi := x.drCi + 1 }) (cqSel
          (setQueue (readReturned s e.part 64) q fun x => { x with drCi := x.drCi + 1 }) q)
          (fun x => { x with promised := x.promised + 1 }) →
        exec (.deliveryEntryTake q) s = .next (settle (setEpoch u q fun e' => { e' with entries := e'.entries ++
          [⟨e.open_, leAt l 0 8, leAt l 8 8, leAt l 16 4, bits (leAt l 20 2) 12 0, BitVec.ofNat 32 (leAt l 24 4),
            (queue u q).drCi⟩] }) q))) ∧
    (∀ d, epochOf s q = some e → (part s e.part).stranded = false → e.opening = none → batchComplete s e = true →
      (e.open_ < e.first + e.lead + e.steps ∨
        memberBatches e ≤ e.open_ ∧ unresolved e = false ∧ (e.slots.all fun y => y.pos.isNone) = true) →
      (e.entries.find? fun d => d.batch = e.open_) = some d → exec (.batchRelease q) s = .next (release s q d)) ∧
    (epochOf s q = some e → e.graceRun = true → exec (.graceWindowEnd q none) s = .next (graceEnd s q none)) ∧
    (∀ (h : Nat) (x : Sample), sampleOf s h = some x → x.copied = false → x.ready = false →
      (x.deferred = true → x.straggler = false → u = setSample s h (fun y => { y with charged := Nat.max y.charged (y.budget + 1) }) →
        (stragglers u x.part = 64 → exec (.budgetExceeded h) s = .next (dropSample u h 7 0 0 0)) ∧
        (stragglers u x.part ≠ 64 → exec (.budgetExceeded h) s = .next (setSample u h fun y => { y with straggler := true }))) ∧
      (x.started = true → exec (.hardTimeout h) s = .next (dropSample (raise s ⟨0x1B, false, tileOfSample s x / 24, some x.part, 1,
        tileOfSample s x⟩) h 6 0 0 0))) ∧
    (∀ k i forced, s.carried.contains (k, i) = true → unitLost s k i = false →
      forced = (fld s 0x1010 5 5 == 1 && forceUnit 5 (fld s 0x1034 7 0) == (k, i)) →
      u = { s with carried := s.carried.filter (· ≠ (k, i)) } →
      exec (.releaseTreeTimeout k i) s = .next (raise (if forced then setFld u 0x1010 5 5 0 else u)
        ⟨0x11, forced, if k = 1 then i / 24 else i, none, k, i⟩))

/-! ### Memory, health, boot and power -/

/-- Block memory: a waiting allocation resumes, a marked superblock without buffers retires, scrubbing, temperature reads, training
and request time-outs of the memory ports (R64, R549, R550, R555, R613); time-outs, watchdogs, CRC and lock faults, and
the end of a revival (R14, R28, R596, R608, R611, R613, R622, R623). -/
def Obligations.MemoryAndHealthEvents : Prop :=
  (∀ (s u : State), alive s = true →
     (∀ w h, resumable s = some (w, u, h) → exec .allocationResume s = .next
       (takeBuffer { u with allocWaits := u.allocWaits.filter (· ≠ w) } w.th w.dreg h)) ∧
     (∀ (d : Fin 4) (sb : Nat) (x : Superblock), (s.superblocks.find? fun x => x.die = d.val && x.idx = sb) = some x →
       x.retired = false →
       (x.marked = true → s.bufs.any (inSuper x) = false → exec (.superblockRetire d sb) s = .next
         (setW1c (sweep (setSuper s d sb fun x => { x with retired := true, group := none })) 0x4010 2 0x401C)) ∧
       (∀ (line : Nat) (r : LineRead) (a : LineAt), line < 1048576 → a = ⟨d, sb, line, 4 * d.val + portIn x (line / 64)⟩ →
         s.mpPaused.getLsbD a.port = false →
         (lineOutcome (fld s 0x4000 2 1) r = .clean → exec (.patrolScrub d sb line r) s = .next s) ∧
         (lineOutcome (fld s 0x4000 2 1) r = .corrected → exec (.patrolScrub d sb line r) s = .next
           (ceLine (unmarkLine s a) a false)) ∧
         (lineOutcome (fld s 0x4000 2 1) r = .miscorrected → exec (.patrolScrub d sb line r) s = .next
           (ceLine (garbleLine (unmarkLine s a) d sb line) a false)) ∧
         (lineOutcome (fld s 0x4000 2 1) r = .uncorrectable → exec (.patrolScrub d sb line r) s = .next
           (setSuper s d sb fun x => { x with
             marked := true, badLines := (x.badLines.filter fun y => y.1 ≠ line) ++ [(line, r)] })))) ∧
     (∀ mp : Fin 16, mpServes s mp = true →
       exec (.dramTempRead mp true) s = .next { s with mpPaused := s.mpPaused &&& ~~~(BitVec.twoPow 16 mp) } ∧
       (s.mpPaused.getLsbD mp = false → exec (.dramTempRead mp false) s = .next
         (raise { s with mpPaused := s.mpPaused ||| BitVec.twoPow 16 mp } ⟨4, false, mp / 4, none, 4, mp⟩)) ∧
       (∀ req, requestExpiry s 4 mp (mp / 4) req = (u, true) →
         exec (.memoryRequestTimeout mp req) s = .next (raise u ⟨3, false, mp / 4, none, 4, mp⟩)) ∧
       (∀ req, requestExpiry s 4 mp (mp / 4) req = (u, false) → exec (.memoryRequestTimeout mp req) s = .next u)) ∧
     (∀ trained : BitVec 16, s.boot.memDone = false →
       u = { s with mpUp := BitVec.ofNat 16 (maskOf 16 fun m => trained.getLsbD m && !mpLost s m)
                    boot := { s.boot with memDone := true }
                    scrubRun := true } →
       exec (.memoryTraining trained) s = .next ((unreachable u).foldl (fun t d => takeOut t 3 d) (degradedEvent s u)))) ∧
  (∀ (s u : State), alive s = true →
     (∀ (e : Fin 4) (req : Nat), edgeUp s e = true →
       (requestExpiry s 7 e (unitDie 7 e) req = (u, true) →
         exec (.quadrilleRequestTimeout e req) s = .next (raise u ⟨0x0D, false, unitDie 7 e, none, 7, e⟩)) ∧
       (requestExpiry s 7 e (unitDie 7 e) req = (u, false) → exec (.quadrilleRequestTimeout e req) s = .next u)) ∧
     (∀ a b : Fin 4, u = { s with routeHolds := s.routeHolds.filter (· ≠ (a.val, b.val)) } →
       exec (.routeChangeDrained a b) s = .next (u.lreds.foldl lredTry (wakeTokens u))) ∧
     (∀ a : CrossingAccess, s.pins.inReset = false → a.index < unitCount a.kind →
       (dieLost s (unitDie a.kind a.index) = false → s.fatal = false → a.src = .host →
         exec (.crossingAccessTimeout a) s = .next (raise s ⟨0x10, false, unitDie a.kind a.index, none, a.kind, a.index⟩)) ∧
       (dieLost s (unitDie a.kind a.index) = true → exec (.crossingAccessTimeout a) s = .next s)) ∧
     (∀ (k i src : Nat), hangSource k = some src → i < unitCount k → unitLost s k i = false → (k ≠ 1 ∨ armed s 4 i = false) →
       exec (.handshakeWatchdog k i) s = .next (raise s ⟨src, false, unitDie k i, none, k, i⟩)) ∧
     (∀ r pass, s.revival = some r → u = (if pass then returnUnit s r else s) → ∃ st, (st = 2 ∨ st = 3) ∧
       exec (.revivalSelfTestEnd pass) s = .next (setFld { u with revival := none } 0x101C 1 0 st) ∧
       (r.kind ≠ 7 → (st = 3 ↔ unitLost u r.kind r.index = true))) ∧
     (∀ d : Fin 4, dieLost s d = false → (dieAt s d).mmRun = true →
       exec (.firmwareWatchdog d false) s = .next (raise (haltMgmt s d) ⟨0x13, false, d, none, 3, d⟩)) ∧
     (∀ port : Fin 8, s.hpUp.getLsbD port = true → armed s 2 port = false →
       exec (.hostlinkCrc port) s = .next (raise s ⟨7, false, port / 2, none, 5, port⟩)) ∧
     exec .csuFault s = .next (raise s ⟨0x19, false, 0, none, 0, 0⟩))

/-- The firmware image and the Forget-me-not record (R632, R633, R636 to R643); the power governor: each estimate is recorded and
steps the envelope, a hot die steps down, a cool one steps up, 115 °C shuts VCORE down, and regulator faults are reported (R646
to R651, R655). -/
def Obligations.BootAndPowerEvents : Prop :=
  (∀ (s u : State), alive s = true → canSend s 0 = true →
     (s.boot.fwBusy = true → s.boot.fwRun = false →
       (∀ e, checkImage s (hostKey pf0Space (reg64 s 0x100)) = .error e → exec .firmwareImageCheck s = .next
         { s with boot := { s.boot with fwBusy := false, fwErr := e } }) ∧
       (∀ l, checkImage s (hostKey pf0Space (reg64 s 0x100)) = .ok l →
         u = { readReturned s 0 l.length with
           boot := { s.boot with fwBusy := false, fwErr := 0, fwRun := true, image := l }
           pins := { s.pins with aliveRun := true } } →
         exec .firmwareImageCheck s = .next ((diesUp u).foldl (fun s d => startMgmt s (Fin.ofNat 4 d)) u))) ∧
     (s.boot.restoreRun = true → s.boot.memDone = true →
       (s.boot.startOnly = true → exec .recordRestore s = .next
         (becomeReady { s with boot := { s.boot with fmnErrA := 0xF, fmnErrB := 0xF } })) ∧
       (s.boot.startOnly = false → reg64 s 0x108 = 0 → exec .recordRestore s = .next
         (becomeReady { s with boot := { s.boot with fmnErrA := 1, fmnErrB := 1 } })) ∧
       (s.boot.startOnly = false → reg64 s 0x108 ≠ 0 → exec .recordRestore s = .next (becomeReady (restoreRecord s)))) ∧
     (∃ t, becomeReady s = t ∧ t.boot.ready = true ∧ t.boot.restoreRun = false) ∧
     (s.boot.savePending = true → reg64 s 0x108 ≠ 0 → exec .forgetMeNotSave s = .next (saveRecord s))) ∧
  (∀ (s : State), s.pins.inReset = false → s.pins.testHeld = false →
     (∀ (m : PowerReading) (u : State), u = setFld { s with
         dies := s.dies.zipIdx.map fun (x, d) => { x with dw := m.dw.getD d 0, da := m.da.getD d 0, mv := m.mv.getD d x.mv }
         energy := s.energy + estimate s m
         counted := powerCounters.map fun c => reg64 s c.1 } 0x5008 25 16 (Nat.min 1023 (estimate s m / 10 ^ 12)) →
       (s.boot.fwRun = false → exec (.pguEstimate m) s = .next u) ∧
       (s.boot.fwRun = true → s.fatal = false → fld u 0x5000 9 0 * 10 ^ 12 < estimate s m →
         exec (.pguEstimate m) s = .next (envDown u)) ∧
       (s.boot.fwRun = true → s.fatal = false → 100 * estimate s m < 95 * (fld u 0x5000 9 0 * 10 ^ 12) →
         exec (.pguEstimate m) s = .next (envUp u))) ∧
     (∀ d : Fin 4, exec (.thermalStep d none) s = .next (thermN (setDie s d fun x => { x with sensor := false }))) ∧
     (∀ (d : Fin 4) (tj : Int) (u : State), u = readTj s d tj → u.boot.fwRun = true → u.fatal = false → u.pins.testHeld = false →
       (∀ l, 100 ≤ tj → tj < 115 → stepDown (dvsetOf u d) (dieAt u d) (thermLimit (dieAt u d)) = some l →
         exec (.thermalStep d (some tj)) s = .next (setW1c (setDie u d fun x => setTherm x l) 0x500C 0 0x5014)) ∧
       (95 ≤ tj → tj < 100 → exec (.thermalStep d (some tj)) s = .next u) ∧
       (tj < 95 → exec (.thermalStep d (some tj)) s = .next
         (setDie u d fun x => setTherm x (stepUp (dvsetOf u d) (thermLimit x))))) ∧
     (∀ (d : Fin 4) (tj : Int) (u v : State), 115 ≤ tj → u = readTj s d tj → u.pins.tripped = false →
       v = raise u ⟨0x15, false, d, none, 3, d⟩ →
       exec (.thermTrip d tj) s = .next (thermN { v with
         pins := { v.pins with tripped := true }, dies := v.dies.zipIdx.map fun (x, i) => shutVcore x i }) ∧
       exec (.thermalStep d (some tj)) s = exec (.thermTrip d tj) s) ∧
     (∀ d : Fin 4, alive s = true → dieLost s d = false →
       exec (.pguFault d .vcoreRange) s = .next (raise s ⟨0x17, false, d, none, 3, d⟩) ∧
       ((dieAt s d).fixed = false →
         exec (.pguFault d .noAck) s = .next (raise (bumpBy s (dieBase d + 0x1010) 3) ⟨0x17, false, d, none, 3, d⟩) ∧
         exec (.pguFault d .outputFault) s = .next (raise s ⟨0x17, false, d, none, 3, d⟩))))

/-! ### Whole machine -/

/-- A register of every group as reset leaves it, with the values that the spec states, and the block otherwise empty. -/
def Obligations.ResetState : Prop :=
  State.reset.pending = [] ∧ canonical State.reset = true ∧ State.reset.cmds = [] ∧ State.reset.threads = [] ∧
  State.reset.samples = [] ∧ State.reset.epochs = [] ∧ State.reset.bufs = [] ∧ State.reset.fatal = false ∧
  State.reset.boot.ready = false ∧ State.reset.boot.fwRun = false ∧
  (∀ q, q < 64 → (queue State.reset q).sqPi = 0 ∧ (queue State.reset q).sqCi = 0 ∧ (queue State.reset q).cqPi = 0 ∧
    (queue State.reset q).cqCi = 0 ∧ (queue State.reset q).drPi = 0 ∧ (queue State.reset q).drCi = 0) ∧
  (∀ o, reg State.reset o = regReset o)

/-- Every step keeps the canonical form of the sparse host memory and register words and the numbers of queues, partitions
and dies, whatever the command. -/
def Obligations.StepKeepsCanonical : Prop :=
  ∀ s s' : State, canonical s = true → step s = .next s' → canonical s' = true
end

