-- ==== Sys2Proof/Laws/Registers.lean ====
section
/-!
SUPPORT. Register writes: the one equation of an accepted write, of a rejected one and of one that the lock holds back,
and what a register reads as after it.
-/

namespace Sys2Proof.Machine

variable {s : State} {fn port off o : Nat} {v : Word}

theorem reg_setReg_self (h : canonical s = true) : reg (setReg s o v) o = v := look_put_self (canonical_iff.1 h).2.1

theorem reg_setReg_ne {p : Nat} (h : p ≠ o) : reg (setReg s o v) p = reg s p := look_put_ne h

@[simp] theorem clearBits_zero : clearBits s o 0 = s := by simp [clearBits]

theorem unlocked_iff : unlocked s o = true ↔ s.fatal = false ∧ dieOut s o = false ∧ fld s 0x10 0 0 = 0 := by
  simp [unlocked, and_assoc]

theorem busWrite_word (h : accessible s fn port off (.word o) = true) : busWrite s fn port off v = writeReg s port o none v := by
  simp only [accessible, Bool.and_eq_true, decide_eq_true_eq] at h
  simp [busWrite, h.1, h.2]

theorem settable_iff {want act : Word} : settable s o want act = true ↔ unlocked s o = true ∧ isLowHalf o = false ∧
    isHighHalf o = false ∧ rejected s o (reg s o).toNat want.toNat (2 ^ 32 * want.toNat) act.toNat = false := by
  simp [settable, and_assoc]

/-- A write that no rule rejects and that carries no 1 on a W1C field stores its word, and its effects follow. -/
theorem writeReg_settable (h : settable s o (written s o v) (actions o v) = true) (hc : clears o v = 0) :
    writeReg s port o none v =
      effects (stored s o (written s o v)) o (reg s o).toNat (written s o v).toNat (actions o v).toNat := by
  obtain ⟨h1, h2, h3, h4⟩ := settable_iff.1 h
  obtain ⟨g1, g2, g3⟩ := unlocked_iff.1 h1
  have hm : merged (reg s o) v (rwMask o) none = written s o v := rfl
  have hc' : onesOf o none v .w1c = 0 := hc
  have ha : onesOf o none v .wo = actions o v := rfl
  have hi : aliasInert o none = false := rfl
  rw [writeReg, g1, if_neg Bool.false_ne_true, g2, hi, if_neg (by simp), h2, if_neg Bool.false_ne_true, g3,
    if_neg Nat.zero_ne_one, useLow, h3, if_neg Bool.false_ne_true, lowWanted, h3, if_neg Bool.false_ne_true, hm, hc', ha,
    applyWrite, if_neg (by simpa using h4), clearBits_zero, putHalves, lowPresent, h3, if_neg Bool.false_ne_true,
    if_neg Bool.false_ne_true]
  simp [stored]

/-- Registers whose write sets nothing going: their effects leave the state as stored. -/
theorem effects_quiet (h : quietReg o = true) (a b c : Nat) : effects s o a b c = s := by
  unfold quietReg at h
  simp only [Bool.and_eq_true, Bool.not_eq_true', List.contains_eq_mem, decide_eq_false_iff_not, List.mem_cons,
    List.not_mem_nil, or_false, not_or, Bool.and_eq_false_iff] at h
  obtain ⟨⟨⟨⟨h1, h2, h3, h4, h5, h6⟩, h7⟩, h8⟩, h9⟩ := h
  unfold effects
  rw [if_neg h1, if_neg h2, if_neg h3, if_neg h4, if_neg h5, if_neg h6]
  split
  · dsimp only; rw [if_neg (by omega), if_neg (by omega), if_neg (by omega)]
  · split
    · rw [if_neg (by omega)]
    · split
      · simp only [not_le, Bool.or_eq_false_iff, decide_eq_false_iff_not, Bool.and_eq_false_iff] at h9
        dsimp only; rw [if_neg (by omega), if_neg (by omega)]
      · rfl

end Sys2Proof.Machine
end

