-- ==== Sys2Proof/Tests/Slice0.lean ====
section
/-!
SUPPORT. Tests: a term that each check of WellFormed refuses, worked examples of the spec, and for each statement with
hypotheses a concrete state and operands that meet them, clause by clause.
-/

namespace Sys2Proof.Tests

open Sys2Proof Sys2Proof.Machine

/- One theorem at a time: each of them has the kernel evaluate a state. -/
set_option Elab.async false

/-! ### Small states -/

/-- The block in service: every port up, firmware and memory ready. -/
def up : State :=
  { State.reset with hpUp := 0xFF, mpUp := 0xFFFF
                     boot := { State.reset.boot with hpDone := true, memDone := true, fwRun := true, ready := true } }

def th0 : ThreadRef := .tile 0 0

/-- A READY thread of tile 0 with s[1] = 7, s[2] = 3, s[4] = 64, s[5] = 0x30000. -/
def thr : Thread :=
  { th := th0, state := 1, part := 0, sample := 5, stage := 0, partNo := 0, pc := 16, progLen := 800,
    s := [(1, 7), (2, 3), (4, 64), (5, 0x30000)], v := [], p := [], region := [], tsBytes := 4096, csBytes := 4096, plen := 0,
    tickets := [], nextTicket := 1, waitOn := 0, waitReg := 0, published := 0, ending := false, fault := 0 }

def onThread (t : Thread) : State := { up with threads := [t] }

/-- s[d], s[a] and s[b], with no immediate. -/
def ins (d a b : Fin 32) : Orony := ⟨th0, 0, false, d, a, b, 0, false, 0⟩
/-- An immediate in place of s[b]. -/
def insI (d a b : Fin 32) (imm : Word) : Orony := ⟨th0, 0, false, d, a, b, 0, true, imm⟩
/-- An immediate used as an offset or index. -/
def insO (d a b : Fin 32) (imm : Word) : Orony := ⟨th0, 0, false, d, a, b, 0, false, imm⟩

/-- The thread can issue every one of these. -/
def canExecute (t : Thread) (c : Nat) (x : Orony) (ops : List Nat) : Bool :=
  ops.all fun op => executes (onThread t) c op x t

/-! ### Well-formedness -/

theorem test_wf_accepts : (Instr.add (ins 3 1 2)).wf = true := by decide
theorem test_wf_scalar_w : (Instr.add { ins 3 1 2 with w := 1 }).wf = false := by decide
theorem test_wf_scalar_imm_without_i : (Instr.add (insO 3 1 2 9)).wf = false := by decide
theorem test_wf_movi_needs_i : (Instr.movi (ins 3 0 0)).wf = false := by decide
theorem test_wf_branch_i : (Instr.br (insI 0 0 0 1)).wf = false := by decide
theorem test_wf_pany_register : (Instr.pany (insO 0 8 0 1)).wf = false := by decide
theorem test_wf_vector_register : (Instr.vadd (ins 8 1 2)).wf = false := by decide
theorem test_wf_compare_p0 : (Instr.vceq (ins 0 1 2)).wf = false := by decide
theorem test_wf_vsel_predicate : (Instr.vsel (insO 1 1 2 8)).wf = false := by decide
theorem test_wf_vext_element : (Instr.vext (insO 1 1 0 16)).wf = false := by decide
theorem test_wf_sts_space : (Instr.sts { insO 0 1 2 0 with w := 1 }).wf = false := by decide
theorem test_wf_balloc_class : (Instr.balloc (insI 1 0 0 8)).wf = false := by decide
theorem test_wf_balloc_large : (Instr.balloc (insI 1 0 0 0x203)).wf = false := by decide
theorem test_wf_drd_length : (Instr.drd (insI 1 2 3 32)).wf = false := by decide
theorem test_wf_drd_pair : (Instr.drd (insI 1 31 3 64)).wf = false := by decide
theorem test_wf_cbg_registers : (Instr.cbg (ins 29 1 0)).wf = false := by decide
theorem test_wf_unit_imm : (Instr.rp (insO 1 1 0 4)).wf = false := by decide
theorem test_wf_lattice_b : (Instr.lmma (ins 1 1 1)).wf = false := by decide
theorem test_wf_bwait_stage : (Instr.bwait (insI 1 0 0 16)).wf = false := by decide
theorem test_wf_bpub_state : (Instr.bpub (insI 0 0 0 0)).wf = false := by decide
theorem test_wf_trap_code : (Instr.trap (insO 0 0 0 256)).wf = false := by decide
theorem test_wf_rdsr_number : (Instr.rdsr (insO 1 0 0 16)).wf = false := by decide
theorem test_wf_kick_fields : (Instr.kick (ins 1 0 0)).wf = false := by decide
theorem test_wf_hmrd_length : (Instr.hmrd (insI 1 2 3 96)).wf = false := by decide
theorem test_wf_write_alignment : (Instr.registerWrite 0 0 2 0).wf = false := by decide
theorem test_wf_write_bar : (Instr.registerWrite 0 0 33554432 0).wf = false := by decide

/-! ### Steps and words -/

theorem test_no_word_spells : decodeTableWord 64 0x1234 = none := rfl
theorem test_fetch_word_unchanged : up.withFetchWord 64 0x1234 = up := rfl

theorem witness_StepRunsFrontCommand : ({ up with pending := [.nop 0] } : State).pending = .nop 0 :: [] := rfl
theorem witness_IdleStepCountsMicrosecond : up.pending = [] ∧ up.owed = [] ∧ up.pins.inReset = false ∧
    ({ up with pins := { up.pins with inReset := true } } : State).pending = [] := by decide
theorem witness_CommandsAnswerNext : exec (.nop 0) up = .next up := rfl

/-! ### Scalar and branch classes -/

theorem witness_ScalarResults : canExecute thr 0 (ins 3 1 2) (List.range 0x14) = true ∧
    canExecute thr 0 (insI 3 1 0 0xFFFFFFFF) (List.range 0x14) = true ∧ canExecute thr 0 (insI 3 0 0 9) [0x14] = true := by
  decide +kernel

theorem witness_BranchResults :
    canExecute thr 1 (insO 0 0 0 (-2)) [0] = true ∧ canExecute thr 1 (insO 0 1 2 4) [1, 2, 3, 4, 5, 6] = true ∧
    canExecute thr 1 (insO 0 7 0 4) [7, 8] = true ∧ canExecute thr 1 (insO 30 0 0 4) [9] = true ∧
    canExecute { thr with s := [(1, 792)] } 1 (ins 0 1 0) [0x0A] = true ∧ rs { thr with s := [(1, 792)] } 1 = 792 ∧
    rs thr 1 ≠ rs thr 2 ∧ rs thr 1 = rs thr 1 ∧ (rs thr 2).toInt < (rs thr 1).toInt ∧
    (rp thr 0).getLsbD 15 = true ∧ (rp thr 7).getLsbD 0 = false ∧
    (thr.pc : Int) + 8 * (-2 : Word).toInt = 0 := by decide +kernel

theorem witness_JumpRangeFault :
    canExecute { thr with s := [(1, 800)] } 1 (ins 0 1 0) [0x0A] = true ∧ canExecute thr 1 (ins 0 1 0) [0x0A] = true ∧
    thr.progLen ≤ (rs { thr with s := [(1, 800)] } 1).toNat ∧ (rs thr 1).toNat % 8 ≠ 0 := by decide +kernel

theorem witness_GuardedExecution :
    (Instr.add { ins 3 1 2 with pred := 1 }).orony = some (0, 0, { ins 3 1 2 with pred := 1 }) ∧ guardedWhole 0 0 = true ∧
    issues (onThread thr) 0 0 { ins 3 1 2 with pred := 1 } thr = true ∧
    (guard16 thr { ins 3 1 2 with pred := 1 }).getLsbD 0 = false := by decide +kernel

theorem witness_GuardedExecution_never : ∃ t, exec (.vadd { ins 3 1 2 with pneg := true }) (onThread thr) = .next t := ⟨_, rfl⟩

theorem witness_ScalarBranchFrame : ∃ t, exec (.add (ins 3 1 2)) (onThread thr) = .next t ∧
    threadOf (onThread thr) th0 = some thr := ⟨_, rfl, by decide +kernel⟩

/-- The state that a command answers. -/
def after (i : Instr) (s : State) : State :=
  match exec i s with
  | .next t => t
  | _ => s

/-- Register r of the thread after a command. -/
def sAfter (i : Instr) (t : Thread) (r : Nat) : Option Word := (threadOf (after i (onThread t)) th0).map fun u => rs u r
def vAfter (i : Instr) (t : Thread) (r e : Nat) : Option Word := (threadOf (after i (onThread t)) th0).map fun u => rv u r e

/-- R207: shifts take the amount modulo 32. -/
theorem test_shl_modulo : sAfter (.shl (insI 3 1 0 33)) thr 3 = some 14 := by decide +kernel
theorem test_mulhs_negative : sAfter (.mulhs (insI 3 1 0 0xFFFFFFFF)) thr 3 = some 0xFFFFFFFF := by decide +kernel
theorem test_divu_zero : sAfter (.divu (ins 3 1 0)) thr 3 = some 0xFFFFFFFF := by decide +kernel
theorem test_call_links : sAfter (.call (insO 30 0 0 4)) thr 30 = some 24 := by decide +kernel

/-! ### Vector class -/

theorem witness_VectorIntegerResults :
    (List.range 0x13).all (fun op => issues (onThread thr) 2 op (ins 7 1 2) thr) = true ∧
    (List.range 0x10).all (fun op => issues (onThread thr) 2 op { insI 7 1 0 0x80 with w := 3 } thr) = true ∧
    issues (onThread thr) 2 0x13 (insO 7 1 2 7) thr = true ∧ issues (onThread thr) 2 0x14 (insI 7 0 0 5) thr = true ∧
    issues (onThread thr) 2 0x14 { ins 7 1 0 with w := 2 } thr = true ∧ issues (onThread thr) 2 0x15 (insO 31 7 0 15) thr = true ∧
    issues (onThread thr) 2 0x16 (insO 7 31 0 15) thr = true ∧ issues (onThread thr) 2 0x17 (ins 31 7 0) thr = true := by
  decide +kernel

theorem witness_VectorFloatResults :
    [0x18, 0x19, 0x1A].all (fun op => issues (onThread thr) 2 op (ins 7 1 2) thr) = true ∧
    [0x1B, 0x1C].all (fun op => issues (onThread thr) 2 op (ins 7 1 0) thr) = true ∧
    isNanWord 0x7F800001 = true ∧ isNanWord 0xFFFFFFFF = true ∧ isNanWord 0x7F800000 = false := by decide +kernel

theorem witness_VectorFrame : ∃ t, exec (.vceq (ins 1 2 3)) (onThread thr) = .next t ∧
    (Instr.vceq (ins 1 2 3)).orony = some (2, 0x10, ins 1 2 3) ∧ threadOf (onThread thr) th0 = some thr ∧
    (guard16 thr { ins 7 1 2 with pred := 1 }).getLsbD 15 = false := ⟨_, rfl, rfl, by decide +kernel, by decide +kernel⟩

/-- The worked example after R211: four 8-bit subwords, v1 + v3 to v2 under the complement of p2. -/
def vaddThr : Thread := { thr with v := [(16, 0x7F01FF80), (48, 0x01020180)], p := [(2, 0x00F0)] }
def vaddIns : Orony := { ins 2 1 3 with w := 2, pred := 2, pneg := true }

theorem test_vadd_guard : guard16 vaddThr vaddIns = 0xFF0F := by decide +kernel
theorem test_vadd_subwords : vAfter (.vadd vaddIns) vaddThr 2 0 = some 0x80030000 := by decide +kernel
theorem test_vadds_saturates : vAfter (.vadds vaddIns) vaddThr 2 0 = some 0x7F030080 := by decide +kernel
theorem test_vadd_guarded_off : vAfter (.vadd vaddIns) { vaddThr with v := vaddThr.v ++ [(100, 1)] } 2 4 = some 0 := by
  decide +kernel
/-- R211: 1.0 + 2^-24 is a tie and rounds to the even 1.0. -/
theorem test_vfadd_ties_even : f32add 0x3F800000 0x33800000 = 0x3F800000 := by decide +kernel
theorem test_vfmul_infinity : f32mul 0x7F000000 0x7F000000 = 0x7F800000 := by decide +kernel
theorem test_vcvtfi_saturates : f32toInt 0x7F800000 = 0x7FFFFFFF := by decide +kernel

/-! ### Tile store and cluster store -/

theorem witness_TileStoreAccesses : thTile th0 = some 0 ∧
    canExecute thr 3 (insO 3 4 0 4028) [0, 2] = true ∧ canExecute thr 3 (insO 0 4 2 4028) [1, 3] = true ∧
    canExecute thr 3 (insO 3 4 2 4028) [4, 5] = true ∧ regionOk thr (rs thr 4 + 4028 : Word).toNat 4 = true ∧
    regionOk thr (rs thr 4 + 3968 : Word).toNat 64 = true ∧
    ((guarded thr (insO 3 4 2 4028)).all fun e => regionOk thr (rs thr 4 + 4028 + rv thr 2 e : Word).toNat 4) = true := by
  decide +kernel

theorem witness_ScalarStoreFrame : executes (onThread thr) 3 0x01 (insO 0 4 2 4028) thr = true ∧
    regionOk thr (rs thr 4 + 4028 : Word).toNat 4 = true := by decide +kernel

/-- A store and a load of the same word of the region. -/
theorem test_sts_lds : sAfter (.lds (insO 3 4 0 0)) ((threadOf (after (.sts (insO 0 4 5 0)) (onThread thr)) th0).getD thr) 3 =
    some 0x30000 := by decide +kernel

/-- A stage of the recipe program with 128 bytes of cluster store, one buffer of class 0 and a large one of class 7. -/
def stg : Stage :=
  { parent := 255, template := 0, threads := 32, tsBytes := 4096, csBytes := 128, pool := [2, 0, 0, 0, 0, 0, 0, 2], prog := [],
    model0 := 9, model1 := 0xFFFF, dict := 0xFFFF, outs := [], params := [], declCost := 1000, declDu := 0 }

def rcp : Recipe :=
  { part := 0, id := 1, policy := 0, strict := false, repro := 0, targetRate := 1, budgetMult := 8, hardTo := 0, outBytes := 128,
    contexts := 4, inflight := 4, calTable := 0, calN := 16, stages := [stg], progBytes := 0, cal := none, fixedCost := true,
    readsVolatile := false, pasid := 0, recent := [], fLive := [] }

def smp : Sample :=
  { h := 5, part := 0, recipe := 1, from_ := .epoch 0, epoch := 3, pos := 0, dset := 0, dsidx := 0x12D687, dir := none,
    dirStatus := 0, dirCause := 0, dirAt := (0, 0), fail := (0, 0), tokens := [0], assigned := [0], held := [(0, 0)], handed := [],
    staging := [], stagingBufs := [], recs := [], recsRead := true, ctxs := [], pics := [], freed := [], frames := [], moved := [], started := true, die := 0,
    budget := 100, charged := 0, stageCharged := [], stageVec := [], partsEnded := [], reruns := 0, ueCount := 0, ready := false,
    dropped := none, cause := 0, damagedPics := 0, damaged := false, short := false, deferred := false, straggler := false,
    wrote := false, stagingWait := false,
    tokenDies := [], placed := none, copied := false, late := false }

def mdl : Model :=
  { uid := 40, part := 0, id := 9, imageBytes := 8192, chunkBytes := 65536, parts := 0, tsMin := 0, paramMin := 0, paramMax := 0,
    progs := [], layers := [⟨7, false, 0, 2, 4, 0, 16, 0⟩], weights := [], copies := [], wOff := 0, garbled := [] }

/-- Buffer 0: class 0 on die 0, with a landed byte. -/
def buf0 : Buf := ⟨0, 0, [0], false, 1, 1, .stage 1 0, [(3, 9)], .landed, []⟩

/-- The thread with its sample, recipe, model and buffer 0. -/
def inSample (t : Thread) : State :=
  { up with threads := [t], samples := [smp], recipes := [rcp], models := [mdl], bufs := [buf0]
            superblocks := [⟨0, 0, 0, none, 15, false, false, []⟩] }

def csThr : Thread := { thr with s := [(1, 124), (2, 0x1000000), (3, 0x1800000), (4, 64)] }
def csIns (a : Fin 32) : Orony := { ins 6 a 0 with w := 1 }

theorem witness_ClusterStoreLoads_bytes : ∃ l l', csRead (issued (inSample csThr) th0) csThr 124 4 = .bytes l ∧
    csRead (issued (inSample csThr) th0) csThr 64 64 = .bytes l' := ⟨_, _, rfl, rfl⟩

theorem witness_ClusterStoreLoads :
    executes (inSample csThr) 3 0 (csIns 1) csThr = true ∧ issues (inSample csThr) 3 2 (csIns 4) csThr = true ∧
    executes (inSample csThr) 3 0 (csIns 2) csThr = true ∧ issues (inSample csThr) 3 2 (csIns 2) csThr = true ∧
    csRead (issued (inSample csThr) th0) csThr 0x1000000 4 = .wait 0 0 ∧ csRead (issued (inSample csThr) th0) csThr 0x1000000 64 = .wait 0 0 ∧
    csRead (issued (inSample csThr) th0) csThr 0x1800000 4 = .range ∧ csRead (issued (inSample csThr) th0) csThr 0x1800000 64 = .range := by
  decide +kernel

/-! ### Buffers, DMA and tickets -/

/-- s[1] = 0, a handle held; s[2] = 0; s[3] = 64; s[4] = 77, a handle that is not held; s[6] = 4096. -/
def dmaThr : Thread := { thr with s := [(3, 64), (4, 77), (6, 4096), (7, 4032)] }

theorem witness_BufferOperations :
    sampleOf (inSample dmaThr) 5 = some smp ∧
    executes (inSample dmaThr) 4 0 (insI 8 0 0 0) dmaThr = true ∧ executes (inSample dmaThr) 4 0 (insI 8 0 0 0x207) dmaThr = true ∧
    holdsOf (inSample dmaThr) dmaThr 0 + 1 ≤ poolOf (inSample dmaThr) dmaThr 0 ∧
    holdsOf (inSample dmaThr) dmaThr 7 + 2 ≤ poolOf (inSample dmaThr) dmaThr 7 ∧
    (alloc (inSample dmaThr) 0 (.stage 1 0) 0 0).isSome = true ∧ (allocLarge (inSample dmaThr) 0 (.stage 1 0) 0 2).isSome = true ∧
    alloc { inSample dmaThr with mpUp := 0, superblocks := [] } 0 (.stage 1 0) 0 0 = none ∧
    executes { inSample dmaThr with mpUp := 0, superblocks := [] } 4 0 (insI 8 0 0 0) dmaThr = true ∧
    executes (inSample dmaThr) 4 0 (insI 8 0 0 1) dmaThr = true ∧
    poolOf (inSample dmaThr) dmaThr 1 < holdsOf (inSample dmaThr) dmaThr 1 + 1 ∧
    executes (inSample dmaThr) 4 1 (ins 0 1 0) dmaThr = true ∧ executes (inSample dmaThr) 4 2 (ins 0 1 0) dmaThr = true ∧
    holds (inSample dmaThr) 5 0 = true ∧ bufOf (inSample dmaThr) 0 = some buf0 ∧ buf0.refs < 65535 ∧
    executes (inSample dmaThr) 4 1 (ins 0 4 0) dmaThr = true ∧ executes (inSample dmaThr) 4 2 (ins 0 4 0) dmaThr = true ∧
    holds (inSample dmaThr) 5 77 = false := by decide +kernel

theorem witness_BufferOperations_count :
    bufOf { inSample dmaThr with bufs := [{ buf0 with refs := 65535 }] } 0 = some { buf0 with refs := 65535 } ∧
    executes { inSample dmaThr with bufs := [{ buf0 with refs := 65535 }] } 4 1 (ins 0 1 0) dmaThr = true := by decide +kernel

/-- Memory port 0, on which buffer 0 and the staging area lie, is paused. -/
def paused (s : State) : State := { s with mpUp := 0xFFFF, mpPaused := 0xFFFF }
def stagedState (t : Thread) : State := { inSample t with samples := [{ smp with stagingBufs := [0] }] }

theorem witness_DmaTransfers :
    executes (inSample dmaThr) 4 3 (insI 8 1 7 64) dmaThr = true ∧ executes (inSample dmaThr) 4 4 (insI 8 1 7 64) dmaThr = true ∧
    ticketFree dmaThr = true ∧ dmaOk (inSample dmaThr) dmaThr 0 0 4032 64 = true ∧
    bufReady (inSample dmaThr) 0 0 0 64 = true ∧ bufOutcome (inSample dmaThr) 0 = (0, 0) ∧
    (readLines (inSample dmaThr) 0 0 64).2 = false ∧
    bufReady { inSample dmaThr with bufs := [{ buf0 with landing := .inFlight }] } 0 0 0 64 = false ∧
    dmaOk { inSample dmaThr with bufs := [{ buf0 with landing := .inFlight }] } dmaThr 0 0 4032 64 = true ∧
    bufOpen (inSample dmaThr) 0 0 0 64 = true ∧ (dwrNow (inSample dmaThr) th0 0 0 4032 64).2 = false ∧
    bufOpen (paused (inSample dmaThr)) 0 0 0 64 = false ∧
    executes (paused (inSample dmaThr)) 4 4 (insI 8 1 7 64) dmaThr = true ∧
    executes (inSample dmaThr) 4 5 (insI 8 3 7 64) dmaThr = true ∧ outBytesOf (inSample dmaThr) dmaThr = 64 + 64 ∧
    stageOpen (stagedState dmaThr) 0 5 64 64 = true ∧ (doutNow (stagedState dmaThr) th0 64 4032 64).2 = false ∧
    stageOpen (paused (stagedState dmaThr)) 0 5 64 64 = false ∧
    executes (paused (stagedState dmaThr)) 4 5 (insI 8 3 7 64) dmaThr = true ∧
    executes (inSample dmaThr) 4 6 (insI 8 2 7 2) dmaThr = true ∧ (rs dmaThr 7).toNat + 32 * 2 = dmaThr.tsBytes := by
  decide +kernel

theorem witness_RangeAndAlignmentFaults :
    executes (inSample dmaThr) 3 0 (insO 8 3 0 2) dmaThr = true ∧ executes (inSample dmaThr) 3 1 (insO 0 3 1 2) dmaThr = true ∧
    (rs dmaThr 3 + 2 : Word).toNat % 4 ≠ 0 ∧
    executes (inSample dmaThr) 3 0 (insO 8 6 0 0) dmaThr = true ∧ executes (inSample dmaThr) 3 1 (insO 0 6 1 0) dmaThr = true ∧
    dmaThr.tsBytes < (rs dmaThr 6 + 0 : Word).toNat + 4 ∧
    executes (inSample dmaThr) 4 5 (insI 8 3 7 128) dmaThr = true ∧ outBytesOf (inSample dmaThr) dmaThr < 64 + 128 ∧
    holds (inSample dmaThr) 5 0 = true ∧ bufOf (inSample dmaThr) 0 = some buf0 ∧ bufSize buf0 < 0 + 4160 ∧
    executes (inSample dmaThr) 4 3 (insI 8 1 7 4160) dmaThr = true ∧ executes (inSample dmaThr) 4 4 (insI 8 1 7 4160) dmaThr = true ∧
    holds (inSample dmaThr) 5 77 = false ∧ executes (inSample dmaThr) 4 3 (insI 8 4 7 64) dmaThr = true ∧
    executes (inSample dmaThr) 4 4 (insI 8 4 7 64) dmaThr = true := by decide +kernel

/-- 64 tickets outstanding. -/
def fullThr : Thread := { dmaThr with tickets := (List.range 64).map fun i => ⟨i + 1, 0, false, false, none, (0, 0), 0⟩ }
/-- Ticket 64 has completed with status 1, ticket 77 has not. -/
def waitThr : Thread := { dmaThr with tickets := [⟨64, 1, true, false, none, (0, 0), 0⟩, ⟨77, 0, false, false, none, (0, 0), 0⟩] }

theorem witness_TicketsAndWaits :
    threadOf (inSample dmaThr) dmaThr.th = some dmaThr ∧ ticketFree dmaThr = true ∧ ticketFree fullThr = false ∧
    executes (inSample fullThr) 4 4 (insI 8 1 7 64) fullThr = true ∧ dmaOk (inSample fullThr) fullThr 0 0 4032 64 = true ∧
    executes (inSample fullThr) 4 6 (insI 8 2 7 2) fullThr = true ∧
    (waitThr.tickets.find? fun k => k.num = (rs waitThr 3).toNat) = some ⟨64, 1, true, false, none, (0, 0), 0⟩ ∧
    (waitThr.tickets.find? fun k => k.num = (rs waitThr 4).toNat) = some ⟨77, 0, false, false, none, (0, 0), 0⟩ ∧
    executes (inSample waitThr) 4 7 (ins 8 3 0) waitThr = true ∧ executes (inSample waitThr) 5 6 (ins 8 3 0) waitThr = true ∧
    executes (inSample waitThr) 6 4 (ins 8 3 0) waitThr = true ∧ executes (inSample waitThr) 4 7 (ins 8 4 0) waitThr = true ∧
    executes (inSample waitThr) 5 6 (ins 8 4 0) waitThr = true ∧ executes (inSample waitThr) 6 4 (ins 8 4 0) waitThr = true := by
  decide +kernel

theorem test_dwait_status : (threadOf (after (.dwait (ins 8 3 0)) (inSample waitThr)) th0).map (fun u => rs u 8) = some 1 := by
  decide +kernel

/-! ### Units and lattice -/

/-- A thread whose s[3] = 64 names the given block, with more bytes of the region from 128 on. -/
def blkThr (l rest : List Byte) : Thread := { dmaThr with region := putAll zero 64 (l ++ toLe (64 - l.length) 0 ++ rest) [] }

/-- A context of the entropy unit in format 1. -/
def ctx0 : Ctx :=
  { ctx := 0, stage := 0, opts := [1, 0, 0, 0, 0, 0, 0], config := [], history := [], stateBuf := 8192, store := [], queue := [],
    flushed := [], outCount := 0, leading := [], shown := [], shape := none, left := [], kept := [] }

def smpU : Sample := { smp with held := [(0, 0), (0, 1)], ctxs := [ctx0] }

/-- The sample with buffers 0 and 1, one context and a stage with buffers of class 3. -/
def inUnit (t : Thread) : State :=
  { inSample t with
    samples := [smpU]
    recipes := [{ rcp with stages := [{ stg with pool := [2, 0, 0, 2, 0, 0, 0, 2], dict := 3 }] }]
    dicts := [⟨0, 3, 64, [], 0x00400000, 0x00400100, 0x00400101, 0x00400102, 0x00400103, [([0x66], 77)], [], []⟩]
    bufs := [buf0, { buf0 with handle := 1 }] }

/-- Status with which a unit is done at once. -/
def doneStatus : UnitOut → Option Nat
  | .done _ st _ => some st
  | _ => none

/-- Unit instruction `op` can issue on the block l of function f. -/
def queues (op f : Nat) (l : List Byte) : Bool :=
  invokes (inUnit (blkThr l [])) 5 op (ins 8 3 0) (blkThr l []) && decide (b8 (blockOf (blkThr l []) (ins 8 3 0)) 0 = f)

/-- The thread with ticket 1 outstanding for a unit's command on its block. -/
def turnThr (l rest : List Byte) (op : UnitOp) : Thread :=
  { blkThr l rest with tickets := [⟨1, 0, false, false, some op, (0, 0), 0⟩], nextTicket := 2 }
def turnState (l rest : List Byte) (op : UnitOp) : State := inUnit (turnThr l rest op)

theorem witness_GuardedExecution_unit :
    unitFunc (.blend { ins 8 3 0 with pred := 1 }) = some (b8 (tsRead (blkThr [5] []) (rs (blkThr [5] []) 3).toNat 64) 0) ∧
    issues (inUnit (blkThr [5] [])) 5 2 { ins 8 3 0 with pred := 1 } (blkThr [5] []) = true ∧
    (guard16 (blkThr [5] []) { ins 8 3 0 with pred := 1 }).getLsbD 0 = false := by decide +kernel

theorem unitTurn_eu (l : List Byte) : unitTurn (turnState l [] (.eu 64 6)) .eu (turnThr l [] (.eu 64 6)) 1 64 6 :=
  ⟨rfl, rfl, ⟨0, false, (0, 0), 0, rfl⟩, rfl⟩
theorem unitTurn_iu (l rest : List Byte) : unitTurn (turnState l rest (.iu 64 6)) .iu (turnThr l rest (.iu 64 6)) 1 64 6 :=
  ⟨rfl, rfl, ⟨0, false, (0, 0), 0, rfl⟩, rfl⟩
theorem unitTurn_du (l : List Byte) : unitTurn (turnState l [] (.tokenise 64 0 2 6)) (fun b q => .tokenise b 0 2 q)
    (turnThr l [] (.tokenise 64 0 2 6)) 1 64 6 :=
  ⟨rfl, rfl, ⟨0, false, (0, 0), 0, rfl⟩, rfl⟩

/-- The block may run and finds what it reads, and no earlier command of its tile or context stands. -/
def euServes (f : Nat) (l : List Byte) (ok : Bool) : Bool :=
  let t := turnThr l [] (.eu 64 6)
  let s := turnState l [] (.eu 64 6)
  decide (sampleOf s t.sample = some smpU) && !euBefore s t.th smpU.h (b8 (tsRead t 64 64) 2) 6 &&
  euBlockOk s t smpU (tsRead t 64 64) == ok && euReady s t.th (tsRead t 64 64) && decide (euFunc (tsRead t 64 64) = f) &&
  decide (ctxOf smpU (b8 (tsRead t 64 64) 2) = if f = 1 then none else some ctx0)

def euOpenBlk : List Byte := [1, 1, 1, 0] ++ toLe 4 noHandle
def euAuBlk : List Byte := [2, 0, 0, 0] ++ toLe 4 noHandle ++ toLe 8 0 ++ [64, 0, 0, 0] ++ toLe 4 128 ++ [16]
def euFlushBlk : List Byte := [3, 0, 0, 0] ++ toLe 16 0 ++ toLe 4 128 ++ [1]

theorem witness_EntropyUnitFunctions :
    queues 0 1 euOpenBlk = true ∧ queues 0 2 euAuBlk = true ∧ queues 0 3 euFlushBlk = true ∧ queues 0 4 [4] = true ∧
    euServes 1 euOpenBlk true = true ∧ euServes 2 euAuBlk true = true ∧ euServes 3 euFlushBlk true = true ∧
    euServes 4 [4] true = true ∧ euServes 4 [4, 1] false = true ∧
    doneStatus (ctxOpen (turnState euOpenBlk [] (.eu 64 6)) (turnThr euOpenBlk [] (.eu 64 6)) smpU
      (tsRead (turnThr euOpenBlk [] (.eu 64 6)) 64 64)) = some 0 ∧
    (doneStatus (decodeAu (turnState euAuBlk [] (.eu 64 6)) (turnThr euAuBlk [] (.eu 64 6)) smpU ctx0 64
      (tsRead (turnThr euAuBlk [] (.eu 64 6)) 64 64))).isSome = true := by decide +kernel

/-- A picture record of one 2 by 2 plane of depth 8 in buffer 0, then an auxiliary block. -/
def picRest (aux : List Byte) : List Byte :=
  toLe 4 0 ++ toLe 2 2 ++ toLe 2 2 ++ toLe 4 0 ++ toLe 2 2 ++ toLe 2 2 ++ toLe 4 0 ++ [8, 0, 0, 1] ++ toLe 40 0 ++ aux

def iuBlk (f b1 : Nat) (size : List Byte) (aux : Nat) : List Byte :=
  [BitVec.ofNat 8 f, BitVec.ofNat 8 b1, 0, 0] ++ toLe 4 0 ++ toLe 4 1 ++ toLe 4 128 ++ toLe 4 2048 ++ size ++ toLe 4 aux

/-- The block of function f can issue, and when it is its turn it finds its pictures whole in sound memory. -/
def iuServes (f : Nat) (l aux : List Byte) : Bool :=
  let t := turnThr l (picRest aux) (.iu 64 6)
  let s := turnState l (picRest aux) (.iu 64 6)
  let b := parseIu (tsRead t 64 64)
  invokes (inUnit (blkThr l (picRest aux))) 5 0x02 (ins 8 3 0) (blkThr l (picRest aux)) &&
  decide (b8 (blockOf (blkThr l (picRest aux)) (ins 8 3 0)) 0 = f) && !iuBefore s t.th 6 && iuOk s t (tsRead t 64 64) &&
  soundMemory s && (iuReads t b (tsRead t b.aux (auxLen b.func))).all (fun h => decide (bufOutcome s h = (0, 0)) &&
    bufReady s (thDie t.th) h 0 (((bufOf s h).map bufSize).getD 0)) &&
  bufOpen s (thDie t.th) b.dst 0 (((bufOf s b.dst).map bufSize).getD 0) &&
  (bufOf s b.dst).any fun u => wf zero u.data

theorem witness_ImageUnitFunctions :
    iuServes 1 (iuBlk 1 0 (toLe 4 0 ++ toLe 2 2 ++ toLe 2 2 ++ toLe 2 2 ++ toLe 2 2) 0) [] = true ∧
    iuServes 2 (iuBlk 2 1 (toLe 8 0 ++ toLe 2 2 ++ toLe 2 2) 192) (toLe 24 0) = true ∧
    iuServes 3 (iuBlk 3 0 (toLe 12 0) 192) (toLe 128 0) = true ∧
    iuServes 4 (iuBlk 4 0 (toLe 12 0) 192) (toLe 4 0x3F800000 ++ toLe 4 0x41800000) = true ∧
    iuServes 5 (iuBlk 5 0 (toLe 12 0) 192) (toLe 4 0 ++ toLe 4 128 ++ toLe 2 256) = true ∧
    iuOk (turnState [1] [] (.iu 64 6)) (turnThr [1] [] (.iu 64 6)) (tsRead (turnThr [1] [] (.iu 64 6)) 64 64) = false := by
  decide +kernel

def layerBlk : List Byte := [1, 0, 7, 7] ++ toLe 4 0 ++ toLe 4 256 ++ toLe 4 16 ++ toLe 4 512 ++ toLe 4 8 ++ toLe 2 1
def selectBlk : List Byte := [2, 0, 7, 0] ++ toLe 4 4 ++ toLe 4 256 ++ toLe 4 16 ++ toLe 4 512 ++ toLe 4 4 ++ toLe 2 1 ++ [0x10]
def duBlk : List Byte := [1, 0, 0, 0] ++ toLe 4 0 ++ toLe 4 2 ++ toLe 4 1 ++ toLe 4 2

theorem witness_PipeAndEncoderUnitFunctions :
    invokes (inUnit (blkThr [] [])) 5 0x01 (ins 8 3 0) (blkThr [] []) = true ∧
    invokes (inUnit (blkThr layerBlk [])) 5 0x03 (ins 8 3 0) (blkThr layerBlk []) = true ∧
    layerOk (inUnit (blkThr layerBlk [])) (blkThr layerBlk []) (blockOf (blkThr layerBlk []) (ins 8 3 0)) = true ∧
    (blsLayer (inUnit (blkThr layerBlk [])) (blkThr layerBlk []) (parseBls (blockOf (blkThr layerBlk []) (ins 8 3 0)))).isSome = true ∧
    ((inUnit (blkThr layerBlk [])).landing.find? fun b => b.cluster = clusterOf th0 && b.ready) = none ∧
    invokes (inUnit (blkThr selectBlk [])) 5 0x03 (ins 8 3 0) (blkThr selectBlk []) = true ∧
    doneStatus (selectRun (inUnit (blkThr selectBlk [])) th0 64) = some 0 ∧
    invokes (inUnit (blkThr duBlk [])) 5 0x04 (ins 8 3 0) (blkThr duBlk []) = true ∧
    doneStatus (duRun (turnState duBlk [] (.tokenise 64 0 2 6)) th0 64 0 6) = some 0 := by decide +kernel

/-- Two commands of partition 0 at dictionary unit 0, and one of partition 1 whose turn comes after its own. -/
def duTwo : State := { turnState duBlk [] (.tokenise 64 0 2 6) with
  threads := [{ turnThr duBlk [] (.tokenise 64 0 2 6) with tickets :=
    [⟨1, 0, false, false, some (.tokenise 64 0 2 6), (0, 0), 0⟩, ⟨2, 0, false, false, some (.tokenise 64 0 2 7), (0, 0), 0⟩] },
    { turnThr duBlk [] (.tokenise 64 0 2 8) with th := .tile 1 0, part := 1 }] }

theorem witness_PipeAndEncoderUnitFunctions_turn :
    duBefore duTwo 0 0 7 = true ∧ duBefore duTwo 0 0 6 = false ∧ duTurn duTwo 0 0 = true ∧ duTurn duTwo 0 1 = false := by
  decide +kernel

/-- s[4] = 5, s[5] = purpose 0x10, s[6] = frame 3, as in the example after R222; s[9] = 0x0B0000, a purpose of the block's own. -/
def cbgThr : Thread := { thr with s := [(4, 5), (5, 0x00100000), (6, 3), (9, 0x000B0000)] }

theorem witness_CounterGeneratorDraws :
    purposeOk ((rs cbgThr 5).toNat / 65536 % 256) = true ∧ executes (inSample cbgThr) 5 5 (ins 8 4 0) cbgThr = true ∧
    executes (inSample cbgThr) 5 7 (ins 7 4 0) cbgThr = true ∧ purposeOk ((rs cbgThr 9).toNat / 65536 % 256) = false ∧
    executes (inSample cbgThr) 5 5 (ins 8 8 0) cbgThr = true ∧ executes (inSample cbgThr) 5 7 (ins 7 8 0) cbgThr = true := by
  decide +kernel

def latBlk (fa fb func : Nat) (bOff k bStr : Nat) : List Byte :=
  [BitVec.ofNat 8 fa, BitVec.ofNat 8 fb, 7, 0, BitVec.ofNat 8 func, 0, 0, 0] ++ toLe 4 256 ++ toLe 4 bOff ++ toLe 4 264 ++ toLe 2 1 ++
  toLe 2 1 ++ toLe 2 k ++ toLe 2 0 ++ toLe 4 4 ++ toLe 4 bStr ++ toLe 4 4
def lredBlk : List Byte := [0, 0, 7, 0, 0, 0, 0, 0] ++ toLe 8 0 ++ toLe 4 264 ++ toLe 2 1 ++ toLe 2 1 ++ toLe 12 0 ++ toLe 4 4

def latCan (op : Nat) (l : List Byte) (ok : Bool) : Bool :=
  invokes (inUnit (blkThr l [])) 6 op (ins 8 3 0) (blkThr l []) && latOk op 4096 (blockOf (blkThr l []) (ins 8 3 0)) == ok &&
  !(parseLat (blockOf (blkThr l []) (ins 8 3 0))).cluster

theorem witness_LatticeOperations :
    latCan 0 (latBlk 7 7 0 260 1 4) true = true ∧ latCan 1 (latBlk 7 0 1 0 0 0) true = true ∧
    latCan 2 (latBlk 7 0 0 0 0 0) true = true ∧ latCan 3 lredBlk true = true ∧
    ([0, 1, 2, 3].all fun op => latCan op [] false) = true ∧ latBefore (inUnit (blkThr [] [])) th0 0 = false := by decide +kernel

/-- An LACT of the thread waits already. -/
def latQueued (l : List Byte) : State := { turnState l [] (.lat 1 64 5) with nextId := 6 }

theorem witness_LatticeOperations_queued :
    latBefore (latQueued []) th0 6 = true ∧ ([(0, latBlk 7 7 0 260 1 4), (1, latBlk 7 0 1 0 0 0), (2, latBlk 7 0 0 0 0 0), (3, lredBlk)].all
      fun (k, l) => invokes (latQueued l) 6 k (ins 8 3 0) (turnThr l [] (.lat 1 64 5)) &&
        latOk k 4096 (blockOf (turnThr l [] (.lat 1 64 5)) (ins 8 3 0))) = true := by decide +kernel

/-- A product whose matB stands in the cluster store, at byte a of it. -/
def csLmma (a : Nat) : Thread := blkThr (latBlk 7 7 0 (0x80000000 + a) 1 4) []
def csLmmaOk (a : Nat) : Bool :=
  let b := parseLat (blockOf (csLmma a) (ins 8 3 0))
  invokes (inUnit (csLmma a)) 6 0 (ins 8 3 0) (csLmma a) && latOk 0 4096 (blockOf (csLmma a) (ins 8 3 0)) && b.cluster
def csLmmaRead (a : Nat) : CsRead :=
  csRows (issued (inUnit (csLmma a)) th0) (csLmma a) (parseLat (blockOf (csLmma a) (ins 8 3 0))).matB

theorem witness_LatticeOperations_cluster :
    ([0, 0x1000000, 0x7F000000].all csLmmaOk) = true ∧ csLmmaRead 0x1000000 = .wait 0 0 ∧ csLmmaRead 0x7F000000 = .range := by
  decide +kernel
theorem witness_LatticeOperations_image : ∃ l, csLmmaRead 0 = .bytes l := ⟨_, rfl⟩

/-! ### Barriers, system and management -/

def bpubThr : Thread := { dmaThr with tickets := [⟨1, 0, false, true, none, (0, 0), 0⟩] }

theorem witness_BarrierAndSystemOperations :
    sampleOf (inSample thr) 5 = some smp ∧ executes (inSample thr) 7 0 (insI 8 0 0 0) thr = true ∧
    smp.tokens.getD 0 0 = 0 ∧ ({ smp with tokens := [2] } : Sample).tokens.getD 0 0 ≠ 0 ∧
    executes (inSample thr) 7 1 (insI 0 0 0 1) thr = true ∧ executes (inSample thr) 7 1 (insI 0 0 0 3) thr = true ∧
    executes (inSample { thr with published := 1 }) 7 1 (insI 0 0 0 1) { thr with published := 1 } = true ∧
    executes (inSample bpubThr) 7 1 (insI 0 0 0 1) bpubThr = true ∧ writesPending bpubThr = true ∧
    writesPending thr = false ∧ encodeParts (inSample thr) thr = none ∧
    canExecute thr 8 (ins 0 0 0) [0, 1, 2] = true ∧ templateEnd (inSample thr) thr = none ∧ outstanding thr = [] ∧
    outstanding bpubThr ≠ [] ∧ executes (inSample bpubThr) 8 2 (ins 0 0 0) bpubThr = true ∧
    templateEnd (inSample bpubThr) bpubThr = none ∧ canExecute thr 8 (insO 0 0 0 255) [3] = true ∧
    (List.range 16).all (fun c => executes (inSample thr) 8 4 (insO 8 0 0 (BitVec.ofNat 32 c)) thr &&
      (specialReg (inSample thr) thr c).isSome) = true := by decide +kernel

/-- The stage runs template 9. -/
def tplState : State := { inSample thr with recipes := [{ rcp with stages := [{ stg with template := 9 }] }] }

/-- The token of stage 0 was published on die 1, whose route to die 0 a route change holds. -/
def heldToken : State := { inSample thr with samples := [{ smp with tokens := [2], tokenDies := [(0, 1)] }], routeHolds := [(1, 0)] }

theorem witness_BarrierAndSystemOperations_held : sampleOf heldToken 5 = some { smp with tokens := [2], tokenDies := [(0, 1)] } ∧
    executes heldToken 7 0 (insI 8 0 0 0) thr = true ∧ tokenHeld heldToken 5 0 th0 = true ∧
    tokenHeld { heldToken with routeHolds := [] } 5 0 th0 = false := by decide +kernel

theorem witness_BarrierAndSystemOperations_template : executes tplState 8 2 (ins 0 0 0) thr = true ∧ outstanding thr = [] ∧
    (templateEnd tplState thr).isSome = true := by decide +kernel

def mTh : ThreadRef := .mgmt 3 3
def mThr : Thread := { thr with th := mTh, s := [(1, 0x1C), (3, 64), (4, 4032), (5, 0x1000), (6, 0xFFC), (7, 0x800200)] }
def mIns (d a b : Fin 32) : Orony := { ins d a b with th := mTh }
def mInsI (d a b : Fin 32) : Orony := { insI d a b 64 with th := mTh }

theorem witness_ManagementOperations :
    executes (onThread mThr) 9 0 (mIns 8 1 0) mThr = true ∧ (peekReg (onThread mThr) 0x1C).isSome = true ∧
    executes (onThread mThr) 9 1 (mIns 0 5 1) mThr = true ∧ resolve (onThread mThr) 0 0x1000 = .word 0x1000 ∧
    executes (onThread mThr) 9 2 (mInsI 8 3 4) mThr = true ∧ executes (onThread mThr) 9 3 (mInsI 8 3 4) mThr = true ∧
    ticketFree mThr = true ∧ (rs mThr 4).toNat + 64 = mThr.tsBytes ∧ executes (onThread mThr) 9 4 (mIns 0 0 0) mThr = true ∧
    executes (onThread mThr) 9 0 (mIns 8 6 0) mThr = true ∧
    peekReg (issued (onThread mThr) mTh) 0xFFC = none ∧ executes (onThread mThr) 9 1 (mIns 0 7 1) mThr = true ∧
    resolve (onThread mThr) 0 0x800200 = .alias_ 0x10 0 := by decide +kernel

/-- STS and LDS of a management thread at the last word of its die's data region. -/
theorem witness_TileStoreAccesses_management :
    executes (onThread mThr) 3 0 { mIns 8 4 0 with imm := 60 } mThr = true ∧
    executes (onThread mThr) 3 1 { mIns 0 4 1 with imm := 60 } mThr = true ∧ regionOk mThr (rs mThr 4 + 60 : Word).toNat 4 = true ∧
    ((onThread mThr).dies[3]?).isSome = true := by decide +kernel

/-! ### Register writes -/

/-- A write of v at a BAR0 word through PF0 is complete, and passes its checks: no field rejects it and none is W1C. -/
def mayWrite (s : State) (o : Nat) (v : Word) : Bool :=
  accessible s 0 0 o (.word o) && settable s o (written s o v) (actions o v) && decide (clears o v = 0)

theorem witness_RegisterWriteSetsFields :
    accessible up 0 0 0x38 (.word 0x38) = true ∧ settable up 0x38 (written up 0x38 0xFFFFFFFF) (actions 0x38 0xFFFFFFFF) = true ∧
    quietReg 0x38 = true ∧ clears 0x38 0xFFFFFFFF = 0 ∧ canonical up = true := by decide +kernel

theorem witness_UnaddressedAccessCounted :
    (0xFFC : Nat) < barSize 0 false ∧
    accessible up 0 0 0xFFC .none = true ∧ presented up 0 0 = true ∧ resolve up 0 0xFFC = .none ∧ resolve up 0 0x10 = .word 0x10 := by
  decide +kernel

/-- CFG_REJ, bit 0 of BLK_LOCK_ERR, is set. -/
def rejState : State := setReg up 0x14 3
/-- A paused memory port keeps bit 4 of the health word 0x1004 present. -/
def pausedState : State := { setReg up 0x1004 0x10 with mpPaused := 1 }

/-- Bit b of the register at o is set and a write may clear it. -/
def mayClear (s : State) (o b : Nat) : Bool :=
  accessible s 0 0 o (.word o) && settable s o (reg s o) 0 && quietReg o && decide (rwMask o = 0) &&
  decide (actions o (BitVec.twoPow 32 b) = 0) && decide (clears o (BitVec.twoPow 32 b) = BitVec.twoPow 32 b) && (reg s o).getLsbD b

theorem witness_WriteOneClearsBit :
    canonical rejState = true ∧ mayClear rejState 0x14 0 = true ∧ causeStands rejState 0x14 0 = false ∧ companion 0x14 0 ≠ 0x14 ∧
    canonical pausedState = true ∧ mayClear pausedState 0x1004 4 = true ∧ causeStands pausedState 0x1004 4 = true ∧
    companion 0x1004 4 ≠ 0x1004 := by decide +kernel

/-- The bit alias of bit b of the register at o. -/
def aliasOf (o b : Nat) : Nat := 0x800000 + 32 * o + 4 * b

theorem witness_AliasWritesOneBit :
    (regFields 0x38).isSome = true ∧ resolve up 0 (aliasOf 0x38 31) = .alias_ 0x38 31 ∧ accessible up 0 0 (aliasOf 0x38 31) (.alias_ 0x38 31) = true ∧
    (rwMask 0x38).getLsbD 31 = true ∧ clears 0x38 (BitVec.twoPow 32 31) = 0 ∧ actions 0x38 (BitVec.twoPow 32 31) = 0 ∧
    settable up 0x38 ((reg up 0x38 &&& ~~~(BitVec.twoPow 32 31)) ||| BitVec.twoPow 32 31) 0 = true := by decide +kernel

theorem witness_SixtyFourBitWrites :
    accessible up 0 0 0x100 (.word 0x100) = true ∧ unlocked up 0x100 = true ∧ isLowHalf 0x100 = true ∧ rwMask 0x100 ≠ 0 ∧
    accessible up 0 0 0x10C (.word 0x10C) = true ∧ pairSettable up 0 0x10C (written up 0x10C 5) = true ∧ quietReg 0x10C = true ∧
    clears 0x10C 5 = 0 ∧ actions 0x10C 5 = 0 ∧ lowKey 1 0x100 ≠ lowKey 0 0x100 := by decide +kernel

/-- CFG_LOCK is 1. -/
def locked : State := setFld up 0x10 0 0 1

theorem witness_RejectedAndLockedWrites :
    accessible up 0 0 0x1018 (.word 0x1018) = true ∧ unlocked up 0x1018 = true ∧ isLowHalf 0x1018 = false ∧
    isHighHalf 0x1018 = false ∧
    rejected up 0x1018 (reg up 0x1018).toNat (written up 0x1018 0xFFFFFFFF).toNat (2 ^ 32 * (written up 0x1018 0xFFFFFFFF).toNat)
      (actions 0x1018 0xFFFFFFFF).toNat = true ∧
    presented up 0 0 = true ∧ up.fatal = false ∧ fld up 0x10 0 0 = 0 ∧ settable up 0x10 (written up 0x10 1) 0 = true ∧
    presented locked 0 0 = true ∧ locked.fatal = false ∧ fld locked 0x10 0 0 = 1 ∧ locked.boot.restoreRun = false := by
  decide +kernel

/-- Partition 1 enabled, with primary port 1 and queue 1. -/
def part1 : State := setReg (setReg (setReg up (partBase 1) 1) (partBase 1 + 8) 0x81) (partBase 1 + 0x10) 2
def part1Off : State := setReg part1 (partBase 1) 0
/-- Partition 3 has given up key slot 3. -/
def freeSlot : State := setReg up (partBase 3 + 0x28) 5

theorem witness_UnaddressedAccessCounted_page :
    accessible part1 0 0 (queueBase 1) (.view (queueBase 1)) = true ∧ owner part1 1 = 1 ∧ partEn part1 1 = true ∧
    (regFields (queueBase 1 + 0)).isSome = true ∧ presented part1 1 1 = true ∧ owner part1 0x3F ≠ 1 ∧ (0x3F000 : Nat) < barSize 1 true := by decide +kernel

theorem witness_PartitionControlWrites :
    mayWrite up (partBase 0) 0x80000001 = true ∧ (written up (partBase 0) 0x80000001).getLsbD 0 = (reg up (partBase 0)).getLsbD 0 ∧
    (actions (partBase 0) 0x80000001).getLsbD 31 = true ∧
    mayWrite up (partBase 15) 0x80000000 = true ∧ (written up (partBase 15) 0x80000000).getLsbD 0 = (reg up (partBase 15)).getLsbD 0 ∧
    mayWrite part1Off (partBase 1) 1 = true ∧ (reg part1Off (partBase 1)).getLsbD 0 = false ∧
    (written part1Off (partBase 1) 1).getLsbD 0 = true ∧ (actions (partBase 1) 1).getLsbD 31 = false ∧
    mayWrite part1 (partBase 1) 0 = true ∧ (reg part1 (partBase 1)).getLsbD 0 = true ∧
    (written part1 (partBase 1) 0).getLsbD 0 = false ∧
    mayWrite freeSlot (partBase 3 + 0x28) 3 = true ∧ actions (partBase 3 + 0x28) 3 = 0 ∧
    written freeSlot (partBase 3 + 0x28) 3 ≠ reg freeSlot (partBase 3 + 0x28) ∧
    mayWrite up (partBase 15 + 0xC) 1 = true ∧ actions (partBase 15 + 0xC) 1 = 0 ∧ alive up = true := by decide +kernel

/-- Partition 1 under reset, to be disabled and moved to key slot 3 as the reset ends. -/
def resetting1 : State := setPart part1 1 fun x => { x with resetting := true, thenOff := true, thenSlot := some 3 }

theorem witness_PartitionControlWrites_end : canonical part1 = true ∧ (part part1 1).resetting = false ∧ owner part1 1 = 1 ∧
    canonical resetting1 = true ∧ (part resetting1 1).resetting = true ∧ (part resetting1 1).thenOff = true ∧
    (part resetting1 1).thenSlot = some 3 ∧ owner resetting1 1 = 1 := by decide +kernel

/-- Queue 63 enabled, with and without its delivery ring. -/
def q63 : State := setReg up (queueBase 63) 1
def q63dr : State := setReg up (queueBase 63) 3

theorem witness_QueueControlWrites :
    mayWrite up (queueBase 63) 1 = true ∧ (written up (queueBase 63) 1).getLsbD 1 = (reg up (queueBase 63)).getLsbD 1 ∧
    (reg up (queueBase 63)).getLsbD 0 = false ∧ (written up (queueBase 63) 1).getLsbD 0 = true ∧
    mayWrite q63 (queueBase 63) 0 = true ∧ (reg q63 (queueBase 63)).getLsbD 0 = true ∧
    (written q63 (queueBase 63) 0).getLsbD 0 = false ∧
    mayWrite q63 (queueBase 63) 3 = true ∧ (written q63 (queueBase 63) 3).getLsbD 1 = true ∧
    (reg q63 (queueBase 63)).getLsbD 1 = false ∧ (written q63 (queueBase 63) 3).getLsbD 0 = (reg q63 (queueBase 63)).getLsbD 0 ∧
    mayWrite q63dr (queueBase 63) 1 = true ∧ (reg q63dr (queueBase 63)).getLsbD 1 = true ∧
    (written q63dr (queueBase 63) 1).getLsbD 1 = false ∧
    (written q63dr (queueBase 63) 1).getLsbD 0 = (reg q63dr (queueBase 63)).getLsbD 0 ∧ queueOff 0 63 = queueBase 63 ∧
    accessible part1 1 1 (queueOff 1 1) (.word (queueBase 1)) = true ∧
    settable part1 (queueBase 1) (written part1 (queueBase 1) 1) (actions (queueBase 1) 1) = true := by decide +kernel

/-- Tile 95 out of service, on a die in service. -/
def tileOut : State := { setReg up (tileBase 95) 0 with lost := [(1, 95)] }
def spOn : State := setReg up (dieBase 3 + 0x104) 1
def forceOn : State := setReg up 0x1000 1

theorem witness_UnitControlWrites :
    mayWrite up (dieBase 3 + 0x104) 1 = true ∧ (reg up (dieBase 3 + 0x104)).getLsbD 0 = false ∧
    (written up (dieBase 3 + 0x104) 1).getLsbD 0 = true ∧ mayWrite spOn (dieBase 3 + 0x104) 0 = true ∧
    (reg spOn (dieBase 3 + 0x104)).getLsbD 0 = true ∧ (written spOn (dieBase 3 + 0x104) 0).getLsbD 0 = false ∧
    mayWrite up (tileBase 95) 0 = true ∧ (written up (tileBase 95) 0).getLsbD 0 = false ∧
    mayWrite tileOut (tileBase 95) 1 = true ∧ (written tileOut (tileBase 95) 1).getLsbD 0 = true ∧ tileLost tileOut 95 = true ∧
    mayWrite tileOut 0x1018 0x105F = true ∧ mayWrite up 0x1000 1 = true ∧ (written up 0x1000 1).getLsbD 0 = true ∧
    mayWrite forceOn 0x1000 0 = true ∧ (written forceOn 0x1000 0).getLsbD 0 = false ∧ mayWrite forceOn 0x1010 1 = true := by
  decide +kernel

/-- Firmware not yet running, before and after the ports have trained. -/
def preFw : State := { up with boot := { up.boot with fwRun := false, ready := false } }
def preHp : State := { preFw with boot := { preFw.boot with hpDone := false } }
/-- Firmware running, the record not yet restored. -/
def preRec : State := { up with boot := { up.boot with ready := false } }
def withFmn : State := setReg up 0x108 0x4000

theorem witness_BootAndEnvelopeWrites :
    [preFw, preHp].all (fun s => accessible s 0 0 0x104 (.word 0x104) && pairSettable s 0 0x104 (written s 0x104 1)) = true ∧
    preFw.boot.fwRun = false ∧ preFw.boot.hpDone = true ∧ preHp.boot.fwRun = false ∧ preHp.boot.hpDone = false ∧
    mayWrite preRec 0x110 1 = true ∧ mayWrite preRec 0x110 2 = true ∧ mayWrite withFmn 0x110 4 = true ∧ mayWrite up 0x110 8 = true ∧
    mayWrite up 0x5004 150 = true ∧ mayWrite up 0x5004 560 = true ∧ actions 0x5004 150 = 0 ∧ actions 0x5004 560 = 0 ∧
    bits (written up 0x5004 150).toNat 9 0 < fld up 0x5000 9 0 ∧ fld up 0x5000 9 0 ≤ bits (written up 0x5004 560).toNat 9 0 := by
  decide +kernel

/-! ### Doorbells, queues and events -/

/-- Queue 0 enabled with its delivery ring: rings of 16 entries at 0x1000, 0x2000 and 0x3000, five entries in each;
partition 0 may hold 1,024 MiB of buffers. -/
def qUp : State :=
  setQueue ([(queueBase 0, 3), (queueBase 0 + 8, 0x1000), (queueBase 0 + 0x10, 4), (queueBase 0 + 0x14, 0x2000),
    (queueBase 0 + 0x1C, 4), (queueBase 0 + 0x28, 0x3000), (queueBase 0 + 0x30, 4), (partBase 0 + 0x24, 1024)].foldl (fun s k => setReg s k.1 k.2) up) 0
    fun x => { x with sqPi := 5, cqPi := 5, drPi := 5 }

theorem witness_IndexWrites :
    pageOpen qUp 0 0 0 = true ∧ qEnable qUp 0 = true ∧ qDrEn qUp 0 = true ∧ sqDepth qUp 0 = 16 ∧ drDepth qUp 0 = 16 ∧
    ([5, 16].all fun v : Word => decide ((v - (queue qUp 0).sqCi).toNat ≤ 16) &&
      decide ((v - (queue qUp 0).sqPi).toNat ≤ ((queue qUp 0).sqCi + BitVec.ofNat 32 16 - (queue qUp 0).sqPi).toNat)) = true ∧
    ([0, 5].all fun v : Word => decide ((v - (queue qUp 0).cqCi).toNat ≤ ((queue qUp 0).cqPi - (queue qUp 0).cqCi).toNat)) = true ∧
    ([5, 16].all fun v : Word => decide ((v - (queue qUp 0).drCi).toNat ≤ 16) &&
      decide ((v - (queue qUp 0).drPi).toNat ≤ ((queue qUp 0).drCi + BitVec.ofNat 32 16 - (queue qUp 0).drPi).toNat)) = true ∧
    16 < (17 - (queue qUp 0).sqCi : Word).toNat ∧
    ((queue qUp 0).sqCi + BitVec.ofNat 32 16 - (queue qUp 0).sqPi).toNat < (4 - (queue qUp 0).sqPi : Word).toNat ∧
    ((queue qUp 0).cqPi - (queue qUp 0).cqCi).toNat < (6 - (queue qUp 0).cqCi : Word).toNat ∧
    16 < (17 - (queue qUp 0).drCi : Word).toNat ∧ pageOpen up 0 0 63 = true ∧ qEnable up 63 = false ∧ qDrEn up 63 = false := by
  decide +kernel

/-- Partition 0's step source is a STEP pin. -/
def pinStep : State := setReg up (partBase 0 + 0xC) 1

theorem witness_StepAndPushWrites : pageOpen up 0 0 63 = true ∧ fld up (partBase (owner up 63) + 0xC) 2 0 = 0 ∧
    pageOpen pinStep 0 0 63 = true ∧ fld pinStep (partBase (owner pinStep 63) + 0xC) 2 0 ≠ 0 ∧
    (64 : Nat) ≤ 4 * 15 + [0, 0, 0, (1 : Byte)].length := by decide +kernel

/-- Queue 0's next entry is a NOP with tag 7, and partition 0's turn is queue 0's. -/
def entryState : State := setPart (poke qUp (hostKey (qSpace qUp 0) 0x1000) (0 :: 0 :: 0 :: 0 :: toLe 4 7)) 0 fun x =>
  { x with rrLeft := 1, rrQueue := 0 }

theorem witness_EntryTaken :
    alive entryState = true ∧ entryState.boot.ready = true ∧ (part entryState 0).resetting = false ∧ canSend entryState 0 = true ∧
    (part entryState 0).rrLeft = 1 ∧ (part entryState 0).rrQueue = 0 ∧ takable entryState 0 0 = true ∧
    entryState.queues.length = 64 ∧ entryState.parts.length = 16 ∧
    ((sqEntry (setPart entryState 0 fun x => { x with rrLeft := x.rrLeft - 1 }) 0 (queue entryState 0).sqCi).1.map
      fun e => (leAt e 4 4, decide (leAt e 1 1 < 128), malformed e none)) = some (7, true, none) := by decide +kernel

/-- A command of queue 0 and partition 0 with the given opcode and operands. -/
def cmd (op : Nat) (ops : List DWord) : Cmd := ⟨9, 0, 0, op, 0x77, false, ops ++ List.replicate (7 - ops.length) 0, [], 0, false, 0⟩
def withCmd (s : State) (y : Cmd) : State := { s with cmds := [y] }
/-- The command can start on the state, its reads of host memory too, or is under way. -/
def canStart (s : State) (op : Nat) (ops : List DWord) : Bool := reads (withCmd s (cmd op ops)) 9 op (cmd op ops)
def canEnd (s : State) (op : Nat) (ops : List DWord) : Bool :=
  underway (withCmd s { cmd op ops with started := true }) 9 op { cmd op ops with started := true }

/-- CQ 0 counts at most 4 entries and 1 µs, and one entry waits. -/
def coalState : State := setQueue (setReg qUp (queueBase 0 + 0x44) 0x00010084) 0 fun x => { x with mirrored := 1 }
def eventState : State := setPart qUp 0 fun x => { x with events := [⟨1, 2⟩] }
/-- A NOP of the same queue waits beside an ABORT. -/
def abortState (op : Nat) : State := { qUp with cmds := [cmd 0x61 [0x55], { cmd op [] with id := 8, tag := 0x55 }] }

theorem witness_EventAndAbortCommands :
    alive coalState = true ∧ 0 < (queue coalState 0).mirrored ∧ fld coalState (queueBase 0 + 0x44) 7 7 = 1 ∧
    fld coalState (queueBase 0 + 0x44) 31 16 ≠ 0 ∧ canStart qUp 0x00 [] = true ∧ canStart eventState 0x60 [] = true ∧
    (part eventState 0).events = [⟨1, 2⟩] ∧ canStart qUp 0x60 [] = true ∧ (part qUp 0).events = [] ∧
    canStart part1 0x61 [0, 1] = true ∧ owner part1 (opBits (cmd 0x61 [0, 1]) 1 5 0) ≠ 0 ∧
    canStart qUp 0x61 [0x55] = true ∧ owner qUp (opBits (cmd 0x61 [0x55]) 1 5 0) = 0 ∧
    starts (abortState 0x40) 9 0x61 (cmd 0x61 [0x55]) = true ∧
    ((abortState 0x40).cmds.find? fun y => y.q = 0 && y.tag.toNat = 0x55 && y.id ≠ 9).isSome = true := by decide +kernel

theorem witness_QueueCommandFrame : ∃ t, exec (.nop 9) (withCmd qUp (cmd 0 [])) = .next t ∧ canonical (withCmd qUp (cmd 0 [])) = true ∧
    cmdOf (withCmd qUp (cmd 0 [])) 9 = some (cmd 0 []) := ⟨_, rfl, by decide +kernel, by decide +kernel⟩

/-! ### Loads and calibration -/

/-- A host image at 0x4000. -/
def withImg (l : List Byte) : State := poke qUp (hostKey (qSpace qUp 0) 0x4000) l
/-- Operands that name an image of n bytes and an id. -/
def imgOps (n id : Nat) : List DWord := [0x4000, BitVec.ofNat 64 (n + id * 2 ^ 32)]
/-- The command can start, and its image can be read. -/
def readsImg (op : Nat) (ops : List DWord) (l : List Byte) : Bool :=
  canStart (withImg l) op ops &&
  !faulty (withCmd (withImg l) (cmd op ops)) (cmdKey (withCmd (withImg l) (cmd op ops)) (cmd op ops) 0x4000) l.length &&
  decide (cmdKey (withCmd (withImg l) (cmd op ops)) (cmd op ops) 0x4000 = hostKey (qSpace qUp 0) 0x4000)

theorem canonical_qUp : canonical qUp = true := by decide +kernel

/-- The image that it reads is l. -/
theorem withImg_bytes (l : List Byte) (y : Cmd) :
    hostBytes (withCmd (withImg l) y) (hostKey (qSpace qUp 0) 0x4000) l.length = l := by
  have h (s : State) (k n : Nat) : hostBytes (withCmd s y) k n = hostBytes s k n := rfl
  rw [h, withImg]
  generalize hostKey (qSpace qUp 0) 0x4000 = k
  exact hostBytes_poke k l canonical_qUp rfl

/-- The state after the transfer. -/
def readImg (op : Nat) (ops : List DWord) (l : List Byte) : State := readReturned (withCmd (withImg l) (cmd op ops)) 0 l.length

/-- A recipe of one stage whose program is the one word END, at a declared cost of 1,000 tile-events (Tables 5.1, 5.2). -/
def recipeImg : List Byte :=
  toLe 4 0x5043524F ++ [1, 3, 1, 0] ++ toLe 4 1 ++ toLe 4 0 ++ toLe 4 128 ++ toLe 2 4 ++ toLe 2 4 ++ toLe 4 128 ++ toLe 4 8 ++ toLe 12 0 ++
  toLe 4 16 ++ toLe 16 0 ++ ([0xFF, 0] ++ toLe 2 0 ++ toLe 2 1 ++ toLe 2 0 ++ toLe 4 4096 ++ toLe 4 0 ++ toLe 8 0 ++ toLe 4 0 ++ toLe 4 8 ++
  toLe 6 0xFFFFFFFFFFFF ++ toLe 14 0 ++ toLe 4 1000 ++ toLe 8 0) ++ toLe 8 0x8080000000000000
def recipeOps : List DWord := imgOps recipeImg.length 1

/-- A chain of one COLOUR link (Table 5.8). -/
def chainImg : List Byte :=
  toLe 4 0x4E48434C ++ toLe 4 1 ++ toLe 4 1 ++ toLe 4 0 ++ toLe 4 128 ++ toLe 12 0 ++
  (toLe 4 4 ++ toLe 4 500 ++ toLe 4 64 ++ toLe 4 16 ++ toLe 16 0) ++ toLe 16 0
def chainOps : List DWord := imgOps chainImg.length 1

/-- The state with every tile at the pace of 2,000 tile-events a microsecond. -/
def paced (s : State) : State := (List.range 96).foldl (fun s t => setReg s (tileBase t + 0x1000) 2000) s

/-- Fits and is admitted. -/
def loads (s : State) (r : Recipe) : Bool :=
  decide (loadFit s r = none) && decide ((if (uncosted r).isNone then admissionStop s r else none) = none)

theorem witness_RecipeLoads_image : readsImg 0x01 recipeOps recipeImg = true ∧ opBits (cmd 1 recipeOps) 1 31 0 = recipeImg.length ∧
    opBits (cmd 1 recipeOps) 1 63 32 = 1 ∧ recipeOf (readImg 1 recipeOps recipeImg) 0 1 = none ∧
    imageBad (readImg 1 recipeOps recipeImg) 0 recipeImg = none ∧
    programsBad recipeImg (readRecipe recipeImg 0 1 0 false) = none ∧
    namesBad (readImg 1 recipeOps recipeImg) (readRecipe recipeImg 0 1 0 false) = none ∧ calBad recipeImg 1 = none := by decide +kernel

theorem witness_RecipeLoads_chain : readsImg 0x08 chainOps chainImg = true ∧ opBits (cmd 8 chainOps) 1 31 0 = chainImg.length ∧
    opBits (cmd 8 chainOps) 1 63 32 = 1 ∧ recipeOf (readImg 8 chainOps chainImg) 0 1 = none ∧
    chainBad (readImg 8 chainOps chainImg) 0 chainImg = none ∧
    builtBad chainImg (chainRecipe (readImg 8 chainOps chainImg) 0 1 0 chainImg false) = none := by decide +kernel

theorem witness_RecipeLoads : loads (paced (readImg 1 recipeOps recipeImg)) (readRecipe recipeImg 0 1 0 false) = true ∧
    canStart { qUp with recipes := [rcp] } 2 [1] = true ∧ ({ qUp with recipes := [rcp] } : State).epochs = [] ∧
    ({ qUp with recipes := [rcp] } : State).calRuns = [] ∧ recipeOf { qUp with recipes := [rcp] } 0 (opBits (cmd 2 [1]) 0 31 0) = some rcp := by
  decide +kernel

/-- A model of one part and one 1 by 1 FP32 layer (Tables 14.1, 14.2). -/
def modelImg : List Byte :=
  toLe 4 0x4C444F4D ++ [3, 1, 0, 0] ++ toLe 4 1 ++ toLe 4 256 ++ toLe 4 128 ++ toLe 4 192 ++ toLe 4 8 ++ toLe 4 0 ++ toLe 8 4096 ++ toLe 8 4 ++
  toLe 4 8 ++ toLe 60 0 ++ toLe 8 0 ++ toLe 4 3788999961 ++ toLe 4 3111118724 ++
  ([7, 0] ++ toLe 2 0 ++ toLe 2 1 ++ toLe 2 1 ++ toLe 8 0 ++ toLe 4 4 ++ toLe 8 0 ++ toLe 4 3713320107 ++ toLe 32 0) ++
  toLe 8 0x8080000000000000 ++ toLe 3896 0 ++ toLe 4 0x3F800000
def modelOps : List DWord := imgOps modelImg.length 0 ++ [9]

/-- A dictionary of the one token 0x66 (Table 14.8). -/
def dictImg : List Byte :=
  toLe 4 0x54434944 ++ [3, 1, 0, 0] ++ toLe 4 1 ++ toLe 4 64 ++ toLe 4 16 ++ toLe 4 0x400000 ++ toLe 4 0x400100 ++ toLe 4 0x400101 ++
  toLe 4 0x400102 ++ toLe 4 0x400103 ++ toLe 16 0 ++ toLe 4 840021148 ++ toLe 4 892587586 ++ (toLe 4 77 ++ [1, 0, 0, 0] ++ toLe 8 0x66)
def dictOps : List DWord := imgOps dictImg.length 0 ++ [3]

def fits (s : State) (charge n : Nat) : Bool :=
  match fitCopies s 0 charge n with
  | .ok _ => true
  | .error _ => false

theorem witness_ModelAndDictionaryLoads_model : readsImg 3 modelOps modelImg = true ∧
    opBits (cmd 3 modelOps) 1 34 0 = modelImg.length ∧ opBits (cmd 3 modelOps) 2 15 0 = 9 ∧
    modelOf (readImg 3 modelOps modelImg) 0 9 = none ∧ modelBad modelImg (chunkSize (cmd 3 modelOps)) = none ∧
    partsBad modelImg (readModel modelImg 0 0 9 (chunkSize (cmd 3 modelOps))) = none ∧
    istoreUsed (readImg 3 modelOps modelImg) + 8 ≤ 212992 ∧ fits (readImg 3 modelOps modelImg) 262144 4100 = true := by decide +kernel

theorem witness_ModelAndDictionaryLoads_dict : readsImg 5 dictOps dictImg = true ∧
    opBits (cmd 5 dictOps) 1 34 0 = dictImg.length ∧ opBits (cmd 5 dictOps) 2 15 0 = 3 ∧
    dictOf (readImg 5 dictOps dictImg) 0 3 = none ∧ (dictCheck dictImg).toOption = some [([0x66], 77)] ∧
    fits (readImg 5 dictOps dictImg) (4 * roundUp (2 * dictImg.length) 65536) (2 * dictImg.length) = true := by decide +kernel

/-- A model, a dictionary and, where `named`, a recipe that names them. -/
def modelState (named : Bool) : State := { qUp with
  models := [mdl]
  dicts := [⟨0, 3, 64, [], 0x00400000, 0x00400100, 0x00400101, 0x00400102, 0x00400103, [([0x66], 77)], [], []⟩]
  recipes := if named then [{ rcp with stages := [{ stg with dict := 3 }] }] else [] }

theorem witness_ModelAndDictionaryLoads : canStart (modelState false) 4 [9] = true ∧ canStart (modelState true) 4 [9] = true ∧
    modelOf (modelState false) 0 9 = some mdl ∧ namedModel (modelState false) 0 9 = false ∧ namedModel (modelState true) 0 9 = true ∧
    canStart (modelState false) 6 [3] = true ∧ canStart (modelState true) 6 [3] = true ∧
    (dictOf (modelState true) 0 3).isSome = true ∧ (dictOf (modelState false) 0 3).isSome = true ∧
    namedDict (modelState false) 0 3 = false ∧ namedDict (modelState true) 0 3 = true := by decide +kernel

def calRcp : Recipe := { rcp with calTable := 0x5000, targetRate := 1 }
/-- A calibration over two of the recipe's table entries, with two samples measured. -/
def calRun : CalRun := ⟨9, 0, 1, 2, 2, 0, [], 0, 0x6000, [[(10, 20)], [(30, 40)]], false, 0, none⟩

theorem witness_CalibrationAndCosts :
    canStart { qUp with recipes := [calRcp] } 7 [1, 16] = true ∧ canStart { qUp with recipes := [calRcp] } 7 [1, 1] = true ∧
    recipeOf { qUp with recipes := [calRcp] } 0 1 = some calRcp ∧ opBits (cmd 7 [1, 16]) 1 15 0 = calRcp.calN ∧
    faulty qUp (hostKey (qSpace qUp 0) 0x5000) 256 = false ∧
    canEnd { qUp with recipes := [calRcp], calRuns := [calRun] } 7 [1, 2] = true ∧ calRun.failed = none ∧
    calRun.damaged ≤ calRun.want / 4 ∧ calRun.want ≤ calRun.measured.length ∧
    faulty (endCal { qUp with recipes := [calRcp], calRuns := [calRun] } 9)
      (hostKey (qSpace qUp 0) 0x6000) 256 = false ∧
    canEnd { qUp with recipes := [calRcp], calRuns := [calRun], hostFaults := [6] } 7 [1, 2] = true ∧
    faulty (endCal { qUp with recipes := [calRcp], calRuns := [calRun], hostFaults := [6] } 9)
      (hostKey (qSpace qUp 0) 0x6000) 256 = true ∧ alive up = true ∧ tileLost up 95 = false ∧
    (up.threads.all fun x => !(thTile x.th = some 95 && (x.state = 1 || x.tickets.any (serves up x)))) = true := by decide +kernel

/-! ### Epochs -/

/-- The recipe with a hard time-out of 30 s. -/
def rcpE : Recipe := { rcp with hardTo := 30 }

/-- A dataset table of one dataset of four samples with its directory at source 0 (Tables 15.1, 15.2). -/
def tableImg : List Byte :=
  toLe 4 0x4C425444 ++ toLe 4 1 ++ toLe 4 100 ++ toLe 4 0 ++ toLe 8 0x8000 ++ toLe 8 10 ++ toLe 32 0 ++
  (toLe 4 0 ++ toLe 4 0x3F800000 ++ toLe 8 4 ++ toLe 16 0)
/-- One deferral at position 1. -/
def logImg : List Byte :=
  toLe 8 0 ++ [2, 0, 0, 0] ++ toLe 4 0 ++ toLe 8 0 ++ toLe 8 1 ++ toLe 28 0 ++ toLe 4 620110120
/-- A cursor after batch 0 of size 2, with one log record, seed 0 (Table 15.8). -/
def cursorImg : List Byte :=
  toLe 4 0x52535543 ++ [3, 1] ++ toLe 2 3 ++ toLe 4 1 ++ toLe 2 0 ++ toLe 2 2 ++ toLe 8 0 ++ toLe 8 2 ++ toLe 8 4 ++
  toLe 4 1114675946 ++ toLe 4 3281209294 ++ toLe 8 0x8000 ++ toLe 8 10 ++ toLe 8 1 ++ toLe 8 0 ++ toLe 8 1 ++ toLe 16 0 ++ toLe 20 0 ++ toLe 4 3469309302

def epochBase : State := { poke (poke (poke (paced qUp) (hostKey (qSpace qUp 0) 0x4000) tableImg)
  (hostKey (qSpace qUp 0) 0x5000) cursorImg) (hostKey (qSpace qUp 0) 0x8000) logImg with
  recipes := [rcpE], sources := [⟨0, 0, .host 0x10000 0x1000 (qSpace qUp 0), 10, 2, none, false⟩] }

/-- Operands: recipe 1 and epoch 3 or the cursor, seed 0, four positions, the table, batches of 2 with lead 1. -/
def openOps : List DWord := [0x300000001, 0, 0, 4, 0x4000, 0x10002]
def resumeOps : List DWord := [0x5000, 0, 0, 0, 0x4000, 0x10002]
def tableRead (op : Nat) (ops : List DWord) : Bool :=
  match readTable (withCmd epochBase (cmd op ops)) (cmd op ops) with
  | .ok l => decide (l = tableImg)
  | .error _ => false

theorem witness_EpochCommands_open : canStart epochBase 0x10 openOps = true ∧ epochOf epochBase 0 = none ∧ qDrEn epochBase 0 = true ∧
    recipeOf epochBase 0 (opBits (cmd 0x10 openOps) 0 31 0) = some rcpE ∧ tableRead 0x10 openOps = true ∧
    stepSix tableImg rcpE 2 0 = none ∧ epochFit (readReturned (withCmd epochBase (cmd 0x10 openOps)) 0 96) rcpE = none ∧
    admissionStop (readReturned (withCmd epochBase (cmd 0x10 openOps)) 0 96) rcpE = none ∧ modeOf rcpE 0 ≠ 2 ∧
    queueTaken (withCmd epochBase (cmd 0x10 openOps)) 0 9 = false := by decide +kernel

theorem witness_EpochCommands_resume : canStart epochBase 0x11 resumeOps = true ∧
    queueTaken (withCmd epochBase (cmd 0x11 resumeOps)) 0 9 = false ∧ tableRead 0x11 resumeOps = true ∧
    faulty epochBase (cmdKey epochBase (cmd 0x11 resumeOps) 0x5000) 128 = false ∧
    hostBytes epochBase (cmdKey epochBase (cmd 0x11 resumeOps) 0x5000) 128 = cursorImg ∧
    leAt cursorImg 124 4 = crc32c (cursorImg.take 124) ∧ recipeOf epochBase 0 (leAt cursorImg 8 4) = some rcpE ∧
    bitN (leAt cursorImg 12 1) 5 = false ∧ leAt cursorImg 40 8 = keyHash 0 (tableCrc tableImg) ∧ leAt cursorImg 14 2 = 2 ∧
    (readLogs epochBase (qSpace epochBase 0) (leAt cursorImg 48 8) (leAt cursorImg 56 1) (leAt cursorImg 72 8)
      (leAt cursorImg 64 8 - leAt cursorImg 72 8)).map (·.map (·.pos)) = some [1] ∧ stepSix tableImg rcpE 2 0 = none ∧
    epochFit (readReturned (withCmd epochBase (cmd 0x11 resumeOps)) 0 96) rcpE = none ∧
    admissionStop (readReturned (withCmd epochBase (cmd 0x11 resumeOps)) 0 96) rcpE = none := by decide +kernel

/-- An epoch of queue 0 as the resumed one starts. -/
def ep : Epoch := newEpoch up (cmd 0x10 openOps) rcpE tableImg 3 4 0 0

theorem witness_RecipeLoads_unloadDenied :
    canStart { qUp with recipes := [rcpE], epochs := [ep] } 2 [1] = true ∧ ep.part = 0 ∧ ep.recipe = 1 := by decide +kernel

/-- Beside the RECIPE_UNLOAD of recipe 1, an EPOCH_OPEN that names it waits for its halted table read. -/
def claimState : State := { qUp with
  recipes := [rcpE], cmds := [cmd 2 [1], { cmd 0x10 openOps with id := 8, started := true }], readHalts := [⟨8, true, 0, 0, [], []⟩] }

theorem witness_RecipeLoads_claimed : starts claimState 9 2 (cmd 2 [1]) = true ∧
    claimState.cmds.any (claimsRecipe claimState 0 1) = true ∧
    (withCmd qUp (cmd 2 [1])).cmds.any (claimsRecipe (withCmd qUp (cmd 2 [1])) 0 1) = false := by decide +kernel

/-- Epoch of an EPOCH_OPEN whose first sample has started. -/
def openingState : State := { qUp with
  epochs := [{ ep with opening := some (9, 0, 0, false) }], samples := [smp], cmds := [{ cmd 0x10 openOps with started := true }] }

theorem witness_EpochCommands_opening : epochOf openingState 0 = some { ep with opening := some (9, 0, 0, false) } ∧
    (cmdOf openingState 9).isSome = true ∧ ofEpoch 0 smp = true ∧ smp.started = true := by decide +kernel

theorem witness_EpochCommands_close : canStart { qUp with epochs := [ep] } 0x12 [0] = true ∧
    canStart { qUp with epochs := [ep] } 0x12 [1] = true ∧ epochOf { qUp with epochs := [ep] } 0 = some ep := by decide +kernel

/-! ### Sources and drives -/

def drv : Drive := ⟨3, 3, .available, 131072, [⟨1, 512, 1000⟩]⟩
/-- Source port 3 in service as four links, with an available drive on link 3. -/
def drvState : State := { setReg (setReg qUp (dieBase 3 + 0x100) 2) (dieBase 3 + 0x104) 1 with drives := [drv] }
def startDrv : State := { drvState with drives := [{ drv with state := .starting }] }
/-- Operands of SOURCE_BIND: id 7, a namespace or a host range. -/
def bindNvme : List DWord := [7, 0xF00000001]
def bindHost : List DWord := [0x100000007, 0x10000, 64]
def srcState : State := { qUp with sources := [⟨0, 7, .host 0x10000 64 0, 10, 2, none, false⟩] }
def unbindState : State := { qUp with sources := [⟨0, 7, .host 0x10000 64 0, 10, 2, some 9, false⟩] }
/-- NS_GRANT to partition 15 of namespace 1. -/
def grantOps : List DWord := [0x1000000FF]

theorem witness_SourcesAndDrives_commands :
    canStart drvState 0x20 bindNvme = true ∧ isBound drvState 0 7 = false ∧ idsSpent drvState 0 = false ∧
    opBits (cmd 0x20 bindNvme) 0 39 32 ≠ 1 ∧ opBits (cmd 0x20 bindNvme) 1 33 32 = 3 ∧ opBits (cmd 0x20 bindNvme) 1 35 34 = 3 ∧
    linkPresent drvState 3 3 = true ∧ driveOf drvState 3 3 = some drv ∧ drv.state = .available ∧
    (drv.nss.find? fun n => n.nsid = BitVec.ofNat 32 (opBits (cmd 0x20 bindNvme) 1 31 0)) = some ⟨1, 512, 1000⟩ ∧
    canStart qUp 0x20 bindHost = true ∧ isBound qUp 0 7 = false ∧ opBits (cmd 0x20 bindHost) 0 39 32 = 1 ∧
    canStart srcState 0x21 [7] = true ∧ isBound srcState 0 7 = true ∧ (openSource srcState 0 7).isSome = true ∧
    canEnd unbindState 0x21 [7] = true ∧ (unbindState.sources.find? fun y => y.unbinding = some 9).isSome = true ∧
    unbindState.fetches = [] ∧ copyOf (dropEntries unbindState 0 fun e => e.src = 7) 0 7 = none ∧
    canStart drvState 0x22 grantOps = true ∧ opBits (cmd 0x22 grantOps) 0 3 0 = 15 ∧ opBits (cmd 0x22 grantOps) 0 5 4 = 3 ∧
    opBits (cmd 0x22 grantOps) 0 7 6 = 3 ∧ (drv.nss.any fun n => n.nsid = BitVec.ofNat 32 (opBits (cmd 0x22 grantOps) 0 63 32)) = true ∧
    opBits (cmd 0x22 grantOps) 0 8 8 = 0 := by decide +kernel

theorem witness_SourcesAndDrives_drives :
    linkOn { drvState with drives := [] } 3 3 = true ∧ driveOf { drvState with drives := [] } 3 3 = none ∧
    isPresent drvState 3 3 = false ∧ isPresent (setPresent drvState 3 3 true) 3 3 = true ∧ alive startDrv = true ∧
    driveOf startDrv 3 3 = some { drv with state := .starting } ∧ alive drvState = true ∧ (driveOf drvState 3 3).isSome = true := by
  decide +kernel

/-! ### Cache -/

/-- The head of a TRANSCODE of two records of source 7, and its two keys (Table 10.3). -/
def headImg : List Byte := toLe 4 7 ++ toLe 8 0 ++ toLe 4 2 ++ [1, 0, 0, 0] ++ toLe 4 0 ++ toLe 40 0 ++ toLe 8 0 ++ toLe 8 1
def tcOps : List DWord := [8, 0x4000, 2]
def tcState : State := { withImg headImg with sources := srcState.sources }

def tcRun : TranscodeRun := ⟨9, 0, 8, headImg ++ toLe 8 0⟩
def tcEnd : State :=
  { qUp with transcodes := [tcRun], sources := srcState.sources, threads := [encoderThread 0 (transcodeTag 9) 0 0] }

/-- An input that ends before its first access unit has no pictures. -/
theorem transcodePics_none : (transcodePics tcRun.regen [] []).pics = [] := by
  simp [transcodePics, InputDecode.drain, emit, newCtx]

def gotInput {α : Type} : InputRead α → Bool
  | .got _ _ => true
  | _ => false
def stopInput {α : Type} : InputRead α → Bool
  | .stop _ _ => true
  | _ => false

theorem witness_TranscodeAndCacheCommands_transcode :
    canStart tcState 0x30 tcOps = true ∧ isBound tcState 0 8 = false ∧ idsSpent tcState 0 = false ∧ copyCount tcState 0 = 0 ∧
    tcState.transcodes = [] ∧ mayTake tcState 0 = true ∧ (encoderPlace tcState 0 7 0 64).isSome = true ∧
    opBits (cmd 0x30 tcOps) 2 23 0 = 2 ∧ headImg.length = 80 ∧
    faulty tcState (cmdKey tcState (cmd 0x30 tcOps) (op64 (cmd 0x30 tcOps) 1)) 80 = false ∧
    hostBytes tcState (cmdKey tcState (cmd 0x30 tcOps) (op64 (cmd 0x30 tcOps) 1)) 80 = headImg ∧ headOk headImg 2 = true ∧
    isBound tcState 0 (leAt headImg 0 4) = true ∧ canEnd tcEnd 0x30 tcOps = true ∧
    (tcEnd.transcodes.find? fun r => r.cmd = 9) = some tcRun ∧ encoderOf tcEnd (transcodeTag 9) = some th0 ∧
    gotInput (inputAus 0 (thDie th0) ⟨tcEnd, [.data []], 0⟩ tcRun.regen) = true ∧
    stopInput (inputAus 0 (thDie th0) ⟨tcEnd, [.timeout], 0⟩ tcRun.regen) = true ∧ leAt tcRun.regen 16 1 ≠ 7 ∧
    isBound tcEnd 0 8 = false ∧ idsSpent tcEnd 0 = false ∧ copyCount tcEnd 0 = 0 := by decide +kernel

theorem witness_TranscodeAndCacheCommands_pictures (a : Bool) : inputEnds a (transcodePics tcRun.regen [] []).pics = none := by
  rw [transcodePics_none]; rfl

/-- A copy under regeneration, of the 64 bytes that source 7 gave. -/
def cpy : CopySource := ⟨0, 8, 0, [], List.replicate 64 1, 2, headImg ++ toLe 8 0, [], true, none, []⟩
def copyState : State :=
  { srcState with sources := srcState.sources ++ [⟨0, 8, .copy, 50, 2, none, false⟩], copies := [cpy],
                  threads := [encoderThread 0 (regenTag 0 8) 0 0] }
/-- Partition 0 may reserve 4 MiB of sample cache. -/
def cacheQuota : State := setReg qUp (partBase 0 + 0x1C) 4
def pinnedState : State := setPart srcState 0 fun x => { x with pins := [7] }

theorem witness_TranscodeAndCacheCommands_cache :
    canStart cacheQuota 0x31 [4] = true ∧ 4 ≤ fld cacheQuota (partBase 0 + 0x1C) 19 0 ∧
    4 ≤ (part cacheQuota 0).cacheMib + freeForCache cacheQuota / 2 ^ 20 ∧
    mibUp (pinnedCharge cacheQuota 0) ≤ 4 ∧ canStart copyState 0x32 [8] = true ∧ isBound copyState 0 8 = true ∧
    isCopy copyState 0 8 = true ∧ canStart pinnedState 0x32 [7] = true ∧ isBound pinnedState 0 7 = true ∧
    (part pinnedState 0).pins = [7] ∧ canStart srcState 0x32 [7] = true ∧ isCopy srcState 0 7 = false ∧
    (part srcState 0).pins = [] ∧ canStart pinnedState 0x33 [7] = true ∧ isCopy pinnedState 0 7 = false ∧
    canStart copyState 0x34 [0, 1] = true ∧ canStart srcState 0x34 [7] = true ∧ canStart copyState 0x34 [8] = true ∧
    copyOf (dropEntries srcState 0 fun e => e.src = 7) 0 7 = none ∧
    copyOf (dropEntries copyState 0 fun e => e.src = 8) 0 8 = some cpy ∧ alive copyState = true ∧ copyOf copyState 0 8 = some cpy ∧
    encoderOf copyState (regenTag 0 8) = some th0 ∧ (cacheBufs copyState 0 (thDie th0) cpy.data.length).isSome = true ∧
    cpy.failed = none ∧ gotInput (inputAus 0 (thDie th0) ⟨copyState, [.data []], 0⟩ cpy.regen) = true ∧
    stopInput (inputAus 0 (thDie th0) ⟨copyState, [.timeout], 0⟩ cpy.regen) = true ∧ leAt cpy.regen 16 1 ≠ 7 ∧
    (cacheBufs copyState 0 (thDie th0) 0).isSome = true := by decide +kernel

/-! ### Tensors and spills -/

/-- A host tensor of n by 8 FP32 elements at a base; with `alias` its rows share their storage (Table 12.2). -/
def descImg (base n : Nat) (alias_ : Bool) : List Byte :=
  toLe 8 7 ++ toLe 8 base ++ toLe 8 base ++ toLe 8 (32 * n) ++ toLe 16 0 ++
  (toLe 4 1 ++ toLe 8 0 ++ toLe 4 1 ++ toLe 8 0 ++ toLe 4 1 ++ toLe 8 0 ++ toLe 4 1 ++ toLe 8 0 ++
   toLe 4 n ++ toLe 8 (if alias_ then 0 else 32) ++ toLe 4 8 ++ toLe 8 4) ++ toLe 8 0
/-- TENSOR_CREATE without an extension, and the two tensors it makes. -/
def tenOps : List DWord := [0x4000]
def tenA : Tensor := ⟨0, 0, 0, parseDesc (descImg 0x10000 2 false), false, 0, none⟩
def tenB : Tensor := ⟨0, 1, 0, parseDesc (descImg 0x20000 2 false), false, 0, none⟩
def tenState (l : List Byte) : State := { withImg l with tensors := [tenA, tenB] }

theorem witness_TensorCommands_create :
    readsImg 0x40 tenOps (descImg 0x10000 2 false) = true ∧ readsImg 0x40 tenOps (descImg 0x10000 2 true) = true ∧
    tensorBad (descImg 0x10000 2 false) = none ∧ tensorBad (descImg 0x10000 2 true) = none ∧
    aliasAt (parseDesc (descImg 0x10000 2 false)) = none ∧ (aliasAt (parseDesc (descImg 0x10000 2 true))).isSome = true ∧
    (parseDesc (descImg 0x10000 2 true)).ro = false ∧
    firstFrom (fun i => !(tenState []).tensors.any fun y => y.slot = i) 65536 0 = some 2 ∧
    canStart (tenState []) 0x41 [BitVec.ofNat 64 (tensorHandle tenB)] = true ∧
    canEnd (tenState []) 0x41 [BitVec.ofNat 64 (tensorHandle tenB)] = true ∧
    namedTensor (tenState []) (cmd 0x41 [BitVec.ofNat 64 (tensorHandle tenB)]) (tensorHandle tenB) = some tenB := by decide +kernel

/-- Slice of one row from row a to row b; the region is that row. -/
def sliceImg (a b : Nat) : List Byte :=
  toLe 16 0 ++ (List.range 6).flatMap fun d =>
    let n := if d = 5 then 8 else 1
    toLe 4 (if d = 4 then a else 0) ++ toLe 4 n ++ toLe 4 (if d = 4 then b else 0) ++ toLe 4 (if d = 4 then b else 0) ++ toLe 4 n ++ toLe 4 0
/-- A coordinate list that moves the given rows (Table 12.5). -/
def coordImg (rows : List (Nat × Nat)) : List Byte :=
  ((List.range 6).flatMap fun d => toLe 4 (if d = 5 then 8 else 1)) ++ toLe 40 0 ++
  rows.flatMap fun r => ((List.range 6).flatMap fun d => toLe 4 (if d = 4 then r.1 else 0)) ++
    (List.range 6).flatMap fun d => toLe 4 (if d = 4 then r.2 else 0)
/-- Operands of a copy of n entries between the two tensors. -/
def copyOps (n : Nat) : List DWord :=
  [BitVec.ofNat 64 (tensorHandle tenA), BitVec.ofNat 64 (tensorHandle tenB), 0x4000, BitVec.ofNat 64 n]
def twoRows : List Byte := sliceImg 0 1 ++ sliceImg 1 0
def oneRow : List Byte := sliceImg 0 1 ++ sliceImg 1 1
def swapRows : List Byte := coordImg [(0, 1), (1, 0)]

/-- The command can start, and reads the list l. -/
def listRead (op : Nat) (l : List Byte) (n : Nat) : Bool :=
  canStart (tenState l) op (copyOps n) && !faulty (tenState l) (cmdKey (tenState l) (cmd op (copyOps n)) 0x4000) l.length &&
  decide (hostBytes (tenState l) (cmdKey (tenState l) (cmd op (copyOps n)) 0x4000) l.length = l)

theorem witness_TensorCommands_names : namedTensor (tenState []) (cmd 0x42 (copyOps 2)) (op64 (cmd 0x42 (copyOps 2)) 0) = some tenA ∧
    namedTensor (tenState []) (cmd 0x42 (copyOps 2)) (op64 (cmd 0x42 (copyOps 2)) 1) = some tenB ∧ tenB.desc.ro = false ∧
    tenA.desc.etype = tenB.desc.etype ∧ sameLayout tenA.desc tenB.desc = true ∧ tenA.desc.extent = tenB.desc.extent ∧
    canStart (tenState []) 0x43 (copyOps 0) = true := by decide +kernel

theorem witness_TensorCommands_copy :
    listRead 0x42 twoRows 2 = true ∧ listRead 0x42 oneRow 2 = true ∧ twoRows.length = 160 * 2 ∧ oneRow.length = 160 * 2 ∧
    ([twoRows, oneRow].all fun l => (List.range 2).all fun i => sliceBad tenA.desc tenB.desc (sliceB l (160 * i) 160) == []) = true ∧
    ((slicesOf twoRows)[0]?.bind fun a => (slicesOf twoRows)[1]?.map fun b => boxesMeet a.reg a.regN b.reg b.regN) = some false ∧
    ((slicesOf oneRow)[0]?.bind fun a => (slicesOf oneRow)[1]?.map fun b => boxesMeet a.reg a.regN b.reg b.regN) = some true := by
  decide +kernel

theorem witness_TensorCommands_gather :
    listRead 0x44 swapRows 2 = true ∧ listRead 0x45 swapRows 2 = true ∧ swapRows.length = 64 + 48 * 2 ∧
    coordBad tenB.desc swapRows = false ∧ opBits (cmd 0x45 (copyOps 2)) 3 23 0 = 2 ∧
    (gatherBoxes tenA.desc tenB.desc swapRows).length = 2 ∧
    ((gatherBoxes tenA.desc tenB.desc swapRows)[0]?.bind fun a => (gatherBoxes tenA.desc tenB.desc swapRows)[1]?.map fun b =>
      (boxesMeet a.lo a.n b.lo b.n, decide (a.dst = b.dst))) = some (false, false) := by decide +kernel

/-- Partition 0 may spill 1 MiB. -/
def spillQuota : State := setReg qUp (partBase 0 + 0x20) 1
def spillOps : List DWord := [0x10000, 64, 0x100]
/-- A held spill of 64 bytes in two copies, one of them being rebuilt. -/
def spl : Spill := ⟨0, 0, 0, 0, true, 64, 128, List.replicate 64 0, [⟨0, [], false⟩, ⟨1, [], true⟩], none, none⟩
def spillState : State := { spillQuota with spills := [spl] }
def spillHandleOps : List DWord := [BitVec.ofNat 64 (spillHandle spl), 0x10000, 64]

theorem witness_SpillCommands :
    canStart spillQuota 0x50 spillOps = true ∧ opBits (cmd 0x50 spillOps) 1 39 0 = 64 ∧ 1 + opBits (cmd 0x50 spillOps) 2 8 8 = 2 ∧
    spillCharge spillQuota 0 + roundUp (spillWorst 0 64) 4096 * 2 ≤ fld spillQuota (partBase 0 + 0x20) 19 0 * 2 ^ 20 ∧
    (reserveCopies spillQuota 0 (spillWorst 0 64) 2 []).2.length = 2 ∧
    canStart spillState 0x51 spillHandleOps = true ∧ namedSpill spillState (cmd 0x51 spillHandleOps) (spillHandle spl) = some spl ∧
    opBits (cmd 0x51 spillHandleOps) 2 39 0 = spl.bytes ∧ spl.copies ≠ [] ∧ canStart spillState 0x52 spillHandleOps = true ∧
    namedSpill spillState (cmd 0x52 spillHandleOps) (spillHandle spl) = some spl ∧ canEnd spillState 0x52 spillHandleOps = true ∧
    alive spillState = true ∧ (spillState.spills.find? fun y => y.slot = 0 && y.copies.any (·.rebuilding)) = some spl := by
  decide +kernel

/-! ### Transfers and host ports -/

/-- Transfer 20 of 16 elements for command 9. -/
def tra (k : TransferKind) (halted : Bool) : Transfer := ⟨20, 0, 9, k, 16, 4, 0, halted, [], [], [], 0, [], 0⟩
def traState (op : Nat) (ops : List DWord) (t : Transfer) : State :=
  { tenState [] with cmds := [{ cmd op ops with started := true }], transfers := [t], nextId := 21 }
def copyTra : State := traState 0x43 (copyOps 0) (tra .copyLayout false)
def spillTra : State := traState 0x50 spillOps { tra .spill false with elements := 64, moved := 0 }
def haltTra : State := traState 0x43 (copyOps 0) (tra .copyLayout true)
def placeTra : State := { qUp with transfers := [tra (.place 0 0 0) false] }
/-- Fetch 30 of source 7, halted. -/
def ftc : Fetch := ⟨30, 0, 0, 7, 0, 64, [], 1, 30, [], [], [], false, false, none, true, 0, 0, [], []⟩
def haltFetch : State := { srcState with fetches := [ftc] }
def invState : State := { up with invs := [⟨1, 0, 0, 0, 9, [20]⟩] }

/-- A copy of the same partition that started earlier, and one of partition 1. -/
def busyTra : State := { copyTra with transfers := [{ tra .copyLayout false with id := 19 }, tra .copyLayout false] }

theorem witness_TransferEvents_turns :
    engineTurn copyTra (tra .copyLayout false) = true ∧ engineTurn spillTra { tra .spill false with elements := 64, moved := 0 } = true ∧
    engineTurn busyTra (tra .copyLayout false) = false ∧ transferOf busyTra 20 = some (tra .copyLayout false) ∧
    ((cmdOf copyTra 9).map fun y =>
      (runCopy (countEngine copyTra (tra .copyLayout false)) (tra .copyLayout false) y).2) = some none ∧
    ((readIn (countEngine spillTra { tra .spill false with elements := 64, moved := 0 })
      { tra .spill false with elements := 64, moved := 0 } (hostKey 0 0x10000) 64).2.toOption) = some (toLe 64 0) := by decide +kernel

theorem witness_TransferEvents :
    alive copyTra = true ∧ transferOf copyTra 20 = some (tra .copyLayout false) ∧ canSend copyTra 0 = true ∧
    hasTags copyTra (tra .copyLayout false) = true ∧ memoryHeld copyTra (tra .copyLayout false) = false ∧
    hasTags spillTra { tra .spill false with elements := 64, moved := 0 } = true ∧
    memoryHeld spillTra { tra .spill false with elements := 64, moved := 0 } = false ∧
    hasTags placeTra (tra (.place 0 0 0) false) = true ∧ memoryHeld placeTra (tra (.place 0 0 0) false) = false ∧
    (cmdOf copyTra 9).isSome = true ∧ ((cmdOf copyTra 9).map fun y => (runCopy copyTra (tra .copyLayout false) y).2) = some none ∧
    alive spillTra = true ∧ (cmdOf spillTra 9).isSome = true ∧ transferOf spillTra 20 = some { tra .spill false with elements := 64, moved := 0 } ∧
    ((readIn spillTra { tra .spill false with elements := 64, moved := 0 } (hostKey 0 0x10000) 64).2.toOption) = some (toLe 64 0) ∧
    transferOf placeTra 20 = some (tra (.place 0 0 0) false) ∧ canSend placeTra 0 = true ∧
    (reqFirst copyTra (tra .copyLayout false) 0).isSome = true ∧ (reqFirst copyTra (tra .copyLayout false) 0).getD 9 < 4 ∧
    alive haltTra = true ∧ transferOf haltTra 20 = some (tra .copyLayout true) ∧ canSend haltTra 0 = true ∧
    alive haltFetch = true ∧ transferOf haltFetch 30 = none ∧ fetchOf haltFetch 30 = some ftc ∧ canSend haltFetch 0 = true ∧
    alive invState = true ∧ invState.hpUp.getLsbD 0 = true ∧ inFlight invState 20 = false := by decide +kernel

/-- Writes on port 7 for partition 15 that a retirement read covers. -/
def retState : State := { up with unretired := [⟨7, 15, [⟨15, 0, [0], []⟩], some 1⟩] }
def reqState : State := { haltTra with reissued := [⟨5, 0, 20⟩], transfers := [tra .copyLayout false] }
def port1Down : State := { up with hpUp := 0xFD }
/-- Partition 1 runs on its secondary port 3. -/
def failedOver : State := setPart (setReg part1 (partBase 1 + 8) 0x8381) 1 fun x => { x with onSecondary := true }
def untrained : State := { up with hpUp := 0, boot := { up.boot with hpDone := false } }

theorem witness_HostPortEvents_request : canSend (requestExpiry reqState 5 0 0 20).1 0 = true ∧
    portOf (requestExpiry reqState 5 0 0 20).1 0 = 0 ∧ ((transferOf reqState 20).map fun t => (t.part, t.halted)) = some (0, false) := by
  decide +kernel

theorem witness_HostPortEvents :
    alive retState = true ∧ retState.hpUp.getLsbD 7 = true ∧
    (retState.unretired.find? fun u => u.port = 7 && u.part = 15) = some ⟨7, 15, [⟨15, 0, [0], []⟩], some 1⟩ ∧
    alive reqState = true ∧ reqState.hpUp.getLsbD 0 = true ∧ (requestExpiry reqState 5 0 0 20).2 = true ∧
    (transferOf (requestExpiry reqState 5 0 0 20).1 20).isSome = true ∧ (requestExpiry up 5 0 0 20).2 = false ∧
    alive port1Down = true ∧ hpLost port1Down 1 = false ∧ port1Down.hpUp.getLsbD 1 = false ∧ alive failedOver = true ∧
    (part failedOver 1).onSecondary = true ∧ (part failedOver 1).stranded = false ∧ priValid failedOver 1 = true ∧
    failedOver.hpUp.getLsbD (primaryPort failedOver 1) = true ∧ failedOver.unretired = [] ∧ alive untrained = true ∧
    untrained.boot.hpDone = false := by decide +kernel

/-! ### Sideband -/

theorem witness_ResetAndRelease : ({ up with pins := { up.pins with inReset := true } } : State).pins.inReset = true ∧
    (dieAt up 3).fuseOk = true ∧ (dieAt up 3).serial = (dieAt up 0).serial := by decide +kernel

/-- Pin 3 drives the steps of partition 0, and its last edge came 5 µs ago. -/
def pinState : State := { setReg up (partBase 0 + 0xC) 4 with us := 100, pins := { up.pins with
  stepLast := [none, none, none, some 95], stepHigh := [false, false, false, true], aliveRun := true } }
def pinOld : State := { pinState with us := 105 }
def pinStuck : State := { pinState with pins := { pinState.pins with stepStuck := [false, false, false, true] } }

theorem witness_StepAndAlivePins :
    alive pinState = true ∧ pinState.pins.stepStuck.getD 3 false = false ∧ pinState.pins.stepLast.getD 3 none = some 95 ∧
    pinState.us < 95 + 10 ∧ alive pinOld = true ∧ pinOld.pins.stepStuck.getD 3 false = false ∧ 95 + 10 ≤ pinOld.us ∧
    pinState.pins.stepHigh.getD 3 false = true ∧ alive pinStuck = true ∧ pinStuck.pins.stepStuck.getD 3 false = true ∧
    toggling pinState = true ∧ mappedTo pinOld 3 = [0] := by decide +kernel

theorem witness_SmbusAndTapCommands : smbusHears up (BitVec.ofNat 7 (smbusAddr up)) = true ∧ up.pins.inReset = false ∧
    (0x004FFFFC : Nat) ≤ 0x004FFFFF ∧ (regFields 0).isSome = true ∧ dieOf 0 = none ∧ (regFields (tileBase 95)).isSome = true ∧
    dieOf (tileBase 95) = some 3 ∧ dieLost up 3 = false ∧ regFields 0xFFC = none ∧ (0x05 : Byte) ∉ ([0x00, 0x01, 0x02, 0x03, 0x04, 0x10, 0x20] : List Byte) ∧
    (0x06 : Byte) ∉ ([0x01, 0x02, 0x03, 0x04, 0x05, 0x10] : List Byte) := by decide +kernel

/-! ### Engines -/

/-- Queue 0's epoch with its recipe and its directory. -/
def issState : State := { qUp with recipes := [rcpE], sources := [⟨0, 0, .host 0x10000 0x1000 0, 10, 2, none, false⟩], epochs := [ep] }
/-- A sample that waits for a thread of its first stage. -/
def newState : State := { qUp with recipes := [rcpE], samples := [{ smp with started := false, assigned := [] }] }
/-- A record of one extent, 64 bytes of source 7. -/
def rec0 : Rec :=
  { recno := 0, ctx := 0, frame := 0, flags := 0, keyback := 0, list := none, extents := [(7, 0, 64)], next := 0, left := 64, bytes := 64,
    crc := none, status := 0, failAt := (0, 0), damaged := false, cause := 0, element := false, handle := none,
    named := true, stage := 0, consumed := false }
def fetState : State := { srcState with recipes := [rcpE], samples := [{ smp with recs := [rec0] }] }
/-- A fetch of a drive, with a timed-out attempt 4 that holds buffer 8. -/
def nvmeFetch (ended : Bool) (l : List (Nat × List Nat)) : State :=
  { drvState with fetches := [{ ftc with halted := false, ended := ended, aborting := l, drive := some (3, 3) }] }

theorem witness_IssueAndFetchEvents_issue :
    alive issState = true ∧ epochOf issState 0 = some ep ∧ issState.samples = [] ∧ 0 < ep.inflight ∧ ep.reissue = [] ∧
    skipGone ep (ep.gone.length + 1) ep.nextIssue = 0 ∧ 0 < ep.n ∧ freeHandle issState = some 0 ∧
    recipeOf issState ep.part ep.recipe = some rcpE ∧ (ep.datasets[(indexOf ep 0).1]?.map fun d => (d.dir, d.base)) = some (0, 0) ∧
    (readDirectory issState 0 0 (indexOf ep 0).2 .timeout).isSome = true ∧ startedOf issState 0 < ep.inflight := by decide +kernel

theorem witness_IssueAndFetchEvents_assign : alive newState = true ∧
    ((List.range 16).filter fun p => (assignIn (noteWaits (refetchAll newState)) p).isSome) = [0] := by decide +kernel

/-- A fetch from the host of a stranded partition. -/
def strandedFetch : State := setPart { haltFetch with fetches := [{ ftc with halted := false }] } 0 fun x => { x with stranded := true }

theorem witness_IssueAndFetchEvents_stranded : alive strandedFetch = true ∧ ftc.drive = none ∧ canSend strandedFetch 0 = false ∧
    fetchOf strandedFetch 30 = some { ftc with halted := false } ∧ canSend haltFetch 0 = true := by decide +kernel

theorem witness_IssueAndFetchEvents :
    alive fetState = true ∧ dieLost fetState 0 = false ∧
    ((engineSamples fetState 0).all fun x => x.recsRead && decide (pendingList x = none)) = true ∧
    (engineSamples fetState 0).length = 1 ∧ ((nextPieces fetState 0).findSome? (issuePiece fetState 0)).isSome = true ∧
    fetState.fetches = [] ∧ alive (nvmeFetch false [(4, [8])]) = true ∧ (fetchOf (nvmeFetch false [(4, [8])]) 30).isSome = true ∧
    (oldAttempt (nvmeFetch false [(4, [8])]) 4).isSome = true ∧ (oldAttempt (nvmeFetch true [(4, [8])]) 4).isSome = true ∧
    fetchOf (nvmeFetch true [(4, [8])]) 4 = none ∧ (driveOf (nvmeFetch true [(4, [8])]) 3 3).isSome = true := by
  decide +kernel

/-- A thread with one ticket for work that waits. -/
def workThr (op : Option UnitOp) : Thread := { dmaThr with state := 5, tickets := [⟨1, 0, false, false, op, (0, 0), 0⟩] }
def workState (op : Option UnitOp) : State := { inSample (workThr op) with samples := [{ smp with recs := [{ rec0 with handle := some 0 }] }] }
def ticketOpen (op : Option UnitOp) : Bool :=
  alive (workState op) && decide (threadOf (workState op) th0 = some (workThr op)) && !hostTicket (workState op) th0 1

def mdlD : Model := { mdl with copies := [(0, [0])] }
def layerOp : Option UnitOp := some (.layer 64 40 [0])
def chunkState : State := { workState layerOp with models := [mdlD] }
/-- Landing buffer 0 of cluster 0. -/
def land (ready : Bool) : LandBuf := ⟨0, 40, 0, 0, ready, false, 1, []⟩

theorem witness_TicketAndChunkEvents_tickets :
    ticketOpen none = true ∧ ticketOpen (some (.drd 0 0 4032 64)) = true ∧ ticketOpen (some (.didx 0 1 4032)) = true ∧
    bufReady (workState (some (.drd 0 0 4032 64))) 0 0 0 64 = true ∧
    (drdNow (workState (some (.drd 0 0 4032 64))) th0 0 0 4032 64).2.isSome = true ∧
    (didxNow (workState (some (.didx 0 1 4032))) th0 0 1 4032).2 = some (0, 0) := by decide +kernel

theorem witness_TicketAndChunkEvents_chunks :
    alive chunkState = true ∧ dieLost chunkState 0 = false ∧ lastLanding chunkState 0 40 = none ∧
    nextChunk (chunksOf mdlD).length ((chunksOf mdlD).length - 1)
      (fun c => (waitingJobs chunkState 0 40).any fun j => j.need.contains c && !claims chunkState j c) = some 0 ∧
    chunkState.landing = [] ∧ chunkPaused chunkState mdlD 0 0 = false ∧ (readChunk chunkState mdlD 0 0).2 = false ∧
    (chunkState.models.find? fun y => y.uid = mdlD.uid) = some mdlD ∧
    (([land false] : List LandBuf).any fun y => y.cluster = 0 && y.model = 40 && y.buf = 0 && !y.ready) = true ∧
    (([land true] : List LandBuf).find? fun y => y.cluster = 0 && y.model = 40 && y.buf = 0 && y.ready && !y.released) = some (land true) ∧
    (land true).claims = [] := by decide +kernel

/-! ### Delivery -/

def slot (i : Nat) : Slot := { Slot.empty with pos := some i }
/-- An epoch of two positions, batches of 2, whose batch 0 is open. -/
def epD (entries : List Delivery) (slots : List Slot) : Epoch := { ep with n := 2, entries := entries, slots := slots }
def del : Delivery := ⟨0, 0x10000, 0x20000, 128, 2, 0, 1⟩
/-- A delivery entry (Table 15.4). -/
def delImg : List Byte := toLe 8 0x10000 ++ toLe 8 0x20000 ++ toLe 4 128 ++ toLe 4 2 ++ toLe 4 0 ++ toLe 36 0
def takeState : State := { poke qUp (hostKey (qSpace qUp 0) 0x3000) delImg with epochs := [epD [] [slot 0, slot 1]], recipes := [rcpE] }
def takeFault : State := { takeState with hostFaults := [3] }
/-- Both samples of the batch are ready, placed and copied. -/
def relState : State := { qUp with
  epochs := [epD [del] [slot 0, slot 1]], recipes := [rcpE]
  samples := [{ smp with h := 0, pos := 0, ready := true, placed := some 0, copied := true },
              { smp with h := 1, pos := 1, ready := true, placed := some 1, copied := true }] }
/-- Every position of the epoch is gone, and the open batch lies after its last. -/
def tailState : State := { qUp with
  epochs := [{ epD [{ del with batch := 1 }] (List.replicate 2 { Slot.empty with vacant := true }) with open_ := 1 }], recipes := [rcpE] }
/-- The grace window of batch 0 runs. -/
def graceState : State := { relState with epochs := [{ epD [del] [slot 0, slot 1] with graceRun := true }] }
/-- A deferred sample, alone or beside 64 stragglers. -/
def lateState (n : Nat) : State := { qUp with recipes := [rcpE], samples :=
  { smp with deferred := true } :: (List.range n).map fun i => { smp with h := 100 + i, deferred := true, straggler := true } }

theorem witness_DeliveryEvents :
    alive placeTra = true ∧ (placeTra.transfers.find? (isPlace 0 0)) = some (tra (.place 0 0 0) false) ∧ canSend placeTra 0 = true ∧
    alive takeState = true ∧ epochOf takeState 0 = some (epD [] [slot 0, slot 1]) ∧ canSend takeState 0 = true ∧
    qDrEn takeState 0 = true ∧ (queue takeState 0).drStop = false ∧ drCount takeState 0 ≠ 0 ∧ cqFree takeState (cqSel takeState 0) = true ∧
    (reg64 takeState (queueBase 0 + 0x28) + (queue takeState 0).drCi.toNat % drDepth takeState 0 * 64) = 0x3000 ∧
    faulty takeFault (hostKey (qSpace takeFault 0) 0x3000) 64 = true ∧ faulty takeState (hostKey (qSpace takeState 0) 0x3000) 64 = false ∧
    hostBytes takeState (hostKey (qSpace takeState 0) 0x3000) 64 = delImg ∧ deliveryErr delImg (epD [] [slot 0, slot 1]) = none := by
  decide +kernel

/-- A release-tree step has been carried to tile 95. -/
def carriedState : State := { up with carried := [(1, 95)] }

theorem witness_DeliveryEvents_more : (part takeState 0).resetting = false ∧ placeHeld placeTra (tra (.place 0 0 0) false) 0 0 = false ∧
    (epD [del] [slot 0, slot 1]).opening = none ∧ alive carriedState = true ∧ carriedState.carried.contains (1, 95) = true ∧
    unitLost carriedState 1 95 = false := by decide +kernel

theorem witness_DeliveryEvents_release :
    alive relState = true ∧ (part relState 0).stranded = false ∧ batchComplete relState (epD [del] [slot 0, slot 1]) = true ∧
    epochOf relState 0 = some (epD [del] [slot 0, slot 1]) ∧ (epD [del] [slot 0, slot 1]).lead = 1 ∧
    ((epochOf tailState 0).map fun e => batchComplete tailState e && decide (memberBatches e ≤ e.open_) && !unresolved e &&
      e.slots.all (fun y => y.pos.isNone) && (e.entries.find? fun d => d.batch = e.open_).isSome) = some true ∧
    ((epochOf graceState 0).map (·.graceRun)) = some true ∧ alive (lateState 64) = true ∧
    (sampleOf (lateState 0) 5).isSome = true ∧ stragglers (setSample (lateState 64) 5 fun y => { y with charged := Nat.max y.charged (y.budget + 1) }) 0 = 64 ∧
    stragglers (setSample (lateState 0) 5 fun y => { y with charged := Nat.max y.charged (y.budget + 1) }) 0 ≠ 64 ∧
    smp.started = true ∧ smp.copied = false ∧ smp.ready = false ∧ relState.epochs ≠ [] ∧ unitLost relState 1 95 = false ∧
    unitLost relState 3 3 = false := by decide +kernel

/-! ### Memory, health, boot and power -/

def sb0 : Superblock := ⟨3, 5, 0, none, 15, false, true, []⟩
/-- Superblock 5 of die 3, marked and empty, and superblock 6, in a group. -/
def sbState : State := { up with superblocks := [sb0, { sb0 with idx := 6, group := some 1, marked := false }] }
def waitState : State := { inSample dmaThr with allocWaits := [⟨th0, 0, 1, 8⟩] }
/-- Request 7 has been sent a second time on port 15 and on edge 3. -/
def again : State := { up with reissued := [⟨4, 15, 7⟩, ⟨7, 3, 7⟩] }
def memUntrained : State := { up with mpUp := 0, boot := { up.boot with memDone := false } }
/-- Tile 95 is under its self-test. -/
def revState : State := { tileOut with revival := some ⟨1, 95, (1, 95)⟩ }
def mmState : State := { up with dies := up.dies.map fun x => { x with mmRun := true } }

theorem witness_MemoryAndHealthEvents_memory :
    alive waitState = true ∧ (resumable waitState).isSome = true ∧ alive sbState = true ∧
    (sbState.superblocks.find? fun x => x.die = 3 && x.idx = 5) = some sb0 ∧ sb0.retired = false ∧ sb0.marked = true ∧
    sbState.bufs.any (inSuper sb0) = false ∧ (sbState.superblocks.find? fun x => x.die = 3 && x.idx = 6).isSome = true ∧
    sbState.mpPaused.getLsbD 15 = false ∧ (4 * 3 + portIn sb0 (1048575 / 64) < 16) ∧
    (lineOutcome (fld sbState 0x4000 2 1) ⟨0, 9⟩, lineOutcome (fld sbState 0x4000 2 1) ⟨2, 9⟩,
      lineOutcome (fld sbState 0x4000 2 1) ⟨4, 1⟩, lineOutcome (fld sbState 0x4000 2 1) ⟨3, 9⟩) =
      (.clean, .corrected, .miscorrected, .uncorrectable) ∧ mpServes again 15 = true ∧ alive again = true ∧
    again.mpPaused.getLsbD 15 = false ∧ (requestExpiry again 4 15 3 7).2 = true ∧ (requestExpiry up 4 15 3 7).2 = false ∧
    alive memUntrained = true ∧ memUntrained.boot.memDone = false := by decide +kernel

theorem witness_MemoryAndHealthEvents_health :
    edgeUp again 3 = true ∧ (requestExpiry again 7 3 (unitDie 7 3) 7).2 = true ∧ (requestExpiry up 7 3 (unitDie 7 3) 7).2 = false ∧
    up.pins.inReset = false ∧ 95 < unitCount 1 ∧ up.fatal = false ∧ dieLost up (unitDie 1 95) = false ∧
    dieLost ({ up with lost := [(3, 3)] } : State) (unitDie 1 95) = true ∧
    ([(1, 0x0B, 95), (2, 0x0C, 23), (3, 0x0E, 3)].all fun (x : Nat × Nat × Nat) => decide (hangSource x.1 = some x.2.1) &&
      decide (x.2.2 < unitCount x.1) && !unitLost up x.1 x.2.2 && (decide (x.1 ≠ 1) || !armed up 4 x.2.2)) = true ∧
    alive revState = true ∧ revState.revival = some ⟨1, 95, (1, 95)⟩ ∧ unitLost revState 1 95 = true ∧
    unitLost (returnUnit revState ⟨1, 95, (1, 95)⟩) 1 95 = false ∧ alive mmState = true ∧ dieLost mmState 3 = false ∧ (dieAt mmState 3).mmRun = true ∧
    up.hpUp.getLsbD 7 = true ∧ armed up 2 7 = false := by decide +kernel

/-- An image fetch runs, but no image is there. -/
def fwState : State := { preFw with boot := { preFw.boot with fwBusy := true } }
/-- The record's address is given, and a restore or a save is due. -/
def recState (startOnly : Bool) : State := { preRec with boot := { preRec.boot with restoreRun := true, startOnly := startOnly } }
def recAddr : State := setReg (recState false) 0x108 0x4000
def saveState : State := { withFmn with boot := { withFmn.boot with savePending := true } }

/-- Whether an image is accepted rests on the fused key hash, a free value (log entry 7); the clause on an accepted image has
no evaluated witness. -/
theorem witness_BootAndPowerEvents_boot :
    alive fwState = true ∧ canSend fwState 0 = true ∧ fwState.boot.fwBusy = true ∧ fwState.boot.fwRun = false ∧
    checkImage fwState (hostKey pf0Space (reg64 fwState 0x100)) = .error 2 ∧ alive (recState true) = true ∧
    canSend (recState true) 0 = true ∧ (recState true).boot.memDone = true ∧ reg64 (recState false) 0x108 = 0 ∧
    alive (recState false) = true ∧ canSend (recState false) 0 = true ∧ alive recAddr = true ∧ reg64 recAddr 0x108 = 0x4000 ∧
    canSend recAddr 0 = true ∧ recAddr.boot.restoreRun = true ∧ recAddr.boot.startOnly = false ∧ alive saveState = true ∧
    saveState.boot.savePending = true ∧ reg64 saveState 0x108 ≠ 0 := by decide +kernel

/-- Each die takes w tenths of a watt. -/
def reading (w : Nat) : PowerReading := ⟨List.replicate 4 w, List.replicate 4 10, List.replicate 4 650⟩
def measured (s : State) (m : PowerReading) : State := setFld { s with
  dies := s.dies.zipIdx.map fun (x, d) => { x with dw := m.dw.getD d 0, da := m.da.getD d 0, mv := m.mv.getD d x.mv }
  energy := s.energy + estimate s m
  counted := powerCounters.map fun c => reg64 s c.1 } 0x5008 25 16 (Nat.min 1023 (estimate s m / 10 ^ 12))

theorem witness_BootAndPowerEvents_power :
    preFw.pins.inReset = false ∧ preFw.pins.testHeld = false ∧ preFw.boot.fwRun = false ∧ up.boot.fwRun = true ∧ up.fatal = false ∧
    fld (measured up (reading 2000)) 0x5000 9 0 * 10 ^ 12 < estimate up (reading 2000) ∧
    100 * estimate up (reading 100) < 95 * (fld (measured up (reading 100)) 0x5000 9 0 * 10 ^ 12) ∧
    (readTj up 3 100).boot.fwRun = true ∧ (readTj up 3 100).fatal = false ∧
    (stepDown (dvsetOf (readTj up 3 100) 3) (dieAt (readTj up 3 100) 3) (thermLimit (dieAt (readTj up 3 100) 3))).isSome = true ∧
    alive up = true ∧ dieLost up 3 = false ∧ (dieAt up 3).fixed = false := by decide +kernel

/-! ### Whole machine -/

/-- A step between two states, from one in canonical form. -/
theorem witness_StepKeepsCanonical : canonical up = true ∧ canonical qUp = true ∧
    step { up with pending := [.nop 0] } = .next up := ⟨by decide +kernel, canonical_qUp, rfl⟩

/-! ### The worked example after R103 -/

def lockedByAlias : State := after (.bitAliasWrite 0 0 0x800200 1) up
def strayWrite : State := after (.bitAliasWrite 0 0 0x800200 0) lockedByAlias
/-- The driver clears LOCK_WR through its alias. -/
def lockCleared : State := after (.writeOneToClear 0 0 0x800284 1) strayWrite

theorem test_alias_locks : fld lockedByAlias 0x10 0 0 = 1 := by decide +kernel
theorem test_alias_stray_write : fld strayWrite 0x10 0 0 = 1 ∧ fld strayWrite 0x14 1 1 = 1 ∧ reg strayWrite 0x20 = 1 := by decide +kernel
theorem test_alias_clears : fld lockCleared 0x14 1 1 = 0 ∧ reg lockCleared 0x20 = 1 := by decide +kernel

/-- The instruction word of the worked example after R211. -/
theorem test_word_vadd : splitWord 0x2014411C00000000 = (2, 0, vaddIns) := by decide +kernel

end Sys2Proof.Tests
end

/-!
Accepted register writes: what a written register reads as, and what a write of one to a W1C bit leaves (R9, R94 to R96).
-/

namespace Sys2Proof.Machine

variable {s : State} {fn port off o b : Nat} {v : Word}

/-! ### What a register reads as after an accepted write (R9) -/

@[simp] theorem reg_noteChange (o o' : Nat) (c : Bool) : reg (noteChange s o c) o' = reg s o' := by
  unfold noteChange
  split <;> rfl

theorem reg_stored_self (h : canonical s = true) : reg (stored s o v) o = v := by
  rw [stored, reg_noteChange, reg_setReg_self h]

theorem reg_stored_ne {o' : Nat} (h : o' ≠ o) : reg (stored s o v) o' = reg s o' := by
  rw [stored, reg_noteChange, reg_setReg_ne h]

/-- Settles O26: the equation of an accepted write, whose effects an ordinary register has none of. -/
theorem registerWriteSetsFields : Obligations.RegisterWriteSetsFields := by
  unfold Obligations.RegisterWriteSetsFields
  intro fn port off o v s hacc hset hquiet hclears
  refine ⟨congrArg Host.Outcome.next ?_, reg_stored_self, fun o' => reg_stored_ne⟩
  rw [busWrite_word hacc, writeReg_settable hset hclears, effects_quiet hquiet]

/-! ### One bit of a word -/

theorem bits_bit (x b : Nat) : bits x b b = (x.testBit b).toNat := by
  rw [bits, Nat.add_sub_cancel_left, Nat.pow_one, Nat.toNat_testBit]

/-- A word whose bit b is set is the same word without it, and the bit. -/
theorem toNat_clear_add (hb : b < 32) (h : v.getLsbD b = true) :
    (v &&& ~~~(BitVec.twoPow 32 b)).toNat + 2 ^ b = v.toNat := by
  have apart : (v &&& ~~~(BitVec.twoPow 32 b)) &&& BitVec.twoPow 32 b = 0#32 := by
    rw [BitVec.and_twoPow, if_neg (by simp [hb])]
  have whole : (v &&& ~~~(BitVec.twoPow 32 b)) ||| BitVec.twoPow 32 b = v := by
    ext i hi
    by_cases e : i = b
    · subst e; simpa [BitVec.getLsbD_eq_getElem hi] using h
    · simp [e]
  have hp : (BitVec.twoPow 32 b).toNat = 2 ^ b := by
    rw [BitVec.toNat_twoPow, Nat.mod_eq_of_lt (Nat.pow_lt_pow_right (by decide) hb)]
  rw [← hp, ← BitVec.toNat_add_of_and_eq_zero apart, BitVec.add_eq_or_of_and_eq_zero _ _ apart, whole]

theorem withBits_clear (hb : b < 32) (h : v.getLsbD b = true) : withBits v.toNat b b 0 = v &&& ~~~(BitVec.twoPow 32 b) := by
  have hv := toNat_clear_add hb h
  rw [withBits, bits_bit, BitVec.testBit_toNat, h, Nat.zero_mod, Nat.zero_mul, Nat.add_zero, Bool.toNat_true, Nat.one_mul,
    ← hv, Nat.add_sub_cancel, BitVec.ofNat_toNat, BitVec.setWidth_eq]

theorem withBits_set (hb : b < 32) (h : v.getLsbD b = true) :
    withBits (v &&& ~~~(BitVec.twoPow 32 b)).toNat b b 1 = v := by
  have hv := toNat_clear_add hb h
  have off : (v &&& ~~~(BitVec.twoPow 32 b)).getLsbD b = false := by simp [hb]
  rw [withBits, bits_bit, BitVec.testBit_toNat, off, Bool.toNat_false, Nat.zero_mul, Nat.sub_zero, Nat.add_sub_cancel_left,
    Nat.pow_one, Nat.one_mod, Nat.one_mul, hv, BitVec.ofNat_toNat, BitVec.setWidth_eq]

/-- Of the bits that a write of the one bit b carries, those that are set are b alone. -/
theorem setBits_twoPow (hb : b < 32) (h : v.getLsbD b = true) :
    ((List.range 32).filter fun i => (BitVec.twoPow 32 b).getLsbD i && v.getLsbD i) = [b] := by
  have one : ∀ i, ((BitVec.twoPow 32 b).getLsbD i && v.getLsbD i) = (i == b) := fun i => by
    by_cases e : i = b
    · subst e; simp [hb, h]
    · simp [e, Ne.symm e]
  rw [List.filter_congr fun i _ => one i, List.filter_beq, List.count_range, if_pos hb, List.replicate_one]

/-! ### Clearing a W1C bit (R94 to R96) -/

/-- Writing the word that a register holds changes nothing. -/
theorem setReg_reg (h : canonical s = true) : setReg s o (reg s o) = s := by
  have hwf := (canonical_iff.1 h).2.1
  have same : put regReset o (reg s o) s.regs = s.regs := eq_of_look (wf_put hwf) hwf fun i => by
    by_cases e : i = o
    · subst e; exact look_put_self hwf
    · exact look_put_ne e
  rw [setReg, same]

theorem fld_setReg_ne {p : Nat} (h : p ≠ o) (a c : Nat) : fld (setReg s o v) p a c = fld s p a c := by
  rw [fld, reg_setReg_ne h, fld]

theorem targetLost_setReg {i : Nat} (h : 0x1020 + 4 * i ≠ o) : targetLost (setReg s o v) i = targetLost s i := by
  unfold targetLost
  rw [fld_setReg_ne h]
  rfl

/-- Whether a cause stands is read from no register of fault bits, the only ones that a standing cause sets again. -/
theorem causeStands_setReg (b : Nat) : causeStands (setReg s o v) o b = causeStands s o b := by
  have hdie : ∀ d, dieAt (setReg s o v) d = dieAt s d := fun _ => rfl
  by_cases h : o = 0x1010 ∨ o = 0x102C ∨ o = 0x103C
  · have hno : ∀ d, (decide (o = 0x1004) || decide (o = dieBase d + 0x3000)) = false := by
      intro d
      rw [Bool.or_eq_false_iff, decide_eq_false_iff_not, decide_eq_false_iff_not, dieBase]
      constructor <;> omega
    simp [causeStands, hno]
  · simp only [not_or] at h
    obtain ⟨h1, h2, h3⟩ := h
    simp only [causeStands, setReg_mpPaused, setReg_pins, hdie, fld_setReg_ne (Ne.symm h1), fld_setReg_ne (Ne.symm h2),
      fld_setReg_ne (Ne.symm h3), targetLost_setReg (i := 7) (Ne.symm h3), targetLost_setReg (i := 3) (Ne.symm h2)]

/-- A write of ones to W1C bits of an ordinary register without RW fields is the clearing of those bits. -/
theorem writeReg_clears {port : Nat} (hs : canonical s = true) (h : settable s o (reg s o) 0 = true) (hm : rwMask o = 0)
    (ha : actions o v = 0) (hq : quietReg o = true) : writeReg s port o none v = clearBits s o (clears o v) := by
  obtain ⟨h1, h2, h3, h4⟩ := settable_iff.1 h
  obtain ⟨g1, g2, g3⟩ := unlocked_iff.1 h1
  have hw : merged (reg s o) v (rwMask o) none = reg s o := by
    rw [merged, hm]
    change (reg s o &&& BitVec.allOnes 32) ||| (v &&& 0#32) = reg s o
    rw [BitVec.and_allOnes, BitVec.and_zero, BitVec.or_zero]
  have hc : onesOf o none v .w1c = clears o v := rfl
  have hwo : onesOf o none v .wo = 0 := ha
  have hi : aliasInert o none = false := rfl
  simp only [writeReg, g1, g2, hi, h2, g3, useLow, h3, lowWanted, hw, hc, hwo, applyWrite, lowPresent, putHalves,
    setReg_reg hs, effects_quiet hq, Bool.false_eq_true, if_false, Bool.or_self, Nat.zero_ne_one, noteChange]
  rw [if_neg (by simpa using h4)]
  simp

/-- The count of a fault source restarts as its bit is cleared; no register changes by it. -/
def restarted (s : State) (o b : Nat) : State :=
  if o = 0x1004 then { s with escCount := put (fun _ => 0) b 0 s.escCount } else s

@[simp] theorem reg_restarted (o b o' : Nat) : reg (restarted s o b) o' = reg s o' := by
  unfold restarted
  split <;> rfl

theorem causeStands_restarted (o b o' b' : Nat) : causeStands (restarted s o b) o' b' = causeStands s o' b' := by
  unfold restarted
  split <;> rfl

theorem clearBits_one (hb : b < 32) (h : (reg s o).getLsbD b = true) :
    clearBits s o (BitVec.twoPow 32 b) =
      if causeStands s o b then setW1c (restarted (setFld s o b b 0) o b) o b (companion o b)
      else restarted (setFld s o b b 0) o b := by
  have hs : causeStands (restarted (setFld s o b b 0) o b) o b = causeStands s o b :=
    (causeStands_restarted _ _ _ _).trans (causeStands_setReg b)
  rw [clearBits, setBits_twoPow hb h, List.foldl_cons, List.foldl_nil, ← hs]
  rfl

/-- A hardware set of a W1C bit sets the bit in its register. -/
theorem reg_setW1c_self {k : Nat} (h : canonical s = true) (hk : k ≠ o) :
    reg (setW1c s o b k) o = withBits (reg s o).toNat b b 1 := by
  rw [setW1c, bump, bumpBy, reg_setReg_ne hk.symm, setFld, reg_setReg_self h]

/-- It advances the companion counter by one. -/
theorem reg_setW1c_counter {k : Nat} (h : canonical s = true) (hk : k ≠ o) : reg (setW1c s o b k) k = reg s k + 1 := by
  rw [setW1c, bump, bumpBy, reg_setReg_self ((keeps_setFld _ _ _ _).2 h), setFld, reg_setReg_ne hk]
  rfl

theorem keeps_restarted (o b : Nat) : Keeps s (restarted s o b) :=
  keeps_ite (fun _ => keeps_of_eq rfl rfl rfl rfl rfl rfl rfl) fun _ => .refl s

/-- Settles O28: the write is the clearing of the one bit, and a cause that stands sets it and counts it again. -/
theorem writeOneClearsBit : Obligations.WriteOneClearsBit := by
  unfold Obligations.WriteOneClearsBit
  intro fn port off o b s hb hs hacc hset hquiet hrw hact hclear hbit
  have hcleared : reg (restarted (setFld s o b b 0) o b) o = reg s o &&& ~~~(BitVec.twoPow 32 b) := by
    rw [reg_restarted, setFld, reg_setReg_self hs, withBits_clear hb hbit]
  have hcanon : canonical (restarted (setFld s o b b 0) o b) = true :=
    ((keeps_setFld _ _ _ _).trans (keeps_restarted _ _)).2 hs
  refine ⟨clearBits s o (BitVec.twoPow 32 b), congrArg Host.Outcome.next ?_, fun hno _ => ?_, fun hst hk => ⟨?_, ?_⟩⟩
  · rw [busWrite_word hacc, writeReg_clears hs hset hrw hact hquiet, hclear]
  · rw [clearBits_one hb hbit, hno, if_neg Bool.false_ne_true, hcleared]
  · rw [clearBits_one hb hbit, if_pos hst, reg_setW1c_self hcanon hk, hcleared, withBits_set hb hbit]
  · rw [clearBits_one hb hbit, if_pos hst, reg_setW1c_counter hcanon hk, reg_restarted, setFld, reg_setReg_ne hk]

end Sys2Proof.Machine

/-!
Every operation of the model, every command and the clock keep the canonical form of the state, in the order of the model. Each
lemma says so of one operation, by the lemmas of the operations that it is made of.
-/

namespace Sys2Proof.Machine

-- one declaration after another: this many proofs checked at once want more threads than the check leaves memory for
set_option Elab.async false

variable {s t u : State} {α β γ : Type}

/-! ### What the canonical form is read from -/

/-- The fields that `Keeps` speaks of: the waiting commands, host memory, the register words, how many queues, partitions and
dies there are, and partition 0's port. -/
abbrev kept (s : State) : List Instr × List Host.Cell × Sparse Word × Nat × Nat × Nat × Nat :=
  (s.pending, s.hostMem, s.regs, s.queues.length, s.parts.length, s.dies.length, s.port0)

theorem keeps_of_kept (h : kept t = kept s) : Keeps s t := by
  simp only [kept, Prod.mk.injEq] at h
  obtain ⟨hp, hm, hr, hq, hpt, hd, h0⟩ := h
  exact keeps_of_eq hp hm hr hq hpt hd h0

/-- An update of other fields only. -/
theorem keeps_rfl (h : kept t = kept s := by rfl) : Keeps s t := keeps_of_kept h

/-- An update of other fields after t. -/
theorem Keeps.same (h : Keeps s t) (e : kept u = kept t := by rfl) : Keeps s u := h.trans (keeps_of_kept e)

theorem keeps_unless {c : Prop} [Decidable c] (h : Keeps s t) : Keeps s (if c then s else t) :=
  keeps_ite (fun _ => .refl _) fun _ => h

theorem keeps_when {c : Prop} [Decidable c] (h : Keeps s t) : Keeps s (if c then t else s) :=
  keeps_ite (fun _ => h) fun _ => .refl _

/-! ### States inside what an operation answers -/

theorem Keeps.fst_eq {p : State × β} {b : β} (h : Keeps s p.1) (e : p = (t, b)) : Keeps s t := by
  subst e; exact h

theorem Keeps.snd_eq {p : β × State} {b : β} (h : Keeps s p.2) (e : p = (b, t)) : Keeps s t := by
  subst e; exact h

theorem keeps_foldl_fst {a : State × β} {f : State × β → α → State × β} {l : List α}
    (h : ∀ a x, Keeps a.1 (f a x).1) : Keeps a.1 (l.foldl f a).1 := by
  induction l generalizing a with
  | nil => exact .refl _
  | cons x l ih => exact (h a x).trans ih

theorem keeps_ite_fst {c : Prop} [Decidable c] {p q : State × β} (h : Keeps s p.1) (g : Keeps s q.1) :
    Keeps s (if c then p else q).1 := by
  split
  · exact h
  · exact g

/-- The state `st` of what o answers, if it answers, keeps what s has. -/
def KeepsSome (s : State) (st : β → State) (o : Option β) : Prop := ∀ r, o = some r → Keeps s (st r)

section
variable {st : β → State} {st' : γ → State} {o p : Option β}

theorem keepsSome_none : KeepsSome s st none := fun _ e => by cases e

theorem keepsSome_some {r : β} (h : Keeps s (st r)) : KeepsSome s st (some r) := fun _ e => by cases e; exact h

theorem keepsSome_ite {c : Prop} [Decidable c] (h : KeepsSome s st o) (g : KeepsSome s st p) :
    KeepsSome s st (if c then o else p) := by
  split
  · exact h
  · exact g

theorem KeepsSome.after (h : KeepsSome t st o) (g : Keeps s t) : KeepsSome s st o := fun r e => g.trans (h r e)

theorem keepsSome_or (h : KeepsSome s st o) (g : KeepsSome s st p) : KeepsSome s st (o.or p) := by
  cases o with
  | none => exact g
  | some r => exact h

theorem keepsSome_map {f : β → γ} (h : KeepsSome s st o) (hf : ∀ r, Keeps (st r) (st' (f r))) :
    KeepsSome s st' (o.map f) := by
  cases o with
  | none => exact keepsSome_none
  | some r => exact keepsSome_some ((h r rfl).trans (hf r))

theorem keepsSome_bind {f : β → Option γ} (h : KeepsSome s st o) (hf : ∀ r, KeepsSome (st r) st' (f r)) :
    KeepsSome s st' (o.bind f) := by
  cases o with
  | none => exact keepsSome_none
  | some r => exact (hf r).after (h r rfl)

theorem keepsSome_bind_of {o : Option α} {f : α → Option γ} (hf : ∀ a, KeepsSome s st' (f a)) : KeepsSome s st' (o.bind f) := by
  cases o with
  | none => exact keepsSome_none
  | some a => exact hf a

theorem keepsSome_findSome {l : List α} {f : α → Option β} (h : ∀ a, KeepsSome s st (f a)) :
    KeepsSome s st (l.findSome? f) := fun r e => by
  obtain ⟨a, -, ha⟩ := List.exists_of_findSome?_eq_some e
  exact h a r ha

theorem keepsSome_filter {f : β → Bool} (h : KeepsSome s st o) : KeepsSome s st (o.filter f) :=
  fun r e => h r (Option.eq_some_of_filter_eq_some e)

theorem keeps_getD {o : Option State} (h : KeepsSome s id o) (g : Keeps s t) : Keeps s (o.getD t) := by
  cases o with
  | none => exact g
  | some r => exact h r rfl

end

/-- A command runs from s: it answers a next state, which keeps what s has. -/
def Runs (s : State) (o : Out) : Prop := ∃ t, o = .next t ∧ Keeps s t

theorem runs_next (h : Keeps s t) : Runs s (.next t) := ⟨t, rfl, h⟩

/-- What a lattice operation leaves, where it is done. -/
inductive LatKeeps (s : State) : LatOut → Prop
  | done {t : State} (h : Keeps s t) : LatKeeps s (.done t)
  | range : LatKeeps s .range
  | wait : LatKeeps s .wait

theorem LatKeeps.of_done {r : LatOut} (h : LatKeeps s r) (e : r = .done t) : Keeps s t := by
  subst e; cases h; assumption

theorem LatKeeps.after {r : LatOut} (h : LatKeeps t r) (g : Keeps s t) : LatKeeps s r := by
  cases h with
  | done h => exact .done (g.trans h)
  | range => exact .range
  | wait => exact .wait

/-- What a unit's work leaves, whether it is done, waits, or is gone with its sample. -/
inductive UnitKeeps (s : State) : UnitOut → Prop
  | done {st c : Nat} {t : State} (h : Keeps s t) : UnitKeeps s (.done t st c)
  | wait {t : State} (h : Keeps s t) : UnitKeeps s (.wait t)
  | gone {t : State} (h : Keeps s t) : UnitKeeps s (.gone t)

theorem UnitKeeps.of_done {r : UnitOut} {st c : Nat} (h : UnitKeeps s r) (e : r = .done t st c) : Keeps s t := by
  subst e; cases h; assumption

theorem UnitKeeps.of_wait {r : UnitOut} (h : UnitKeeps s r) (e : r = .wait t) : Keeps s t := by
  subst e; cases h; assumption

theorem UnitKeeps.of_gone {r : UnitOut} (h : UnitKeeps s r) (e : r = .gone t) : Keeps s t := by
  subst e; cases h; assumption

theorem UnitKeeps.after {r : UnitOut} (h : UnitKeeps t r) (g : Keeps s t) : UnitKeeps s r := by
  cases h with
  | done h => exact .done (g.trans h)
  | wait h => exact .wait (g.trans h)
  | gone h => exact .gone (g.trans h)

/-- What a piece of a template's work leaves, in each of its ends that carries a state. -/
inductive TplKeeps (s : State) : Tpl α → Prop
  | ok {a : α} {t : State} (h : Keeps s t) : TplKeeps s (.ok t a)
  | wait : TplKeeps s .wait
  | later {t : State} (h : Keeps s t) : TplKeeps s (.later t)
  | full : TplKeeps s .full
  | fault {e : Nat} : TplKeeps s (.fault e)
  | source {st c : Nat} {a : Nat × Nat} : TplKeeps s (.source st c a)
  | gone {t : State} (h : Keeps s t) : TplKeeps s (.gone t)

theorem TplKeeps.after {r : Tpl α} (h : TplKeeps t r) (g : Keeps s t) : TplKeeps s r := by
  cases h with
  | ok h => exact .ok (g.trans h)
  | wait => exact .wait
  | later h => exact .later (g.trans h)
  | full => exact .full
  | fault => exact .fault
  | source => exact .source
  | gone h => exact .gone (g.trans h)

theorem TplKeeps.bind {r : Tpl α} {f : State → α → Tpl β} (h : TplKeeps s r) (hf : ∀ t a, TplKeeps t (f t a)) :
    TplKeeps s (r.bind f) := by
  cases h with
  | ok h => exact (hf _ _).after h
  | wait => exact .wait
  | later h => exact .later h
  | full => exact .full
  | fault => exact .fault
  | source => exact .source
  | gone h => exact .gone h


/-! ### Machine/Units.lean -/

theorem keeps_countTurn {u p n : Nat} {after : List Nat} : Keeps s (countTurn s u p n after) := keeps_rfl

/-! ### Machine/Ops.lean -/

theorem keeps_unsupported {fn : Nat} {write : Bool} : Keeps s (unsupported s fn write) := (keeps_rfl).trans (keeps_bump _)

theorem keeps_countRead {p n : Nat} : Keeps s (countRead s p n) := keeps_bump64 _ _

theorem keeps_withBrought {h : ReadHalt} : Keeps s (withBrought s h) := keeps_rfl

theorem keeps_onPulse {n lo hi : Nat} {go : State → State} (hgo : ∀ s, Keeps s (go s)) : Keeps s (onPulse s n lo hi go) :=
  keeps_unless <| keeps_ite (fun _ => hgo _) fun _ => keeps_ite (fun _ => keeps_arbitrate.trans (hgo _)) fun _ =>
      keeps_arbitrate

/-! ### Machine/Pool.lean -/

theorem keeps_addSuper {b : Superblock} : Keeps s (addSuper s b) := keeps_rfl

theorem keeps_addBuf {p h sb : Nat} {wide : Bool} {n : Nat} {own : Owner} : Keeps s (addBuf s p h sb wide n own) := keeps_rfl

theorem keeps_allocOn {p : Nat} {own : Owner} {d k : Nat} : KeepsSome s Prod.fst (allocOn s p own d k) := by
  unfold allocOn
  split
  · exact keepsSome_some keeps_addBuf
  · split
    · exact keepsSome_some (keeps_addSuper.trans keeps_addBuf)
    · exact keepsSome_none

theorem keeps_allocWide {p : Nat} {own : Owner} {k : Nat} : KeepsSome s Prod.fst (allocWide s p own k) := by
  unfold allocWide
  dsimp only
  split
  · exact keepsSome_some keeps_addBuf
  · split
    · exact keepsSome_ite (KeepsSome.after (keepsSome_some keeps_addBuf) (keeps_foldl fun _ _ => keeps_addSuper)) keepsSome_none
    · exact keepsSome_none

theorem keeps_alloc {p : Nat} {own : Owner} {d k : Nat} : KeepsSome s Prod.fst (alloc s p own d k) :=
  keepsSome_ite keeps_allocWide (keepsSome_findSome fun _ => keeps_allocOn)

theorem keeps_allocList {p : Nat} {own : Owner} {d : Nat} {ks : List Nat} :
    KeepsSome s Prod.fst (allocList s p own d ks) := by
  induction ks generalizing s with
  | nil => exact keepsSome_some (.refl _)
  | cons k ks ih =>
    unfold allocList
    split
    · rename_i t _ e
      have ht : Keeps s t := keeps_allocOn _ e
      exact keepsSome_map (ih.after ht) fun _ => .refl _
    · exact keepsSome_none

theorem keeps_allocObject {p : Nat} {own : Owner} {d n : Nat} : KeepsSome s Prod.fst (allocObject s p own d n) :=
  keepsSome_ite keepsSome_none keeps_allocList

theorem keeps_allocNear {p : Nat} {own : Owner} {d n : Nat} : KeepsSome s Prod.fst (allocNear s p own d n) :=
  keepsSome_findSome fun _ => keepsSome_map keeps_allocObject (fun _ => .refl _)

theorem keeps_allocLarge {p : Nat} {own : Owner} {d n : Nat} : KeepsSome s Prod.fst (allocLarge s p own d n) := by
  unfold allocLarge
  refine keepsSome_findSome fun _ => ?_
  split
  · rename_i t _ _ e
    have ht : Keeps s t := keeps_allocList _ e
    exact keepsSome_some ht.same
  · exact keepsSome_none

theorem keeps_sweep : Keeps s (sweep s) := keeps_rfl

theorem keeps_freeBufs {hs : List Nat} : Keeps s (freeBufs s hs) :=
  keeps_unless <| (keeps_rfl).trans keeps_sweep

theorem keeps_dropRef {h : Nat} : Keeps s (dropRef s h) := by
  unfold dropRef
  split
  · exact keeps_ite (fun _ => keeps_freeBufs) fun _ => keeps_setBuf _ _
  · exact .refl _

theorem keeps_dropRefs {hs : List Nat} : Keeps s (dropRefs s hs) := keeps_foldl fun _ _ => keeps_dropRef

theorem keeps_poolWait : Keeps s (poolWait s) := keeps_setW1c _ _ _

theorem keeps_countLines {b : Buf} {f : Nat → Bool} {off n : Nat} : Keeps s (countLines s b f off n) :=
  keeps_foldl fun _ _ => keeps_bump64 _ _

theorem keeps_crossed {a b n : Nat} : Keeps s (crossed s a b n) :=
  keeps_unless <| keeps_foldl fun _ _ => keeps_bump64 _ _

theorem keeps_bufWrite {h off : Nat} {l : List Byte} : Keeps s (bufWrite s h off l) := by
  unfold bufWrite
  extract_lets t
  have ht : Keeps s t := by
    unfold t
    split
    · exact keeps_countLines
    · exact .refl _
  exact ht.trans (keeps_setBuf _ _)

theorem keeps_allocMany {p : Nat} {own : Owner} {d : Nat} {ks : List Nat} :
    KeepsSome s Prod.fst (allocMany s p own d ks) := by
  induction ks generalizing s with
  | nil => exact keepsSome_some (.refl _)
  | cons k ks ih =>
    unfold allocMany
    split
    · rename_i t _ e
      have ht : Keeps s t := keeps_alloc _ e
      exact keepsSome_map (ih.after ht) fun _ => .refl _
    · exact keepsSome_none

theorem keeps_markWritten {n : Nat} {hs : List Nat} : Keeps s (markWritten s n hs) := by
  induction hs generalizing s n with
  | nil => exact .refl _
  | cons h hs ih =>
    unfold markWritten
    extract_lets _ t u
    have ht : Keeps s t := by
      unfold t
      split
      · exact keeps_countLines
      · exact .refl _
    exact (ht.trans (keeps_setBuf _ _)).trans ih

theorem keeps_freeAfter {p : Nat} {hs : List Nat} : Keeps s (freeAfter s p hs) := by
  unfold freeAfter
  dsimp only
  split
  · exact keeps_setPart _ _
  · split
    · exact keeps_rfl
    · exact keeps_freeBufs

theorem keeps_retireAll {p : Nat} : Keeps s (retireAll s p) := (keeps_rfl).trans keeps_freeBufs

theorem keeps_readReturned {p n : Nat} : Keeps s (readReturned s p n) := keeps_countRead.trans keeps_retireAll

theorem keeps_forgetFrees {hs : List Nat} : Keeps s (forgetFrees s hs) := by
  unfold forgetFrees
  dsimp only
  exact keeps_of_eq rfl rfl rfl rfl (by simp) rfl rfl

/-! ### Machine/Samples.lean -/

theorem keeps_stopThreads {p : Thread → Bool} : Keeps s (stopThreads s p) := keeps_rfl

theorem keeps_dropFetchRecs {h : Nat} : Keeps s (dropFetchRecs s h) := keeps_rfl

theorem keeps_unplace {x : Sample} : Keeps s (unplace s x) := by
  unfold unplace
  split
  · exact keeps_rfl
  · exact .refl _

theorem keeps_freeLanded {hs : List Nat} : Keeps s (freeLanded s hs) := keeps_freeBufs

theorem keeps_removeSample {h : Nat} : Keeps s (removeSample s h) := by
  unfold removeSample
  split
  · exact .refl _
  · extract_lets t u
    have ht : Keeps s t := keeps_stopThreads.trans keeps_dropFetchRecs
    have hu : Keeps s u := Keeps.trans ht.same keeps_freeLanded
    exact keeps_ite (fun _ => hu.trans keeps_freeAfter) fun _ => hu.trans keeps_freeBufs

theorem keeps_restartSample {h : Nat} : Keeps s (restartSample s h) := by
  unfold restartSample
  split
  · exact .refl _
  · extract_lets t u _ v
    have ht : Keeps s t := keeps_stopThreads.trans keeps_dropFetchRecs
    have hu : Keeps s u := ht.trans keeps_unplace
    have hv : Keeps s v := hu.same
    exact (hv.trans (keeps_setSample _ _)).trans keeps_freeLanded

theorem keeps_regain {h : Nat} {l : List (Nat × Nat)} : Keeps s (regain s h l) :=
  (keeps_foldl fun _ _ => keeps_setBuf _ _).trans (keeps_setSample _ _)

theorem keeps_regainRefs {h g n : Nat} : Keeps s (regainRefs s h g n) := by
  unfold regainRefs
  split
  · exact .refl _
  · exact keeps_regain.trans (keeps_setSample _ _)

theorem keeps_rerunStage {h g : Nat} : Keeps s (rerunStage s h g) := by
  unfold rerunStage
  split
  · exact .refl _
  · exact keeps_unless <| keeps_ite (fun _ => keeps_restartSample) fun _ => keeps_regainRefs.trans
        (keeps_stopThreads.trans (keeps_dropRefs.trans (keeps_setSample _ _)))

theorem keeps_markFrame {th : ThreadRef} : Keeps s (markFrame s th) := by
  unfold markFrame
  split
  · exact .refl _
  · exact keeps_setSample _ _

theorem keeps_goBack {h : Nat} {m : FrameMark} : Keeps s (goBack s h m) := by
  unfold goBack
  split
  · exact .refl _
  · exact (keeps_regainRefs.trans keeps_regain).trans ((keeps_setSample _ _).trans keeps_dropRefs)

theorem keeps_setFetch {id : Nat} {f : Fetch → Fetch} : Keeps s (setFetch s id f) := keeps_rfl

theorem keeps_closeFetch {f : Fetch} : Keeps s (closeFetch s f) :=
  (keeps_ite (fun _ => keeps_rfl) fun _ => keeps_setFetch).trans keeps_freeLanded

theorem keeps_freeHeld {hs : List Nat} : Keeps s (freeHeld s hs) := keeps_freeLanded

theorem keeps_endRec {h recno status cause src off : Nat} : Keeps s (endRec s h recno status cause src off) := by
  unfold endRec
  split
  · exact .refl _
  · split
    · exact .refl _
    · split
      · exact .refl _
      · extract_lets t
        have ht : Keeps s t := keeps_rfl
        split
        · exact (ht.trans (keeps_setBuf _ _)).trans (keeps_setSample _ _)
        · exact (ht.trans (keeps_setSample _ _)).trans keeps_freeLanded
        · exact ht.trans (keeps_setSample _ _)

theorem keeps_endFetch {f : Fetch} {status cause : Nat} : Keeps s (endFetch s f status cause) :=
  keeps_closeFetch.trans (keeps_foldl fun _ _ => keeps_endRec)

theorem keeps_goneFetch {f : Fetch} : Keeps s (goneFetch s f) := keeps_setFetch.trans (keeps_endFetch.trans keeps_freeHeld)

theorem keeps_containLink {sp link : Nat} : Keeps s (containLink s sp link) :=
  keeps_when ((keeps_rfl).trans ((keeps_foldl fun _ _ => keeps_goneFetch).trans (keeps_foldl fun _ _ => keeps_postEvent _ _ _)))

theorem keeps_endEpoch {q : Nat} : Keeps s (endEpoch s q) := by
  unfold endEpoch
  split
  · exact .refl _
  · exact (keeps_foldl fun _ _ => keeps_removeSample).trans
        ((keeps_rfl).trans (keeps_foldl fun _ _ => keeps_batchReady _ _ _ _ _))

theorem keeps_finishClose {q r0 r1 : Nat} : Keeps s (finishClose s q r0 r1) := keeps_foldl fun _ _ => keeps_complete _ _

theorem keeps_closeOpening {q : Nat} : Keeps s (closeOpening s q) := by
  unfold closeOpening
  split
  · exact .refl _
  · split
    · exact keeps_complete _ _
    · exact .refl _

theorem keeps_cutEpoch {q : Nat} : Keeps s (cutEpoch s q) := by
  unfold cutEpoch
  split
  · exact .refl _
  · exact (keeps_closeOpening.trans keeps_endEpoch).trans keeps_finishClose

/-! ### Machine/Noise.lean -/

theorem keeps_withNoise {l : List NoiseSrc} : Keeps s (withNoise s l) := by
  unfold withNoise
  exact keeps_of_eq rfl rfl rfl rfl rfl (by simp) rfl

theorem keeps_drawKeys {slot : Nat} : Keeps s (drawKeys s slot) := keeps_withNoise.trans keeps_rfl

/-! ### Machine/Faults.lean -/

theorem keeps_discardObjects {p : Nat} : Keeps s (discardObjects s p) := by
  unfold discardObjects
  extract_lets _ _ t u
  have ht : Keeps s t := keeps_rfl
  have hu : Keeps s u := ht.trans keeps_freeBufs
  exact hu.same

theorem keeps_partReset {p : Nat} : Keeps s (partReset s p) := by
  unfold partReset
  split
  · exact .refl _
  · extract_lets t u v w t1 u1 v1 w1 t2
    have ht : Keeps s t := keeps_setPart _ _
    have hu : Keeps s u := ht.trans (keeps_foldl fun _ _ => keeps_endEpoch)
    have hv : Keeps s v := hu.trans (keeps_foldl fun _ _ => keeps_removeSample)
    have hw : Keeps s w := hv.trans keeps_stopThreads
    have ht1 : Keeps s t1 := hw.same
    have hu1 : Keeps s u1 := ht1.trans (keeps_foldl fun _ _ => keeps_completeReset _)
    have hv1 : Keeps s v1 := hu1.trans keeps_discardObjects
    have hw1 : Keeps s w1 := hv1.trans (keeps_setPart _ _)
    have ht2 : Keeps s t2 := hw1.same
    exact ht2.trans keeps_drawKeys

theorem keeps_placeCopy {p n : Nat} {avoid : List Nat} : KeepsSome s Prod.fst (placeCopy s p n avoid) :=
  keepsSome_findSome fun _ => keepsSome_map keeps_allocObject (fun _ => .refl _)

theorem keeps_loseSpillCopy {x : Spill} {d : Nat} : Keeps s (loseSpillCopy s x d) := by
  unfold loseSpillCopy
  extract_lets _ t
  have ht : Keeps s t := keeps_freeBufs
  split
  · exact (ht.trans keeps_freeBufs).same
  · split
    · rename_i u _ _ e
      have hu : Keeps s u := (keepsSome_ite (keeps_placeCopy.after ht) keepsSome_none) _ e
      exact hu.same
    · exact ht.same

theorem keeps_moveSpillCopy {t : Transfer} {d : Nat} : Keeps s (moveSpillCopy s t d) := by
  unfold moveSpillCopy
  extract_lets _ _ _ _ u v
  have hu : Keeps s u := keeps_freeBufs
  have hv : Keeps s v := hu.same.trans keeps_freeBufs
  split
  · rename_i w _ _ e
    have hw : Keeps s w := (keeps_placeCopy.after hu) _ e
    exact hw.same
  · split
    · exact hv.trans (keeps_complete _ _)
    · exact hv

theorem keeps_stripBufs {hs : List Nat} : Keeps s (stripBufs s hs) := (keeps_rfl).trans keeps_freeBufs

theorem keeps_loseBufs {d : Nat} {gone : Buf → Bool} {supers : Superblock → Bool} {again : Sample → Bool} :
    Keeps s (loseBufs s d gone supers again) := by
  unfold loseBufs
  extract_lets _ _ _ _ _ t u v w
  have ht : Keeps s t := keeps_foldl fun _ _ => keeps_restartSample
  have hu : Keeps s u := (ht.trans keeps_stripBufs).trans keeps_forgetFrees
  have hv : Keeps s v := hu.same.trans keeps_sweep
  have hw : Keeps s w := by
    unfold w
    refine hv.trans (keeps_foldl fun t1 k => ?_)
    split
    · exact keeps_loseSpillCopy
    · exact .refl _
  refine hw.trans (keeps_foldl fun t1 i => ?_)
  split
  · exact keeps_moveSpillCopy
  · exact .refl _

theorem keeps_loseDieMemory {d : Nat} : Keeps s (loseDieMemory s d) := keeps_loseBufs

theorem keeps_losePortMemory {m : Nat} : Keeps s (losePortMemory s m) := keeps_loseBufs

/-- Partition 0's port stays one of the eight. -/
theorem keeps_port0 {n : Nat} (h : canonical s = true → n < 8) : Keeps s { s with port0 := n } :=
  ⟨rfl, fun hs => by
    have hn := h hs
    rw [canonical_iff] at hs ⊢
    obtain ⟨hm, hr, hq, hp, hd, -⟩ := hs
    exact ⟨hm, hr, hq, hp, hd, hn⟩⟩

theorem keeps_moveTo {p new : Nat} {toSec : Bool} (h : p = 0 → canonical s = true → new < 8) :
    Keeps s (moveTo s p new toSec) := by
  unfold moveTo
  extract_lets _ t u v
  have ht : Keeps s t := keeps_ite (fun hp => keeps_port0 (h hp)) fun _ => keeps_setPart _ _
  have hu : Keeps s u := ht.trans (keeps_resend _ _ _)
  exact Keeps.trans hu.same (keeps_postEvent _ _ _)

theorem keeps_partLinkDown {p h : Nat} : Keeps s (partLinkDown s p h).1 := by
  unfold partLinkDown
  split
  · exact .refl _
  · split
    · split
      · rename_i i e
        exact keeps_moveTo fun _ _ => List.mem_range.mp (List.mem_of_find?_eq_some e)
      · exact keeps_setPart _ _
    · rename_i hp
      exact keeps_ite_fst (keeps_moveTo fun e => absurd e hp) (keeps_setPart _ _)

theorem keeps_linkDown {h : Nat} : Keeps s (linkDown s h).1 :=
  keeps_ite_fst ((keeps_rfl).trans (keeps_foldl_fst fun _ _ => keeps_partLinkDown)) (.refl _)

theorem keeps_setAside {h : Nat} {m : FrameMark} : Keeps s (setAside s h m) := keeps_goBack.trans (keeps_setSample _ _)

theorem keeps_rerunLost {h g : Nat} : Keeps s (rerunLost s h g) :=
  keeps_ite (fun _ => keeps_restartSample) fun _ => keeps_rerunStage

theorem keeps_stopTile {t : Nat} : Keeps s (stopTile s t) :=
  (keeps_setFld _ _ _ _).trans (keeps_stopThreads.trans ((keeps_foldl fun _ _ => keeps_rerunLost).trans
      (keeps_stopThreads.trans (keeps_foldl fun _ _ => keeps_when keeps_setAside))))

theorem keeps_stopCluster {c : Nat} : Keeps s (stopCluster s c) := by
  unfold stopCluster
  extract_lets t
  have ht : Keeps s t := keeps_foldl fun _ _ => keeps_stopTile
  exact ht.same

theorem keeps_stopDie {d : Nat} : Keeps s (stopDie s d).1 := by
  unfold stopDie
  extract_lets t u v w t1 u1
  have ht : Keeps s t := keeps_foldl fun _ _ => keeps_stopCluster
  have hu : Keeps s u := ht.trans keeps_stopThreads
  have hv : Keeps s v := hu.trans (keeps_setDie d _)
  have hw : Keeps s w := hv.trans (keeps_foldl fun _ _ => keeps_containLink)
  have ht1 : Keeps s t1 := hw.trans (keeps_foldl fun _ _ => (keeps_setFetch.trans keeps_closeFetch).trans
      keeps_freeHeld)
  have hu1 : Keeps s u1 := ht1.trans keeps_loseDieMemory
  clear_value u1
  exact (hu1.trans keeps_linkDown).trans keeps_linkDown

theorem keeps_markUnreachable : Keeps s (markUnreachable s) := keeps_rfl

theorem keeps_holdRoutes {was : State} : Keeps s (holdRoutes was s) := keeps_rfl

theorem keeps_disarmLost : Keeps s (disarmLost s) :=
  keeps_foldl fun _ _ => keeps_when (keeps_setFld _ _ _ _)

theorem keeps_thermN : Keeps s (thermN s) := keeps_rfl

theorem keeps_loseUnit {k i : Nat} : Keeps s (loseUnit s k i).1 := by
  unfold loseUnit
  split
  · exact .refl _
  · extract_lets _ _ _ u v w
    have hu : Keeps s u := keeps_rfl
    have hv : Keeps s v := ((((hu.trans keeps_markUnreachable).trans keeps_markUnreachable).trans
        keeps_markUnreachable).trans keeps_holdRoutes).trans keeps_disarmLost
    have hw : Keeps s w := keeps_ite (fun _ => hv.trans keeps_stopTile) fun _ => keeps_ite (fun _ => hv.trans
        keeps_stopCluster) fun _ => keeps_ite (fun _ => hv.trans keeps_losePortMemory) fun _ => hv
    clear_value w
    have hp : Keeps s (if k = 5 then linkDown w i else (w, [])).1 := keeps_ite_fst (hw.trans keeps_linkDown) hw
    split
    rename_i a o ea
    have ha : Keeps s a := hp.fst_eq ea
    split
    rename_i b _ eb
    have hb : Keeps s b := by
      refine Keeps.fst_eq (ha.trans (keeps_foldl_fst ?_)) eb
      exact fun _ _ => keeps_stopDie
    refine Keeps.trans (Keeps.trans ?_ keeps_thermN) (keeps_when (keeps_postAll _ _))
    exact keeps_ite (fun _ => hb.same) fun _ => hb

theorem keeps_recordOcc {o : Occ} : Keeps s (recordOcc s o) := by
  unfold recordOcc
  extract_lets t u v w t1
  have ht : Keeps s t := keeps_setW1c _ _ _
  have hu : Keeps s u := ht.trans (keeps_setW1c _ _ _)
  have hv : Keeps s v := (hu.trans (keeps_setReg _ _)).trans (keeps_setReg _ _)
  clear_value v
  have hw : Keeps s w := hv.same
  have ht1 : Keeps s t1 := keeps_ite (fun _ => hw.trans (keeps_setReg _ _)) fun _ => hw
  exact keeps_ite (fun _ => ht1.trans (keeps_hostReq _ _)) fun _ => ht1

theorem keeps_occur {o : Occ} : Keeps s (occur s o).1 := by
  unfold occur
  extract_lets t
  have ht : Keeps s t := keeps_recordOcc
  split
  · exact ht.same
  · split
    · exact (ht.trans keeps_loseUnit).trans (keeps_when (keeps_setReg _ _))
    · split
      · split
        · exact (ht.trans (keeps_setW1c _ _ _)).trans (keeps_when keeps_partReset)
        · exact ht
      · exact ht

theorem keeps_occurAll {n : Nat} {os : List Occ} : Keeps s (occurAll n os s) := by
  induction n generalizing os s with
  | zero => exact .refl _
  | succ n ih =>
    cases os with
    | nil => exact .refl _
    | cons o os => exact keeps_occur.trans ih

theorem keeps_raise {o : Occ} : Keeps s (raise s o) := keeps_occurAll

theorem keeps_reportOwed : Keeps s (reportOwed s) := (keeps_rfl).trans (keeps_foldl fun _ _ => keeps_raise)

theorem keeps_takeOut {k i : Nat} : Keeps s (takeOut s k i) := keeps_loseUnit.trans keeps_occurAll

theorem keeps_hostDown {h : Nat} : Keeps s (hostDown s h) := keeps_linkDown.trans keeps_occurAll

/-! ### Machine/Epochs.lean -/

theorem keeps_putLog {q : Nat} {r : LogRec} : Keeps s (putLog s q r) := by
  unfold putLog
  split
  · exact .refl _
  · exact (keeps_ite (fun _ => keeps_setEpoch _ _) fun _ => keeps_hostWrite _ _ _).trans (keeps_setEpoch _ _)

theorem keeps_copyForward {q : Nat} : Keeps s (copyForward s q) := by
  unfold copyForward
  split
  · exact .refl _
  · exact keeps_when ((keeps_setEpoch _ _).trans (keeps_foldl fun _ _ => keeps_putLog))

theorem keeps_addLog {q kind reason cause slot p orig : Nat} : Keeps s (addLog s q kind reason cause slot p orig) := by
  unfold addLog
  extract_lets t
  have ht : Keeps s t := keeps_copyForward
  split
  · exact ht
  · exact ht.trans keeps_putLog

theorem keeps_setSlot {q i : Nat} {x : Slot} : Keeps s (setSlot s q i x) := keeps_setEpoch _ _

theorem keeps_placeAt {q i : Nat} {x : Sample} : Keeps s (placeAt s q i x) := by
  unfold placeAt
  split
  · exact .refl _
  · exact (keeps_setEpoch _ _).trans
        ((keeps_setSample _ _).trans ((keeps_when (keeps_bump _)).trans (keeps_ite (fun _ => keeps_addLog) fun _ =>
        keeps_ite (fun _ => keeps_addLog) fun _ => keeps_when keeps_addLog)))

theorem keeps_loseSlot {q p reason cause dsidx : Nat} : Keeps s (loseSlot s q p reason cause dsidx) := by
  unfold loseSlot
  split
  · exact .refl _
  · exact keeps_ite (fun _ => keeps_ite (fun _ => keeps_setSlot) fun _ => keeps_ite (fun _ => keeps_setSlot) fun _ =>
        keeps_setSlot) fun _ => keeps_ite (fun _ => keeps_setEpoch _ _) fun _ => keeps_ite (fun _ => keeps_setSlot) fun _ =>
        keeps_setSlot

theorem keeps_fillGap {q : Nat} {g : Slot} : Keeps s (fillGap s q g) := by
  unfold fillGap
  split
  · exact .refl _
  · split
    · split
      · exact (keeps_setEpoch _ _).trans (keeps_setSlot.trans keeps_placeAt)
      · exact .refl _
    · exact .refl _

theorem keeps_settleSlot {q i : Nat} : Keeps s (settleSlot s q i) := by
  unfold settleSlot
  split
  · exact .refl _
  · dsimp only
    split
    · exact .refl _
    · split
      · exact keeps_when keeps_placeAt
      · exact .refl _

theorem keeps_settleGap {q : Nat} : Keeps s (settleGap s q) := by
  unfold settleGap
  extract_lets t
  have ht : Keeps s t := keeps_setEpoch _ _
  split
  · exact ht
  · split
    · exact ht
    · split
      · exact ht
      · split
        · exact ht.trans keeps_setSlot
        · split
          · exact keeps_ite (fun _ => ht.trans keeps_placeAt) fun _ => ht
          · exact ht

theorem keeps_fillTail {q : Nat} : Keeps s (fillTail s q) := by
  unfold fillTail
  split
  · exact .refl _
  · split
    · split
      · exact keeps_placeAt
      · exact .refl _
    · exact .refl _

theorem keeps_startCopies {q : Nat} : Keeps s (startCopies s q) := by
  unfold startCopies
  split
  · exact .refl _
  · exact keeps_when (keeps_foldl fun _ _ => keeps_fresh.trans keeps_rfl)

theorem keeps_flushTail {q : Nat} : Keeps s (flushTail s q) := by
  unfold flushTail
  split
  · exact .refl _
  · exact keeps_when (keeps_setEpoch _ _)

theorem keeps_finishOpen {q : Nat} : Keeps s (finishOpen s q) := by
  unfold finishOpen
  split
  · exact .refl _
  · split
    · exact .refl _
    · extract_lets _ _ t
      have ht : Keeps s t := keeps_setEpoch _ _
      split
      · exact .refl _
      · split
        · exact ht.trans (keeps_complete _ _)
        · exact ht

theorem keeps_place {q : Nat} : Keeps s (place s q) := by
  unfold place
  split
  · exact .refl _
  · extract_lets _ t u v
    have ht : Keeps s t := by
      unfold t
      refine keeps_foldl fun w x => ?_
      split
      · exact keeps_placeAt
      · exact .refl _
    have hu : Keeps s u := ht.trans (keeps_foldl fun _ _ => keeps_fillGap)
    have hv : Keeps s v := keeps_ite (fun _ => (keeps_foldl fun _ _ => keeps_settleSlot).trans (keeps_foldl fun _ _ =>
        keeps_settleGap)) fun _ => keeps_ite (fun _ => hu.trans (keeps_foldl fun _ _ => keeps_fillTail)) fun _ => hu
    exact ((hv.trans keeps_flushTail).trans keeps_startCopies).trans keeps_finishOpen

theorem keeps_recordPfault {tile : Nat} {t : Thread} : Keeps s (recordPfault s tile t) :=
  (keeps_setW1c _ _ _).trans ((keeps_setReg _ _).trans ((keeps_setReg _ _).trans ((keeps_setReg _ _).trans keeps_raise)))

theorem keeps_recordFaults {h : Nat} : Keeps s (recordFaults s h) := by
  unfold recordFaults
  refine keeps_foldl fun t t1 => ?_
  split
  · exact keeps_recordPfault
  · exact .refl _

theorem keeps_dropMember {q : Nat} {x : Sample} {reason cause : Nat} : Keeps s (dropMember s q x reason cause) := by
  unfold dropMember
  extract_lets t
  have ht : Keeps s t := keeps_recordFaults
  split
  · exact ht.trans keeps_removeSample
  · extract_lets u v w t1 u1
    have hu : Keeps s u := (ht.trans keeps_addLog).trans (keeps_bump _)
    have hv : Keeps s v := hu.same
    have hw : Keeps s w := hv.trans keeps_removeSample
    have ht1 : Keeps s t1 := hw.trans (keeps_setEpoch _ _)
    have hu1 : Keeps s u1 := by
      unfold u1
      split
      · exact keeps_ite (fun _ => keeps_ite (fun _ => ht1.trans keeps_setSlot) fun _ => (ht1.trans keeps_setSlot).trans
            (keeps_setEpoch _ _)) fun _ => ht1.trans keeps_setSlot
      · exact ht1
    exact keeps_ite (fun _ => hu1.trans keeps_loseSlot) fun _ => hu1

theorem keeps_deferPosition {q p : Nat} {forceDeferred : Bool} : Keeps s (deferPosition s q p forceDeferred) := by
  unfold deferPosition
  split
  · exact .refl _
  · dsimp only
    split
    · exact keeps_dropMember
    · refine Keeps.trans ?_ (keeps_setEpoch _ _)
      split
      · exact (keeps_addLog.trans (keeps_bump _)).trans (keeps_setSample _ _)
      · exact keeps_addLog.trans (keeps_bump _)

theorem keeps_closeSlots {q : Nat} : Keeps s (closeSlots s q) := by
  unfold closeSlots
  split
  · exact .refl _
  · extract_lets _ t
    have ht : Keeps s t := by
      unfold t
      refine keeps_foldl fun u g => ?_
      split
      · exact keeps_setSlot
      · exact .refl _
    exact ht.trans (keeps_setEpoch _ _)

theorem keeps_graceEnd {q : Nat} {force : Option Nat} : Keeps s (graceEnd s q force) := by
  unfold graceEnd
  split
  · exact .refl _
  · split
    · exact (keeps_setEpoch _ _).trans keeps_place
    · extract_lets t u
      have ht : Keeps s t := keeps_foldl fun _ _ => keeps_deferPosition
      have hu : Keeps s u := ht.trans keeps_place
      split
      · exact hu
      · exact keeps_ite (fun _ => hu) fun _ => ((hu.trans (keeps_setEpoch _ _)).trans keeps_closeSlots).trans keeps_startCopies

theorem keeps_startGrace {q : Nat} : Keeps s (startGrace s q) := by
  unfold startGrace
  split
  · exact .refl _
  · exact keeps_when ((keeps_setEpoch _ _).trans (keeps_when keeps_graceEnd))

theorem keeps_settle {q : Nat} : Keeps s (settle s q) := keeps_place.trans keeps_startGrace

theorem keeps_dropPosition {q : Nat} {x : Sample} {reason cause : Nat} : Keeps s (dropPosition s q x reason cause) :=
  keeps_dropMember.trans keeps_settle

theorem keeps_openBatch {q k : Nat} : Keeps s (openBatch s q k) := by
  unfold openBatch
  split
  · exact .refl _
  · exact (keeps_setEpoch _ _).trans (keeps_foldl fun _ _ => keeps_loseSlot)

theorem keeps_failCalibration {c : Nat} {x : Sample} {reason cause src off : Nat} :
    Keeps s (failCalibration s c x reason cause src off) :=
  (keeps_rfl).trans (keeps_recordFaults.trans keeps_removeSample)

theorem keeps_dropSample {h reason cause src off : Nat} : Keeps s (dropSample s h reason cause src off) := by
  unfold dropSample
  split
  · exact .refl _
  · split
    · exact .refl _
    · split
      · exact keeps_dropPosition
      · exact keeps_failCalibration

theorem keeps_overBudget {h : Nat} : Keeps s (overBudget s h) := by
  unfold overBudget
  split
  · exact .refl _
  · exact keeps_unless <| keeps_ite (fun _ => keeps_dropSample) fun _ => keeps_setSample _ _

theorem keeps_dropFinished {h reason cause src off : Nat} : Keeps s (dropFinished s h reason cause src off) :=
  (keeps_when (keeps_bump64 _ _)).trans keeps_dropSample

theorem keeps_carryStep : Keeps s (carryStep s) := keeps_rfl

theorem keeps_stepEvent {p : Nat} : Keeps s (stepEvent s p) :=
  keeps_unless <| keeps_ite (fun _ => keeps_setW1c _ _ _) fun _ => ((keeps_bump64 _ _).trans keeps_carryStep).trans
      (keeps_foldl fun _ _ => (keeps_setEpoch _ _).trans keeps_startGrace)

theorem keeps_edgeTaken {pin : Nat} : Keeps s (edgeTaken pin s) :=
  keeps_ite (fun _ => keeps_rfl) fun _ => (keeps_rfl).trans (keeps_foldl fun _ _ => keeps_stepEvent)

theorem keeps_edgeAt {pin : Nat} : Keeps s (edgeAt pin s) := keeps_unless <| keeps_edgeTaken

/-! ### Machine/Regs.lean -/

theorem keeps_dropEntry {c : CacheEntry} : Keeps s (dropEntry s c) := (keeps_rfl).trans keeps_freeBufs

theorem keeps_evictTo {k p n : Nat} : Keeps s (evictTo k s p n) := by
  induction k generalizing s with
  | zero => exact .refl _
  | succ k ih =>
    unfold evictTo
    split
    · exact .refl _
    · split
      · exact keeps_dropEntry.trans ih
      · exact .refl _

theorem keeps_lowerCache {p mib : Nat} : Keeps s (lowerCache s p mib) :=
  keeps_unless <| keeps_evictTo.trans (keeps_setPart _ _)

theorem keeps_armForce {old new : Nat} : Keeps s (armForce s old new) :=
  (keeps_when (keeps_containLink.trans keeps_raise)).trans ((keeps_when (keeps_raise.trans (keeps_postAll _ _))).trans
      keeps_thermN)

theorem keeps_startRevival {k i : Nat} : Keeps s (startRevival s k i) := (keeps_rfl).trans (keeps_setReg _ _)

theorem keeps_noteChange {o : Nat} {changed : Bool} : Keeps s (noteChange s o changed) :=
  keeps_when keeps_rfl

theorem keeps_afterReset {p : Nat} : Keeps s (afterReset s p) := by
  unfold afterReset
  extract_lets t
  have ht : Keeps s t := keeps_when ((keeps_setFld _ _ _ _).trans keeps_noteChange)
  split
  · exact ht
  · exact ((ht.trans (keeps_setFld _ _ _ _)).trans keeps_drawKeys).trans keeps_noteChange

theorem keeps_endReset {p : Nat} : Keeps s (endReset s p) :=
  keeps_unless <| (keeps_foldl fun _ _ => keeps_setReg _ _).trans
      (((keeps_foldl fun _ _ => keeps_setReg _ _).trans keeps_afterReset).trans (keeps_setPart _ _))

theorem keeps_saveRecord : Keeps s (saveRecord s) := by
  unfold saveRecord
  extract_lets _ _ t _ _ _ u
  have ht : Keeps s t := keeps_rfl
  have hu : Keeps s u := ht.trans (keeps_hostWrite _ _ _)
  exact keeps_ite (fun _ => ht.trans (keeps_setW1c _ _ _)) fun _ => hu.same

theorem keeps_doQuiesce : Keeps s (doQuiesce s) := by
  unfold doQuiesce
  extract_lets t u
  have ht : Keeps s t := (keeps_foldl fun _ _ => keeps_partReset).trans (keeps_foldl fun _ _ => keeps_endReset)
  have hu : Keeps s u := keeps_ite (fun _ => ht.trans keeps_saveRecord) fun _ => ht
  clear_value u
  exact hu.same

theorem keeps_bootCtrl {v : Nat} : Keeps s (bootCtrl s v) :=
  (keeps_when keeps_rfl).trans ((keeps_when keeps_rfl).trans ((keeps_when keeps_rfl).trans (keeps_when keeps_doQuiesce)))

theorem keeps_queueStart {q old new : Nat} : Keeps s (queueStart s q old new) :=
  (keeps_when (keeps_setQueue _ _)).trans (keeps_when (keeps_setQueue _ _))

theorem keeps_effects {o old new wo : Nat} : Keeps s (effects s o old new wo) :=
  keeps_ite (fun _ => keeps_unless <| keeps_ite (fun _ => keeps_rfl) fun _ => keeps_rfl) fun _ =>
      keeps_ite (fun _ => keeps_bootCtrl) fun _ => keeps_ite (fun _ => keeps_unless <| (keeps_setReg _ _).trans keeps_thermN)
      fun _ => keeps_ite (fun _ => keeps_armForce) fun _ => keeps_ite (fun _ => keeps_startRevival) fun _ =>
      keeps_ite (fun _ => keeps_when (keeps_setFld _ _ _ _)) fun _ =>
      keeps_ite (fun _ => keeps_ite (fun _ => keeps_ite (fun _ => ((keeps_setFld _ _ _ _).trans keeps_partReset).trans
      (keeps_setPart _ _)) fun _ => (keeps_when (keeps_setPart _ _)).trans (keeps_when keeps_partReset)) fun _ =>
      keeps_ite (fun _ => keeps_lowerCache) fun _ =>
      keeps_when (keeps_unless <| ((keeps_setReg _ _).trans keeps_partReset).trans (keeps_setPart _ _))) fun _ =>
      keeps_ite (fun _ => keeps_when keeps_queueStart) fun _ =>
      keeps_when (keeps_ite (fun _ => keeps_when ((keeps_rfl).trans (keeps_foldl fun _ _ => keeps_containLink))) fun _ =>
      keeps_when (keeps_ite (fun _ => keeps_when ((keeps_setFld _ _ _ _).trans keeps_startRevival)) fun _ => keeps_takeOut))

theorem keeps_clearBits {o : Nat} {m : Word} : Keeps s (clearBits s o m) :=
  keeps_foldl fun _ _ => (keeps_setFld _ _ _ _).trans ((keeps_when keeps_rfl).trans (keeps_when (keeps_setW1c _ _ _)))

theorem keeps_configRej {o : Nat} : Keeps s (configRej s o) := (keeps_setW1c _ _ _).trans (keeps_setReg _ _)

theorem keeps_writeLow {port o : Nat} {b : Option Nat} {v : Word} : Keeps s (writeLow s port o b v) :=
  keeps_unless <| keeps_rfl

theorem keeps_useLow {port o : Nat} : Keeps s (useLow s port o) := keeps_when keeps_rfl

theorem keeps_putHalves {o : Nat} {new newLo : Word} : Keeps s (putHalves s o new newLo) :=
  keeps_ite (fun _ => (keeps_setReg _ _).trans (keeps_setReg _ _)) fun _ => keeps_setReg _ _

theorem keeps_applyWrite {a o : Nat} {new newLo w1 wo : Word} : Keeps s (applyWrite s a o new newLo w1 wo) :=
  keeps_ite (fun _ => keeps_configRej) fun _ => ((keeps_putHalves.trans keeps_clearBits).trans keeps_noteChange).trans
      keeps_effects

theorem keeps_writeLocked {a o : Nat} {want wantLo w1 wo : Word} : Keeps s (writeLocked s a o want wantLo w1 wo) :=
  keeps_ite (fun _ => (keeps_setW1c _ _ _).trans (keeps_ite (fun _ => keeps_when keeps_configRej) fun _ => keeps_applyWrite))
      fun _ => keeps_applyWrite

theorem keeps_writeReg {port o : Nat} {b : Option Nat} {v : Word} : Keeps s (writeReg s port o b v) :=
  keeps_ite (fun _ => keeps_clearBits) fun _ => keeps_unless <| keeps_ite (fun _ => keeps_writeLow) fun _ =>
      keeps_ite (fun _ => keeps_useLow.trans keeps_writeLocked) fun _ => keeps_useLow.trans keeps_applyWrite

theorem keeps_busWrite {fn port off : Nat} {v : Word} : Keeps s (busWrite s fn port off v) := by
  unfold busWrite
  split
  · exact .refl _
  · split
    · exact keeps_writeReg
    · exact keeps_writeReg
    · exact .refl _
    · exact keeps_unsupported

/-! ### Machine/Recipes.lean -/

theorem keeps_putRecipe {r : Recipe} : Keeps s (putRecipe s r) := keeps_rfl

theorem keeps_loadChecked {x : Cmd} {r : Recipe} : Keeps s (loadChecked s x r) := by
  unfold loadChecked
  split
  · exact keeps_complete _ _
  · dsimp only
    split
    · exact keeps_complete _ _
    · exact keeps_putRecipe.trans (keeps_complete _ _)

theorem keeps_withImage {x : Cmd} {n : Nat} {go : State → List Byte → State} (hgo : ∀ s x, Keeps s (go s x)) :
    Keeps s (withImage s x n go) :=
  keeps_ite (fun _ => keeps_complete _ _) fun _ => keeps_readReturned.trans (hgo _ _)

theorem keeps_checkNames {x : Cmd} {l : List Byte} {r : Recipe} : Keeps s (checkNames s x l r) := by
  unfold checkNames
  split
  · exact keeps_complete _ _
  · split
    · exact keeps_complete _ _
    · split
      · exact keeps_complete _ _
      · exact keeps_loadChecked

theorem keeps_checkRecipe {x : Cmd} {l : List Byte} {id : Nat} : Keeps s (checkRecipe s x l id) := by
  unfold checkRecipe
  split
  · exact keeps_complete _ _
  · split
    · exact keeps_complete _ _
    · split
      · exact keeps_complete _ _
      · exact keeps_checkNames

theorem runs_execRecipeLoad {c : Nat} : Runs s (execRecipeLoad c s) :=
  runs_next (keeps_withHost (fun _ _ => keeps_withImage (fun _ _ => keeps_checkRecipe)))

theorem runs_execRecipeUnload {c : Nat} : Runs s (execRecipeUnload c s) := by
  unfold execRecipeUnload
  refine runs_next (keeps_withCmd (fun t x => ?_))
  dsimp only
  split
  · exact keeps_complete _ _
  · exact keeps_ite (fun _ => keeps_complete _ _) fun _ => (keeps_rfl).trans (keeps_complete _ _)

theorem keeps_checkChain {x : Cmd} {l : List Byte} {id : Nat} : Keeps s (checkChain s x l id) := by
  unfold checkChain
  split
  · exact keeps_complete _ _
  · split
    · exact keeps_complete _ _
    · split
      · exact keeps_complete _ _
      · split
        · exact keeps_complete _ _
        · exact keeps_loadChecked

theorem runs_execFusedChain {c : Nat} : Runs s (execFusedChain c s) :=
  runs_next (keeps_withHost (fun _ _ => keeps_withImage (fun _ _ => keeps_checkChain)))

theorem runs_execCalibrate {c : Nat} : Runs s (execCalibrate c s) := by
  unfold execCalibrate
  refine runs_next (keeps_withHost (fun t x => ?_))
  split
  · exact keeps_complete _ _
  · exact keeps_ite (fun _ => keeps_complete _ _) fun _ => keeps_ite (fun _ => keeps_complete _ _) fun _ =>
        (keeps_readReturned.trans keeps_rfl).trans (keeps_startCmd _)

theorem keeps_endCal {c : Nat} : Keeps s (endCal s c) := (keeps_foldl fun _ _ => keeps_removeSample).trans keeps_rfl

theorem runs_execCalibrateDone {c : Nat} {m : LoadContext} : Runs s (execCalibrateDone c m s) := by
  unfold execCalibrateDone
  refine runs_next (keeps_withStarted (fun t x => ?_))
  split
  · exact .refl _
  · extract_lets _ _ _ u
    have hu : Keeps t u := keeps_endCal
    split
    · exact keeps_endCal.trans (keeps_complete _ _)
    · split
      · exact keeps_endCal.trans (keeps_complete _ _)
      · split
        · split
          · exact .refl _
          · exact keeps_ite (fun _ => (hu.trans (keeps_hostWrite _ _ _)).trans (keeps_complete _ _)) fun _ =>
                (hu.trans (keeps_hostWrite _ _ _)).trans ((keeps_rfl).trans (keeps_complete _ _))
        · exact .refl _

theorem runs_execFLiveRecompute {u a : Nat} : Runs s (execFLiveRecompute u a s) :=
  runs_next (keeps_unless <| (keeps_rfl).trans ((keeps_rfl).trans keeps_rfl))

/-! ### Machine/Memory.lean -/

theorem keeps_setSuper {d sb : Nat} {f : Superblock → Superblock} : Keeps s (setSuper s d sb f) := keeps_rfl

theorem keeps_ceLine {a : LineAt} {forced : Bool} : Keeps s (ceLine s a forced) := by
  unfold ceLine
  extract_lets t _ _ u v
  have ht : Keeps s t := (keeps_setW1c _ _ _).trans (keeps_bump _)
  clear_value t
  have hu : Keeps s u := ht.same
  have hv : Keeps s v := hu.trans keeps_setSuper
  exact hv.trans keeps_raise

theorem keeps_ueLine {a : LineAt} {p : Nat} {forced : Bool} : Keeps s (ueLine s a p forced) :=
  ((keeps_setW1c _ _ _).trans (keeps_bump _)).trans
      ((keeps_setReg _ _).trans ((keeps_setReg _ _).trans ((keeps_unless <| keeps_setSuper).trans keeps_raise)))

theorem keeps_garbleObjects {h o : Nat} : Keeps s (garbleObjects s h o) := keeps_rfl

theorem keeps_garbleLine {d sb line : Nat} : Keeps s (garbleLine s d sb line) := by
  unfold garbleLine
  extract_lets t
  have ht : Keeps s t := by
    unfold t
    refine keeps_foldl fun u x => ?_
    split
    exact (keeps_setBuf _ _).trans keeps_garbleObjects
  exact ht.same

theorem keeps_disarm {i : Nat} : Keeps s (disarm s i) := keeps_setFld _ _ _ _

theorem keeps_unmarkLine {a : LineAt} : Keeps s (unmarkLine s a) := keeps_setSuper

theorem keeps_readLine {a : LineAt} {p : Nat} : Keeps s (readLine s a p).1 := by
  unfold readLine
  extract_lets t
  have ht : Keeps s t := keeps_when (keeps_disarm.trans keeps_ceLine)
  split
  · exact (ht.trans keeps_disarm).trans keeps_ueLine
  · split
    · exact ht.trans keeps_ueLine
    · exact (ht.trans keeps_unmarkLine).trans keeps_ceLine
    · exact ((ht.trans keeps_unmarkLine).trans keeps_garbleLine).trans keeps_ceLine
    · exact ht

theorem keeps_readLines {h off n : Nat} : Keeps s (readLines s h off n).1 := by
  unfold readLines
  split
  · exact .refl _
  · exact keeps_countLines.trans (keeps_ite_fst (.refl _) (keeps_foldl_fst fun _ _ => keeps_ite_fst (.refl _) keeps_readLine))

theorem keeps_mergeLine {h off n : Nat} : Keeps s (mergeLine s h off n).1 :=
  keeps_ite_fst (.refl _) (keeps_ite_fst (keeps_ite_fst (keeps_ite_fst (keeps_ite_fst (.refl _) keeps_readLines) (.refl _))
      ((keeps_ite_fst (keeps_ite_fst (.refl _) keeps_readLines) (.refl _)).trans keeps_readLines))
      (keeps_ite_fst (keeps_ite_fst (.refl _) keeps_readLines) (.refl _)))

theorem keeps_readObject {off n : Nat} {hs : List Nat} : Keeps s (readObject s off n hs).1 := by
  induction hs generalizing s off n with
  | nil => exact .refl _
  | cons h hs ih =>
    unfold readObject
    dsimp only
    split
    · exact .refl _
    · split
      · split
        · rename_i t e
          exact keeps_readLines.fst_eq e
        · rename_i t e
          have ht : Keeps s t := keeps_readLines.fst_eq e
          exact ht.trans ih
      · exact ih

theorem keeps_repairLines {off n : Nat} {hs : List Nat} : Keeps s (repairLines s off n hs) := by
  induction hs generalizing s off n with
  | nil => exact .refl _
  | cons h hs ih =>
    unfold repairLines
    split
    · exact ih
    · exact (keeps_foldl fun _ _ => keeps_unmarkLine).trans (keeps_ite (fun _ => ih) fun _ => ih)

theorem keeps_soundObject {copies : List (Nat × List Nat)} {d off n : Nat} :
    Keeps s (soundObject s copies d off n).1 := by
  unfold soundObject
  split
  · exact .refl _
  · split
    · rename_i t e
      exact keeps_readObject.fst_eq e
    · rename_i t e
      have ht : Keeps s t := keeps_readObject.fst_eq e
      extract_lets _ r
      have hr : Keeps s r.1 := ht.trans (keeps_foldl_fst fun _ _ => keeps_ite_fst (.refl _) keeps_readObject)
      exact keeps_ite (fun _ => hr.trans keeps_repairLines) fun _ => hr

theorem keeps_mergeObject {off n : Nat} {hs : List Nat} : Keeps s (mergeObject s off n hs).1 := by
  induction hs generalizing s off n with
  | nil => exact .refl _
  | cons h hs ih =>
    unfold mergeObject
    dsimp only
    split
    · exact .refl _
    · split
      · split
        · rename_i t e
          exact keeps_mergeLine.fst_eq e
        · rename_i t e
          have ht : Keeps s t := keeps_mergeLine.fst_eq e
          exact ht.trans ih
      · exact ih

theorem keeps_sampleUe {h : Nat} : Keeps s (sampleUe s h) := by
  unfold sampleUe
  split
  · exact .refl _
  · exact (keeps_setSample _ _).trans (keeps_ite (fun _ => keeps_restartSample) fun _ => keeps_dropFinished)

theorem keeps_degradedEvent {was : State} : Keeps s (degradedEvent was s) :=
  keeps_when (keeps_postAll _ _)

theorem runs_execMemoryTraining {trained : BitVec 16} : Runs s (execMemoryTraining trained s) :=
  runs_next (keeps_unless <| (keeps_rfl).trans (keeps_degradedEvent.trans (keeps_foldl fun _ _ => keeps_takeOut)))

theorem runs_execDramTempRead {mp : Fin 16} {inRange : Bool} : Runs s (execDramTempRead mp inRange s) :=
  runs_next (keeps_unless <| keeps_ite (fun _ => keeps_rfl) fun _ => keeps_unless <| (keeps_rfl).trans keeps_raise)

theorem keeps_reissue {r : Reissued} : Keeps s (if s.reissued.contains r
    then ({ s with reissued := s.reissued.filter (· ≠ r) }, true) else ({ s with reissued := s.reissued ++ [r] }, false)).1 :=
  keeps_ite_fst keeps_rfl keeps_rfl

theorem keeps_requestExpiry {kind index die req : Nat} : Keeps s (requestExpiry s kind index die req).1 :=
  keeps_raise.trans keeps_reissue

theorem keeps_afterExpiry {r : State × Bool} {go : State → State} (h : Keeps s r.1) (hgo : ∀ s, Keeps s (go s)) :
    Keeps s (afterExpiry r go) :=
  keeps_ite (fun _ => h.trans (hgo _)) fun _ => h

theorem runs_execMemoryRequestTimeout {mp : Fin 16} {req : Nat} : Runs s (execMemoryRequestTimeout mp req s) :=
  runs_next (keeps_unless <| keeps_afterExpiry keeps_requestExpiry fun _ => keeps_raise)

theorem runs_execSuperblockRetire {d : Fin 4} {sb : Nat} : Runs s (execSuperblockRetire d sb s) := by
  unfold execSuperblockRetire
  refine runs_next ?_
  split
  · exact keeps_when ((keeps_setSuper.trans keeps_sweep).trans (keeps_setW1c _ _ _))
  · exact .refl _

theorem runs_execPatrolScrub {d : Fin 4} {sb line : Nat} {r : LineRead} : Runs s (execPatrolScrub d sb line r s) := by
  unfold execPatrolScrub
  refine runs_next ?_
  split
  · split
    · exact .refl _
    · dsimp only
      split
      · exact .refl _
      · split
        · exact .refl _
        · exact keeps_unmarkLine.trans keeps_ceLine
        · exact (keeps_unmarkLine.trans keeps_garbleLine).trans keeps_ceLine
        · exact keeps_setSuper
  · exact .refl _

theorem keeps_resumable : KeepsSome s (fun r => r.2.1) (resumable s) := by
  unfold resumable
  refine keepsSome_findSome fun _ => ?_
  split
  · exact keepsSome_none
  · split
    · exact keepsSome_none
    · exact keepsSome_map (keepsSome_ite keeps_allocLarge keeps_alloc) (fun _ => .refl _)

theorem keeps_takeBuffer {th : ThreadRef} {dreg h : Nat} : Keeps s (takeBuffer s th dreg h) := by
  unfold takeBuffer
  split
  · exact .refl _
  · exact (keeps_setSample _ _).trans (keeps_setThread _ _)

theorem runs_execAllocationResume : Runs s (execAllocationResume s) := by
  unfold execAllocationResume
  refine runs_next ?_
  split
  · exact .refl _
  · split
    · rename_i t _ e
      have ht : Keeps s t := keeps_resumable _ e
      exact ht.same.trans keeps_takeBuffer
    · exact .refl _

/-! ### Machine/Threads.lean -/

theorem keeps_setThreadsIf {p : Thread → Bool} {f : Thread → Thread} : Keeps s (setThreadsIf s p f) := keeps_rfl

theorem keeps_setCal {c : Nat} {f : CalRun → CalRun} : Keeps s (setCal s c f) := keeps_rfl

theorem keeps_setRecipe {p id : Nat} {f : Recipe → Recipe} : Keeps s (setRecipe s p id f) := keeps_rfl

theorem keeps_handOver {h g : Nat} {kids : List Nat} : Keeps s (handOver s h g kids) := by
  unfold handOver
  split
  · exact .refl _
  · exact (keeps_setSample _ _).trans (keeps_foldl fun _ _ => keeps_setBuf _ _)

theorem keeps_releaseChild {h g : Nat} : Keeps s (releaseChild s h g) := by
  unfold releaseChild
  split
  · exact .refl _
  · exact (keeps_setSample _ _).trans keeps_dropRefs

theorem keeps_wakeToken {h g st : Nat} : Keeps s (wakeToken s h g st) := keeps_setThreadsIf

theorem keeps_calFinished {c : Nat} {x : Sample} : Keeps s (calFinished s c x) :=
  keeps_ite (fun _ => keeps_failCalibration) fun _ => keeps_setCal.trans keeps_removeSample

theorem keeps_sampleReady {h : Nat} : Keeps s (sampleReady s h) := by
  unfold sampleReady
  split
  · exact .refl _
  · extract_lets t
    have ht : Keeps s t := keeps_bump64 _ _
    split
    · exact (ht.trans (keeps_setSample _ _)).trans keeps_settle
    · exact ht.trans keeps_calFinished

theorem keeps_wakeTokens : Keeps s (wakeTokens s) := by
  unfold wakeTokens
  refine keeps_foldl fun t x => keeps_foldl fun u x1 => ?_
  split
  exact keeps_unless <| keeps_wakeToken

theorem keeps_tokenFrom {t : Thread} : Keeps s (tokenFrom s t) := keeps_setSample _ _

theorem keeps_publishToken {h g st : Nat} : Keeps s (publishToken s h g st) := by
  unfold publishToken
  split
  · exact .refl _
  · split
    · exact .refl _
    · split
      · exact keeps_dropFinished
      · split
        · exact .refl _
        · extract_lets t u v w
          have ht : Keeps s t := keeps_setSample _ _
          have hu : Keeps s u := (ht.trans keeps_handOver).trans keeps_releaseChild
          have hv : Keeps s v := hu.trans keeps_wakeToken
          have hw : Keeps s w := hv.trans keeps_setRecipe
          split
          · exact keeps_ite (fun _ => hw.trans keeps_sampleReady) fun _ => hw
          · exact hw

theorem keeps_freeThread {th : ThreadRef} : Keeps s (freeThread s th) := keeps_stopThreads

theorem keeps_endPublish {t : Thread} : Keeps s (endPublish s t) := by
  unfold endPublish
  split
  · extract_lets u
    have hu : Keeps s u := keeps_setSample _ _
    split
    · exact keeps_ite (fun _ => (hu.trans keeps_tokenFrom).trans keeps_publishToken) fun _ => hu
    · exact hu
  · exact keeps_when (keeps_tokenFrom.trans keeps_publishToken)

theorem keeps_finishThread {t : Thread} : Keeps s (finishThread s t) := by
  unfold finishThread
  split
  · exact keeps_freeThread
  · exact keeps_ite (fun _ => keeps_freeThread.trans keeps_endPublish) fun _ =>
        (keeps_freeThread.trans keeps_recordPfault).trans keeps_dropFinished

theorem keeps_beginEnd {th : ThreadRef} : Keeps s (beginEnd s th) := by
  unfold beginEnd
  split
  · exact .refl _
  · exact keeps_ite (fun _ => keeps_finishThread) fun _ => keeps_setThread _ _

theorem keeps_pfault {th : ThreadRef} {reason code : Nat} : Keeps s (pfault s th reason code) :=
  (keeps_setThread _ _).trans keeps_beginEnd

theorem keeps_takeTicket {th : ThreadRef} {d status : Nat} {write : Bool} {op : Option UnitOp} {f : State → Nat → State}
    (hf : ∀ s x, Keeps s (f s x)) : Keeps s (takeTicket s th d status write op f) := by
  unfold takeTicket
  split
  · exact .refl _
  · exact keeps_ite (fun _ => keeps_setThread _ _) fun _ => (keeps_setThread _ _).trans (hf _ _)

theorem keeps_waitTicket {t : Thread} {n d st : Nat} : Keeps s (waitTicket s t n d st) := by
  unfold waitTicket
  dsimp only
  split
  · exact keeps_ite (fun _ => keeps_setThread _ _) fun _ => keeps_setThread _ _
  · split
    · exact keeps_ite (fun _ => keeps_setThread _ _) fun _ => keeps_setThread _ _
    · exact keeps_setThread _ _

theorem keeps_bpubNow {t : Thread} {st : Nat} : Keeps s (bpubNow s t st) :=
  (keeps_setThread _ _).trans (keeps_unless <| keeps_tokenFrom.trans keeps_publishToken)

theorem keeps_endTicket {th : ThreadRef} {n status cause : Nat} : Keeps s (endTicket s th n status cause) := by
  unfold endTicket
  split
  · exact .refl _
  · extract_lets t _ u
    have ht : Keeps s t := keeps_setThread _ _
    have hu : Keeps s u := keeps_ite (fun _ => ht.trans (keeps_setSample _ _)) fun _ => ht
    split
    · exact ht.trans keeps_dropFinished
    · split
      · exact hu
      · exact keeps_ite (fun _ => keeps_ite (fun _ => hu.trans keeps_finishThread) fun _ => hu) fun _ =>
            keeps_ite (fun _ => hu.trans (keeps_setThread _ _)) fun _ => keeps_ite (fun _ => keeps_ite (fun _ => hu) fun _ =>
            hu.trans keeps_bpubNow) fun _ => keeps_ite (fun _ => hu) fun _ => keeps_ite (fun _ => hu.trans keeps_waitTicket)
            fun _ => keeps_ite (fun _ => hu.trans keeps_waitTicket) fun _ => hu

theorem keeps_spaceWrite {th : ThreadRef} {off : Nat} {l : List Byte} : Keeps s (spaceWrite s th off l) := by
  unfold spaceWrite
  split
  · exact keeps_setThread _ _
  · exact keeps_of_eq rfl rfl rfl rfl rfl (by simp) rfl

/-! ### Machine/Requests.lean -/

theorem keeps_lateReqs {α : Type} {bad : State → α → Bool} {move : State → α → State} {t : Transfer} {l : List (Req α)}
    (hmove : ∀ s x, Keeps s (move s x)) : Keeps s (lateReqs bad move t s l) :=
  keeps_foldl fun _ _ => keeps_unless <| keeps_arbitrate.trans (keeps_when (hmove _ _))

theorem keeps_runReqs {α : Type} {bad : State → α → Bool} {move : State → α → State} {t : Transfer} {l : List (Req α)}
    (hmove : ∀ s x, Keeps s (move s x)) : Keeps s (runReqs bad move t l s).1 := by
  induction l generalizing s with
  | nil => exact .refl _
  | cons r l ih => exact keeps_ite_fst ih (keeps_ite_fst (keeps_lateReqs hmove) ((hmove _ _).trans ih))

theorem keeps_engineBytes {t : Transfer} {n : Nat × Nat} : Keeps s (engineBytes s t n) := by
  unfold engineBytes
  split
  · exact (keeps_bump64 _ _).trans (keeps_bump64 _ _)
  · exact .refl _

theorem keeps_pieceWrite {p key : Nat} {l : List Byte} {x : Nat × Nat} : Keeps s (pieceWrite p key l s x) :=
  keeps_hostWrite _ _ _

theorem keeps_writeOut {t : Transfer} {key : Nat} {l : List Byte} : Keeps s (writeOut s t key l).1 :=
  keeps_runReqs (fun _ _ => keeps_pieceWrite)

theorem keeps_readIn {t : Transfer} {key n : Nat} : Keeps s (readIn s t key n).1 := by
  unfold readIn
  split
  · rename_i e
    exact (keeps_runReqs (fun _ _ => .refl _)).fst_eq e
  · rename_i u e
    have hu : Keeps s u := (keeps_runReqs (fun _ _ => .refl _)).fst_eq e
    exact hu.trans keeps_readReturned

theorem keeps_readStaging {l : List Nat} {n : Nat} : Keeps s (readStaging s l n).1 := by
  unfold readStaging
  refine keeps_foldl_fst fun a x => ?_
  split
  exact keeps_ite_fst (.refl _) keeps_readLines

theorem keeps_placeSome {t : Transfer} {q pos n : Nat} {extra : List Nat} : Keeps s (placeSome s t q pos n extra) := by
  unfold placeSome
  split
  · exact keeps_foldl fun _ _ => keeps_unless <| keeps_pieceWrite
  · exact .refl _

/-! ### Machine/Rings.lean -/

theorem keeps_pageWrite {fn port q : Nat} {f : State → State} (hf : ∀ s, Keeps s (f s)) : Keeps s (pageWrite s fn port q f) :=
  keeps_unless <| keeps_ite (fun _ => keeps_unsupported) fun _ => keeps_unless <| hf _

theorem keeps_dbError {q off : Nat} {v : Word} : Keeps s (dbError s q off v) := (keeps_setW1c _ _ _).trans (keeps_setQueue _ _)

theorem keeps_dbAccept : Keeps s (dbAccept s) := keeps_bump64 _ _

theorem runs_execDbSqPi {fn : Fin 16} {port : Fin 8} {q : Fin 64} {v : Word} : Runs s (execDbSqPi fn port q v s) :=
  runs_next (keeps_pageWrite (fun _ => keeps_ite (fun _ => keeps_dbAccept.trans (keeps_setQueue _ _)) fun _ => keeps_dbError))

theorem runs_execDbCqCi {fn : Fin 16} {port : Fin 8} {q : Fin 64} {v : Word} : Runs s (execDbCqCi fn port q v s) :=
  runs_next (keeps_pageWrite (fun _ => keeps_ite (fun _ => keeps_dbAccept.trans (keeps_setQueue _ _)) fun _ => keeps_dbError))

theorem runs_execDbDrPi {fn : Fin 16} {port : Fin 8} {q : Fin 64} {v : Word} : Runs s (execDbDrPi fn port q v s) :=
  runs_next (keeps_pageWrite (fun _ => keeps_ite (fun _ => keeps_dbAccept.trans (keeps_setQueue _ _)) fun _ => keeps_dbError))

theorem runs_execPushSlotWrite {fn : Fin 16} {port : Fin 8} {q : Fin 64} {off : Nat} {bytes : List Byte} :
    Runs s (execPushSlotWrite fn port q off bytes s) :=
  runs_next (keeps_ite (fun _ => keeps_pageWrite (fun _ => keeps_unsupported)) fun _ => keeps_pageWrite
      (fun _ => keeps_setQueue _ _))

theorem keeps_sqEntry {q : Nat} {i : Word} : Keeps s (sqEntry s q i).2 := by
  unfold sqEntry
  split
  · exact .refl _
  · dsimp only
    split
    · exact .refl _
    · exact keeps_readReturned

theorem keeps_fetchErr {q : Nat} {dr : Bool} : Keeps s (fetchErr s q dr) := (keeps_setW1c _ _ _).trans (keeps_setQueue _ _)

theorem keeps_clearPush {q : Nat} {i : Word} : Keeps s (clearPush s q i) := keeps_setQueue _ _

theorem keeps_takeFrom {q : Nat} : Keeps s (takeFrom s q) := by
  unfold takeFrom
  extract_lets i
  split
  · rename_i t e
    exact (keeps_sqEntry.snd_eq e).trans keeps_fetchErr
  · rename_i _ t e
    have ht : Keeps s t := keeps_sqEntry.snd_eq e
    extract_lets exp r n
    split
    · exact ht
    · have hr : Keeps s r.2 := by
        unfold r
        split
        · split
          · rename_i u e1
            exact (ht.trans keeps_sqEntry).snd_eq e1
          · rename_i u e1
            exact (ht.trans keeps_sqEntry).snd_eq e1
        · exact ht
      clear_value r
      obtain ⟨_ | ext, u⟩ := r
      · exact hr.trans keeps_fetchErr
      · dsimp -zeta only
        extract_lets v w t1 u1 v1 _ _ w1
        have hv : Keeps s v := Keeps.trans hr keeps_clearPush
        have hw : Keeps s w := keeps_ite (fun _ => hv.trans keeps_clearPush) fun _ => hv
        have hv1 : Keeps s v1 := ((hw.trans (keeps_setQueue _ _)).trans (keeps_setQueue _ _)).trans (keeps_bump _)
        clear_value v1
        have hw1 : Keeps s w1 := hv1.same
        clear_value w1
        split
        · exact (hw1.trans (keeps_bump _)).trans (keeps_complete _ _)
        · exact (hw1.trans (keeps_setQueue _ _)).cmds _

theorem runs_execTakeSqEntry {p : Fin 16} : Runs s (execTakeSqEntry p s) := by
  unfold execTakeSqEntry
  refine runs_next ?_
  dsimp only
  split
  · exact .refl _
  · split
    · exact (keeps_setPart _ _).trans keeps_takeFrom
    · split
      · exact (keeps_setPart _ _).trans keeps_takeFrom
      · exact .refl _

theorem runs_execCoalUsExpiry {q : Fin 64} : Runs s (execCoalUsExpiry q s) :=
  runs_next (keeps_when (keeps_queueIrq _))

theorem runs_execNop {c : Nat} : Runs s (execNop c s) := runs_next (keeps_withCmd (fun _ _ => keeps_complete _ _))

theorem runs_execEventWait {c : Nat} : Runs s (execEventWait c s) := by
  unfold execEventWait
  refine runs_next (keeps_withCmd (fun t x => ?_))
  split
  · exact (keeps_setPart _ _).trans (keeps_complete _ _)
  · exact keeps_startCmd _

theorem keeps_unwind {x : Cmd} : Keeps s (unwind s x) :=
  keeps_freeBufs.trans ((keeps_rfl).trans (keeps_stopThreads.trans (keeps_foldl fun _ _ => keeps_removeSample)))

theorem runs_execAbort {c : Nat} : Runs s (execAbort c s) := by
  unfold execAbort
  refine runs_next (keeps_withCmd (fun t x => ?_))
  dsimp only
  split
  · exact keeps_complete _ _
  · split
    · exact keeps_ite (fun _ => keeps_complete _ _) fun _ => (keeps_unwind.trans (keeps_complete _ _)).trans
          (keeps_complete _ _)
    · exact keeps_complete _ _

/-! ### Machine/Pavane.lean -/

theorem keeps_drawSeed : Keeps s (drawSeed s).2 := by
  unfold drawSeed
  split
  · exact keeps_withNoise.trans keeps_reportOwed
  · exact keeps_withNoise.trans keeps_reportOwed

theorem keeps_openChecked {x : Cmd} {r : Recipe} {l : List Byte} {go : State → State} (hgo : ∀ s, Keeps s (go s)) :
    Keeps s (openChecked s x r l go) := by
  unfold openChecked
  split
  · exact keeps_complete _ _
  · split
    · exact keeps_complete _ _
    · split
      · exact keeps_complete _ _
      · exact hgo _

theorem keeps_openEpoch {x : Cmd} {e : Epoch} {k r0 r1 : Nat} : Keeps s (openEpoch s x e k r0 r1) := by
  unfold openEpoch
  extract_lets t u
  have ht : Keeps s t := keeps_startCmd _
  have hu : Keeps s u := ht.same
  exact (hu.trans keeps_openBatch).trans keeps_settle

theorem runs_execEpochOpen {c : Nat} : Runs s (execEpochOpen c s) := by
  unfold execEpochOpen
  refine runs_next (keeps_withHost (fun t x => ?_))
  split
  · exact keeps_complete _ _
  · split
    · exact keeps_complete _ _
    · split
      · exact keeps_complete _ _
      · refine keeps_readReturned.trans (keeps_openChecked (fun u => ?_))
        dsimp only
        split
        · split
          · rename_i v e
            have hv : Keeps u v := keeps_drawSeed.snd_eq e
            exact hv.trans (keeps_complete _ _)
          · rename_i v e
            have hv : Keeps u v := keeps_drawSeed.snd_eq e
            exact hv.trans keeps_openEpoch
        · exact keeps_openEpoch

theorem runs_execEpochResume {c : Nat} : Runs s (execEpochResume c s) := by
  unfold execEpochResume
  refine runs_next (keeps_withHost (fun t x => ?_))
  split
  · exact keeps_complete _ _
  · split
    · exact keeps_complete _ _
    · extract_lets u
      have hu : Keeps t u := keeps_readReturned
      split
      · exact hu.trans (keeps_complete _ _)
      · split
        · exact hu.trans (keeps_complete _ _)
        · split
          · exact hu.trans (keeps_complete _ _)
          · split
            · exact hu.trans (keeps_complete _ _)
            · split
              · exact hu.trans (keeps_complete _ _)
              · split
                · exact hu.trans (keeps_complete _ _)
                · split
                  · exact hu.trans (keeps_complete _ _)
                  · exact hu.trans (keeps_openChecked (fun _ => keeps_openEpoch))

theorem runs_execEpochClose {c : Nat} : Runs s (execEpochClose c s) := by
  unfold execEpochClose
  refine runs_next (keeps_withCmd (fun t x => ?_))
  split
  · exact keeps_complete _ _
  · exact keeps_ite (fun _ => keeps_startCmd _) fun _ => (keeps_closeOpening.trans keeps_endEpoch).trans
        ((keeps_complete _ _).trans keeps_finishClose)

theorem runs_execDbStep {fn : Fin 16} {port : Fin 8} {q : Fin 64} {_v : Word} : Runs s (execDbStep fn port q _v s) :=
  runs_next (keeps_pageWrite (fun _ => keeps_ite (fun _ => (keeps_dbAccept.trans (keeps_setQueue _ _)).trans keeps_stepEvent)
      fun _ => keeps_setQueue _ _))

theorem runs_execStepSrcWrite {port : Fin 8} {p : Fin 16} {v : Word} {edge : Option (Fin 4)} :
    Runs s (execStepSrcWrite port p v edge s) := by
  unfold execStepSrcWrite
  refine runs_next ?_
  split
  · exact keeps_busWrite
  · exact keeps_arbitrate.trans (keeps_ite (fun _ => keeps_edgeAt.trans keeps_busWrite) fun _ => keeps_busWrite.trans
        keeps_edgeAt)

theorem runs_execDeliveryEntryTake {q : Fin 64} : Runs s (execDeliveryEntryTake q s) := by
  unfold execDeliveryEntryTake
  refine runs_next ?_
  split
  · exact .refl _
  · split
    · exact .refl _
    · extract_lets _ _ t u v
      have ht : Keeps s t := keeps_readReturned
      have hu : Keeps s u := ht.trans (keeps_setQueue _ _)
      have hv : Keeps s v := hu.trans (keeps_setQueue _ _)
      split
      · exact keeps_fetchErr
      · split
        · exact (hv.trans (keeps_bump _)).trans (keeps_batchReady _ _ _ _ _)
        · exact (hv.trans (keeps_setEpoch _ _)).trans keeps_settle

theorem keeps_placedNow {q p : Nat} {x : Sample} : Keeps s (placedNow s q p x) :=
  (keeps_stopThreads.trans keeps_dropFetchRecs).trans ((keeps_freeBufs.trans keeps_freeAfter).trans
      (keeps_fresh.trans ((keeps_setSample _ _).trans keeps_settle)))

theorem keeps_endPlacement {q pos : Nat} {ok : Bool} : Keeps s (endPlacement s q pos ok) := by
  unfold endPlacement
  split
  · split
    · exact .refl _
    · split
      rename_i t _ e
      have ht : Keeps s t := keeps_readStaging.fst_eq e
      split
      · exact ht.trans keeps_sampleUe
      · extract_lets u v
        have hu : Keeps s u := ht.trans keeps_crossed
        have hv : Keeps s v := hu.same
        split
        · exact hv.trans keeps_dropSample
        · split
          · rename_i w e1
            have hw : Keeps s w := (hv.trans keeps_writeOut).fst_eq e1
            exact hw.trans keeps_placedNow
          · rename_i w _ e1
            have hw : Keeps s w := (hv.trans keeps_writeOut).fst_eq e1
            exact hw.trans keeps_dropSample
  · exact .refl _

theorem runs_execPlacementCopyEnd {q : Fin 64} {pos : Nat} : Runs s (execPlacementCopyEnd q pos s) := by
  unfold execPlacementCopyEnd
  refine runs_next ?_
  split
  · exact keeps_when keeps_endPlacement
  · exact .refl _

theorem keeps_padSlot {q i : Nat} : Keeps s (padSlot s q i) := by
  unfold padSlot
  split
  · exact .refl _
  · exact keeps_unless <| keeps_ite (fun _ => (keeps_hostWrite _ _ _).trans keeps_setSlot) fun _ => keeps_hostWrite _ _ _

theorem keeps_moveDown {q : Nat} {l : List Slot} {i : Nat} : Keeps s (moveDown q l i s).2.2 := by
  induction l generalizing s i with
  | nil => exact .refl _
  | cons y l ih =>
    unfold moveDown
    split
    · extract_lets _ u v w _ _ _ t1
      have hu : Keeps s u := keeps_hostWrite _ _ _
      have hv : Keeps s v := (hu.trans keeps_addLog).trans (keeps_bump _)
      have hw : Keeps s w := (hv.trans keeps_removeSample).trans (keeps_setEpoch _ _)
      have ht1 : Keeps s t1 := keeps_unless <| keeps_hostWrite _ _ _
      split
      · exact hw.trans ih
      · exact ht1.trans ih
    · exact ih

theorem keeps_compact {q : Nat} : Keeps s (compact s q) := by
  unfold compact
  split
  · exact .refl _
  · exact keeps_when (keeps_moveDown.trans (keeps_setEpoch _ _))

theorem keeps_failRelease {q : Nat} {d : Delivery} {r : Result} : Keeps s (failRelease s q d r) :=
  (keeps_setEpoch _ _).trans ((keeps_batchReady _ _ _ _ _).trans keeps_cutEpoch)

theorem keeps_writeRelease {e : Epoch} {d : Delivery} : Keeps s (writeRelease s e d) := by
  unfold writeRelease
  extract_lets _ _ _ _ _ _ t u _ v w t1
  have ht : Keeps s t := keeps_hostWrite _ _ _
  have hu : Keeps s u := ht.trans (keeps_setEpoch _ _)
  have hv : Keeps s v := hu.trans (keeps_batchReady _ _ _ _ _)
  have hw : Keeps s w := (hv.trans (keeps_bump64 _ _)).trans (keeps_bump64 _ _)
  have ht1 : Keeps s t1 := hw.same
  split
  · exact (keeps_hostWrite _ _ _).trans keeps_failRelease
  · split
    · exact ht1
    · exact keeps_ite (fun _ => ht1.trans keeps_cutEpoch) fun _ => (ht1.trans (keeps_hostWrite _ _ _)).trans
          (keeps_ite (fun _ => (keeps_rfl).trans keeps_finishClose) fun _ => keeps_openBatch.trans keeps_settle)

theorem keeps_release {q : Nat} {d : Delivery} : Keeps s (release s q d) := by
  unfold release
  extract_lets _ t u
  have ht : Keeps s t := keeps_unless <| keeps_compact
  have hu : Keeps s u := keeps_ite (fun _ => ht) fun _ => ht.trans (keeps_foldl fun _ _ => keeps_padSlot)
  split
  · exact hu
  · exact keeps_ite (fun _ => hu.trans keeps_failRelease) fun _ => hu.trans keeps_writeRelease

theorem runs_execBatchRelease {q : Fin 64} : Runs s (execBatchRelease q s) := by
  unfold execBatchRelease
  refine runs_next ?_
  split
  · exact .refl _
  · dsimp only
    split
    · split
      · exact keeps_release
      · exact .refl _
    · exact .refl _

theorem keeps_arrive {h : Nat} : Keeps s (arrive s h) := by
  unfold arrive
  split
  · exact .refl _
  · split
    · exact .refl _
    · exact (keeps_rfl).trans (keeps_setSample _ _)

theorem runs_execGraceWindowEnd {q : Fin 64} {meets : Option Nat} : Runs s (execGraceWindowEnd q meets s) := by
  unfold execGraceWindowEnd
  refine runs_next ?_
  split
  · exact .refl _
  · split
    · exact .refl _
    · split
      · exact keeps_when (keeps_arbitrate.trans (keeps_ite (fun _ => (keeps_arrive.trans keeps_settle).trans keeps_graceEnd)
            fun _ => ((keeps_bump64 _ _).trans (keeps_bump _)).trans
            (keeps_ite (fun _ => (keeps_graceEnd.trans keeps_arrive).trans keeps_settle) fun _ => (keeps_bump _).trans
            (keeps_arrive.trans keeps_graceEnd))))
      · exact keeps_unless <| keeps_graceEnd

theorem runs_execBudgetExceeded {sample : Nat} : Runs s (execBudgetExceeded sample s) := by
  unfold execBudgetExceeded
  refine runs_next ?_
  split
  · exact .refl _
  · exact keeps_unless <| (keeps_setSample _ _).trans keeps_overBudget

theorem runs_execHardTimeout {sample : Nat} : Runs s (execHardTimeout sample s) := by
  unfold execHardTimeout
  refine runs_next ?_
  split
  · exact .refl _
  · exact keeps_unless <| keeps_raise.trans keeps_dropSample

theorem runs_execReleaseTreeTimeout {kind index : Nat} : Runs s (execReleaseTreeTimeout kind index s) :=
  runs_next (keeps_when ((keeps_rfl).trans ((keeps_when (keeps_setFld _ _ _ _)).trans keeps_raise)))

/-! ### Machine/Sources.lean -/

theorem runs_execSourceBind {c : Nat} : Runs s (execSourceBind c s) := by
  unfold execSourceBind
  refine runs_next (keeps_withCmd (fun t x => ?_))
  extract_lets _ _ _ _ u v
  have hu : Keeps t u := keeps_rfl
  have hv : Keeps t v := hu.same
  split
  · exact keeps_complete _ _
  · split
    · exact keeps_complete _ _
    · split
      · exact hv.same.trans (keeps_complete _ _)
      · split
        · exact keeps_complete _ _
        · split
          · exact keeps_complete _ _
          · split
            · exact keeps_complete _ _
            · split
              · exact keeps_complete _ _
              · split
                · exact keeps_complete _ _
                · exact hv.same.trans (keeps_complete _ _)

theorem keeps_dropEntries {p : Nat} {f : CacheEntry → Bool} : Keeps s (dropEntries s p f) :=
  keeps_foldl fun _ _ => keeps_dropEntry

theorem keeps_dropCopy {c : CopySource} : Keeps s (dropCopy s c) := (keeps_stopThreads.trans keeps_freeBufs).trans keeps_rfl

theorem runs_execSourceUnbind {c : Nat} : Runs s (execSourceUnbind c s) :=
  runs_next (keeps_withCmd (fun _ _ => keeps_ite (fun _ => keeps_complete _ _) fun _ => keeps_dropEntries.trans
      ((keeps_rfl).trans (keeps_startCmd _))))

theorem runs_execSourceUnbindDrained {c : Nat} : Runs s (execSourceUnbindDrained c s) := by
  unfold execSourceUnbindDrained
  refine runs_next (keeps_withStarted (fun t x => ?_))
  split
  · exact keeps_complete _ _
  · split
    · exact .refl _
    · extract_lets u v w t1
      have hu : Keeps t u := keeps_dropEntries
      have hv : Keeps t v := hu.same
      have hw : Keeps t w := by
        unfold w
        split
        · exact hv.trans keeps_dropCopy
        · exact hv
      have ht1 : Keeps t t1 := hw.trans (keeps_setPart _ _)
      exact ht1.trans (keeps_complete _ _)

theorem runs_execNsGrant {c : Nat} : Runs s (execNsGrant c s) :=
  runs_next (keeps_withCmd (fun _ _ => keeps_ite (fun _ => keeps_complete _ _) fun _ => keeps_ite (fun _ => keeps_complete _ _)
      fun _ => keeps_ite (fun _ => keeps_complete _ _) fun _ => keeps_ite (fun _ => keeps_ite (fun _ => keeps_complete _ _)
      fun _ => (keeps_rfl).trans (keeps_complete _ _)) fun _ => (keeps_rfl).trans (keeps_complete _ _)))

theorem keeps_setPresent {sp link : Nat} {on : Bool} : Keeps s (setPresent s sp link on) := keeps_rfl

theorem keeps_linkTrained {sp link gtps : Nat} : Keeps s (linkTrained s sp link gtps) :=
  keeps_unless <| keeps_ite (fun _ => keeps_rfl) fun _ => keeps_rfl

theorem runs_execDriveArrival {sp link : Fin 4} {a : LinkTrain} : Runs s (execDriveArrival sp link a s) :=
  runs_next (keeps_unless <| (keeps_unless <| keeps_onPulse (fun _ => keeps_setPresent)).trans (keeps_when keeps_linkTrained))

theorem keeps_setDrive {sp link : Nat} {f : Drive → Drive} : Keeps s (setDrive s sp link f) := keeps_rfl

theorem keeps_driveUnusable {sp link step sf : Nat} : Keeps s (driveUnusable s sp link step sf) :=
  keeps_setDrive.trans (keeps_raise.trans (keeps_postEvent _ _ _))

theorem runs_execDriveReady {sp link : Fin 4} {r : DriveIdent} : Runs s (execDriveReady sp link r s) := by
  unfold execDriveReady
  refine runs_next ?_
  split
  · exact .refl _
  · split
    · exact keeps_setDrive.trans (keeps_postEvent _ _ _)
    · exact keeps_when keeps_driveUnusable

theorem runs_execDriveReadyTimeout {sp link : Fin 4} : Runs s (execDriveReadyTimeout sp link s) :=
  runs_next (keeps_when keeps_driveUnusable)

theorem keeps_sourceLinkDown {sp link : Nat} : Keeps s (sourceLinkDown s sp link) :=
  keeps_when (keeps_containLink.trans keeps_raise)

theorem keeps_drivePulled {sp link : Nat} : Keeps s (drivePulled s sp link) := by
  unfold drivePulled
  extract_lets t
  have ht : Keeps s t := keeps_setPresent
  exact ht.same.trans keeps_sourceLinkDown

theorem runs_execDriveRemoval {sp : Fin 4} {at_ : LinkLeft} : Runs s (execDriveRemoval sp at_ s) := by
  unfold execDriveRemoval
  refine runs_next ?_
  split
  · exact .refl _
  · split
    · exact keeps_sourceLinkDown
    · exact keeps_onPulse (fun _ => keeps_drivePulled)

theorem runs_execDownstreamPortContainment {sp link : Fin 4} : Runs s (execDownstreamPortContainment sp link s) :=
  runs_next keeps_sourceLinkDown

/-! ### Machine/Tensors.lean -/

theorem runs_execTensorCreate {c : Nat} : Runs s (execTensorCreate c s) := by
  unfold execTensorCreate
  refine runs_next (keeps_withHost (fun t x => ?_))
  extract_lets _ _ u
  have hu : Keeps t u := keeps_readReturned
  split
  · exact keeps_complete _ _
  · split
    · exact hu.trans (keeps_complete _ _)
    · split
      · exact hu.trans (keeps_complete _ _)
      · split
        · exact keeps_ite (fun _ => hu.same.trans (keeps_complete _ _)) fun _ => hu.same.trans (keeps_complete _ _)
        · exact hu.same.trans (keeps_complete _ _)

theorem runs_execTensorDestroy {c : Nat} : Runs s (execTensorDestroy c s) := by
  unfold execTensorDestroy
  refine runs_next (keeps_withCmd (fun t x => ?_))
  split
  · exact keeps_complete _ _
  · exact (keeps_rfl).trans (keeps_startCmd _)

theorem runs_execTensorDestroyDrained {c : Nat} : Runs s (execTensorDestroyDrained c s) :=
  runs_next (keeps_withStarted (fun _ _ => keeps_unless <| (keeps_rfl).trans (keeps_complete _ _)))

theorem keeps_copyElem {f t : Tensor} {b : Box} {i : List Nat} : Keeps s (copyElem f t b s i) := by
  unfold copyElem
  split
  exact (keeps_poke _ _).trans (keeps_when (keeps_poke _ _))

theorem keeps_copyReq {f t : Tensor} {x : Box × Nat} : Keeps s (copyReq f t s x) := by
  unfold copyReq
  extract_lets is u _ _
  have hu : Keeps s u := keeps_readReturned
  cases is with
  | nil => exact hu
  | cons i is => exact (hu.trans (keeps_hostWrite _ _ _)).trans (keeps_foldl fun _ _ => keeps_hostWrite _ _ _)

theorem keeps_startCopy {x : Cmd} {k : TransferKind} {f t : Tensor} : Keeps s (startCopy s x k f t) :=
  keeps_fresh.trans ((keeps_rfl).trans (keeps_startCmd _))

theorem keeps_withTensors {x : Cmd} {fit : Desc → Desc → Bool} {go : State → Tensor → Tensor → State}
    (hgo : ∀ s x x2, Keeps s (go s x x2)) : Keeps s (withTensors s x fit go) := by
  unfold withTensors
  split
  · exact keeps_complete _ _
  · exact keeps_complete _ _
  · exact keeps_ite (fun _ => keeps_complete _ _) fun _ => hgo _ _ _

theorem keeps_withOpList {x : Cmd} {n : Nat} {go : State → List Byte → State} (hgo : ∀ s x, Keeps s (go s x)) :
    Keeps s (withOpList s x n go) :=
  keeps_ite (fun _ => keeps_complete _ _) fun _ => keeps_readReturned.trans (hgo _ _)

theorem runs_execCopy {c : Nat} : Runs s (execCopy c s) := by
  unfold execCopy
  refine runs_next (keeps_withHost fun t x => keeps_withTensors fun u f t1 => keeps_withOpList fun v l => ?_)
  split
  · exact keeps_complete _ _
  · extract_lets
    split
    · exact keeps_complete _ _
    · exact keeps_startCopy

theorem runs_execCopyLayout {c : Nat} : Runs s (execCopyLayout c s) :=
  runs_next (keeps_withCmd (fun _ _ => keeps_withTensors (fun _ _ _ => keeps_startCopy)))

theorem keeps_runCoords {x : Cmd} {f t : Tensor} {scatter : Bool} {l : List Byte} : Keeps s (runCoords s x f t scatter l) := by
  unfold runCoords
  split
  · exact keeps_complete _ _
  · dsimp only
    split
    · exact keeps_complete _ _
    · exact keeps_startCopy

theorem runs_execGather {c : Nat} : Runs s (execGather c s) :=
  runs_next (keeps_withHost (fun _ _ => keeps_withTensors (fun _ _ _ => keeps_withOpList (fun _ _ => keeps_runCoords))))

theorem runs_execScatter {c : Nat} : Runs s (execScatter c s) :=
  runs_next (keeps_withHost (fun _ _ => keeps_withTensors (fun _ _ _ => keeps_withOpList (fun _ _ => keeps_runCoords))))

theorem keeps_runCopy {t : Transfer} {x : Cmd} : Keeps s (runCopy s t x).1 := by
  unfold runCopy
  split
  · exact keeps_runReqs (fun _ _ => keeps_copyReq)
  · exact .refl _

theorem keeps_copySome {t : Transfer} {x : Cmd} {n : Nat} {extra : List Nat} : Keeps s (copySome s t x n extra) := by
  unfold copySome
  split
  · exact keeps_foldl fun _ _ => keeps_unless <| keeps_copyReq
  · exact .refl _

/-! ### Machine/Fetch.lean -/

theorem keeps_touchEntry {e : CacheEntry} : Keeps s (touchEntry s e) := keeps_fresh.trans keeps_rfl

theorem keeps_readEntry {p src off len : Nat} : Keeps s (readEntry s p src off len).1 := by
  unfold readEntry
  split
  · exact .refl _
  · exact keeps_ite_fst (keeps_readObject.trans keeps_dropEntry) (keeps_readObject.trans keeps_touchEntry)

theorem keeps_insertEntry {p d src off : Nat} {l : List Byte} : Keeps s (insertEntry s p d src off l) := by
  unfold insertEntry
  extract_lets _ _ t
  have ht : Keeps s t := keeps_evictTo
  split
  · exact .refl _
  · split
    · exact ht
    · split
      · exact ht
      · rename_i u _ _ e
        have hu : Keeps s u := (keeps_allocNear.after ht) _ e
        exact ((hu.trans keeps_markWritten).trans keeps_fresh).trans keeps_rfl

theorem keeps_setRec {h recno : Nat} {f : Rec → Rec} : Keeps s (setRec s h recno f) := keeps_setSample _ _

theorem keeps_spareBuf {p d n : Nat} : KeepsSome s Prod.fst (spareBuf s p d n) := keepsSome_ite keepsSome_none keeps_alloc

theorem keeps_reclaim {p : Nat} : KeepsSome s id (reclaim s p) := by
  unfold reclaim
  split
  · exact keepsSome_none
  · extract_lets _ t u
    have ht : Keeps s t := keeps_setRec
    have hu : Keeps s u := ht.same
    split
    · exact keepsSome_none
    · exact keepsSome_some (hu.trans keeps_freeLanded)

/-! The kernel computes `spareBuf`'s comparison in unary when it meets `drawBuf`'s equation for a successor. So the induction
is carried out on `drawBuf`'s recursor, with the round count a variable. -/

/-- P holds of what a recursion on the rounds has for one round fewer. -/
def BelowAll (P : α → Prop) : (n : Nat) → Nat.below (motive := fun _ => α) n → Prop
  | 0, _ => True
  | _ + 1, b => P b.1

theorem brecOn_all {P : α → Prop} {F : (n : Nat) → Nat.below (motive := fun _ => α) n → α}
    (h : ∀ n b, BelowAll P n b → P (F n b)) (n : Nat) : P (Nat.brecOn n F) := by
  induction n with
  | zero => exact h 0 _ trivial
  | succ n ih => exact h (n + 1) _ ih

/-- The state of a pair keeps what s has. -/
def KeepsFst (s : State) (p : State × β) : Prop := Keeps s p.1

theorem keepsFst_cases {n : Nat} {b : Nat.below (motive := fun _ => α) n} {P : α → Prop}
    {z : Nat.below (motive := fun _ => α) 0 → State × β}
    {f : (k : Nat) → Nat.below (motive := fun _ => α) (k + 1) → State × β}
    (hb : BelowAll P n b) (hz : ∀ b, KeepsFst s (z b)) (hf : ∀ k b, P b.1 → KeepsFst s (f k b)) :
    KeepsFst s (Nat.casesOn (motive := fun n => Nat.below (motive := fun _ => α) n → State × β) n z f b) := by
  cases n with
  | zero => exact hz _
  | succ k => exact hf k _ hb

theorem keepsFst_drawBuf {k : Nat} : ∀ s p d n need, KeepsFst s (drawBuf k s p d n need) := by
  delta drawBuf
  refine brecOn_all (α := State → Nat → Nat → Nat → Bool → State × Option Nat)
    (P := fun g => ∀ s p d n need, KeepsFst s (g s p d n need)) ?_ k
  intro m b hb s p d n need
  set_option smartUnfolding false in refine keepsFst_cases hb ?_ ?_
  · exact fun _ => .refl _
  · intro k b hb
    beta_reduce
    have ho : KeepsSome s Prod.fst (spareBuf s p d n) := keeps_spareBuf
    have hr : KeepsSome s id (reclaim s p) := keeps_reclaim
    generalize spareBuf s p d n = o at ho
    generalize reclaim s p = r at hr
    obtain _ | ⟨u, c⟩ := o
    · refine keeps_ite_fst ?_ (.refl _)
      obtain _ | u := r
      · exact .refl _
      · exact (hr u rfl).trans (hb ..)
    · exact ho _ rfl

theorem keeps_drawBuf {k p d n : Nat} {need : Bool} : Keeps s (drawBuf k s p d n need).1 := keepsFst_drawBuf ..

theorem keeps_recBuffer {p d h : Nat} {r : Rec} : Keeps s (recBuffer s p d h r).1 := by
  delta recBuffer
  have hd : Keeps s (drawBuf (drawFuel s) s p d r.bytes r.named).1 := keeps_drawBuf
  generalize drawBuf (drawFuel s) s p d r.bytes r.named = o at hd
  obtain ⟨t, _ | b⟩ := o
  · split
    · exact .refl _
    · exact hd
  · split
    · exact .refl _
    · exact (hd.trans keeps_setRec).trans (keeps_setBuf _ _)

theorem keeps_recLanded {h recno : Nat} : Keeps s (recLanded s h recno) := by
  unfold recLanded
  split
  · split
    · exact .refl _
    · exact keeps_ite (fun _ => (keeps_setBuf _ _).trans keeps_setRec) fun _ => keeps_setBuf _ _
  · exact .refl _

theorem keeps_landPiece {src h recno ext : Nat} {l : List Byte} : Keeps s (landPiece s src h recno ext l) := by
  unfold landPiece
  split
  · exact .refl _
  · split
    · exact .refl _
    · exact keeps_mergeLine.trans (keeps_ite (fun _ => keeps_sampleUe) fun _ => (keeps_crossed.trans keeps_bufWrite).trans
          (keeps_setRec.trans (keeps_when keeps_recLanded)))

theorem keeps_keepPiece {p d h recno src off : Nat} {l : List Byte} : Keeps s (keepPiece s p d h recno src off l) :=
  keeps_unless <| keeps_insertEntry

theorem keeps_readCopy {q : Piece} : Keeps s (readCopy s q).1 := by
  unfold readCopy
  split
  · exact keeps_readObject.trans (keeps_ite_fst ((keeps_rfl).trans keeps_freeBufs) (.refl _))
  · exact .refl _

theorem keeps_joinPiece {d : Nat} {f : Fetch} {q : Piece} : KeepsSome s Prod.fst (joinPiece s d f q) := by
  unfold joinPiece
  split
  · exact keepsSome_none
  · split
    · rename_i t _ e
      have ht : Keeps s t := keeps_recBuffer.fst_eq e
      exact keepsSome_some (ht.trans keeps_setRec)
    · exact keepsSome_none

theorem keeps_mergePieces {k d last : Nat} {f : Fetch} : Keeps s (mergePieces k s d last f).1 := by
  induction k generalizing s last f with
  | zero => exact .refl _
  | succ k ih =>
    unfold mergePieces
    split
    · rename_i u g b e
      have hu : KeepsSome s (fun r => r.1.1) (some ((u, g), b)) := e ▸ keepsSome_findSome fun _ =>
        keepsSome_ite (keepsSome_map keeps_joinPiece fun _ => .refl _) keepsSome_none
      exact (hu _ rfl).trans ih
    · exact .refl _

theorem keeps_landAtOnce {d src : Nat} {q : Piece} {l : List Byte} : KeepsSome s id (landAtOnce s d src q l) :=
  keepsSome_bind keeps_joinPiece (fun _ => keepsSome_ite (keepsSome_some keeps_landPiece) keepsSome_none)

theorem keeps_requestPiece {d : Nat} {q : Piece} {drive : Option (Nat × Nat)} :
    KeepsSome s id (requestPiece s d q drive) := by
  refine keepsSome_ite keepsSome_none (keepsSome_bind keeps_joinPiece fun ⟨t, f⟩ => ?_)
  dsimp -zeta only
  have hm : Keeps t (mergePieces 4096 t d (q.off + q.len) f).1 := keeps_mergePieces
  generalize mergePieces 4096 t d (q.off + q.len) f = r at hm
  exact ((keepsSome_ite (keepsSome_some keeps_rfl) keepsSome_none).after keeps_fresh).after hm

theorem keeps_issuePiece {d : Nat} {q : Piece} : KeepsSome s id (issuePiece s d q) := by
  unfold issuePiece
  split
  · exact keepsSome_none
  · dsimp only
    split
    · rename_i t _ e
      have ht : Keeps s t := keeps_readEntry.fst_eq e
      exact keeps_landAtOnce.after ht
    · rename_i t e
      have ht : Keeps s t := keeps_readEntry.fst_eq e
      split
      · exact keepsSome_none
      · exact keepsSome_some (ht.trans keeps_endRec)
      · split
        · split
          · rename_i u _ e1
            have hu : Keeps s u := (ht.trans keeps_readCopy).fst_eq e1
            exact keepsSome_map (keeps_landAtOnce.after hu) (fun _ => keeps_keepPiece)
          · rename_i u e1
            have hu : Keeps s u := (ht.trans keeps_readCopy).fst_eq e1
            exact keepsSome_some hu
        · exact keeps_requestPiece.after ht

theorem keeps_indexRead {x : Sample} {e : DirEntry} {l : List Byte} : Keeps s (indexRead s x e l) := keeps_setSample _ _

theorem keeps_indexFailed {x : Sample} {src off status cause : Nat} : Keeps s (indexFailed s x src off status cause) :=
  keeps_setSample _ _

theorem keeps_readRange {d p src off len : Nat} {kept : Bool} {r : SourceRead} :
    Keeps s (readRange s d p src off len kept r).1 := by
  unfold readRange
  split
  · exact .refl _
  · split
    · rename_i e
      exact keeps_readEntry.fst_eq e
    · rename_i t e
      have ht : Keeps s t := keeps_readEntry.fst_eq e
      split
      · exact ht
      · extract_lets _ _ u
        have hu : Keeps s u := ht.trans keeps_readReturned
        split
        · exact ht
        · split
          · exact keeps_ite (fun _ => hu.trans keeps_insertEntry) fun _ => hu
          · split
            · rename_i v _ e1
              have hv : Keeps s v := (ht.trans keeps_readCopy).fst_eq e1
              exact keeps_ite (fun _ => hv.trans keeps_insertEntry) fun _ => hv
            · rename_i e1
              exact (ht.trans keeps_readCopy).fst_eq e1
          · exact keeps_ite (fun _ => ht.trans keeps_insertEntry) fun _ => ht
          · exact ht

theorem keeps_readIndex {d : Nat} {x : Sample} {r : SourceRead} : KeepsSome s id (readIndex s d x r) := by
  unfold readIndex
  split
  · exact keepsSome_none
  · dsimp only
    split
    · exact keepsSome_some keeps_indexFailed
    · split
      · exact keepsSome_none
      · rename_i t _ _ e
        have ht : Keeps s t := keeps_readRange.fst_eq e
        exact keepsSome_some (ht.trans keeps_indexFailed)
      · rename_i t _ e
        have ht : Keeps s t := keeps_readRange.fst_eq e
        exact keepsSome_some (ht.trans keeps_indexRead)

theorem keeps_readList {d : Nat} {x : Sample} {r : Rec} {src off len : Nat} {a : SourceRead} :
    KeepsSome s id (readList s d x r src off len a) := by
  unfold readList
  split
  · exact keepsSome_none
  · rename_i t _ _ e
    have ht : Keeps s t := keeps_readRange.fst_eq e
    exact keepsSome_some (keeps_ite (fun _ => ht.trans keeps_endRec) fun _ => ht.trans keeps_setRec)
  · rename_i t _ e
    have ht : Keeps s t := keeps_readRange.fst_eq e
    exact keepsSome_some (ht.trans keeps_setRec)

theorem keeps_keepParts {f : Fetch} {l : List Byte} : Keeps s (keepParts s f l) := by
  unfold keepParts
  refine keeps_foldl fun t x => ?_
  split
  exact keeps_unless <| keeps_insertEntry

theorem keeps_landFetch {f : Fetch} {l : List Byte} : Keeps s (landFetch s f l) := by
  unfold landFetch
  extract_lets _ t
  have ht : Keeps s t := by
    unfold t
    refine keeps_foldl fun u x => ?_
    split
    exact keeps_landPiece
  exact (ht.trans keeps_keepParts).trans keeps_closeFetch

theorem keeps_nextAttempt {f : Fetch} : Keeps s (nextAttempt s f) := keeps_fresh.trans keeps_setFetch

theorem keeps_retryOr {f : Fetch} {status cause : Nat} : Keeps s (retryOr s f status cause) :=
  keeps_ite (fun _ => keeps_nextAttempt) fun _ => keeps_endFetch

theorem keeps_fetchEnds {f : Fetch} {r : FetchEnd} : Keeps s (fetchEnds s f r) := by
  unfold fetchEnds
  split
  · extract_lets t u
    have ht : Keeps s t := (keeps_bump64 _ _).trans (keeps_bump64 _ _)
    have hu : Keeps s u := keeps_bump64 _ _
    split
    · exact keeps_when (ht.trans keeps_landFetch)
    · exact keeps_ite (fun _ => hu.trans keeps_closeFetch) fun _ => keeps_ite (fun _ => hu.trans keeps_endFetch) fun _ =>
          hu.trans keeps_retryOr
    · exact keeps_goneFetch
    · exact .refl _
  · split
    · exact keeps_ite (fun _ => keeps_closeFetch) fun _ => keeps_retryOr
    · exact keeps_endFetch
    · split
      · exact keeps_ite (fun _ => keeps_endFetch) fun _ => keeps_unless <| keeps_readReturned.trans keeps_landFetch
      · exact keeps_closeFetch
    · exact .refl _

/-! The same holds of `newBuffers`, which draws with `drawBuf`. -/

/-- P holds of what a recursion on a list has for its tail. -/
def TailAll (P : α → Prop) : (l : List Nat) → List.below (motive := fun _ => α) l → Prop
  | [], _ => True
  | _ :: _, b => P b.1

theorem listRec_all {P : α → Prop} {F : (l : List Nat) → List.below (motive := fun _ => α) l → α}
    (h : ∀ l b, TailAll P l b → P (F l b)) (l : List Nat) : P (List.brecOn l F) := by
  induction l with
  | nil => exact h [] _ trivial
  | cons x l ih => exact h (x :: l) _ ih

theorem keepsSome_listCases {st : β → State} {l : List Nat} {b : List.below (motive := fun _ => α) l} {P : α → Prop}
    {z : List.below (motive := fun _ => α) ([] : List Nat) → Option β}
    {f : (x : Nat) → (l : List Nat) → List.below (motive := fun _ => α) (x :: l) → Option β}
    (hb : TailAll P l b) (hz : ∀ b, KeepsSome s st (z b)) (hf : ∀ x l b, P b.1 → KeepsSome s st (f x l b)) :
    KeepsSome s st (List.casesOn (motive := fun l => List.below (motive := fun _ => α) l → Option β) l z f b) := by
  cases l with
  | nil => exact hz _
  | cons x l => exact hf x l _ hb

theorem keepsSome_newBuffers {f : Fetch} {hs : List Nat} : ∀ s, KeepsSome s Prod.fst (newBuffers s f hs) := by
  delta newBuffers
  refine listRec_all (α := State → Option (State × List Nat)) (P := fun g => ∀ s, KeepsSome s Prod.fst (g s)) ?_ hs
  intro l b hb s
  set_option smartUnfolding false in refine keepsSome_listCases hb ?_ ?_
  · exact fun _ => keepsSome_some (.refl _)
  · intro h hs b hb
    beta_reduce
    have hd : ∀ p d n need, Keeps s (drawBuf (drawFuel s) s p d n need).1 := fun _ _ _ _ => keeps_drawBuf
    revert hd
    generalize drawBuf (drawFuel s) s = g
    revert g
    -- `id` states the goal for every g, so that no step below is checked with `drawBuf` in its place
    refine id ?_
    intro g hd
    split
    · exact hb s
    · dsimp only
      split
      · rename_i t _ e
        exact keepsSome_map ((hb t).after ((hd ..).fst_eq e)) fun _ => .refl _
      · exact keepsSome_none

theorem keeps_newBuffers {f : Fetch} {hs : List Nat} : KeepsSome s Prod.fst (newBuffers s f hs) := keepsSome_newBuffers s

theorem keeps_unstall {f : Fetch} : KeepsSome s id (unstall s f) :=
  keepsSome_ite keepsSome_none (keepsSome_map keeps_newBuffers (fun _ => keeps_setFetch.trans keeps_nextAttempt))

theorem keeps_attemptOver {n : Nat} {f : Fetch} {held : List Nat} : Keeps s (attemptOver s n f held) :=
  (keeps_ite (fun _ => keeps_rfl) fun _ => keeps_setFetch).trans (keeps_freeHeld.trans (keeps_when keeps_nextAttempt))

theorem keeps_attemptExpires {f : Fetch} {answered : Bool} : Keeps s (attemptExpires s f answered) := by
  refine keeps_ite (fun _ => keeps_ite (fun _ => keeps_closeFetch) fun _ => keeps_retryOr) fun _ => ?_
  refine keeps_ite (fun _ => keeps_setFetch.trans keeps_endFetch) fun _ => ?_
  exact Keeps.trans keeps_setFetch (keeps_getD keeps_unstall (.refl _))

theorem runs_execFetchCompletion {f : Nat} {r : FetchEnd} : Runs s (execFetchCompletion f r s) := by
  unfold execFetchCompletion
  refine runs_next ?_
  split
  · exact keeps_when keeps_fetchEnds
  · split
    · exact keeps_when keeps_attemptOver
    · exact keeps_when keeps_attemptOver
    · exact .refl _

theorem runs_execFetchAttemptTimeout {f : Nat} {meets : Option FetchEnd} : Runs s (execFetchAttemptTimeout f meets s) := by
  unfold execFetchAttemptTimeout
  refine runs_next ?_
  split
  · exact .refl _
  · split
    · exact .refl _
    · split
      · exact keeps_attemptExpires
      · split
        rename_i t e
        have ht : Keeps s t := keeps_arbitrate.snd_eq e
        split
        · exact ht.trans keeps_fetchEnds
        · extract_lets u v
          have hu : Keeps s u := (ht.trans (keeps_bump64 _ _)).trans (keeps_bump _)
          have hv : Keeps s v := hu.trans keeps_attemptExpires
          split
          · split
            · exact hv.trans keeps_goneFetch
            · exact hv
          · exact hu.trans keeps_attemptExpires

theorem runs_execNvmeAbortCompletion {f : Nat} : Runs s (execNvmeAbortCompletion f s) := by
  unfold execNvmeAbortCompletion
  refine runs_next ?_
  split
  · exact keeps_when keeps_attemptOver
  · exact .refl _

theorem runs_execNvmeAbortTimeout {f : Nat} : Runs s (execNvmeAbortTimeout f s) := by
  unfold execNvmeAbortTimeout
  refine runs_next ?_
  split
  · exact keeps_unless <| keeps_driveUnusable.trans keeps_containLink
  · exact .refl _

theorem runs_execFetchIssue {d : Fin 4} {r : SourceRead} : Runs s (execFetchIssue d r s) := by
  refine runs_next (keeps_unless <| ?_)
  extract_lets xs
  split
  · rename_i t e
    have h : KeepsSome s id (some t) := e ▸ keepsSome_findSome fun _ => keepsSome_ite keeps_readIndex keepsSome_none
    exact h t rfl
  · split
    · rename_i t e
      have h : KeepsSome s id (some t) := e ▸ keepsSome_findSome fun _ => keepsSome_bind_of fun _ => keeps_readList
      exact h t rfl
    · split
      · rename_i t e
        have h : KeepsSome s id (some t) := e ▸ keepsSome_findSome fun _ => keeps_unstall
        exact h t rfl
      · exact keeps_getD (keepsSome_findSome fun _ => keeps_issuePiece) (.refl _)

/-! ### Machine/Issue.lean -/

theorem keeps_issueEpoch {q : Fin 64} {r : SourceRead} : Keeps s (issueEpoch s q r) := by
  unfold issueEpoch
  split
  · exact .refl _
  · extract_lets _ _ _ _ t
    have ht : Keeps s t := keeps_setEpoch _ _
    split
    · exact .refl _
    · split
      · split
        split
        · exact .refl _
        · split
          · exact .refl _
          · exact ht.same
      · exact .refl _

theorem keeps_issueCalibration {c : Nat} {r : SourceRead} : Keeps s (issueCalibration s c r) := by
  unfold issueCalibration
  split
  · exact .refl _
  · extract_lets _ _ t
    have ht : Keeps s t := keeps_setCal
    split
    · split
      · exact .refl _
      · split
        · exact keeps_setCal
        · split
          · exact keeps_setCal
          · split
            · exact keeps_setCal
            · split
              · exact .refl _
              · exact ht.same
    · exact .refl _

theorem runs_execPositionIssue {i : IssueFrom} {r : SourceRead} : Runs s (execPositionIssue i r s) := by
  unfold execPositionIssue
  refine runs_next ?_
  split
  · exact .refl _
  · split
    · exact keeps_issueEpoch
    · exact keeps_issueCalibration

theorem keeps_storeCopies {p n : Nat} {ds : List Nat} : Keeps s (storeCopies s p n ds).1 := by
  induction ds generalizing s with
  | nil => exact .refl _
  | cons d ds ih =>
    unfold storeCopies
    split
    · rename_i t _ e
      have ht : Keeps s t := keeps_allocObject _ e
      exact (ht.trans keeps_markWritten).trans ih
    · exact ih

theorem keeps_rebuildCopy {p n d : Nat} {copies : List (Nat × List Nat)} : KeepsSome s Prod.fst
    (rebuildCopy s p n d copies) := by
  unfold rebuildCopy
  split
  · exact keepsSome_none
  · refine keepsSome_bind_of fun _ => ?_
    split
    · exact keepsSome_none
    · split
      · exact keepsSome_none
      · rename_i t e
        have ht : Keeps s t := keeps_soundObject.fst_eq e
        split
        · rename_i u _ e1
          have hu : Keeps s u := (ht.trans keeps_storeCopies).fst_eq e1
          exact keepsSome_some hu
        · exact keepsSome_none

theorem keeps_refetchCopies {d : Nat} : Keeps s (refetchCopies s d) := by
  unfold refetchCopies
  extract_lets t
  have ht : Keeps s t := by
    unfold t
    refine keeps_foldl fun u m => ?_
    split
    · rename_i v _ e
      have hv : Keeps u v := keeps_rebuildCopy _ e
      exact hv.same
    · exact .refl _
  refine ht.trans (keeps_foldl fun u m => ?_)
  split
  · rename_i v _ e
    have hv : Keeps u v := keeps_rebuildCopy _ e
    exact hv.same
  · exact .refl _

theorem keeps_refetchAll : Keeps s (refetchAll s) := keeps_foldl fun _ _ => keeps_refetchCopies

theorem keeps_startSample {x : Sample} {d : Nat} : KeepsSome s id (startSample s x d) := by
  unfold startSample
  split
  · exact keepsSome_none
  · exact keepsSome_ite (keepsSome_some (keeps_setSample _ _)) (keepsSome_map keeps_allocMany (fun _ => keeps_setSample _ _))

theorem keeps_startFor {x : Sample} {g d : Nat} : KeepsSome s id (startFor s x g d) :=
  keepsSome_ite (keepsSome_some (.refl _)) (keepsSome_ite keeps_startSample keepsSome_none)

theorem keeps_assignEncoder {p : Nat} : KeepsSome s id (assignEncoder s p) := by
  refine keepsSome_findSome fun (tag, l) => ?_
  dsimp only
  cases encoderPlace s p (leAt l 0 4) (leAt l 4 6) (32 * leAt l 12 4) with
  | none => exact keepsSome_none
  | some tn => exact keepsSome_some keeps_rfl

theorem keeps_lanesTaken {x : Sample} {t : Nat} : Keeps s (lanesTaken s x t) := by
  unfold lanesTaken
  split
  · exact keeps_unless <| keeps_setCal
  · exact .refl _

theorem keeps_openedBy {x : Sample} : Keeps s (openedBy s x) := by
  unfold openedBy
  split
  · exact keeps_finishOpen
  · exact .refl _

theorem keeps_assignJob {p : Nat} : KeepsSome s id (assignJob s p) := by
  unfold assignJob
  refine keepsSome_findSome fun _ => ?_
  split
  · split
    · exact keepsSome_none
    · exact keepsSome_map keeps_startFor
          (fun _ => keeps_openedBy.trans (keeps_lanesTaken.trans (((keeps_rfl).trans (keeps_setSample _ _)).trans
          (keeps_when (keeps_setSample _ _)))))
  · exact keepsSome_none

theorem keeps_noteWaits : Keeps s (noteWaits s) :=
  keeps_foldl fun _ _ => keeps_unless <| (keeps_setSample _ _).trans keeps_poolWait

theorem keeps_assignIn {p : Nat} : KeepsSome s id (assignIn s p) := keepsSome_or keeps_assignEncoder keeps_assignJob

theorem runs_execThreadAssign : Runs s (execThreadAssign s) := by
  refine runs_next (keeps_unless <| ?_)
  extract_lets t ps
  have ht : Keeps s t := keeps_refetchAll.trans keeps_noteWaits
  cases ps with
  | nil => exact ht
  | cons p l => exact keeps_getD (keeps_assignIn.after ht) ht

/-! ### Machine/Dma.lean -/

theorem runs_execBalloc {x : Orony} : Runs s (execBalloc x s) := by
  unfold execBalloc
  refine runs_next (keeps_issueScalar (fun t t1 => ?_))
  extract_lets _ _ u
  have hu : Keeps t u := keeps_poolWait
  split
  · exact keeps_pfault
  · split
    · exact .refl _
    · dsimp only
      split
      · rename_i v _ e
        have hv : Keeps t v := (keepsSome_ite keeps_allocLarge keeps_alloc) _ e
        exact hv.trans keeps_takeBuffer
      · exact hu.same.trans (keeps_setThread _ _)

theorem runs_execBref {x : Orony} : Runs s (execBref x s) := by
  unfold execBref
  refine runs_next (keeps_issueScalar (fun t t1 => ?_))
  extract_lets _ u v
  have hu : Keeps t u := keeps_setBuf _ _
  have hv : Keeps t v := hu.trans (keeps_setSample _ _)
  split
  · exact keeps_pfault
  · split
    · exact keeps_pfault
    · exact keeps_ite (fun _ => keeps_pfault) fun _ => hv.trans (keeps_setThread _ _)

theorem keeps_release1 {t : Thread} {h : Nat} : Keeps s (release1 s t h) := by
  unfold release1
  split
  · exact .refl _
  · extract_lets drop
    have hdrop : ∀ e t, Keeps t (drop e t) := fun e t =>
      ((keeps_setSample _ _).trans keeps_dropRef).trans (keeps_unless <| keeps_setSample _ _)
    refine keeps_ite (fun _ => hdrop _ _) fun _ => keeps_ite (fun _ => hdrop _ _) fun _ => ?_
    split
    · extract_lets u v
      have hu : Keeps s u := keeps_setRec
      have hv : Keeps s v := hu.same
      exact keeps_ite (fun _ => hv) fun _ => hv.trans keeps_dropRef
    · split
      · exact hdrop _ _
      · exact .refl _

theorem runs_execBfree {x : Orony} : Runs s (execBfree x s) :=
  runs_next (keeps_issueScalar (fun _ _ => keeps_ite (fun _ => keeps_pfault) fun _ => keeps_release1.trans
      (keeps_setThread _ _)))

theorem keeps_noteFail {sample h : Nat} : Keeps s (noteFail s sample h) := by
  unfold noteFail
  split
  · exact keeps_when (keeps_setSample _ _)
  · exact .refl _

theorem keeps_drdNow {th : ThreadRef} {h off ts n : Nat} : Keeps s (drdNow s th h off ts n).1 := by
  unfold drdNow
  split
  · exact .refl _
  · exact keeps_ite_fst keeps_noteFail
        (keeps_readLines.trans
        (keeps_ite_fst keeps_sampleUe (keeps_crossed.trans ((keeps_setThread _ _).trans (keeps_tileEvent _ _ _)))))

theorem runs_execDrd {x : Orony} : Runs s (execDrd x s) := by
  unfold execDrd
  refine runs_next (keeps_issueScalar (fun t t1 => ?_))
  dsimp only
  split
  · exact keeps_pfault
  · split
    · exact keeps_setThread _ _
    · split
      · split
        · rename_i u _ e
          have hu : Keeps t u := keeps_drdNow.fst_eq e
          exact (keeps_ite (fun _ => hu.trans (keeps_setSample _ _)) fun _ => hu).trans (keeps_takeTicket (fun _ _ => .refl _))
        · rename_i e
          exact keeps_drdNow.fst_eq e
      · exact keeps_takeTicket (fun _ _ => .refl _)

theorem keeps_dwrNow {th : ThreadRef} {h off ts n : Nat} : Keeps s (dwrNow s th h off ts n).1 := by
  unfold dwrNow
  split
  · exact .refl _
  · exact keeps_mergeLine.trans (keeps_ite_fst keeps_sampleUe ((keeps_crossed.trans keeps_bufWrite).trans
        (keeps_tileEvent _ _ _)))

theorem runs_execDwr {x : Orony} : Runs s (execDwr x s) := by
  unfold execDwr
  refine runs_next (keeps_issueScalar (fun t t1 => ?_))
  dsimp only
  split
  · exact keeps_pfault
  · split
    · exact keeps_setThread _ _
    · split
      · split
        · rename_i u e
          have hu : Keeps t u := keeps_dwrNow.fst_eq e
          exact hu.trans (keeps_takeTicket (fun _ _ => .refl _))
        · rename_i e
          exact keeps_dwrNow.fst_eq e
      · exact keeps_takeTicket (fun _ _ => .refl _)

theorem keeps_stage {h off : Nat} {l : List Byte} : Keeps s (stage s h off l) := by
  unfold stage
  split
  · exact .refl _
  · extract_lets t
    have ht : Keeps s t := by
      unfold t
      refine keeps_foldl fun u g => ?_
      dsimp only
      split
      · exact keeps_countLines.trans (keeps_setBuf _ _)
      · exact .refl _
    exact ht.trans (keeps_setSample _ _)

theorem keeps_doutNow {th : ThreadRef} {off ts n : Nat} : Keeps s (doutNow s th off ts n).1 := by
  unfold doutNow
  split
  · exact .refl _
  · exact keeps_mergeObject.trans (keeps_ite_fst keeps_sampleUe ((keeps_crossed.trans keeps_stage).trans
        (keeps_tileEvent _ _ _)))

theorem runs_execDout {x : Orony} : Runs s (execDout x s) := by
  unfold execDout
  refine runs_next (keeps_issueScalar (fun t t1 => ?_))
  dsimp only
  split
  · exact keeps_pfault
  · split
    · exact keeps_setThread _ _
    · split
      · split
        · rename_i u e
          have hu : Keeps t u := keeps_doutNow.fst_eq e
          exact hu.trans (keeps_takeTicket (fun _ _ => .refl _))
        · rename_i e
          exact keeps_doutNow.fst_eq e
      · exact keeps_takeTicket (fun _ _ => .refl _)

theorem keeps_nameRec {h g recno : Nat} : Keeps s (nameRec s h g recno) := keeps_setRec

theorem keeps_giveBuffer {x : Sample} {r : Rec} : KeepsSome s id (giveBuffer s x r) := by
  unfold giveBuffer
  split
  · exact keepsSome_some (.refl _)
  · split
    · rename_i t _ e
      have ht : Keeps s t := keeps_recBuffer.fst_eq e
      exact keepsSome_some (keeps_ite (fun _ => ht.trans (keeps_setBuf _ _)) fun _ => ht)
    · exact keepsSome_none

theorem keeps_giveBuffers {x : Sample} {l : List Rec} : KeepsSome s id (giveBuffers s x l) := by
  induction l generalizing s with
  | nil => exact keepsSome_some (.refl _)
  | cons r l ih => exact keepsSome_bind keeps_giveBuffer fun _ => ih

theorem keeps_didxNow {th : ThreadRef} {first n ts : Nat} : Keeps s (didxNow s th first n ts).1 := by
  unfold didxNow
  split
  · exact .refl _
  · split
    · exact keeps_setSample _ _
    · split
      · exact .refl _
      · split
        · exact .refl _
        · extract_lets _ t
          have ht : Keeps s t := keeps_foldl fun _ _ => keeps_nameRec
          split
          · exact ht
          · split
            · exact ht
            · rename_i u e
              have hu : Keeps s u := (keeps_giveBuffers.after ht) _ e
              exact (hu.trans (keeps_setThread _ _)).trans (keeps_tileEvent _ _ _)

theorem runs_execDidx {x : Orony} : Runs s (execDidx x s) := by
  unfold execDidx
  refine runs_next (keeps_issueScalar (fun t t1 => ?_))
  dsimp only
  split
  · exact keeps_pfault
  · exact keeps_takeTicket (fun _ _ => .refl _)

theorem keeps_openResult {th : ThreadRef} {d k : Nat} {l : List Nat} : Keeps s (openResult s th d k l) := keeps_setThread _ _

theorem keeps_waitReg {t : Thread} {a d st : Nat} : Keeps s (waitReg s t a d st) :=
  keeps_ite (fun _ => keeps_openResult) fun _ => keeps_waitTicket

theorem runs_execDwait {x : Orony} : Runs s (execDwait x s) :=
  runs_next (keeps_issueScalar (fun _ _ => keeps_ite (fun _ => keeps_waitTicket) fun _ => keeps_waitReg))

/-! ### Machine/System.lean -/

theorem runs_execBwait {x : Orony} : Runs s (execBwait x s) :=
  runs_next (keeps_issueScalar (fun _ _ => keeps_ite (fun _ => keeps_setThread _ _) fun _ => keeps_setThread _ _))

theorem runs_execBpub {x : Orony} : Runs s (execBpub x s) :=
  runs_next (keeps_issueScalar (fun _ _ => keeps_ite (fun _ => keeps_pfault) fun _ => keeps_ite (fun _ => keeps_setThread _ _)
      fun _ => keeps_bpubNow))

theorem runs_execOronyNop {x : Orony} : Runs s (execOronyNop x s) :=
  runs_next (keeps_issueScalar (fun _ _ => keeps_setThread _ _))

theorem runs_execYield {x : Orony} : Runs s (execYield x s) := runs_next (keeps_issueScalar (fun _ _ => keeps_setThread _ _))

theorem runs_execTrap {x : Orony} : Runs s (execTrap x s) := runs_next (keeps_issueScalar (fun _ _ => keeps_pfault))

theorem runs_execRdsr {x : Orony} : Runs s (execRdsr x s) := by
  unfold execRdsr
  refine runs_next (keeps_issueScalar (fun t t1 => ?_))
  split
  · exact keeps_setThread _ _
  · exact keeps_openResult

theorem runs_execRegrd {x : Orony} : Runs s (execRegrd x s) := by
  unfold execRegrd
  refine runs_next (keeps_issueScalar (fun t t1 => ?_))
  dsimp only
  split
  · exact keeps_setThread _ _
  · exact (keeps_bump _).trans keeps_openResult

theorem runs_execRegwr {x : Orony} : Runs s (execRegwr x s) := by
  unfold execRegwr
  refine runs_next (keeps_issueScalar (fun t t1 => ?_))
  extract_lets _ _ u
  have hu : Keeps t u := keeps_setThread _ _
  split
  · exact hu.trans keeps_writeReg
  · exact hu.trans keeps_writeReg
  · exact hu
  · exact hu.trans (keeps_bump _)

theorem keeps_hostMove {x : Orony} {k : Nat → Nat → Nat → Nat → TransferKind} {write : Bool} {t : Thread} :
    Keeps s (hostMove s x k write t) := by
  unfold hostMove
  dsimp only
  split
  · exact keeps_pfault
  · exact keeps_takeTicket (fun _ _ => keeps_fresh.trans keeps_rfl)

theorem runs_execHmrd {x : Orony} : Runs s (execHmrd x s) := runs_next (keeps_issueScalar (fun _ _ => keeps_hostMove))

theorem runs_execHmwr {x : Orony} : Runs s (execHmwr x s) := runs_next (keeps_issueScalar (fun _ _ => keeps_hostMove))

theorem runs_execKick {x : Orony} : Runs s (execKick x s) :=
  runs_next (keeps_issueScalar (fun _ _ => (keeps_setDie _ _).trans (keeps_setThread _ _)))

/-! ### Machine/Vector.lean -/

theorem keeps_vectorOp {op : Nat} {f : Thread → Nat → Word} {x : Orony} : Keeps s (vectorOp op f x s) :=
  keeps_issue (fun _ _ => keeps_setThread _ _)

theorem keeps_intOp {op : Nat} {f : Nat → Nat → Nat → Nat} {x : Orony} : Keeps s (intOp op f x s) := keeps_vectorOp

theorem runs_execVadd {x : Orony} : Runs s (execVadd x s) := runs_next keeps_intOp

theorem runs_execVsub {x : Orony} : Runs s (execVsub x s) := runs_next keeps_intOp

theorem runs_execVadds {x : Orony} : Runs s (execVadds x s) := runs_next keeps_intOp

theorem runs_execVaddus {x : Orony} : Runs s (execVaddus x s) := runs_next keeps_intOp

theorem runs_execVmul {x : Orony} : Runs s (execVmul x s) := runs_next keeps_intOp

theorem runs_execVmulhu {x : Orony} : Runs s (execVmulhu x s) := runs_next keeps_intOp

theorem runs_execVmin {x : Orony} : Runs s (execVmin x s) := runs_next keeps_intOp

theorem runs_execVmax {x : Orony} : Runs s (execVmax x s) := runs_next keeps_intOp

theorem runs_execVminu {x : Orony} : Runs s (execVminu x s) := runs_next keeps_intOp

theorem runs_execVmaxu {x : Orony} : Runs s (execVmaxu x s) := runs_next keeps_intOp

theorem runs_execVand {x : Orony} : Runs s (execVand x s) := runs_next keeps_intOp

theorem runs_execVor {x : Orony} : Runs s (execVor x s) := runs_next keeps_intOp

theorem runs_execVxor {x : Orony} : Runs s (execVxor x s) := runs_next keeps_intOp

theorem runs_execVshl {x : Orony} : Runs s (execVshl x s) := runs_next keeps_intOp

theorem runs_execVshr {x : Orony} : Runs s (execVshr x s) := runs_next keeps_intOp

theorem runs_execVsra {x : Orony} : Runs s (execVsra x s) := runs_next keeps_intOp

theorem keeps_compareOp {op : Nat} {c : Word → Word → Bool} {x : Orony} : Keeps s (compareOp op c x s) :=
  keeps_issue (fun _ _ => keeps_setThread _ _)

theorem runs_execVceq {x : Orony} : Runs s (execVceq x s) := runs_next keeps_compareOp

theorem runs_execVclt {x : Orony} : Runs s (execVclt x s) := runs_next keeps_compareOp

theorem runs_execVcltu {x : Orony} : Runs s (execVcltu x s) := runs_next keeps_compareOp

theorem runs_execVsel {x : Orony} : Runs s (execVsel x s) := runs_next keeps_vectorOp

theorem runs_execVbc {x : Orony} : Runs s (execVbc x s) := runs_next keeps_vectorOp

theorem runs_execVext {x : Orony} : Runs s (execVext x s) := runs_next (keeps_issue (fun _ _ => keeps_setThread _ _))

theorem runs_execVins {x : Orony} : Runs s (execVins x s) := runs_next (keeps_issue (fun _ _ => keeps_setThread _ _))

theorem runs_execVrsum {x : Orony} : Runs s (execVrsum x s) := runs_next (keeps_issue (fun _ _ => keeps_setThread _ _))

theorem runs_execVfadd {x : Orony} : Runs s (execVfadd x s) := runs_next keeps_vectorOp

theorem runs_execVfmul {x : Orony} : Runs s (execVfmul x s) := runs_next keeps_vectorOp

theorem runs_execVfma {x : Orony} : Runs s (execVfma x s) := runs_next keeps_vectorOp

theorem runs_execVcvtif {x : Orony} : Runs s (execVcvtif x s) := runs_next keeps_vectorOp

theorem runs_execVcvtfi {x : Orony} : Runs s (execVcvtfi x s) := runs_next keeps_vectorOp

/-! ### Machine/TileStore.lean -/

theorem keeps_withLoad {th : ThreadRef} {r : Access} {f : State → List Byte → State} (hf : ∀ s x, Keeps s (f s x)) :
    Keeps s (withLoad s th r f) := by
  unfold withLoad
  split
  · exact keeps_pfault
  · exact keeps_setThread _ _
  · exact hf _ _

theorem runs_execLds {x : Orony} : Runs s (execLds x s) :=
  runs_next (keeps_issueScalar (fun _ _ => keeps_withLoad (fun _ _ => keeps_setThread _ _)))

theorem runs_execSts {x : Orony} : Runs s (execSts x s) :=
  runs_next (keeps_issueScalar (fun _ _ => keeps_withLoad (fun _ _ => keeps_spaceWrite.trans (keeps_setThread _ _))))

theorem runs_execLdv {x : Orony} : Runs s (execLdv x s) := by
  unfold execLdv
  refine runs_next (keeps_issue (fun t t1 => ?_))
  split
  · exact .refl _
  · exact keeps_withLoad (fun _ _ => keeps_setThread _ _)

theorem runs_execStv {x : Orony} : Runs s (execStv x s) := by
  unfold execStv
  refine runs_next (keeps_issue (fun t t1 => ?_))
  split
  · exact .refl _
  · exact keeps_withLoad (fun _ _ => keeps_setThread _ _)

theorem runs_execLdvg {x : Orony} : Runs s (execLdvg x s) := by
  unfold execLdvg
  refine runs_next (keeps_issue (fun t t1 => ?_))
  split
  · exact .refl _
  · exact keeps_withLoad (fun _ _ => keeps_setThread _ _)

theorem runs_execStvx {x : Orony} : Runs s (execStvx x s) := by
  unfold execStvx
  refine runs_next (keeps_issue (fun t t1 => ?_))
  split
  · exact .refl _
  · exact keeps_withLoad (fun _ _ => keeps_setThread _ _)

/-! ### Machine/Lattice.lean -/

theorem keeps_latRun {th : ThreadRef} {kind blk : Nat} : LatKeeps s (latRun s th kind blk) := by
  unfold latRun
  split
  · exact .range
  · dsimp only
    split
    · exact .range
    · split
      · exact .range
      · exact .wait
      · exact .done ((keeps_setThread _ _).trans (keeps_tileEvent _ _ _))

theorem keeps_latOp {kind : Nat} {x : Orony} : Keeps s (latOp kind x s) := by
  unfold latOp
  refine keeps_issueScalar fun t t1 => ?_
  extract_lets _ later
  have hl : Keeps t later := (keeps_rfl).trans (keeps_takeTicket fun _ _ => .refl _)
  split
  · exact keeps_pfault
  · split
    · exact keeps_setThread _ _
    · split
      · rename_i v e
        have hv : Keeps t v := keeps_latRun.of_done e
        exact keeps_ite (fun _ => hl) fun _ => hv.trans (keeps_takeTicket fun _ _ => .refl _)
      · exact keeps_takeTicket fun _ _ => .refl _
      · exact hl

theorem runs_execLmma {x : Orony} : Runs s (execLmma x s) := runs_next keeps_latOp

theorem runs_execLact {x : Orony} : Runs s (execLact x s) := runs_next keeps_latOp

theorem runs_execLcvt {x : Orony} : Runs s (execLcvt x s) := runs_next keeps_latOp

theorem keeps_settleTicket {th : ThreadRef} {n status : Nat} : Keeps s (settleTicket s th n status) := keeps_setThread _ _

theorem keeps_lredFinish {g : LredGroup} : Keeps s (lredFinish s g) :=
  (keeps_foldl fun _ _ => (keeps_setThread _ _).trans keeps_settleTicket).trans keeps_rfl

theorem keeps_lredTry {g : LredGroup} : Keeps s (lredTry s g) := keeps_when keeps_lredFinish

theorem keeps_lredJoin {t : Thread} {num blk : Nat} : Keeps s (lredJoin s t num blk) := by
  unfold lredJoin
  extract_lets _ _ _ _ _ _ u
  have hu : Keeps s u := keeps_rfl
  split
  · exact keeps_settleTicket
  · split
    · exact hu.trans keeps_lredTry
    · exact keeps_ite (fun _ => keeps_settleTicket) fun _ =>
          keeps_ite (fun _ => (keeps_foldl fun _ _ => keeps_settleTicket).trans keeps_rfl) fun _ => (keeps_rfl).trans
          keeps_lredTry

theorem runs_execLred {x : Orony} : Runs s (execLred x s) := by
  unfold execLred
  refine runs_next (keeps_issueScalar (fun t t1 => ?_))
  dsimp only
  split
  · exact keeps_pfault
  · exact keeps_ite (fun _ => keeps_takeTicket (fun _ _ => .refl _)) fun _ =>
        keeps_ite (fun _ => (keeps_rfl).trans (keeps_takeTicket (fun _ _ => .refl _))) fun _ => keeps_takeTicket
        (fun _ _ => keeps_lredJoin)

theorem keeps_lredTaken {t : Thread} {num blk : Nat} : Keeps s (lredTaken s t num blk) :=
  (keeps_setThread _ _).trans keeps_lredJoin

theorem runs_execLwait {x : Orony} : Runs s (execLwait x s) := runs_next (keeps_issueScalar (fun _ _ => keeps_waitReg))

theorem keeps_withPurpose {t : Thread} {a : Nat} {f : State → State} (hf : ∀ s, Keeps s (f s)) :
    Keeps s (withPurpose s t a f) :=
  keeps_ite (fun _ => hf _) fun _ => keeps_pfault

theorem runs_execCbg {x : Orony} : Runs s (execCbg x s) :=
  runs_next (keeps_issueScalar (fun _ _ => keeps_withPurpose (fun _ => keeps_setThread _ _)))

theorem runs_execVcbg {x : Orony} : Runs s (execVcbg x s) :=
  runs_next (keeps_issueScalar (fun _ _ => keeps_withPurpose (fun _ => keeps_setThread _ _)))

theorem runs_execUwait {x : Orony} : Runs s (execUwait x s) := runs_next (keeps_issueScalar (fun _ _ => keeps_waitReg))

/-! ### Machine/Entropy.lean -/

theorem keeps_keepCause {h status cause : Nat} : Keeps s (keepCause s h status cause) :=
  keeps_when (keeps_setSample _ _)

theorem keeps_unitIssue {op : Nat} {x : Orony} {defer : Nat → State → UnitOp × State} {run : State → Nat → UnitOut}
    (hdefer : ∀ b s, Keeps s (defer b s).2) (hrun : ∀ s b, UnitKeeps s (run s b)) :
    Keeps s (unitIssue s op x defer run) := by
  unfold unitIssue
  refine keeps_issueScalar fun t t1 => ?_
  dsimp only
  split
  · exact keeps_pfault
  · split
    · exact keeps_setThread _ _
    · split
      · rename_i u _ _ e
        have hu : Keeps t u := (hrun _ _).of_done e
        exact (hu.trans keeps_keepCause).trans (keeps_takeTicket fun _ _ => .refl _)
      · rename_i u e
        exact (hrun _ _).of_gone e
      · rename_i u e
        have hu : Keeps t u := (hrun _ _).of_wait e
        exact (hu.trans (hdefer _ _)).trans (keeps_takeTicket fun _ _ => .refl _)

theorem keeps_setCtx {h c : Nat} {f : Ctx → Ctx} : Keeps s (setCtx s h c f) := keeps_setSample _ _

theorem keeps_ctxBuf {h g c n : Nat} : KeepsSome s Prod.fst (ctxBuf s h g c n) := by
  unfold ctxBuf
  split
  · exact keepsSome_none
  · split
    split
    · exact keepsSome_some (.refl _)
    · dsimp only
      split
      · rename_i t _ e
        have ht : Keeps s t := (keepsSome_ite keeps_allocLarge keeps_alloc) _ e
        exact keepsSome_some (ht.trans (keeps_setSample _ _))
      · exact keepsSome_none

theorem keeps_ctxDrop {h c : Nat} {l : List Nat} : Keeps s (ctxDrop s h c l) :=
  keeps_foldl fun _ _ => (keeps_setSample _ _).trans keeps_dropRef

theorem keeps_takePics {h : Nat} {c : Ctx} {w : AuWork} {l : List FreshPic} :
    KeepsSome s Prod.fst (takePics s h c w l) := by
  induction l generalizing s with
  | nil => exact keepsSome_some (.refl _)
  | cons p l ih =>
    unfold takePics
    refine keepsSome_bind ?_ fun _ => keepsSome_map ih fun _ => .refl _
    split
    · exact keepsSome_some (.refl _)
    · exact keeps_ctxBuf

theorem keeps_drawPics {c : Ctx} {before : Nat} : Keeps s (drawPics s c before) := by
  unfold drawPics
  refine keeps_foldl fun t z => ?_
  dsimp only
  split
  · exact keeps_bufWrite
  · exact .refl _

theorem keeps_outputPic {h g tag c : Nat} : Keeps s (outputPic s h g tag c).1 := by
  unfold outputPic
  split
  · exact .refl _
  · split
    · exact .refl _
    · split
      · exact keeps_setCtx
      · exact keeps_setCtx.trans ((keeps_unless <| keeps_setBuf _ _).trans ((keeps_bump64 _ _).trans (keeps_setSample _ _)))

theorem keeps_dropPics {h c : Nat} : Keeps s (dropPics s h c) := by
  unfold dropPics
  split
  · exact .refl _
  · exact keeps_ctxDrop.trans keeps_setCtx

theorem keeps_writeRecords {t : Thread} {blk : Nat} {l : List Byte} {auCause eu rp : Nat} :
    Keeps s (writeRecords s t blk l auCause eu rp).1 := by
  unfold writeRecords
  extract_lets _ _ r u v
  have hr : Keeps s r.1 := keeps_foldl_fst fun _ _ => keeps_outputPic.trans (keeps_setThread _ _)
  have hv : Keeps s v := (hr.trans keeps_dropPics).trans (keeps_setThread _ _)
  clear_value v
  split
  · exact hv
  · exact hv

theorem keeps_openWith {h g ctx : Nat} {opts : List Nat} {cfg : Option (List Byte)} {st cause : Nat} :
    UnitKeeps s (openWith s h g ctx opts cfg st cause) := by
  unfold openWith
  split
  · exact .done (.refl _)
  · split
    · exact .wait keeps_poolWait
    · rename_i t e
      have ht : Keeps s t := keeps_ctxBuf _ e
      exact .done ht
    · rename_i t _ e
      have ht : Keeps s t := keeps_ctxBuf _ e
      exact .done (ht.trans (keeps_setSample _ _))

theorem keeps_ctxOpen {t : Thread} {x : Sample} {l : List Byte} : UnitKeeps s (ctxOpen s t x l) := by
  unfold ctxOpen
  extract_lets h
  split
  rename_i u _ e
  have hu : Keeps s u := (keeps_ite_fst (.refl _) keeps_readLines).fst_eq e
  split
  extract_lets
  split
  · exact .gone (hu.trans keeps_sampleUe)
  · split
    · exact .done (hu.trans keeps_noteFail)
    · exact keeps_openWith.after hu

theorem runAu_error {th : ThreadRef} {h : Nat} {c : Ctx} {au : Config.Au} (e : runAu s th h c au = .error t) : Keeps s t := by
  unfold runAu at e
  dsimp only at e
  split at e
  · cases e
    exact keeps_poolWait
  · split at e
    · cases e
      exact .refl _
    · cases e

theorem runAu_ok {th : ThreadRef} {h : Nat} {c : Ctx} {au : Config.Au} {r : AuWork × Nat}
    (e : runAu s th h c au = .ok (t, r)) : Keeps s t := by
  unfold runAu at e
  dsimp only at e
  split at e
  · cases e
  · rename_i u _ eu
    have hu : Keeps s u := keeps_takePics _ eu
    split at e
    · cases e
    · cases e
      refine (((Keeps.trans ?_ (keeps_bump64 _ _)).trans (keeps_tileEvent _ _ _)).trans (keeps_tileEvent _ _ _)).trans
        (keeps_tileEvent _ _ _)
      exact (hu.trans keeps_setCtx).trans keeps_drawPics

theorem keeps_decodeAu {t : Thread} {x : Sample} {c : Ctx} {blk : Nat} {l : List Byte} :
    UnitKeeps s (decodeAu s t x c blk l) := by
  unfold decodeAu
  extract_lets h n
  split
  rename_i u _ eu
  have hu : Keeps s u := (keeps_ite_fst (.refl _) keeps_readLines).fst_eq eu
  split
  extract_lets
  split
  · exact .gone (hu.trans keeps_sampleUe)
  · split
    · rename_i v ev
      exact .wait (hu.trans (runAu_error ev))
    · rename_i v _ _ ev
      have hv : Keeps s v := hu.trans (runAu_ok ev)
      split
      rename_i w _ _ ew
      have hw : Keeps s w := (hv.trans keeps_writeRecords).fst_eq ew
      split
      · exact .done (hw.trans keeps_noteFail)
      · split
        · exact .done hw
        · exact .done hw

theorem keeps_flushOut {h : Nat} {c : Ctx} : Keeps s (flushOut s h c) := keeps_setCtx

theorem keeps_flushCtx {t : Thread} {x : Sample} {c : Ctx} {blk : Nat} {l : List Byte} : UnitKeeps s (flushCtx s t x c blk l) :=
  UnitKeeps.after (.done (.refl _)) (keeps_flushOut.trans keeps_writeRecords)

theorem keeps_closeCtx {x : Sample} {c : Ctx} : Keeps s (closeCtx s x c) := keeps_ctxDrop.trans (keeps_setSample _ _)

theorem keeps_euRun {th : ThreadRef} {blk n : Nat} : UnitKeeps s (euRun s th blk n) := by
  unfold euRun
  split
  · exact .gone (.refl _)
  · split
    · exact .gone (.refl _)
    · dsimp only
      split
      · exact .wait (.refl _)
      · split
        · exact .done (.refl _)
        · split
          · exact .wait (.refl _)
          · split
            · exact keeps_ctxOpen
            · split
              · exact .done (.refl _)
              · split
                · exact keeps_decodeAu
                · split
                  · exact keeps_flushCtx
                  · exact .done keeps_closeCtx

theorem keeps_euIssue {func : Nat} {x : Orony} : Keeps s (euIssue s func x) := by
  unfold euIssue
  split
  · exact .refl _
  · refine keeps_unless <| keeps_unitIssue ?_ fun _ _ => .wait (.refl _)
    exact fun _ _ => keeps_rfl

theorem runs_execCtxOpen {x : Orony} : Runs s (execCtxOpen x s) := runs_next keeps_euIssue

theorem runs_execDecodeAu {x : Orony} : Runs s (execDecodeAu x s) := runs_next keeps_euIssue

theorem runs_execFlush {x : Orony} : Runs s (execFlush x s) := runs_next keeps_euIssue

theorem runs_execCtxClose {x : Orony} : Runs s (execCtxClose x s) := runs_next keeps_euIssue

theorem runs_execRp {x : Orony} : Runs s (execRp x s) :=
  runs_next (keeps_unitIssue (fun _ _ => .refl _) (fun _ _ => .done (.refl _)))

/-! ### Machine/Image.lean -/

theorem keeps_iuWrite {t : Thread} {l : List Byte} {p : PicIn} {aux : List Byte} : Keeps s (iuWrite s t l p aux) :=
  keeps_bufWrite.trans ((keeps_setThread _ _).trans (keeps_tileEvent _ _ _))

theorem keeps_iuRun {th : ThreadRef} {blk n : Nat} : UnitKeeps s (iuRun s th blk n) := by
  unfold iuRun
  split
  · exact .gone (.refl _)
  · extract_lets l b p aux reads whole marked ended
    clear_value marked ended
    split
    · exact .wait (.refl _)
    · split
      · exact .done (.refl _)
      · split
        · exact .wait (.refl _)
        · split
          rename_i t _ e
          have ht : Keeps s t := keeps_readLines.fst_eq e
          split
          rename_i u _ e1
          have hu : Keeps s u := (keeps_ite_fst (ht.trans keeps_readLines) ht).fst_eq e1
          split
          rename_i v _ e2
          have hv : Keeps s v := (keeps_ite_fst hu (hu.trans keeps_mergeLine)).fst_eq e2
          split
          · exact .gone (hv.trans keeps_sampleUe)
          · split
            · exact .done (hv.trans keeps_noteFail)
            · split
              · exact .done (hv.trans keeps_iuWrite)
              · exact .done (hv.trans keeps_iuWrite)

theorem keeps_iuIssue {func : Nat} {x : Orony} : Keeps s (iuIssue s func x) := by
  unfold iuIssue
  split
  · exact .refl _
  · refine keeps_unless <| keeps_unitIssue ?_ fun _ _ => .wait (.refl _)
    exact fun _ _ => keeps_rfl

theorem runs_execResample {x : Orony} : Runs s (execResample x s) := runs_next keeps_iuIssue

theorem runs_execWarp {x : Orony} : Runs s (execWarp x s) := runs_next keeps_iuIssue

theorem runs_execColour {x : Orony} : Runs s (execColour x s) := runs_next keeps_iuIssue

theorem runs_execBlur {x : Orony} : Runs s (execBlur x s) := runs_next keeps_iuIssue

theorem runs_execBlend {x : Orony} : Runs s (execBlend x s) := runs_next keeps_iuIssue

/-! ### Machine/Encode.lean -/

theorem keeps_readChunk {m : Model} {d c : Nat} : Keeps s (readChunk s m d c).1 := by
  unfold readChunk
  split
  · exact .refl _
  · exact keeps_foldl_fst fun _ _ => keeps_readObject

theorem keeps_soundCopy {m : Model} {c : Nat} {ds : List Nat} : Keeps s (soundCopy s m c ds).1 := by
  induction ds generalizing s with
  | nil => exact .refl _
  | cons d ds ih =>
    unfold soundCopy
    split
    · split
      · rename_i t e
        exact keeps_readChunk.fst_eq e
      · rename_i t e
        have ht : Keeps s t := keeps_readChunk.fst_eq e
        exact ht.trans ih
    · exact ih

theorem keeps_setDeferred {th : ThreadRef} {n : Nat} {op : Option UnitOp} {status : Nat} :
    Keeps s (setDeferred s th n op status) :=
  keeps_setThread _ _

theorem runs_execChunkFetch {d : Fin 4} {model : Nat} : Runs s (execChunkFetch d model s) := by
  refine runs_next ?_
  split
  · exact .refl _
  · extract_lets
    split
    · exact .refl _
    · split
      · exact .refl _
      · rename_i c _
        extract_lets buf clusters busy land
        have hland : ∀ t, Keeps t (land t) := fun t => keeps_rfl
        split
        · exact .refl _
        · split
          · rename_i t e
            exact (keeps_readChunk.fst_eq e).trans (hland t)
          · rename_i t e
            have ht : Keeps s t := keeps_readChunk.fst_eq e
            split
            · exact ht
            · split
              · rename_i u e1
                have hu : Keeps s u := (ht.trans keeps_soundCopy).fst_eq e1
                split
                · exact (hu.trans (keeps_foldl fun _ _ => keeps_repairLines)).trans (hland _)
                · exact hu
              · rename_i u e1
                have hu : Keeps s u := (ht.trans keeps_soundCopy).fst_eq e1
                exact hu.trans (keeps_foldl fun _ _ => keeps_setDeferred)

theorem keeps_claimBy {cluster model buf : Nat} {js : List LayerJob} : Keeps s (claimBy s cluster model buf js) := keeps_rfl

theorem runs_execChunkReady {cluster : Fin 24} {model : Nat} {buf : Fin 2} : Runs s (execChunkReady cluster model buf s) :=
  runs_next (keeps_unless <| (keeps_rfl).trans (keeps_claimBy.trans keeps_setThreadsIf))

theorem runs_execLandingBufferRelease {cluster : Fin 24} {model : Nat} {buf : Fin 2} :
    Runs s (execLandingBufferRelease cluster model buf s) := by
  unfold execLandingBufferRelease
  refine runs_next ?_
  split
  · exact .refl _
  · split
    · exact .refl _
    · extract_lets t
      have ht : Keeps s t := by
        unfold t
        refine keeps_foldl fun u e => ?_
        split
        · split
          · exact keeps_setDeferred
          · exact .refl _
        · exact .refl _
      exact ht.same

theorem keeps_layerWrite {th : ThreadRef} {blk : Nat} : Keeps s (layerWrite s th blk).1 := by
  unfold layerWrite
  split
  · exact .refl _
  · dsimp only
    split
    · exact .refl _
    · exact keeps_ite_fst (.refl _) ((keeps_setThread _ _).trans (keeps_tileEvent _ _ _))

theorem keeps_layerIssue {x : Orony} : Keeps s (layerIssue x s) := by
  unfold layerIssue
  refine keeps_issueScalar fun t t1 => ?_
  extract_lets _ l b
  split
  · exact keeps_pfault
  · split
    · exact keeps_takeTicket fun _ _ => .refl _
    · extract_lets
      refine keeps_takeTicket fun u n => ?_
      split
      · exact keeps_claimBy
      · exact .refl _

theorem runs_execLayer {x : Orony} : Runs s (execLayer x s) := by
  unfold execLayer
  refine runs_next ?_
  split
  · exact .refl _
  · exact keeps_unless <| keeps_layerIssue

theorem keeps_selectRun {th : ThreadRef} {blk : Nat} : UnitKeeps s (selectRun s th blk) := by
  unfold selectRun
  split
  · exact .gone (.refl _)
  · dsimp only
    split
    · exact .gone (.refl _)
    · split
      · exact .done (.refl _)
      · exact .done (keeps_setThread _ _)

theorem runs_execSelect {x : Orony} : Runs s (execSelect x s) := by
  unfold execSelect
  refine runs_next ?_
  split
  · exact .refl _
  · exact keeps_unless <| keeps_unitIssue (fun _ _ => .refl _) (fun _ _ => keeps_selectRun)

theorem keeps_duCount {u dict nbytes : Nat} {ts : List Token} : Keeps s (duCount s u dict nbytes ts) :=
  (keeps_setFld _ _ _ _).trans
      ((keeps_bump64 _ _).trans ((keeps_bump64 _ _).trans ((keeps_bumpBy _ _).trans ((keeps_bumpBy _ _).trans (keeps_bump _)))))

theorem keeps_dictSound {d die : Nat} {m : Dict} : Keeps s (dictSound s d die m).1 := keeps_ite_fst keeps_soundObject (.refl _)

theorem keeps_duBuffer {x : Sample} {d h n : Nat} : Keeps s (duBuffer s x d h n).1 :=
  keeps_ite_fst (.refl _) (keeps_ite_fst keeps_noteFail (keeps_readLines.trans (keeps_ite_fst (.refl _) (.refl _))))

theorem keeps_caption {x : Sample} {die : Nat} : Keeps s (caption s x die).1 := by
  unfold caption
  split
  · exact .refl _
  · split
    · exact .refl _
    · split
      · exact (keeps_setSample _ _).trans (keeps_ite_fst (.refl _) (.refl _))
      · split
        · exact .refl _
        · split
          · exact keeps_duBuffer
          · exact .refl _

theorem keeps_duSend {t : Thread} {blk : Nat} : Keeps s (duSend s t blk).2 := by
  unfold duSend
  extract_lets _ _ u
  have hu : Keeps s u := keeps_rfl
  split
  · split
    · exact hu.trans keeps_caption
    · exact hu
  · exact hu

/-- The state in a dictionary unit's input keeps what s has. -/
inductive DuKeeps (s : State) : DuInput → Prop
  | ready {l : List Byte} {st c : Nat} : DuKeeps s (.ready l st c)
  | wait {t : State} (h : Keeps s t) : DuKeeps s (.wait t)
  | lost {t : State} (h : Keeps s t) : DuKeeps s (.lost t)

theorem DuKeeps.of_wait {i : DuInput} (h : DuKeeps s i) (e : i = .wait t) : Keeps s t := by
  subst e; cases h; assumption

theorem DuKeeps.of_lost {i : DuInput} (h : DuKeeps s i) (e : i = .lost t) : Keeps s t := by
  subst e; cases h; assumption

theorem duKeeps_duBuffer {x : Sample} {d h n : Nat} : DuKeeps s (duBuffer s x d h n).2 := by
  unfold duBuffer
  split
  · exact .wait (.refl _)
  · extract_lets o
    split
    · exact .ready
    · split
      rename_i t _ e
      split
      · exact .lost (keeps_readLines.fst_eq e)
      · exact .ready

theorem duKeeps_caption {x : Sample} {die : Nat} : DuKeeps s (caption s x die).2 := by
  unfold caption
  split
  · exact .ready
  · split
    · exact .ready
    · split
      · dsimp only
        split
        · exact .ready
        · exact .wait (keeps_setSample _ _)
      · split
        · exact .ready
        · split
          · exact duKeeps_duBuffer
          · exact .wait (.refl _)

theorem duKeeps_duInput {x : Sample} {die : Nat} {l : List Byte} : DuKeeps s (duInput s x die l).2 := by
  unfold duInput
  split
  · exact duKeeps_caption
  · exact duKeeps_duBuffer

theorem keeps_duInput {x : Sample} {die : Nat} {l : List Byte} : Keeps s (duInput s x die l).1 :=
  keeps_ite_fst keeps_caption keeps_duBuffer

theorem keeps_duRun {th : ThreadRef} {blk unit seq : Nat} : UnitKeeps s (duRun s th blk unit seq) := by
  unfold duRun
  split
  · exact .gone (.refl _)
  · split
    · exact .wait (.refl _)
    · extract_lets
      split
      · split
        · exact .done (.refl _)
        · split
          rename_i t i e
          have ht : Keeps s t := keeps_duInput.fst_eq e
          have hi : DuKeeps s i := by
            have h : DuKeeps s (t, i).2 := e ▸ duKeeps_duInput
            exact h
          split
          · exact .wait (hi.of_wait rfl)
          · exact .wait ht
          · exact .gone ((hi.of_lost rfl).trans keeps_sampleUe)
          · extract_lets
            split
            · exact .wait ht
            · split
              · rename_i u eu
                exact .done ((ht.trans keeps_dictSound).fst_eq eu)
              · rename_i u eu
                have hu : Keeps s u := (ht.trans keeps_dictSound).fst_eq eu
                split
                · rename_i v ev
                  exact .gone (((hu.trans keeps_mergeLine).fst_eq ev).trans keeps_sampleUe)
                · rename_i v ev
                  have hv : Keeps s v := (hu.trans keeps_mergeLine).fst_eq ev
                  extract_lets w t1 u1
                  have hw : Keeps s w := hv.trans keeps_bufWrite
                  have ht1 : Keeps s t1 := hw.trans (keeps_setThread _ _)
                  have hu1 : Keeps s u1 := (ht1.trans keeps_duCount).trans keeps_countTurn
                  split
                  · exact .done (hu1.trans (keeps_setSample _ _))
                  · exact .done hu1
      · exact .done (.refl _)

theorem runs_execTokenise {x : Orony} : Runs s (execTokenise x s) := by
  unfold execTokenise
  refine runs_next ?_
  split
  · exact .refl _
  · exact keeps_unitIssue (fun _ _ => keeps_duSend) (fun _ _ => .wait (.refl _))

/-! ### Machine/Tickets.lean -/

theorem keeps_settleUnit {th : ThreadRef} {n : Nat} {o : UnitOut} (h : UnitKeeps s o) : Keeps s (settleUnit th n o) := by
  cases h with
  | done h => exact h.trans keeps_endTicket
  | wait h => exact h
  | gone h => exact h

theorem keeps_settleEu {th : ThreadRef} {n func : Nat} {o : UnitOut} (h : UnitKeeps s o) :
    Keeps s (settleEu th n func o) := by
  cases h with
  | done h => exact keeps_ite (fun _ => (h.trans keeps_endTicket).trans keeps_markFrame) fun _ => h.trans keeps_endTicket
  | wait h => exact h
  | gone h => exact h

theorem keeps_finishLayer {th : ThreadRef} {n blk model : Nat} {need : List Nat} :
    Keeps s (finishLayer s th n blk model need) :=
  keeps_when (keeps_layerWrite.trans ((keeps_rfl).trans keeps_endTicket))

theorem runs_execTicketComplete {th : ThreadRef} {ticket : Nat} : Runs s (execTicketComplete th ticket s) := by
  refine runs_next ?_
  split
  · exact .refl _
  · split
    · exact .refl _
    · split
      · exact (keeps_setSample _ _).trans keeps_endTicket
      · refine keeps_unless <| ?_
        split
        · rename_i t _ e
          exact (keeps_drdNow.fst_eq e).trans keeps_endTicket
        · rename_i t e
          exact keeps_drdNow.fst_eq e
      · refine keeps_unless <| ?_
        split
        · rename_i t e
          exact (keeps_dwrNow.fst_eq e).trans keeps_endTicket
        · rename_i t e
          exact keeps_dwrNow.fst_eq e
      · refine keeps_unless <| ?_
        split
        · rename_i t e
          exact (keeps_doutNow.fst_eq e).trans keeps_endTicket
        · rename_i t e
          exact keeps_doutNow.fst_eq e
      · split
        · rename_i t _ e
          exact (keeps_didxNow.fst_eq e).trans keeps_endTicket
        · rename_i t e
          exact keeps_didxNow.fst_eq e
      · exact keeps_settleEu keeps_euRun
      · exact keeps_settleUnit keeps_iuRun
      · exact keeps_settleUnit keeps_duRun
      · refine keeps_unless <| keeps_ite (fun _ => keeps_lredTaken) fun _ => ?_
        split
        · rename_i t e
          exact (keeps_latRun.of_done e).trans keeps_endTicket
        · exact keeps_endTicket
        · exact .refl _
      · exact keeps_finishLayer
      · exact .refl _

/-! ### Machine/Loads.lean -/

theorem fitCopies_ok {p charge n : Nat} {l : List (Nat × List Nat)} (e : fitCopies s p charge n = .ok (t, l)) :
    Keeps s t := by
  unfold fitCopies at e
  dsimp only at e
  split at e
  · cases e
  · split at e
    · rename_i u _ eu
      cases e
      exact keeps_storeCopies.fst_eq eu
    · cases e

theorem keeps_keepModel {x : Cmd} {n prog : Nat} {m : Model} : Keeps s (keepModel s x n prog m) := by
  refine keeps_ite (fun _ => keeps_complete _ _) fun _ => keeps_ite (fun _ => keeps_complete _ _) fun _ => ?_
  split
  · exact keeps_complete _ _
  · rename_i t _ e
    have ht : Keeps s t := fitCopies_ok e
    exact Keeps.trans ht.same (keeps_complete _ _)

theorem keeps_checkModel {x : Cmd} {l : List Byte} {id ch : Nat} : Keeps s (checkModel s x l id ch) := by
  unfold checkModel
  split
  · exact keeps_complete _ _
  · split
    · exact keeps_complete _ _
    · split
      · exact keeps_complete _ _
      · split
        · exact keeps_complete _ _
        · exact keeps_keepModel

theorem runs_execModelLoad {c : Nat} : Runs s (execModelLoad c s) :=
  runs_next (keeps_withHost (fun _ _ => keeps_withImage (fun _ _ => keeps_checkModel)))

theorem runs_execModelUnload {c : Nat} : Runs s (execModelUnload c s) := by
  unfold execModelUnload
  refine runs_next (keeps_withCmd (fun t x => ?_))
  dsimp only
  split
  · exact keeps_complete _ _
  · exact keeps_ite (fun _ => keeps_complete _ _) fun _ => (keeps_rfl).trans (keeps_freeBufs.trans (keeps_complete _ _))

theorem keeps_keepDict {x : Cmd} {l : List Byte} {id : Nat} {es : List (List Byte × Nat)} :
    Keeps s (keepDict s x l id es) := by
  refine keeps_ite (fun _ => keeps_complete _ _) fun _ => ?_
  split
  · exact keeps_complete _ _
  · rename_i t _ e
    have ht : Keeps s t := fitCopies_ok e
    exact Keeps.trans ht.same (keeps_complete _ _)

theorem keeps_checkDict {x : Cmd} {l : List Byte} {id : Nat} : Keeps s (checkDict s x l id) := by
  unfold checkDict
  split
  · exact keeps_complete _ _
  · split
    · exact keeps_complete _ _
    · split
      · exact keeps_complete _ _
      · exact keeps_keepDict

theorem runs_execDictLoad {c : Nat} : Runs s (execDictLoad c s) :=
  runs_next (keeps_withHost (fun _ _ => keeps_withImage (fun _ _ => keeps_checkDict)))

theorem runs_execDictUnload {c : Nat} : Runs s (execDictUnload c s) := by
  unfold execDictUnload
  refine runs_next (keeps_withCmd (fun t x => ?_))
  extract_lets _ u
  have hu : Keeps t u := keeps_rfl
  split
  · exact keeps_complete _ _
  · exact keeps_ite (fun _ => keeps_complete _ _) fun _ => (hu.trans keeps_freeBufs).trans (keeps_complete _ _)

/-! ### Machine/Spills.lean -/

theorem keeps_setSpill {x : Spill} {f : Spill → Spill} : Keeps s (setSpill s x f) := keeps_rfl

theorem keeps_reserveCopies {p n k : Nat} {l : List (Nat × List Nat)} : Keeps s (reserveCopies s p n k l).1 := by
  induction k generalizing s l with
  | zero => exact .refl _
  | succ k ih =>
    unfold reserveCopies
    split
    · rename_i t _ _ e
      have ht : Keeps s t := keeps_placeCopy _ e
      exact ht.trans ih
    · exact .refl _

theorem runs_execSpill {c : Nat} : Runs s (execSpill c s) := by
  refine runs_next (keeps_withCmd fun s x => ?_)
  extract_lets
  split
  · exact keeps_complete _ _
  · split
    · exact keeps_complete _ _
    · split
      · exact keeps_complete _ _
      · split
        rename_i t l e
        have ht : Keeps s t := keeps_reserveCopies.fst_eq e
        split
        · exact keeps_complete _ _
        · split
          rename_i i u eu
          have hu : Keeps s u := (ht.trans keeps_fresh).snd_eq eu
          exact Keeps.trans hu.same (keeps_startCmd _)

theorem keeps_shrinkCopy {p n d : Nat} {hs : List Nat} : Keeps s (shrinkCopy s p n d hs).1 := by
  unfold shrinkCopy
  split
  · rename_i r e
    exact (keeps_allocObject.after keeps_freeBufs) _ e
  · exact keeps_freeBufs

theorem keeps_shrinkCopies {p n : Nat} {l : List (Nat × List Nat)} : Keeps s (shrinkCopies s p n l).1 := by
  induction l generalizing s with
  | nil => exact .refl _
  | cons b l ih => exact (keeps_shrinkCopy.trans keeps_markWritten).trans ih

theorem keeps_endSpill {t : Transfer} {x : Cmd} {l : List Byte} : Keeps s (endSpill s t x l) := by
  unfold endSpill
  extract_lets _ _ u
  have hu : Keeps s u := keeps_rfl
  split
  · exact hu
  · exact (hu.trans keeps_shrinkCopies).trans ((keeps_foldl fun _ _ => keeps_crossed).trans
        ((keeps_rfl).trans ((keeps_complete _ _).trans keeps_engineBytes)))

theorem keeps_runSpill {t : Transfer} {x : Cmd} : Keeps s (runSpill s t x) := by
  unfold runSpill
  split
  · rename_i u _ e
    have hu : Keeps s u := keeps_readIn.fst_eq e
    exact hu.trans keeps_endSpill
  · rename_i u _ e
    have hu : Keeps s u := keeps_readIn.fst_eq e
    exact (hu.same.trans keeps_freeBufs).trans ((keeps_complete _ _).trans keeps_engineBytes)

theorem keeps_spillSource {k slot gen : Nat} : Keeps s (spillSource k s slot gen).1 := by
  induction k generalizing s with
  | zero => exact .refl _
  | succ k ih =>
    unfold spillSource
    split
    · exact .refl _
    · split
      · exact .refl _
      · split
        rename_i t _ e
        have ht : Keeps s t := by
          refine Keeps.fst_eq (keeps_foldl_fst ?_) e
          exact fun _ _ => keeps_ite_fst (.refl _) keeps_readLines
        exact keeps_ite_fst ((ht.trans keeps_loseSpillCopy).trans ih) ht

theorem runs_execRestore {c : Nat} : Runs s (execRestore c s) := by
  unfold execRestore
  refine runs_next (keeps_withCmd (fun t x => ?_))
  split
  · exact keeps_complete _ _
  · exact keeps_ite (fun _ => keeps_complete _ _) fun _ => keeps_ite (fun _ => keeps_complete _ _) fun _ => keeps_fresh.trans
        ((keeps_rfl).trans (keeps_startCmd _))

theorem keeps_runRestore {t : Transfer} {x : Cmd} : Keeps s (runRestore s t x) := by
  unfold runRestore
  extract_lets drop
  have hdrop : ∀ u, Keeps u (drop u) := fun u => keeps_rfl
  split
  · exact (hdrop _).trans (keeps_complete _ _)
  · split
    · rename_i u e
      have hu : Keeps s u := keeps_spillSource.fst_eq e
      exact (hu.trans (hdrop _)).trans (keeps_complete _ _)
    · rename_i u y e
      have hu : Keeps s u := keeps_spillSource.fst_eq e
      extract_lets v
      have hv : Keeps s v := by
        unfold v
        cases (y.copies.find? fun c => !c.rebuilding).map (·.die) with
        | none => exact hu
        | some d => exact hu.trans keeps_crossed
      clear_value v
      split
      · rename_i w ew
        have hw : Keeps s w := (hv.trans keeps_writeOut).fst_eq ew
        exact ((hw.trans (hdrop _)).trans (keeps_complete _ _)).trans keeps_engineBytes
      · rename_i w _ ew
        have hw : Keeps s w := (hv.trans keeps_writeOut).fst_eq ew
        exact ((hw.trans (hdrop _)).trans (keeps_complete _ _)).trans keeps_engineBytes

theorem keeps_restoreSome {t : Transfer} {x : Cmd} {n : Nat} {extra : List Nat} : Keeps s (restoreSome s t x n extra) := by
  unfold restoreSome
  split
  · exact keeps_foldl fun _ _ => keeps_unless <| keeps_pieceWrite
  · exact .refl _

theorem runs_execSpillFree {c : Nat} : Runs s (execSpillFree c s) := by
  unfold execSpillFree
  refine runs_next (keeps_withCmd (fun t x => ?_))
  split
  · exact keeps_complete _ _
  · exact keeps_setSpill.trans (keeps_startCmd _)

theorem runs_execSpillFreeDrained {c : Nat} : Runs s (execSpillFreeDrained c s) :=
  runs_next (keeps_withStarted (fun _ _ => keeps_unless <| ((keeps_rfl).trans keeps_freeAfter).trans (keeps_complete _ _)))

theorem runs_execSpillCopyRebuildEnd {slot : Nat} : Runs s (execSpillCopyRebuildEnd slot s) := by
  unfold execSpillCopyRebuildEnd
  refine runs_next ?_
  split
  · exact .refl _
  · split
    · exact .refl _
    · exact (keeps_foldl fun _ _ => keeps_markWritten).trans keeps_setSpill

theorem keeps_remirror : Keeps s (remirror s) := by
  unfold remirror
  refine keeps_foldl fun t y => ?_
  split
  · rename_i u _ _ e
    have hu : Keeps t u := keeps_placeCopy _ e
    exact hu.trans keeps_setSpill
  · exact .refl _

/-! ### Machine/Transfers.lean -/

theorem keeps_dropTransfer {t : Transfer} : Keeps s (dropTransfer s t) := keeps_rfl

theorem keeps_setTransfer {n : Nat} {f : Transfer → Transfer} : Keeps s (setTransfer s n f) := keeps_rfl

theorem keeps_runCopyCmd {t : Transfer} {x : Cmd} : Keeps s (runCopyCmd s t x) := by
  unfold runCopyCmd
  split
  · rename_i u e
    have hu : Keeps s u := keeps_runCopy.fst_eq e
    exact ((hu.trans keeps_dropTransfer).trans (keeps_complete _ _)).trans keeps_engineBytes
  · rename_i u _ e
    have hu : Keeps s u := keeps_runCopy.fst_eq e
    exact ((hu.trans keeps_dropTransfer).trans (keeps_complete _ _)).trans keeps_engineBytes

theorem keeps_runHostRead {t : Transfer} {th : ThreadRef} {ticket ts addr n : Nat} :
    Keeps s (runHostRead s t th ticket ts addr n) := by
  unfold runHostRead
  dsimp only
  split
  · rename_i u _ e
    have hu : Keeps s u := keeps_readIn.fst_eq e
    exact ((hu.trans keeps_dropTransfer).trans keeps_spaceWrite).trans keeps_endTicket
  · rename_i u _ e
    have hu : Keeps s u := keeps_readIn.fst_eq e
    exact ((hu.trans keeps_dropTransfer).trans keeps_spaceWrite).trans keeps_endTicket

theorem keeps_runHostWrite {t : Transfer} {th : ThreadRef} {ticket ts addr n : Nat} :
    Keeps s (runHostWrite s t th ticket ts addr n) := by
  unfold runHostWrite
  split
  · exact keeps_dropTransfer
  · split
    · rename_i u e
      have hu : Keeps s u := keeps_writeOut.fst_eq e
      exact (hu.trans keeps_dropTransfer).trans keeps_endTicket
    · rename_i u _ e
      have hu : Keeps s u := keeps_writeOut.fst_eq e
      exact (hu.trans keeps_dropTransfer).trans keeps_endTicket

theorem keeps_runTransfer {t : Transfer} : Keeps s (runTransfer s t) := by
  unfold runTransfer
  split
  · exact keeps_endPlacement
  · exact keeps_runHostRead
  · exact keeps_runHostWrite
  · exact keeps_runSpill
  · exact keeps_runRestore
  · exact keeps_runCopyCmd
  · exact keeps_runCopyCmd
  · exact keeps_runCopyCmd
  · exact keeps_runCopyCmd
  · exact keeps_dropTransfer

theorem keeps_countEngine {t : Transfer} : Keeps s (countEngine s t) := by
  unfold countEngine
  split
  · exact .refl _
  · exact keeps_countTurn

theorem runs_execTransferComplete {x : Nat} : Runs s (execTransferComplete x s) := by
  unfold execTransferComplete
  refine runs_next ?_
  split
  · exact keeps_when (keeps_countEngine.trans keeps_runTransfer)
  · exact .refl _

theorem keeps_moveSome {t : Transfer} {n : Nat} {extra : List Nat} : Keeps s (moveSome s t n extra) := by
  unfold moveSome
  split
  · exact keeps_placeSome
  · split
    · exact .refl _
    · exact keeps_foldl fun _ _ => keeps_unless <| keeps_pieceWrite
  · split
    · exact keeps_setTransfer
    · exact .refl _
  · split
    · exact keeps_setTransfer
    · exact .refl _
  · exact keeps_restoreSome
  · exact keeps_copySome
  · exact .refl _

theorem keeps_endUnresolved {t : Transfer} {e : Nat} : Keeps s (endUnresolved s t e) := by
  unfold endUnresolved
  split
  · exact keeps_endPlacement
  · exact (keeps_dropTransfer.trans keeps_spaceWrite).trans keeps_endTicket
  · exact keeps_dropTransfer.trans keeps_endTicket
  · exact ((keeps_dropTransfer.trans keeps_freeBufs).trans (keeps_complete _ _)).trans keeps_engineBytes
  · exact keeps_dropTransfer

theorem keeps_faultTransfer {t : Transfer} {a : AtsAnswer} : Keeps s (faultTransfer s t a) := by
  unfold faultTransfer
  split
  · exact .refl _
  · extract_lets _ _ u _ _ v
    have hu : Keeps s u := keeps_moveSome
    have hv : Keeps s v := hu.trans keeps_setTransfer
    split
    · exact .refl _
    · split
      · exact hv
      · exact keeps_ite (fun _ => hv.trans keeps_setTransfer) fun _ => hv.trans keeps_endUnresolved

theorem keeps_faultFetch {f : Fetch} {a : AtsAnswer} : Keeps s (faultFetch s f a) := by
  unfold faultFetch
  split
  · exact .refl _
  · split
    · exact .refl _
    · exact keeps_unless <| keeps_setFetch.trans (keeps_ite (fun _ => keeps_setFetch) fun _ => keeps_fetchEnds)

theorem keeps_setHalt {h : ReadHalt} : Keeps s (setHalt s h) := keeps_rfl

theorem keeps_endRead {x : Cmd} {k e : Nat} : Keeps s (endRead s x k e) := (keeps_rfl).trans (keeps_complete _ _)

theorem keeps_faultRead {x : Cmd} {a : AtsAnswer} : Keeps s (faultRead s x a) := by
  unfold faultRead
  dsimp only
  split
  · exact .refl _
  · exact keeps_unless <| keeps_ite (fun _ => keeps_setHalt) fun _ => keeps_endRead

theorem runs_execAtsTranslationCompletion {x : Nat} {a : AtsAnswer} : Runs s (execAtsTranslationCompletion x a s) := by
  unfold execAtsTranslationCompletion
  refine runs_next ?_
  split
  · exact .refl _
  · split
    · exact keeps_unless <| keeps_faultTransfer
    · exact keeps_unless <| keeps_faultFetch
    · split
      · exact keeps_unless <| keeps_faultRead
      · exact .refl _

theorem keeps_pageAnswer {x : Nat} {ok : Bool} : Keeps s (pageAnswer s x ok) := by
  unfold pageAnswer
  split
  · exact keeps_unless <| keeps_ite (fun _ => keeps_setTransfer) fun _ => keeps_endUnresolved
  · exact keeps_unless <| keeps_ite (fun _ => keeps_setFetch) fun _ => keeps_fetchEnds
  · split
    · exact keeps_unless <| keeps_ite (fun _ => keeps_setHalt) fun _ => keeps_endRead
    · exact .refl _

theorem runs_execPageRequestResponse {x : Nat} {ok : Bool} : Runs s (execPageRequestResponse x ok s) :=
  runs_next (keeps_when keeps_pageAnswer)

theorem runs_execPageRequestTimeout {x : Nat} : Runs s (execPageRequestTimeout x s) :=
  runs_next (keeps_when keeps_pageAnswer)

theorem runs_execAtsInvalidation {fn : Fin 16} {port : Fin 8} {lo hi : Nat} : Runs s (execAtsInvalidation fn port lo hi s) :=
  runs_next (keeps_unless <| keeps_fresh.trans keeps_rfl)

theorem runs_execInvalidationCompletion {port : Fin 8} {tag : Nat} : Runs s (execInvalidationCompletion port tag s) := by
  unfold execInvalidationCompletion
  refine runs_next ?_
  split
  · exact keeps_unless <| keeps_rfl
  · exact .refl _

theorem runs_execRetirementRead {port : Fin 8} {p : Fin 16} : Runs s (execRetirementRead port p s) :=
  runs_next (keeps_unless <| keeps_rfl)

theorem runs_execRetirementReadReturn {port : Fin 8} {p : Fin 16} : Runs s (execRetirementReadReturn port p s) := by
  unfold execRetirementReadReturn
  refine runs_next ?_
  split
  · exact .refl _
  · split
    · exact .refl _
    · exact keeps_unless <| (keeps_rfl).trans keeps_freeBufs

theorem runs_execHostLinkDown {port : Fin 8} : Runs s (execHostLinkDown port s) :=
  runs_next (keeps_when keeps_hostDown)

theorem keeps_resumePart {p : Nat} : Keeps s (resumePart s p) := by
  unfold resumePart
  extract_lets old toSec new t
  have hnew : p = 0 → canonical s = true → new < 8 := fun hp hs => by
    obtain ⟨-, -, -, -, -, h0⟩ := canonical_iff.mp hs
    unfold new
    rw [if_pos hp]
    cases e : (List.range 8).find? fun h => s.hpUp.getLsbD h with
    | none => simpa [old, portOf, hp] using h0
    | some i => exact List.mem_range.mp (List.mem_of_find?_eq_some e)
  have ht : Keeps s t := keeps_ite (fun _ => keeps_resend _ _ _) fun _ => keeps_moveTo hnew
  exact (ht.trans (keeps_setPart _ _)).trans (keeps_sendWaiting _)

theorem runs_execHostLinkUp {port : Fin 8} : Runs s (execHostLinkUp port s) := by
  refine runs_next (keeps_unless <| ?_)
  extract_lets t u
  have ht : Keeps s t := keeps_rfl
  have hu : Keeps s u := keeps_ite (fun _ => ht) fun _ => ht.trans (keeps_port0 fun _ => port.isLt)
  exact hu.trans (keeps_foldl fun _ _ => keeps_when keeps_resumePart)

theorem runs_execMoveBackToPrimary {p : Fin 16} : Runs s (execMoveBackToPrimary p s) := by
  refine runs_next (keeps_ite (fun h => keeps_moveTo fun hp => ?_) fun _ => .refl _)
  simp [hp] at h

theorem runs_execHostRequestTimeout {port : Fin 8} {x : Nat} : Runs s (execHostRequestTimeout port x s) := by
  refine runs_next (keeps_unless <| keeps_afterExpiry keeps_requestExpiry fun t => ?_)
  split
  · exact keeps_unless <| keeps_endUnresolved
  · exact keeps_unless <| keeps_fetchEnds
  · exact .refl _

theorem runs_execHostPortTraining {links : PortTraining} : Runs s (execHostPortTraining links s) := by
  refine runs_next (keeps_unless <| ?_)
  extract_lets up low _ t failed
  have hlow : low < 8 := by
    unfold low
    cases e : (List.range 8).find? fun h => up.getLsbD h with
    | none => exact Nat.zero_lt_succ 7
    | some i => exact List.mem_range.mp (List.mem_of_find?_eq_some e)
  have ht : Keeps s t := Keeps.same (t := { s with port0 := low }) (keeps_port0 fun _ => hlow)
  exact ht.trans (keeps_foldl fun _ _ => keeps_raise)

/-! ### Machine/Sideband.lean -/

/-- A reset leaves the waiting commands, host memory and the dies' number, and its other fields are those of a new machine. -/
theorem keeps_enterReset : Keeps s (enterReset s) :=
  ⟨rfl, fun hs => by
    rw [canonical_iff] at hs ⊢
    obtain ⟨hm, -, -, -, hd, -⟩ := hs
    exact ⟨hm, rfl, rfl, rfl, (List.length_map _).trans hd, Nat.zero_lt_succ 7⟩⟩

theorem runs_execResetNLow {lowNs : Nat} : Runs s (execResetNLow lowNs s) :=
  runs_next (keeps_onPulse (fun _ => (keeps_rfl).trans keeps_enterReset))

theorem runs_execPwrGoodFall {lowNs : Nat} : Runs s (execPwrGoodFall lowNs s) :=
  runs_next (keeps_onPulse (fun _ => (keeps_rfl).trans keeps_enterReset))

theorem runs_execRefclkLoss : Runs s (execRefclkLoss s) := runs_next ((keeps_rfl).trans keeps_enterReset)

theorem keeps_checkFuses {d : Nat} : Keeps s (checkFuses s d) :=
  keeps_when ((keeps_rfl).trans keeps_raise)

theorem runs_execResetRelease {k : Straps} : Runs s (execResetRelease k s) := by
  unfold execResetRelease
  refine runs_next ?_
  split
  · exact .refl _
  · extract_lets _ _ t u
    have ht : Keeps s t := by
      unfold t
      exact keeps_of_eq rfl rfl rfl rfl rfl (by simp) rfl
    have hu : Keeps s u := ht.trans (keeps_foldl fun _ _ => keeps_drawKeys)
    exact (hu.trans (keeps_foldl fun _ _ => keeps_checkFuses)).trans keeps_thermN

theorem runs_execStepEdge {pin : Fin 4} {highNs : Nat} : Runs s (execStepEdge pin highNs s) :=
  runs_next (keeps_unless <| keeps_onPulse (fun _ => keeps_edgeTaken))

theorem runs_execStepStuck {pin : Fin 4} : Runs s (execStepStuck pin s) :=
  runs_next (keeps_unless <| (keeps_rfl).trans (keeps_raise.trans (keeps_foldl fun _ _ => keeps_postEvent _ _ _)))

theorem keeps_stepLow {pin : Nat} : Keeps s (stepLow pin s) :=
  (keeps_rfl).trans (keeps_when (keeps_foldl fun _ _ => keeps_postEvent _ _ _))

theorem runs_execStepStuckClear {pin : Fin 4} {lowNs : Nat} : Runs s (execStepStuckClear pin lowNs s) :=
  runs_next (keeps_unless <| keeps_onPulse (fun _ => keeps_stepLow))

theorem runs_execAliveToggle : Runs s (execAliveToggle s) := runs_next (keeps_when keeps_rfl)

theorem keeps_smbusReply {sent data : List Byte} : Keeps s (smbusReply s sent data) := keeps_rfl

theorem keeps_smbusNack : Keeps s (smbusNack s) := keeps_rfl

theorem runs_execSmbusIdentity {addr : BitVec 7} : Runs s (execSmbusIdentity addr s) :=
  runs_next (keeps_when keeps_smbusReply)

theorem runs_execSmbusDieIdentity {addr : BitVec 7} {d : DieAsked} : Runs s (execSmbusDieIdentity addr d s) :=
  runs_next (keeps_when keeps_smbusReply)

theorem runs_execSmbusHealth {addr : BitVec 7} : Runs s (execSmbusHealth addr s) :=
  runs_next (keeps_when keeps_smbusReply)

theorem runs_execSmbusRegisterRead {addr : BitVec 7} {block : SmbusBlock} : Runs s (execSmbusRegisterRead addr block s) :=
  runs_next (keeps_unless <| keeps_ite (fun _ => keeps_smbusNack) fun _ => keeps_smbusReply)

theorem runs_execSmbusUnknownCommand {addr : BitVec 7} {code : Byte} : Runs s (execSmbusUnknownCommand addr code s) :=
  runs_next (keeps_when keeps_smbusNack)

theorem runs_execSclLowTimeout {lowMs : Nat} : Runs s (execSclLowTimeout lowMs s) :=
  runs_next (keeps_unless <| keeps_onPulse (fun _ => keeps_rfl))

theorem keeps_loadIr {ir : Byte} {dr pins : Nat} : Keeps s (loadIr s ir dr pins) := keeps_rfl

theorem runs_execTestLogicReset : Runs s (execTestLogicReset s) := runs_next keeps_loadIr

theorem runs_execIdcode : Runs s (execIdcode s) := runs_next keeps_loadIr

theorem runs_execSamplePreload {pins : List Bool} : Runs s (execSamplePreload pins s) := by
  refine runs_next ?_
  extract_lets t
  have ht : Keeps s t := keeps_loadIr
  exact ht.same

theorem runs_execExtest : Runs s (execExtest s) := runs_next keeps_loadIr

theorem runs_execClamp : Runs s (execClamp s) := runs_next keeps_loadIr

theorem runs_execHighz : Runs s (execHighz s) := runs_next keeps_loadIr

theorem runs_execInstr1687 : Runs s (execInstr1687 s) := runs_next keeps_loadIr

theorem runs_execBypass {code : Byte} : Runs s (execBypass code s) :=
  runs_next (keeps_unless <| keeps_loadIr)

/-! ### Machine/Health.lean -/

theorem runs_execQuadrilleRequestTimeout {e : Fin 4} {req : Nat} : Runs s (execQuadrilleRequestTimeout e req s) :=
  runs_next (keeps_unless <| keeps_afterExpiry keeps_requestExpiry fun _ => keeps_raise)

theorem runs_execRouteChangeDrained {src dst : Fin 4} : Runs s (execRouteChangeDrained src dst s) :=
  runs_next (keeps_unless <| (keeps_rfl).trans (keeps_wakeTokens.trans (keeps_foldl fun _ _ => keeps_lredTry)))

theorem runs_execCrossingAccessTimeout {a : CrossingAccess} : Runs s (execCrossingAccessTimeout a s) := by
  unfold execCrossingAccessTimeout
  refine runs_next ?_
  split
  · exact .refl _
  · dsimp only
    split
    · exact keeps_when keeps_smbusReply
    · exact keeps_unless <| keeps_raise
    · split
      · exact keeps_when (keeps_ite (fun _ => keeps_setThread _ _) fun _ => (keeps_setThread _ _).trans keeps_raise)
      · exact .refl _

theorem runs_execHostlinkCrc {port : Fin 8} : Runs s (execHostlinkCrc port s) :=
  runs_next (keeps_unless <| (keeps_when keeps_disarm).trans keeps_raise)

theorem runs_execCsuFault : Runs s (execCsuFault s) := runs_next (keeps_when keeps_raise)

theorem runs_execHandshakeWatchdog {kind index : Nat} : Runs s (execHandshakeWatchdog kind index s) := by
  unfold execHandshakeWatchdog
  refine runs_next ?_
  split
  · exact .refl _
  · exact keeps_unless <| (keeps_when keeps_disarm).trans keeps_raise

theorem keeps_haltMgmt {d : Nat} : Keeps s (haltMgmt s d) := keeps_stopThreads.trans (keeps_setDie _ _)

theorem runs_execFirmwareWatchdog {d : Fin 4} {meetsKick : Bool} : Runs s (execFirmwareWatchdog d meetsKick s) := by
  refine runs_next (keeps_unless <| ?_)
  split
  rename_i kick t e
  have ht : Keeps s t := by
    split at e
    · exact keeps_arbitrate.snd_eq e
    · cases e
      exact .refl _
  refine keeps_ite (fun _ => ht.trans (keeps_setDie _ _)) fun _ => ?_
  refine Keeps.trans (keeps_ite (fun _ => ?_) fun _ => ht) (keeps_haltMgmt.trans keeps_raise)
  exact (ht.trans (keeps_bump64 _ _)).trans (keeps_bump _)

theorem keeps_startMgmt {d : Fin 4} : Keeps s (startMgmt s d) := (keeps_setDie _ _).trans keeps_rfl

theorem keeps_bringUpDie {d : Fin 4} : Keeps s (bringUpDie s d) :=
  (keeps_setDie _ _).trans (keeps_when keeps_startMgmt)

theorem keeps_enableTiles {was : State} : Keeps s (enableTiles was s) :=
  keeps_foldl fun _ _ => keeps_when (keeps_setFld _ _ _ _)

theorem keeps_returnUnit {r : Revival} : Keeps s (returnUnit s r) := by
  unfold returnUnit
  extract_lets t u v w t1 u1
  have ht : Keeps s t := keeps_rfl
  have hu : Keeps s u := ht.trans keeps_markUnreachable
  have hv : Keeps s v := keeps_ite (fun _ => hu.same) fun _ => hu
  have hw : Keeps s w := keeps_ite (fun _ => hv.trans keeps_bringUpDie) fun _ => hv
  have ht1 : Keeps s t1 := (hw.trans keeps_enableTiles).trans keeps_holdRoutes
  have hu1 : Keeps s u1 := keeps_ite (fun _ => (ht1.trans keeps_remirror).trans (keeps_foldl fun _ _ => keeps_refetchCopies))
      fun _ => ht1
  exact keeps_unless <| (hu1.trans keeps_thermN).trans keeps_degradedEvent

theorem runs_execRevivalSelfTestEnd {pass : Bool} : Runs s (execRevivalSelfTestEnd pass s) := by
  unfold execRevivalSelfTestEnd
  refine runs_next ?_
  split
  · exact .refl _
  · exact keeps_unless <| (keeps_when keeps_returnUnit).trans ((keeps_rfl).trans (keeps_setFld _ _ _ _))

/-! ### Machine/Boot.lean -/

theorem runs_execFirmwareImageCheck : Runs s (execFirmwareImageCheck s) := by
  unfold execFirmwareImageCheck
  refine runs_next ?_
  split
  · exact .refl _
  · split
    · exact keeps_rfl
    · exact keeps_readReturned.trans ((keeps_rfl).trans (keeps_foldl fun _ _ => keeps_startMgmt))

theorem keeps_becomeReady : Keeps s (becomeReady s) := (keeps_rfl).trans (keeps_setReg _ _)

theorem keeps_ite_st {c : Prop} [Decidable c] {a b : Applied} (h : Keeps s a.st) (g : Keeps s b.st) :
    Keeps s (if c then a else b).st := by
  split
  · exact h
  · exact g

theorem keeps_applyEntry {a : Applied} {o : Nat} {v : Word} : Keeps a.st (applyEntry a o v).st :=
  keeps_ite_st (.refl _) (keeps_ite_st keeps_writeReg keeps_writeReg)

theorem keeps_applyEntries {a : Applied} {l : List (Nat × Word)} :
    Keeps a.st (l.foldl (fun a e => applyEntry a e.1 e.2) a).st := by
  induction l generalizing a with
  | nil => exact .refl _
  | cons e l ih => exact keeps_applyEntry.trans ih

theorem keeps_applyCopy {l : List Byte} {fromB : Bool} : Keeps s (applyCopy s l fromB) := by
  unfold applyCopy
  extract_lets es _ t r u v
  have ht : Keeps s t := keeps_rfl
  have hr : Keeps s r.st := ht.trans keeps_applyEntries
  have hv : Keeps s v := (hr.trans (keeps_setReg _ _)).trans (keeps_setReg _ _)
  clear_value v
  exact hv.same

theorem keeps_restoreRecord : Keeps s (restoreRecord s) := by
  unfold restoreRecord
  extract_lets _ t
  have ht : Keeps s t := keeps_when keeps_disarm
  split
  split
  exact (ht.trans keeps_readReturned).trans ((keeps_rfl).trans (keeps_ite (fun _ => keeps_raise) fun _ => keeps_applyCopy))

theorem runs_execRecordRestore : Runs s (execRecordRestore s) :=
  runs_next (keeps_unless <| keeps_ite (fun _ => (keeps_rfl).trans keeps_becomeReady) fun _ =>
      keeps_ite (fun _ => (keeps_rfl).trans keeps_becomeReady) fun _ => keeps_unless <| keeps_restoreRecord.trans
      keeps_becomeReady)

theorem runs_execForgetMeNotSave : Runs s (execForgetMeNotSave s) :=
  runs_next (keeps_unless <| keeps_saveRecord)

/-! ### Machine/Cache.lean -/

theorem keeps_evictAll {p n : Nat} : Keeps s (evictAll s p n) := keeps_evictTo

theorem runs_execCacheReserve {c : Nat} : Runs s (execCacheReserve c s) :=
  runs_next (keeps_withCmd (fun _ _ => keeps_ite (fun _ => keeps_complete _ _) fun _ => keeps_ite (fun _ => keeps_complete _ _)
      fun _ => keeps_ite (fun _ => keeps_complete _ _) fun _ => keeps_evictAll.trans
      ((keeps_setPart _ _).trans (keeps_complete _ _))))

theorem runs_execCachePin {c : Nat} : Runs s (execCachePin c s) :=
  runs_next (keeps_withCmd (fun _ _ => keeps_ite (fun _ => keeps_complete _ _) fun _ => keeps_ite (fun _ => keeps_complete _ _)
      fun _ => keeps_ite (fun _ => keeps_complete _ _) fun _ => (keeps_setPart _ _).trans (keeps_complete _ _)))

theorem runs_execCacheUnpin {c : Nat} : Runs s (execCacheUnpin c s) :=
  runs_next (keeps_withCmd (fun _ _ => keeps_ite (fun _ => keeps_complete _ _) fun _ => (keeps_setPart _ _).trans
      (keeps_complete _ _)))

theorem runs_execCacheEvict {c : Nat} : Runs s (execCacheEvict c s) := by
  unfold execCacheEvict
  refine runs_next (keeps_withCmd (fun t x => ?_))
  extract_lets _ u v w
  have hu : Keeps t u := keeps_dropEntries
  have hv : Keeps t v := keeps_dropEntries
  have hw : Keeps t w := by
    unfold w
    split
    · exact hv.trans keeps_dropCopy
    · exact hv
  exact keeps_ite (fun _ => (hu.trans (keeps_foldl fun _ _ => keeps_dropCopy)).trans (keeps_complete _ _)) fun _ =>
      keeps_ite (fun _ => keeps_complete _ _) fun _ => hw.trans (keeps_complete _ _)

theorem runs_execTranscode {c : Nat} : Runs s (execTranscode c s) := by
  unfold execTranscode
  refine runs_next (keeps_withHost (fun t x => ?_))
  extract_lets _ _ _ _ u
  have hu : Keeps t u := keeps_readReturned
  split
  · exact keeps_complete _ _
  · split
    · exact keeps_complete _ _
    · split
      · exact keeps_complete _ _
      · split
        · exact keeps_readReturned.trans (keeps_complete _ _)
        · split
          · exact .refl _
          · exact hu.same.trans (keeps_startCmd _)

theorem keeps_endTranscode {c : Nat} : Keeps s (endTranscode s c) := by
  unfold endTranscode
  extract_lets t
  have ht : Keeps s t := keeps_stopThreads
  exact ht.same

/-- The state in what a read of the input answers keeps what s has. -/
inductive InputKeeps (s : State) : InputRead α → Prop
  | got {i : Input} {a : α} (h : Keeps s i.s) : InputKeeps s (.got i a)
  | wait : InputKeeps s .wait
  | stop {t : State} {r : Result} (h : Keeps s t) : InputKeeps s (.stop t r)

theorem InputKeeps.after {r : InputRead α} (h : InputKeeps t r) (g : Keeps s t) : InputKeeps s r := by
  cases h with
  | got h => exact .got (g.trans h)
  | wait => exact .wait
  | stop h => exact .stop (g.trans h)

theorem InputKeeps.bind {r : InputRead α} {f : Input → α → InputRead β} (h : InputKeeps s r)
    (hf : ∀ i a, InputKeeps i.s (f i a)) : InputKeeps s (r.bind f) := by
  cases h with
  | got h => exact (hf _ _).after h
  | wait => exact .wait
  | stop h => exact .stop h

theorem InputKeeps.of_got {r : InputRead α} {i : Input} {a : α} (h : InputKeeps s r) (e : r = .got i a) : Keeps s i.s := by
  subst e; cases h; assumption

theorem InputKeeps.of_stop {r : InputRead α} {x : Result} (h : InputKeeps s r) (e : r = .stop t x) : Keeps s t := by
  subst e; cases h; assumption

theorem inputKeeps_inputAll {f : Input → α → InputRead β} {i : Input} {l : List α} (hf : ∀ i a, InputKeeps i.s (f i a)) :
    InputKeeps i.s (inputAll f i l) := by
  induction l generalizing i with
  | nil => exact .got (.refl _)
  | cons a l ih => exact (hf i a).bind fun j b => ih.bind fun k bs => .got (.refl _)

theorem inputKeeps_inputRange {p d : Nat} {i : Input} {e : Nat × Nat × Nat} : InputKeeps i.s (inputRange p d i e) := by
  obtain ⟨src, off, len⟩ := e
  unfold inputRange
  dsimp only
  split
  · exact .wait
  · split
    · exact .wait
    · rename_i t l et
      exact .got (keeps_readRange.fst_eq et)
    · rename_i t st c et
      have ht : Keeps i.s t := keeps_readRange.fst_eq et
      split
      · exact .got ht
      · exact .stop ht

theorem inputKeeps_inputRecord {p d : Nat} {i : Input} {r : Rec} : InputKeeps i.s (inputRecord p d i r) := by
  unfold inputRecord
  extract_lets listed
  have hl : InputKeeps i.s listed := by
    unfold listed
    split
    · refine inputKeeps_inputRange.bind fun j l => ?_
      split
      · exact .got (.refl _)
      · exact .got (.refl _)
    · exact .got (.refl _)
  refine hl.bind fun j r => ?_
  split
  · exact .got (.refl _)
  · refine InputKeeps.bind (inputKeeps_inputAll fun _ _ => inputKeeps_inputRange) fun k ls => ?_
    split
    · exact .got (.refl _)
    · dsimp only
      split
      · exact .got (.refl _)
      · exact .got (keeps_foldl fun _ _ => keeps_insertEntry)

theorem inputKeeps_inputAus {p d : Nat} {i : Input} {head : List Byte} : InputKeeps i.s (inputAus p d i head) := by
  unfold inputAus
  extract_lets
  split
  · exact .stop (.refl _)
  · refine inputKeeps_inputRange.bind fun j l => ?_
    split
    · exact .stop (.refl _)
    · extract_lets k
      have hk : Keeps j.s k.s := keeps_insertEntry
      refine InputKeeps.after ?_ hk
      refine InputKeeps.bind (inputKeeps_inputAll fun _ _ => inputKeeps_inputRecord) fun m c => ?_
      exact InputKeeps.bind (inputKeeps_inputAll fun _ _ => inputKeeps_inputRecord) fun o rs => .got (.refl _)

theorem keeps_cacheBufs {p d n : Nat} : KeepsSome s Prod.fst (cacheBufs s p d n) :=
  keepsSome_ite (keepsSome_some (.refl _)) (keepsSome_filter keeps_allocNear)

theorem keeps_placeTranscode {x : Cmd} {r : TranscodeRun} {d : Nat} {data : List Byte} {pics bad : Nat}
    {exact_ : List (List Byte × Bool × List Config.Plane)} :
    Keeps s (placeTranscode s x r d data pics bad exact_) := by
  unfold placeTranscode
  extract_lets put
  have hput : KeepsSome s Prod.fst put := keepsSome_bind keeps_cacheBufs fun _ => keepsSome_map keeps_cacheBufs fun _ => .refl _
  clear_value put
  cases put with
  | none => exact keeps_when keeps_poolWait
  | some y =>
    obtain ⟨t, d, hs, gs⟩ := y
    have ht : Keeps s t := hput _ rfl
    have hm : Keeps s (markWritten (markWritten t data.length hs) r.regen.length gs) :=
      (ht.trans keeps_markWritten).trans keeps_markWritten
    exact (Keeps.trans hm.same keeps_endTranscode).trans (keeps_complete _ _)

theorem keeps_keepTranscode {x : Cmd} {r : TranscodeRun} {d : Nat} {e : EncSet} {pics : List CodedPic} {bad : Nat} :
    Keeps s (keepTranscode s x r d e pics bad) := by
  unfold keepTranscode
  extract_lets _ _ _ _ t
  have ht : Keeps s t := keeps_evictAll
  split
  · exact (ht.trans keeps_endTranscode).trans (keeps_complete _ _)
  · exact ht.trans keeps_placeTranscode

theorem keeps_finishTranscode {x : Cmd} {r : TranscodeRun} {th : ThreadRef} {config : List Byte} {aus : List Config.Au} :
    Keeps s (finishTranscode s x r th config aus) := by
  unfold finishTranscode
  extract_lets _ _ t u
  have ht : Keeps s t := keeps_bump64 _ _
  have hu : Keeps s u := ((ht.trans (keeps_tileEvent _ _ _)).trans (keeps_tileEvent _ _ _)).trans (keeps_tileEvent _ _ _)
  split
  · exact (hu.trans keeps_endTranscode).trans (keeps_complete _ _)
  · split
    · exact (hu.trans keeps_endTranscode).trans (keeps_complete _ _)
    · exact keeps_ite (fun _ => (hu.trans keeps_endTranscode).trans (keeps_complete _ _)) fun _ =>
          keeps_ite (fun _ => (hu.trans keeps_endTranscode).trans (keeps_complete _ _)) fun _ => hu.trans keeps_keepTranscode

theorem runs_execTranscodeDone {c : Nat} {e : TranscodeEnd} : Runs s (execTranscodeDone c e s) := by
  refine runs_next (keeps_withStarted fun t x => ?_)
  split
  · extract_lets fin
    have hfin : ∀ u r, Keeps u (fin u r) := fun u r => keeps_endTranscode.trans (keeps_complete _ _)
    split
    · split
      · rename_i ei
        exact (inputKeeps_inputAus.of_got ei).trans keeps_finishTranscode
      · exact .refl _
      · rename_i ei
        exact (inputKeeps_inputAus.of_stop ei).trans (hfin _ _)
    · exact hfin _ _
    · exact hfin _ _
  · exact .refl _

theorem runs_execTranscodeProgressTimeout {c : Nat} : Runs s (execTranscodeProgressTimeout c s) :=
  runs_next (keeps_withStarted (fun _ _ => ((keeps_rfl).trans keeps_endTranscode).trans (keeps_complete _ _)))

theorem keeps_setCopy {k : CopySource} {f : CopySource → CopySource} : Keeps s (setCopy s k f) := keeps_rfl

theorem keeps_failCopy {k : CopySource} {status : Nat} : Keeps s (failCopy s k status) :=
  (keeps_stopThreads.trans keeps_freeBufs).trans (keeps_dropEntries.trans keeps_setCopy)

theorem keeps_regenerated {k : CopySource} {th : ThreadRef} {config : List Byte} {aus : List Config.Au} :
    Keeps s (regenerated s k th config aus) := by
  unfold regenerated
  dsimp only
  split
  · exact keeps_failCopy
  · split
    · rename_i t _ _ e
      have ht : Keeps s t := keeps_cacheBufs _ e
      exact ((ht.trans keeps_markWritten).trans keeps_freeThread).trans keeps_setCopy
    · exact keeps_when keeps_poolWait

theorem runs_execCopyRegenerationEnd {p : Fin 16} {id : Nat} {r : TranscodeEnd} :
    Runs s (execCopyRegenerationEnd p id r s) := by
  refine runs_next ?_
  split
  · split
    · exact .refl _
    · split
      · split
        · rename_i ei
          exact (inputKeeps_inputAus.of_got ei).trans keeps_regenerated
        · exact .refl _
        · rename_i ei
          exact (inputKeeps_inputAus.of_stop ei).trans keeps_failCopy
      · exact keeps_failCopy
      · exact keeps_failCopy
  · exact .refl _

/-! ### Machine/Templates.lean -/

theorem keeps_tplAll {f : State → α → Tpl β} {l : List α} (hf : ∀ s x, TplKeeps s (f s x)) : TplKeeps s (tplAll f s l) := by
  induction l generalizing s with
  | nil => exact .ok (.refl _)
  | cons a l ih => exact (hf _ _).bind fun _ _ => ih.bind fun _ _ => .ok (.refl _)

theorem keeps_tplLines {r : TplRun} {b n : Nat} : TplKeeps s (tplLines s r b n) := by
  unfold tplLines
  extract_lets o
  split
  · exact .wait
  · split
    · exact .source
    · split
      rename_i t _ e
      have ht : Keeps s t := keeps_readLines.fst_eq e
      split
      · exact .gone (ht.trans keeps_sampleUe)
      · exact .ok ((ht.trans keeps_crossed).trans (keeps_tileEvent _ _ _))

theorem keeps_tplAlloc {r : TplRun} {n : Nat} : TplKeeps s (tplAlloc s r n) := by
  unfold tplAlloc
  split
  · split
    split
    · exact .fault
    · dsimp only
      split
      · rename_i t _ e
        have ht : Keeps s t := (keepsSome_ite keeps_allocLarge keeps_alloc) _ e
        exact .ok (ht.trans (keeps_setSample _ _))
      · exact .full
  · exact .gone (.refl _)

theorem keeps_tplBuffer {r : TplRun} {l : List Byte} : TplKeeps s (tplBuffer s r l) := by
  unfold tplBuffer
  refine keeps_tplAlloc.bind fun t b => ?_
  split
  · exact .wait
  · exact .ok ((keeps_crossed.trans keeps_bufWrite).trans (keeps_tileEvent _ _ _))

theorem keeps_tplRef {r : TplRun} {b : Nat} : Keeps s (tplRef s r b) := by
  unfold tplRef
  split
  · exact .refl _
  · exact keeps_unless <| (keeps_setSample _ _).trans (keeps_setBuf _ _)

theorem keeps_letGo {r : TplRun} {b : Nat} : Keeps s (letGo s r b) := (keeps_setSample _ _).trans keeps_dropRef

theorem keeps_parentList {r : TplRun} : TplKeeps s (parentList s r) := by
  unfold parentList
  split
  · exact .fault
  · split
    · exact .fault
    · exact keeps_tplLines.bind fun _ _ => keeps_tplLines.bind fun _ _ => TplKeeps.bind
          (keeps_tplAll (fun _ _ => keeps_tplLines)) fun _ _ => .ok (.refl _)

theorem keeps_handList {r : TplRun} {l : PicList} {state : Nat} : TplKeeps s (handList s r l state) :=
  keeps_tplBuffer.bind fun _ _ => .ok (keeps_foldl fun _ _ => keeps_tplRef)

theorem keeps_discardPics {r : TplRun} {p : PicRec → Bool} : Keeps s (discardPics s r p) := by
  unfold discardPics
  split
  · exact .refl _
  · exact (keeps_setSample _ _).trans (keeps_foldl fun _ _ => keeps_unless <| keeps_letGo)

theorem keeps_discardEarly {r : TplRun} {d : DecodePlan} : Keeps s (discardEarly s r d) := by
  unfold discardEarly
  split
  · exact keeps_when keeps_discardPics
  · exact (keeps_unless <| keeps_discardPics).trans keeps_discardPics

theorem keeps_outputAll {r : TplRun} {c : Nat} : Keeps s (outputAll s r c) := by
  unfold outputAll
  split
  rename_i t _ e
  have ht : Keeps s t := by
    refine Keeps.fst_eq (keeps_foldl_fst ?_) e
    exact fun _ _ => keeps_outputPic
  split
  · exact ht.trans keeps_keepCause
  · exact ht

theorem keeps_releaseRec {h : Nat} {y : Rec} : Keeps s (releaseRec s h y) := by
  unfold releaseRec
  extract_lets t
  have ht : Keeps s t := keeps_setRec
  split
  · exact ht.trans keeps_dropRef
  · exact ht

theorem keeps_recordData {r : TplRun} {y : Rec} : TplKeeps s (recordData s r y) := by
  unfold recordData
  split
  · exact .later keeps_nameRec
  · split
    · exact .source
    · split
      · split
        · exact .wait
        · exact .ok (.refl _)
      · refine keeps_tplLines.bind fun t x => ?_
        split
        · exact .ok (.refl _)
        · split
          · exact .ok (.refl _)
          · exact .ok (.refl _)
        · exact .source

theorem keeps_openCtx {r : TplRun} {x : Sample} {l : List Byte} {c : Nat} : TplKeeps s (openCtx s r x l c) := by
  unfold openCtx
  extract_lets format opts go
  have hgo : ∀ t cfg used, TplKeeps t (go t cfg used) := fun t cfg used => by
    unfold go
    split
    · rename_i u _ _ e
      have hu : Keeps t u := keeps_openWith.of_done e
      split
      · refine .later ?_
        split
        · exact hu.trans keeps_releaseRec
        · exact hu
      · exact .ok hu
    · rename_i u e
      exact .later (keeps_openWith.of_wait e)
    · rename_i u e
      exact .gone (keeps_openWith.of_gone e)
  split
  · exact hgo s none none
  · exact keeps_recordData.bind fun _ _ => hgo _ _ _

theorem keeps_decodeRec {r : TplRun} {d : DecodePlan} {c : Ctx} {y : Rec} : TplKeeps s (decodeRec s r d c y) := by
  refine keeps_recordData.bind fun t e => ?_
  split
  · exact .wait
  · split
    · split
      · exact .wait
      · exact .full
    · rename_i u _ _ eu
      have hu : Keeps t u := runAu_ok eu
      exact .later ((((hu.trans keeps_outputAll).trans keeps_dropPics).trans keeps_releaseRec).trans keeps_discardEarly)

theorem keeps_finishCtxs {r : TplRun} {d : DecodePlan} {l : List Ctx} : Keeps s (finishCtxs s r d l) := by
  unfold finishCtxs
  refine keeps_foldl fun t c => ?_
  extract_lets u
  have hu : Keeps t u := keeps_flushOut.trans keeps_outputAll
  split
  · exact (hu.trans keeps_closeCtx).trans keeps_discardEarly
  · exact hu

theorem keeps_decodeList {r : TplRun} {x : Sample} {d : DecodePlan} {limit : Nat} : TplKeeps s (decodeList s r x d limit) :=
  TplKeeps.after (keeps_handList.after (keeps_setSample _ _)) keeps_discardPics

theorem keeps_tplDecode {r : TplRun} : TplKeeps s (tplDecode s r) := by
  unfold tplDecode
  split
  · exact .gone (.refl _)
  · split
    · exact .source
    · split
      · exact .wait
      · dsimp only
        split
        · split
          · exact keeps_openCtx
          · split
            · exact keeps_decodeRec
            · exact .fault
        · split
          · exact keeps_decodeList
          · exact .later keeps_finishCtxs

theorem keeps_rawPicture {r : TplRun} {w : RawSet} {y : Rec} {order : Nat} : TplKeeps s (rawPicture s r w y order) := by
  refine keeps_recordData.bind fun t x => ?_
  split
  extract_lets
  split
  · exact .ok (.refl _)
  · exact keeps_tplBuffer.bind fun _ _ => .ok (.refl _)

theorem keeps_tplRaw {r : TplRun} : TplKeeps s (tplRaw s r) := by
  unfold tplRaw
  split
  · exact .gone (.refl _)
  · split
    · exact .source
    · split
      · exact .wait
      · extract_lets _ _ _ _ _ _ _ _ _ t
        have ht : Keeps s t := keeps_setSample _ _
        split
        · exact keeps_rawPicture.bind fun _ _ => TplKeeps.after (.later (keeps_releaseRec.trans (keeps_setSample _ _)))
              (keeps_when keeps_keepCause)
        · exact keeps_handList.after ht

theorem keeps_makePic {r : TplRun} {p : PicIn} {o : OutShape} {px : Nat → Nat → Nat → Nat} : TplKeeps s (makePic s r p o px) :=
  keeps_tplBuffer.bind fun _ _ => .ok (.refl _)

theorem keeps_tplPixels {r : TplRun} {n : Nat} : Keeps s (tplPixels r n s) := keeps_tileEvent _ _ _

theorem keeps_overList {r : TplRun} {l : PicList} {mask : Nat} {f : State → PicIn → Nat → Tpl (List Byte)}
    (hf : ∀ s p n, TplKeeps s (f s p n)) : TplKeeps s (overList s r l mask f) := by
  unfold overList
  extract_lets one
  have hone : ∀ c t e, TplKeeps t (one c t e) := fun c t e => by
    unfold one
    extract_lets
    split
    · exact hf _ _ _
    · exact .ok (.refl _)
  exact TplKeeps.bind (keeps_tplAll (hone 0)) fun _ _ => TplKeeps.bind (keeps_tplAll (hone 1)) fun _ _ => .ok (.refl _)

theorem keeps_mapTemplate {r : TplRun} {mask : Nat} {f : State → PicIn → Nat → Tpl (List Byte)}
    (hf : ∀ s x x2, TplKeeps s (f s x x2)) : TplKeeps s (mapTemplate s r mask f) :=
  keeps_parentList.bind fun _ _ => TplKeeps.bind (keeps_overList (fun _ _ _ => hf _ _ _)) fun _ _ => keeps_handList

theorem keeps_geometryPic {l : List Byte} {r : TplRun} {p : PicIn} {pos : Nat} : TplKeeps s (geometryPic l r s p pos) :=
  keeps_makePic.bind fun _ _ => .ok keeps_tplPixels

theorem keeps_tplGeometry {r : TplRun} : TplKeeps s (tplGeometry s r) := keeps_mapTemplate (fun _ _ _ => keeps_geometryPic)

theorem keeps_colourPic {l : List Byte} {r : TplRun} {p : PicIn} {k : Nat} : TplKeeps s (colourPic l r s p k) := by
  unfold colourPic
  extract_lets
  split
  · exact .ok (.refl _)
  · exact keeps_makePic.bind fun _ _ => .ok keeps_tplPixels

theorem keeps_tplColour {r : TplRun} : TplKeeps s (tplColour s r) := keeps_mapTemplate (fun _ _ _ => keeps_colourPic)

theorem keeps_augSteps {r : TplRun} {made : Bool} {p : PicIn} {ops : List AugOp} : TplKeeps s (augSteps r made s p ops) := by
  induction ops generalizing s made p with
  | nil => exact .ok (.refl _)
  | cons op ops ih =>
    refine keeps_makePic.bind fun t q => ?_
    refine ih.after ?_
    exact keeps_tplPixels.trans (keeps_when keeps_letGo)

theorem keeps_augmentPic {l : List Byte} {r : TplRun} {p : PicIn} {pos : Nat} : TplKeeps s (augmentPic l r s p pos) :=
  keeps_augSteps

theorem keeps_tplAugment {r : TplRun} : TplKeeps s (tplAugment s r) := keeps_mapTemplate (fun _ _ _ => keeps_augmentPic)

theorem keeps_between {r : TplRun} {net : Bool} {p q : PicIn} {w : Nat} : TplKeeps s (between s r net p q w) := by
  unfold between
  dsimp only
  refine keeps_makePic.bind fun t z => .ok ?_
  split
  · exact keeps_tileEvent _ _ _
  · exact keeps_tplPixels

theorem keeps_temporalPic {r : TplRun} {mode : Nat} {l : List (List Byte)} {k q : Nat} :
    TplKeeps s (temporalPic s r mode l k q) := by
  unfold temporalPic
  dsimp only
  split
  · exact .ok (.refl _)
  · split
    · exact .ok (.refl _)
    · split
      · exact .ok (.refl _)
      · split
        · exact .ok (.refl _)
        · exact keeps_between.bind fun _ _ => .ok (.refl _)

theorem keeps_tplTemporal {r : TplRun} : TplKeeps s (tplTemporal s r) := by
  refine keeps_parentList.bind fun t m => ?_
  extract_lets
  split
  · exact .ok (.refl _)
  · split
    refine TplKeeps.bind (keeps_tplAll fun _ _ => keeps_temporalPic) fun u out => ?_
    exact keeps_handList.after (keeps_when (keeps_setSample _ _))

/-! ### Machine/Outputs.lean -/

theorem keeps_countProj {r : TplRun} {w : PatchSet} {n : Nat} : Keeps s (countProj s r w n) := by
  unfold countProj
  split
  · exact keeps_tileEvent _ _ _
  · exact .refl _

theorem keeps_tplPatchify {r : TplRun} : TplKeeps s (tplPatchify s r) := by
  refine keeps_parentList.bind fun t m => ?_
  extract_lets
  split
  · exact .ok (.refl _)
  · exact keeps_tplBuffer.bind fun _ _ => keeps_tplBuffer.bind fun _ _ => .ok keeps_countProj

theorem keeps_tplTokenise {r : TplRun} : TplKeeps s (tplTokenise s r) := by
  unfold tplTokenise
  split
  · split
    · split
      · rename_i e
        exact .later (duKeeps_caption.of_wait (congrArg Prod.snd e))
      · rename_i e
        exact .gone ((duKeeps_caption.of_lost (congrArg Prod.snd e)).trans keeps_sampleUe)
      · rename_i t _ _ _ e
        have ht : Keeps s t := keeps_caption.fst_eq e
        split
        · exact .source
        · extract_lets
          split
          · exact .ok ht
          · split
            · exact .wait
            · split
              rename_i u _ eu
              have hu : Keeps s u := (ht.trans keeps_dictSound).fst_eq eu
              extract_lets
              refine (keeps_tplBuffer.bind fun _ _ => .ok (.refl _)).after ?_
              exact (hu.trans keeps_duCount).trans (keeps_setSample _ _)
    · exact .wait
  · exact .gone (.refl _)

theorem keeps_packMove {r : TplRun} {x : Sample} {outs src : List Desc} {p : Nat} {e : Move × Nat} :
    TplKeeps s (packMove s r x outs src p e) := by
  unfold packMove
  extract_lets m
  split
  · exact .ok (.refl _)
  · split
    · exact keeps_parentList.bind fun _ _ => .ok (.refl _)
    · split
      · extract_lets
        split
        · exact .fault
        · exact keeps_tplLines.bind fun _ _ => .ok (.refl _)
      · exact .fault

theorem keeps_packWrite {r : TplRun} {l : List (Nat × List Byte)} : TplKeeps s (packWrite s r l) := by
  induction l generalizing s with
  | nil => exact .ok (.refl _)
  | cons w l ih =>
    unfold packWrite
    split
    · exact .wait
    · split
      · rename_i t e
        exact .gone ((keeps_mergeObject.fst_eq e).trans keeps_sampleUe)
      · rename_i t e
        have ht : Keeps s t := keeps_mergeObject.fst_eq e
        exact ih.after (((ht.trans keeps_crossed).trans keeps_stage).trans (keeps_tileEvent _ _ _))

theorem keeps_tplPack {r : TplRun} : TplKeeps s (tplPack s r) := by
  unfold tplPack
  split
  · exact .fault
  · extract_lets
    refine TplKeeps.bind (keeps_tplAll fun t e => keeps_packMove.bind fun u ws => ?_) fun _ _ => .ok (.refl _)
    extract_lets
    split
    · exact keeps_packWrite
    · exact .ok (.refl _)

theorem keeps_runTemplate {r : TplRun} {template : Nat} {o : Tpl TplEnd} (e : runTemplate s r template = some o) :
    TplKeeps s o := by
  unfold runTemplate at e
  split at e
  · cases e
    exact keeps_tplDecode
  · split at e
    · cases e
      exact keeps_tplRaw
    · split at e
      · cases e
        exact keeps_tplGeometry
      · split at e
        · cases e
          exact keeps_tplColour
        · split at e
          · cases e
            exact keeps_tplAugment
          · split at e
            · cases e
              exact keeps_tplTemporal
            · split at e
              · cases e
                exact keeps_tplPatchify
              · split at e
                · cases e
                  exact keeps_tplTokenise
                · split at e
                  · cases e
                    exact keeps_tplPack
                  · cases e

theorem keeps_publishTemplate {r : TplRun} {e : TplEnd} : Keeps s (publishTemplate s r e) :=
  keeps_ite (fun _ => keeps_publishToken) fun _ => (keeps_setSample _ _).trans (keeps_freeThread.trans keeps_publishToken)

theorem keeps_endTemplate {r : TplRun} {o : Tpl TplEnd} (h : TplKeeps s o) : Keeps s (endTemplate s r o) := by
  cases h with
  | ok h => exact h.trans keeps_publishTemplate
  | wait => exact .refl _
  | later h => exact h
  | full => exact keeps_poolWait
  | fault => exact keeps_pfault
  | source => exact keeps_dropFinished
  | gone h => exact h

theorem runs_execEndThread {x : Orony} : Runs s (execEndThread x s) := by
  refine runs_next (keeps_issueScalar fun t t1 => ?_)
  extract_lets
  split
  · rename_i o e
    obtain ⟨st, -, e⟩ := Option.bind_eq_some_iff.mp e
    split at e
    · exact keeps_when (keeps_endTemplate (keeps_runTemplate e))
    · cases e
  · exact keeps_beginEnd

/-! ### Machine/Pace.lean -/

theorem runs_execPaceRefresh {t : Fin 96} {events : PaceCount} : Runs s (execPaceRefresh t events s) :=
  runs_next (keeps_unless <| (keeps_setFld _ _ _ _).trans ((keeps_when (keeps_setFld _ _ _ _)).trans
      ((keeps_bump64 _ _).trans (keeps_unless <| (keeps_bump64 _ _).trans ((keeps_foldl fun _ _ => keeps_setSample _ _).trans
      (keeps_foldl fun _ _ => keeps_overBudget))))))

/-! ### Machine/Power.lean -/

theorem keeps_envDown : Keeps s (envDown s) := by
  unfold envDown
  split
  · exact .refl _
  · split
    · exact (keeps_setDie _ _).trans (keeps_setW1c _ _ _)
    · exact .refl _

theorem keeps_envUp : Keeps s (envUp s) := by
  unfold envUp
  dsimp only
  split
  · exact .refl _
  · exact keeps_setDie _ _

theorem runs_execPguEstimate {m : PowerReading} : Runs s (execPguEstimate m s) := by
  unfold execPguEstimate
  refine runs_next ?_
  split
  · exact .refl _
  · extract_lets _ _ t u
    have ht : Keeps s t := by
      unfold t
      exact keeps_of_eq rfl rfl rfl rfl rfl (by simp) rfl
    have hu : Keeps s u := ht.trans (keeps_setFld _ _ _ _)
    exact keeps_ite (fun _ => hu) fun _ => keeps_ite (fun _ => hu.trans keeps_envDown) fun _ =>
        keeps_ite (fun _ => hu.trans keeps_envUp) fun _ => hu

theorem keeps_readTj {d : Nat} {tj : Int} : Keeps s (readTj s d tj) :=
  ((keeps_setDie _ _).trans keeps_thermN).trans (keeps_when (keeps_raise.trans (keeps_when (keeps_postAll _ _))))

theorem keeps_trip : Keeps s (thermN { s with
    pins := { s.pins with tripped := true }
    dies := s.dies.zipIdx.map fun (x, i) => shutVcore x i }) := by
  refine Keeps.trans ?_ keeps_thermN
  exact keeps_of_eq rfl rfl rfl rfl rfl (by simp) rfl

theorem keeps_thermShutdown {d : Nat} {tj : Int} : Keeps s (thermShutdown s d tj) :=
  Keeps.trans keeps_readTj (keeps_unless <| keeps_raise.trans keeps_trip)

theorem runs_execThermalStep {d : Fin 4} {reading : Option Int} : Runs s (execThermalStep d reading s) := by
  unfold execThermalStep
  refine runs_next ?_
  split
  · exact .refl _
  · split
    · exact (keeps_setDie _ _).trans keeps_thermN
    · split
      · exact keeps_thermShutdown
      · extract_lets t
        have ht : Keeps s t := keeps_readTj
        split
        · exact ht
        · split
          · split
            · exact (ht.trans (keeps_setDie _ _)).trans (keeps_setW1c _ _ _)
            · exact ht
          · exact keeps_ite (fun _ => ht.trans (keeps_setDie _ _)) fun _ => ht

theorem runs_execThermTrip {d : Fin 4} {tj : Int} : Runs s (execThermTrip d tj s) :=
  runs_next (keeps_unless <| keeps_thermShutdown)

theorem runs_execPguFault {d : Fin 4} {c : PguCause} : Runs s (execPguFault d c s) := by
  unfold execPguFault
  refine runs_next ?_
  split
  · exact .refl _
  · dsimp only
    split
    · exact keeps_when ((keeps_bumpBy _ _).trans keeps_raise)
    · exact keeps_when keeps_raise
    · exact keeps_raise

/-! ### Machine/Registers.lean -/

theorem runs_execRegisterWrite {fn : Fin 16} {port : Fin 8} {off : Nat} {v : Word} :
    Runs s (execRegisterWrite fn port off v s) :=
  runs_next keeps_busWrite

theorem runs_execUnsupportedRequest {fn : Fin 16} {port : Fin 8} {a : BusAccess} :
    Runs s (execUnsupportedRequest fn port a s) :=
  runs_next (keeps_when keeps_unsupported)

theorem runs_execWriteOneToClear {fn : Fin 16} {port : Fin 8} {off : Nat} {v : Word} :
    Runs s (execWriteOneToClear fn port off v s) :=
  runs_next keeps_busWrite

theorem runs_execBitAliasWrite {fn : Fin 16} {port : Fin 8} {off : Nat} {v : Word} :
    Runs s (execBitAliasWrite fn port off v s) :=
  runs_next keeps_busWrite

theorem runs_execHighHalfWrite {fn : Fin 16} {port : Fin 8} {off : Nat} {v : Word} :
    Runs s (execHighHalfWrite fn port off v s) :=
  runs_next keeps_busWrite

theorem runs_execLowHalfWrite {fn : Fin 16} {port : Fin 8} {off : Nat} {v : Word} : Runs s (execLowHalfWrite fn port off v s) :=
  runs_next keeps_busWrite

theorem runs_execCfgLock {port : Fin 8} {v : Word} : Runs s (execCfgLock port v s) := runs_next keeps_busWrite

theorem runs_execPartCtrlReset {port : Fin 8} {p : Fin 16} {v : Word} : Runs s (execPartCtrlReset port p v s) :=
  runs_next keeps_busWrite

theorem runs_execPartCtrlEnable {port : Fin 8} {p : Fin 16} {v : Word} : Runs s (execPartCtrlEnable port p v s) :=
  runs_next keeps_busWrite

theorem runs_execPartKeySlot {port : Fin 8} {p : Fin 16} {v : Word} : Runs s (execPartKeySlot port p v s) :=
  runs_next keeps_busWrite

theorem runs_execFunctionLevelReset {fn : Fin 16} : Runs s (execFunctionLevelReset fn s) :=
  runs_next (keeps_when keeps_partReset)

theorem runs_execQCtrlEnable {fn : Fin 16} {port : Fin 8} {q : Fin 64} {v : Word} : Runs s (execQCtrlEnable fn port q v s) :=
  runs_next keeps_busWrite

theorem runs_execQCtrlDrEn {fn : Fin 16} {port : Fin 8} {q : Fin 64} {v : Word} : Runs s (execQCtrlDrEn fn port q v s) :=
  runs_next keeps_busWrite

theorem runs_execDieSpCtrlEnable {port : Fin 8} {d : Fin 4} {v : Word} : Runs s (execDieSpCtrlEnable port d v s) :=
  runs_next keeps_busWrite

theorem runs_execDieSpCtrlDisable {port : Fin 8} {d : Fin 4} {v : Word} : Runs s (execDieSpCtrlDisable port d v s) :=
  runs_next keeps_busWrite

theorem runs_execTileCtrlDisable {port : Fin 8} {t : Fin 96} {v : Word} : Runs s (execTileCtrlDisable port t v s) :=
  runs_next keeps_busWrite

theorem runs_execTileCtrlEnable {port : Fin 8} {t : Fin 96} {v : Word} : Runs s (execTileCtrlEnable port t v s) :=
  runs_next keeps_busWrite

theorem runs_execFltRevive {port : Fin 8} {v : Word} : Runs s (execFltRevive port v s) := runs_next keeps_busWrite

theorem runs_execForceEn {port : Fin 8} {v : Word} : Runs s (execForceEn port v s) := runs_next keeps_busWrite

theorem runs_execFltForce {port : Fin 8} {v : Word} : Runs s (execFltForce port v s) := runs_next keeps_busWrite

theorem runs_execFwBaseWrite {port : Fin 8} {v : Word} : Runs s (execFwBaseWrite port v s) := runs_next keeps_busWrite

theorem runs_execBootRestore {port : Fin 8} {v : Word} : Runs s (execBootRestore port v s) := runs_next keeps_busWrite

theorem runs_execBootStart {port : Fin 8} {v : Word} : Runs s (execBootStart port v s) := runs_next keeps_busWrite

theorem runs_execSave {port : Fin 8} {v : Word} : Runs s (execSave port v s) := runs_next keeps_busWrite

theorem runs_execQuiesce {port : Fin 8} {v : Word} : Runs s (execQuiesce port v s) := runs_next keeps_busWrite

theorem runs_execPguEnvMax {port : Fin 8} {v : Word} : Runs s (execPguEnvMax port v s) := runs_next keeps_busWrite

/-! ### Machine/Scalar.lean -/

theorem keeps_scalarOp {op : Nat} {f : Word → Word → Word} {x : Orony} : Keeps s (scalarOp op f x s) :=
  keeps_issueScalar (fun _ _ => keeps_setThread _ _)

theorem runs_execAdd {x : Orony} : Runs s (execAdd x s) := runs_next keeps_scalarOp

theorem runs_execSub {x : Orony} : Runs s (execSub x s) := runs_next keeps_scalarOp

theorem runs_execAnd {x : Orony} : Runs s (execAnd x s) := runs_next keeps_scalarOp

theorem runs_execOr {x : Orony} : Runs s (execOr x s) := runs_next keeps_scalarOp

theorem runs_execXor {x : Orony} : Runs s (execXor x s) := runs_next keeps_scalarOp

theorem runs_execShl {x : Orony} : Runs s (execShl x s) := runs_next keeps_scalarOp

theorem runs_execShr {x : Orony} : Runs s (execShr x s) := runs_next keeps_scalarOp

theorem runs_execSra {x : Orony} : Runs s (execSra x s) := runs_next keeps_scalarOp

theorem runs_execMul {x : Orony} : Runs s (execMul x s) := runs_next keeps_scalarOp

theorem runs_execMulhu {x : Orony} : Runs s (execMulhu x s) := runs_next keeps_scalarOp

theorem runs_execMulhs {x : Orony} : Runs s (execMulhs x s) := runs_next keeps_scalarOp

theorem runs_execDivu {x : Orony} : Runs s (execDivu x s) := runs_next keeps_scalarOp

theorem runs_execRemu {x : Orony} : Runs s (execRemu x s) := runs_next keeps_scalarOp

theorem runs_execMin {x : Orony} : Runs s (execMin x s) := runs_next keeps_scalarOp

theorem runs_execMax {x : Orony} : Runs s (execMax x s) := runs_next keeps_scalarOp

theorem runs_execMinu {x : Orony} : Runs s (execMinu x s) := runs_next keeps_scalarOp

theorem runs_execMaxu {x : Orony} : Runs s (execMaxu x s) := runs_next keeps_scalarOp

theorem runs_execSlt {x : Orony} : Runs s (execSlt x s) := runs_next keeps_scalarOp

theorem runs_execSltu {x : Orony} : Runs s (execSltu x s) := runs_next keeps_scalarOp

theorem runs_execSeq {x : Orony} : Runs s (execSeq x s) := runs_next keeps_scalarOp

theorem runs_execMovi {x : Orony} : Runs s (execMovi x s) := runs_next keeps_scalarOp

theorem keeps_branchOp {op : Nat} {c : Thread → Bool} {x : Orony} : Keeps s (branchOp op c x s) :=
  keeps_issueScalar (fun _ _ => keeps_setThread _ _)

theorem runs_execBr {x : Orony} : Runs s (execBr x s) := runs_next keeps_branchOp

theorem runs_execBeq {x : Orony} : Runs s (execBeq x s) := runs_next keeps_branchOp

theorem runs_execBne {x : Orony} : Runs s (execBne x s) := runs_next keeps_branchOp

theorem runs_execBlt {x : Orony} : Runs s (execBlt x s) := runs_next keeps_branchOp

theorem runs_execBltu {x : Orony} : Runs s (execBltu x s) := runs_next keeps_branchOp

theorem runs_execBge {x : Orony} : Runs s (execBge x s) := runs_next keeps_branchOp

theorem runs_execBgeu {x : Orony} : Runs s (execBgeu x s) := runs_next keeps_branchOp

theorem runs_execPany {x : Orony} : Runs s (execPany x s) := runs_next keeps_branchOp

theorem runs_execPall {x : Orony} : Runs s (execPall x s) := runs_next keeps_branchOp

theorem runs_execCall {x : Orony} : Runs s (execCall x s) := runs_next (keeps_issueScalar (fun _ _ => keeps_setThread _ _))

theorem runs_execJr {x : Orony} : Runs s (execJr x s) :=
  runs_next (keeps_issueScalar (fun _ _ => keeps_ite (fun _ => keeps_pfault) fun _ => keeps_setThread _ _))

/-! ### Machine/Dispatch.lean -/

/-- Every command answers a next state, which keeps what the state had. -/
theorem exec_runs : (i : Instr) → Runs s (exec i s)
  | .registerWrite .. => runs_execRegisterWrite
  | .unsupportedRequest .. => runs_execUnsupportedRequest
  | .writeOneToClear .. => runs_execWriteOneToClear
  | .bitAliasWrite .. => runs_execBitAliasWrite
  | .highHalfWrite .. => runs_execHighHalfWrite
  | .lowHalfWrite .. => runs_execLowHalfWrite
  | .cfgLock .. => runs_execCfgLock
  | .partCtrlReset .. => runs_execPartCtrlReset
  | .partCtrlEnable .. => runs_execPartCtrlEnable
  | .partKeySlot .. => runs_execPartKeySlot
  | .stepSrcWrite .. => runs_execStepSrcWrite
  | .functionLevelReset .. => runs_execFunctionLevelReset
  | .qCtrlEnable .. => runs_execQCtrlEnable
  | .qCtrlDrEn .. => runs_execQCtrlDrEn
  | .dbSqPi .. => runs_execDbSqPi
  | .dbCqCi .. => runs_execDbCqCi
  | .dbDrPi .. => runs_execDbDrPi
  | .dbStep _ _ _ v => runs_execDbStep (_v := v)
  | .pushSlotWrite .. => runs_execPushSlotWrite
  | .takeSqEntry .. => runs_execTakeSqEntry
  | .coalUsExpiry .. => runs_execCoalUsExpiry
  | .nop .. => runs_execNop
  | .recipeLoad .. => runs_execRecipeLoad
  | .recipeUnload .. => runs_execRecipeUnload
  | .modelLoad .. => runs_execModelLoad
  | .modelUnload .. => runs_execModelUnload
  | .dictLoad .. => runs_execDictLoad
  | .dictUnload .. => runs_execDictUnload
  | .calibrate .. => runs_execCalibrate
  | .calibrateDone .. => runs_execCalibrateDone
  | .fusedChain .. => runs_execFusedChain
  | .epochOpen .. => runs_execEpochOpen
  | .epochResume .. => runs_execEpochResume
  | .epochClose .. => runs_execEpochClose
  | .sourceBind .. => runs_execSourceBind
  | .sourceUnbind .. => runs_execSourceUnbind
  | .sourceUnbindDrained .. => runs_execSourceUnbindDrained
  | .nsGrant .. => runs_execNsGrant
  | .transcode .. => runs_execTranscode
  | .transcodeDone .. => runs_execTranscodeDone
  | .cacheReserve .. => runs_execCacheReserve
  | .cachePin .. => runs_execCachePin
  | .cacheUnpin .. => runs_execCacheUnpin
  | .cacheEvict .. => runs_execCacheEvict
  | .tensorCreate .. => runs_execTensorCreate
  | .tensorDestroy .. => runs_execTensorDestroy
  | .tensorDestroyDrained .. => runs_execTensorDestroyDrained
  | .copy .. => runs_execCopy
  | .copyLayout .. => runs_execCopyLayout
  | .gather .. => runs_execGather
  | .scatter .. => runs_execScatter
  | .spill .. => runs_execSpill
  | .restore .. => runs_execRestore
  | .spillFree .. => runs_execSpillFree
  | .spillFreeDrained .. => runs_execSpillFreeDrained
  | .eventWait .. => runs_execEventWait
  | .abort .. => runs_execAbort
  | .transferComplete .. => runs_execTransferComplete
  | .atsTranslationCompletion .. => runs_execAtsTranslationCompletion
  | .pageRequestResponse .. => runs_execPageRequestResponse
  | .pageRequestTimeout .. => runs_execPageRequestTimeout
  | .atsInvalidation .. => runs_execAtsInvalidation
  | .invalidationCompletion .. => runs_execInvalidationCompletion
  | .retirementRead .. => runs_execRetirementRead
  | .hostLinkDown .. => runs_execHostLinkDown
  | .hostLinkUp .. => runs_execHostLinkUp
  | .moveBackToPrimary .. => runs_execMoveBackToPrimary
  | .hostRequestTimeout .. => runs_execHostRequestTimeout
  | .hostPortTraining .. => runs_execHostPortTraining
  | .resetNLow .. => runs_execResetNLow
  | .pwrGoodFall .. => runs_execPwrGoodFall
  | .refclkLoss .. => runs_execRefclkLoss
  | .resetRelease .. => runs_execResetRelease
  | .stepEdge .. => runs_execStepEdge
  | .stepStuck .. => runs_execStepStuck
  | .stepStuckClear .. => runs_execStepStuckClear
  | .aliveToggle .. => runs_execAliveToggle
  | .smbusIdentity .. => runs_execSmbusIdentity
  | .smbusDieIdentity .. => runs_execSmbusDieIdentity
  | .smbusHealth .. => runs_execSmbusHealth
  | .smbusRegisterRead .. => runs_execSmbusRegisterRead
  | .smbusUnknownCommand .. => runs_execSmbusUnknownCommand
  | .sclLowTimeout .. => runs_execSclLowTimeout
  | .testLogicReset .. => runs_execTestLogicReset
  | .idcode .. => runs_execIdcode
  | .samplePreload .. => runs_execSamplePreload
  | .extest .. => runs_execExtest
  | .clamp .. => runs_execClamp
  | .highz .. => runs_execHighz
  | .instr1687 .. => runs_execInstr1687
  | .bypass .. => runs_execBypass
  | .driveArrival .. => runs_execDriveArrival
  | .driveReady .. => runs_execDriveReady
  | .driveReadyTimeout .. => runs_execDriveReadyTimeout
  | .driveRemoval .. => runs_execDriveRemoval
  | .dieSpCtrlEnable .. => runs_execDieSpCtrlEnable
  | .dieSpCtrlDisable .. => runs_execDieSpCtrlDisable
  | .positionIssue .. => runs_execPositionIssue
  | .threadAssign .. => runs_execThreadAssign
  | .fetchIssue .. => runs_execFetchIssue
  | .fetchCompletion .. => runs_execFetchCompletion
  | .fetchAttemptTimeout .. => runs_execFetchAttemptTimeout
  | .nvmeAbortTimeout .. => runs_execNvmeAbortTimeout
  | .ticketComplete .. => runs_execTicketComplete
  | .chunkFetch .. => runs_execChunkFetch
  | .chunkReady .. => runs_execChunkReady
  | .landingBufferRelease .. => runs_execLandingBufferRelease
  | .placementCopyEnd .. => runs_execPlacementCopyEnd
  | .deliveryEntryTake .. => runs_execDeliveryEntryTake
  | .batchRelease .. => runs_execBatchRelease
  | .graceWindowEnd .. => runs_execGraceWindowEnd
  | .budgetExceeded .. => runs_execBudgetExceeded
  | .hardTimeout .. => runs_execHardTimeout
  | .releaseTreeTimeout .. => runs_execReleaseTreeTimeout
  | .fLiveRecompute .. => runs_execFLiveRecompute
  | .paceRefresh .. => runs_execPaceRefresh
  | .allocationResume .. => runs_execAllocationResume
  | .superblockRetire .. => runs_execSuperblockRetire
  | .patrolScrub .. => runs_execPatrolScrub
  | .dramTempRead .. => runs_execDramTempRead
  | .memoryTraining .. => runs_execMemoryTraining
  | .memoryRequestTimeout .. => runs_execMemoryRequestTimeout
  | .quadrilleRequestTimeout .. => runs_execQuadrilleRequestTimeout
  | .routeChangeDrained .. => runs_execRouteChangeDrained
  | .crossingAccessTimeout .. => runs_execCrossingAccessTimeout
  | .handshakeWatchdog .. => runs_execHandshakeWatchdog
  | .copyRegenerationEnd .. => runs_execCopyRegenerationEnd
  | .tileCtrlDisable .. => runs_execTileCtrlDisable
  | .tileCtrlEnable .. => runs_execTileCtrlEnable
  | .fltRevive .. => runs_execFltRevive
  | .revivalSelfTestEnd .. => runs_execRevivalSelfTestEnd
  | .forceEn .. => runs_execForceEn
  | .fltForce .. => runs_execFltForce
  | .firmwareWatchdog .. => runs_execFirmwareWatchdog
  | .transcodeProgressTimeout .. => runs_execTranscodeProgressTimeout
  | .fwBaseWrite .. => runs_execFwBaseWrite
  | .firmwareImageCheck .. => runs_execFirmwareImageCheck
  | .bootRestore .. => runs_execBootRestore
  | .recordRestore .. => runs_execRecordRestore
  | .bootStart .. => runs_execBootStart
  | .save .. => runs_execSave
  | .forgetMeNotSave .. => runs_execForgetMeNotSave
  | .quiesce .. => runs_execQuiesce
  | .pguEnvMax .. => runs_execPguEnvMax
  | .pguEstimate .. => runs_execPguEstimate
  | .thermalStep .. => runs_execThermalStep
  | .thermTrip .. => runs_execThermTrip
  | .pguFault .. => runs_execPguFault
  | .add .. => runs_execAdd
  | .sub .. => runs_execSub
  | .and .. => runs_execAnd
  | .or .. => runs_execOr
  | .xor .. => runs_execXor
  | .shl .. => runs_execShl
  | .shr .. => runs_execShr
  | .sra .. => runs_execSra
  | .mul .. => runs_execMul
  | .mulhu .. => runs_execMulhu
  | .mulhs .. => runs_execMulhs
  | .divu .. => runs_execDivu
  | .remu .. => runs_execRemu
  | .min .. => runs_execMin
  | .max .. => runs_execMax
  | .minu .. => runs_execMinu
  | .maxu .. => runs_execMaxu
  | .slt .. => runs_execSlt
  | .sltu .. => runs_execSltu
  | .seq .. => runs_execSeq
  | .movi .. => runs_execMovi
  | .br .. => runs_execBr
  | .beq .. => runs_execBeq
  | .bne .. => runs_execBne
  | .blt .. => runs_execBlt
  | .bltu .. => runs_execBltu
  | .bge .. => runs_execBge
  | .bgeu .. => runs_execBgeu
  | .pany .. => runs_execPany
  | .pall .. => runs_execPall
  | .call .. => runs_execCall
  | .jr .. => runs_execJr
  | .vadd .. => runs_execVadd
  | .vsub .. => runs_execVsub
  | .vadds .. => runs_execVadds
  | .vaddus .. => runs_execVaddus
  | .vmul .. => runs_execVmul
  | .vmulhu .. => runs_execVmulhu
  | .vmin .. => runs_execVmin
  | .vmax .. => runs_execVmax
  | .vminu .. => runs_execVminu
  | .vmaxu .. => runs_execVmaxu
  | .vand .. => runs_execVand
  | .vor .. => runs_execVor
  | .vxor .. => runs_execVxor
  | .vshl .. => runs_execVshl
  | .vshr .. => runs_execVshr
  | .vsra .. => runs_execVsra
  | .vceq .. => runs_execVceq
  | .vclt .. => runs_execVclt
  | .vcltu .. => runs_execVcltu
  | .vsel .. => runs_execVsel
  | .vbc .. => runs_execVbc
  | .vext .. => runs_execVext
  | .vins .. => runs_execVins
  | .vrsum .. => runs_execVrsum
  | .vfadd .. => runs_execVfadd
  | .vfmul .. => runs_execVfmul
  | .vfma .. => runs_execVfma
  | .vcvtif .. => runs_execVcvtif
  | .vcvtfi .. => runs_execVcvtfi
  | .lds .. => runs_execLds
  | .sts .. => runs_execSts
  | .ldv .. => runs_execLdv
  | .stv .. => runs_execStv
  | .ldvg .. => runs_execLdvg
  | .stvx .. => runs_execStvx
  | .balloc .. => runs_execBalloc
  | .bref .. => runs_execBref
  | .bfree .. => runs_execBfree
  | .drd .. => runs_execDrd
  | .dwr .. => runs_execDwr
  | .dout .. => runs_execDout
  | .didx .. => runs_execDidx
  | .dwait .. => runs_execDwait
  | .rp .. => runs_execRp
  | .ctxOpen .. => runs_execCtxOpen
  | .decodeAu .. => runs_execDecodeAu
  | .flush .. => runs_execFlush
  | .ctxClose .. => runs_execCtxClose
  | .resample .. => runs_execResample
  | .warp .. => runs_execWarp
  | .colour .. => runs_execColour
  | .blur .. => runs_execBlur
  | .blend .. => runs_execBlend
  | .layer .. => runs_execLayer
  | .select .. => runs_execSelect
  | .tokenise .. => runs_execTokenise
  | .cbg .. => runs_execCbg
  | .vcbg .. => runs_execVcbg
  | .uwait .. => runs_execUwait
  | .lmma .. => runs_execLmma
  | .lact .. => runs_execLact
  | .lcvt .. => runs_execLcvt
  | .lred .. => runs_execLred
  | .lwait .. => runs_execLwait
  | .bwait .. => runs_execBwait
  | .bpub .. => runs_execBpub
  | .oronyNop .. => runs_execOronyNop
  | .yield .. => runs_execYield
  | .endThread .. => runs_execEndThread
  | .trap .. => runs_execTrap
  | .rdsr .. => runs_execRdsr
  | .regrd .. => runs_execRegrd
  | .regwr .. => runs_execRegwr
  | .hmrd .. => runs_execHmrd
  | .hmwr .. => runs_execHmwr
  | .kick .. => runs_execKick
  | .hostlinkCrc .. => runs_execHostlinkCrc
  | .csuFault .. => runs_execCsuFault
  | .retirementReadReturn .. => runs_execRetirementReadReturn
  | .nvmeAbortCompletion .. => runs_execNvmeAbortCompletion
  | .spillCopyRebuildEnd .. => runs_execSpillCopyRebuildEnd
  | .downstreamPortContainment .. => runs_execDownstreamPortContainment

/-! ### Machine/Tick.lean -/

theorem keeps_sramWord {e : Config.SramError} : Keeps s (sramWord s e) := by
  unfold sramWord
  dsimp only
  split
  · exact .refl _
  · split
    · exact keeps_raise
    · split
      · exact keeps_raise
      · exact keeps_raise.trans (keeps_when keeps_rerunLost)

theorem keeps_sramTick : Keeps s (sramTick s) := by
  unfold sramTick
  extract_lets t
  have ht : Keeps s t := keeps_rfl
  split
  · exact ht.trans keeps_sramWord
  · exact ht

theorem keeps_tick : Keeps s (tick s) := by
  refine keeps_unless <| ?_
  extract_lets t u
  have ht : Keeps s t := keeps_reportOwed
  have hu : Keeps s u := keeps_ite (fun _ => (ht.trans (keeps_foldl fun _ _ => keeps_endReset)).trans keeps_sramTick) fun _ =>
      ht
  clear_value u
  exact hu.trans (keeps_of_eq rfl rfl rfl rfl rfl (by simp) rfl)

/-! ### Machine/Step.lean -/

/-- Settles O60: a step is the clock or one command, and each keeps the canonical form. -/
theorem stepKeepsCanonical : Obligations.StepKeepsCanonical := by
  unfold Obligations.StepKeepsCanonical
  intro s s' hs hstep
  unfold step at hstep
  split at hstep
  · cases hstep
    exact keeps_tick.2 hs
  · rename_i c rest _
    obtain ⟨t, ht, hk⟩ := exec_runs (s := { s with pending := rest }) c
    obtain rfl : t = s' := by
      rw [ht] at hstep
      cases hstep
      rfl
    exact hk.2 hs

end Sys2Proof.Machine

/-!
The barrier and system classes of Orony: what BWAIT, BPUB, END and RDSR do once they execute (R14, R161, R225 to R227).
-/

namespace Sys2Proof.Machine

variable {s : State} {x : Orony} {t : Thread} {y : Sample} {th : ThreadRef}

/-! ### What issuing an instruction leaves -/

@[simp] theorem threadOf_issued (th' : ThreadRef) : threadOf (issued s th) th' = threadOf s th' := by rw [issued_eq]; rfl

@[simp] theorem sampleOf_issued (h : Nat) : sampleOf (issued s th) h = sampleOf s h := by rw [issued_eq]; rfl

@[simp] theorem tokenHeld_issued (h g : Nat) (th' : ThreadRef) : tokenHeld (issued s th) h g th' = tokenHeld s h g th' := by
  rw [issued_eq]; rfl

@[simp] theorem encodeParts_issued (t : Thread) : encodeParts (issued s th) t = encodeParts s t := by rw [issued_eq]; rfl

@[simp] theorem encodeParts_setThread (f : Thread → Thread) (t : Thread) :
    encodeParts (setThread s th f) t = encodeParts s t := rfl

theorem threadOf_executes {c op : Nat} (h : executes s c op x t = true) : threadOf s x.th = some t :=
  (issues_iff.1 (executes_iff.1 h).1).1

/-! ### Barriers (R225, R226) -/

/-- A token is seen once it is published and no route change holds it (R14). -/
theorem execBwait_executes (hx : executes s 7 0x00 x t = true) (hy : sampleOf s t.sample = some y) :
    execBwait x s = .next (
      if y.tokens.getD x.imm.toNat 0 ≠ 0 ∧ tokenHeld s t.sample x.imm.toNat x.th = false then
        setThread (issued s x.th) x.th fun u => nextPc (ws u x.d (BitVec.ofNat 32 (y.tokens.getD x.imm.toNat 0)))
      else setThread (issued s x.th) x.th fun u => { u with state := 4, waitOn := x.imm.toNat, waitReg := x.d }) := by
  rw [execBwait, issueScalar_executes hx]
  simp [hy]

theorem execBpub_executes (hx : executes s 7 0x01 x t = true) :
    execBpub x s = .next (
      if t.published ≠ 0 then pfault (issued s x.th) x.th 0x0B 0
      else if writesPending t = true then setThread (issued s x.th) x.th fun u => { u with state := 7, waitReg := x.imm.toNat }
      else bpubNow (issued s x.th) t x.imm.toNat) := by
  rw [execBpub, issueScalar_executes hx]

/-- The thread of a stage that is not an ENCODE stage publishes the stage's token by its BPUB. -/
theorem bpubNow_publishes {n : Nat} (h : encodeParts s t = none) :
    bpubNow s t n = publishToken (tokenFrom (setThread s t.th fun u => nextPc { u with published := n, state := 1 }) t)
      t.sample t.stage n := by
  simp [bpubNow, h]

/-! ### END and RDSR (R227, Table 6.10) -/

theorem beginEnd_eq (h : threadOf s th = some t) :
    beginEnd s th = if outstanding t = [] then finishThread s t
      else setThread s th fun u => { u with ending := true, state := 2, waitOn := 0 } := by
  simp [beginEnd, h]

theorem execEndThread_program (hx : executes s 8 0x02 x t = true) (hn : templateEnd (issued s x.th) t = none) :
    execEndThread x s = .next (if outstanding t = [] then finishThread (issued s x.th) t
      else setThread (issued s x.th) x.th fun u => { u with ending := true, state := 2, waitOn := 0 }) := by
  rw [execEndThread, issueScalar_executes hx, ← beginEnd_eq ((threadOf_issued _).trans (threadOf_executes hx))]
  unfold templateEnd at hn
  simp only [hn]

theorem execEndThread_template {o : Tpl TplEnd} (hx : executes s 8 0x02 x t = true)
    (ho : templateEnd (issued s x.th) t = some o) :
    execEndThread x s = .next (if outstanding t = [] then endTemplate (issued s x.th) ⟨t.th, t.sample, t.stage⟩ o
      else issued s x.th) := by
  rw [execEndThread, issueScalar_executes hx]
  unfold templateEnd at ho
  simp only [ho, List.isEmpty_iff]

theorem execRdsr_executes {v : Nat} (hx : executes s 8 0x04 x t = true)
    (hv : specialReg (issued s x.th) t x.imm.toNat = some v) :
    execRdsr x s = .next (setThread (issued s x.th) x.th fun u => nextPc (ws u x.d (BitVec.ofNat 32 v))) := by
  rw [execRdsr, issueScalar_executes hx]
  simp only [hv]

/-- The special registers that a tile's thread reads of itself and of its sample. -/
theorem specialReg_tile {n : Nat} (hy : sampleOf s t.sample = some y) (hn : thTile t.th = some n) :
    specialReg s t 0x00 = some (thNum t.th) ∧ specialReg s t 0x01 = some n ∧ specialReg s t 0x04 = some y.h ∧
    specialReg s t 0x05 = some (y.dsidx % 2 ^ 32) ∧ specialReg s t 0x06 = some (y.dsidx / 2 ^ 32 % 256) ∧
    specialReg s t 0x07 = some (y.epoch % 65536) ∧ specialReg s t 0x08 = some (y.pos % 2 ^ 32) ∧
    specialReg s t 0x09 = some (y.pos / 2 ^ 32 % 256) ∧ specialReg s t 0x0A = some t.stage ∧
    specialReg s t 0x0E = some t.tsBytes ∧ specialReg s t 0x0F = some t.plen := by
  simp [specialReg, hy, hn]

/-- Settles O24: each instruction's equation where it executes, and the cases of the states it can meet. -/
theorem barrierAndSystemOperations : Obligations.BarrierAndSystemOperations := by
  unfold Obligations.BarrierAndSystemOperations
  refine ⟨fun x s t y hy => ⟨fun hx => ⟨fun hp hh => ?_, fun hw => ?_⟩,
      fun hx => ⟨fun hp => ?_, fun hp hw => ?_, fun hp hw he => ?_⟩⟩,
    fun x s t => ⟨fun hx => ?_, fun hx => ?_, fun hx hn => ⟨fun ho => ?_, fun ho => ?_⟩,
      fun hx o he => ⟨fun ho => ?_, fun ho => ?_⟩, fun hx => ?_, fun hx v hv => execRdsr_executes hx hv,
      fun y n => specialReg_tile⟩⟩
  · exact (execBwait_executes hx hy).trans (congrArg _ (if_pos ⟨hp, hh⟩))
  · refine (execBwait_executes hx hy).trans (congrArg _ (if_neg fun h => ?_))
    rcases hw with hw | hw
    · exact h.1 hw
    · simp [hw] at h
  · exact (execBpub_executes hx).trans (congrArg _ (if_pos hp))
  · exact (execBpub_executes hx).trans (by simp [hp, hw])
  · exact (execBpub_executes hx).trans (by simp [hp, hw, bpubNow_publishes, he])
  · exact congrArg _ (issueScalar_executes hx)
  · exact congrArg _ (issueScalar_executes hx)
  · exact (execEndThread_program hx hn).trans (congrArg _ (if_pos ho))
  · exact (execEndThread_program hx hn).trans (congrArg _ (if_neg ho))
  · exact (execEndThread_template hx he).trans (congrArg _ (if_pos ho))
  · exact (execEndThread_template hx he).trans (congrArg _ (if_neg ho))
  · exact congrArg _ (issueScalar_executes hx)

end Sys2Proof.Machine

/-!
Deferred work at its TICKET_COMPLETE, and the chunks of a model on their way through the landing buffers (R35, R198, R466 to
R470).
-/

namespace Sys2Proof.Machine

variable {s u : State}

/-! ### Tickets (R198) -/

section
variable {th : ThreadRef} {n : Nat} {t : Thread} {k : Ticket} (alive_s : alive s = true) (thread : threadOf s th = some t)
  (ticket : (t.tickets.find? fun k => k.num = n) = some k) (open_ : k.done = false) (own : hostTicket s th n = false)

include alive_s thread ticket open_ own

/-- A ticket whose work was done at its issue only completes. -/
theorem execTicketComplete_done (work : k.deferred = none) : execTicketComplete th n s =
    .next (endTicket (setSample s t.sample fun y => { y with fail := k.fail }) th n k.status k.cause) := by
  simp [execTicketComplete, alive_s, thread, ticket, open_, own, work]

theorem execTicketComplete_drd {h off ts len st c : Nat} (work : k.deferred = some (.drd h off ts len))
    (ready : bufReady s (thDie th) h off len = true) (read : drdNow s th h off ts len = (u, some (st, c))) :
    execTicketComplete th n s = .next (endTicket u th n st c) := by
  simp [execTicketComplete, alive_s, thread, ticket, open_, own, work, ready, read]

theorem execTicketComplete_didx {i c ts st cause : Nat} (work : k.deferred = some (.didx i c ts))
    (read : didxNow s th i c ts = (u, some (st, cause))) :
    execTicketComplete th n s = .next (endTicket u th n st cause) := by
  simp [execTicketComplete, alive_s, thread, ticket, open_, own, work, read]

end

/-! ### Chunks (R35, R469, R470) -/

/-- A fold whose step always answers answers none over the empty list only. -/
theorem eq_nil_of_foldl_eq_none {α β : Type} {f : Option β → α → Option β} (hf : ∀ a x, (f a x).isSome = true) {l : List α}
    (h : l.foldl f none = none) : l = [] := by
  rcases List.eq_nil_or_concat' l with rfl | ⟨l', x, rfl⟩
  · rfl
  · have hx := hf (l'.foldl f none) x
    rw [List.foldl_concat] at h
    rw [h] at hx
    cases hx

/-- A rotation that has filled no buffer: none of the die's clusters holds a chunk of the model. -/
theorem no_landing_of_lastLanding {d m : Nat} (h : lastLanding s d m = none) :
    ∀ b ∈ s.landing, ¬(b.cluster / 6 = d ∧ b.model = m) := by
  have latest : (s.landing.filter fun b => b.cluster / 6 = d && b.model = m) = [] := by
    refine eq_nil_of_foldl_eq_none (fun a b => ?_) h
    cases a with
    | none => rfl
    | some y =>
      dsimp only
      split <;> rfl
  simpa [List.filter_eq_nil_iff] using latest

/-- The clusters that wait for chunk c of a model on a die: those of the jobs that need it and have not claimed it. -/
def wantingClusters (s : State) (d m c : Nat) : List Nat :=
  (List.range 24).filter fun k => (waitingJobs s d m).any fun j =>
    clusterOf j.th = k && (j.need.contains c && !claims s j c)

theorem mem_wantingClusters {d m c k : Nat} : k ∈ wantingClusters s d m c ↔
    k < 24 ∧ ∃ j, j ∈ waitingJobs s d m ∧ clusterOf j.th = k ∧ j.need.contains c = true ∧ claims s j c = false := by
  simp [wantingClusters]

/-- s after chunk c of a model has begun to land in buffer `buf` of the clusters ks. -/
def landed (s : State) (m buf c : Nat) (ks : List Nat) : State :=
  { s with
    nextId := s.nextId + 1
    landing := s.landing.filter (fun b => !(b.model = m && b.buf = buf && ks.contains b.cluster)) ++
      ks.map fun k => ⟨k, m, buf, c, false, false, s.nextId, []⟩ }

/-- The first chunk of a rotation lands in buffer 0 once that buffer stands released. -/
theorem execChunkFetch_lands {d : Fin 4} {m : Model} {c : Nat} (alive_s : alive s = true)
    (model : (s.models.find? fun y => y.uid = m.uid) = some m) (die : dieLost s d = false)
    (first : lastLanding s d m.uid = none)
    (next : nextChunk (chunksOf m).length ((chunksOf m).length - 1)
      (fun c => (waitingJobs s d m.uid).any fun j => j.need.contains c && !claims s j c) = some c)
    (free : (s.landing.all fun b => !(b.model = m.uid && b.buf = 0 && !b.released)) = true)
    (open_ : chunkPaused s m d c = false) (read : readChunk s m d c = (u, false)) :
    execChunkFetch d m.uid s = .next (landed u m.uid 0 c (wantingClusters s d m.uid c)) := by
  have idle : (s.landing.any fun b => b.cluster / 6 = d.val && b.model = m.uid && !b.ready) = false := by
    simpa using fun b hb hd hm => absurd ⟨hd, hm⟩ (no_landing_of_lastLanding first b hb)
  have unused : (s.landing.any fun b =>
      b.model = m.uid && b.buf = 0 && (wantingClusters s d m.uid c).contains b.cluster && !b.released) = false := by
    rw [List.any_eq_false]
    intro b hb
    have released := List.all_eq_true.1 free b hb
    grind
  unfold wantingClusters at unused
  rw [execChunkFetch]
  simp only [model, alive_s, die, first, idle, next, unused, open_, read, Option.map_none, Option.getD_none, Bool.not_true,
    Bool.or_self, Bool.false_eq_true, if_false]
  rfl

theorem execChunkReady_eq {k : Fin 24} {m : Nat} {b : Fin 2} (alive_s : alive s = true)
    (landing : (s.landing.any fun y => y.cluster = k.val && y.model = m && y.buf = b.val && !y.ready) = true)
    (now : u = { s with
      landing := updIf (fun y => y.cluster = k.val && y.model = m && y.buf = b.val && !y.ready)
        (fun y => { y with ready := true }) s.landing }) :
    execChunkReady k m b s = .next (setThreadsIf (claimBy u k m b (u.threads.flatMap jobsIn))
      (fun t => t.state = 5 && clusterOf t.th = k.val && t.waitOn % 2 = b.val &&
        (stageModel (claimBy u k m b (u.threads.flatMap jobsIn)) t (t.waitOn / 2)).any fun y => y.uid = m)
      fun t => { t with state := 1 }) := by
  subst now
  simp [execChunkReady, alive_s, landing]

/-- A buffer that no job claims is released at once. -/
theorem execLandingBufferRelease_unclaimed {k : Fin 24} {m : Nat} {b : Fin 2} {y : LandBuf} (alive_s : alive s = true)
    (held : (s.landing.find? fun y =>
      y.cluster = k.val && y.model = m && y.buf = b.val && y.ready && !y.released) = some y)
    (claims_ : y.claims = []) :
    execLandingBufferRelease k m b s = .next { s with
      landing := updIf (fun x => x = y) (fun x => { x with released := true, claims := [] }) s.landing } := by
  simp [execLandingBufferRelease, held, alive_s, claims_]

/-- Settles O55: each event's equation. The clusters that a chunk lands in are those that wait for it. -/
theorem ticketAndChunkEvents : Obligations.TicketAndChunkEvents := by
  unfold Obligations.TicketAndChunkEvents
  intro s u ha
  refine ⟨fun th n t k ht hk hd ho => ⟨execTicketComplete_done ha ht hk hd ho, ?_, ?_⟩,
    fun d m c buf hm hl hlast hbuf hc hfree hp hr => ?_, fun k m b => execChunkReady_eq ha,
    fun k m b y => execLandingBufferRelease_unclaimed ha⟩
  · exact fun h off ts len st c => execTicketComplete_drd ha ht hk hd ho
  · exact fun i c ts st cause => execTicketComplete_didx ha ht hk hd ho
  · subst hbuf
    exact ⟨wantingClusters s d m.uid c, execChunkFetch_lands ha hm hl hlast hc hfree hp hr, fun k => mem_wantingClusters⟩

end Sys2Proof.Machine

/-!
Events of the block memory and of the health monitors: what each does in the states where it acts (R14, R28, R63, R64, R549,
R550, R555, R596, R608, R613, R622, R623).
-/

namespace Sys2Proof.Machine

variable {s u : State}

/-! ### Allocation, superblocks and lines (R549, R550, R555) -/

theorem execAllocationResume_eq {w : AllocWait} {h : Nat} (alive_s : alive s = true) (room : resumable s = some (w, u, h)) :
    execAllocationResume s = .next (takeBuffer { u with allocWaits := u.allocWaits.filter (· ≠ w) } w.th w.dreg h) := by
  simp [execAllocationResume, alive_s, room]

section
variable {d : Fin 4} {sb : Nat} {x : Superblock}
  (super : (s.superblocks.find? fun x => x.die = d.val && x.idx = sb) = some x) (kept : x.retired = false)

include super kept

theorem execSuperblockRetire_eq (alive_s : alive s = true) (marked : x.marked = true)
    (empty : s.bufs.any (inSuper x) = false) : execSuperblockRetire d sb s = .next
      (setW1c (sweep (setSuper s d sb fun x => { x with retired := true, group := none })) 0x4010 2 0x401C) := by
  simp [execSuperblockRetire, super, alive_s, marked, kept, empty]

/-- What a scrub leaves after it has read line a as r, by the decoder's outcome (R548, R550). -/
def scrubbed (s : State) (a : LineAt) (r : LineRead) : LineOutcome → State
  | .clean => s
  | .corrected => ceLine (unmarkLine s a) a false
  | .miscorrected => ceLine (garbleLine (unmarkLine s a) a.die a.sb a.line) a false
  | .uncorrectable => setSuper s a.die a.sb fun x =>
      { x with marked := true, badLines := (x.badLines.filter fun y => y.1 ≠ a.line) ++ [(a.line, r)] }

theorem execPatrolScrub_eq {line : Nat} {r : LineRead} {a : LineAt} {o : LineOutcome} (alive_s : alive s = true)
    (inside : line < 1048576) (here : a = ⟨d, sb, line, 4 * d.val + portIn x (line / 64)⟩)
    (open_ : s.mpPaused.getLsbD a.port = false) (out : lineOutcome (fld s 0x4000 2 1) r = o) :
    execPatrolScrub d sb line r s = .next (scrubbed s a r o) := by
  subst here
  have below : ¬1048576 ≤ line := Nat.not_le.2 inside
  simp only at open_
  simp only [execPatrolScrub, super, alive_s, kept, below, open_, out, Bool.not_true, Bool.or_self, decide_false,
    Bool.false_eq_true, if_false]
  cases o <;> rfl

end

/-! ### Memory ports (R61 to R64, R613) -/

section
variable {mp : Fin 16} (alive_s : alive s = true) (serves : mpServes s mp = true)

include alive_s serves

theorem execDramTempRead_inRange :
    execDramTempRead mp true s = .next { s with mpPaused := s.mpPaused &&& ~~~(BitVec.twoPow 16 mp) } := by
  simp [execDramTempRead, alive_s, serves]

/-- The reading that begins the pause is raised. -/
theorem execDramTempRead_hot (running : s.mpPaused.getLsbD mp = false) : execDramTempRead mp false s = .next
    (raise { s with mpPaused := s.mpPaused ||| BitVec.twoPow 16 mp } ⟨4, false, mp / 4, none, 4, mp⟩) := by
  simp only [execDramTempRead, alive_s, serves, running, Bool.not_true, Bool.or_self, Bool.false_eq_true, if_false]

theorem execMemoryRequestTimeout_eq (req : Nat) : execMemoryRequestTimeout mp req s =
    .next (afterExpiry (requestExpiry s 4 mp (mp / 4) req) fun s => raise s ⟨3, false, mp / 4, none, 4, mp⟩) := by
  simp [execMemoryRequestTimeout, alive_s, serves]

end

/-- A request whose timer expires for the first time is issued once more, and nothing else. -/
theorem afterExpiry_first {r : State × Bool} {go : State → State} (h : r = (u, false)) : afterExpiry r go = u := by
  subst h; rfl

theorem afterExpiry_second {r : State × Bool} {go : State → State} (h : r = (u, true)) : afterExpiry r go = go u := by
  subst h; rfl

theorem execMemoryTraining_eq {trained : BitVec 16} (alive_s : alive s = true) (untrained : s.boot.memDone = false)
    (now : u = { s with mpUp := BitVec.ofNat 16 (maskOf 16 fun m => trained.getLsbD m && !mpLost s m)
                        boot := { s.boot with memDone := true }
                        scrubRun := true }) :
    execMemoryTraining trained s = .next ((unreachable u).foldl (fun t d => takeOut t 3 d) (degradedEvent s u)) := by
  subst now
  simp [execMemoryTraining, alive_s, untrained]

/-! ### Links and accesses between dies (R14, R28, R613) -/

theorem execQuadrilleRequestTimeout_eq {e : Fin 4} (req : Nat) (alive_s : alive s = true) (up : edgeUp s e = true) :
    execQuadrilleRequestTimeout e req s = .next (afterExpiry (requestExpiry s 7 e (unitDie 7 e) req) fun s =>
      raise s ⟨0x0D, false, unitDie 7 e, none, 7, e⟩) := by
  simp [execQuadrilleRequestTimeout, alive_s, up]

theorem execRouteChangeDrained_eq {a b : Fin 4} (alive_s : alive s = true)
    (now : u = { s with routeHolds := s.routeHolds.filter (· ≠ (a.val, b.val)) }) :
    execRouteChangeDrained a b s = .next (u.lreds.foldl lredTry (wakeTokens u)) := by
  subst now
  simp [execRouteChangeDrained, alive_s]

theorem execCrossingAccessTimeout_host {a : CrossingAccess} (run : s.pins.inReset = false) (unit : a.index < unitCount a.kind)
    (up : dieLost s (unitDie a.kind a.index) = false) (sound : s.fatal = false) (host : a.src = .host) :
    execCrossingAccessTimeout a s = .next (raise s ⟨0x10, false, unitDie a.kind a.index, none, a.kind, a.index⟩) := by
  have named : ¬unitCount a.kind ≤ a.index := Nat.not_le.2 unit
  simp [execCrossingAccessTimeout, run, named, up, sound, host]

/-- An access to a lost die was complete already. -/
theorem execCrossingAccessTimeout_lost {a : CrossingAccess} (lost : dieLost s (unitDie a.kind a.index) = true) :
    execCrossingAccessTimeout a s = .next s := by
  simp [execCrossingAccessTimeout, lost]

theorem execHostlinkCrc_unforced {port : Fin 8} (alive_s : alive s = true) (up : s.hpUp.getLsbD port = true)
    (unforced : armed s 2 port = false) :
    execHostlinkCrc port s = .next (raise s ⟨7, false, port / 2, none, 5, port⟩) := by
  simp [execHostlinkCrc, alive_s, up, unforced]

/-! ### Watchdogs and revivals (R608, R611, R622, R623) -/

theorem execHandshakeWatchdog_unforced {k i src : Nat} (alive_s : alive s = true) (source : hangSource k = some src)
    (unit : i < unitCount k) (up : unitLost s k i = false) (unforced : k ≠ 1 ∨ armed s 4 i = false) :
    execHandshakeWatchdog k i s = .next (raise s ⟨src, false, unitDie k i, none, k, i⟩) := by
  have named : ¬unitCount k ≤ i := Nat.not_le.2 unit
  have natural : (decide (k = 1) && armed s 4 i) = false := by
    rcases unforced with h | h <;> simp [h]
  simp [execHandshakeWatchdog, source, alive_s, named, up, natural]

/-- A die's watchdog that no KICK meets halts its management Minuet. -/
theorem execFirmwareWatchdog_unmet {d : Fin 4} (alive_s : alive s = true) (up : dieLost s d = false)
    (run : (dieAt s d).mmRun = true) :
    execFirmwareWatchdog d false s = .next (raise (haltMgmt s d) ⟨0x13, false, d, none, 3, d⟩) := by
  simp [execFirmwareWatchdog, alive_s, up, run]

/-- Whether the unit of a revival is out of service: a Quadrille edge by its own entry among the lost units. -/
def stillLost (s : State) (r : Revival) : Bool :=
  if r.kind = 7 then s.lost.contains (7, r.index) else unitLost s r.kind r.index

theorem execRevivalSelfTestEnd_eq {r : Revival} {pass : Bool} (alive_s : alive s = true) (revival : s.revival = some r)
    (now : u = if pass then returnUnit s r else s) :
    execRevivalSelfTestEnd pass s =
      .next (setFld { u with revival := none } 0x101C 1 0 (if stillLost u r then 3 else 2)) := by
  subst now
  simp only [execRevivalSelfTestEnd, revival, alive_s, Bool.not_true, Bool.false_eq_true, if_false]
  rfl

/-- Settles O57: the equation of each event where it acts. FLT_REVIVE_ST holds 3 exactly where the unit stays lost. -/
theorem memoryAndHealthEvents : Obligations.MemoryAndHealthEvents := by
  unfold Obligations.MemoryAndHealthEvents
  refine ⟨fun s u ha => ⟨fun w h => execAllocationResume_eq ha, fun d sb x hx hr => ⟨execSuperblockRetire_eq hx hr ha, ?_⟩,
      fun mp hm => ⟨execDramTempRead_inRange ha hm, execDramTempRead_hot ha hm, fun req he => ?_, fun req he => ?_⟩,
      fun trained => execMemoryTraining_eq ha⟩,
    fun s u ha => ⟨fun e req hup => ⟨fun he => ?_, fun he => ?_⟩, fun a b => execRouteChangeDrained_eq ha,
      fun a hr hi => ⟨execCrossingAccessTimeout_host hr hi, execCrossingAccessTimeout_lost⟩,
      fun k i src => execHandshakeWatchdog_unforced ha, fun r pass hr hu => ?_, fun d => execFirmwareWatchdog_unmet ha,
      fun port => execHostlinkCrc_unforced ha, congrArg _ (if_pos ha)⟩⟩
  · intro line r a hl hat hp
    subst hat
    exact ⟨execPatrolScrub_eq hx hr ha hl rfl hp, execPatrolScrub_eq hx hr ha hl rfl hp,
      execPatrolScrub_eq hx hr ha hl rfl hp, execPatrolScrub_eq hx hr ha hl rfl hp⟩
  · exact (execMemoryRequestTimeout_eq ha hm req).trans (congrArg _ (afterExpiry_second he))
  · exact (execMemoryRequestTimeout_eq ha hm req).trans (congrArg _ (afterExpiry_first he))
  · exact (execQuadrilleRequestTimeout_eq req ha hup).trans (congrArg _ (afterExpiry_second he))
  · exact (execQuadrilleRequestTimeout_eq req ha hup).trans (congrArg _ (afterExpiry_first he))
  · refine ⟨if stillLost u r then 3 else 2, ?_, execRevivalSelfTestEnd_eq ha hr hu, fun hk => ?_⟩
    · cases stillLost u r <;> simp
    · simp [stillLost, hk]

end Sys2Proof.Machine

/-!
The sideband: the state after reset, the reset pins and the release, the STEP pins and ALIVE, the SMBus target and the TAP
(R66 to R80, R111 to R113, R659, R660).
-/

namespace Sys2Proof.Machine

variable {s u : State}

/-! ### The state after reset -/

theorem queue_reset {q : Nat} (h : q < 64) : queue State.reset q = Queue.reset :=
  List.getD_replicate _ h

/-- Settles O59: the fields of the reset state, its 64 queues all alike and no register word listed. -/
theorem resetState : Obligations.ResetState := by
  unfold Obligations.ResetState
  refine ⟨rfl, rfl, rfl, rfl, rfl, rfl, rfl, rfl, rfl, rfl, fun q hq => ?_, fun _ => rfl⟩
  rw [queue_reset hq]
  exact ⟨rfl, rfl, rfl, rfl, rfl, rfl⟩

/-! ### Pulses (R66) -/

section
variable {n lo hi : Nat} {go : State → State}

theorem onPulse_accepted (order : lo ≤ hi) (long : hi ≤ n) : onPulse s n lo hi go = go s := by
  rw [onPulse, if_neg (by omega), if_pos long]

theorem onPulse_rejected (short : n < lo) : onPulse s n lo hi go = s := if_pos short

end

/-! ### Reset and its release (R68, R69, R76, R80, R111) -/

theorem checkFuses_sound {d : Nat} (fuses : (dieAt s d).fuseOk = true) (serial : (dieAt s d).serial = (dieAt s 0).serial) :
    checkFuses s d = s := by
  simp [checkFuses, fuseBad, fuses, serial]

/-- The straps are sampled before the keys are drawn and the fuses checked. -/
theorem execResetRelease_inReset {k : Straps} (held : s.pins.inReset = true) (sampled : u = { s with
      pins := { s.pins with resetLow := false, pwrLow := false, refLost := false, inReset := false
                            testHeld := k.testmode || !(dieAt s 0).fuseOk }
      smbus := ⟨k.addr, [], false⟩
      dies := s.dies.zipIdx.map fun (x, d) => { x with fixed := k.vfix.getLsbD d } }) :
    execResetRelease k s = .next (thermN ((List.range 4).foldl checkFuses ((List.range 16).foldl drawKeys u))) := by
  subst sampled
  simp only [execResetRelease, held, Bool.not_true, Bool.false_eq_true, if_false]

/-- Settles O51: a pulse by its width, what a reset keeps field by field, and the release's equation. -/
theorem resetAndRelease : Obligations.ResetAndRelease := by
  unfold Obligations.ResetAndRelease
  refine fun s n => ⟨fun long => ⟨?_, ?_⟩, fun short => ⟨?_, ?_⟩, rfl, ⟨enterReset s, ?_⟩, fun k u => execResetRelease_inReset,
    fun d => checkFuses_sound⟩
  · exact congrArg _ (onPulse_accepted (by decide) long)
  · exact congrArg _ (onPulse_accepted (by decide) long)
  · exact congrArg _ (onPulse_rejected short)
  · exact congrArg _ (onPulse_rejected short)
  · exact ⟨rfl, rfl, rfl, rfl, rfl, rfl, rfl, rfl, rfl, rfl, rfl, rfl, rfl, rfl, rfl, rfl, rfl, rfl, rfl⟩

/-! ### STEP pins and ALIVE (R70 to R74) -/

theorem stepEarly_eq_false_iff {pin : Nat} :
    stepEarly s pin = false ↔ ∀ t, s.pins.stepLast.getD pin none = some t → t + 10 ≤ s.us := by
  rw [stepEarly]
  cases s.pins.stepLast.getD pin none <;> simp

theorem edgeTaken_late {pin : Nat} (late : stepEarly s pin = false)
    (now : u = { s with pins := { s.pins with stepLast := modAt s.pins.stepLast pin fun _ => some s.us
                                              stepHigh := modAt s.pins.stepHigh pin fun _ => true } }) :
    edgeTaken pin s = (mappedTo u pin).foldl stepEvent u := by
  subst now
  rw [edgeTaken, late, if_neg Bool.false_ne_true]

theorem edgeTaken_early {pin t : Nat} (last : s.pins.stepLast.getD pin none = some t) (early : s.us < t + 10) :
    edgeTaken pin s = { s with pins := { s.pins with stepRejected := modAt s.pins.stepRejected pin (· + 1) } } :=
  if_pos (by rw [stepEarly, last]; exact decide_eq_true early)

section
variable {pin : Fin 4} {n : Nat} (alive_s : alive s = true)

include alive_s

theorem execStepEdge_accepted (free : s.pins.stepStuck.getD pin false = false) (long : 100 ≤ n) :
    execStepEdge pin n s = .next (edgeTaken pin s) := by
  rw [execStepEdge, alive_s, free, if_neg (by decide), onPulse_accepted (by decide) long]

theorem execStepStuck_high (high : s.pins.stepHigh.getD pin false = true) (free : s.pins.stepStuck.getD pin false = false)
    (now : u = raise { s with pins := { s.pins with stepStuck := modAt s.pins.stepStuck pin fun _ => true } }
      ⟨0x1C, false, 0, none, 0, 0⟩) :
    execStepStuck pin s = .next ((mappedTo u pin).foldl (fun s p => postEvent s p 4 pin) u) := by
  subst now
  rw [execStepStuck, alive_s, high, free, if_neg (by decide)]

theorem execStepStuckClear_accepted (stuck : s.pins.stepStuck.getD pin false = true) (long : 100 ≤ n)
    (now : u = { s with pins := { s.pins with stepStuck := modAt s.pins.stepStuck pin fun _ => false
                                              stepHigh := modAt s.pins.stepHigh pin fun _ => false } }) :
    execStepStuckClear pin n s = .next ((mappedTo u pin).foldl (fun s p => postEvent s p 5 pin) u) := by
  subst now
  rw [execStepStuckClear, alive_s, if_neg (by decide), onPulse_accepted (by decide) long, stepLow, if_pos stuck]

end

theorem execStepEdge_short {pin : Fin 4} {n : Nat} (short : n < 20) : execStepEdge pin n s = .next s := by
  rw [execStepEdge, onPulse_rejected short, ite_self]

/-- Settles O52: an edge by its width and its distance from the last one, and the equation of each other event. -/
theorem stepAndAlivePins : Obligations.StepAndAlivePins := by
  unfold Obligations.StepAndAlivePins
  refine fun pin n s u => ⟨fun ha free long => ⟨fun late now => ?_, fun t last early => ?_⟩, execStepEdge_short,
    execStepStuck_high, execStepStuckClear_accepted, fun h => congrArg _ (if_pos h)⟩
  · exact (execStepEdge_accepted ha free long).trans (congrArg _ (edgeTaken_late (stepEarly_eq_false_iff.2 late) now))
  · exact (execStepEdge_accepted ha free long).trans (congrArg _ (edgeTaken_early last early))

/-! ### The SMBus target (R76, R112, R113) -/

/-- A write part of four bytes carries the count 4. -/
theorem smbusSent_four {l : List Byte} (four : l.length = 4) : smbusSent l = [0x20, 0x04] ++ l := by
  rw [smbusSent, four]
  rfl

theorem pecOk_iff {sent : List Byte} {p : Option Byte} :
    pecOk s sent p = true ↔ ∀ b, p = some b → b = pec (BitVec.ofNat 8 (2 * smbusAddr s) :: sent) := by
  cases p <;> simp [pecOk]

theorem smbusWord_register {o : Nat} (inside : o ≤ 0x004FFFFF) (aligned : o % 4 = 0) (listed : (regFields o).isSome = true) :
    smbusWord s o = (0, ((readReg s o).getD 0).toNat) := by
  obtain ⟨l, hl⟩ := Option.isSome_iff_exists.1 listed
  exact if_neg (by simp [hl, aligned, inside])

theorem smbusWord_none {o : Nat} (h : 0x004FFFFF < o ∨ o % 4 ≠ 0 ∨ regFields o = none) : smbusWord s o = (1, 0) :=
  if_pos (by simpa [or_assoc] using h)

section
variable {addr : BitVec 7} {l : List Byte} {p : Option Byte} (hears : smbusHears s addr = true)

include hears

theorem execSmbusIdentity_hears : execSmbusIdentity addr s = .next (smbusReply s [0x00]
    (toLe 4 ((readReg s 0).getD 0).toNat ++ toLe 4 ((readReg s 4).getD 0).toNat ++ toLe 8 (modSerial s))) :=
  congrArg _ (if_pos hears)

theorem execSmbusDieIdentity_answered {d : Fin 4} : execSmbusDieIdentity addr ⟨d, true⟩ s =
    .next (smbusReply s [BitVec.ofNat 8 (d + 1)]
      ((dieAt s d).lot.take 6 ++ [(dieAt s d).wafer, (dieAt s d).x, (dieAt s d).y, 0x42, 0x00] ++
        toLe 3 (dieAt s d).full.toNat ++ [if (dieAt s d).fuseOk then 1 else 0, 0])) :=
  congrArg _ (if_pos hears)

theorem execSmbusDieIdentity_silent {d : Fin 4} : execSmbusDieIdentity addr ⟨d, false⟩ s =
    .next (smbusReply s [BitVec.ofNat 8 (d + 1)] (List.replicate 16 0)) :=
  congrArg _ (if_pos hears)

theorem execSmbusHealth_hears : execSmbusHealth addr s = .next (smbusReply s [0x10] (toLe 4 ((readReg s 0xC).getD 0).toNat ++
    s.dies.map (fun x => if x.sensor then BitVec.ofInt 8 x.tj else 0x80) ++
    [BitVec.ofNat 8 ((if s.pins.thermN then 1 else 0) + (if toggling s then 2 else 0)), 0, 0, 0])) :=
  congrArg _ (if_pos hears)

theorem execSmbusRegisterRead_answers (four : l.length = 4) (fits : pecOk s (smbusSent l) p = true) :
    execSmbusRegisterRead addr ⟨l, p⟩ s = .next (smbusReply s (smbusSent l)
      (BitVec.ofNat 8 (smbusWord s (leAt l 0 4)).1 :: toLe 4 (smbusWord s (leAt l 0 4)).2)) := by
  rw [execSmbusRegisterRead, hears, if_neg (by decide), if_neg (by simp [four, fits])]

theorem execSmbusRegisterRead_nack (bad : l.length ≠ 4 ∨ pecOk s (smbusSent l) p = false) :
    execSmbusRegisterRead addr ⟨l, p⟩ s = .next (smbusNack s) := by
  rw [execSmbusRegisterRead, hears, if_neg (by decide), if_pos (by simpa using bad)]

theorem execSmbusUnknownCommand_nack {code : Byte}
    (unknown : code ∉ ([0x00, 0x01, 0x02, 0x03, 0x04, 0x10, 0x20] : List Byte)) :
    execSmbusUnknownCommand addr code s = .next (smbusNack s) :=
  congrArg _ (if_pos (by rw [hears, List.contains_eq_mem, decide_eq_false unknown]; rfl))

end

theorem execSclLowTimeout_accepted {n : Nat} (up : s.pins.inReset = false) (long : 35 ≤ n) :
    execSclLowTimeout n s = .next { s with smbus := { s.smbus with reply := [], nack := false } } := by
  rw [execSclLowTimeout, up, if_neg Bool.false_ne_true, onPulse_accepted (by decide) long]

/-! ### The TAP (R659, R660, Table 20.6) -/

theorem execBypass_unlisted {code : Byte} (unlisted : code ∉ ([0x01, 0x02, 0x03, 0x04, 0x05, 0x10] : List Byte)) :
    execBypass code s = .next (loadIr s code 2 0) :=
  congrArg _ (if_neg (by simpa using unlisted))

theorem tapData_idcode {t : Tap} (sel : t.dr = 0) : (tapData t).length = 32 ∧
    ∀ i, i < 32 → (tapData t)[i]? = some (Nat.testBit 0x10404B47 i) := by
  rw [tapData, if_pos sel]
  refine ⟨by simp, fun i hi => ?_⟩
  rw [List.getElem?_map, List.getElem?_range hi, Option.map_some]

theorem tapData_boundary {t : Tap} (sel : t.dr = 1) : tapData t = t.bscan := by
  simp [tapData, sel]

theorem tapData_bypass {t : Tap} (sel : t.dr = 2) : tapData t = [false] := by
  simp [tapData, sel]

/-- Settles O53: the reply of each block, by the count and the PEC of the one that reads a register, and the instruction
register after each TAP instruction. -/
theorem smbusAndTapCommands : Obligations.SmbusAndTapCommands := by
  unfold Obligations.SmbusAndTapCommands
  refine ⟨fun addr s => ⟨fun hears => ⟨execSmbusIdentity_hears hears,
      fun d => ⟨execSmbusDieIdentity_answered hears, execSmbusDieIdentity_silent hears⟩, execSmbusHealth_hears hears,
      fun l p four fits => ?_, fun l p bad => ?_, fun code => execSmbusUnknownCommand_nack hears⟩,
      fun n => execSclLowTimeout_accepted, fun o => smbusWord_register, fun o => smbusWord_none⟩,
    fun s => ⟨rfl, rfl, fun _ => rfl, rfl, rfl, rfl, rfl, fun code => execBypass_unlisted⟩,
    fun t => ⟨tapData_idcode, tapData_boundary, fun sel => congrArg List.length (tapData_bypass sel)⟩⟩
  · rw [← smbusSent_four four]
    exact execSmbusRegisterRead_answers hears four (pecOk_iff.2 (by rw [smbusSent_four four]; exact fits))
  · refine execSmbusRegisterRead_nack hears (bad.imp_right fun ⟨b, hb, misfit⟩ => ?_)
    rw [Bool.eq_false_iff]
    exact fun fits => misfit (pecOk_iff.1 fits b hb)

end Sys2Proof.Machine

/-!
DMA between the tile store and buffers: DRD, DWR, DOUT and DIDX at once and deferred (R215, R217, R275, R501, R547).
-/

namespace Sys2Proof.Machine

variable {s u v : State} {x : Orony} {t : Thread}

theorem ticketFree_iff : ticketFree t = true ↔ (outstanding t).length < 64 := by simp [ticketFree]

/-! ### Writes of whole lines (R547) -/

/-- A write of whole lines reads none of them first. -/
theorem mergeLine_whole {h off n : Nat} (start : off % 64 = 0) (len : n % 64 = 0) : mergeLine s h off n = (s, false) := by
  rw [mergeLine]
  split
  · rfl
  · rw [if_neg (by omega), if_neg (by omega)]

theorem bufSize_mod (b : Buf) : bufSize b % 64 = 0 := by
  rw [bufSize, classSize, mul_assoc]
  exact Nat.mod_eq_zero_of_dvd (Dvd.dvd.mul_right (by decide) _)

theorem mergeObject_whole {off n : Nat} {hs : List Nat} (start : off % 64 = 0) (len : n % 64 = 0) :
    mergeObject s off n hs = (s, false) := by
  induction hs generalizing off n with
  | nil => rfl
  | cons h hs ih =>
    have size : ((bufOf s h).map bufSize).getD 0 % 64 = 0 := by
      cases bufOf s h
      · rfl
      · exact bufSize_mod _
    simp only [mergeObject]
    generalize ((bufOf s h).map bufSize).getD 0 = sz at size ⊢
    split
    · rfl
    · split
      · rw [mergeLine_whole start (show min n (sz - off) % 64 = 0 by omega)]
        exact ih rfl (by omega)
      · exact ih (by omega) len

/-! ### Operands that fit (R217) -/

theorem tsFault_none {ts n : Nat} (aligned : ts % 64 = 0) (inside : ts + n ≤ t.tsBytes) : tsFault t ts n = none := by
  simp [tsFault, tsIn, aligned, inside]

theorem dmaOk_noFault {h off ts n : Nat} (ok : dmaOk s t h off ts n = true) :
    (bufFault s t h off n).or (tsFault t ts n) = none ∧ off % 64 = 0 := by
  simp only [dmaOk, Bool.and_eq_true, Option.any_eq_true_iff_get, decide_eq_true_eq] at ok
  obtain ⟨⟨⟨⟨held, some_b, fits⟩, start⟩, aligned⟩, inside⟩ := ok
  obtain ⟨b, hb⟩ := Option.isSome_iff_exists.1 some_b
  simp only [hb, Option.get_some] at fits
  rw [tsFault_none aligned inside, bufFault, held, hb]
  simp [start, Nat.not_lt.2 fits]

/-! ### What each operation does at once -/

section
variable {th : ThreadRef} {h off ts n : Nat} (thread : threadOf s th = some t)

include thread

/-- A read of sound landed data counts the bytes at the tile and on the edges between the dies. -/
theorem drdNow_landed (sound : bufOutcome s h = (0, 0)) (read : readLines s h off n = (u, false))
    (sent : v = crossed u (hDie h) (thDie th) n) : drdNow s th h off ts n =
      (tileEvent (setThread v th fun t => tsWrite t ts (bufRead v h off n)) th 0x010 n, some (0, 0)) := by
  subst sent
  simp [drdNow, thread, sound, read]

theorem dwrNow_whole (start : off % 64 = 0) (len : n % 64 = 0) : dwrNow s th h off ts n =
    (tileEvent (bufWrite (crossed s (thDie th) (hDie h) n) h off (tsRead t ts n)) th 0x018 n, false) := by
  simp [dwrNow, thread, mergeLine_whole start len]

theorem doutNow_whole (start : off % 64 = 0) (len : n % 64 = 0) : doutNow s th off ts n =
    (tileEvent (stage (crossed s (thDie th) (((stagingHandle s t.sample off).map hDie).getD (thDie th)) n) t.sample off
      (tsRead t ts n)) th 0x018 n, false) := by
  simp [doutNow, thread, mergeObject_whole start len]

end

/-! ### The instructions, at once and deferred -/

section
variable (issue_ : v = issued s x.th) (free : ticketFree t = true)

include issue_ free

section
variable (ok : dmaOk v t (rs t x.a).toNat (rs t (x.a + 1)).toNat (rs t x.b).toNat x.imm.toNat = true)

include ok

theorem execDrd_landed (hx : executes s 4 0x03 x t = true)
    (ready : bufReady v (thDie x.th) (rs t x.a).toNat (rs t (x.a + 1)).toNat x.imm.toNat = true)
    (read : drdNow v x.th (rs t x.a).toNat (rs t (x.a + 1)).toNat (rs t x.b).toNat x.imm.toNat = (u, some (0, 0))) :
    execDrd x s = .next (takeTicket u x.th x.d 0 false none fun s _ => s) := by
  subst issue_
  rw [execDrd, issueScalar_executes hx]
  simp [(dmaOk_noFault ok).1, ticketFree_iff.1 free, ready, read]

theorem execDrd_deferred (hx : executes s 4 0x03 x t = true)
    (waits : bufReady v (thDie x.th) (rs t x.a).toNat (rs t (x.a + 1)).toNat x.imm.toNat = false) :
    execDrd x s = .next (takeTicket v x.th x.d 0 false
      (some (.drd (rs t x.a).toNat (rs t (x.a + 1)).toNat (rs t x.b).toNat x.imm.toNat)) fun s _ => s) := by
  subst issue_
  rw [execDrd, issueScalar_executes hx]
  simp [(dmaOk_noFault ok).1, ticketFree_iff.1 free, waits]

theorem execDwr_open (hx : executes s 4 0x04 x t = true)
    (open_ : bufOpen v (thDie x.th) (rs t x.a).toNat (rs t (x.a + 1)).toNat x.imm.toNat = true)
    (write : dwrNow v x.th (rs t x.a).toNat (rs t (x.a + 1)).toNat (rs t x.b).toNat x.imm.toNat = (u, false)) :
    execDwr x s = .next (takeTicket u x.th x.d 0 true none fun s _ => s) := by
  subst issue_
  rw [execDwr, issueScalar_executes hx]
  simp [(dmaOk_noFault ok).1, ticketFree_iff.1 free, open_, write]

theorem execDwr_deferred (hx : executes s 4 0x04 x t = true)
    (waits : bufOpen v (thDie x.th) (rs t x.a).toNat (rs t (x.a + 1)).toNat x.imm.toNat = false) :
    execDwr x s = .next (takeTicket v x.th x.d 0 true
      (some (.dwr (rs t x.a).toNat (rs t (x.a + 1)).toNat (rs t x.b).toNat x.imm.toNat)) fun s _ => s) := by
  subst issue_
  rw [execDwr, issueScalar_executes hx]
  simp [(dmaOk_noFault ok).1, ticketFree_iff.1 free, waits]

end

section
variable (hx : executes s 4 0x05 x t = true) (start : (rs t x.a).toNat % 64 = 0)
  (within : (rs t x.a).toNat + x.imm.toNat ≤ outBytesOf v t) (aligned : (rs t x.b).toNat % 64 = 0)
  (inside : (rs t x.b).toNat + x.imm.toNat ≤ t.tsBytes)

include hx start within aligned inside

theorem execDout_open (open_ : stageOpen v (thDie x.th) t.sample (rs t x.a).toNat x.imm.toNat = true)
    (write : doutNow v x.th (rs t x.a).toNat (rs t x.b).toNat x.imm.toNat = (u, false)) :
    execDout x s = .next (takeTicket u x.th x.d 0 true none fun s _ => s) := by
  subst issue_
  rw [execDout, issueScalar_executes hx]
  simp [start, Nat.not_lt.2 within, tsFault_none aligned inside, ticketFree_iff.1 free, open_, write]

theorem execDout_deferred (waits : stageOpen v (thDie x.th) t.sample (rs t x.a).toNat x.imm.toNat = false) :
    execDout x s = .next (takeTicket v x.th x.d 0 true
      (some (.dout (rs t x.a).toNat (rs t x.b).toNat x.imm.toNat)) fun s _ => s) := by
  subst issue_
  rw [execDout, issueScalar_executes hx]
  simp [start, Nat.not_lt.2 within, tsFault_none aligned inside, ticketFree_iff.1 free, waits]

end

end

theorem execDidx_executes (issue_ : v = issued s x.th) (hx : executes s 4 0x06 x t = true)
    (aligned : (rs t x.b).toNat % 64 = 0) (inside : (rs t x.b).toNat + 32 * x.imm.toNat ≤ t.tsBytes) :
    execDidx x s = .next (takeTicket v x.th x.d 0 false
      (some (.didx (rs t x.a).toNat x.imm.toNat (rs t x.b).toNat)) fun s _ => s) := by
  subst issue_
  rw [execDidx, issueScalar_executes hx]
  simp only [tsFault_none aligned inside]

/-- Settles O16: each operation at once, by what moves the bytes, and deferred. A write of whole lines reads no line first. -/
theorem dmaTransfers : Obligations.DmaTransfers := by
  unfold Obligations.DmaTransfers
  intro x s v t hv hf
  have thread {c op : Nat} (hx : executes s c op x t = true) : threadOf v x.th = some t := by
    rw [hv, threadOf_issued, threadOf_executes hx]
  refine ⟨fun hx ok => ⟨fun ready sound u s' read sent => ?_, fun waits => execDrd_deferred hv hf ok hx waits⟩,
    fun hx ok => ⟨fun open_ whole => ?_, fun open_ s' write => execDwr_open hv hf ok hx open_ write,
      fun waits => execDwr_deferred hv hf ok hx waits⟩,
    fun hx start within aligned inside => ⟨fun open_ whole => ?_,
      fun open_ s' write => execDout_open hv hf hx start within aligned inside open_ write,
      fun waits => execDout_deferred hv hf hx start within aligned inside waits⟩,
    fun hx aligned inside => execDidx_executes hv hx aligned inside⟩
  · exact execDrd_landed hv hf ok hx ready (drdNow_landed (thread hx) sound read sent)
  · exact execDwr_open hv hf ok hx open_ (dwrNow_whole (thread hx) (dmaOk_noFault ok).2 whole)
  · exact execDout_open hv hf hx start within aligned inside open_ (doutNow_whole (thread hx) start whole)

end Sys2Proof.Machine

/-!
Sources and drives: binding, unbinding and grants, and a drive's arrival, identification and removal (R53 to R59, R66, R263,
R266, R267).
-/

namespace Sys2Proof.Machine

variable {s u : State}

/-! ### SOURCE_BIND, SOURCE_UNBIND, NS_GRANT (R263, R266, R267) -/

section
variable {c : Nat} {x : Cmd}

/-- s with source id of partition p bound anew to what k names. -/
def boundTo (s : State) (x : Cmd) (id : Nat) (k : SourceKind) (ms : Nat) : State :=
  { s with
    sources := (s.sources.filter fun y => !(y.part = x.part && y.id = id)) ++
      [⟨x.part, id, k, ms, if x.xops.isEmpty then 2 else xopBits x 1 1 0, none, false⟩]
    copies := s.copies.filter fun y => !(y.part = x.part && y.id = id) }

section
variable {id : Nat} (run : starts s c 0x20 x = true) (named : id = opBits x 0 31 0) (free : isBound s x.part id = false)
  (room : idsSpent s x.part = false)

include run named free room

theorem execSourceBind_host (host : opBits x 0 39 32 = 1) : execSourceBind c s = .next (complete
    (boundTo s x id (.host (op64 x 1) (opBits x 2 47 0) (qSpace s x.q)) (if xopBits x 0 15 0 = 0 then 10 else xopBits x 0 15 0))
    x (plain 0)) := by
  subst named
  rw [execSourceBind, withCmd_starts run]
  simp [free, room, host, boundTo]

theorem execSourceBind_nvme {sp link : Nat} {d : Drive} {n : NsIdent} (nvme : opBits x 0 39 32 ≠ 1)
    (sp_ : sp = opBits x 1 33 32) (link_ : link = opBits x 1 35 34) (present : linkPresent s sp link = true)
    (granted : x.part = 0 ∨ s.grants.contains ⟨x.part, sp, link, BitVec.ofNat 32 (opBits x 1 31 0)⟩ = true)
    (drive : driveOf s sp link = some d) (available : d.state = .available)
    (space : (d.nss.find? fun n => n.nsid = BitVec.ofNat 32 (opBits x 1 31 0)) = some n) :
    execSourceBind c s = .next (complete
      (boundTo s x id (.nvme sp link (BitVec.ofNat 32 (opBits x 1 31 0)) n.lba n.blocks)
        (if xopBits x 0 15 0 = 0 then 50 else xopBits x 0 15 0)) x (plain 0)) := by
  subst named sp_ link_
  have allowed : ¬(x.part ≠ 0 ∧ (!s.grants.contains
      ⟨x.part, opBits x 1 33 32, opBits x 1 35 34, BitVec.ofNat 32 (opBits x 1 31 0)⟩) = true) := by
    rintro ⟨vf, ungranted⟩
    rcases granted with h | h
    · exact vf h
    · exact absurd ungranted (by rw [h]; decide)
  rw [execSourceBind, withCmd_starts run]
  simp only [free, room, nvme, present, if_neg allowed, drive, available, space, boundTo, Bool.false_eq_true, if_false,
    Bool.not_true, ne_eq, not_true_eq_false]

end

theorem execSourceUnbind_open {id : Nat} (run : starts s c 0x21 x = true) (named : id = opBits x 0 31 0)
    (bound : isBound s x.part id = true) (open_ : (openSource s x.part id).isSome = true)
    (now : u = dropEntries s x.part fun e => e.src = id) :
    execSourceUnbind c s = .next (startCmd { u with
      sources := updIf (fun y => y.part = x.part && y.id = id) (fun y => { y with unbinding := some c }) u.sources } c) := by
  subst named now
  obtain ⟨y, hy⟩ := Option.isSome_iff_exists.1 open_
  rw [execSourceUnbind, withCmd_starts run]
  simp [bound, hy]

/-- An unbinding source whose fetches have ended, and which is no copy, frees its id. -/
theorem execSourceUnbindDrained_ended {y : Source} (run : underway s c 0x21 x = true)
    (source : (s.sources.find? fun y => y.unbinding = some c) = some y)
    (ended : (s.fetches.all fun f => !(f.part = x.part && f.src = y.id && !f.ended)) = true)
    (now : u = dropEntries s x.part fun e => e.src = y.id) (noCopy : copyOf u x.part y.id = none) :
    execSourceUnbindDrained c s = .next (complete (setPart { u with
        sources := u.sources.filter fun z => z.unbinding ≠ some c } x.part
      fun z => { z with pins := z.pins.filter (· ≠ y.id) }) x (plain 0)) := by
  subst now
  have idle : (s.fetches.any fun f => f.part = x.part && f.src = y.id && !f.ended) = false := by
    rwa [List.any_eq_not_all_not, Bool.not_eq_false']
  have other : copyOf { dropEntries s x.part (fun e => e.src = y.id) with
      sources := (dropEntries s x.part fun e => e.src = y.id).sources.filter fun z => z.unbinding ≠ some c } x.part y.id =
        none := noCopy
  rw [execSourceUnbindDrained, withStarted_underway run]
  simp only [source, idle, Bool.false_eq_true, if_false, other]

theorem execNsGrant_grants {g : Grant} {d : Drive} (run : starts s c 0x22 x = true) (pf0 : x.part = 0)
    (named : g = ⟨opBits x 0 3 0, opBits x 0 5 4, opBits x 0 7 6, BitVec.ofNat 32 (opBits x 0 63 32)⟩) (vf : g.part ≠ 0)
    (present : linkPresent s g.sp g.link = true) (drive : driveOf s g.sp g.link = some d) (available : d.state = .available)
    (space : (d.nss.any fun n => n.nsid = g.nsid) = true) (grants : opBits x 0 8 8 = 0) :
    execNsGrant c s = .next (complete { s with grants := s.grants.filter (· ≠ g) ++ [g] } x (plain 0)) := by
  subst named
  rw [execNsGrant, withCmd_starts run]
  simp_all

end

/-! ### A drive on its link (R55, R56, R66) -/

section
variable {sp link : Fin 4}

theorem isPresent_setPresent : isPresent (setPresent s sp link true) sp link = true := by
  have inside : 4 * sp.val + link.val < 16 := by omega
  simp [isPresent, setPresent, inside]

/-- An arrival trains the link once the presence pin stands, which it does already or does by a pulse of 10 ms. -/
theorem execDriveArrival_trains {a : LinkTrain} (run : s.pins.inReset = false)
    (stands : isPresent s sp link = true ∧ u = s ∨
      isPresent s sp link = false ∧ 10 ≤ a.stableMs ∧ u = setPresent s sp link true) :
    execDriveArrival sp link a s = .next (linkTrained u sp link a.gtps) := by
  rw [execDriveArrival, run, if_neg Bool.false_ne_true]
  rcases stands with ⟨present, rfl⟩ | ⟨absent, long, rfl⟩
  · simp [present]
  · simp [absent, onPulse_accepted (show 1 ≤ 10 by decide) long, isPresent_setPresent]

/-- What a presence pin says touches none of what the link's training looks at. -/
theorem arrived_keeps {a : LinkTrain} (stands : isPresent s sp link = true ∧ u = s ∨
      isPresent s sp link = false ∧ 10 ≤ a.stableMs ∧ u = setPresent s sp link true) :
    linkOn u sp link = linkOn s sp link ∧ driveOf u sp link = driveOf s sp link ∧ u.lowRate = s.lowRate ∧
      u.drives = s.drives := by
  rcases stands with ⟨-, rfl⟩ | ⟨-, -, rfl⟩
  · exact ⟨rfl, rfl, rfl, rfl⟩
  · exact ⟨rfl, rfl, rfl, rfl⟩

theorem execDriveArrival_short {a : LinkTrain} (absent : isPresent s sp link = false) (short : a.stableMs < 1) :
    execDriveArrival sp link a s = .next s := by
  simp [execDriveArrival, absent, onPulse_rejected short]

section
variable {g : Nat} (on : linkOn s sp link = true) (empty : driveOf s sp link = none)

include on empty

theorem linkTrained_fast (fast : 16 ≤ g) : linkTrained s sp link g =
    { s with lowRate := s.lowRate.filter (· ≠ (sp.val, link.val)), drives := s.drives ++ [⟨sp, link, .starting, 0, []⟩] } := by
  simp [linkTrained, on, empty, Nat.not_lt.2 fast]

theorem linkTrained_slow (slow : g < 16) : linkTrained s sp link g =
    { s with lowRate := s.lowRate.filter (· ≠ (sp.val, link.val)) ++ [(sp.val, link.val)] } := by
  simp [linkTrained, on, empty, slow]

end

section
variable {d : Drive} (alive_s : alive s = true) (drive : driveOf s sp link = some d) (starting : d.state = .starting)

include alive_s drive starting

theorem execDriveReady_ready {mdts : Nat} {nss : List NsIdent} : execDriveReady sp link (.ready mdts nss) s =
    .next (postEvent (setDrive s sp link fun d => { d with
      state := .available, mdts := Nat.min mdts 1048576
      nss := (nss.filter fun n => n.lba = 512 || n.lba = 4096).take 32 }) 0 1 (sp.val + 4 * link.val)) := by
  simp [execDriveReady, alive_s, drive, starting]

theorem execDriveReady_failed {step : Byte} {sf : BitVec 15} (lo : 2 ≤ step.toNat) (hi : step.toNat ≤ 5) :
    execDriveReady sp link (.failed step sf) s = .next (driveUnusable s sp link step.toNat sf.toNat) := by
  simp [execDriveReady, alive_s, drive, starting, lo, hi]

theorem execDriveReadyTimeout_starting : execDriveReadyTimeout sp link s = .next (driveUnusable s sp link 1 0) := by
  simp [execDriveReadyTimeout, alive_s, drive, starting]

end

/-! ### A drive leaves (R57, R58, R66) -/

theorem inReset_of_alive (h : alive s = true) : s.pins.inReset = false := by
  simp only [alive, Bool.and_eq_true, Bool.not_eq_true'] at h
  exact h.1.1

section
variable (alive_s : alive s = true) (drive : (driveOf s sp link).isSome = true)

include alive_s drive

theorem sourceLinkDown_contains : sourceLinkDown s sp link =
    raise (containLink s sp link) ⟨9, false, sp, none, 6, 4 * sp.val + link.val⟩ :=
  if_pos (by rw [alive_s, drive]; rfl)

theorem drivePulled_contains
    (now : u = { setPresent s sp link false with lowRate := s.lowRate.filter (· ≠ (sp.val, link.val)) }) :
    drivePulled s sp link = raise (containLink u sp link) ⟨9, false, sp, none, 6, 4 * sp.val + link.val⟩ := by
  subst now
  exact sourceLinkDown_contains (s := { setPresent s sp link false with
    lowRate := s.lowRate.filter (· ≠ (sp.val, link.val)) }) alive_s drive

end

theorem execDriveRemoval_link (run : s.pins.inReset = false) :
    execDriveRemoval sp ⟨link, none⟩ s = .next (sourceLinkDown s sp link) := by
  simp [execDriveRemoval, run]

theorem execDriveRemoval_long {n : Nat} (run : s.pins.inReset = false) (long : 10 ≤ n) :
    execDriveRemoval sp ⟨link, some n⟩ s = .next (drivePulled s sp link) := by
  simp [execDriveRemoval, run, onPulse_accepted (show 1 ≤ 10 by decide) long]

theorem execDriveRemoval_short {n : Nat} (short : n < 1) : execDriveRemoval sp ⟨link, some n⟩ s = .next s := by
  simp [execDriveRemoval, onPulse_rejected short]

end

/-- Settles O45: a bind by what its operands name, each other command's equation, and a drive's events by its state and the
width of the pulse. -/
theorem sourcesAndDrives : Obligations.SourcesAndDrives := by
  unfold Obligations.SourcesAndDrives
  refine ⟨fun c id s x hid => ⟨fun k ms run free room hms names => ?_,
      fun run bound open_ => execSourceUnbind_open run hid bound open_ rfl,
      fun y run source ended other => ⟨_, execSourceUnbindDrained_ended run source ended rfl other, rfl⟩,
      fun g d => execNsGrant_grants⟩,
    fun sp link s => ⟨fun a u run on empty stands => ⟨fun fast => ?_, fun slow => ?_⟩,
      fun a => execDriveArrival_short,
      fun d ha drive starting => ⟨fun mdts nss => execDriveReady_ready ha drive starting,
        fun step sf => execDriveReady_failed ha drive starting, execDriveReadyTimeout_starting ha drive starting⟩,
      fun ha drive => ⟨?_, fun n u long now => ?_, fun n => execDriveRemoval_short, ?_⟩⟩⟩
  · subst hms
    rcases names with ⟨host, rfl⟩ | ⟨nvme, d, n, present, granted, drive, available, space, rfl⟩
    · rw [if_pos host]
      exact execSourceBind_host run hid free room host
    · rw [if_neg nvme]
      exact execSourceBind_nvme run hid free room nvme rfl rfl present granted drive available space
  · obtain ⟨on_, empty_, rate, drives⟩ := arrived_keeps stands
    rw [← rate, ← drives, ← linkTrained_fast (on_.trans on) (empty_.trans empty) fast]
    exact execDriveArrival_trains run stands
  · obtain ⟨on_, empty_, rate, -⟩ := arrived_keeps stands
    rw [← rate, ← linkTrained_slow (on_.trans on) (empty_.trans empty) slow]
    exact execDriveArrival_trains run stands
  · exact (execDriveRemoval_link (inReset_of_alive ha)).trans (congrArg _ (sourceLinkDown_contains ha drive))
  · exact (execDriveRemoval_long (inReset_of_alive ha) long).trans (congrArg _ (drivePulled_contains ha drive now))
  · exact congrArg _ (sourceLinkDown_contains ha drive)

end Sys2Proof.Machine

/-!
Transfers at the host ports: completion, translation faults, page requests and invalidations (R42 to R44, R293 to R298, R585).
-/

namespace Sys2Proof.Machine

variable {s u v : State} {t : Transfer} {n : Nat}

/-! ### Completion (R293, R585) -/

theorem transferReady_iff : transferReady s t = true ↔
    t.halted = false ∧ canSend s t.part = true ∧ hasTags s t = true ∧ memoryHeld s t = false := by
  simp [transferReady, and_assoc]

theorem cmdOf_countEngine (c : Nat) : cmdOf (countEngine s t) c = cmdOf s c := by
  unfold countEngine
  split <;> rfl

theorem execTransferComplete_serves (alive_s : alive s = true) (found : transferOf s n = some t)
    (ready : transferReady s t = true) (turn : engineTurn s t = true) :
    execTransferComplete n s = .next (runTransfer (countEngine s t) t) := by
  simp [execTransferComplete, found, alive_s, ready, turn]

theorem execTransferComplete_waits (found : transferOf s n = some t) (turn : engineTurn s t = false) :
    execTransferComplete n s = .next s := by
  simp [execTransferComplete, found, turn]

/-- The kinds of transfer of the commands COPY_LAYOUT, COPY, GATHER and SCATTER. -/
def IsCopyKind (k : TransferKind) : Prop := k = .copyLayout ∨ ∃ l, k = .copy l ∨ k = .gather l ∨ k = .scatter l

theorem runTransfer_copyKind {y : Cmd} (cmd : cmdOf s t.cmd = some y) (kind : IsCopyKind t.kind) :
    runTransfer s t = runCopyCmd s t y := by
  rcases kind with h | ⟨l, h | h | h⟩ <;> simp only [runTransfer, h, cmd]

theorem runCopyCmd_done {y : Cmd} (done : runCopy s t y = (u, none)) :
    runCopyCmd s t y = engineBytes (complete (dropTransfer u t) y (plain 0)) t (copyMoved s t y t.elements) := by
  simp only [runCopyCmd, done]

theorem runTransfer_spill {y : Cmd} {l : List Byte} (cmd : cmdOf s t.cmd = some y) (kind : t.kind = .spill)
    (read : readIn s t (cmdKey s y (op64 y 0)) (opBits y 1 39 0) = (u, .ok l)) : runTransfer s t = endSpill u t y l := by
  simp only [runTransfer, kind, cmd, runSpill, read]

section
variable {q pos i : Nat} (kind : t.kind = .place q pos i)

include kind

/-- The copies of samples into their slots take no turn at the engines of the queue commands. -/
theorem engineOf_place : engineOf s t = none := by simp only [engineOf, kind]

theorem runTransfer_place : runTransfer s t = endPlacement s q pos true := by simp only [runTransfer, kind]

theorem engineTurn_place : engineTurn s t = true := by simp only [engineTurn, engineOf_place kind]

theorem countEngine_place : countEngine s t = s := by simp only [countEngine, engineOf_place kind]

end

/-! ### Translations and page requests (R42, R43, R294 to R296) -/

theorem execAtsTranslationCompletion_fault {a : AtsAnswer} (alive_s : alive s = true) (found : transferOf s n = some t)
    (running : t.halted = false) (port : canSend s t.part = true) (refused : a.granted = false) :
    execAtsTranslationCompletion n a s = .next (faultTransfer s t a) := by
  simp [execAtsTranslationCompletion, alive_s, found, running, port, refused]

/-- A fault of a request that is done changes nothing. -/
theorem faultTransfer_done {a : AtsAnswer} {e : Nat} (first : reqFirst s t a.req = some e)
    (done : e < t.moved ∨ t.extra.contains (a.req, 0) = true) : faultTransfer s t a = s := by
  rw [faultTransfer, first]
  exact if_pos (by simpa using done)

section
variable (found : transferOf s n = some t) (halted : t.halted = true) (port : canSend s t.part = true)

include found halted port

theorem pageAnswer_transfer (ok : Bool) : pageAnswer s n ok =
    if ok then setTransfer s n fun y => { y with halted := false } else endUnresolved s t t.moved := by
  simp [pageAnswer, found, halted, port]

end

theorem pageAnswer_fetch {f : Fetch} (noTransfer : transferOf s n = none) (found : fetchOf s n = some f)
    (halted : f.halted = true) (port : canSend s f.part = true) (ok : Bool) : pageAnswer s n ok =
      if ok then setFetch s f.id fun g => { g with halted := false } else fetchEnds s f (.hostFault f.moved) := by
  simp [pageAnswer, noTransfer, found, halted, port]

/-! ### Invalidations (R44, R298) -/

theorem execAtsInvalidation_lifts {fn : Fin 16} {port : Fin 8} {lo hi : Nat} (alive_s : alive s = true)
    (up : s.hpUp.getLsbD port = true) (numbered : v = { s with nextId := s.nextId + 1 }) :
    execAtsInvalidation fn port lo hi s = .next { v with
      readHalts := updIf (fun h => h.halted && s.cmds.any fun x =>
        x.id = h.cmd && (x.part = fn.val && portOf v x.part = port.val) &&
        touches ((ownSpans (withBrought v h) x).map fun r => (r.1, r.1 + r.2)) lo hi)
        (fun h => { h with halted := false }) s.readHalts
      invs := s.invs ++ [⟨s.nextId, port, fn, lo, hi, issuedOn v fn port lo hi⟩]
      transfers := updIf (fun t => (t.part = fn.val && portOf v t.part = port.val) && t.halted && touches (spanOf v t) lo hi)
        (fun t => { t with halted := false }) s.transfers
      fetches := updIf (fun f => (f.part = fn.val && portOf v f.part = port.val) && f.halted && touches (fetchSpan v f) lo hi)
        (fun f => { f with halted := false }) s.fetches } := by
  subst numbered
  exact congrArg _ (if_neg (by rw [alive_s, up]; exact Bool.false_ne_true))

theorem execInvalidationCompletion_sent {port : Fin 8} {i : Invalidation} (alive_s : alive s = true)
    (noted : (s.invs.find? fun i => i.port = port.val && i.tag = n) = some i) (up : s.hpUp.getLsbD port = true)
    (idle : i.waits.any (inFlight s) = false) :
    execInvalidationCompletion port n s = .next { s with invs := s.invs.filter fun y => y.tag ≠ n } := by
  simp only [execInvalidationCompletion, noted, alive_s, up, idle, Bool.not_true, Bool.or_self, Bool.false_eq_true, if_false]

/-- Settles O49: what a transfer's completion runs by its kind, and each answer's equation. -/
theorem transferEvents : Obligations.TransferEvents := by
  unfold Obligations.TransferEvents
  refine fun n s u v t f y ha => ⟨fun found running port => ?_, fun found halted port => ?_,
    fun noTransfer found halted port => ?_, fun fn port lo hi v => execAtsInvalidation_lifts ha,
    fun port tag i => execInvalidationCompletion_sent ha⟩
  · have ready (tags : hasTags s t = true) (open_ : memoryHeld s t = false) : transferReady s t = true :=
      transferReady_iff.2 ⟨running, port, tags, open_⟩
    refine ⟨fun cmd kind tags open_ turn hv done => ?_, fun cmd kind tags open_ turn hv l read => ?_,
      execTransferComplete_waits found, fun q pos i kind tags open_ => ?_,
      fun a => execAtsTranslationCompletion_fault ha found running port, fun a e => faultTransfer_done⟩
    · subst hv
      exact (execTransferComplete_serves ha found (ready tags open_) turn).trans (congrArg _
        ((runTransfer_copyKind ((cmdOf_countEngine _).trans cmd) kind).trans (runCopyCmd_done done)))
    · subst hv
      exact (execTransferComplete_serves ha found (ready tags open_) turn).trans (congrArg _
        (runTransfer_spill ((cmdOf_countEngine _).trans cmd) kind read))
    · exact (execTransferComplete_serves ha found (ready tags open_) (engineTurn_place kind)).trans (by
        rw [countEngine_place kind, runTransfer_place kind])
  · have answer (ok : Bool) := pageAnswer_transfer found halted port ok
    exact ⟨congrArg _ ((if_pos ha).trans (answer true)), congrArg _ ((if_pos ha).trans (answer false)),
      congrArg _ ((if_pos ha).trans (answer false))⟩
  · have answer (ok : Bool) := pageAnswer_fetch noTransfer found halted port ok
    exact ⟨congrArg _ ((if_pos ha).trans (answer true)), congrArg _ ((if_pos ha).trans (answer false))⟩

end Sys2Proof.Machine

/-!
The host ports: retirement reads, links that go down and come up, request time-outs and training (R38, R45 to R51, R613, R664,
R665).
-/

namespace Sys2Proof.Machine

variable {s t u : State} {port : Fin 8} {p : Fin 16} {n : Nat}

/-! ### Masks -/

theorem maskOf_succ (n : Nat) (f : Nat → Bool) : maskOf (n + 1) f = maskOf n f + if f n then 2 ^ n else 0 := by
  rw [maskOf, List.range_succ, List.filter_append, List.foldl_append, ← maskOf]
  cases h : f n <;> simp [h]

theorem maskOf_lt (n : Nat) (f : Nat → Bool) : maskOf n f < 2 ^ n := by
  induction n with
  | zero => exact Nat.one_pos
  | succ n ih => rw [maskOf_succ]; split <;> omega

/-- Bit i of a mask says whether index i satisfies the predicate. -/
theorem testBit_maskOf (n : Nat) (f : Nat → Bool) (i : Nat) : (maskOf n f).testBit i = (decide (i < n) && f i) := by
  induction n with
  | zero => simp [maskOf]
  | succ n ih =>
    rw [maskOf_succ]
    rcases Nat.lt_trichotomy i n with lt | rfl | gt
    · split
      · rw [Nat.add_comm, Nat.testBit_two_pow_add_gt lt, ih]; simp [lt, Nat.lt_succ_of_lt lt]
      · rw [Nat.add_zero, ih]; simp [lt, Nat.lt_succ_of_lt lt]
    · have low : (maskOf i f).testBit i = false := Nat.testBit_lt_two_pow (maskOf_lt i f)
      split
      · rename_i h; rw [Nat.add_comm, Nat.testBit_two_pow_add_eq, low]; simp [h]
      · rename_i h; rw [Nat.add_zero, low]; simp [h]
    · have above : maskOf (n + 1) f < 2 ^ i := (maskOf_lt _ f).trans_le (Nat.pow_le_pow_right Nat.two_pos gt)
      rw [← maskOf_succ, Nat.testBit_lt_two_pow above]
      simp [Nat.not_lt.2 gt]

/-! ### Retirement (R46) -/

theorem execRetirementRead_covers (alive_s : alive s = true) (up : s.hpUp.getLsbD port = true) :
    execRetirementRead port p s = .next { s with
      unretired := updIf (fun u => u.port = port.val && u.part = p.val && !u.writes.isEmpty && u.covered.isNone)
        (fun u => { u with covered := some u.writes.length }) s.unretired } :=
  congrArg _ (if_neg (by rw [alive_s, up]; exact Bool.false_ne_true))

/-- The unretired writes once the first n of r on its port are retired. -/
def retired (s : State) (port p : Nat) (r : Unretired) (n : Nat) : List Unretired :=
  (s.unretired.filter fun v => !(v.port = port && v.part = p)) ++
    if (r.writes.drop n).isEmpty then [] else [{ r with writes := r.writes.drop n, covered := none }]

theorem mem_retired {port p : Nat} {r v : Unretired} : v ∈ retired s port p r n ↔
    (v ∈ s.unretired ∧ ¬(v.port = port ∧ v.part = p)) ∨
      (v = { r with writes := r.writes.drop n, covered := none } ∧ r.writes.drop n ≠ []) := by
  rw [retired, List.mem_append, List.mem_filter]
  refine or_congr (by rw [Bool.not_eq_true', ← Bool.not_eq_true, Bool.and_eq_true, decide_eq_true_eq, decide_eq_true_eq]) ?_
  split
  · rename_i h; simp [List.isEmpty_iff.1 h]
  · rename_i h; simpa [List.isEmpty_iff] using fun _ => by simpa [List.isEmpty_iff] using h

theorem execRetirementReadReturn_frees {r : Unretired} (alive_s : alive s = true) (up : s.hpUp.getLsbD port = true)
    (found : (s.unretired.find? fun u => u.port = port.val && u.part = p.val) = some r) (covered : r.covered = some n) :
    execRetirementReadReturn port p s = .next
      (freeBufs { s with unretired := retired s port p r n } ((r.writes.take n).flatMap (·.frees))) := by
  simp only [execRetirementReadReturn, found, covered, alive_s, up, Bool.not_true, Bool.or_self, Bool.false_eq_true, if_false,
    retired]
  split <;> simp

/-! ### Links and request time-outs (R45, R47 to R51, R613, R664) -/

section
variable (alive_s : alive s = true) (up : s.hpUp.getLsbD port = true)

include alive_s up

theorem execHostRequestTimeout_first {x : Nat} (first : requestExpiry s 5 port (port / 2) x = (u, false)) :
    execHostRequestTimeout port x s = .next u := by
  rw [execHostRequestTimeout, alive_s, up, if_neg (by decide), afterExpiry_first first]

theorem execHostRequestTimeout_second {x : Nat} {y : Transfer} (second : requestExpiry s 5 port (port / 2) x = (u, true))
    (found : transferOf u x = some y) (running : y.halted = false) (sends : canSend u y.part = true)
    (here : portOf u y.part = port) : execHostRequestTimeout port x s = .next (endUnresolved u y y.moved) := by
  rw [execHostRequestTimeout, alive_s, up, if_neg (by decide), afterExpiry_second second]
  simp [found, running, sends, here]

end

/-- A link that comes up serves partition 0 where its own port is down and no port has stranded it. -/
theorem execHostLinkUp_resumes (alive_s : alive s = true) (sound : hpLost s port = false)
    (down : s.hpUp.getLsbD port = false) (now : u = { s with
      hpUp := s.hpUp ||| BitVec.twoPow 8 port
      port0 := if (s.hpUp ||| BitVec.twoPow 8 port).getLsbD s.port0 || (part s 0).stranded then s.port0 else port.val }) :
    execHostLinkUp port s = .next ((List.range 16).foldl
      (fun s p => if ((part s p).stranded || portless s p) && anyPortUp s p then resumePart s p else s) u) := by
  subst now
  have here : (if (s.hpUp ||| BitVec.twoPow 8 port).getLsbD s.port0 || (part s 0).stranded then
      ({ s with hpUp := s.hpUp ||| BitVec.twoPow 8 port } : State)
    else { s with hpUp := s.hpUp ||| BitVec.twoPow 8 port, port0 := port.val }) = { s with
      hpUp := s.hpUp ||| BitVec.twoPow 8 port
      port0 := if (s.hpUp ||| BitVec.twoPow 8 port).getLsbD s.port0 || (part s 0).stranded then s.port0 else port.val } := by
    split <;> rfl
  rw [execHostLinkUp, alive_s, sound, down, if_neg (by decide), ← here]
  rfl

theorem execMoveBackToPrimary_moves (alive_s : alive s = true) (vf : p ≠ 0) (secondary : (part s p).onSecondary = true)
    (served : (part s p).stranded = false) (bound : priValid s p = true) (up : s.hpUp.getLsbD (primaryPort s p) = true)
    (clear : (s.unretired.all fun u => !(u.part = p.val && u.port = secondaryPort s p && !u.writes.isEmpty)) = true) :
    execMoveBackToPrimary p s = .next (moveTo s p (primaryPort s p) false) := by
  rw [List.not_any_eq_all_not.symm] at clear
  have vf' : p.val ≠ 0 := fun h => vf (Fin.ext h)
  exact congrArg _ (if_pos (by rw [alive_s, secondary, served, bound, up, clear]; simpa using vf'))

/-! ### Training (R38, R628) -/

/-- The ports that a training brings up. -/
def trainedPorts (s : State) (trained : BitVec 8) : BitVec 8 :=
  BitVec.ofNat 8 (maskOf 8 fun h => trained.getLsbD h && !hpLost s h)

theorem getLsbD_trainedPorts {trained : BitVec 8} {h : Nat} (inside : h < 8) :
    (trainedPorts s trained).getLsbD h = true ↔ trained.getLsbD h = true ∧ hpLost s h = false := by
  rw [trainedPorts, BitVec.getLsbD_ofNat, testBit_maskOf]
  simp [inside]

/-- The lowest-numbered port of a set of ports, 0 where there is none. -/
def lowestPort (up : BitVec 8) : Nat := ((List.range 8).find? fun h => up.getLsbD h).getD 0

theorem lowestPort_le {up : BitVec 8} {h : Nat} (inside : h < 8) (set : up.getLsbD h = true) :
    lowestPort up ≤ h ∧ up.getLsbD (lowestPort up) = true := by
  rw [lowestPort]
  cases found : (List.range 8).find? fun h => up.getLsbD h with
  | none => exact absurd set (List.find?_eq_none.1 found h (List.mem_range.2 inside))
  | some m =>
    obtain ⟨here, -, lower⟩ := List.find?_range_eq_some.1 found
    exact ⟨Nat.not_lt.1 fun lt => by simpa [set] using lower h lt, here⟩

/-- s once its host ports have trained, before the ports that failed are reported. -/
def portsTrained (s : State) (trained : BitVec 8) : State := { s with
  hpUp := trainedPorts s trained, port0 := lowestPort (trainedPorts s trained)
  boot := { s.boot with hpDone := true, fwBusy := s.boot.fwBusy || s.boot.fwPending, fwPending := false } }

theorem execHostPortTraining_eq {trained partner : BitVec 8} (alive_s : alive s = true) (untrained : s.boot.hpDone = false) :
    execHostPortTraining ⟨trained, partner⟩ s = .next (((List.range 8).filter fun h =>
      partner.getLsbD h && !trained.getLsbD h && !hpLost s h).foldl (fun t h => raise t ⟨8, false, h / 2, none, 5, h⟩)
        (portsTrained s trained)) :=
  congrArg _ (if_neg (by rw [alive_s, untrained]; exact Bool.false_ne_true))

/-- Settles O50: each event's equation, and the ports that a training brings up. -/
theorem hostPortEvents : Obligations.HostPortEvents := by
  unfold Obligations.HostPortEvents
  refine fun port p s ha => ⟨fun up => ⟨execRetirementRead_covers ha up, fun u n found covered => ?_, congrArg _ (if_pos ha),
      fun x t u => execHostRequestTimeout_second ha up, fun x u => execHostRequestTimeout_first ha up⟩,
    fun sound down => execHostLinkUp_resumes ha sound down rfl, execMoveBackToPrimary_moves ha,
    fun trained partner untrained => ⟨portsTrained s trained, execHostPortTraining_eq ha untrained,
      fun h => getLsbD_trainedPorts, fun h => lowestPort_le, rfl, rfl, rfl, rfl⟩⟩
  exact ⟨_, execRetirementReadReturn_frees ha up found covered, rfl, fun v => mem_retired⟩

end Sys2Proof.Machine

/-!
Accesses to registers: which register an address names, and what a write leaves under the checks that it passes or fails (R82 to
R87, R93, R97 to R103).
-/

namespace Sys2Proof.Machine

variable {s t : State} {fn port off o : Nat} {v : Word}

/-! ### Which register an address names (R82 to R87, R97) -/

/-- What an address names is read from the registers alone. -/
theorem resolve_of_regs (h : t.regs = s.regs) : resolve t fn off = resolve s fn off := by
  have words : reg t = reg s := funext fun o => by rw [reg, h, reg]
  have owners : owner t = owner s := funext fun q => by simp only [owner, qmask, reg64, words]
  have enabled : partEn t = partEn s := funext fun p => by rw [partEn, fld, words]; rfl
  rw [resolve, ownedByVf, owners, enabled]
  rfl

theorem regFields_none_of_aliases (h : 0x800000 ≤ o) : regFields o = none := by
  rw [regFields]
  iterate 13 rw [if_neg (by omega)]

theorem resolve_aliasOffset {b : Nat} (bit : b < 32) (aligned : o % 4 = 0) (below : o < 0x40000)
    (listed : (regFields o).isSome = true) : resolve s 0 (0x800000 + 32 * o + 4 * b) = .alias_ o b := by
  have word : (0x800000 + 32 * o + 4 * b - 0x800000) / 128 * 4 = o := by omega
  have bit' : (0x800000 + 32 * o + 4 * b - 0x800000) / 4 % 32 = b := by omega
  rw [resolve, if_pos rfl, regFields_none_of_aliases (by omega), if_neg (by decide),
    if_pos ⟨by omega, by omega, by omega, by rwa [word]⟩, word, bit']

theorem of_resolve_alias {b : Nat} (h : resolve s 0 off = .alias_ o b) :
    b < 32 ∧ o % 4 = 0 ∧ o < 0x40000 ∧ off = 0x800000 + (o / 4 * 32 + b) * 4 := by
  rw [resolve, if_pos rfl] at h
  split at h
  · split at h <;> cases h
  · split at h
    · rename_i _ inside
      obtain ⟨lo, hi, aligned, -⟩ := inside
      cases h
      omega
    · cases h

/-- A register of queue q's set-up block as PF0 reaches it. -/
theorem resolve_queueBase {q : Nat} (queue : q < 64) (inside : o < 0x1000)
    (listed : (regFields (queueBase q + o)).isSome = true) :
    resolve s 0 (queueBase q + o) =
      if owner s q ≠ 0 ∧ partEn s (owner s q) = true then .view (queueBase q + o) else .word (queueBase q + o) := by
  have block : 0x50000 ≤ queueBase q + o ∧ queueBase q + o < 0x90000 := by rw [queueBase]; omega
  have index : (queueBase q + o - 0x50000) / 0x1000 = q := by rw [queueBase]; omega
  simp [resolve, listed, block, index, ownedByVf]

theorem resolve_cfgLock : resolve s 0 0x10 = .word 0x10 := by
  rw [resolve, if_pos rfl, if_pos (by decide), if_neg (by omega)]

theorem accessible_iff {to_ : Target} :
    accessible s fn port off to_ = true ↔ presented s fn port = true ∧ resolve s fn off = to_ := by
  simp [accessible]

/-! ### Accesses that address no register (R85 to R87) -/

theorem unsupported_eq (write : Bool) : unsupported s fn write = urCounted s fn write := rfl

theorem busWrite_none (h : accessible s fn port off .none = true) : busWrite s fn port off v = urCounted s fn true := by
  obtain ⟨here, names⟩ := accessible_iff.1 h
  simp [busWrite, here, names, unsupported_eq]

theorem busWrite_view (h : accessible s fn port off (.view o) = true) : busWrite s fn port off v = s := by
  obtain ⟨here, names⟩ := accessible_iff.1 h
  simp [busWrite, here, names]

theorem busWrite_alias {b : Nat} (h : accessible s fn port off (.alias_ o b) = true) :
    busWrite s fn port off v = writeReg s port o (some b) v := by
  obtain ⟨here, names⟩ := accessible_iff.1 h
  simp [busWrite, here, names]

theorem registerHit_eq_false {a : BusAccess}
    (h : a.bytes ≠ 4 ∨ a.off % 4 ≠ 0 ∨ a.enables = false ∨ resolve s fn a.off = .none) :
    registerHit s fn a = false := by
  simp only [registerHit]
  rcases h with h | h | h | h <;> simp [h]

theorem doorbellHit_eq_false {a : BusAccess} (h : owner s (a.off / 0x1000) ≠ fn ∨ a.enables = false ∨ a.off % 4 ≠ 0) :
    doorbellHit s fn a = false := by
  have word : a.off % 0x1000 % 4 = a.off % 4 := by omega
  simp only [doorbellHit, pageReg, word]
  rcases h with h | h | h <;> simp [h]

theorem execUnsupportedRequest_eq {fn : Fin 16} {port : Fin 8} {a : BusAccess} (here : presented s fn port = true)
    (inside : a.off < barSize fn a.bar2) (miss : (if a.bar2 then doorbellHit s fn a else registerHit s fn a) = false) :
    execUnsupportedRequest fn port a s = .next (urCounted s fn a.write) :=
  congrArg Host.Outcome.next ((if_pos (by rw [here, miss]; simpa using inside)).trans (unsupported_eq a.write))

/-- Settles O27: each access by what its address names, and the two BARs' misses by what makes them one. -/
theorem unaddressedAccessCounted : Obligations.UnaddressedAccessCounted := by
  unfold Obligations.UnaddressedAccessCounted
  refine ⟨fun fn port off v s miss => congrArg Host.Outcome.next (busWrite_none miss),
    fun fn port off o v s view => congrArg Host.Outcome.next (busWrite_view view), fun q o s => resolve_queueBase q.isLt,
    fun fn port a s here inside => ⟨fun bar0 miss => ?_, fun bar2 miss => ?_⟩⟩
  · exact execUnsupportedRequest_eq here inside (by rw [bar0, if_neg Bool.false_ne_true, registerHit_eq_false miss])
  · exact execUnsupportedRequest_eq here inside (by rw [bar2, if_pos rfl, doorbellHit_eq_false miss])

/-! ### Writes of registers of 32 bits (R98, R103) -/

theorem useLow_word (h : isHighHalf o = false) : useLow s port o = s := by rw [useLow, h, if_neg Bool.false_ne_true]

theorem lowWanted_word (h : isHighHalf o = false) : lowWanted s port o = 0 := by rw [lowWanted, h, if_neg Bool.false_ne_true]

theorem lowPresent_word (h : isHighHalf o = false) : lowPresent s o = 0 := by rw [lowPresent, h, if_neg Bool.false_ne_true]

theorem zero_toNat_add (n : Nat) : (0 : Word).toNat + n = n := Nat.zero_add n

/-- A write to a register that can be written now, its low half, if it has one, beside it. -/
theorem writeReg_unlocked {b : Option Nat} (free : unlocked s o = true) (writable : aliasInert o b = false)
    (whole : isLowHalf o = false) : writeReg s port o b v = applyWrite (useLow s port o) (writeAddr o b) o
      (merged (reg s o) v (rwMask o) b) (lowWanted s port o) (onesOf o b v .w1c) (onesOf o b v .wo) := by
  obtain ⟨sound, inService, lockOpen⟩ := unlocked_iff.1 free
  rw [writeReg, sound, if_neg Bool.false_ne_true, inService, writable, if_neg (by decide), whole, if_neg Bool.false_ne_true,
    lockOpen, if_neg Nat.zero_ne_one]

theorem writeReg_lowHalf (free : unlocked s o = true) (low : isLowHalf o = true) :
    writeReg s port o none v = writeLow s port o none v := by
  obtain ⟨sound, inService, -⟩ := unlocked_iff.1 free
  rw [writeReg, sound, if_neg Bool.false_ne_true, inService, if_neg (by exact Bool.false_ne_true), low, if_pos rfl]

theorem applyWrite_rejected {a : Nat} {new newLo w1 wo : Word}
    (bad : rejected s o (reg s o).toNat new.toNat (newLo.toNat + 2 ^ 32 * new.toNat) wo.toNat = true) :
    applyWrite s a o new newLo w1 wo = configRej s a := if_pos bad

/-- An accepted write that clears nothing, of a register without effects. -/
theorem applyWrite_quiet {a : Nat} {new newLo wo : Word} (quiet : quietReg o = true)
    (ok : rejected s o (reg s o).toNat new.toNat (newLo.toNat + 2 ^ 32 * new.toNat) wo.toNat = false) :
    applyWrite s a o new newLo 0 wo =
      noteChange (putHalves s o new newLo) o (new ≠ reg s o || newLo ≠ lowPresent s o) := by
  rw [applyWrite, if_neg (by rw [ok]; exact Bool.false_ne_true), clearBits_zero, effects_quiet quiet]

/-- A write of a register of 32 bits that no rule rejects and that clears nothing. -/
theorem busWrite_settable (reach : accessible s fn port off (.word o) = true)
    (ok : settable s o (written s o v) (actions o v) = true) (noClear : clears o v = 0) : busWrite s fn port off v =
      effects (stored s o (written s o v)) o (reg s o).toNat (written s o v).toNat (actions o v).toNat :=
  (busWrite_word reach).trans (writeReg_settable ok noClear)

theorem putHalves_word (h : isHighHalf o = false) (new newLo : Word) : putHalves s o new newLo = setReg s o new := by
  rw [putHalves, h, if_neg Bool.false_ne_true]

/-! ### A write through a bit's own address (R97, R98) -/

/-- The bits that a field covers. -/
def fieldBits (f : Fld) : Word := BitVec.ofNat 32 ((2 ^ (f.msb + 1 - f.lsb) - 1) * 2 ^ f.lsb)

/-- A mask of fields holds the bits of each field that satisfies its condition. -/
theorem getLsbD_fldMask {fs : List Fld} {p : Fld → Bool} {b : Nat} :
    (fldMask fs p).getLsbD b = true ↔ ∃ f ∈ fs, p f = true ∧ (fieldBits f).getLsbD b = true := by
  have folded (a : Word) : (fs.foldl (fun a f => if p f then a ||| fieldBits f else a) a).getLsbD b = true ↔
      a.getLsbD b = true ∨ ∃ f ∈ fs, p f = true ∧ (fieldBits f).getLsbD b = true := by
    induction fs generalizing a with
    | nil => simp
    | cons f fs ih =>
      rw [List.foldl_cons, ih]
      cases h : p f <;> simp [h, or_assoc]
  exact (folded 0).trans (by simp)

theorem fldMask_mono {fs : List Fld} {p q : Fld → Bool} {b : Nat} (imp : ∀ f, p f = true → q f = true)
    (h : (fldMask fs p).getLsbD b = true) : (fldMask fs q).getLsbD b = true := by
  obtain ⟨f, mem, hp, set⟩ := getLsbD_fldMask.1 h
  exact getLsbD_fldMask.2 ⟨f, mem, imp f hp, set⟩

/-- A bit of a field with code RW or RWL is one that its own address can write. -/
theorem aliasInert_of_rw {b : Nat} (h : (rwMask o).getLsbD b = true) : aliasInert o (some b) = false := by
  have writable : (fldMask ((regFields o).getD []) (·.acc ≠ .ro)).getLsbD b = true :=
    fldMask_mono (fun f hf => by cases e : f.acc <;> simp_all) h
  simpa [aliasInert] using writable

theorem merged_alias {old m : Word} {b : Nat} (h : m.getLsbD b = true) : merged old v m (some b) =
    (old &&& ~~~(BitVec.twoPow 32 b)) ||| (if v.getLsbD 0 then BitVec.twoPow 32 b else 0) := by
  have one : BitVec.twoPow 32 b &&& m = BitVec.twoPow 32 b := by rw [BitVec.and_comm, BitVec.and_twoPow, if_pos h]
  rw [merged, one]

theorem onesOf_alias {b : Nat} {a : Acc} (h : onesOf o none (BitVec.twoPow 32 b) a = 0) : onesOf o (some b) v a = 0 := by
  have one : BitVec.twoPow 32 b &&& fldMask ((regFields o).getD []) (·.acc = a) = 0 := h
  rw [onesOf, ones]
  split
  · exact one
  · exact BitVec.zero_and

/-- A write of an RW bit of an ordinary register through the bit's own address. -/
theorem writeReg_alias {b : Nat} {want : Word} (isRw : (rwMask o).getLsbD b = true) (noClear : clears o (BitVec.twoPow 32 b) = 0)
    (noAction : actions o (BitVec.twoPow 32 b) = 0) (quiet : quietReg o = true)
    (word : want = ((reg s o &&& ~~~(BitVec.twoPow 32 b)) ||| (if v.getLsbD 0 then BitVec.twoPow 32 b else 0)))
    (ok : settable s o want 0 = true) : writeReg s port o (some b) v = stored s o want := by
  obtain ⟨free, whole, high, sound⟩ := settable_iff.1 ok
  have sound' : rejected s o (reg s o).toNat want.toNat ((0 : Word).toNat + 2 ^ 32 * want.toNat) (0 : Word).toNat = false := by
    rwa [zero_toNat_add]
  rw [writeReg_unlocked free (aliasInert_of_rw isRw) whole, useLow_word high, lowWanted_word high, merged_alias isRw, ← word,
    onesOf_alias noClear, onesOf_alias noAction, applyWrite_quiet quiet sound', putHalves_word high, lowPresent_word high, stored]
  simp

/-- Settles O29: the address of each bit and its inverse, and the equation of a write of one RW bit. -/
theorem aliasWritesOneBit : Obligations.AliasWritesOneBit := by
  unfold Obligations.AliasWritesOneBit
  refine ⟨fun o b s => resolve_aliasOffset, fun off o b s => of_resolve_alias, ?_⟩
  intro port off o b v want s _ reach isRw noClear noAction quiet word ok
  exact congrArg Host.Outcome.next ((busWrite_alias reach).trans (writeReg_alias isRw noClear noAction quiet word ok))

/-! ### The two halves of a register of 64 bits (R93) -/

theorem pendingLow_cons_self {w : Word} {l : List (Nat × Word)} :
    pendingLow { s with lowHalf := (lowKey port o, w) :: l } port o = some w := by
  simp [pendingLow]

/-- What is pending under one key is replaced, and what is pending under another stays. -/
theorem pendingLow_replaced {k : Nat} (w : Word) (h : lowKey port o ≠ k) :
    pendingLow { s with lowHalf := (k, w) :: s.lowHalf.filter fun x => x.1 ≠ k } port o = pendingLow s port o := by
  unfold pendingLow
  generalize lowKey port o = j at h
  rw [List.find?_cons_of_neg (by simpa using h.symm), List.find?_filter]
  refine congrArg (fun q => (s.lowHalf.find? q).map (·.2)) (funext fun x => ?_)
  by_cases e : x.1 = j <;> simp [e, h]

theorem pendingLow_writeLow_ne {port' o' : Nat} {b : Option Nat} (h : lowKey port' o' ≠ lowKey port o) :
    pendingLow (writeLow s port o b v) port' o' = pendingLow s port' o' := by
  rw [writeLow]
  split
  · rfl
  · exact pendingLow_replaced _ h

theorem pendingLow_useLow (high : isHighHalf o = true) : pendingLow (useLow s port o) port (o - 4) = none := by
  simp [useLow, high, pendingLow]

@[simp] theorem reg_useLow (o' : Nat) : reg (useLow s port o) o' = reg s o' := by
  unfold useLow
  split <;> rfl

theorem lowPresent_useLow : lowPresent (useLow s port o) o = lowPresent s o := by
  simp only [lowPresent, reg_useLow]

/-- No rule that rejects a write asks what low half is pending. -/
theorem rejected_useLow (old new new64 act : Nat) :
    rejected (useLow s port o) o old new new64 act = rejected s o old new new64 act := by
  unfold useLow
  split <;> rfl

theorem lowWanted_high (high : isHighHalf o = true) : lowWanted s port o = lowOf s port o := by
  rw [lowWanted, high, if_pos rfl, lowOf]

theorem pairSettable_iff {want : Word} : pairSettable s port o want = true ↔ unlocked s o = true ∧ isLowHalf o = false ∧
    isHighHalf o = true ∧
    rejected s o (reg s o).toNat want.toNat ((lowOf s port o).toNat + 2 ^ 32 * want.toNat) 0 = false := by
  simp [pairSettable, and_assoc]

theorem storedPair_eq (high : isHighHalf o = true) (want : Word) : storedPair s port o want =
    noteChange (putHalves (useLow s port o) o want (lowOf s port o)) o
      (want ≠ reg s o || lowOf s port o ≠ lowPresent s o) := by
  simp only [storedPair, putHalves, useLow, lowPresent, high, if_true]

/-- An accepted write of the high half of an ordinary register. -/
theorem writeReg_highHalf (ok : pairSettable s port o (written s o v) = true) (quiet : quietReg o = true)
    (noClear : clears o v = 0) (noAction : actions o v = 0) : writeReg s port o none v = storedPair s port o (written s o v) := by
  obtain ⟨free, whole, high, sound⟩ := pairSettable_iff.1 ok
  have word : merged (reg s o) v (rwMask o) none = written s o v := rfl
  have noClear' : onesOf o none v .w1c = 0 := noClear
  have noAction' : onesOf o none v .wo = 0 := noAction
  have sound' : rejected (useLow s port o) o (reg (useLow s port o) o).toNat (written s o v).toNat
      ((lowOf s port o).toNat + 2 ^ 32 * (written s o v).toNat) (0 : Word).toNat = false := by
    rw [rejected_useLow, reg_useLow]
    exact sound
  rw [writeReg_unlocked free rfl whole, word, lowWanted_high high, noClear', noAction', applyWrite_quiet quiet sound',
    reg_useLow, lowPresent_useLow, storedPair_eq high]

@[simp] theorem noteChange_lowHalf (o : Nat) (c : Bool) : (noteChange s o c).lowHalf = s.lowHalf := by
  unfold noteChange
  split <;> rfl

@[simp] theorem putHalves_lowHalf (o : Nat) (new newLo : Word) : (putHalves s o new newLo).lowHalf = s.lowHalf := by
  unfold putHalves
  split <;> rfl

theorem pendingLow_storedPair (high : isHighHalf o = true) (want : Word) :
    pendingLow (storedPair s port o want) port (o - 4) = none := by
  rw [storedPair_eq high, pendingLow, noteChange_lowHalf, putHalves_lowHalf]
  exact pendingLow_useLow high

/-- Settles O30: a low half only waits, under its port's key; the high half's equation, with the low half that it takes. -/
theorem sixtyFourBitWrites : Obligations.SixtyFourBitWrites := by
  unfold Obligations.SixtyFourBitWrites
  refine ⟨fun fn port off o v s reach free low writable => ⟨writeLow s port o none v,
      congrArg Host.Outcome.next ?_, ?_, ?_, ?_⟩,
    fun fn port off o v s reach ok quiet noClear noAction => ?_⟩
  · rw [busWrite_word reach, writeReg_lowHalf free low]
  · rw [writeLow, if_neg writable]
  · rw [writeLow, if_neg writable]
    exact pendingLow_cons_self
  · exact fun port' o' other => pendingLow_writeLow_ne other
  · obtain ⟨-, -, high, -⟩ := pairSettable_iff.1 ok
    exact ⟨congrArg Host.Outcome.next ((busWrite_word reach).trans (writeReg_highHalf ok quiet noClear noAction)),
      pendingLow_storedPair high _⟩

/-! ### Rejected and locked writes (R101 to R103) -/

/-- A write of a register of 32 bits that breaks a rule. -/
theorem writeReg_rejected (free : unlocked s o = true) (low : isLowHalf o = false) (high : isHighHalf o = false)
    (bad : rejected s o (reg s o).toNat (written s o v).toNat (2 ^ 32 * (written s o v).toNat) (actions o v).toNat = true) :
    writeReg s port o none v = configRej s o := by
  rw [writeReg_unlocked free rfl low, useLow_word high, lowWanted_word high]
  exact applyWrite_rejected (by rwa [zero_toNat_add])

/-- A whole write leaves no field of its own to a register all of whose fields CFG_LOCK holds. -/
theorem lockedNew_merged (all : rwlMask o = rwMask o) : lockedNew s o (merged (reg s o) v (rwMask o) none) = reg s o := by
  rw [lockedNew, all]
  ext i hi
  simp only [merged, BitVec.getElem_or, BitVec.getElem_and, BitVec.getElem_not]
  cases (rwMask o)[i] <;> simp

/-- CFG_LOCK, bit 0 of BLK_LOCK, is 1, and a write carries 0 for it. -/
theorem heldBack_cfgLock (locked : fld s 0x10 0 0 = 1) (carries0 : v.getLsbD 0 = false) :
    heldBack s 0x10 (merged (reg s 0x10) v (rwMask 0x10) none) 0 = true := by
  have one : (reg s 0x10).getLsbD 0 = true := by
    rw [fld, bits_bit, BitVec.testBit_toNat] at locked
    exact Bool.toNat_eq_one.1 locked
  have writable : rwMask 0x10 = 1 := by decide
  have held : rwlMask 0x10 = 1 := by decide
  have differ : merged (reg s 0x10) v 1 none &&& 1 ≠ reg s 0x10 &&& 1 := fun e => by
    have := congrArg (BitVec.getLsbD · 0) e
    simp only [merged, BitVec.getLsbD_and, BitVec.getLsbD_or, one, carries0] at this
    exact absurd this (by decide)
  rw [heldBack, writable, held, decide_eq_true differ, Bool.true_or]

/-- A write of 0 to CFG_LOCK while it is 1. -/
theorem writeReg_cfgLock_locked (sound : s.fatal = false) (locked : fld s 0x10 0 0 = 1) (carries0 : v.getLsbD 0 = false)
    (idle : s.boot.restoreRun = false) : writeReg s port 0x10 none v = setW1c s 0x14 1 0x20 := by
  have high : isHighHalf 0x10 = false := by decide
  have noAction : onesOf 0x10 none v .wo = 0 := BitVec.and_zero
  have legal (a b c d : Nat) : rejected s 0x10 a b c d = false := by simp [rejected, idle]
  rw [writeReg, sound, if_neg Bool.false_ne_true, if_neg (by exact Bool.false_ne_true), if_neg (by decide), locked, if_pos rfl,
    useLow_word high, lowWanted_word high, writeLocked, if_pos (heldBack_cfgLock locked carries0),
    lockedNew_merged (by decide), noAction]
  simp [lockedLow, lowPresent_word high, legal]

/-- Settles O31: a rejected write's equation, and CFG_LOCK's as an ordinary register and as one that the lock holds. -/
theorem rejectedAndLockedWrites : Obligations.RejectedAndLockedWrites := by
  unfold Obligations.RejectedAndLockedWrites
  refine ⟨fun fn port off o v s reach free low high bad => ?_, fun port v s here sound => ?_⟩
  · exact congrArg Host.Outcome.next ((busWrite_word reach).trans (writeReg_rejected free low high bad))
  have reach : accessible s (0 : Fin 16) port 0x10 (.word 0x10) = true := accessible_iff.2 ⟨here, resolve_cfgLock⟩
  refine ⟨fun _ ok => congrArg Host.Outcome.next ?_, fun locked carries0 idle => congrArg Host.Outcome.next ?_⟩
  · have noAction : actions 0x10 v = 0 := BitVec.and_zero
    have noClear : clears 0x10 v = 0 := BitVec.and_zero
    rw [← noAction] at ok
    exact (busWrite_settable reach ok noClear).trans (effects_quiet (by decide) ..)
  · exact (busWrite_word reach).trans (writeReg_cfgLock_locked sound locked carries0 idle)

end Sys2Proof.Machine

/-!
The management class: registers read and written by a management Minuet, its moves of host memory, and its firmware watchdog (R87,
R236, R237, R608).
-/

namespace Sys2Proof.Machine

variable {s : State} {x : Orony} {t : Thread} {v : Word} {o : Nat}

/-- A management instruction is counted for no tile: issuing it leaves the registers. -/
theorem issued_regs_management {op : Nat} (hx : executes s 9 op x t = true) : (issued s x.th).regs = s.regs := by
  obtain ⟨ready, -⟩ := executes_iff.1 hx
  obtain ⟨-, -, -, -, cls, -⟩ := issues_iff.1 ready
  cases e : x.th with
  | tile n k => simp [e, classOk] at cls
  | mgmt d k => rfl

/-! ### REGRD and REGWR (R87, R236) -/

theorem execRegrd_register (hx : executes s 9 0x00 x t = true) (reads : peekReg (issued s x.th) (rs t x.a).toNat = some v) :
    execRegrd x s = .next (setThread (issued s x.th) x.th fun u => nextPc (ws u x.d v)) := by
  rw [execRegrd, issueScalar_executes hx]
  simp only [reads]

theorem execRegrd_reserved (hx : executes s 9 0x00 x t = true) (reads : peekReg (issued s x.th) (rs t x.a).toNat = none) :
    execRegrd x s = .next (openResult (bump (issued s x.th) 0x2C) x.th x.d 5 [(rs t x.a).toNat]) := by
  rw [execRegrd, issueScalar_executes hx]
  simp only [reads]

/-- What an address names to a REGWR is what it named before the instruction was issued. -/
theorem resolve_regwr (hx : executes s 9 0x01 x t = true) (a : Nat) :
    resolve (setThread (issued s x.th) x.th nextPc) 0 a = resolve s 0 a := resolve_of_regs (issued_regs_management hx)

theorem execRegwr_word (hx : executes s 9 0x01 x t = true) (names : resolve s 0 (rs t x.a).toNat = .word o) :
    execRegwr x s = .next (writeReg (setThread (issued s x.th) x.th nextPc) (8 + thDie x.th) o none (rs t x.b)) := by
  rw [execRegwr, issueScalar_executes hx]
  simp only [resolve_regwr hx, names]

theorem execRegwr_alias {b : Nat} (hx : executes s 9 0x01 x t = true) (names : resolve s 0 (rs t x.a).toNat = .alias_ o b) :
    execRegwr x s = .next (writeReg (setThread (issued s x.th) x.th nextPc) (8 + thDie x.th) o (some b) (rs t x.b)) := by
  rw [execRegwr, issueScalar_executes hx]
  simp only [resolve_regwr hx, names]

/-! ### HMRD and HMWR (R236, R293) -/

/-- A move of host memory whose place in the data region fits becomes a transfer with a ticket. -/
theorem hostMove_fits {k : Nat → Nat → Nat → Nat → TransferKind} {write : Bool} (aligned : (rs t x.b).toNat % 64 = 0)
    (inside : (rs t x.b).toNat + x.imm.toNat ≤ t.tsBytes) :
    hostMove s x k write t = takeTicket s x.th x.d 0 write none fun s n =>
      { s with nextId := s.nextId + 1
               transfers := s.transfers ++ [newTransfer s.nextId t.part 0
                 (k n (rs t x.b).toNat ((rs t x.a).toNat + 2 ^ 32 * (rs t (x.a + 1)).toNat) x.imm.toNat) x.imm.toNat] } := by
  simp only [hostMove, tsFault_none aligned inside]
  rfl

/-- Settles O25: each instruction's equation where it executes, a reserved offset's word left free. -/
theorem managementOperations : Obligations.ManagementOperations := by
  unfold Obligations.ManagementOperations
  refine fun x s t => ⟨fun hx => ⟨fun v => execRegrd_register hx, fun reads => ⟨_, execRegrd_reserved hx reads⟩⟩,
    fun hx => ⟨fun o => execRegwr_word hx, fun o b => execRegwr_alias hx⟩,
    fun hx _ aligned inside => congrArg Host.Outcome.next ?_,
    fun hx _ aligned inside => congrArg Host.Outcome.next ?_, fun hx => congrArg Host.Outcome.next (issueScalar_executes hx)⟩
  · exact (issueScalar_executes hx).trans (hostMove_fits aligned inside)
  · exact (issueScalar_executes hx).trans (hostMove_fits aligned inside)

end Sys2Proof.Machine

/-!
Partition control: writes of PART_CTRL, PART_KEY and PART_STEP, and a partition reset from its first step to its last (R107, R546,
R579, R580, R588, R589).
-/

namespace Sys2Proof.Machine

variable {s : State} {p o : Nat} {v : Word}

/-! ### What a write of a partition's registers sets going (R107, R546, R588) -/

/-- s once VFp has come into service: on its secondary port where only that is up (R107, R47). -/
def vfEnabled (s : State) (p : Nat) : State := setPart s p fun x => { x with
  stranded := false
  onSecondary := secValid s p && !s.hpUp.getLsbD (primaryPort s p) && s.hpUp.getLsbD (secondaryPort s p) }

theorem effects_partCtrl {old new wo : Nat} (inside : p < 16) : effects s (partBase p) old new wo =
    if bitN old 0 && !bitN new 0 then
      setPart (partReset (setFld s (partBase p) 0 0 1) p) p fun x => { x with thenOff := true }
    else if bitN wo 31 then partReset (if !bitN old 0 && bitN new 0 then vfEnabled s p else s) p
    else if !bitN old 0 && bitN new 0 then vfEnabled s p else s := by
  have index : (partBase p - 0x40000) / 0x1000 = p := by rw [partBase]; omega
  have first : partBase p % 0x1000 = 0 := by rw [partBase]; omega
  rw [effects]
  iterate 6 rw [if_neg (by rw [partBase]; omega)]
  rw [if_pos (by rw [partBase]; omega)]
  simp only [index, first, if_true]
  rfl

theorem effects_partKey {old new wo : Nat} (inside : p < 16) (changed : old ≠ new) : effects s (partBase p + 0x28) old new wo =
    setPart (partReset (setReg s (partBase p + 0x28) (BitVec.ofNat 32 old)) p) p fun x =>
      { x with thenSlot := some (bits new 3 0) } := by
  have index : (partBase p + 0x28 - 0x40000) / 0x1000 = p := by rw [partBase]; omega
  have offset : (partBase p + 0x28) % 0x1000 = 0x28 := by rw [partBase]; omega
  rw [effects]
  iterate 6 rw [if_neg (by rw [partBase]; omega)]
  rw [if_pos (by rw [partBase]; omega)]
  simp only [index, offset, changed]
  rfl

theorem quietReg_partStep : ∀ p : Fin 16, quietReg (partBase p + 0xC) = true := by decide

/-! ### PART_CTRL, PART_KEY and PART_STEP (R107, R546, R580, R588) -/

theorem bitN_toNat (w : Word) (i : Nat) : bitN w.toNat i = w.getLsbD i := rfl

section
variable {port : Fin 8} {p : Fin 16} {v : Word}

variable (reach : accessible s (0 : Fin 16) port (partBase p) (.word (partBase p)) = true)
  (ok : settable s (partBase p) (written s (partBase p) v) (actions (partBase p) v) = true)
  (noClear : clears (partBase p) v = 0)
include reach ok noClear

/-- RESET written as 1, ENABLE left as it is. -/
theorem busWrite_partCtrl_reset (same : (written s (partBase p) v).getLsbD 0 = (reg s (partBase p)).getLsbD 0)
    (trigger : (actions (partBase p) v).getLsbD 31 = true) :
    busWrite s (0 : Fin 16) port (partBase p) v = partReset (stored s (partBase p) (written s (partBase p) v)) p := by
  rw [busWrite_settable reach ok noClear, effects_partCtrl p.isLt]
  simp only [bitN_toNat, same, trigger, Bool.and_not_self, Bool.not_and_self, Bool.false_eq_true, if_false, if_true]

/-- ENABLE from 0 to 1. -/
theorem busWrite_partCtrl_enable (was : (reg s (partBase p)).getLsbD 0 = false)
    (on : (written s (partBase p) v).getLsbD 0 = true) (noTrigger : (actions (partBase p) v).getLsbD 31 = false) :
    busWrite s (0 : Fin 16) port (partBase p) v = vfEnabled (stored s (partBase p) (written s (partBase p) v)) p := by
  rw [busWrite_settable reach ok noClear, effects_partCtrl p.isLt]
  simp only [bitN_toNat, was, on, noTrigger, Bool.false_and, Bool.not_false, Bool.true_and, Bool.false_eq_true, if_false, if_true]

/-- ENABLE from 1 to 0. -/
theorem busWrite_partCtrl_disable (was : (reg s (partBase p)).getLsbD 0 = true)
    (off : (written s (partBase p) v).getLsbD 0 = false) : busWrite s (0 : Fin 16) port (partBase p) v =
      setPart (partReset (setFld (stored s (partBase p) (written s (partBase p) v)) (partBase p) 0 0 1) p) p fun x =>
        { x with thenOff := true } := by
  rw [busWrite_settable reach ok noClear, effects_partCtrl p.isLt]
  simp only [bitN_toNat, was, off, Bool.not_false, Bool.true_and, if_true]

end

theorem stored_hpUp : (stored s o v).hpUp = s.hpUp := by
  rw [stored, noteChange]
  split <;> rfl

/-- A new key slot waits for the reset's end; the register shows the old one until then. -/
theorem busWrite_partKey {fn port : Nat} (inside : p < 16)
    (reach : accessible s fn port (partBase p + 0x28) (.word (partBase p + 0x28)) = true)
    (ok : settable s (partBase p + 0x28) (written s (partBase p + 0x28) v) 0 = true) (noClear : clears (partBase p + 0x28) v = 0)
    (noAction : actions (partBase p + 0x28) v = 0) (changed : written s (partBase p + 0x28) v ≠ reg s (partBase p + 0x28)) :
    busWrite s fn port (partBase p + 0x28) v =
      setPart (partReset (setReg (stored s (partBase p + 0x28) (written s (partBase p + 0x28) v)) (partBase p + 0x28)
        (reg s (partBase p + 0x28))) p) p fun x =>
          { x with thenSlot := some (bits (written s (partBase p + 0x28) v).toNat 3 0) } := by
  rw [← noAction] at ok
  rw [busWrite_settable reach ok noClear, effects_partKey inside fun e => changed (BitVec.eq_of_toNat_eq e).symm,
    BitVec.ofNat_toNat, BitVec.setWidth_eq]

theorem execStepSrcWrite_edge {port : Fin 8} {p : Fin 16} {e : Fin 4} :
    execStepSrcWrite port p v (some e) s =
      .next (busWrite (edgeAt e { s with freeCtr := s.freeCtr + 1 }) 0 port (partBase p + 0xC) v) ∨
    execStepSrcWrite port p v (some e) s =
      .next (edgeAt e (busWrite { s with freeCtr := s.freeCtr + 1 } 0 port (partBase p + 0xC) v)) := by
  cases first : Config.arbiter s.freeCtr with
  | true => exact .inl (congrArg Host.Outcome.next (if_pos first))
  | false => exact .inr (congrArg Host.Outcome.next (if_neg (Bool.eq_false_iff.1 first)))

/-! ### Which partitions are under reset (R589)

Each operation of a partition reset but its first leaves RESETTING of every partition as it is. -/

/-- RESETTING of each partition. -/
def underReset (s : State) : List Bool := s.parts.map (·.resetting)

theorem resetting_eq (p : Nat) : (part s p).resetting = (underReset s).getD p false :=
  (List.getD_map _ _ Part.resetting).symm

theorem underReset_setPart {f : Part → Part} (h : ∀ x, (f x).resetting = x.resetting) :
    underReset (setPart s p f) = underReset s := by
  refine List.ext_getElem? fun i => ?_
  by_cases e : p = i <;> simp [underReset, modAt, e, Function.comp_def, h]

theorem underReset_foldl {α : Type} {f : State → α → State} {l : List α} (h : ∀ s x, underReset (f s x) = underReset s) :
    underReset (l.foldl f s) = underReset s := by
  induction l generalizing s with
  | nil => rfl
  | cons x l ih => exact ih.trans (h s x)

theorem underReset_hostReq (r : HostReq) : underReset (hostReq s p r) = underReset s := by
  unfold hostReq
  split
  · cases r with
    | write w =>
      simp only [sendWrite]
      split <;> rfl
    | msix i => rfl
  · exact underReset_setPart fun _ => rfl

theorem underReset_mirror (c : Nat) : underReset (mirror s c) = underReset s := by
  have irq (s : State) : underReset (queueIrq s c) = underReset s := underReset_hostReq _
  unfold mirror
  dsimp only
  split
  · exact (irq _).trans (underReset_hostReq _)
  · exact underReset_hostReq _

theorem underReset_writeCqe (q : Nat) (l : List Byte) : underReset (writeCqe s q l) = underReset s :=
  (underReset_mirror _).trans (underReset_hostReq _)

theorem underReset_completeReset (x : Cmd) : underReset (completeReset s x) = underReset s := by
  unfold completeReset
  split
  · exact underReset_writeCqe _ _
  · rfl

theorem underReset_freeBufs (hs : List Nat) : underReset (freeBufs s hs) = underReset s := by
  unfold freeBufs
  split <;> rfl

theorem underReset_freeAfter (hs : List Nat) : underReset (freeAfter s p hs) = underReset s := by
  unfold freeAfter
  dsimp only
  split
  · exact underReset_setPart fun _ => rfl
  · split
    · rfl
    · exact underReset_freeBufs _

theorem underReset_removeSample (h : Nat) : underReset (removeSample s h) = underReset s := by
  unfold removeSample
  split
  · rfl
  · extract_lets t u
    have landed : underReset u = underReset s := underReset_freeBufs _
    split
    · exact (underReset_freeAfter _).trans landed
    · exact (underReset_freeBufs _).trans landed

theorem underReset_endEpoch (q : Nat) : underReset (endEpoch s q) = underReset s := by
  unfold endEpoch
  split
  · rfl
  · extract_lets t u
    have removed : underReset u = underReset s := underReset_foldl fun _ _ => underReset_removeSample _
    exact (underReset_foldl fun _ _ => underReset_writeCqe _ _).trans removed

theorem underReset_discardObjects (p : Nat) : underReset (discardObjects s p) = underReset s := underReset_freeBufs (s := _) _

theorem part_setPart_self {f : Part → Part} (inside : p < s.parts.length) : part (setPart s p f) p = f (part s p) := by
  simp [part, modAt, List.getD_eq_getElem?_getD, inside]

theorem underReset_partReset (free : (part s p).resetting = false) :
    underReset (partReset s p) = underReset (setPart s p fun x => { x with resetting := true }) := by
  rw [partReset, if_neg (by rw [free]; exact Bool.false_ne_true)]
  extract_lets t u v w t1 u1 v1 w1 t2
  have ended : underReset v = underReset t := calc
    underReset v = underReset u := underReset_foldl fun _ _ => underReset_removeSample _
    _ = underReset t := underReset_foldl fun _ _ => underReset_endEpoch _
  clear_value v
  have discarded : underReset w1 = underReset v := calc
    underReset w1 = underReset v1 := underReset_setPart fun _ => rfl
    _ = underReset u1 := underReset_discardObjects p
    _ = underReset t1 := underReset_foldl fun _ _ => underReset_completeReset _
  clear_value w1
  exact discarded.trans ended

/-- A partition reset that begins sets RESETTING of its partition. -/
theorem resetting_partReset (inside : p < s.parts.length) (free : (part s p).resetting = false) :
    (part (partReset s p) p).resetting = true := by
  rw [resetting_eq, underReset_partReset free, ← resetting_eq, part_setPart_self inside]

/-! ### The last step of a partition reset (Table 17.2) -/

theorem bits_withBits_low {m x : Nat} (width : m < 32) (w : Nat) : bits (withBits w m 0 x).toNat m 0 = x % 2 ^ (m + 1) := by
  have whole : w - w % 2 ^ (m + 1) = 2 ^ (m + 1) * (w / 2 ^ (m + 1)) :=
    Nat.sub_eq_of_eq_add (Nat.div_add_mod w _).symm
  simp only [bits, withBits, Nat.sub_zero, Nat.pow_zero, Nat.div_one, Nat.mul_one, BitVec.toNat_ofNat]
  rw [Nat.mod_mod_of_dvd _ (Nat.pow_dvd_pow 2 width), whole, Nat.mul_add_mod, Nat.mod_mod]

theorem fld_setFld_low {m x : Nat} (hs : canonical s = true) (width : m < 32) :
    fld (setFld s o m 0 x) o m 0 = x % 2 ^ (m + 1) := by
  rw [fld, setFld, reg_setReg_self hs, bits_withBits_low width]

/-- s with the registers at the offsets of l at 0. -/
def zeroed (s : State) (l : List Nat) : State := l.foldl (fun s o => setReg s o 0) s

theorem keeps_zeroed (l : List Nat) : Keeps s (zeroed s l) := keeps_foldl fun _ _ => keeps_setReg _ _

theorem zeroed_parts (l : List Nat) : (zeroed s l).parts = s.parts := by
  induction l generalizing s with
  | nil => rfl
  | cons a l ih => exact ih

theorem reg_zeroed (hs : canonical s = true) (l : List Nat) : reg (zeroed s l) o = if o ∈ l then 0 else reg s o := by
  induction l generalizing s with
  | nil => rfl
  | cons a l ih =>
    refine (ih ((keeps_setReg a 0).2 hs)).trans ?_
    by_cases e : o = a
    · simp [e, reg_setReg_self hs]
    · simp [e, reg_setReg_ne e]

/-- Registers that step 6 of partition p's reset sets to 0: Q_CTRL of its queues, then its Pavane counters. -/
def resetOffsets (s : State) (p : Nat) : List Nat := (ownedQueues s p).map queueBase ++ pavCounters p

theorem endReset_eq (running : (part s p).resetting = true) : endReset s p =
    setPart (afterReset (zeroed s (resetOffsets s p)) p) p fun x =>
      { x with resetting := false, thenOff := false, thenSlot := none } := by
  rw [endReset, running, if_neg (by decide), zeroed, resetOffsets, List.foldl_append, List.foldl_map]

/-- s with VFp disabled, where that was what reset the partition (R107). -/
def thenDisabled (s : State) (p : Nat) : State :=
  if (part s p).thenOff then noteChange (setFld s (partBase p) 0 0 0) (partBase p) true else s

theorem keeps_thenDisabled : Keeps s (thenDisabled s p) := keeps_when ((keeps_setFld _ _ _ _).trans keeps_noteChange)

theorem noteChange_parts (c : Bool) : (noteChange s o c).parts = s.parts := by
  rw [noteChange]
  split <;> rfl

theorem thenDisabled_parts : (thenDisabled s p).parts = s.parts := by
  rw [thenDisabled]
  split
  · exact noteChange_parts _
  · rfl

theorem reg_thenDisabled_ne (h : o ≠ partBase p) : reg (thenDisabled s p) o = reg s o := by
  rw [thenDisabled]
  split
  · rw [reg_noteChange, setFld, reg_setReg_ne h]
  · rfl

theorem thenSlot_thenDisabled : (part (thenDisabled s p) p).thenSlot = (part s p).thenSlot := by
  rw [part, thenDisabled_parts, part]

theorem afterReset_same (noSlot : (part s p).thenSlot = none) : afterReset s p = thenDisabled s p := by
  have h := thenSlot_thenDisabled.trans noSlot
  unfold afterReset
  unfold thenDisabled at h ⊢
  simp only [h]

theorem afterReset_slot {k : Nat} (slot : (part s p).thenSlot = some k) : afterReset s p =
    noteChange (drawKeys (setFld (thenDisabled s p) (partBase p + 0x28) 3 0 k) k) (partBase p + 0x28) true := by
  have h := thenSlot_thenDisabled.trans slot
  unfold afterReset
  unfold thenDisabled at h ⊢
  simp only [h]

@[simp] theorem reg_drawKeys (k : Nat) : reg (drawKeys s k) o = reg s o := rfl

/-- But for PART_KEY, what follows a reset leaves the registers as the disabling does. -/
theorem reg_afterReset_ne (h : o ≠ partBase p + 0x28) : reg (afterReset s p) o = reg (thenDisabled s p) o := by
  cases slot : (part s p).thenSlot with
  | none => rw [afterReset_same slot]
  | some k => rw [afterReset_slot slot, reg_noteChange, reg_drawKeys, setFld, reg_setReg_ne h]

/-- Disabled where that was what reset the partition. -/
theorem fld_afterReset_enable (hs : canonical s = true) (off : (part s p).thenOff = true) :
    fld (afterReset s p) (partBase p) 0 0 = 0 := by
  rw [fld, reg_afterReset_ne (by omega), thenDisabled, if_pos off, reg_noteChange]
  exact fld_setFld_low hs (by decide)

/-- On the new key slot where that was what reset the partition. -/
theorem fld_afterReset_slot {k : Nat} (hs : canonical s = true) (small : k < 16) (slot : (part s p).thenSlot = some k) :
    fld (afterReset s p) (partBase p + 0x28) 3 0 = k := by
  rw [afterReset_slot slot, fld, reg_noteChange, reg_drawKeys]
  exact (fld_setFld_low (keeps_thenDisabled.2 hs) (by decide)).trans (Nat.mod_eq_of_lt small)

section
variable (hs : canonical s = true) (running : (part s p).resetting = true)
include hs running

theorem resetting_endReset (inside : p < 16) : (part (endReset s p) p).resetting = false := by
  have length : p < (afterReset (zeroed s (resetOffsets s p)) p).parts.length := by
    obtain ⟨-, -, -, parts, -⟩ := canonical_iff.1 ((keeps_afterReset (p := p)).2 ((keeps_zeroed (resetOffsets s p)).2 hs))
    omega
  rw [endReset_eq running, part_setPart_self length]

/-- Q_CTRL of each queue that the partition owns is 0. -/
theorem reg_endReset_queue {q : Nat} (inside : p < 16) (queue : q < 64) (owned : owner s q = p) :
    reg (endReset s p) (queueBase q) = 0 := by
  have listed : queueBase q ∈ resetOffsets s p :=
    List.mem_append_left _ (List.mem_map_of_mem (by simp [ownedQueues, queue, owned]))
  have apart : queueBase q ≠ partBase p ∧ queueBase q ≠ partBase p + 0x28 := by rw [queueBase, partBase]; omega
  obtain ⟨ctrl, key⟩ := apart
  rw [endReset_eq running]
  refine (reg_afterReset_ne key).trans ?_
  rw [reg_thenDisabled_ne ctrl, reg_zeroed hs, if_pos listed]

theorem fld_endReset_enable (off : (part s p).thenOff = true) : fld (endReset s p) (partBase p) 0 0 = 0 := by
  rw [endReset_eq running]
  exact fld_afterReset_enable ((keeps_zeroed _).2 hs) (by rwa [part, zeroed_parts])

theorem fld_endReset_slot {k : Nat} (small : k < 16) (slot : (part s p).thenSlot = some k) :
    fld (endReset s p) (partBase p + 0x28) 3 0 = k := by
  rw [endReset_eq running]
  exact fld_afterReset_slot ((keeps_zeroed _).2 hs) small (by rwa [part, zeroed_parts])

end

/-- Settles O32: each write's equation by what it changes, and RESETTING at the first step of a reset and after its last. -/
theorem partitionControlWrites : Obligations.PartitionControlWrites := by
  unfold Obligations.PartitionControlWrites
  intro port p v s
  refine ⟨?_, ?_, ?_, ?_, fun alive_s => congrArg Host.Outcome.next (if_pos alive_s),
    fun hs => ⟨fun free => ?_, fun running => ?_⟩⟩
  · rintro want rfl reach ok noClear
    refine ⟨fun same trigger => congrArg Host.Outcome.next (busWrite_partCtrl_reset reach ok noClear same trigger),
      fun was on noTrigger => congrArg Host.Outcome.next ?_,
      fun was off => congrArg Host.Outcome.next (busWrite_partCtrl_disable reach ok noClear was off)⟩
    refine (busWrite_partCtrl_enable reach ok noClear was on noTrigger).trans ?_
    rw [vfEnabled, stored_hpUp]
  · rintro o want rfl rfl reach ok noClear noAction changed
    exact congrArg Host.Outcome.next (busWrite_partKey p.isLt reach ok noClear noAction changed)
  · rintro o rfl reach ok noClear noAction
    rw [← noAction] at ok
    exact congrArg Host.Outcome.next ((busWrite_settable reach ok noClear).trans (effects_quiet (quietReg_partStep p) ..))
  · rintro e o u rfl rfl
    exact execStepSrcWrite_edge
  · obtain ⟨-, -, -, parts, -⟩ := canonical_iff.1 hs
    exact resetting_partReset (by omega) free
  · exact ⟨if_pos running, _, rfl, resetting_endReset hs running p.isLt, fun q => reg_endReset_queue hs running p.isLt,
      fld_endReset_enable hs running, fun k => fld_endReset_slot hs running⟩

end Sys2Proof.Machine

/-!
Rings and doorbells: writes of Q_CTRL, of the index registers, of DB_STEP and of the push slots (R86, R116, R117, R120, R123 to
R125).
-/

namespace Sys2Proof.Machine

variable {s : State} {fn port q : Nat} {v : Word}

/-! ### Q_CTRL (R117) -/

/-- Beside the register itself a write of Q_CTRL sets nothing going but the indices of the rings that it enables. -/
theorem effects_queueCtrl {old new wo : Nat} (inside : q < 64) :
    effects s (queueBase q) old new wo = queueStart s q old new := by
  have index : (queueBase q - 0x50000) / 0x1000 = q := by rw [queueBase]; omega
  have first : queueBase q % 0x1000 = 0 := by rw [queueBase]; omega
  rw [effects]
  iterate 7 rw [if_neg (by rw [queueBase]; omega)]
  rw [if_pos (by rw [queueBase]; omega), if_pos first, index]

section
variable {old new : Nat}

theorem queueStart_sq (same : bitN new 1 = bitN old 1) (was : bitN old 0 = false) (on : bitN new 0 = true) :
    queueStart s q old new = setQueue s q fun x =>
      { x with sqPi := 0, sqCi := 0, cqPi := 0, cqCi := 0, sqStop := false, promised := 0, mirrored := 0, marker := 0 } := by
  simp [queueStart, same, was, on]

theorem queueStart_dr (same : bitN new 0 = bitN old 0) (was : bitN old 1 = false) (on : bitN new 1 = true) :
    queueStart s q old new = setQueue s q fun x => { x with drPi := 0, drCi := 0, drStop := false } := by
  simp [queueStart, same, was, on]

/-- A bit that the write does not take from 0 to 1 starts no ring. -/
theorem queueStart_none (sq : (!bitN old 0 && bitN new 0) = false) (dr : (!bitN old 1 && bitN new 1) = false) :
    queueStart s q old new = s := by
  simp [queueStart, sq, dr]

end

/-- Settles O33: the write stores Q_CTRL, and the bits that it takes from 0 to 1 start their rings. -/
theorem queueControlWrites : Obligations.QueueControlWrites := by
  unfold Obligations.QueueControlWrites
  rintro fn port q v want s rfl reach ok noClear
  have whole : busWrite s fn port (queueOff fn q) v = queueStart (stored s (queueBase q) (written s (queueBase q) v)) q
      (reg s (queueBase q)).toNat (written s (queueBase q) v).toNat :=
    (busWrite_settable reach ok noClear).trans (effects_queueCtrl q.isLt)
  refine ⟨fun same => ⟨fun was on => ?_, fun was off => ?_⟩, fun same => ⟨fun was on => ?_, fun was off => ?_⟩⟩
  · exact congrArg Host.Outcome.next (whole.trans (queueStart_sq same was on))
  · exact congrArg Host.Outcome.next (whole.trans (queueStart_none (by rw [bitN_toNat, bitN_toNat, off, Bool.and_false])
      (by rw [bitN_toNat, bitN_toNat, same, Bool.not_and_self])))
  · exact congrArg Host.Outcome.next (whole.trans (queueStart_dr same was on))
  · exact congrArg Host.Outcome.next (whole.trans (queueStart_none
      (by rw [bitN_toNat, bitN_toNat, same, Bool.not_and_self]) (by rw [bitN_toNat, bitN_toNat, off, Bool.and_false])))

/-! ### The doorbell page (R86, R120, R123 to R125) -/

theorem pageOpen_iff : pageOpen s fn port q = true ↔
    presented s fn port = true ∧ owner s q = fn ∧ s.fatal = false ∧ (part s fn).resetting = false := by
  simp [pageOpen, and_assoc]

theorem pageWrite_open (h : pageOpen s fn port q = true) (f : State → State) : pageWrite s fn port q f = f s := by
  obtain ⟨here, owned, sound, free⟩ := pageOpen_iff.1 h
  simp [pageWrite, here, owned, sound, free]

theorem piOk_iff {p c : Word} {d : Nat} : piOk v p c d = true ↔
    (v - c).toNat ≤ d ∧ (v - p).toNat ≤ (c + BitVec.ofNat 32 d - p).toNat := by
  simp [piOk]

/-- A producer index is refused where the ring is not enabled or one of the two bounds is passed. -/
theorem enabled_piOk_eq_false {p c : Word} {d : Nat} {on : Bool}
    (h : on = false ∨ d < (v - c).toNat ∨ (c + BitVec.ofNat 32 d - p).toNat < (v - p).toNat) :
    (on && piOk v p c d) = false := by
  rw [Bool.and_eq_false_iff, ← Bool.not_eq_true (piOk ..), piOk_iff, not_and_or, not_le, not_le]
  exact h

/-- Settles O36: a page that is open takes the write, and the ring's bounds decide between its index and DB_ERR. -/
theorem indexWrites : Obligations.IndexWrites := by
  unfold Obligations.IndexWrites
  refine ⟨fun fn port q v s page => ⟨fun on depth ahead => ?_, fun on ahead => ?_, fun on depth ahead => ?_⟩,
    fun fn port q v s page => ⟨fun bad => ?_, fun bad => ?_, fun bad => ?_⟩⟩
  · exact congrArg Host.Outcome.next ((pageWrite_open page _).trans (if_pos (by rw [on, piOk_iff.2 ⟨depth, ahead⟩]; rfl)))
  · exact congrArg Host.Outcome.next ((pageWrite_open page _).trans (if_pos (by rw [on, decide_eq_true ahead]; rfl)))
  · exact congrArg Host.Outcome.next ((pageWrite_open page _).trans (if_pos (by rw [on, piOk_iff.2 ⟨depth, ahead⟩]; rfl)))
  · exact congrArg Host.Outcome.next
      ((pageWrite_open page _).trans (if_neg (Bool.eq_false_iff.1 (enabled_piOk_eq_false bad))))
  · refine congrArg Host.Outcome.next ((pageWrite_open page _).trans (if_neg ?_))
    rw [Bool.and_eq_true, decide_eq_true_eq, not_and_or, Bool.not_eq_true, not_le]
    exact bad
  · exact congrArg Host.Outcome.next
      ((pageWrite_open page _).trans (if_neg (Bool.eq_false_iff.1 (enabled_piOk_eq_false bad))))

/-- A write of whole words within one push slot, by the slot and the word it begins at. -/
theorem execPushSlotWrite_within {fn : Fin 16} {port : Fin 8} {q : Fin 64} {slot word : Nat} {bytes : List Byte}
    (page : pageOpen s fn port q = true) (slots : slot < 4) (words : word < 16) (some_ : bytes ≠ [])
    (whole : bytes.length % 4 = 0) (within : 4 * word + bytes.length ≤ 64) :
    execPushSlotWrite fn port q (0x100 + 64 * slot + 4 * word) bytes s = .next (setQueue s q fun x =>
      { x with push := modAt x.push slot fun y =>
        { mask := y.mask ||| BitVec.ofNat 16 ((2 ^ (bytes.length / 4) - 1) * 2 ^ word),
          bytes := putAll zero (4 * word) bytes y.bytes } }) := by
  have index : (0x100 + 64 * slot + 4 * word - 0x100) / 64 = slot := by omega
  have start : (0x100 + 64 * slot + 4 * word) % 64 = 4 * word := by omega
  have first : 4 * word / 4 = word := by omega
  have legal : ((0x100 + 64 * slot + 4 * word) % 4 ≠ 0 || bytes.length % 4 ≠ 0 || bytes.isEmpty ||
      0x100 + 64 * slot + 4 * word < 0x100 || 0x200 ≤ 0x100 + 64 * slot + 4 * word || 64 < 4 * word + bytes.length) = false := by
    have filled : bytes.isEmpty = false := by simpa using some_
    simp only [filled, Bool.or_eq_false_iff, decide_eq_false_iff_not, ne_eq, not_not, and_true]
    omega
  rw [execPushSlotWrite, start, legal, if_neg Bool.false_ne_true, pageWrite_open page, index, first]

/-- Settles O37: DB_STEP by the partition's step source, and a push slot's write by its slot and first word. -/
theorem stepAndPushWrites : Obligations.StepAndPushWrites := by
  unfold Obligations.StepAndPushWrites
  refine fun fn port q s page => ⟨fun v doorbell => ?_, fun v other => ?_, fun slot word bytes => execPushSlotWrite_within page⟩
  · exact congrArg Host.Outcome.next ((pageWrite_open page _).trans (if_pos doorbell))
  · exact congrArg Host.Outcome.next ((pageWrite_open page _).trans (if_neg other))

end Sys2Proof.Machine

/-!
Entries taken from submission queues, and the commands that chapter 4 defines: NOP, EVENT_WAIT and ABORT, with the interrupt of a
coalescing time (R126, R127, R129, R130, R133, R141, R145, R147).
-/

namespace Sys2Proof.Machine

variable {s t u : State} {q c : Nat} {i : Word} {e : List Byte}

/-! ### Rings under an update -/

theorem queue_setQueue_self {f : Queue → Queue} (inside : q < s.queues.length) : queue (setQueue s q f) q = f (queue s q) := by
  simp [queue, modAt, List.getD_eq_getElem?_getD, inside]

theorem queue_setQueue_ne {f : Queue → Queue} (h : q ≠ c) : queue (setQueue s c f) q = queue s q := by
  simp [queue, modAt, List.getD_eq_getElem?_getD, Ne.symm h]

/-- An update that leaves a field of a ring leaves it of every ring. -/
theorem queue_setQueue_field {α : Type} {f : Queue → Queue} (g : Queue → α) (h : ∀ x, g (f x) = g x) :
    g (queue (setQueue s c f) q) = g (queue s q) := by
  by_cases same : q = c
  · subst same
    by_cases inside : q < s.queues.length
    · rw [queue_setQueue_self inside, h]
    · simp [queue, modAt, List.getD_eq_getElem?_getD, List.getElem?_eq_none (Nat.le_of_not_lt inside)]
  · rw [queue_setQueue_ne same]

/-! ### What a read of an entry leaves (R126) -/

theorem freeBufs_eq (hs : List Nat) : freeBufs s hs =
    { s with bufs := (freeBufs s hs).bufs, superblocks := (freeBufs s hs).superblocks } := by
  unfold freeBufs
  split <;> rfl

theorem readReturned_eq (p n : Nat) : readReturned s p n =
    { s with regs := (countRead s p n).regs, unretired := (readReturned s p n).unretired
             bufs := (readReturned s p n).bufs, superblocks := (readReturned s p n).superblocks } := by
  rw [readReturned, retireAll, freeBufs_eq]
  rfl

theorem sqEntry_eq : (sqEntry s q i).2 = s ∨ (sqEntry s q i).2 = readReturned s (owner s q) 64 := by
  unfold sqEntry
  split
  · exact .inl rfl
  · dsimp only
    split
    · exact .inl rfl
    · exact .inr rfl

/-- The read of an entry leaves the commands and the rings. -/
theorem sqEntry_leaves (read : sqEntry s q i = (some e, u)) :
    u.cmds = s.cmds ∧ u.nextCmd = s.nextCmd ∧ u.queues = s.queues := by
  have after : u = (sqEntry s q i).2 := by rw [read]
  rcases sqEntry_eq (s := s) (q := q) (i := i) with same | returned
  · simp [after, same]
  · rw [after, returned, readReturned_eq]
    exact ⟨rfl, rfl, rfl⟩

/-! ### A whole entry (R127, R129, R130) -/

/-- s once index i of SQ q, whose entry has no extension, is taken: its push slot is free, the consumer index is past it, a slot
of the CQ is promised, and the entry is counted. -/
def indexTaken (s : State) (q : Nat) (i : Word) : State :=
  let t := setQueue (clearPush s q i) q fun x => { x with sqCi := i + 1 }
  bump (setQueue t (cqSel t q) fun x => { x with promised := x.promised + 1 }) (queueBase q + 0x58)

/-- The command of entry e at index i of SQ q. -/
def entryCmd (s : State) (q : Nat) (i : Word) (e : List Byte) : Cmd :=
  ⟨s.nextCmd, q, owner s q, leAt e 0 1, BitVec.ofNat 32 (leAt e 4 4), bitN (leAt e 1 1) 6, operandsOf e, [], i + 1, false,
    if bitN (leAt e 1 1) 6 then s.nextCmd else (queue s q).marker⟩

/-- s with command x outstanding; a marker among the commands of its SQ is noted (R131). -/
def outstandingWith (s : State) (x : Cmd) : State :=
  { setQueue { s with nextCmd := s.nextCmd + 1 } x.q fun y => { y with marker := x.after } with cmds := s.cmds ++ [x] }

theorem takeFrom_whole (read : sqEntry s q (queue s q).sqCi = (some e, u)) (short : leAt e 1 1 < 128)
    (sound : malformed e none = none) : takeFrom s q =
      outstandingWith (indexTaken u q (queue s q).sqCi) (entryCmd (indexTaken u q (queue s q).sqCi) q (queue s q).sqCi e) := by
  have noExt : bitN (leAt e 1 1) 7 = false := Nat.testBit_lt_two_pow short
  simp only [takeFrom, read, noExt, Bool.false_and, Bool.false_eq_true, if_false, sound]
  rfl

theorem sqCi_indexTaken (inside : q < s.queues.length) : (queue (indexTaken s q i) q).sqCi = i + 1 := by
  let t := setQueue (clearPush s q i) q fun x => { x with sqCi := i + 1 }
  have promised : (queue (setQueue t (cqSel t q) fun x => { x with promised := x.promised + 1 }) q).sqCi = (queue t q).sqCi :=
    queue_setQueue_field (·.sqCi) fun _ => rfl
  refine promised.trans ?_
  rw [queue_setQueue_self (by simpa [clearPush, modAt] using inside)]

@[simp] theorem indexTaken_cmds : (indexTaken s q i).cmds = s.cmds := rfl
@[simp] theorem indexTaken_nextCmd : (indexTaken s q i).nextCmd = s.nextCmd := rfl

theorem execTakeSqEntry_turn {p : Fin 16} (alive_s : alive s = true) (ready : s.boot.ready = true)
    (free : (part s p).resetting = false) (turn : 0 < (part s p).rrLeft) (named : (part s p).rrQueue = q)
    (takes : takable s p q = true) :
    execTakeSqEntry p s = .next (takeFrom (setPart s p fun x => { x with rrLeft := x.rrLeft - 1 }) q) := by
  simp [execTakeSqEntry, alive_s, ready, free, turn, named, takes]

/-- What is outstanding once command x has joined v. -/
theorem outstandingWith_cmds (v : State) (x : Cmd) : (outstandingWith v x).cmds = v.cmds ++ [x] := rfl
theorem outstandingWith_nextCmd (v : State) (x : Cmd) : (outstandingWith v x).nextCmd = v.nextCmd + 1 := rfl
theorem outstandingWith_sqCi (v : State) (x : Cmd) : (queue (outstandingWith v x) q).sqCi = (queue v q).sqCi :=
  queue_setQueue_field (s := { v with nextCmd := v.nextCmd + 1 }) (·.sqCi) fun _ => rfl

/-- Settles O38: the turn names the queue, and what its entry leaves is read off the command that it becomes. -/
theorem entryTaken : Obligations.EntryTaken := by
  unfold Obligations.EntryTaken
  intro p s u e q alive_s ready free _ turn named takes inside queues _ read short sound
  obtain ⟨cmds, next, rings⟩ := sqEntry_leaves read
  let i := (queue s q).sqCi
  let x := entryCmd (indexTaken u q i) q i e
  have runs : execTakeSqEntry p s = .next (outstandingWith (indexTaken u q i) x) :=
    (execTakeSqEntry_turn alive_s ready free turn named takes).trans
      (congrArg Host.Outcome.next (takeFrom_whole read short sound))
  refine ⟨outstandingWith (indexTaken u q i) x, x, runs, ?_, rfl, next, ?_, rfl, rfl, rfl, rfl, rfl, rfl, ?_⟩
  · rw [outstandingWith_cmds, indexTaken_cmds, cmds, setPart_cmds]
  · rw [outstandingWith_nextCmd, indexTaken_nextCmd, next, setPart_nextCmd]
  · rw [outstandingWith_sqCi, sqCi_indexTaken (by rw [rings]; exact queues ▸ inside)]

/-! ### COAL_US_EXPIRY, NOP, EVENT_WAIT and ABORT (R133, R141, R145, R147) -/

section
variable {x y : Cmd}

theorem execEventWait_held {a : Event} {l : List Event} (h : starts s c 0x60 x = true)
    (held : (part s x.part).events = a :: l) : execEventWait c s = .next
      (complete (setPart s x.part fun y => { y with events := l }) x ⟨0, 0, a.code, a.data.toNat, false⟩) := by
  rw [execEventWait, withCmd_starts h, held]

theorem execEventWait_waits (h : starts s c 0x60 x = true) (none_ : (part s x.part).events = []) :
    execEventWait c s = .next (startCmd s c) := by
  rw [execEventWait, withCmd_starts h, none_]

theorem execAbort_denied (h : starts s c 0x61 x = true) (other : owner s (opBits x 1 5 0) ≠ x.part) :
    execAbort c s = .next (complete s x (plain 0x0F)) := by
  rw [execAbort, withCmd_starts h]
  exact congrArg Host.Outcome.next (if_pos other)

section
variable (h : starts s c 0x61 x = true) (own : owner s (opBits x 1 5 0) = x.part)
include h own

theorem execAbort_unmatched
    (none_ : (s.cmds.find? fun y => y.q = opBits x 1 5 0 && y.tag.toNat = opBits x 0 31 0 && y.id ≠ x.id) = none) :
    execAbort c s = .next (complete s x (okWith 0)) := by
  rw [execAbort, withCmd_starts h]
  simp only [own, ne_eq, not_true_eq_false, if_false, none_]

theorem execAbort_ends
    (found : (s.cmds.find? fun y => y.q = opBits x 1 5 0 && y.tag.toNat = opBits x 0 31 0 && y.id ≠ x.id) = some y)
    (endable : ¬ y.opcode ∈ [0x10, 0x11, 0x61]) : execAbort c s = .next
      (complete (complete (unwind s y) y ⟨0x0E, 0, x.tag.toNat, 0, false⟩) x (okWith 1)) := by
  rw [execAbort, withCmd_starts h]
  simp only [own, ne_eq, not_true_eq_false, if_false, found, endable]

end

end

/-- Settles O39: each command's equation as it starts. -/
theorem eventAndAbortCommands : Obligations.EventAndAbortCommands := by
  unfold Obligations.EventAndAbortCommands
  refine ⟨fun q s alive_s counted on timed => ?_, fun c s x h => congrArg Host.Outcome.next (withCmd_starts h),
    fun c s x h => ⟨fun _ _ => execEventWait_held h, execEventWait_waits h⟩,
    fun c s x h => ⟨execAbort_denied h, fun own => ⟨execAbort_unmatched h own, fun _ => execAbort_ends h own⟩⟩⟩
  exact congrArg Host.Outcome.next (if_pos (by simp [alive_s, counted, on, timed]))

end Sys2Proof.Machine

/-!
What the commands of the queues leave unchanged: host memory but for the completion entry and the mirrored producer index, the
registers but for the host ports' byte counters, the rings but for the completion queue's, and every thread, sample and epoch
(R130, R133, R148).
-/

namespace Sys2Proof.Machine

variable {s t u : State} {M N : Set Nat} {Q R : Set Nat}

/-! ### What differs between two states -/

/-- The fields of a frame that a command leaves as they are. -/
def framed (s : State) : Nat × List Thread × List Sample × List Epoch × Tap :=
  (s.port0, s.threads, s.samples, s.epochs, s.tap)

/-- t has the bytes of s outside M, its registers but for the host ports' byte counters, its rings but for those in Q, and its
framed fields. -/
structure Frame (M Q : Set Nat) (s t : State) : Prop where
  mem : ∀ a, a ∉ M → look zero t.hostMem a = look zero s.hostMem a
  regs : ∀ o, o < 0x6000 ∨ 0x6080 ≤ o → reg t o = reg s o
  rings : ∀ q, q ∉ Q → queue t q = queue s q
  rest : framed t = framed s

theorem Frame.refl (s : State) : Frame M Q s s := ⟨fun _ _ => rfl, fun _ _ => rfl, fun _ _ => rfl, rfl⟩

theorem Frame.trans (h : Frame M Q s t) (g : Frame M Q t u) : Frame M Q s u :=
  ⟨fun a ha => (g.mem a ha).trans (h.mem a ha), fun o ho => (g.regs o ho).trans (h.regs o ho),
    fun q hq => (g.rings q hq).trans (h.rings q hq), g.rest.trans h.rest⟩

theorem Frame.mono (h : Frame M Q s t) (hM : M ⊆ N) (hQ : Q ⊆ R) : Frame N R s t :=
  ⟨fun a ha => h.mem a fun m => ha (hM m), h.regs, fun q hq => h.rings q fun m => hq (hQ m), h.rest⟩

theorem frame_ite {p : Prop} [Decidable p] (h : Frame M Q s t) (g : Frame M Q s u) : Frame M Q s (if p then t else u) := by
  split
  · exact h
  · exact g

/-- An update of fields that a frame does not mention. -/
theorem frame_rfl (h : (t.hostMem, t.regs, t.queues, framed t) = (s.hostMem, s.regs, s.queues, framed s) := by rfl) :
    Frame M Q s t := by
  simp only [Prod.mk.injEq] at h
  obtain ⟨mem, regs, rings, rest⟩ := h
  exact ⟨fun _ _ => by rw [mem], fun _ _ => by rw [reg, regs, reg], fun _ _ => by rw [queue, rings, queue], rest⟩

theorem Frame.same (h : Frame M Q s t)
    (e : (u.hostMem, u.regs, u.queues, framed u) = (t.hostMem, t.regs, t.queues, framed t) := by rfl) : Frame M Q s u :=
  h.trans (frame_rfl e)

theorem Frame.port0 (h : Frame M Q s t) : t.port0 = s.port0 := congrArg Prod.fst h.rest

/-! ### What the registers of two framed states give -/

section
variable (h : Frame M Q s t) (o : Nat)
include h

theorem Frame.fld (far : 0x6080 ≤ o) (a b : Nat) : fld t o a b = fld s o a b := by
  rw [Machine.fld, h.regs o (.inr far), Machine.fld]

theorem Frame.reg64 (far : 0x6080 ≤ o) : reg64 t o = reg64 s o := by
  rw [Machine.reg64, h.regs o (.inr far), h.regs (o + 4) (.inr (by omega)), Machine.reg64]

omit o
variable (q : Nat)

theorem Frame.cqSel : cqSel t q = cqSel s q := h.fld _ (by rw [queueBase]; omega) 5 0

theorem Frame.owner : owner t q = owner s q := by
  have masks : qmask t = qmask s := funext fun p => h.reg64 _ (by rw [partBase]; omega)
  rw [Machine.owner, masks, Machine.owner]

theorem Frame.qSpace : qSpace t q = qSpace s q := by
  have far : 0x6080 ≤ queueBase q + 0x40 := by rw [queueBase]; omega
  rw [Machine.qSpace, h.fld _ far, h.fld _ far, h.owner, Machine.qSpace]

end

/-- The address keys of a span. -/
def spanKeys (sp : Nat × Nat) : Set Nat := {a | outside a sp = false}

theorem notMem_spanKeys {a : Nat} {sp : Nat × Nat} : a ∉ spanKeys sp ↔ outside a sp = true := by simp [spanKeys]

theorem Frame.mirrorSpan (h : Frame M Q s t) (q : Nat) : mirrorSpan t q = mirrorSpan s q := by
  rw [Machine.mirrorSpan, h.cqSel, h.qSpace, h.reg64 _ (by rw [queueBase]; omega), Machine.mirrorSpan]

theorem Frame.cqeSpan (h : Frame M ∅ s t) (q : Nat) : cqeSpan t q = cqeSpan s q := by
  have far (o : Nat) : 0x6080 ≤ queueBase (Machine.cqSel s q) + o := by rw [queueBase]; omega
  rw [Machine.cqeSpan, h.cqSel, h.qSpace, h.reg64 _ (far 0x14), h.rings _ (Set.notMem_empty _), cqDepth, h.fld _ (far 0x1C),
    Machine.cqeSpan, cqDepth]

/-! ### Requests toward a host -/

theorem frame_setQueue (c : Nat) (f : Queue → Queue) : Frame M {c} s (setQueue s c f) :=
  ⟨fun _ _ => rfl, fun _ _ => rfl, fun _ hq => queue_setQueue_ne hq, rfl⟩

theorem reg_bump64_ne {a n o : Nat} (low : o ≠ a) (high : o ≠ a + 4) : reg (bump64 s a n) o = reg s o :=
  (reg_setReg_ne high).trans (reg_setReg_ne low)

/-- The counters of the bytes that a host port has moved (Table 18.11). -/
theorem frame_portBytes {port a : Nat} (inside : port < 8) (counter : a = 0x6000 + 16 * port ∨ a = 0x6008 + 16 * port) (n : Nat) :
    Frame M Q s (bump64 s a n) :=
  ⟨fun _ _ => rfl, fun _ _ => reg_bump64_ne (by omega) (by omega), fun _ _ => rfl, rfl⟩

theorem bits_lt (x m l : Nat) : bits x m l < 2 ^ (m + 1 - l) := Nat.mod_lt _ (Nat.two_pow_pos _)

/-- Each partition's port is a host port (R37, R38). -/
theorem portOf_lt (port : s.port0 < 8) (p : Nat) : portOf s p < 8 := by
  unfold portOf primaryPort secondaryPort
  split
  · exact port
  · split
    · exact bits_lt _ 10 8
    · exact bits_lt _ 2 0

theorem frame_poke {k n : Nat} {l : List Byte} (length : l.length = n) : Frame (spanKeys (k, n)) Q s (poke s k l) :=
  ⟨fun a ha => look_poke_outside (by rw [notMem_spanKeys] at ha; simpa [outside, length] using ha), fun _ _ => rfl,
    fun _ _ => rfl, rfl⟩

theorem frame_sendWrite {port n : Nat} {w : HostWrite} (inside : port < 8) (length : w.bytes.length = n) :
    Frame (spanKeys (w.key, n)) Q s (sendWrite s port w) := by
  unfold sendWrite
  exact ((frame_ite (.refl s) (frame_poke length)).trans (frame_portBytes inside (.inl rfl) _)).same

section
variable (port : s.port0 < 8)
include port

theorem frame_hostWrite {p k n : Nat} {l : List Byte} (length : l.length = n) :
    Frame (spanKeys (k, n)) Q s (hostWrite s p k l) := by
  unfold hostWrite hostReq
  exact frame_ite (frame_sendWrite (w := ⟨p, k, l, []⟩) (portOf_lt port p) length) frame_rfl

omit port in
theorem frame_msix (p : Nat) (i : Irq) : Frame M Q s (hostReq s p (.msix i)) := by
  unfold hostReq
  exact frame_ite frame_rfl frame_rfl

omit port in
theorem frame_queueIrq (c : Nat) : Frame M {c} s (queueIrq s c) := (frame_setQueue c _).trans (frame_msix _ _)

theorem frame_mirror (c : Nat) :
    Frame (spanKeys (hostKey (qSpace s c) (reg64 s (queueBase c + 0x20)), 4)) {c} s (mirror s c) := by
  unfold mirror
  exact ((frame_hostWrite port (length_toLe 4 _)).trans (frame_setQueue c _)).trans (frame_ite (frame_queueIrq c) (.refl _))

end

/-! ### Completion entries (R130, R133) -/

/-- t differs from s, of all that a frame speaks of, at most in what a completion on queue q's CQ writes. -/
def QueueFrame (s : State) (q : Nat) (t : State) : Prop :=
  Frame (spanKeys (cqeSpan s q) ∪ spanKeys (mirrorSpan s q)) {cqSel s q} s t

/-- t differs from s in nothing that a frame speaks of but the host ports' byte counters. -/
abbrev Calm (s t : State) : Prop := Frame ∅ ∅ s t

variable {q : Nat} {x : Cmd}

theorem Frame.queueFrame (h : Calm s t) : QueueFrame s q t := h.mono (Set.empty_subset _) (Set.empty_subset _)

theorem QueueFrame.after (h : Calm s t) (g : QueueFrame t q u) : QueueFrame s q u := by
  rw [QueueFrame, h.cqeSpan, h.mirrorSpan, h.cqSel] at g
  exact h.queueFrame.trans g

theorem queueFrame_writeCqe (port : s.port0 < 8) {l : List Byte} (length : l.length = 32) : QueueFrame s q (writeCqe s q l) := by
  let c := cqSel s q
  have entry : Frame (spanKeys (cqeSpan s q)) {c} s (setQueue (hostWrite s (owner s c)
      (hostKey (qSpace s c) (reg64 s (queueBase c + 0x14) + 32 * ((queue s c).cqPi.toNat % cqDepth s c))) l) c fun x =>
      { x with cqPi := x.cqPi + 1, promised := x.promised - 1 }) :=
    (frame_hostWrite port length).trans (frame_setQueue c _)
  have index := frame_mirror (entry.port0 ▸ port) c
  rw [entry.qSpace, entry.reg64 _ (by rw [queueBase]; omega)] at index
  exact (entry.mono Set.subset_union_left subset_rfl).trans (index.mono Set.subset_union_right subset_rfl)

theorem length_cqeBytes (tag ci : Word) (op status detail r0 r1 q flags : Nat) :
    (cqeBytes tag op status detail r0 r1 ci q flags).length = 32 := by
  simp [cqeBytes]

theorem queueFrame_complete (port : s.port0 < 8) (r : Result) : QueueFrame s x.q (complete s x r) := by
  let t : State := { s with cmds := s.cmds.filter fun y => y.id ≠ x.id }
  have entry : QueueFrame t x.q (complete s x r) := queueFrame_writeCqe (s := t) port (length_cqeBytes ..)
  exact .after frame_rfl entry

/-- A completion after what a frame does not speak of. -/
theorem Frame.complete (h : Calm s t) (port : s.port0 < 8) (r : Result) : QueueFrame s x.q (complete t x r) :=
  .after h (queueFrame_complete (h.port0 ▸ port) r)

theorem queueFrame_ite {p : Prop} [Decidable p] (h : QueueFrame s q t) (g : QueueFrame s q u) :
    QueueFrame s q (if p then t else u) := frame_ite h g

/-! ### How a command starts -/

section
variable {c op : Nat} {f : State → Cmd → State} (port : s.port0 < 8) (named : cmdOf s c = some x)
  (run : ∀ t, t.port0 < 8 → QueueFrame t x.q (f t x))
include port named run

theorem queueFrame_withCmd : QueueFrame s x.q (withCmd s c op f) := by
  rcases withCmd_cases (s := s) (n := c) (k := op) (g := f) with idle | ⟨y, start, runs⟩
  · rw [idle]
    exact (Frame.refl s).queueFrame
  · simp only [starts, Bool.and_eq_true, decide_eq_true_eq] at start
    obtain ⟨⟨⟨⟨found, -⟩, -⟩, -⟩, -⟩ := start
    obtain rfl := Option.some.inj (named.symm.trans found)
    rw [runs]
    exact run s port

theorem queueFrame_withHost : QueueFrame s x.q (withHost s c op f) := by
  refine queueFrame_withCmd port named fun t port => ?_
  refine queueFrame_ite (Frame.refl t).queueFrame ?_
  split
  · exact run t port
  · rename_i r _
    have brings : Calm t (withBrought t r) := frame_rfl
    exact Frame.same (QueueFrame.after brings (run _ port))

end

/-! ### What the commands do beside their completion -/

theorem calm_freeBufs (hs : List Nat) : Calm s (freeBufs s hs) := by
  rw [freeBufs_eq]
  exact frame_rfl

theorem calm_readReturned (port : s.port0 < 8) (p n : Nat) : Calm s (readReturned s p n) :=
  (frame_portBytes (portOf_lt port p) (.inr rfl) n).trans (Frame.trans frame_rfl (calm_freeBufs _))

section
variable (port : s.port0 < 8)
include port

theorem queueFrame_loadChecked (r : Recipe) : QueueFrame s x.q (loadChecked s x r) := by
  unfold loadChecked
  split
  · exact queueFrame_complete port _
  · dsimp only
    split
    · exact queueFrame_complete port _
    · exact Frame.complete frame_rfl port _

theorem queueFrame_checkNames (l : List Byte) (r : Recipe) : QueueFrame s x.q (checkNames s x l r) := by
  unfold checkNames
  split
  · exact queueFrame_complete port _
  · split
    · exact queueFrame_complete port _
    · split
      · exact queueFrame_complete port _
      · exact queueFrame_loadChecked port r

theorem queueFrame_checkRecipe (l : List Byte) (id : Nat) : QueueFrame s x.q (checkRecipe s x l id) := by
  refine queueFrame_ite (queueFrame_complete port _) (queueFrame_ite (queueFrame_complete port _) ?_)
  split
  · exact queueFrame_complete port _
  · exact queueFrame_checkNames port l _

theorem queueFrame_checkChain (l : List Byte) (id : Nat) : QueueFrame s x.q (checkChain s x l id) := by
  refine queueFrame_ite (queueFrame_complete port _) (queueFrame_ite (queueFrame_complete port _) ?_)
  split
  · exact queueFrame_complete port _
  · split
    · exact queueFrame_complete port _
    · exact queueFrame_loadChecked port _

theorem queueFrame_withImage {n : Nat} {go : State → List Byte → State}
    (run : ∀ t l, t.port0 < 8 → QueueFrame t x.q (go t l)) : QueueFrame s x.q (withImage s x n go) := by
  have returned := calm_readReturned port x.part n
  exact queueFrame_ite (queueFrame_complete port _) (.after returned (run _ _ (returned.port0 ▸ port)))

theorem queueFrame_withTensors {fit : Desc → Desc → Bool} {go : State → Tensor → Tensor → State}
    (run : ∀ f t, QueueFrame s x.q (go s f t)) : QueueFrame s x.q (withTensors s x fit go) := by
  unfold withTensors
  split
  · exact queueFrame_complete port _
  · exact queueFrame_complete port _
  · exact queueFrame_ite (queueFrame_complete port _) (run _ _)

end

/-! ### The commands -/

/-- A command's outcome differs from s, of all that a frame speaks of, at most in the completion on queue q's CQ. -/
def Leaves (s : State) (q : Nat) (o : Out) : Prop := ∀ t, o = .next t → QueueFrame s q t

theorem leaves_next (h : QueueFrame s q t) : Leaves s q (.next t) := by
  rintro u ⟨⟩
  exact h

section
variable {c : Nat} (port : s.port0 < 8) (named : cmdOf s c = some x)
include port named

theorem leaves_execNop : Leaves s x.q (execNop c s) :=
  leaves_next (queueFrame_withCmd port named fun _ port => queueFrame_complete port _)

theorem leaves_execEventWait : Leaves s x.q (execEventWait c s) := by
  refine leaves_next (queueFrame_withCmd port named fun t port => ?_)
  split
  · exact Frame.complete frame_rfl port _
  · exact Frame.queueFrame frame_rfl

theorem leaves_execRecipeLoad : Leaves s x.q (execRecipeLoad c s) :=
  leaves_next (queueFrame_withHost port named fun _ port =>
    queueFrame_withImage port fun _ l port => queueFrame_checkRecipe port l _)

theorem leaves_execFusedChain : Leaves s x.q (execFusedChain c s) :=
  leaves_next (queueFrame_withHost port named fun _ port =>
    queueFrame_withImage port fun _ l port => queueFrame_checkChain port l _)

theorem leaves_execRecipeUnload : Leaves s x.q (execRecipeUnload c s) := by
  refine leaves_next (queueFrame_withCmd port named fun t port => ?_)
  dsimp only
  split
  · exact queueFrame_complete port _
  · exact queueFrame_ite (queueFrame_complete port _) (Frame.complete frame_rfl port _)

theorem leaves_execModelUnload : Leaves s x.q (execModelUnload c s) := by
  refine leaves_next (queueFrame_withCmd port named fun t port => ?_)
  dsimp only
  split
  · exact queueFrame_complete port _
  · exact queueFrame_ite (queueFrame_complete port _) (Frame.complete (Frame.trans frame_rfl (calm_freeBufs _)) port _)

theorem leaves_execDictUnload : Leaves s x.q (execDictUnload c s) := by
  refine leaves_next (queueFrame_withCmd port named fun t port => ?_)
  dsimp only
  split
  · exact queueFrame_complete port _
  · exact queueFrame_ite (queueFrame_complete port _) (Frame.complete (Frame.trans frame_rfl (calm_freeBufs _)) port _)

theorem leaves_execCalibrate : Leaves s x.q (execCalibrate c s) := by
  refine leaves_next (queueFrame_withHost port named fun t port => ?_)
  split
  · exact queueFrame_complete port _
  · refine queueFrame_ite (queueFrame_complete port _) (queueFrame_ite (queueFrame_complete port _) ?_)
    exact ((calm_readReturned port _ _).same).queueFrame

theorem leaves_execSourceBind : Leaves s x.q (execSourceBind c s) := by
  refine leaves_next (queueFrame_withCmd port named fun t port => ?_)
  refine queueFrame_ite (queueFrame_complete port _) (queueFrame_ite (queueFrame_complete port _)
    (queueFrame_ite (Frame.complete frame_rfl port _) (queueFrame_ite (queueFrame_complete port _)
      (queueFrame_ite (queueFrame_complete port _) ?_))))
  split
  · exact queueFrame_complete port _
  · refine queueFrame_ite (queueFrame_complete port _) ?_
    split
    · exact queueFrame_complete port _
    · exact Frame.complete frame_rfl port _

theorem leaves_execNsGrant : Leaves s x.q (execNsGrant c s) := by
  refine leaves_next (queueFrame_withCmd port named fun t port => ?_)
  exact queueFrame_ite (queueFrame_complete port _) (queueFrame_ite (queueFrame_complete port _)
    (queueFrame_ite (queueFrame_complete port _) (queueFrame_ite
      (queueFrame_ite (queueFrame_complete port _) (Frame.complete frame_rfl port _)) (Frame.complete frame_rfl port _))))

theorem leaves_execCachePin : Leaves s x.q (execCachePin c s) := by
  refine leaves_next (queueFrame_withCmd port named fun t port => ?_)
  exact queueFrame_ite (queueFrame_complete port _) (queueFrame_ite (queueFrame_complete port _)
    (queueFrame_ite (queueFrame_complete port _) (Frame.complete frame_rfl port _)))

theorem leaves_execCacheUnpin : Leaves s x.q (execCacheUnpin c s) :=
  leaves_next (queueFrame_withCmd port named fun _ port =>
    queueFrame_ite (queueFrame_complete port _) (Frame.complete frame_rfl port _))

theorem leaves_execTensorCreate : Leaves s x.q (execTensorCreate c s) := by
  refine leaves_next (queueFrame_withHost port named fun t port => queueFrame_ite (queueFrame_complete port _) ?_)
  have returned := calm_readReturned port x.part 128
  dsimp only
  split
  · exact returned.complete port _
  · split
    · exact returned.complete port _
    · split
      · exact queueFrame_ite (returned.same.complete port _) (returned.same.complete port _)
      · exact returned.same.complete port _

theorem leaves_execTensorDestroy : Leaves s x.q (execTensorDestroy c s) := by
  refine leaves_next (queueFrame_withCmd port named fun t port => ?_)
  split
  · exact queueFrame_complete port _
  · exact Frame.queueFrame frame_rfl

theorem leaves_execCopyLayout : Leaves s x.q (execCopyLayout c s) :=
  leaves_next (queueFrame_withCmd port named fun _ port =>
    queueFrame_withTensors port fun _ _ => Frame.queueFrame frame_rfl)

theorem leaves_execRestore : Leaves s x.q (execRestore c s) := by
  refine leaves_next (queueFrame_withCmd port named fun t port => ?_)
  split
  · exact queueFrame_complete port _
  · exact queueFrame_ite (queueFrame_complete port _) (queueFrame_ite (queueFrame_complete port _) (Frame.queueFrame frame_rfl))

theorem leaves_execSpillFree : Leaves s x.q (execSpillFree c s) := by
  refine leaves_next (queueFrame_withCmd port named fun t port => ?_)
  split
  · exact queueFrame_complete port _
  · exact Frame.queueFrame frame_rfl

end

/-- Settles O40: each command changes what a frame speaks of by its completion at most. -/
theorem queueCommandFrame : Obligations.QueueCommandFrame := by
  unfold Obligations.QueueCommandFrame
  intro i c s s' x hs named listed runs
  obtain ⟨-, -, -, -, -, port⟩ := canonical_iff.1 hs
  have frame : QueueFrame s x.q s' := by
    simp only [List.mem_cons, List.not_mem_nil, or_false] at listed
    obtain rfl | rfl | rfl | rfl | rfl | rfl | rfl | rfl | rfl | rfl | rfl | rfl | rfl | rfl | rfl | rfl | rfl := listed
    · exact leaves_execNop port named s' runs
    · exact leaves_execEventWait port named s' runs
    · exact leaves_execRecipeLoad port named s' runs
    · exact leaves_execFusedChain port named s' runs
    · exact leaves_execRecipeUnload port named s' runs
    · exact leaves_execModelUnload port named s' runs
    · exact leaves_execDictUnload port named s' runs
    · exact leaves_execCalibrate port named s' runs
    · exact leaves_execSourceBind port named s' runs
    · exact leaves_execNsGrant port named s' runs
    · exact leaves_execCachePin port named s' runs
    · exact leaves_execCacheUnpin port named s' runs
    · exact leaves_execTensorCreate port named s' runs
    · exact leaves_execTensorDestroy port named s' runs
    · exact leaves_execCopyLayout port named s' runs
    · exact leaves_execRestore port named s' runs
    · exact leaves_execSpillFree port named s' runs
  have rest := frame.rest
  simp only [framed, Prod.mk.injEq] at rest
  obtain ⟨-, threads, samples, epochs, tap⟩ := rest
  refine ⟨fun a entry mirror => frame.mem a ?_, frame.regs, fun q other => frame.rings q other, threads, samples, epochs, tap⟩
  simp only [Set.mem_union, not_or, notMem_spanKeys]
  exact ⟨entry, mirror⟩

end Sys2Proof.Machine

/-!
Epochs opened, resumed and closed (R144, R256, R498, R532 to R535, R537).
-/

namespace Sys2Proof.Machine

variable {s u : State} {c q : Nat} {x : Cmd} {r : Recipe} {l k : List Byte} {e : Epoch}

/-! ### EPOCH_OPEN and EPOCH_RESUME (Table 15.3, Table 15.9) -/

theorem openChecked_passes {go : State → State} (six : stepSix l r (opBits x 5 12 0) (xopBits x 0 1 0) = none)
    (fits : epochFit s r = none) (admitted : admissionStop s r = none) : openChecked s x r l go = go s := by
  simp only [openChecked, six, fits, admitted]

section
variable (free : queueTaken s x.q c = false) (ring : qDrEn s x.q = true) (table : readTable s x = .ok l)
  (after : u = readReturned s x.part l.length) (six : stepSix l r (opBits x 5 12 0) (xopBits x 0 1 0) = none)
  (fits : epochFit u r = none) (admitted : admissionStop u r = none)
include free ring table after six fits admitted

/-- In a mode whose seed the host gives the epoch opens at batch 0 with it. -/
theorem execEpochOpen_passes (h : reads s c 0x10 x = true) (named : recipeOf s x.part (opBits x 0 31 0) = some r)
    (given : modeOf r (xopBits x 0 1 0) ≠ 2) : execEpochOpen c s = .next (openEpoch u x
      (newEpoch u x r l (opBits x 0 47 32) (opBits x 3 40 0) 0 (BitVec.ofNat 128 (op64 x 2 * 2 ^ 64 + op64 x 1))) 0 0 0) := by
  subst after
  rw [execEpochOpen, withHost_reads h]
  simp only [free, ring, Bool.not_true, Bool.or_self, Bool.false_eq_true, if_false, named, table,
    openChecked_passes six fits admitted, given]

/-- With a cursor that passes its checks the epoch opens at the batch after the cursor's, with the log and the counts that it
holds. -/
theorem execEpochResume_passes {seed : BitVec 128} {logs : List LogRec} (h : reads s c 0x11 x = true)
    (sound : faulty u (cmdKey u x (op64 x 0)) 128 = false) (cursor : k = hostBytes u (cmdKey u x (op64 x 0)) 128)
    (magic : leAt k 0 4 = 0x52535543) (version : leAt k 4 1 = 3) (crc : leAt k 124 4 = crc32c (k.take 124))
    (named : recipeOf u x.part (leAt k 8 4) = some r) (unfinished : bitN (leAt k 12 1) 5 = false)
    (given : seed = BitVec.ofNat 128 (op64 x 2 * 2 ^ 64 + op64 x 1)) (key : leAt k 40 8 = keyHash seed (tableCrc l))
    (batch : leAt k 14 2 = opBits x 5 12 0)
    (log : readLogs u (qSpace u x.q) (leAt k 48 8) (leAt k 56 1) (leAt k 72 8) (leAt k 64 8 - leAt k 72 8) = some logs) :
    ∃ gone reissue, execEpochResume c s = .next (openEpoch u x
      { newEpoch u x r l (leAt k 6 2) (leAt k 32 6) (leAt k 16 8 + 1) seed with
        gone := gone, reissue := reissue, logHead := leAt k 64 8, logFloor := leAt k 72 8, logLive := logs
        delivered := leAt k 80 8, droppedN := leAt k 88 8, deferredN := leAt k 96 8, lastOk := some (leAt k 16 8) }
      (leAt k 16 8 + 1) 0 0) := by
  subst after given cursor
  have runs := execEpochResume.eq_def c s
  rw [withHost_reads h] at runs
  simp only [free, ring, Bool.not_true, Bool.or_self, Bool.false_eq_true, if_false, table, sound, magic, version, crc, named,
    unfinished, key, batch, log, ne_eq, not_true_eq_false, or_self, openChecked_passes six fits admitted] at runs
  exact ⟨_, _, runs⟩

end

/-! ### EPOCH_CLOSE (R537) and the completion of an opening (R144) -/

theorem execEpochClose_drains (h : starts s c 0x12 x = true) (found : epochOf s x.q = some e) (drain : opBits x 0 0 0 = 1) :
    execEpochClose c s = .next (startCmd s c) := by
  rw [execEpochClose, withCmd_starts h]
  simp only [found, drain, if_true]

theorem execEpochClose_ends (h : starts s c 0x12 x = true) (found : epochOf s x.q = some e) (now : opBits x 0 0 0 ≠ 1) :
    execEpochClose c s = .next (finishClose (complete (endEpoch (closeOpening s x.q) x.q) x (okWith (lastReleased e))) x.q
      (lastReleased e) 1) := by
  rw [execEpochClose, withCmd_starts h]
  simp only [found, now, if_false]

/-- The command that opened an epoch completes once a sample of it has started. -/
theorem finishOpen_started {r0 r1 : Nat} {cal : Bool} (found : epochOf s q = some e)
    (opening : e.opening = some (c, r0, r1, cal)) (named : cmdOf s c = some x)
    (started : ∃ y, y ∈ s.samples ∧ ofEpoch q y = true ∧ y.started = true) :
    finishOpen s q = complete (setEpoch s q fun e => { e with opening := none }) x ⟨0, 0, r0, r1, cal⟩ := by
  have some_ : (s.samples.any fun y => ofEpoch q y && y.started) = true := by simpa [and_assoc] using started
  have still : cmdOf (setEpoch s q fun e => { e with opening := none }) c = some x := named
  simp only [finishOpen, found, opening, some_, Bool.not_true, Bool.and_false, Bool.false_eq_true, if_false, still]

/-- Settles O44: an opening by its checks, a closing by DRAIN, and what completes an opening. -/
theorem epochCommands : Obligations.EpochCommands := by
  unfold Obligations.EpochCommands
  refine fun c s u x r l e => ⟨?_, ?_, fun h found => ⟨execEpochClose_drains h found, execEpochClose_ends h found⟩,
    fun q r0 r1 cal => finishOpen_started⟩
  · rintro h free ring named table after six fits admitted given rfl
    exact execEpochOpen_passes free ring table after six fits admitted h named given
  · intro k seed logs h free ring table after sound cursor magic version crc named unfinished given key batch log six fits admitted
    obtain ⟨gone, reissue, opens⟩ := execEpochResume_passes free ring table after six fits admitted h sound cursor magic version
      crc named unfinished given key batch log
    exact ⟨_, _, opens, rfl, rfl, rfl, rfl, rfl, rfl, rfl, rfl, rfl, rfl, rfl, rfl, rfl, rfl⟩

end Sys2Proof.Machine

/-!
Delivery: placement copies, delivery entries, releases, and the time limits of a batch (R151 to R153, R503, R506 to R520, R536,
R539, R604, R663).
-/

namespace Sys2Proof.Machine

variable {s u : State} {e : Epoch} {x : Sample}

/-! ### Samples under an update -/

theorem find?_updIf {α : Type} {p : α → Bool} {f : α → α} {l : List α} (h : ∀ a, p a = true → p (f a) = true) :
    (updIf p f l).find? p = (l.find? p).map f := by
  have same : (p ∘ fun a => if p a then f a else a) = p := funext fun a => by
    by_cases pa : p a = true <;> simp [pa, h a]
  rw [updIf, List.find?_map, same]
  cases found : l.find? p with
  | none => rfl
  | some a => simp [List.find?_some found]

theorem sampleOf_setSample_self {h : Nat} {f : Sample → Sample} (found : sampleOf s h = some x) (keeps : ∀ y, (f y).h = y.h) :
    sampleOf (setSample s h f) h = some (f x) := by
  rw [sampleOf, setSample_samples, find?_updIf fun y hy => by simpa [keeps] using hy]
  exact congrArg (Option.map f) found

/-! ### Placement copies (R503) -/

theorem execPlacementCopyEnd_ends {q : Fin 64} {pos : Nat} {t : Transfer} (alive_s : alive s = true)
    (found : s.transfers.find? (isPlace q pos) = some t) (running : t.halted = false) (port : canSend s t.part = true)
    (open_ : placeHeld s t q pos = false) : execPlacementCopyEnd q pos s = .next (endPlacement s q pos true) := by
  simp [execPlacementCopyEnd, found, alive_s, running, port, open_]

/-! ### Delivery entries (R151 to R153) -/

section
variable {q : Fin 64} (alive_s : alive s = true) (found : epochOf s q = some e) (free : (part s e.part).resetting = false)
  (port : canSend s e.part = true) (enabled : qDrEn s q = true) (running : (queue s q).drStop = false) (filled : drCount s q ≠ 0)
  (slot : cqFree s (cqSel s q) = true) (untaken : (e.entries.all fun d => d.batch ≠ e.open_) = true)
  (wanted : (e.slots.any (·.pos.isSome)) = true ∨ batchComplete s e = true)

include alive_s free port enabled running filled slot untaken wanted in
/-- Nothing stands against taking the next delivery entry for the open batch. -/
theorem deliveryEntry_ready : (!alive s || (part s e.part).resetting || !canSend s e.part || !qDrEn s q || (queue s q).drStop ||
    drCount s q = 0 || !cqFree s (cqSel s q) || e.entries.any (·.batch = e.open_) ||
    !(e.slots.any (·.pos.isSome) || batchComplete s e)) = false := by
  have none_ : (e.entries.any (·.batch = e.open_)) = false := by simpa using untaken
  rw [← Bool.or_eq_true] at wanted
  simp only [alive_s, free, port, enabled, running, filled, slot, none_, wanted, Bool.not_true, Bool.or_self, decide_false]

include alive_s found free port enabled running filled slot untaken wanted
variable {key : Nat}
  (place_ : key = hostKey (qSpace s q) (reg64 s (queueBase q + 0x28) + (queue s q).drCi.toNat % drDepth s q * 64))
include place_

theorem execDeliveryEntryTake_faults (fault : faulty s key 64 = true) :
    execDeliveryEntryTake q s = .next (fetchErr s q true) := by
  subst place_
  have ready := deliveryEntry_ready alive_s free port enabled running filled slot untaken wanted
  simp only [execDeliveryEntryTake, found, ready, Bool.false_eq_true, if_false, fault, if_true]

theorem execDeliveryEntryTake_takes {l : List Byte} (sound : faulty s key 64 = false) (bytes : l = hostBytes s key 64)
    (whole : deliveryErr l e = none)
    (after : u = setQueue (setQueue (readReturned s e.part 64) q fun x => { x with drCi := x.drCi + 1 }) (cqSel
      (setQueue (readReturned s e.part 64) q fun x => { x with drCi := x.drCi + 1 }) q)
      (fun x => { x with promised := x.promised + 1 })) :
    execDeliveryEntryTake q s = .next (settle (setEpoch u q fun e' => { e' with entries := e'.entries ++
      [⟨e.open_, leAt l 0 8, leAt l 8 8, leAt l 16 4, bits (leAt l 20 2) 12 0, BitVec.ofNat 32 (leAt l 24 4),
        (queue u q).drCi⟩] }) q) := by
  subst place_ bytes after
  have ready := deliveryEntry_ready alive_s free port enabled running filled slot untaken wanted
  simp only [execDeliveryEntryTake, found, ready, Bool.false_eq_true, if_false, sound, whole]

end

/-! ### Release (R506, R510, R663) -/

theorem execBatchRelease_releases {q : Fin 64} {d : Delivery} (alive_s : alive s = true) (found : epochOf s q = some e)
    (port : (part s e.part).stranded = false) (opened : e.opening = none) (whole : batchComplete s e = true)
    (due : e.open_ < e.first + e.lead + e.steps ∨
      memberBatches e ≤ e.open_ ∧ unresolved e = false ∧ (e.slots.all fun y => y.pos.isNone) = true)
    (entry : (e.entries.find? fun d => d.batch = e.open_) = some d) : execBatchRelease q s = .next (release s q d) := by
  have due' : (decide (e.open_ < e.first + e.lead + e.steps) ||
      (decide (memberBatches e ≤ e.open_) && !unresolved e && e.slots.all fun y => y.pos.isNone)) = true := by
    simpa [and_assoc] using due
  simp only [execBatchRelease, found, alive_s, port, opened, whole, due', entry, Option.isNone_none, Bool.not_false, Bool.and_self,
    if_true]

/-! ### Time limits (R189, R511, R517 to R520, R539) -/

theorem execGraceWindowEnd_ends {q : Fin 64} (alive_s : alive s = true) (found : epochOf s q = some e)
    (running : e.graceRun = true) : execGraceWindowEnd q none s = .next (graceEnd s q none) := by
  simp [execGraceWindowEnd, found, alive_s, running]

/-- A deferred sample that has spent its budget is dropped where its partition holds 64 stragglers, and becomes one otherwise. -/
theorem overBudget_spent {h : Nat} (found : sampleOf s h = some x) (deferred : x.deferred = true) (first : x.straggler = false)
    (pending : x.ready = false) (inflight : x.copied = false) (spent : x.budget < x.charged) : overBudget s h =
      if stragglers s x.part = 64 then dropSample s h 7 0 0 0 else setSample s h fun y => { y with straggler := true } := by
  simp [overBudget, found, deferred, first, pending, inflight, spent]

theorem execBudgetExceeded_spends {h : Nat} (alive_s : alive s = true) (found : sampleOf s h = some x)
    (deferred : x.deferred = true) (first : x.straggler = false) (pending : x.ready = false) (inflight : x.copied = false)
    (after : u = setSample s h fun y => { y with charged := Nat.max y.charged (y.budget + 1) }) : execBudgetExceeded h s =
      .next (if stragglers u x.part = 64 then dropSample u h 7 0 0 0 else setSample u h fun y => { y with straggler := true }) := by
  subst after
  have spent : x.budget < Nat.max x.charged (x.budget + 1) := Nat.lt_of_lt_of_le (Nat.lt_succ_self _) (Nat.le_max_right ..)
  have runs : execBudgetExceeded h s = .next (overBudget (setSample s h fun y =>
      { y with charged := Nat.max y.charged (y.budget + 1) }) h) := by
    simp [execBudgetExceeded, found, alive_s, deferred, first, pending, inflight]
  exact runs.trans (congrArg Host.Outcome.next (overBudget_spent (x := { x with charged := Nat.max x.charged (x.budget + 1) })
    (sampleOf_setSample_self found fun _ => rfl) deferred first pending inflight spent))

theorem execHardTimeout_drops {h : Nat} (alive_s : alive s = true) (found : sampleOf s h = some x) (inflight : x.copied = false)
    (pending : x.ready = false) (started : x.started = true) : execHardTimeout h s =
      .next (dropSample (raise s ⟨0x1B, false, tileOfSample s x / 24, some x.part, 1, tileOfSample s x⟩) h 6 0 0 0) := by
  simp [execHardTimeout, found, alive_s, inflight, pending, started]

theorem execReleaseTreeTimeout_raises {k i : Nat} {forced : Bool} (alive_s : alive s = true)
    (carried : s.carried.contains (k, i) = true) (serves : unitLost s k i = false)
    (force : forced = (fld s 0x1010 5 5 == 1 && forceUnit 5 (fld s 0x1034 7 0) == (k, i)))
    (after : u = { s with carried := s.carried.filter (· ≠ (k, i)) }) : execReleaseTreeTimeout k i s =
      .next (raise (if forced then setFld u 0x1010 5 5 0 else u) ⟨0x11, forced, if k = 1 then i / 24 else i, none, k, i⟩) := by
  rw [beq_eq_decide, beq_eq_decide] at force
  subst after force
  exact congrArg Host.Outcome.next (if_pos (by rw [alive_s, carried, serves]; rfl))

/-- Settles O56: each event's equation. -/
theorem deliveryEvents : Obligations.DeliveryEvents := by
  unfold Obligations.DeliveryEvents
  refine fun q s u e alive_s => ⟨fun pos t found => execPlacementCopyEnd_ends alive_s found, ?_,
    fun d found => execBatchRelease_releases alive_s found, execGraceWindowEnd_ends alive_s, ?_,
    fun k i forced => execReleaseTreeTimeout_raises alive_s⟩
  · intro key l found free port enabled running filled slot untaken wanted place_
    exact ⟨execDeliveryEntryTake_faults alive_s found free port enabled running filled slot untaken wanted place_,
      execDeliveryEntryTake_takes alive_s found free port enabled running filled slot untaken wanted place_⟩
  · intro h x found inflight pending
    refine ⟨fun deferred first after => ?_, execHardTimeout_drops alive_s found inflight pending⟩
    have spends := execBudgetExceeded_spends alive_s found deferred first pending inflight after
    exact ⟨fun full => spends.trans (congrArg Host.Outcome.next (if_pos full)),
      fun room => spends.trans (congrArg Host.Outcome.next (if_neg room))⟩

end Sys2Proof.Machine

/-!
Recipes loaded, built from chains and unloaded (R155, R165 to R172, R178, R191 to R193, R498).
-/

namespace Sys2Proof.Machine

variable {s u : State} {c id : Nat} {x : Cmd} {r : Recipe} {l : List Byte}

/-! ### RECIPE_LOAD and FUSED_CHAIN (Table 5.4, Table 5.9) -/

theorem withImage_read {n : Nat} {go : State → List Byte → State} (h : imageRead s x n l u) : withImage s x n go = go u l := by
  obtain ⟨sound, rfl, rfl⟩ := h
  simp only [withImage, sound, Bool.false_eq_true, if_false]

theorem execRecipeLoad_reads (h : reads s c 0x01 x = true) (image : imageRead s x (opBits x 1 31 0) l u) :
    execRecipeLoad c s = .next (checkRecipe u x l (opBits x 1 63 32)) := by
  rw [execRecipeLoad, withHost_reads h, withImage_read image]

theorem execFusedChain_reads (h : reads s c 0x08 x = true) (image : imageRead s x (opBits x 1 31 0) l u) :
    execFusedChain c s = .next (checkChain u x l (opBits x 1 63 32)) := by
  rw [execFusedChain, withHost_reads h, withImage_read image]

theorem checkNames_passes (words : programsBad l r = none) (names : namesBad s r = none) (cal : calBad l r.id = none) :
    checkNames s x l r = loadChecked s x r := by
  simp only [checkNames, words, names, cal]

section
variable (nonzero : id ≠ 0) (valid : id ≠ 0xFFFFFFFF) (free : recipeOf s x.part id = none)
include nonzero valid free

theorem checkRecipe_passes (sound : imageBad s x.part l = none) :
    checkRecipe s x l id = checkNames s x l (readRecipe l x.part id (qSpace s x.q) (xopBits x 0 0 0 = 1)) := by
  simp only [checkRecipe, nonzero, valid, or_self, if_false, free, Option.isSome_none, Bool.false_eq_true, sound]

theorem checkChain_passes (sound : chainBad s x.part l = none)
    (built : builtBad l (chainRecipe s x.part id (qSpace s x.q) l (xopBits x 0 0 0 = 1)) = none) :
    checkChain s x l id = loadChecked s x (chainRecipe s x.part id (qSpace s x.q) l (xopBits x 0 0 0 = 1)) := by
  simp only [checkChain, nonzero, valid, or_self, if_false, free, Option.isSome_none, Bool.false_eq_true, sound, built]

end

theorem loadChecked_admitted (fits : loadFit s r = none)
    (admitted : (if (uncosted r).isNone then admissionStop s r else none) = none) : loadChecked s x r =
      complete { s with recipes := s.recipes ++ [r] } x ⟨0, 0, r.id, 0, calStale s r && (uncosted r).isNone⟩ := by
  simp only [loadChecked, fits, admitted, putRecipe]

/-! ### RECIPE_UNLOAD (R172, R178, R498) -/

/-- Whether an epoch, a command that is opening one, or an outstanding CALIBRATE uses a recipe. -/
def recipeUsed (s : State) (p id : Nat) : Bool :=
  (s.epochs.any fun e => e.part = p && e.recipe = id) || s.cmds.any (claimsRecipe s p id) ||
  (s.cmds.any fun k => k.part = p && k.opcode = 7 && opBits k 0 31 0 = id)

theorem recipeUsed_iff {p : Nat} : recipeUsed s p id = true ↔ (s.epochs.any fun e => e.part = p && e.recipe = id) = true ∨
    (s.cmds.any fun k => k.part = p && k.opcode = 7 && opBits k 0 31 0 = id) = true ∨ s.cmds.any (claimsRecipe s p id) = true := by
  rw [recipeUsed, Bool.or_eq_true, Bool.or_eq_true, or_assoc, or_comm (a := s.cmds.any (claimsRecipe s p id) = true)]

theorem recipeUsed_eq_false_iff {p : Nat} : recipeUsed s p id = false ↔
    (s.epochs.all fun e => !(e.part = p && e.recipe = id)) = true ∧
    (s.cmds.all fun k => !(k.part = p && k.opcode = 7 && opBits k 0 31 0 = id)) = true ∧
    s.cmds.any (claimsRecipe s p id) = false := by
  rw [← Bool.not_eq_true, recipeUsed_iff, not_or, not_or, List.all_eq_not_any_not, List.all_eq_not_any_not]
  simp only [Bool.not_not, Bool.not_eq_true, Bool.not_eq_true']

theorem execRecipeUnload_loaded (h : starts s c 0x02 x = true) (named : recipeOf s x.part (opBits x 0 31 0) = some r) :
    execRecipeUnload c s = .next (if recipeUsed s x.part (opBits x 0 31 0) then complete s x denied
      else complete { s with recipes := s.recipes.filter fun r => !(r.part = x.part && r.id = opBits x 0 31 0) } x (plain 0)) := by
  rw [execRecipeUnload, withCmd_starts h]
  simp only [named]
  rfl

/-- Settles O41: a load by the checks that its image passes, an unload by whether the recipe is used. -/
theorem recipeLoads : Obligations.RecipeLoads := by
  unfold Obligations.RecipeLoads
  refine fun c id s u x l => ⟨?_, ?_, fun r => loadChecked_admitted, fun r h named => ⟨fun epochs runs claims => ?_, fun used => ?_⟩⟩
  · rintro r h image rfl nonzero valid free sound rfl words names cal
    exact (execRecipeLoad_reads h image).trans (congrArg Host.Outcome.next
      ((checkRecipe_passes nonzero valid free sound).trans (checkNames_passes words names cal)))
  · rintro r h image rfl nonzero valid free sound rfl built
    exact (execFusedChain_reads h image).trans (congrArg Host.Outcome.next (checkChain_passes nonzero valid free sound built))
  · have unused := recipeUsed_eq_false_iff.2 ⟨epochs, runs, claims⟩
    exact (execRecipeUnload_loaded h named).trans (congrArg Host.Outcome.next (if_neg (Bool.eq_false_iff.1 unused)))
  · exact (execRecipeUnload_loaded h named).trans (congrArg Host.Outcome.next (if_pos (recipeUsed_iff.2 used)))

end Sys2Proof.Machine

/-!
Calibration, the live costs and the pace of a tile (R174 to R177, R181, R297, R624, R649).
-/

namespace Sys2Proof.Machine

variable {s u : State} {c n : Nat} {x : Cmd} {r : Recipe} {run : CalRun} {m : LoadContext}

/-! ### CALIBRATE (R174, R175) -/

theorem execCalibrate_begins {l : List Byte} (h : reads s c 0x07 x = true)
    (named : recipeOf s x.part (opBits x 0 31 0) = some r) (some_ : 1 ≤ opBits x 1 15 0) (within : opBits x 1 15 0 ≤ r.calN)
    (whole : n = 16 * r.calN) (sound : faulty s (hostKey (qSpace s x.q) r.calTable) n = false)
    (table : l = hostBytes s (hostKey (qSpace s x.q) r.calTable) n) : execCalibrate c s =
      .next (startCmd { readReturned s x.part n with calRuns := s.calRuns ++ [⟨c, x.part, r.id, opBits x 1 15 0, 0, 0,
        (List.range r.calN).map fun i => (leAt l (16 * i) 4, leAt l (16 * i + 4) 5, !zeroBytes l (16 * i + 9) (16 * i + 16)),
        xopBits x 0 15 0, op64 x 2, [], false, 0, none⟩] } c) := by
  subst whole table
  have valid : ¬(opBits x 1 15 0 = 0 ∨ r.calN < opBits x 1 15 0 ∨ r.calN = 0) := by omega
  rw [execCalibrate, withHost_reads h]
  simp only [named, valid, if_false, sound, Bool.false_eq_true]

/-! ### The record of a calibration (R176, R177, R297) -/

/-- The record of a run over a recipe of the given number of stages, under the load measured over it: the means of the first
samples asked for. -/
def calRecord (run : CalRun) (stages : Nat) (m : LoadContext) : CalRec :=
  ⟨run.want, run.lanes14, m, (List.range stages).map fun g =>
    (meanOf ((run.measured.take run.want).map fun v => (v.getD g (0, 0)).1),
     meanOf ((run.measured.take run.want).map fun v => (v.getD g (0, 0)).2))⟩

/-- Partition p's recipe of a number has the calibration record k. -/
def withCal (s : State) (p id : Nat) (k : CalRec) : State :=
  { s with recipes := updIf (fun y => y.part = p && y.id = id) (fun y => { y with cal := some k }) s.recipes }

section
variable {k : CalRec} {key : Nat} (h : underway s c 0x07 x = true) (found : (s.calRuns.find? fun r => r.cmd = c) = some run)
  (served : run.failed = none) (sound : run.damaged ≤ run.want / 4) (enough : run.want ≤ run.measured.length)
  (named : recipeOf s x.part run.recipe = some r) (after : u = endCal s c) (means : k = calRecord run r.stages.length m)
  (place_ : key = hostKey (qSpace s x.q) run.recAddr)
include h found served sound enough named after means place_

/-- A run that has measured enough samples ends with its record, as far as the host takes it. -/
theorem execCalibrateDone_measured : execCalibrateDone c m s = .next (
    if faulty u key 256 then complete (hostWrite u x.part key
      ((calBytes run.recipe r.stages.length k).take (okBytes u key 256))) x (partialR (okBytes u key 256))
    else complete (withCal (hostWrite u x.part key (calBytes run.recipe r.stages.length k)) x.part run.recipe k) x
      (okWith run.want)) := by
  subst after means place_
  rw [execCalibrateDone, withStarted_underway h]
  simp only [found, served, Nat.not_lt.2 sound, Nat.not_lt.2 enough, and_false, or_self, if_false, enough, if_true, named]
  rfl

theorem execCalibrateDone_writes (writable : faulty u key 256 = false) : execCalibrateDone c m s =
    .next (complete (withCal (hostWrite u x.part key (calBytes run.recipe r.stages.length k)) x.part run.recipe k) x
      (okWith run.want)) :=
  (execCalibrateDone_measured h found served sound enough named after means place_).trans
    (congrArg Host.Outcome.next (if_neg (by simp [writable])))

theorem execCalibrateDone_faults (fault : faulty u key 256 = true) (before : n = okBytes u key 256) : execCalibrateDone c m s =
    .next (complete (hostWrite u x.part key ((calBytes run.recipe r.stages.length k).take n)) x (partialR n)) := by
  subst before
  exact (execCalibrateDone_measured h found served sound enough named after means place_).trans
    (congrArg Host.Outcome.next (if_pos fault))

end

/-! ### F_LIVE (R180, R181) -/

/-- The cost of stage g of a recipe that its live factor is over: the declared one where the recipe goes by declared costs, else
the two that its record holds. -/
def baseCost (r : Recipe) (g : Nat) (st : Stage) : Nat :=
  if r.fixedCost || r.cal.isNone then (if st.template = 9 then st.declDu else st.declCost)
  else (((r.cal.map (·.cost)).getD []).getD g (0, 0)).1 + (((r.cal.map (·.cost)).getD []).getD g (0, 0)).2

/-- A recipe with every stage's live factor as its last costs give it. -/
def relive (r : Recipe) : Recipe :=
  { r with fLive := r.stages.zipIdx.map fun (st, g) => liveOf (r.recent.getD g []) (baseCost r g st) }

theorem fLive_relive {g : Nat} {st : Stage} (stage : r.stages[g]? = some st) :
    (relive r).fLive[g]? = some (liveOf (r.recent.getD g []) (baseCost r g st)) := by
  simp [relive, stage]

theorem execFLiveRecompute_alive {mu a : Nat} (alive_s : alive s = true) : ∃ es, execFLiveRecompute mu a s =
    .next { s with memU := mu, act := a, recipes := s.recipes.map relive, epochs := es } :=
  ⟨_, congrArg Host.Outcome.next (if_neg (by simp [alive_s]))⟩

/-! ### PACE_REFRESH (R624, R649) -/

/-- On a tile where nothing runs the refresh takes its events into PACE, the lowest pace and the count of events. -/
theorem execPaceRefresh_idle {t : Fin 96} {events vec pace : Nat} {v : State} (alive_s : alive s = true)
    (serving : tileLost s t = false) (reduced : pace = events / 64 * (16 - (dieAt s (t.val / 24)).gate) / 16)
    (paced : u = setFld s (tileBase t + 0x1000) 15 0 pace)
    (counted : v = bump64
      (if pace % 65536 < fld u (tileBase t + 0x1000 + 4) 15 0 then setFld u (tileBase t + 0x1000 + 4) 15 0 pace else u)
      (tileBase t + 0x1000 + 0x48) events)
    (idle : (v.threads.all fun y => !(thTile y.th = some t.val && (y.state = 1 || y.tickets.any (serves v y)))) = true) :
    execPaceRefresh t ⟨events, vec⟩ s = .next v := by
  subst reduced paced
  have none_ : (v.threads.filter fun y => thTile y.th = some t.val && (y.state = 1 || y.tickets.any (serves v y))) = [] :=
    List.filter_eq_nil_iff.2 fun y hy => by
      rw [Bool.not_eq_true, ← Bool.not_eq_true']
      exact List.all_eq_true.1 idle y hy
  subst counted
  rw [execPaceRefresh, if_neg (by simp [alive_s, serving])]
  exact congrArg Host.Outcome.next (if_pos (by rw [none_]; rfl))

/-- Settles O43: a calibration's start and its two ends, the recipes that a recompute leaves, and the refresh of an idle tile. -/
theorem calibrationAndCosts : Obligations.CalibrationAndCosts := by
  unfold Obligations.CalibrationAndCosts
  refine ⟨fun c n s x r l => execCalibrate_begins, ?_, ?_, fun t events vec pace s u v => execPaceRefresh_idle⟩
  · intro c m s u x run r k h found served sound enough named after means
    exact ⟨execCalibrateDone_writes h found served sound enough named after means rfl,
      fun n => execCalibrateDone_faults h found served sound enough named after means rfl⟩
  · intro mu a s alive_s
    obtain ⟨es, runs⟩ := execFLiveRecompute_alive (mu := mu) (a := a) alive_s
    refine ⟨_, runs, rfl, rfl, List.length_map _, fun i g r st recipe stage => ⟨relive r, ?_, fLive_relive stage⟩⟩
    exact (List.getElem?_map ..).trans (congrArg (Option.map relive) recipe)

end Sys2Proof.Machine

/-!
The entropy unit: its commands in the order of issue, and what each of its functions comes to when its ticket completes (R260,
R308, R310 to R313, R335).
-/

namespace Sys2Proof.Machine

variable {s : State} {x : Orony} {t : Thread} {y : Sample} {n blk seq : Nat} {l : List Byte}

/-! ### Unit commands as they issue (R219, R308) -/

theorem invokes_iff {c op : Nat} : invokes s c op x t = true ↔
    executes s c op x t = true ∧ blockIn t x = true ∧ (outstanding t).length < 64 := by
  rw [invokes, Bool.and_eq_true, Bool.and_eq_true, ticketFree_iff, and_assoc]

/-- A block that stands whole in the region raises no fault. -/
theorem blkFault_none (whole : blockIn t x = true) : blkFault t (rs t x.a).toNat = none := by
  simp only [blockIn, Bool.and_eq_true, decide_eq_true_eq] at whole
  obtain ⟨aligned, inside⟩ := whole
  exact tsFault_none aligned inside

/-- A unit command that waits at its issue takes a ticket, which it stands deferred behind. -/
theorem unitIssue_deferred {u v : State} {op : Nat} {defer : Nat → State → UnitOp × State} {run : State → Nat → UnitOut}
    {o : UnitOp} (hx : invokes s 5 op x t = true) (waits : run (issued s x.th) (rs t x.a).toNat = .wait v)
    (deferred : defer (rs t x.a).toNat v = (o, u)) :
    unitIssue s op x defer run = takeTicket u x.th x.d 0 false (some o) fun s _ => s := by
  obtain ⟨hx, whole, free⟩ := invokes_iff.1 hx
  rw [unitIssue, issueScalar_executes hx]
  simp only [blkFault_none whole, Nat.not_le.2 free, waits, deferred, if_false]

theorem euIssue_queues {f : Nat} (hx : invokes s 5 0x00 x t = true) (func : b8 (blockOf t x) 0 = f) :
    euIssue s f x = takeTicket { issued s x.th with nextId := s.nextId + 1 } x.th x.d 0 false
      (some (.eu (rs t x.a).toNat s.nextId)) fun s _ => s := by
  have named : euFunc (tsRead t (rs t x.a).toNat 64) = f := func
  have count : (issued s x.th).nextId = s.nextId := by rw [issued_eq]
  rw [euIssue, threadOf_executes (invokes_iff.1 hx).1]
  simp only [named, ne_eq, not_true_eq_false, false_and, if_false]
  rw [unitIssue_deferred hx rfl rfl, count]

/-! ### The work of a command whose turn it is (R308, R310 to R312) -/

section
variable (thread : threadOf s t.th = some t) (sample : sampleOf s t.sample = some y) (block : l = tsRead t blk 64)
  (first : euBefore s t.th y.h (b8 l 2) seq = false)

include thread sample block first

theorem euRun_refused (refused : euBlockOk s t y l = false) : euRun s t.th blk seq = .done s 5 0 := by
  subst block
  simp [euRun, thread, sample, first, refused]

section
variable (ok : euBlockOk s t y l = true) (ready : euReady s t.th l = true)

include ok ready

theorem euRun_ctxOpen (func : euFunc l = 1) : euRun s t.th blk seq = ctxOpen s t y l := by
  subst block
  simp [euRun, thread, sample, first, ok, ready, func]

section
variable {k : Ctx} (context : ctxOf y (b8 l 2) = some k)

include context

theorem euRun_decodeAu (func : euFunc l = 2) : euRun s t.th blk seq = decodeAu s t y k blk l := by
  subst block
  simp [euRun, thread, sample, first, ok, ready, context, func]

theorem euRun_flush (func : euFunc l = 3) : euRun s t.th blk seq = flushCtx s t y k blk l := by
  subst block
  simp [euRun, thread, sample, first, ok, ready, context, func]

theorem euRun_ctxClose (func : euFunc l = 4) : euRun s t.th blk seq = .done (closeCtx s y k) 0 0 := by
  subst block
  simp [euRun, thread, sample, first, ok, ready, context, func]

end

end

end

/-- The records written complete OK or DAMAGED (R313). -/
theorem writeRecords_status {auCause eu rp : Nat} : (writeRecords s t blk l auCause eu rp).2.1 ≤ 1 := by
  unfold writeRecords
  dsimp only
  split
  · exact Nat.le_refl 1
  · exact Nat.zero_le 1

theorem flushCtx_done {k : Ctx} : ∃ u st c, st ≤ 1 ∧ flushCtx s t y k blk l = .done u st c :=
  ⟨_, _, _, writeRecords_status, rfl⟩

/-! ### The ticket's completion (R198, R260) -/

/-- The unit does the work of an entropy command at its TICKET_COMPLETE. -/
theorem execTicketComplete_eu (turn : unitTurn s .eu t n blk seq) : execTicketComplete t.th n s =
    .next (settleEu t.th n (euFunc (tsRead t blk 64)) (euRun s t.th blk seq)) := by
  obtain ⟨alive_s, thread, ⟨st, wr, f, c, ticket⟩, own⟩ := turn
  simp [execTicketComplete, alive_s, thread, ticket, own]

/-- A command that is done ends its ticket; after a DECODE_AU, refused ones among them, the thread stands at a frame boundary
(log entry 40). -/
theorem execTicketComplete_euDone {u : State} {st c : Nat} (turn : unitTurn s .eu t n blk seq) (block : l = tsRead t blk 64)
    (done : euRun s t.th blk seq = .done u st c) : execTicketComplete t.th n s =
      .next (if euFunc l = 2 then markFrame (endTicket u t.th n st c) t.th else endTicket u t.th n st c) := by
  rw [execTicketComplete_eu turn, done, block]
  rfl

/-- A DECODE_AU that is done. -/
theorem execTicketComplete_decodeAu {u : State} {st c : Nat} (turn : unitTurn s .eu t n blk seq) (block : l = tsRead t blk 64)
    (func : euFunc l = 2) (done : euRun s t.th blk seq = .done u st c) : execTicketComplete t.th n s =
      .next (markFrame (endTicket u t.th n st c) t.th) :=
  (execTicketComplete_euDone turn block done).trans (congrArg Host.Outcome.next (if_pos func))

/-- A command of the other functions that is done. -/
theorem execTicketComplete_euOther {u : State} {st c : Nat} (turn : unitTurn s .eu t n blk seq) (block : l = tsRead t blk 64)
    (func : euFunc l ≠ 2) (done : euRun s t.th blk seq = .done u st c) : execTicketComplete t.th n s =
      .next (endTicket u t.th n st c) :=
  (execTicketComplete_euDone turn block done).trans (congrArg Host.Outcome.next (if_neg func))

/-- Settles O19: the queueing of each function, then what the unit's run of a block comes to, by its FUNC. That every DECODE_AU
that completes marks its thread is log entry 40. -/
theorem entropyUnitFunctions : Obligations.EntropyUnitFunctions := by
  unfold Obligations.EntropyUnitFunctions
  refine ⟨fun x s t hx func => congrArg Host.Outcome.next (euIssue_queues hx func),
    fun x s t hx func => congrArg Host.Outcome.next (euIssue_queues hx func),
    fun x s t hx func => congrArg Host.Outcome.next (euIssue_queues hx func),
    fun x s t hx func => congrArg Host.Outcome.next (euIssue_queues hx func), ?_⟩
  intro s t y n blk seq l turn sample block first
  have ⟨_, thread, _⟩ := turn
  refine ⟨fun refused => execTicketComplete_euDone turn block (euRun_refused thread sample block first refused),
    fun ok ready => ⟨fun func u st c opens => ?_, fun k context => ⟨fun func u st c decodes => ?_, fun func => ?_,
      fun func => ?_⟩⟩⟩
  · exact execTicketComplete_euOther turn block (by omega)
      ((euRun_ctxOpen thread sample block first ok ready func).trans opens)
  · exact execTicketComplete_decodeAu turn block func
      ((euRun_decodeAu thread sample block first ok ready context func).trans decodes)
  · obtain ⟨u, st, c, status, flushes⟩ := flushCtx_done (s := s) (t := t) (y := y) (k := k) (blk := blk) (l := l)
    exact ⟨u, st, c, status, flushes, execTicketComplete_euOther turn block (by omega)
      ((euRun_flush thread sample block first ok ready context func).trans flushes)⟩
  · exact execTicketComplete_euOther turn block (by omega) (euRun_ctxClose thread sample block first ok ready context func)

end Sys2Proof.Machine

/-!
Issue of positions, threads and fetches, and the ends of a fetch and of its attempts (R268 to R270, R277 to R291, R582, R583,
R591).
-/

namespace Sys2Proof.Machine

variable {s u : State} {e : Epoch} {y : Recipe} {d : Dataset} {g : Fetch}

/-! ### Positions (R268, R269) -/

/-- The sample with handle h of position p of queue q's epoch, with what its directory entry was read as. -/
def positionSample (q : Fin 64) (e : Epoch) (h p : Nat) (y : Recipe) (d : Dataset) (dir : Option DirEntry) (st c : Nat) : Sample :=
  { newSample h e.part e.recipe (.epoch q) e.num p (indexOf e p).1 (indexOf e p).2 y.stages.length with
    dir := dir, dirStatus := st, dirCause := c, dirAt := (d.dir, 32 * ((indexOf e p).2 - d.base)) }

/-- An epoch with room and no position to reissue issues its next one. -/
theorem execPositionIssue_epoch {q : Fin 64} {r : SourceRead} {h p st c : Nat} {dir : Option DirEntry} (alive_s : alive s = true)
    (found : epochOf s q = some e) (room : startedOf s q < e.inflight) (fresh : e.reissue = [])
    (next : p = skipGone e (e.gone.length + 1) e.nextIssue) (remains : p < e.n) (free : freeHandle s = some h)
    (recipe : recipeOf s e.part e.recipe = some y) (dataset : e.datasets[(indexOf e p).1]? = some d)
    (read : readDirectory s e.part d.dir ((indexOf e p).2 - d.base) r = some (dir, st, c)) :
    execPositionIssue (.epoch q) r s = .next { setEpoch s q (fun e => { e with nextIssue := p + 1 }) with
      samples := s.samples ++ [positionSample q e h p y d dir st c] } := by
  subst next
  have due : (decide (e.inflight ≤ startedOf s q) ||
      decide (e.n ≤ skipGone e (e.gone.length + 1) e.nextIssue)) = false := by
    simpa using And.intro room remains
  simp [execPositionIssue, alive_s, issueEpoch, found, fresh, due, free, recipe, dataset, read, positionSample, newSample]

/-! ### Threads (R582, R583) -/

/-- Of the partitions that wait, the one that comes first has the thread. -/
theorem execThreadAssign_assigns {v : State} {p : Nat} {l : List Nat} (alive_s : alive s = true)
    (noted : v = noteWaits (refetchAll s)) (waiting : ((List.range 16).filter fun p => (assignIn v p).isSome) = p :: l)
    (assigned : assignIn v (l.foldl (fun a b => if servedBefore v b a then b else a) p) = some u) :
    execThreadAssign s = .next u := by
  subst noted
  simp [execThreadAssign, alive_s, waiting, assigned]

/-! ### Fetches issued (R270, R277, R591) -/

theorem unstall_of_not_stalled (flows : g.stalled = false) : unstall s g = none := by
  simp [unstall, flows]

section
variable {k : Fin 4} {r : SourceRead}

/-- No sample of the die's engine has records to read. -/
theorem findSome_readIndex_none
    (indexed : ∀ x ∈ engineSamples s k, x.recsRead = true ∨ x.dirStatus ≠ 0 ∨ wantsIndex s x.h = false) :
    ((engineSamples s k).findSome? fun x =>
      if !x.recsRead && x.dirStatus = 0 && wantsIndex s x.h then readIndex s k x r else none) = none := by
  rw [List.findSome?_eq_none_iff]
  intro x hx
  obtain read | failed | idle := indexed x hx
  · simp [read]
  · simp [failed]
  · simp [idle]

/-- No sample of the die's engine has come to a block list, whatever f would do with one. -/
theorem findSome_pendingList_none {f : Sample → Rec × Nat × Nat × Nat → Option State}
    (listed : ∀ x ∈ engineSamples s k, pendingList x = none) :
    ((engineSamples s k).findSome? fun x => (pendingList x).bind (f x)) = none := by
  rw [List.findSome?_eq_none_iff]
  intro x hx
  rw [listed x hx, Option.bind_none]

/-- No fetch of the die waits for buffers. -/
theorem findSome_unstall_none (flowing : ∀ f ∈ s.fetches, f.die = k.val → f.stalled = false) :
    ((s.fetches.filter fun f => f.die = k.val).findSome? (unstall s)) = none := by
  rw [List.findSome?_eq_none_iff]
  intro f hf
  obtain ⟨mem, die⟩ := List.mem_filter.1 hf
  exact unstall_of_not_stalled (flowing f mem (of_decide_eq_true die))

/-- The engine that has no records, no list and no waiting fetch before them sends the first piece that can go. -/
theorem execFetchIssue_sends (alive_s : alive s = true) (die : dieLost s k = false)
    (settled : ∀ x, x ∈ engineSamples s k →
      (x.recsRead = true ∨ x.dirStatus ≠ 0 ∨ wantsIndex s x.h = false) ∧ pendingList x = none)
    (flowing : ∀ f, f ∈ s.fetches → f.die = k.val → f.stalled = false)
    (piece : (nextPieces s k).findSome? (issuePiece s k) = some u) : execFetchIssue k r s = .next u := by
  have indexed := findSome_readIndex_none (r := r) fun x hx => (settled x hx).1
  have listed x (hx : x ∈ engineSamples s k) := (settled x hx).2
  simp only [execFetchIssue, alive_s, die, indexed, findSome_pendingList_none listed, findSome_unstall_none flowing, piece,
    Bool.not_true, Bool.or_self, Bool.false_eq_true, if_false, Option.getD_some]

end

/-! ### Ends of the attempt under way (R286, R289, R290, R664) -/

section
variable {f : Nat}

theorem execFetchCompletion_ends {r : FetchEnd} (alive_s : alive s = true) (found : fetchOf s f = some g)
    (running : g.halted = false) (sends : g.drive.isSome = true ∨ canSend s g.part = true) :
    execFetchCompletion f r s = .next (fetchEnds s g r) := by
  simp [execFetchCompletion, found, alive_s, running, sends]

theorem execFetchAttemptTimeout_expires (alive_s : alive s = true) (found : fetchOf s f = some g)
    (running : g.halted = false) (sends : g.drive.isSome = true ∨ canSend s g.part = true) :
    execFetchAttemptTimeout f none s = .next (attemptExpires s g false) := by
  have timed : (g.drive.isNone && !canSend s g.part) = false := by
    simpa [or_iff_not_imp_left] using sends
  simp [execFetchAttemptTimeout, found, alive_s, running, timed]

/-- The timer of a host fetch stands while its partition cannot send. -/
theorem execFetchAttemptTimeout_stands {m : Option FetchEnd} (found : fetchOf s f = some g) (host : g.drive = none)
    (port : canSend s g.part = false) : execFetchAttemptTimeout f m s = .next s := by
  simp [execFetchAttemptTimeout, found, host, port]

/-! ### Ends of a timed-out attempt (R288, R289) -/

variable {held : List Nat}

theorem execNvmeAbortCompletion_ends (alive_s : alive s = true) (old : oldAttempt s f = some (g, held)) :
    execNvmeAbortCompletion f s = .next (attemptOver s f g held) := by
  simp [execNvmeAbortCompletion, old, alive_s]

/-- The data that a drive returns late ends the old attempt and no other. -/
theorem execFetchCompletion_late {l : List Byte} (alive_s : alive s = true) (old : oldAttempt s f = some (g, held))
    (gone : fetchOf s f = none) : execFetchCompletion f (.data l) s = .next (attemptOver s f g held) := by
  simp [execFetchCompletion, gone, old, alive_s]

theorem execNvmeAbortTimeout_contains {sp link : Nat} {x : Drive} (alive_s : alive s = true)
    (old : oldAttempt s f = some (g, held)) (drive : g.drive = some (sp, link)) (bound : driveOf s sp link = some x) :
    execNvmeAbortTimeout f s = .next (containLink (driveUnusable s sp link 6 0) sp link) := by
  simp [execNvmeAbortTimeout, old, drive, bound, alive_s]

end

/-- Settles O54: each event's equation where it acts, and the timer of a host fetch that stands. -/
theorem issueAndFetchEvents : Obligations.IssueAndFetchEvents := by
  unfold Obligations.IssueAndFetchEvents
  intro s u alive_s
  refine ⟨?_, fun p l v => execThreadAssign_assigns alive_s, fun d r => execFetchIssue_sends alive_s,
    fun f g found running => ⟨fun r => execFetchCompletion_ends alive_s found running,
      execFetchAttemptTimeout_expires alive_s found running, fun host port m => execFetchAttemptTimeout_stands found host port⟩,
    fun f g held old => ⟨execNvmeAbortCompletion_ends alive_s old, fun gone l => execFetchCompletion_late alive_s old gone,
      fun sp link d => execNvmeAbortTimeout_contains alive_s old⟩⟩
  intro q r e h y d dir st c p found room fresh next remains free recipe dataset read
  exact ⟨positionSample q e h p y d dir st c,
    execPositionIssue_epoch alive_s found room fresh next remains free recipe dataset read,
    rfl, rfl, rfl, rfl, rfl, rfl, rfl, rfl, rfl, rfl, rfl, rfl, rfl⟩

end Sys2Proof.Machine

/-!
The reconstruction pipe, the frozen encoders and the dictionary units: their commands as they issue, and a dictionary unit's work
at TICKET_COMPLETE (R219, R302, R470, R490, R585).
-/

namespace Sys2Proof.Machine

variable {s u : State} {x : Orony} {t : Thread} {n blk seq st c : Nat}

/-! ### Tickets as commands issue (R199, R219) -/

/-- Only a DAMAGED command leaves its cause in the sample's damage record (R299). -/
theorem keepCause_of_ne {h : Nat} (sound : st ≠ 1) : keepCause s h st c = s := if_neg sound

/-- A unit command whose work is done as it issues takes a ticket that has its status already. -/
theorem unitIssue_done {op : Nat} {defer : Nat → State → UnitOp × State} {run : State → Nat → UnitOut}
    (hx : invokes s 5 op x t = true) (done : run (issued s x.th) (rs t x.a).toNat = .done u st c) :
    unitIssue s op x defer run = takeTicket (keepCause u t.sample st c) x.th x.d st false none fun s _ => s := by
  obtain ⟨hx, whole, free⟩ := invokes_iff.1 hx
  rw [unitIssue, issueScalar_executes hx]
  simp only [blkFault_none whole, Nat.not_le.2 free, done, if_false]

/-- What an instruction does at once counts only on the state that its ticket leaves. -/
theorem takeTicket_congr {th : ThreadRef} {d status : Nat} {write : Bool} {op : Option UnitOp} {f g : State → Nat → State}
    (same : ∀ k n, f (setThread s th k) n = g (setThread s th k) n) :
    takeTicket s th d status write op f = takeTicket s th d status write op g := by
  unfold takeTicket
  split
  · rfl
  · split
    · rfl
    · exact same _ _

/-! ### The reconstruction pipe and SELECT (R302, R474) -/

/-- The pipe refuses every block (log entry 21). -/
theorem execRp_refuses (hx : invokes s 5 0x01 x t = true) :
    execRp x s = .next (takeTicket (issued s x.th) x.th x.d 5 false none fun s _ => s) := by
  rw [execRp, unitIssue_done hx rfl, keepCause_of_ne (by decide)]

theorem execSelect_done (hx : invokes s 5 0x03 x t = true) (func : b8 (blockOf t x) 0 = 2)
    (done : selectRun (issued s x.th) x.th (rs t x.a).toNat = .done u 0 c) :
    execSelect x s = .next (takeTicket u x.th x.d 0 false none fun s _ => s) := by
  have select : b8 (tsRead t (rs t x.a).toNat 64) 0 ≠ 1 := fun layer => absurd (func.symm.trans layer) (by decide)
  rw [execSelect, threadOf_executes (invokes_iff.1 hx).1]
  simp only [select, if_false]
  rw [unitIssue_done hx done, keepCause_of_ne (by decide)]

/-! ### LAYER (R470) -/

/-- No buffer is the last one filled where none stands. -/
theorem lastLanding_of_nil {d m : Nat} (empty : s.landing = []) : lastLanding s d m = none := by
  rw [lastLanding, empty]
  rfl

/-- A LAYER command whose cluster has no chunk ready claims none: its job waits for all the chunks of its layer. -/
theorem layerIssue_waits {m : Model} {y : Layer} (hx : invokes s 5 0x03 x t = true)
    (func : (parseBls (blockOf t x)).func = 1) (ok : layerOk (issued s x.th) t (blockOf t x) = true)
    (layer : blsLayer (issued s x.th) t (parseBls (blockOf t x)) = some (m, y))
    (unready : (s.landing.find? fun b => b.cluster = clusterOf x.th && b.ready) = none) :
    layerIssue x s = takeTicket (issued s x.th) x.th x.d 0 false (some (.layer (rs t x.a).toNat m.uid
      (((chunksOf m).zipIdx.filter fun (c, _) => c.layer = (parseBls (blockOf t x)).idx).map (·.2)))) fun s _ => s := by
  obtain ⟨hx, whole, -⟩ := invokes_iff.1 hx
  have ready : ((issued s x.th).landing.filter fun b => b.cluster = clusterOf x.th && b.ready) = [] := by
    rw [issued_eq]
    exact List.filter_eq_nil_iff.2 (List.find?_eq_none.1 unready)
  unfold blockOf at func ok layer
  rw [layerIssue, issueScalar_executes hx]
  simp only [blkFault_none whole, func, ok, layer, decide_true, Bool.and_self, if_true]
  refine takeTicket_congr fun k n => ?_
  rw [setThread_landing, lastLanding_of_nil ready]

theorem execLayer_func (hx : invokes s 5 0x03 x t = true) (func : b8 (blockOf t x) 0 = 1) :
    execLayer x s = .next (layerIssue x s) := by
  have layer : b8 (tsRead t (rs t x.a).toNat 64) 0 ≠ 2 := fun select => absurd (func.symm.trans select) (by decide)
  rw [execLayer, threadOf_executes (invokes_iff.1 hx).1]
  simp only [layer, if_false]

/-! ### TOKENISE (R490, R585) -/

/-- A command sent to a dictionary unit takes the next number of the machine's order. -/
theorem duSend_fst : (duSend s t blk).1 =
    .tokenise blk ((duFor s (thDie t.th)).getD 0) (duBytes s t (tsRead t blk 64)) s.nextId := by
  unfold duSend
  dsimp only
  split
  · split <;> rfl
  · rfl

theorem execTokenise_queues {o : UnitOp} (hx : invokes s 5 0x04 x t = true)
    (sent : duSend (issued s x.th) t (rs t x.a).toNat = (o, u)) :
    execTokenise x s = .next (takeTicket u x.th x.d 0 false (some o) fun s _ => s) := by
  rw [execTokenise, threadOf_executes (invokes_iff.1 hx).1]
  exact congrArg Host.Outcome.next (unitIssue_deferred hx rfl sent)

section
variable {d m : Nat} (turn : unitTurn s (fun b q => .tokenise b d m q) t n blk seq)

include turn

/-- The dictionary unit does the work of a TOKENISE at its TICKET_COMPLETE. -/
theorem execTicketComplete_tokenise : execTicketComplete t.th n s = .next (settleUnit t.th n (duRun s t.th blk d seq)) := by
  obtain ⟨alive_s, thread, ⟨_, _, _, _, ticket⟩, own⟩ := turn
  simp [execTicketComplete, alive_s, thread, ticket, own]

theorem execTicketComplete_tokeniseDone (done : duRun s t.th blk d seq = .done u st c) :
    execTicketComplete t.th n s = .next (endTicket u t.th n st c) := by
  rw [execTicketComplete_tokenise turn, done]
  rfl

/-- Behind an earlier command of its partition, or while the unit's turn is another partition's, a command only waits. -/
theorem execTicketComplete_tokeniseWaits (behind : duBefore s t.part d seq = true ∨ duTurn s d t.part = false) :
    execTicketComplete t.th n s = .next s := by
  have ⟨_, thread, _⟩ := turn
  have waits : duRun s t.th blk d seq = .wait s := by
    have queued : (duBefore s t.part d seq || !duTurn s d t.part) = true := by simpa using behind
    rw [duRun, thread]
    exact if_pos queued
  rw [execTicketComplete_tokenise turn, waits]
  rfl

end

/-- Settles O21: each instruction's equation as it issues, RP by the model's reading of its blocks (log entry 21), and a TOKENISE
at its TICKET_COMPLETE by whether its unit comes to it. How turns by WEIGHT are counted is log entry 70. -/
theorem pipeAndEncoderUnitFunctions : Obligations.PipeAndEncoderUnitFunctions := by
  unfold Obligations.PipeAndEncoderUnitFunctions
  refine ⟨fun x s t hx => execRp_refuses hx, ?_, fun s u t n blk d m seq st c turn =>
    ⟨execTicketComplete_tokeniseDone turn, execTicketComplete_tokeniseWaits turn⟩⟩
  rintro x s _ t rfl
  refine ⟨fun m y hx func ok layer unready => ?_, fun s' c hx func done => execSelect_done hx func done,
    fun s' o hx sent => ⟨execTokenise_queues hx sent, ?_⟩⟩
  · exact (execLayer_func hx func).trans (congrArg Host.Outcome.next (layerIssue_waits hx func ok layer unready))
  · have count : (issued s x.th).nextId = s.nextId := by rw [issued_eq]
    exact ⟨_, _, (congrArg Prod.fst sent).symm.trans (duSend_fst.trans (by rw [count]))⟩

end Sys2Proof.Machine

/-!
The sample cache: TRANSCODE with its end and its progress time-out (R350 to R359, Table 10.5), the commands CACHE_RESERVE,
CACHE_PIN, CACHE_UNPIN and CACHE_EVICT (R343 to R347), and the end of a copy's regeneration (R361).
-/

namespace Sys2Proof.Machine

variable {s u : State} {c : Nat} {x : Cmd}

/-! ### TRANSCODE (R350, R357 to R359) -/

/-- A TRANSCODE whose id is free, whose partition has room for a copy and whose head keeps Table 10.3 takes its thread. -/
theorem execTranscode_takesThread {id n : Nat} {l : List Byte} {t : Fin 96} {k : Fin 32} (run : reads s c 0x30 x = true)
    (named : id = opBits x 0 31 0) (whole : n = 64 + 8 * opBits x 2 23 0) (free : isBound s x.part id = false)
    (valid : id ≠ 0xFFFFFFFF) (ids : idsSpent s x.part = false)
    (room : copyCount s x.part + (s.transcodes.filter fun k => k.part = x.part).length < 4096)
    (sound : faulty s (cmdKey s x (op64 x 1)) n = false) (image : l = hostBytes s (cmdKey s x (op64 x 1)) n)
    (head : headOk l (opBits x 2 23 0) = true) (source : isBound s x.part (leAt l 0 4) = true)
    (turn : mayTake s x.part = true)
    (place : encoderPlace s x.part (leAt l 0 4) (leAt l 4 6) (32 * leAt l 12 4) = some (t, k))
    (returned : u = readReturned s x.part l.length) :
    execTranscode c s = .next (startCmd { u with
      threads := u.threads ++ [encoderThread x.part (transcodeTag c) t k]
      transcodes := u.transcodes ++
        [⟨c, x.part, id, l ++ toLe 8 (if x.xops.isEmpty then 2 ^ 21 else xopBits x 0 63 0)⟩] } c) := by
  subst named whole image returned
  rw [execTranscode, withHost_reads run]
  simp only [free, valid, ids, Nat.not_le.2 room, sound, head, source, turn, place, Bool.not_true, Bool.false_eq_true,
    or_self, if_false, if_true]

/-! ### The end of a TRANSCODE (R350, R355, R357, Table 10.5) -/

section
variable {r : TranscodeRun} {th : ThreadRef} (run : underway s c 0x30 x = true)
  (record : (s.transcodes.find? fun r => r.cmd = c) = some r) (thread : encoderOf s (transcodeTag c) = some th)

include run record thread

theorem execTranscodeDone_read {l : List SourceRead} {i : Input} {config : List Byte} {aus : List Config.Au}
    (input : inputAus x.part (thDie th) ⟨s, l, 0⟩ r.regen = .got i (config, aus)) :
    execTranscodeDone c (.read l) s = .next (finishTranscode i.s x r th config aus) := by
  rw [execTranscodeDone, withStarted_underway run]
  simp only [record, thread, input]

theorem execTranscodeDone_unreadable {l : List SourceRead} {v : State} {t : Result}
    (input : inputAus x.part (thDie th) ⟨s, l, 0⟩ r.regen = .stop v t) :
    execTranscodeDone c (.read l) s = .next (complete (endTranscode v c) x t) := by
  rw [execTranscodeDone, withStarted_underway run]
  simp only [record, thread, input]

theorem execTranscodeDone_sourceTimeout {src : Word} {off : Nat} : execTranscodeDone c (.sourceTimeout src off) s =
    .next (complete (endTranscode s c) x ⟨0x05, src.toNat % 65536, off, 0, false⟩) := by
  rw [execTranscodeDone, withStarted_underway run]
  simp only [record, thread]

theorem execTranscodeDone_sourceGone {src : Word} : execTranscodeDone c (.sourceGone src) s =
    .next (complete (endTranscode s c) x ⟨0x06, src.toNat % 65536, 0, 0, false⟩) := by
  rw [execTranscodeDone, withStarted_underway run]
  simp only [record, thread]

end

/-- Pictures that may all be encoded become a copy, once the work is counted and while the limits still hold. -/
theorem finishTranscode_keeps {r : TranscodeRun} {th : ThreadRef} {config : List Byte} {aus : List Config.Au}
    {pics : List Config.Pic} (decoded : pics = (transcodePics r.regen config aus).pics)
    (ffv1 : leAt r.regen 16 1 = 7 → ffv1Ok config = true) (encodable : inputEnds (runSet r.regen).accept pics = none)
    (counted : u = tileEvent (tileEvent (tileEvent (bump64 s 0x6188 aus.length) th 0x020 (transcodePics r.regen config aus).eu)
      th 0x028 (transcodePics r.regen config aus).rp) th 0x050 aus.length)
    (free : isBound u x.part r.id = false) (ids : idsSpent u x.part = false) (room : copyCount u x.part < 4096) :
    finishTranscode s x r th config aus = keepTranscode u x r (thDie th) (runSet r.regen)
      (encodeAll (runSet r.regen) (runKeys r.regen) pics) (pics.filter fun p => p.absent || p.cause ≠ 0).length := by
  subst decoded counted
  have supported : ¬(leAt r.regen 16 1 = 7 ∧ (!ffv1Ok config) = true) := fun ⟨codec, bad⟩ => by
    rw [ffv1 codec] at bad
    exact Bool.false_ne_true bad
  simp only [finishTranscode, if_neg supported, encodable, free, ids, Nat.not_le.2 room, Bool.false_eq_true, or_self, if_false]

/-- The work that a progress time-out reports is a free value (log entry 4). -/
theorem execTranscodeProgressTimeout_underway (run : underway s c 0x30 x = true) : execTranscodeProgressTimeout c s =
    .next (complete (endTranscode { s with freeCtr := s.freeCtr + 1 } c) x
      ⟨0x0C, 0, (Config.freeWord s.freeCtr).toNat, 0, false⟩) := by
  rw [execTranscodeProgressTimeout, withStarted_underway run]

/-! ### CACHE_RESERVE, CACHE_PIN, CACHE_UNPIN, CACHE_EVICT (R343 to R347) -/

/-- A reservation within the quota, the free memory and what is pinned is set, and the cache evicted down to it. -/
theorem execCacheReserve_sets {new : Nat} (run : starts s c 0x31 x = true) (named : new = opBits x 0 19 0)
    (quota : new ≤ fld s (partBase x.part + 0x1C) 19 0)
    (memory : new ≤ (part s x.part).cacheMib + freeForCache s / 2 ^ 20) (pinned : mibUp (pinnedCharge s x.part) ≤ new)
    (evicted : u = setPart (evictAll s x.part (new * 2 ^ 20)) x.part fun y => { y with cacheMib := new, cacheBar := none }) :
    execCacheReserve c s = .next (complete u x (reserveOk u x.part)) := by
  subst named evicted
  have grows : ¬((part s x.part).cacheMib < opBits x 0 19 0 ∧
      freeForCache s / 2 ^ 20 < opBits x 0 19 0 - (part s x.part).cacheMib) := by omega
  rw [execCacheReserve, withCmd_starts run]
  simp only [Nat.not_lt.2 quota, grows, Nat.not_lt.2 pinned, if_false]

section
variable {id : Nat} (named : id = opBits x 0 31 0) (bound : isBound s x.part id = true)

include named bound

/-- A pinned source stays pinned (R346), and so does a copy, which is pinned from birth (log entry 31). -/
theorem execCachePin_pinned (run : starts s c 0x32 x = true)
    (pinned : isCopy s x.part id = true ∨ id ∈ (part s x.part).pins) :
    execCachePin c s = .next (complete s x (plain 0)) := by
  subst named
  have stands : (isCopy s x.part (opBits x 0 31 0) || (part s x.part).pins.contains (opBits x 0 31 0)) = true := by
    simpa using pinned
  rw [execCachePin, withCmd_starts run]
  simp only [bound, stands, Bool.not_true, Bool.false_eq_true, if_false, if_true]

theorem execCachePin_notes (run : starts s c 0x32 x = true) (source : isCopy s x.part id = false)
    (fresh : id ∉ (part s x.part).pins) (room : (part s x.part).pins.length < 1024) : execCachePin c s =
      .next (complete (setPart s x.part fun y => { y with pins := y.pins ++ [id] }) x (plain 0)) := by
  subst named
  have unpinned : (isCopy s x.part (opBits x 0 31 0) || (part s x.part).pins.contains (opBits x 0 31 0)) = false := by
    simpa using And.intro source fresh
  rw [execCachePin, withCmd_starts run]
  simp only [bound, unpinned, Nat.not_le.2 room, Bool.not_true, Bool.false_eq_true, if_false]

theorem execCacheUnpin_removes (run : starts s c 0x33 x = true) (source : isCopy s x.part id = false) : execCacheUnpin c s =
    .next (complete (setPart s x.part fun y => { y with pins := y.pins.filter (· ≠ id) }) x (plain 0)) := by
  subst named
  rw [execCacheUnpin, withCmd_starts run]
  simp only [bound, source, Bool.not_true, Bool.or_self, Bool.false_eq_true, if_false]

/-- Without ALL the entries of the one source go, and its copy when it is one. -/
theorem execCacheEvict_one (run : starts s c 0x34 x = true) (one : opBits x 1 0 0 ≠ 1)
    (dropped : u = dropEntries s x.part fun e => e.src = id) : execCacheEvict c s =
      .next (complete ((copyOf u x.part id).elim u (dropCopy u)) x (plain 0)) := by
  subst named dropped
  rw [execCacheEvict, withCmd_starts run]
  simp only [one, bound, Bool.not_true, Bool.false_eq_true, if_false]
  cases copyOf (dropEntries s x.part fun e => e.src = opBits x 0 31 0) x.part (opBits x 0 31 0) <;> rfl

end

theorem execCacheEvict_all (run : starts s c 0x34 x = true) (all : opBits x 1 0 0 = 1)
    (dropped : u = dropEntries s x.part fun _ => true) : execCacheEvict c s =
      .next (complete ((u.copies.filter fun k => k.part = x.part).foldl dropCopy u) x (plain 0)) := by
  subst dropped
  rw [execCacheEvict, withCmd_starts run]
  simp only [all, if_true]

/-! ### Regeneration of a copy (R361) -/

section
variable {p : Fin 16} {cp : Nat} {k : CopySource} {th : ThreadRef}

section
variable (copy : copyOf s p cp = some k) (alive_s : alive s = true) (regenerates : k.regenerating = true)
  (unfailed : k.failed = none) (thread : encoderOf s (regenTag p cp) = some th)

include copy alive_s regenerates unfailed thread

theorem execCopyRegenerationEnd_read {l : List SourceRead} {i : Input} {config : List Byte} {aus : List Config.Au}
    (input : inputAus p (thDie th) ⟨s, l, 0⟩ k.regen = .got i (config, aus)) :
    execCopyRegenerationEnd p cp (.read l) s = .next (regenerated i.s k th config aus) := by
  simp [execCopyRegenerationEnd, copy, alive_s, regenerates, unfailed, thread, input]

theorem execCopyRegenerationEnd_unreadable {l : List SourceRead} {v : State} {r : Result}
    (input : inputAus p (thDie th) ⟨s, l, 0⟩ k.regen = .stop v r) : execCopyRegenerationEnd p cp (.read l) s =
      .next (failCopy v k (if r.status = 5 then 3 else if r.status = 4 then 4 else 2)) := by
  simp [execCopyRegenerationEnd, copy, alive_s, regenerates, unfailed, thread, input]

theorem execCopyRegenerationEnd_sourceTimeout (src : Word) (off : Nat) :
    execCopyRegenerationEnd p cp (.sourceTimeout src off) s = .next (failCopy s k 3) := by
  simp [execCopyRegenerationEnd, copy, alive_s, regenerates, unfailed, thread]

theorem execCopyRegenerationEnd_sourceGone (src : Word) :
    execCopyRegenerationEnd p cp (.sourceGone src) s = .next (failCopy s k 2) := by
  simp [execCopyRegenerationEnd, copy, alive_s, regenerates, unfailed, thread]

end

/-- A copy coded again is written to new buffers, and its thread is free. -/
theorem regenerated_writes {config : List Byte} {aus : List Config.Au} {pics : List CodedPic} {data : List Byte} {die : Nat}
    {hs : List Nat} (coded : pics = encodeAll (runSet k.regen) (runKeys k.regen) (transcodePics k.regen config aus).pics)
    (bytes : data = copyBytes k.id (pics.map (·.entry))) (ffv1 : leAt k.regen 16 1 = 7 → ffv1Ok config = true)
    (encodable : inputEnds (runSet k.regen).accept (transcodePics k.regen config aus).pics = none)
    (buffers : cacheBufs s k.part (thDie th) data.length = some (u, die, hs)) :
    regenerated s k th config aus = setCopy (freeThread (markWritten u data.length hs) th) k fun y =>
      { y with bufs := hs, die := die, data := data, pictures := pics.length, regenerating := false
               exact_ := exactOf (runSet k.regen) pics } := by
  subst coded bytes
  have codable : ¬(leAt k.regen 16 1 = 7 && !ffv1Ok config ||
      (inputEnds (runSet k.regen).accept (transcodePics k.regen config aus).pics).isSome) = true := by
    simpa [encodable] using ffv1
  simp only [regenerated, if_neg codable, buffers]

end

/-- Settles O46: each command's and event's equation in the case that the clause names. The work that a time-out reports is free
(log entry 4), and so is what the encoder puts out (log entry 9); a pin of a copy follows log entry 31, and the status of a
failed regeneration log entry 63. -/
theorem transcodeAndCacheCommands : Obligations.TranscodeAndCacheCommands := by
  unfold Obligations.TranscodeAndCacheCommands
  refine ⟨fun c id n s u x l r => ⟨fun t k => execTranscode_takesThread, fun l th run record thread =>
      ⟨fun i config aus => execTranscodeDone_read run record thread,
       fun v t => execTranscodeDone_unreadable run record thread⟩,
    fun th config aus pics => finishTranscode_keeps, fun src off th run record thread =>
      ⟨execTranscodeDone_sourceTimeout run record thread, execTranscodeDone_sourceGone run record thread⟩,
    fun run => ⟨_, execTranscodeProgressTimeout_underway run⟩⟩, ?_⟩
  rintro c id s x _ named rfl
  refine ⟨fun new run named' quota memory pinned => ⟨_, rfl, execCacheReserve_sets run named' quota memory pinned rfl⟩,
    fun run bound => ⟨execCachePin_pinned named bound run, execCachePin_notes named bound run⟩,
    fun run bound => execCacheUnpin_removes named bound run,
    fun run => ⟨fun all => ⟨_, rfl, execCacheEvict_all run all rfl⟩, fun one bound t dropped => ?_⟩,
    fun p cp k t th l copy alive_s regenerates unfailed thread =>
      ⟨fun i config aus => execCopyRegenerationEnd_read copy alive_s regenerates unfailed thread,
       fun v r => execCopyRegenerationEnd_unreadable copy alive_s regenerates unfailed thread,
       fun config aus pics data die hs => regenerated_writes,
       execCopyRegenerationEnd_sourceTimeout copy alive_s regenerates unfailed thread,
       execCopyRegenerationEnd_sourceGone copy alive_s regenerates unfailed thread⟩⟩
  have evicts := execCacheEvict_one named bound run one dropped
  exact ⟨fun none_ => by rw [none_] at evicts; exact evicts, fun k some_ => by rw [some_] at evicts; exact evicts⟩

end Sys2Proof.Machine

/-!
The step: the command at the front of the queue, what every command answers, and the clock on an empty queue (R597, R610, R617).
-/

namespace Sys2Proof.Machine

variable {s r v w : State}

/-! ### Commands (R597) -/

theorem step_cons {c : Instr} {rest : List Instr} (front : s.pending = c :: rest) :
    step s = exec c { s with pending := rest } := by
  rw [step, front]

theorem step_nil (idle : s.pending = []) : step s = .next (tick s) := by
  rw [step, idle]

/-- Settles O1: the equation of a step on a queue that is not empty. -/
theorem stepRunsFrontCommand : Obligations.StepRunsFrontCommand := by
  unfold Obligations.StepRunsFrontCommand
  exact fun c rest s => step_cons

/-- Settles O3: every command runs to a next state, which keeps what the state had. -/
theorem commandsAnswerNext : Obligations.CommandsAnswerNext := by
  unfold Obligations.CommandsAnswerNext
  refine ⟨fun c s => (exec_runs c).imp fun _ runs => runs.1, fun c s t answer => ?_⟩
  obtain ⟨u, answer', keeps⟩ := exec_runs (s := s) c
  obtain rfl := Host.Outcome.next.inj (answer.symm.trans answer')
  exact keeps.1

/-! ### The clock (R610, R617; log entries 5, 14, 15 and 71) -/

theorem reportOwed_nil (none_ : s.owed = []) : reportOwed s = s := by
  have same : { s with owed := [] } = s := by rw [← none_]
  rw [reportOwed, none_, List.foldl_nil, same]

theorem endReset_idle {p : Nat} (idle : (part s p).resetting = false) : endReset s p = s := by
  rw [endReset, idle]
  rfl

/-- Where no partition resets, the end of resets leaves the state. -/
theorem foldl_endReset_idle {l : List Nat} (idle : ∀ p ∈ l, (part s p).resetting = false) : l.foldl endReset s = s := by
  induction l with
  | nil => rfl
  | cons p l ih =>
    rw [List.foldl_cons, endReset_idle (idle p List.mem_cons_self)]
    exact ih fun q hq => idle q (List.mem_cons_of_mem p hq)

/-- At most one SRAM word errs in a µs (log entry 71). -/
theorem sramTick_cases : sramTick s = { s with freeCtr := s.freeCtr + 1 } ∨
    ∃ e, sramTick s = sramWord { s with freeCtr := s.freeCtr + 1 } e := by
  unfold sramTick
  dsimp only
  split
  · exact .inr ⟨_, rfl⟩
  · exact .inl rfl

theorem tick_inReset (held : s.pins.inReset = true) : tick s = s := if_pos held

/-- The dies after 1 µs on the timer unit of each that is in service. -/
def diesTicked (s : State) : List Die := s.dies.zipIdx.map fun (x, d) => if dieLost s d then x else { x with us := x.us + 1 }

theorem length_diesTicked : (diesTicked s).length = s.dies.length := by simp [diesTicked]

theorem getElem?_diesTicked {d : Nat} {x : Die} (at_ : s.dies[d]? = some x) :
    (diesTicked s)[d]? = some (if dieLost s d then x else { x with us := x.us + 1 }) := by
  simp [diesTicked, at_]

/-- Outside reset the timers advance on what the reports, the ended resets and an SRAM error have left. -/
theorem tick_running (run : s.pins.inReset = false) (reported : r = reportOwed s)
    (ended : v = (List.range 16).foldl endReset r) (left : w = if alive r then sramTick v else r) :
    tick s = { w with us := s.us + 1, dies := diesTicked w } := by
  rw [left, ended, reported, tick, run, if_neg Bool.false_ne_true]
  rfl

/-- Settles O2: the clock's equation in reset and out of it, and what each of its steps comes to. -/
theorem idleStepCountsMicrosecond : Obligations.IdleStepCountsMicrosecond := by
  unfold Obligations.IdleStepCountsMicrosecond
  intro s r v w idle reported ended left
  refine ⟨fun none_ => reported.trans (reportOwed_nil none_),
    fun none_ => ended.trans (foldl_endReset_idle fun p hp => none_ p (List.mem_range.1 hp)), sramTick_cases,
    fun held => ?_, fun run => ?_⟩
  · rw [step_nil idle, tick_inReset held]
  · exact ⟨_, (step_nil idle).trans (congrArg Host.Outcome.next (tick_running run reported ended left)), rfl,
      length_diesTicked, fun d x => getElem?_diesTicked, rfl⟩

end Sys2Proof.Machine

/-!
Tensors and the copy commands: TENSOR_CREATE, TENSOR_DESTROY, COPY, COPY_LAYOUT, GATHER and SCATTER (R403 to R422).
-/

namespace Sys2Proof.Machine

variable {s u : State} {c : Nat} {x : Cmd} {l : List Byte} {f t y : Tensor}

/-! ### TENSOR_CREATE and TENSOR_DESTROY (R403 to R408) -/

section
variable (run : reads s c 0x40 x = true) (image : imageRead s x 128 l u) (sound : tensorBad l = none)
include run image sound

theorem execTensorCreate_creates {i : Nat}
    (apart : (parseDesc l).ro = true ∨ xopBits x 0 0 0 = 1 ∨ aliasAt (parseDesc l) = none)
    (free : firstFrom (fun i => !u.tensors.any fun y => y.slot = i) 65536 0 = some i)
    (room : (u.tensors.filter (·.part = x.part)).length < 16384)
    (new : y = ⟨x.part, i, look (fun _ => 0) u.tensorGens i, parseDesc l, xopBits x 0 0 0 = 1, qSpace u x.q, none⟩) :
    execTensorCreate c s = .next (complete { u with
      tensors := u.tensors ++ [y]
      tensorGens := put (fun _ => 0) i ((look (fun _ => 0) u.tensorGens i + 1) % 2 ^ 32) u.tensorGens } x
      (okWith (tensorHandle y))) := by
  obtain ⟨readable, bytes, returned⟩ := image
  have unaliased : (if (parseDesc l).ro || decide (xopBits x 0 0 0 = 1) then none else aliasAt (parseDesc l)) = none :=
    ite_eq_left_iff.2 fun strict => by
      simp only [Bool.or_eq_true, decide_eq_true_eq, not_or] at strict
      exact (apart.resolve_left strict.1).resolve_left strict.2
  subst new
  rw [execTensorCreate, withHost_reads run]
  simp only [readable, bytes, returned, sound, unaliased, free, Nat.not_le.2 room, Bool.false_eq_true, if_false]

theorem execTensorCreate_aliases {d : Nat} (writable : (parseDesc l).ro = false) (strict : xopBits x 0 0 0 ≠ 1)
    (aliased : aliasAt (parseDesc l) = some d) : execTensorCreate c s = .next (complete u x ⟨0x08, d, 0, 0, false⟩) := by
  obtain ⟨readable, bytes, returned⟩ := image
  rw [execTensorCreate, withHost_reads run]
  simp only [readable, bytes, returned, sound, writable, strict, aliased, Bool.false_eq_true, decide_false, Bool.or_self, if_false]

end

theorem execTensorDestroy_named (run : starts s c 0x41 x = true) (named : namedTensor s x (op64 x 0) = some y) :
    execTensorDestroy c s = .next (startCmd { s with
      tensors := updIf (fun z => z.slot = y.slot && z.gen = y.gen) (fun z => { z with dying := some x.id }) s.tensors } c) := by
  rw [execTensorDestroy, withCmd_starts run]
  simp only [named]

theorem execTensorDestroyDrained_drained (run : underway s c 0x41 x = true)
    (drained : (s.cmds.all fun y => !(y.part = x.part && y.id < x.id && namesTensor y (op64 x 0))) = true) :
    execTensorDestroyDrained c s = .next (complete { s with
      tensors := s.tensors.filter fun t => !(t.part = x.part && tensorHandle t = op64 x 0) } x (plain 0)) := by
  rw [← List.not_any_eq_all_not, Bool.not_eq_true'] at drained
  rw [execTensorDestroyDrained, withStarted_underway run]
  simp only [drained, Bool.false_eq_true, if_false]

/-! ### The first bad field and the first pair -/

theorem leastOf_of_forall_eq_nil {n : Nat} {g : Nat → List Nat} (empty : ∀ i, i < n → g i = []) :
    leastOf ((List.range n).flatMap g) = none := by
  rw [List.flatMap_eq_nil_iff.2 fun i hi => empty i (List.mem_range.1 hi)]
  rfl

section
variable {n : Nat} {hit : Nat → Nat → Bool}

theorem firstPair_none (clear : ∀ i j, i < j → hit i j = false) : firstPair n hit = none := by
  simp only [firstPair, List.findSome?_eq_none_iff, Option.map_eq_none_iff, List.find?_eq_none, List.mem_range,
    Bool.not_eq_true]
  exact fun j _ i => clear i j

theorem firstPair_hit {i j : Nat} (found : firstPair n hit = some (i, j)) : j < n ∧ i < j ∧ hit i j = true := by
  obtain ⟨k, within, pair⟩ := List.exists_of_findSome?_eq_some found
  obtain ⟨m, first, same⟩ := Option.map_eq_some_iff.1 pair
  obtain ⟨rfl, rfl⟩ := Prod.mk.inj same
  exact ⟨List.mem_range.1 within, List.mem_range.1 (List.mem_of_find?_eq_some first), List.find?_some (p := fun i => hit i k) first⟩

theorem firstPair_succ :
    firstPair (n + 1) hit = (firstPair n hit).or (((List.range n).find? fun i => hit i n).map fun i => (i, n)) := by
  simp only [firstPair, List.range_succ, List.findSome?_append, List.findSome?_singleton]

/-- Where an index clashes with an earlier one, the first pair is found by the time that it is reached. -/
theorem firstPair_of_hit {i j : Nat} (below : j < n) (before : i < j) (clash : hit i j = true) :
    ∃ i' j', firstPair n hit = some (i', j') ∧ j' ≤ j := by
  induction n with
  | zero => exact absurd below (Nat.not_lt_zero j)
  | succ n ih =>
    rw [firstPair_succ]
    rcases Nat.lt_succ_iff_lt_or_eq.1 below with inner | rfl
    · obtain ⟨i', j', pair, early⟩ := ih inner
      exact ⟨i', j', by rw [pair, Option.some_or], early⟩
    · cases earlier : firstPair j hit with
      | some pair => exact ⟨pair.1, pair.2, rfl, (firstPair_hit earlier).1.le⟩
      | none =>
        obtain ⟨k, first⟩ := Option.isSome_iff_exists.1
          (List.find?_isSome (p := fun i => hit i j).2 ⟨i, List.mem_range.2 before, clash⟩)
        exact ⟨k, j, by rw [first]; rfl, le_rfl⟩

end

/-- Only what clashes counts. -/
theorem firstPair_congr {n : Nat} {hit hit' : Nat → Nat → Bool} (same : ∀ i j, hit i j = hit' i j) :
    firstPair n hit = firstPair n hit' := congrArg (firstPair n) (funext₂ same)

/-! ### The copy commands (R402, R406, R407, R409 to R417) -/

section
variable {fit : Desc → Desc → Bool} {go : State → Tensor → Tensor → State}

theorem withTensors_fit (from_ : namedTensor s x (op64 x 0) = some f) (to_ : namedTensor s x (op64 x 1) = some t)
    (writable : t.desc.ro = false) (type : f.desc.etype = t.desc.etype) (fits : fit f.desc t.desc = true) :
    withTensors s x fit go = go s f t := by
  simp [withTensors, from_, to_, writable, type, fits]

end

theorem withOpList_read {n : Nat} {go : State → List Byte → State} (sound : faulty s (cmdKey s x (op64 x 2)) n = false)
    (bytes : l = hostBytes s (cmdKey s x (op64 x 2)) n) (returned : u = readReturned s x.part n) :
    withOpList s x n go = go u l := by
  subst bytes returned
  simp only [withOpList, sound, Bool.false_eq_true, if_false]

/-- Whether the slices i and j of a list claim regions that meet (R413). -/
def slicesMeet (l : List Slice) (i j : Nat) : Bool :=
  match l[i]?, l[j]? with
  | some a, some b => boxesMeet a.reg a.regN b.reg b.regN
  | _, _ => false

theorem slicesMeet_iff {l : List Slice} {i j : Nat} : slicesMeet l i j = true ↔
    ∃ a b, l[i]? = some a ∧ l[j]? = some b ∧ boxesMeet a.reg a.regN b.reg b.regN = true := by
  unfold slicesMeet
  split <;> simp_all

/-- A COPY by the first pair of its slices that meets. -/
def copyByPair (s : State) (x : Cmd) (l : List Byte) (f t : Tensor) : Option (Nat × Nat) → State
  | some (i, j) => complete s x ⟨0x09, i, j, 0, false⟩
  | none => startCopy s x (.copy l) f t

section
variable (from_ : namedTensor s x (op64 x 0) = some f) (to_ : namedTensor s x (op64 x 1) = some t)
  (writable : t.desc.ro = false) (type : f.desc.etype = t.desc.etype)
include from_ to_ writable type

/-- A COPY whose slices are well formed goes by the first pair that meets. -/
theorem execCopy_slices {n : Nat} (run : reads s c 0x42 x = true) (layout : sameLayout f.desc t.desc = true)
    (count : n = opBits x 3 15 0) (sound : faulty s (cmdKey s x (op64 x 2)) (160 * n) = false)
    (bytes : l = hostBytes s (cmdKey s x (op64 x 2)) (160 * n)) (returned : u = readReturned s x.part (160 * n))
    (slices : ∀ i, i < n → sliceBad f.desc t.desc (sliceB l (160 * i) 160) = []) :
    execCopy c s = .next (copyByPair u x l f t (firstPair n (slicesMeet (slicesOf l)))) := by
  subst count
  have fields := leastOf_of_forall_eq_nil (n := opBits x 3 15 0)
    (g := fun i => (sliceBad f.desc t.desc (sliceB l (160 * i) 160)).map (160 * i + ·))
    fun i hi => by rw [slices i hi, List.map_nil]
  rw [execCopy, withHost_reads run, withTensors_fit from_ to_ writable type layout, withOpList_read sound bytes returned]
  simp only [fields]
  rw [firstPair_congr (hit' := slicesMeet (slicesOf l)) fun i j => ?_]
  · rcases firstPair (opBits x 3 15 0) (slicesMeet (slicesOf l)) with _ | ⟨i, j⟩ <;> rfl
  · unfold slicesMeet
    cases (slicesOf l)[i]? <;> cases (slicesOf l)[j]? <;> rfl

theorem execCopyLayout_fits (run : starts s c 0x43 x = true) (extent : f.desc.extent = t.desc.extent) :
    execCopyLayout c s = .next (startCopy s x .copyLayout f t) := by
  rw [execCopyLayout, withCmd_starts run, withTensors_fit from_ to_ writable type (by simpa using extent)]

section
variable (layout : sameLayout f.desc t.desc = true)
  (sound : faulty s (cmdKey s x (op64 x 2)) (64 + 48 * opBits x 3 23 0) = false)
  (bytes : l = hostBytes s (cmdKey s x (op64 x 2)) (64 + 48 * opBits x 3 23 0))
  (returned : u = readReturned s x.part (64 + 48 * opBits x 3 23 0))
include layout sound bytes returned

theorem execGather_reads (run : reads s c 0x44 x = true) : execGather c s = .next (runCoords u x f t false l) := by
  rw [execGather, withHost_reads run, withTensors_fit from_ to_ writable type layout, withOpList_read sound bytes returned]

theorem execScatter_reads (run : reads s c 0x45 x = true) : execScatter c s = .next (runCoords u x f t true l) := by
  rw [execScatter, withHost_reads run, withTensors_fit from_ to_ writable type layout, withOpList_read sound bytes returned]

end
end

/-! ### The coordinate lists of GATHER and SCATTER (R414 to R416) -/

theorem runCoords_gather (sound : coordBad t.desc l = false)
    (apart : ∀ (i j : Nat) (a b : Box), i < j → (gatherBoxes f.desc t.desc l)[i]? = some a →
      (gatherBoxes f.desc t.desc l)[j]? = some b → boxesMeet a.lo a.n b.lo b.n = false) :
    runCoords s x f t false l = startCopy s x (.gather l) f t := by
  simp only [runCoords, sound, Bool.not_false, Bool.false_eq_true, if_false, if_true]
  rw [firstPair_none fun i j before => ?_]
  split
  · exact apart i j _ _ before ‹_› ‹_›
  · rfl

theorem runCoords_scatter_lane (sound : coordBad t.desc l = false) (lane : singleLane x t = true) :
    runCoords s x f t true l = startCopy s x (.scatter l) f t := by
  simp only [runCoords, sound, lane, Bool.not_true, Bool.false_eq_true, if_false, if_true]

theorem runCoords_scatter (sound : coordBad t.desc l = false)
    (apart : ∀ (i j : Nat) (a b : Box), i < j → (gatherBoxes f.desc t.desc l)[i]? = some a →
      (gatherBoxes f.desc t.desc l)[j]? = some b → a.dst ≠ b.dst ∧ boxesMeet a.lo a.n b.lo b.n = false) :
    runCoords s x f t true l = startCopy s x (.scatter l) f t := by
  by_cases lane : singleLane x t = true
  · exact runCoords_scatter_lane sound lane
  simp only [runCoords, sound, lane, Bool.not_true, Bool.false_eq_true, if_false, if_true]
  rw [firstPair_none fun i j before => ?_]
  rw [Bool.or_eq_false_iff]
  constructor
  · split
    · exact decide_eq_false (apart i j _ _ before ‹_› ‹_›).1
    · rfl
  · split
    · exact (apart i j _ _ before ‹_› ‹_›).2
    · rfl

/-- Settles O47: each command's equation where its checks pass; of the slices that meet the first pair is named. The slot that a new
tensor takes is the model's choice (log entry 34). -/
theorem tensorCommands : Obligations.TensorCommands := by
  unfold Obligations.TensorCommands
  refine ⟨fun c i s u x l y => ⟨fun run image sound => execTensorCreate_creates run image sound,
    fun d run image sound => execTensorCreate_aliases run image sound, execTensorDestroy_named,
    execTensorDestroyDrained_drained⟩, fun c s u x f t l from_ to_ writable type => ⟨?_,
      execCopyLayout_fits from_ to_ writable type, ?_⟩⟩
  · intro run layout sound bytes returned slices
    have copies := execCopy_slices from_ to_ writable type run layout rfl sound bytes returned slices
    refine ⟨fun apart => ?_, fun i j a b before below first second meet => ?_⟩
    · have clear : firstPair (opBits x 3 15 0) (slicesMeet (slicesOf l)) = none := firstPair_none fun i j before => by
        rw [← Bool.not_eq_true, slicesMeet_iff]
        rintro ⟨a, b, first, second, meet⟩
        exact Bool.false_ne_true ((apart i j a b before first second).symm.trans meet)
      rwa [clear] at copies
    · obtain ⟨i', j', pair, early⟩ := firstPair_of_hit below before (slicesMeet_iff.2 ⟨a, b, first, second, meet⟩)
      obtain ⟨-, before', clash⟩ := firstPair_hit pair
      obtain ⟨a', b', first', second', meet'⟩ := slicesMeet_iff.1 clash
      rw [pair] at copies
      exact ⟨i', j', a', b', before', early, first', second', meet', copies⟩
  · rintro layout n rfl sound bytes returned coords
    refine ⟨fun run apart => ?_, fun run apart => ?_⟩
    · exact (execGather_reads from_ to_ writable type layout sound bytes returned run).trans
        (congrArg Host.Outcome.next (runCoords_gather coords apart))
    · exact (execScatter_reads from_ to_ writable type layout sound bytes returned run).trans
        (congrArg Host.Outcome.next (apart.elim (runCoords_scatter_lane coords) (runCoords_scatter coords)))

end Sys2Proof.Machine

/-!
Activation spill: SPILL, RESTORE, SPILL_FREE and the end of a copy's rebuild (R559 to R570).
-/

namespace Sys2Proof.Machine

variable {s t : State} {c n : Nat} {x : Cmd} {y : Spill}

/-- A SPILL within its range, its quota and the handles, whose copies all find room, becomes a transfer. -/
theorem execSpill_reserves {copies worst : Nat} {l : List (Nat × List Nat)} (run : starts s c 0x50 x = true)
    (length : n = opBits x 1 39 0) (count : copies = 1 + opBits x 2 8 8) (size : worst = spillWorst (opBits x 2 3 0) n)
    (inside : op64 x 0 + n ≤ 2 ^ 64)
    (quota : spillCharge s x.part + roundUp worst 4096 * copies ≤ fld s (partBase x.part + 0x20) 19 0 * 2 ^ 20)
    (own : (s.spills.filter (·.part = x.part)).length + ((spillsRunning s).filter (·.part = x.part)).length < 65536)
    (all : s.spills.length + (spillsRunning s).length < 262144) (reserved : reserveCopies s x.part worst copies [] = (t, l))
    (whole : l.length = copies) : execSpill c s = .next (startCmd { t with
      nextId := t.nextId + 1
      transfers := t.transfers ++ [{ newTransfer t.nextId x.part c .spill n with bufs := l }] } c) := by
  subst length count size
  rw [execSpill, withCmd_starts run]
  simp only [Nat.not_lt.2 inside, Nat.not_lt.2 quota, Nat.not_le.2 own, Nat.not_le.2 all, or_self, if_false, reserved,
    whole, Nat.lt_irrefl, fresh]

theorem execRestore_held (run : starts s c 0x51 x = true) (named : namedSpill s x (op64 x 0) = some y)
    (size : opBits x 2 39 0 = y.bytes) (held : y.copies ≠ []) : execRestore c s = .next (startCmd { s with
      nextId := s.nextId + 1
      transfers := s.transfers ++ [newTransfer s.nextId x.part c .restore y.bytes] } c) := by
  rw [execRestore, withCmd_starts run]
  simp only [named, size, ne_eq, not_true, if_false, List.isEmpty_iff, held, fresh]

theorem execSpillFree_named (run : starts s c 0x52 x = true) (named : namedSpill s x (op64 x 0) = some y) :
    execSpillFree c s = .next (startCmd (setSpill s y fun z => { z with dying := some x.id }) c) := by
  rw [execSpillFree, withCmd_starts run]
  simp only [named]

/-- Once no earlier command names the handle, its copies go as the writes that read them retire (R569, R46). -/
theorem execSpillFreeDrained_drained (run : underway s c 0x52 x = true) (drained : (s.cmds.all fun y =>
    !(y.part = x.part && y.id < x.id && [0x51, 0x52].contains y.opcode && op64 y 0 = op64 x 0)) = true) :
    execSpillFreeDrained c s = .next (complete (freeAfter
      { s with spills := s.spills.filter fun y => !(y.part = x.part && spillHandle y = op64 x 0) } x.part
      ((s.spills.filter fun y => y.part = x.part && spillHandle y = op64 x 0).flatMap fun y => y.copies.flatMap (·.bufs))) x
      (plain 0)) := by
  rw [← List.not_any_eq_all_not, Bool.not_eq_true'] at drained
  rw [execSpillFreeDrained, withStarted_underway run]
  simp only [drained, Bool.false_eq_true, if_false]

theorem execSpillCopyRebuildEnd_rebuilt {slot : Nat} (alive_s : alive s = true)
    (rebuilds : (s.spills.find? fun y => y.slot = slot && y.copies.any (·.rebuilding)) = some y) :
    execSpillCopyRebuildEnd slot s = .next (setSpill (((y.copies.filter (·.rebuilding)).flatMap (·.bufs)).foldl
      (fun s h => markWritten s (((bufOf s h).map bufSize).getD 0) [h]) s) y
      fun z => { z with copies := z.copies.map fun c => { c with rebuilding := false } }) := by
  simp only [execSpillCopyRebuildEnd, alive_s, rebuilds, Bool.not_true, Bool.false_eq_true, if_false]

/-- Settles O48: each command's equation where its checks pass, and the rebuild's end. -/
theorem spillCommands : Obligations.SpillCommands := by
  unfold Obligations.SpillCommands
  refine fun c n copies worst i s t x y l => ⟨?_, ?_, execSpillFree_named, execSpillFreeDrained_drained,
    fun slot => execSpillCopyRebuildEnd_rebuilt⟩
  · rintro run length count size inside quota own all reserved whole rfl
    exact execSpill_reserves run length count size inside quota own all reserved whole
  · rintro run named size held rfl
    exact execRestore_held run named size held

end Sys2Proof.Machine

/-!
Loads of models and dictionaries and their unloads (R460 to R465, R487, R488).
-/

namespace Sys2Proof.Machine

variable {s u t : State} {c id : Nat} {x : Cmd} {l : List Byte} {cs : List (Nat × List Nat)}

/-! ### MODEL_LOAD (R460 to R464, Table 14.3) -/

theorem execModelLoad_reads (run : reads s c 0x03 x = true) (image : imageRead s x (opBits x 1 34 0) l u) :
    execModelLoad c s = .next (checkModel u x l (opBits x 2 15 0) (chunkSize x)) := by
  rw [execModelLoad, withHost_reads run, withImage_read image]

theorem checkModel_passes {ch : Nat} {m : Model} (valid : id ≠ 0xFFFF) (free : modelOf s x.part id = none)
    (sound : modelBad l ch = none) (model : m = readModel l s.nextId x.part id ch) (parts : partsBad l m = none) :
    checkModel s x l id ch = keepModel s x l.length (b32 l 24) m := by
  subst model
  simp only [checkModel, valid, if_false, free, Option.isSome_none, Bool.false_eq_true, sound, parts]

/-- A model that finds a slot, instruction store and block memory is stored on each die in service. -/
theorem keepModel_fits {n prog : Nat} {m : Model} (slot : s.models.length < 8) (store : istoreUsed s + prog ≤ 212992)
    (fits : fitCopies s x.part (4 * roundUp n 65536) n = .ok (t, cs)) : keepModel s x n prog m =
      complete { t with models := t.models ++ [{ m with copies := cs }], nextId := t.nextId + 1 } x
        ⟨0, 0, m.id, (chunksOf m).length, false⟩ := by
  simp only [keepModel, Nat.not_le.2 slot, Nat.not_lt.2 store, if_false, fits]

/-! ### DICT_LOAD (R487, R488) -/

theorem execDictLoad_reads (run : reads s c 0x05 x = true) (image : imageRead s x (opBits x 1 34 0) l u) :
    execDictLoad c s = .next (checkDict u x l (opBits x 2 15 0)) := by
  rw [execDictLoad, withHost_reads run, withImage_read image]

theorem checkDict_passes {es : List (List Byte × Nat)} (valid : id ≠ 0xFFFF) (free : dictOf s x.part id = none)
    (sound : dictCheck l = .ok es) : checkDict s x l id = keepDict s x l id es := by
  simp only [checkDict, valid, if_false, free, Option.isSome_none, Bool.false_eq_true, sound]

theorem keepDict_fits {es : List (List Byte × Nat)} (slot : s.dicts.length < 16)
    (own : (s.dicts.filter (·.part = x.part)).length < 8)
    (fits : fitCopies s x.part (4 * roundUp (2 * l.length) 65536) (2 * l.length) = .ok (t, cs)) : keepDict s x l id es =
      complete { t with dicts := t.dicts ++ [⟨x.part, id, l.length, l.take 64, b32 l 20, b32 l 24, b32 l 28, b32 l 32, b32 l 36,
        es, cs, []⟩] } x (okWith id) := by
  simp only [keepDict, Nat.not_le.2 slot, Nat.not_le.2 own, or_self, if_false, fits]

/-! ### MODEL_UNLOAD and DICT_UNLOAD (R465, R172) -/

theorem execModelUnload_loaded {m : Model} (run : starts s c 0x04 x = true)
    (loaded : modelOf s x.part (opBits x 0 15 0) = some m) : execModelUnload c s = .next (
      if namedModel s x.part (opBits x 0 15 0) then complete s x denied
      else complete (freeBufs { s with
        models := s.models.filter fun y => y.uid ≠ m.uid
        landing := s.landing.filter fun b => b.model ≠ m.uid } (m.copies.flatMap (·.2))) x (plain 0)) := by
  rw [execModelUnload, withCmd_starts run]
  simp only [loaded]

theorem execDictUnload_loaded {m : Dict} (run : starts s c 0x06 x = true)
    (loaded : dictOf s x.part (opBits x 0 15 0) = some m) : execDictUnload c s = .next (
      if namedDict s x.part (opBits x 0 15 0) then complete s x denied
      else complete (freeBufs { s with dicts := s.dicts.filter fun y => !(y.part = x.part && y.id = opBits x 0 15 0) }
        (m.copies.flatMap (·.2))) x (plain 0)) := by
  rw [execDictUnload, withCmd_starts run]
  simp only [loaded]

/-- Settles O42: a load by the checks that its image passes, an unload by whether a loaded recipe names the object. -/
theorem modelAndDictionaryLoads : Obligations.ModelAndDictionaryLoads := by
  unfold Obligations.ModelAndDictionaryLoads
  refine fun c id s u t x l cs => ⟨?_, ?_, fun m run loaded => ⟨fun unnamed => ?_, fun named => ?_⟩,
    fun m run loaded => ⟨fun unnamed => ?_, fun named => ?_⟩⟩
  · rintro m run image rfl valid free sound model parts slot store fits
    refine (execModelLoad_reads run image).trans (congrArg Host.Outcome.next ?_)
    rw [checkModel_passes valid free sound model parts, keepModel_fits slot store fits, model]
    rfl
  · rintro es run image rfl valid free sound slot own fits
    exact (execDictLoad_reads run image).trans
      (congrArg Host.Outcome.next ((checkDict_passes valid free sound).trans (keepDict_fits slot own fits)))
  · exact (execModelUnload_loaded run loaded).trans (congrArg Host.Outcome.next (if_neg (Bool.eq_false_iff.1 unnamed)))
  · exact (execModelUnload_loaded run loaded).trans (congrArg Host.Outcome.next (if_pos named))
  · exact (execDictUnload_loaded run loaded).trans (congrArg Host.Outcome.next (if_neg (Bool.eq_false_iff.1 unnamed)))
  · exact (execDictUnload_loaded run loaded).trans (congrArg Host.Outcome.next (if_pos named))

end Sys2Proof.Machine

/-!
Writes that begin the start-up's steps, and the power envelope's cap: BLK_FW_BASE, BLK_BOOT_CTRL and PGU_ENV_MAX (R634, R636, R639,
R644, R651).
-/

namespace Sys2Proof.Machine

variable {s t : State} {port o old new wo : Nat} {v : Word}

/-! ### What each write sets going -/

theorem effects_fwBase : effects s 0x104 old new wo =
    if s.boot.fwRun then s
    else if s.boot.hpDone then { s with boot := { s.boot with fwBusy := true } }
    else { s with boot := { s.boot with fwPending := true } } := by
  rw [effects, if_pos rfl]

theorem effects_bootCtrl : effects s 0x110 old new wo = bootCtrl s wo := by
  rw [effects, if_neg (by decide), if_pos rfl]

theorem effects_envMax : effects s 0x5004 old new wo =
    if bits new 9 0 < fld s 0x5000 9 0 then setFld s 0x5000 9 0 (bits new 9 0) else s := by
  rw [effects]
  iterate 5 rw [if_neg (by decide)]
  rw [if_pos rfl]

theorem bootCtrl_restore :
    bootCtrl s 1 = { s with boot := { s.boot with restoreRun := true, startOnly := false } } := rfl

theorem bootCtrl_start : bootCtrl s 2 = { s with boot := { s.boot with restoreRun := true, startOnly := true } } := rfl

theorem bootCtrl_save : bootCtrl s 4 = { s with boot := { s.boot with savePending := true } } := rfl

theorem bootCtrl_quiesce : bootCtrl s 8 = doQuiesce s := by
  simp only [bootCtrl, show bitN 8 0 = false from rfl, show bitN 8 1 = false from rfl, show bitN 8 2 = false from rfl,
    show bitN 8 3 = true from rfl, Bool.false_eq_true, if_false, if_true]

/-! ### The writes -/

@[simp] theorem noteChange_fwRun (o : Nat) (c : Bool) : (noteChange s o c).boot.fwRun = s.boot.fwRun := by
  unfold noteChange
  split <;> rfl

@[simp] theorem noteChange_hpDone (o : Nat) (c : Bool) : (noteChange s o c).boot.hpDone = s.boot.hpDone := by
  unfold noteChange
  split <;> rfl

theorem storedPair_fwRun (want : Word) : (storedPair s port o want).boot.fwRun = s.boot.fwRun := noteChange_fwRun ..

theorem storedPair_hpDone (want : Word) : (storedPair s port o want).boot.hpDone = s.boot.hpDone := noteChange_hpDone ..

/-- An accepted write of a high half that clears nothing and carries no action, and its effects. -/
theorem writeReg_pairSettable (ok : pairSettable s port o (written s o v) = true) (noClear : clears o v = 0)
    (noAction : actions o v = 0) : writeReg s port o none v =
      effects (storedPair s port o (written s o v)) o (reg s o).toNat (written s o v).toNat 0 := by
  obtain ⟨free, whole, high, sound⟩ := pairSettable_iff.1 ok
  have word : merged (reg s o) v (rwMask o) none = written s o v := rfl
  have noClear' : onesOf o none v .w1c = 0 := noClear
  have noAction' : onesOf o none v .wo = 0 := noAction
  have sound' : ¬rejected (useLow s port o) o (reg (useLow s port o) o).toNat (written s o v).toNat
      ((lowOf s port o).toNat + 2 ^ 32 * (written s o v).toNat) (0 : Word).toNat = true := by
    rw [rejected_useLow, reg_useLow, Bool.not_eq_true]
    exact sound
  rw [writeReg_unlocked free rfl whole, word, lowWanted_high high, noClear', noAction', applyWrite, if_neg sound',
    clearBits_zero, reg_useLow, lowPresent_useLow, ← storedPair_eq high]
  rfl

/-- A new BLK_FW_BASE begins the image fetch, or asks for it where the host ports have not trained yet (R634). -/
theorem busWrite_fwBase (reach : accessible s 0 port 0x104 (.word 0x104) = true)
    (ok : pairSettable s port 0x104 (written s 0x104 v) = true) (idle : s.boot.fwRun = false) :
    busWrite s 0 port 0x104 v = if s.boot.hpDone then
      { storedPair s port 0x104 (written s 0x104 v) with
        boot := { (storedPair s port 0x104 (written s 0x104 v)).boot with fwBusy := true } }
    else { storedPair s port 0x104 (written s 0x104 v) with
      boot := { (storedPair s port 0x104 (written s 0x104 v)).boot with fwPending := true } } := by
  have noClear : clears 0x104 v = 0 := BitVec.and_zero
  have noAction : actions 0x104 v = 0 := BitVec.and_zero
  rw [busWrite_word reach, writeReg_pairSettable ok noClear noAction, effects_fwBase, storedPair_fwRun, idle,
    if_neg Bool.false_ne_true, storedPair_hpDone]

theorem busWrite_bootCtrl (reach : accessible s 0 port 0x110 (.word 0x110) = true)
    (ok : settable s 0x110 (written s 0x110 v) (actions 0x110 v) = true) :
    busWrite s 0 port 0x110 v = bootCtrl (stored s 0x110 (written s 0x110 v)) (actions 0x110 v).toNat := by
  have noClear : clears 0x110 v = 0 := BitVec.and_zero
  rw [busWrite_settable reach ok noClear, effects_bootCtrl]

theorem fld_stored_ne {p : Nat} (other : p ≠ o) (a b : Nat) : fld (stored s o v) p a b = fld s p a b := by
  rw [fld, reg_stored_ne other, fld]

/-- A cap below PGU_ENV lowers it; any other is only stored (R651). -/
theorem busWrite_envMax (reach : accessible s 0 port 0x5004 (.word 0x5004) = true)
    (ok : settable s 0x5004 (written s 0x5004 v) 0 = true) (noAction : actions 0x5004 v = 0) (noClear : clears 0x5004 v = 0) :
    busWrite s 0 port 0x5004 v =
      if bits (written s 0x5004 v).toNat 9 0 < fld s 0x5000 9 0 then
        setFld (stored s 0x5004 (written s 0x5004 v)) 0x5000 9 0 (bits (written s 0x5004 v).toNat 9 0)
      else stored s 0x5004 (written s 0x5004 v) := by
  rw [← noAction] at ok
  rw [busWrite_settable reach ok noClear, effects_envMax, fld_stored_ne (by decide)]

/-- Settles O35: each write's equation by its register, BLK_BOOT_CTRL's by the one action bit that it carries. -/
theorem bootAndEnvelopeWrites : Obligations.BootAndEnvelopeWrites := by
  unfold Obligations.BootAndEnvelopeWrites
  rintro port v _ o s _ rfl rfl reach
  refine ⟨?_, ?_, ?_⟩
  · rintro rfl ok idle
    have write := busWrite_fwBase reach ok idle
    exact ⟨fun trained => congrArg Host.Outcome.next (write.trans (if_pos trained)),
      fun untrained => congrArg Host.Outcome.next (write.trans (if_neg (Bool.eq_false_iff.1 untrained)))⟩
  · rintro rfl ok
    have write := busWrite_bootCtrl reach ok
    refine ⟨?_, ?_, ?_, ?_⟩
    · rintro rfl
      exact congrArg Host.Outcome.next (write.trans bootCtrl_restore)
    · rintro rfl
      exact congrArg Host.Outcome.next (write.trans bootCtrl_start)
    · rintro rfl
      exact congrArg Host.Outcome.next (write.trans bootCtrl_save)
    · rintro rfl
      exact congrArg Host.Outcome.next (write.trans bootCtrl_quiesce)
  · rintro rfl ok noAction noClear
    have write := busWrite_envMax reach ok noAction noClear
    exact ⟨fun lower => congrArg Host.Outcome.next (write.trans (if_pos lower)),
      fun higher => congrArg Host.Outcome.next (write.trans (if_neg (Nat.not_lt.2 higher)))⟩

end Sys2Proof.Machine

/-!
The firmware image, the Forget-me-not record and the power governor (R632, R636 to R643, R646 to R651, R655).
-/

namespace Sys2Proof.Machine

variable {s u v : State}

/-! ### The firmware image (R632, R633) -/

@[simp] theorem readReturned_boot (p n : Nat) : (readReturned s p n).boot = s.boot := by rw [readReturned_eq]

@[simp] theorem readReturned_pins (p n : Nat) : (readReturned s p n).pins = s.pins := by rw [readReturned_eq]

section
variable (alive_s : alive s = true) (send : canSend s 0 = true) (fetching : s.boot.fwBusy = true) (idle : s.boot.fwRun = false)
include alive_s send fetching idle

theorem execFirmwareImageCheck_refuses {e : Nat} (bad : checkImage s (hostKey pf0Space (reg64 s 0x100)) = .error e) :
    execFirmwareImageCheck s = .next { s with boot := { s.boot with fwBusy := false, fwErr := e } } := by
  simp only [execFirmwareImageCheck, alive_s, send, fetching, idle, bad, Bool.not_true, Bool.or_self, Bool.false_eq_true, if_false]

theorem execFirmwareImageCheck_starts {l : List Byte} (good : checkImage s (hostKey pf0Space (reg64 s 0x100)) = .ok l)
    (running : u = { readReturned s 0 l.length with
      boot := { s.boot with fwBusy := false, fwErr := 0, fwRun := true, image := l }
      pins := { s.pins with aliveRun := true } }) :
    execFirmwareImageCheck s = .next ((diesUp u).foldl (fun s d => startMgmt s (Fin.ofNat 4 d)) u) := by
  subst running
  simp only [execFirmwareImageCheck, alive_s, send, fetching, idle, good, readReturned_boot, readReturned_pins, Bool.not_true,
    Bool.or_self, Bool.false_eq_true, if_false]

end

/-! ### The record (R636 to R643) -/

section
variable (alive_s : alive s = true) (runs : s.boot.restoreRun = true) (trained : s.boot.memDone = true)
include alive_s runs trained

theorem execRecordRestore_skips (skip : s.boot.startOnly = true) : execRecordRestore s =
    .next (becomeReady { s with boot := { s.boot with fmnErrA := 0xF, fmnErrB := 0xF } }) := by
  simp only [execRecordRestore, alive_s, runs, trained, skip, Bool.not_true, Bool.or_self, Bool.false_eq_true, if_false, if_true]

theorem execRecordRestore_noAddress (whole : s.boot.startOnly = false) (unset : reg64 s 0x108 = 0) : execRecordRestore s =
    .next (becomeReady { s with boot := { s.boot with fmnErrA := 1, fmnErrB := 1 } }) := by
  simp only [execRecordRestore, alive_s, runs, trained, whole, unset, Bool.not_true, Bool.or_self, Bool.false_eq_true,
    if_false, if_true]

theorem execRecordRestore_restores (send : canSend s 0 = true) (whole : s.boot.startOnly = false) (given : reg64 s 0x108 ≠ 0) :
    execRecordRestore s = .next (becomeReady (restoreRecord s)) := by
  simp only [execRecordRestore, alive_s, runs, trained, whole, given, send, Bool.not_true, Bool.or_self,
    Bool.false_eq_true, if_false]

end

theorem execForgetMeNotSave_saves (alive_s : alive s = true) (send : canSend s 0 = true) (due : s.boot.savePending = true)
    (given : reg64 s 0x108 ≠ 0) : execForgetMeNotSave s = .next (saveRecord s) := by
  simp only [execForgetMeNotSave, alive_s, send, due, given, Bool.not_true, Bool.or_self, Bool.false_eq_true,
    decide_false, if_false]

/-! ### The block estimate (R647, R655) -/

/-- s once the estimate over a reading is recorded. -/
def estimated (s : State) (m : PowerReading) : State := setFld { s with
  dies := s.dies.zipIdx.map fun (x, d) => { x with dw := m.dw.getD d 0, da := m.da.getD d 0, mv := m.mv.getD d x.mv }
  energy := s.energy + estimate s m
  counted := powerCounters.map fun c => reg64 s c.1 } 0x5008 25 16 (Nat.min 1023 (estimate s m / 10 ^ 12))

section
variable {m : PowerReading}

theorem estimated_boot : (estimated s m).boot = s.boot := by rw [estimated, setFld_boot]

theorem estimated_fatal : (estimated s m).fatal = s.fatal := by rw [estimated, setFld_fatal]

theorem execPguEstimate_eq : execPguEstimate m s = .next (
    if s.pins.inReset || s.pins.testHeld then s
    else if !(estimated s m).boot.fwRun || (estimated s m).fatal then estimated s m
    else if fld (estimated s m) 0x5000 9 0 * 10 ^ 12 < estimate s m then envDown (estimated s m)
    else if estimate s m * 100 < fld (estimated s m) 0x5000 9 0 * 10 ^ 12 * 95 then envUp (estimated s m)
    else estimated s m) := rfl

/-- The estimate is recorded, and steps the envelope once the firmware runs (R645, R647). -/
theorem execPguEstimate_records (run : s.pins.inReset = false) (free : s.pins.testHeld = false) (recorded : u = estimated s m) :
    execPguEstimate m s = .next (
      if !s.boot.fwRun || s.fatal then u
      else if fld u 0x5000 9 0 * 10 ^ 12 < estimate s m then envDown u
      else if estimate s m * 100 < fld u 0x5000 9 0 * 10 ^ 12 * 95 then envUp u
      else u) := by
  rw [execPguEstimate_eq, run, free, if_neg (by decide), estimated_boot, estimated_fatal, recorded]

end

/-! ### Temperature (R75, R648) -/

section
variable {d : Fin 4} {tj : Int} (run : s.pins.inReset = false)
include run

theorem execThermalStep_silent : execThermalStep d none s = .next (thermN (setDie s d fun x => { x with sensor := false })) := by
  simp only [execThermalStep, run, Bool.false_eq_true, if_false]

section
variable (reading : u = readTj s d tj) (running : u.boot.fwRun = true) (sound : u.fatal = false)
  (free : u.pins.testHeld = false)
include reading running sound free

theorem execThermalStep_hot {l : Limit} (hot : 100 ≤ tj) (below : tj < 115)
    (steps : stepDown (dvsetOf u d) (dieAt u d) (thermLimit (dieAt u d)) = some l) :
    execThermalStep d (some tj) s = .next (setW1c (setDie u d fun x => setTherm x l) 0x500C 0 0x5014) := by
  simp only [execThermalStep, run, ← reading, running, sound, free, Int.not_le.2 below, hot, steps, Bool.not_true, Bool.or_self,
    Bool.false_eq_true, if_false, if_true]

theorem execThermalStep_warm (warm : 95 ≤ tj) (below : tj < 100) : execThermalStep d (some tj) s = .next u := by
  have cold : ¬(115 ≤ tj) := by omega
  simp only [execThermalStep, run, ← reading, running, sound, free, cold, Int.not_le.2 below, Int.not_lt.2 warm, Bool.not_true,
    Bool.or_self, Bool.false_eq_true, if_false]

theorem execThermalStep_cool (cool : tj < 95) : execThermalStep d (some tj) s =
    .next (setDie u d fun x => setTherm x (stepUp (dvsetOf u d) (thermLimit x))) := by
  have low : ¬(115 ≤ tj) := by omega
  have mild : ¬(100 ≤ tj) := by omega
  simp only [execThermalStep, run, ← reading, running, sound, free, low, mild, cool, Bool.not_true, Bool.or_self,
    Bool.false_eq_true, if_false, if_true]

end

theorem execThermTrip_reading (hot : 115 ≤ tj) : execThermTrip d tj s = .next (thermShutdown s d tj) := by
  simp only [execThermTrip, run, Int.not_lt.2 hot, decide_false, Bool.or_self, Bool.false_eq_true, if_false]

theorem execThermalStep_trips (hot : 115 ≤ tj) : execThermalStep d (some tj) s = execThermTrip d tj s := by
  rw [execThermTrip_reading run hot]
  simp only [execThermalStep, run, hot, Bool.false_eq_true, if_false, if_true]

end

theorem thermShutdown_first {d : Nat} {tj : Int} (reading : u = readTj s d tj) (first : u.pins.tripped = false)
    (raised : v = raise u ⟨0x15, false, d, none, 3, d⟩) : thermShutdown s d tj = thermN { v with
      pins := { v.pins with tripped := true }, dies := v.dies.zipIdx.map fun (x, i) => shutVcore x i } := by
  subst reading raised
  rw [thermShutdown, if_neg (Bool.eq_false_iff.1 first)]

/-! ### Regulator faults (R650) -/

section
variable {d : Fin 4} (alive_s : alive s = true) (up : dieLost s d = false)
include alive_s up

theorem execPguFault_vcoreRange : execPguFault d .vcoreRange s = .next (raise s ⟨0x17, false, d, none, 3, d⟩) := by
  simp only [execPguFault, alive_s, up, Bool.not_true, Bool.or_self, Bool.false_eq_true, if_false]

variable (bus : (dieAt s d).fixed = false)
include bus

theorem execPguFault_noAck : execPguFault d .noAck s =
    .next (raise (bumpBy s (dieBase d + 0x1010) 3) ⟨0x17, false, d, none, 3, d⟩) := by
  simp only [execPguFault, alive_s, up, bus, Bool.not_true, Bool.not_false, Bool.or_self, Bool.false_eq_true, if_false, if_true]

theorem execPguFault_outputFault : execPguFault d .outputFault s = .next (raise s ⟨0x17, false, d, none, 3, d⟩) := by
  simp only [execPguFault, alive_s, up, bus, Bool.not_true, Bool.not_false, Bool.or_self, Bool.false_eq_true, if_false, if_true]

end

/-- Settles O58: each event's equation, the estimate's by the envelope and the reading's by its temperature. POWER's bits and the
count of failed transactions are the model's reading (log entry 37). -/
theorem bootAndPowerEvents : Obligations.BootAndPowerEvents := by
  unfold Obligations.BootAndPowerEvents
  refine ⟨fun s u alive_s send => ⟨fun fetching idle => ⟨fun e => execFirmwareImageCheck_refuses alive_s send fetching idle,
      fun l => execFirmwareImageCheck_starts alive_s send fetching idle⟩,
    fun runs trained => ⟨execRecordRestore_skips alive_s runs trained, execRecordRestore_noAddress alive_s runs trained,
      execRecordRestore_restores alive_s runs trained send⟩, ⟨_, rfl, rfl, rfl⟩, execForgetMeNotSave_saves alive_s send⟩,
    fun s run free => ⟨fun m u recorded => ?_, fun d => execThermalStep_silent run,
      fun d tj u reading running sound held => ⟨fun l => execThermalStep_hot run reading running sound held,
        execThermalStep_warm run reading running sound held, execThermalStep_cool run reading running sound held⟩,
      fun d tj u v hot reading first raised =>
        ⟨(execThermTrip_reading run hot).trans (congrArg Host.Outcome.next (thermShutdown_first reading first raised)),
          execThermalStep_trips run hot⟩,
      fun d alive_s up => ⟨execPguFault_vcoreRange alive_s up,
        fun bus => ⟨execPguFault_noAck alive_s up bus, execPguFault_outputFault alive_s up bus⟩⟩⟩⟩
  have step := execPguEstimate_records run free recorded
  clear recorded
  refine ⟨fun idle => ?_, fun running sound above => ?_, fun running sound below => ?_⟩
  · rw [idle] at step
    exact step
  · rw [running, sound, if_neg (by decide), if_pos above] at step
    exact step
  · rw [running, sound, if_neg (by decide), if_neg (by omega), if_pos (by omega)] at step
    exact step

end Sys2Proof.Machine

/-!
The scalar and branch classes of Orony: their results, JR's program fault, and what they leave unchanged (R198, R205, R207 to
R209, Tables 6.4 and 6.5).
-/

namespace Sys2Proof.Machine

variable {s s' : State} {x : Orony} {t u : Thread} {op : Nat}

/-! ### Scalar results (R207, Table 6.4) -/

theorem scalarOp_executes (f : Word → Word → Word) (hx : executes s 0 op x t = true) : scalarOp op f x s =
    setThread (issued s x.th) x.th fun _ => nextPc (ws t x.d (f (rs t x.a) (operandY t x))) :=
  issueScalar_executes hx

/-- An operation that the model computes by g gives the f that the table states where the two agree. -/
theorem scalarGives_of {i : Orony → Instr} {f g : Word → Word → Word}
    (means : ∀ x s, exec (i x) s = .next (scalarOp op g x s)) (agree : ∀ x y, g x y = f x y) : ScalarGives i op f := by
  obtain rfl : g = f := funext₂ agree
  exact fun x s t hx => (means x s).trans (congrArg Host.Outcome.next (scalarOp_executes g hx))

theorem sltB_iff {x y : Word} : sltB x y = true ↔ x.toInt < y.toInt := BitVec.slt_iff_toInt_lt

theorem ultB_iff {x y : Word} : ultB x y = true ↔ x.toNat < y.toNat := BitVec.ult_iff_toNat_lt

theorem oneIf_iff {b : Bool} {p : Prop} [Decidable p] (h : b = true ↔ p) : oneIf b = if p then 1 else 0 := if_congr h rfl rfl

section
variable {β : Type} [LinearOrder β] {b : Bool} {f : Word → β} {x y : Word}

/-- The lesser by "the second is less" is the lesser by "the first is no more". -/
theorem lesser_eq (h : b = true ↔ f y < f x) : (if b then y else x) = if f x ≤ f y then x else y := by
  rw [if_congr (h.trans not_le.symm) rfl rfl, ite_not]

/-- The greater by "the first is less" is the greater by "the first is no more": words that weigh the same are the same. -/
theorem greater_eq (inj : Function.Injective f) (h : b = true ↔ f x < f y) :
    (if b then y else x) = if f x ≤ f y then y else x := by
  rw [if_congr h rfl rfl]
  obtain less | same | more := lt_trichotomy (f x) (f y)
  · rw [if_pos less, if_pos less.le]
  · rw [inj same, ite_self, ite_self]
  · rw [if_neg more.not_gt, if_neg more.not_ge]

end

theorem toInt_injective : Function.Injective (BitVec.toInt : Word → Int) := fun _ _ => BitVec.eq_of_toInt_eq

theorem toNat_injective : Function.Injective (BitVec.toNat : Word → Nat) := fun _ _ => BitVec.eq_of_toNat_eq

theorem fieldsOk_scalar (h : fieldsOk 0 op x = true) : x.w = 0 := by
  simp only [fieldsOk, if_true, Bool.and_eq_true, decide_eq_true_eq] at h
  exact h.1

theorem fieldsOk_movi (h : fieldsOk 0 0x14 x = true) : x.i = true ∧ x.a = 0 ∧ x.b = 0 := by
  obtain ⟨-, immediate, a, b⟩ : x.w = 0 ∧ x.i = true ∧ x.a = 0 ∧ x.b = 0 := by simpa [fieldsOk, FieldRule.holds] using h
  exact ⟨immediate, a, b⟩

theorem ofNat_div_toNat (x y : Word) : BitVec.ofNat 32 (x.toNat / y.toNat) = x / y := by
  rw [← BitVec.toNat_udiv, BitVec.ofNat_toNat, BitVec.setWidth_eq]

theorem ofNat_mod_toNat (x y : Word) : BitVec.ofNat 32 (x.toNat % y.toNat) = x % y := by
  rw [← BitVec.toNat_umod, BitVec.ofNat_toNat, BitVec.setWidth_eq]

/-- Settles O4: the model's function of each operation is the table's. -/
theorem scalarResults : Obligations.ScalarResults := by
  unfold Obligations.ScalarResults
  have same {i : Orony → Instr} {op : Nat} {f : Word → Word → Word}
      (means : ∀ x s, exec (i x) s = .next (scalarOp op f x s)) : ScalarGives i op f := scalarGives_of means fun _ _ => rfl
  refine ⟨same fun _ _ => rfl, same fun _ _ => rfl, same fun _ _ => rfl, same fun _ _ => rfl, same fun _ _ => rfl,
    same fun _ _ => rfl, same fun _ _ => rfl, same fun _ _ => rfl, ?mul, same fun _ _ => rfl, same fun _ _ => rfl, ?divu,
    ?remu, ?min, ?max, ?minu, ?maxu, ?slt, ?sltu, ?seq, same fun _ _ => rfl, fun _ _ => fieldsOk_scalar, fun _ => fieldsOk_movi⟩
  case mul => exact scalarGives_of (fun _ _ => rfl) fun _ _ => BitVec.mul_def
  case divu => exact scalarGives_of (fun _ _ => rfl) fun x y => by rw [ofNat_div_toNat]
  case remu => exact scalarGives_of (fun _ _ => rfl) fun x y => by rw [ofNat_mod_toNat]
  case min => exact scalarGives_of (fun _ _ => rfl) fun _ _ => lesser_eq sltB_iff
  case max => exact scalarGives_of (fun _ _ => rfl) fun _ _ => greater_eq toInt_injective sltB_iff
  case minu => exact scalarGives_of (fun _ _ => rfl) fun _ _ => lesser_eq ultB_iff
  case maxu => exact scalarGives_of (fun _ _ => rfl) fun _ _ => greater_eq toNat_injective ultB_iff
  case slt => exact scalarGives_of (fun _ _ => rfl) fun x y => oneIf_iff sltB_iff
  case sltu => exact scalarGives_of (fun _ _ => rfl) fun x y => oneIf_iff ultB_iff
  case seq => exact scalarGives_of (fun _ _ => rfl) fun x y => oneIf_iff beq_iff_eq

/-! ### Branches (R208, R209, Table 6.5) -/

theorem branchOp_executes (p : Thread → Bool) (hx : executes s 1 op x t = true) : branchOp op p x s =
    setThread (issued s x.th) x.th fun _ => if p t then { t with pc := branchTarget t x.imm } else nextPc t :=
  issueScalar_executes hx

/-- A branch whose condition the model computes by p is taken where the table's condition c holds. -/
theorem branchWhen_of {i : Orony → Instr} {p : Orony → Thread → Bool} {c : Thread → Orony → Prop}
    (means : ∀ x s, exec (i x) s = .next (branchOp op (p x) x s)) (agree : ∀ t x, p x t = true ↔ c t x) :
    BranchWhen i op c := by
  intro x s t hx
  have step := (means x s).trans (congrArg Host.Outcome.next (branchOp_executes (p x) hx))
  refine ⟨fun holds => ?_, fun fails => ?_⟩
  · rw [step, if_pos ((agree t x).2 holds)]
  · rw [step, if_neg fun taken => fails ((agree t x).1 taken)]

theorem anyBit_iff {p : BitVec 16} : anyBit p = true ↔ ∃ i, i < 16 ∧ p.getLsbD i = true := by
  rw [anyBit, decide_eq_true_eq]
  refine ⟨fun some_ => ?_, fun ⟨i, _, set⟩ none_ => ?_⟩
  · by_contra clear
    exact some_ (BitVec.eq_of_getLsbD_eq fun i hi =>
      (Bool.eq_false_iff.2 fun set => clear ⟨i, hi, set⟩).trans BitVec.getLsbD_zero.symm)
  · exact absurd (set.symm.trans ((congrArg (BitVec.getLsbD · i) none_).trans BitVec.getLsbD_zero)) (by decide)

theorem allBits_iff {p : BitVec 16} : allBits p = true ↔ ∀ i, i < 16 → p.getLsbD i = true := by
  have ones : (0xFFFF : BitVec 16) = BitVec.allOnes 16 := by decide
  rw [allBits, decide_eq_true_eq, ones]
  refine ⟨fun all i hi => ?_, fun all => BitVec.eq_of_getLsbD_eq fun i hi => ?_⟩
  · rw [all, BitVec.getLsbD_allOnes, decide_eq_true hi]
  · rw [all i hi, BitVec.getLsbD_allOnes, decide_eq_true hi]

/-- Inside the 32-bit offsets nothing wraps. -/
theorem branchTarget_inside {imm : Word} (low : 0 ≤ (t.pc : Int) + 8 * imm.toInt)
    (high : (t.pc : Int) + 8 * imm.toInt < 2 ^ 32) : (branchTarget t imm : Int) = (t.pc : Int) + 8 * imm.toInt := by
  rw [branchTarget, Int.emod_eq_of_lt low high, Int.toNat_of_nonneg low]

/-- JR's two outcomes, by whether the offset is one of the program's instructions. -/
theorem execJr_executes (hx : executes s 1 0x0A x t = true) : execJr x s = .next (
    if (rs t x.a).toNat % 8 ≠ 0 ∨ t.progLen ≤ (rs t x.a).toNat then pfault (issued s x.th) x.th 9 0
    else setThread (issued s x.th) x.th fun _ => { t with pc := (rs t x.a).toNat }) :=
  congrArg Host.Outcome.next (issueScalar_executes hx)

theorem fieldsOk_branch (h : fieldsOk 1 op x = true) : x.i = false ∧ x.w = 0 ∧ (op = 0x0A → x.imm = 0) ∧
    (op = 0x07 ∨ op = 0x08 → x.a.toNat ≤ 7) := by
  simp only [fieldsOk, FieldRule.holds] at h
  simp only [Bool.and_eq_true, Bool.not_eq_true', decide_eq_true_eq, if_true, if_false, OfNat.one_ne_ofNat,
    one_ne_zero] at h
  obtain ⟨⟨plain, width⟩, fields⟩ := h
  refine ⟨plain, width, ?_, ?_⟩
  · rintro rfl
    exact And.right (by simpa using fields)
  · have eight (rule : (x.d = 0 ∧ x.b = 0) ∧ x.a.toNat < 8) : x.a.toNat ≤ 7 := Nat.le_of_lt_succ rule.2
    rintro (rfl | rfl)
    · exact eight (by simpa using fields)
    · exact eight (by simpa using fields)

/-- Settles O5: each branch by its condition, CALL and JR by their equations. -/
theorem branchResults : Obligations.BranchResults := by
  unfold Obligations.BranchResults
  refine ⟨?br, ?beq, ?bne, ?blt, ?bltu, ?bge, ?bgeu, ?pany, ?pall,
    fun x s t hx => congrArg Host.Outcome.next (issueScalar_executes hx), fun t imm => branchTarget_inside,
    fun x s t hx aligned inside => ?jr, fun op x => fieldsOk_branch⟩
  case br => exact branchWhen_of (fun _ _ => rfl) fun _ _ => by simp
  case beq => exact branchWhen_of (fun _ _ => rfl) fun _ _ => beq_iff_eq
  case bne => exact branchWhen_of (fun _ _ => rfl) fun _ _ => bne_iff_ne
  case blt => exact branchWhen_of (fun _ _ => rfl) fun _ _ => sltB_iff
  case bltu => exact branchWhen_of (fun _ _ => rfl) fun _ _ => ultB_iff
  case bge => exact branchWhen_of (fun _ _ => rfl) fun _ _ => by rw [Bool.not_eq_true', ← Bool.not_eq_true, sltB_iff, not_lt]
  case bgeu => exact branchWhen_of (fun _ _ => rfl) fun _ _ => by rw [Bool.not_eq_true', ← Bool.not_eq_true, ultB_iff, not_lt]
  case pany => exact branchWhen_of (fun _ _ => rfl) fun _ _ => anyBit_iff
  case pall => exact branchWhen_of (fun _ _ => rfl) fun _ _ => allBits_iff
  case jr => exact (execJr_executes hx).trans (congrArg Host.Outcome.next (if_neg (by omega)))

/-- Settles O6: JR where its offset is none of the program's. -/
theorem jumpRangeFault : Obligations.JumpRangeFault := by
  unfold Obligations.JumpRangeFault
  exact fun x s t hx bad => (execJr_executes hx).trans (congrArg Host.Outcome.next (if_pos bad))

/-! ### What issuing counts (R198, Table 18.10) -/

/-- An event of a tile touches no register but the two halves of its counter. -/
theorem reg_tileEvent {th : ThreadRef} {k n o : Nat}
    (apart : ∀ m, thTile th = some m → o ≠ tileBase m + 0x1000 + k ∧ o ≠ tileBase m + 0x1000 + k + 4) :
    reg (tileEvent s th k n) o = reg s o := by
  unfold tileEvent
  split
  · rename_i m tile
    obtain ⟨low, high⟩ := apart m tile
    exact (reg_setReg_ne high).trans (reg_setReg_ne low)
  · rfl

/-- Issuing an instruction moves its tile's count and its Minuet's turn, and no other. -/
theorem countsIssue_issued : CountsIssue x s (issued s x.th) := by
  refine ⟨fun o apart => ?_, fun m other => ?_⟩
  · rw [issued, reg_tileEvent apart]
    rfl
  · rw [issued_eq]
    exact look_put_ne other

theorem countsIssue_refl : CountsIssue x s s := ⟨fun _ _ => rfl, fun _ _ => rfl⟩

/-! ### Instructions that change their own thread alone -/

/-- An update of one thread to a fixed one of its name: what it answers (compare `threadOf_setThread_self`). -/
theorem threadOf_setThread_of {th : ThreadRef} {f : Thread → Thread} (thread : threadOf s th = some t)
    (name : ∀ y, y.th = th → (f y).th = th) : threadOf (setThread s th f) th = some (f t) := by
  simp only [threadOf, setThread_threads, updIf] at thread ⊢
  revert thread
  generalize s.threads = l
  intro thread
  induction l with
  | nil => cases thread
  | cons y l ih =>
    by_cases same : y.th = th
    · simp_all
    · simp_all

/-- The instruction does nothing, or its thread t becomes one that R relates t to and nothing else moves but the count of
instructions and the turn. -/
def MovesThread (x : Orony) (R : Thread → Thread → Prop) (s s' : State) : Prop :=
  s' = s ∨ ∃ t f, threadOf s x.th = some t ∧ R t (f t) ∧ (∀ y, y.th = x.th → (f y).th = x.th) ∧
    s' = setThread (issued s x.th) x.th f

/-- What `MovesThread` says of the parts of the state. -/
theorem MovesThread.frame {R : Thread → Thread → Prop} (moves : MovesThread x R s s') (same : ∀ t, R t t) :
    s' = { s with threads := s'.threads, regs := s'.regs, lastIssue := s'.lastIssue } ∧ CountsIssue x s s' ∧
    (∀ a, look zero s'.hostMem a = look zero s.hostMem a) ∧ (∀ th, th ≠ x.th → threadOf s' th = threadOf s th) ∧
    (∀ t, threadOf s x.th = some t → ∃ u, threadOf s' x.th = some u ∧ R t u) := by
  obtain rfl | ⟨t, f, thread, related, name, rfl⟩ := moves
  · exact ⟨rfl, countsIssue_refl, fun _ => rfl, fun _ _ => rfl, fun t thread => ⟨t, thread, same t⟩⟩
  · refine ⟨?_, countsIssue_issued, fun a => ?_, fun th other => ?_, fun t' thread' => ⟨f t, ?_, ?_⟩⟩
    · rw [issued_eq]
      rfl
    · rw [setThread_hostMem, issued_eq]
    · rw [threadOf_setThread_ne other name, threadOf_issued]
    · exact threadOf_setThread_of ((threadOf_issued _).trans thread) name
    · obtain rfl := Option.some.inj (thread'.symm.trans thread)
      exact related

/-- Issuing an instruction whose effect is on its own thread alone. -/
theorem movesThread_issue {c : Nat} {R : Thread → Thread → Prop} {f : State → Thread → State} (skip : ∀ t, R t (nextPc t))
    (effect : ∀ t, issues s c op x t = true → ∃ g, f (issued s x.th) t = setThread (issued s x.th) x.th g ∧ R t (g t) ∧
      ∀ y, y.th = x.th → (g y).th = x.th) : MovesThread x R s (issue s c op x f) := by
  cases thread : threadOf s x.th with
  | none => exact .inl (by rw [issue, thread])
  | some t =>
    obtain idle | skipped | ⟨u, hu, done⟩ := issue_cases (s := s) (c := c) (op := op) (x := x) (f := f)
    · exact .inl idle
    · exact .inr ⟨t, nextPc, thread, skip t, fun _ name => name, skipped⟩
    · obtain ⟨g, did, related, name⟩ := effect u hu
      exact .inr ⟨u, g, (issues_iff.1 hu).1, related, name, done.trans did⟩

theorem movesThread_issueScalar {c : Nat} {R : Thread → Thread → Prop} {f : State → Thread → State} (skip : ∀ t, R t (nextPc t))
    (effect : ∀ t, executes s c op x t = true → ∃ g, f (issued s x.th) t = setThread (issued s x.th) x.th g ∧ R t (g t) ∧
      ∀ y, y.th = x.th → (g y).th = x.th) : MovesThread x R s (issueScalar s c op x f) := by
  refine movesThread_issue skip fun t ht => ?_
  by_cases guard : (guard16 t x).getLsbD 0 = true
  · rw [if_pos guard]
    exact effect t (executes_iff.2 ⟨ht, guard⟩)
  · rw [if_neg guard]
    exact ⟨nextPc, rfl, skip t, fun _ name => name⟩

/-- A thread that takes another's place keeps the name. -/
theorem const_name {c : Nat} (ht : issues s c op x t = true) (name : u.th = t.th) (y : Thread) (_ : y.th = x.th) :
    u.th = x.th :=
  name.trans (threadOf_th (issues_iff.1 ht).1)

/-! ### What the scalar and branch classes leave unchanged (R198, R207, R208) -/

theorem rs_ws_ne {r d : Nat} {v : Word} (h : r ≠ d) : rs (ws t d v) r = rs t r := look_put_ne h

/-- u is t but for s[D] and the program counter. -/
def ScalarMove (x : Orony) (t u : Thread) : Prop := u = { t with s := u.s, pc := u.pc } ∧ ∀ r, r ≠ x.d.val → rs u r = rs t r

theorem exec_scalarClass {i : Instr} (h : i.orony = some (0, op, x)) : ∃ f, ∀ s, exec i s = .next (scalarOp op f x s) := by
  cases i
  all_goals cases h
  all_goals exact ⟨_, fun _ => rfl⟩

theorem exec_branchClass {i : Instr} (h : i.orony = some (1, op, x)) (direct : op ≠ 0x0A) :
    (∃ p, ∀ s, exec i s = .next (branchOp op p x s)) ∨ i = .call x := by
  cases i
  all_goals cases h
  case call => exact .inr rfl
  case jr => exact absurd rfl direct
  all_goals exact .inl ⟨_, fun _ => rfl⟩

theorem scalarOp_moves (f : Word → Word → Word) : MovesThread x (ScalarMove x) s (scalarOp op f x s) :=
  movesThread_issueScalar (fun _ => ⟨rfl, fun _ _ => rfl⟩) fun _ ht =>
    ⟨_, rfl, ⟨rfl, fun _ => rs_ws_ne⟩, const_name (executes_iff.1 ht).1 rfl⟩

theorem branchOp_moves (p : Thread → Bool) : MovesThread x (ScalarMove x) s (branchOp op p x s) := by
  refine movesThread_issueScalar (fun _ => ⟨rfl, fun _ _ => rfl⟩) fun t ht => ⟨_, rfl, ?_, const_name (executes_iff.1 ht).1 ?_⟩
  · split <;> exact ⟨rfl, fun _ _ => rfl⟩
  · split <;> rfl

theorem execCall_moves (h : execCall x s = .next s') : MovesThread x (ScalarMove x) s s' := by
  cases h
  exact movesThread_issueScalar (fun _ => ⟨rfl, fun _ _ => rfl⟩) fun t ht =>
    ⟨_, rfl, ⟨rfl, fun _ => rs_ws_ne⟩, const_name (executes_iff.1 ht).1 rfl⟩

/-- Settles O8: each instruction of the two classes moves its own thread as `ScalarMove` says. -/
theorem scalarBranchFrame : Obligations.ScalarBranchFrame := by
  unfold Obligations.ScalarBranchFrame
  intro i c op x s s' class_ small direct answer
  have moves : MovesThread x (ScalarMove x) s s' := by
    obtain rfl | rfl : c = 0 ∨ c = 1 := by omega
    · obtain ⟨f, means⟩ := exec_scalarClass class_
      obtain rfl := Host.Outcome.next.inj ((means s).symm.trans answer)
      exact scalarOp_moves f
    · obtain ⟨p, means⟩ | rfl := exec_branchClass class_ fun jr => direct ⟨rfl, jr⟩
      · obtain rfl := Host.Outcome.next.inj ((means s).symm.trans answer)
        exact branchOp_moves p
      · exact execCall_moves answer
  exact moves.frame fun t => ⟨rfl, fun _ _ => rfl⟩

end Sys2Proof.Machine

/-!
The vector class of Orony: its integer and FP32 results, and what it leaves unchanged (R198, R205, R206, R210, R211, Table 6.6).
-/

namespace Sys2Proof.Machine

variable {s s' : State} {x : Orony} {t u : Thread} {op : Nat}

/-! ### Vector results (R205, R206, R210, Table 6.6) -/

theorem vectorOp_issues (f : Thread → Nat → Word) (hx : issues s 2 op x t = true) : vectorOp op f x s =
    setThread (issued s x.th) x.th fun _ => nextPc (writeVec t (guard16 t x) x.d (f t)) :=
  issue_ready hx

theorem compareOp_issues (c : Word → Word → Bool) (hx : issues s 2 op x t = true) : compareOp op c x s =
    setThread (issued s x.th) x.th fun _ => nextPc (wp t x.d (cmpMask (guard16 t x) c (rv t x.a) (vecY t x))) :=
  issue_ready hx

theorem vectorGives_of {i : Orony → Instr} {f : Orony → Thread → Nat → Word}
    (means : ∀ x s, exec (i x) s = .next (vectorOp op (f x) x s)) : VectorGives i op fun t x e => f x t e :=
  fun x s _ hx => (means x s).trans (congrArg Host.Outcome.next (vectorOp_issues (f x) hx))

theorem subwordGives_of {i : Orony → Instr} {f : Nat → Nat → Nat → Nat}
    (means : ∀ x s, exec (i x) s = .next (intOp op f x s)) : SubwordGives i op f :=
  vectorGives_of means

theorem compareGives_of {i : Orony → Instr} {c d : Word → Word → Bool}
    (means : ∀ x s, exec (i x) s = .next (compareOp op c x s)) (agree : ∀ x y, c x y = d x y) : CompareGives i op d := by
  obtain rfl : c = d := funext₂ agree
  exact fun x s t hx => (means x s).trans (congrArg Host.Outcome.next (compareOp_issues c hx))

/-- VEXT and VINS name an element that v[D] has. -/
theorem fieldsOk_element (h : fieldsOk 2 op x = true) (element : op = 0x15 ∨ op = 0x16) : x.imm.toNat % 16 = x.imm.toNat := by
  refine Nat.mod_eq_of_lt ?_
  obtain rfl | rfl := element
  · by_contra beyond
    simp [fieldsOk, beyond] at h
  · by_contra beyond
    simp [fieldsOk, beyond] at h

theorem fieldsOk_issues {c : Nat} (hx : issues s c op x t = true) : fieldsOk c op x = true := by
  obtain ⟨-, -, -, -, -, fields, -⟩ := issues_iff.1 hx
  exact fields

theorem execVext_issues (hx : issues s 2 0x15 x t = true) : execVext x s =
    .next (setThread (issued s x.th) x.th fun _ => nextPc (ws t x.d (rv t x.a x.imm.toNat))) := by
  rw [execVext, issue_ready hx, fieldsOk_element (fieldsOk_issues hx) (.inl rfl)]

theorem execVins_issues (hx : issues s 2 0x16 x t = true) : execVins x s = .next (setThread (issued s x.th) x.th fun _ => nextPc
    (if (guard16 t x).getLsbD x.imm.toNat then wv t x.d x.imm.toNat (rs t x.a) else t)) := by
  rw [execVins, issue_ready hx, fieldsOk_element (fieldsOk_issues hx) (.inr rfl)]

/-- A sum over the guarded elements, taken in one pass. -/
theorem execVrsum_issues (hx : issues s 2 0x17 x t = true) : execVrsum x s = .next (setThread (issued s x.th) x.th fun _ =>
    nextPc (ws t x.d (((guarded t x).map fun e => rv t x.a e).foldl (· + ·) 0))) := by
  rw [execVrsum, issue_ready hx, guarded, List.foldl_map, List.foldl_filter]

/-- Settles O9: each operation's equation where it issues. That VEXT and VRSUM write s[D] whatever the guard is log entry 27. -/
theorem vectorIntegerResults : Obligations.VectorIntegerResults := by
  unfold Obligations.VectorIntegerResults
  have int {i : Orony → Instr} {op : Nat} {f : Nat → Nat → Nat → Nat}
      (means : ∀ x s, exec (i x) s = .next (intOp op f x s)) : SubwordGives i op f := subwordGives_of means
  refine ⟨int fun _ _ => rfl, int fun _ _ => rfl, int fun _ _ => rfl, int fun _ _ => rfl, int fun _ _ => rfl,
    int fun _ _ => rfl, int fun _ _ => rfl, int fun _ _ => rfl, int fun _ _ => rfl, int fun _ _ => rfl, int fun _ _ => rfl,
    int fun _ _ => rfl, int fun _ _ => rfl, int fun _ _ => rfl, int fun _ _ => rfl, int fun _ _ => rfl,
    compareGives_of (fun _ _ => rfl) fun _ _ => rfl, compareGives_of (fun _ _ => rfl) fun _ _ => rfl,
    compareGives_of (fun _ _ => rfl) fun _ _ => rfl, vectorGives_of fun _ _ => rfl, vectorGives_of fun _ _ => rfl,
    fun x s t => execVext_issues, fun x s t => execVins_issues, fun x s t => execVrsum_issues⟩

/-! ### FP32 results (R211) -/

theorem ofFp32_nan {w : Word} (h : isNanWord w = true) : ofFp32 w = .nan := by
  simp only [isNanWord, Bool.and_eq_true, decide_eq_true_eq] at h
  obtain ⟨exponent, fraction⟩ := h
  exact (if_pos exponent).trans (if_neg fraction)

/-- Settles O10: each operation's equation where it issues, and a NaN as the first operand. -/
theorem vectorFloatResults : Obligations.VectorFloatResults := by
  unfold Obligations.VectorFloatResults
  refine ⟨vectorGives_of fun _ _ => rfl, vectorGives_of fun _ _ => rfl, vectorGives_of fun _ _ => rfl,
    vectorGives_of fun _ _ => rfl, vectorGives_of fun _ _ => rfl, fun x y z nan => ⟨?_, ?_, ?_⟩, fun x nan => ?_⟩
  · rw [f32add, ofFp32_nan nan, Fp.add, toFp32]
  · rw [f32mul, ofFp32_nan nan, Fp.mul, toFp32]
  · rw [f32fma, ofFp32_nan nan, Fp.mul, Fp.add, toFp32]
  · rw [f32toInt, ofFp32_nan nan]

/-! ### What the vector class leaves unchanged (R198, R205, R210) -/

theorem rv_wv_ne {r d i e : Nat} {v : Word} (h : 16 * r + i ≠ 16 * d + e) : rv (wv t d e v) r i = rv t r i := look_put_ne h

theorem rp_wp_ne {r d : Nat} {v : BitVec 16} (h : r ≠ d) : rp (wp t d v) r = rp t r := by
  unfold wp
  split
  · rfl
  · unfold rp
    split
    · rfl
    · exact look_put_ne h

/-- u is t but for guarded elements of v[d]. -/
def VectorWrite (g : BitVec 16) (d : Nat) (t u : Thread) : Prop :=
  u = { t with v := u.v } ∧ ∀ r e, e < 16 → r ≠ d ∨ g.getLsbD e = false → rv u r e = rv t r e

theorem VectorWrite.refl (g : BitVec 16) (d : Nat) (t : Thread) : VectorWrite g d t t := ⟨rfl, fun _ _ _ _ => rfl⟩

/-- One guarded element written beside others. -/
theorem VectorWrite.wv {g : BitVec 16} {d i : Nat} {v : Word} (h : VectorWrite g d t u) (small : i < 16)
    (guarded : g.getLsbD i = true) : VectorWrite g d t (wv u d i v) := by
  obtain ⟨rest, elements⟩ := h
  refine ⟨?_, fun r e he out => ?_⟩
  · rw [rest]
    rfl
  · have apart : 16 * r + e ≠ 16 * d + i := by
      obtain other | off := out
      · omega
      · rintro same
        obtain rfl : e = i := by omega
        exact Bool.false_ne_true (off.symm.trans guarded)
    exact (rv_wv_ne apart).trans (elements r e he out)

theorem VectorWrite.foldl {g : BitVec 16} {d : Nat} {f : Nat → Word} {l : List Nat} (small : ∀ i ∈ l, i < 16)
    (h : VectorWrite g d t u) :
    VectorWrite g d t (l.foldl (fun u i => if g.getLsbD i then Machine.wv u d i (f i) else u) u) := by
  induction l generalizing u with
  | nil => exact h
  | cons i l ih =>
    simp only [List.foldl_cons]
    refine ih (fun j hj => small j (List.mem_cons_of_mem _ hj)) ?_
    by_cases guarded : g.getLsbD i = true
    · rw [if_pos guarded]
      exact h.wv (small i List.mem_cons_self) guarded
    · rwa [if_neg guarded]

theorem writeVec_write (g : BitVec 16) (d : Nat) (f : Nat → Word) : VectorWrite g d t (writeVec t g d f) :=
  (VectorWrite.refl g d t).foldl fun _ => List.mem_range.1

/-- u is t but for the program counter and the one destination of operation op: s[D], p[D], or guarded elements of v[D]. -/
def VectorMove (op : Nat) (x : Orony) (t u : Thread) : Prop :=
  u = { t with pc := u.pc, s := u.s, v := u.v, p := u.p } ∧
  (∀ r, r ≠ x.d.val ∨ (op ≠ 0x15 ∧ op ≠ 0x17) → rs u r = rs t r) ∧
  (∀ r, r ≠ x.d.val ∨ ¬(0x10 ≤ op ∧ op ≤ 0x12) → rp u r = rp t r) ∧
  (∀ r e, e < 16 → r ≠ x.d.val ∨ (0x10 ≤ op ∧ op ≤ 0x12) ∨ op = 0x15 ∨ op = 0x17 → rv u r e = rv t r e) ∧
  (∀ e, e < 16 → (guard16 t x).getLsbD e = false → rv u x.d e = rv t x.d e)

theorem VectorMove.next (op : Nat) (x : Orony) (t : Thread) : VectorMove op x t (nextPc t) :=
  ⟨rfl, fun _ _ => rfl, fun _ _ => rfl, fun _ _ _ _ => rfl, fun _ _ _ => rfl⟩

/-- Writes of guarded elements alone, by an operation that is neither a compare nor VEXT or VRSUM. -/
theorem VectorMove.of_write (h : VectorWrite (guard16 t x) x.d t u)
    (vector : ¬(0x10 ≤ op ∧ op ≤ 0x12) ∧ op ≠ 0x15 ∧ op ≠ 0x17) : VectorMove op x t (nextPc u) := by
  obtain ⟨rest, elements⟩ := h
  obtain ⟨compare, ext, sum⟩ := vector
  refine ⟨?_, fun r _ => ?_, fun r _ => ?_, fun r e he out => elements r e he (.inl ?_), fun e he off => elements _ e he (.inr off)⟩
  · rw [rest]
    rfl
  · rw [rest]
    rfl
  · rw [rest]
    rfl
  · exact out.resolve_right (by tauto)

theorem VectorMove.of_compare (v : BitVec 16) (compare : 0x10 ≤ op ∧ op ≤ 0x12) :
    VectorMove op x t (nextPc (wp t x.d v)) := by
  have rest : wp t x.d v = { t with p := (wp t x.d v).p } := by
    unfold wp
    split <;> rfl
  refine ⟨?_, fun r _ => ?_, fun r out => rp_wp_ne (out.resolve_right (not_not.2 compare)), fun r e _ _ => ?_, fun e _ _ => ?_⟩
  all_goals
    rw [rest]
    rfl

theorem VectorMove.of_scalar (v : Word) (scalar : op = 0x15 ∨ op = 0x17) : VectorMove op x t (nextPc (ws t x.d v)) :=
  ⟨rfl, fun _ out => rs_ws_ne (out.resolve_right (by tauto)), fun _ _ => rfl, fun _ _ _ _ => rfl, fun _ _ _ => rfl⟩

theorem exec_vectorClass {i : Instr} (h : i.orony = some (2, op, x)) :
    (¬(0x10 ≤ op ∧ op ≤ 0x12) ∧ op ≠ 0x15 ∧ op ≠ 0x17 ∧ ∃ f, ∀ s, exec i s = .next (vectorOp op f x s)) ∨
    ((0x10 ≤ op ∧ op ≤ 0x12) ∧ ∃ c, ∀ s, exec i s = .next (compareOp op c x s)) ∨
    i = .vext x ∨ i = .vins x ∨ i = .vrsum x := by
  cases i
  all_goals cases h
  case vext => exact .inr (.inr (.inl rfl))
  case vins => exact .inr (.inr (.inr (.inl rfl)))
  case vrsum => exact .inr (.inr (.inr (.inr rfl)))
  case vceq => exact .inr (.inl ⟨by decide, _, fun _ => rfl⟩)
  case vclt => exact .inr (.inl ⟨by decide, _, fun _ => rfl⟩)
  case vcltu => exact .inr (.inl ⟨by decide, _, fun _ => rfl⟩)
  all_goals exact .inl ⟨by decide, by decide, by decide, _, fun _ => rfl⟩

theorem VectorWrite.th {g : BitVec 16} {d : Nat} (h : VectorWrite g d t u) : u.th = t.th := by rw [h.1]

theorem vectorOp_moves (f : Thread → Nat → Word) (vector : ¬(0x10 ≤ op ∧ op ≤ 0x12) ∧ op ≠ 0x15 ∧ op ≠ 0x17) :
    MovesThread x (VectorMove op x) s (vectorOp op f x s) :=
  movesThread_issue (.next op x) fun _ ht =>
    ⟨_, rfl, .of_write (writeVec_write ..) vector, const_name ht (writeVec_write ..).th⟩

theorem compareOp_moves (c : Word → Word → Bool) (compare : 0x10 ≤ op ∧ op ≤ 0x12) :
    MovesThread x (VectorMove op x) s (compareOp op c x s) := by
  refine movesThread_issue (.next op x) fun _ ht => ⟨_, rfl, .of_compare _ compare, const_name ht ?_⟩
  show (wp ..).th = _
  unfold wp
  split <;> rfl

theorem execVext_moves (h : execVext x s = .next s') : MovesThread x (VectorMove 0x15 x) s s' := by
  cases h
  exact movesThread_issue (.next _ x) fun _ ht => ⟨_, rfl, .of_scalar _ (.inl rfl), const_name ht rfl⟩

theorem execVrsum_moves (h : execVrsum x s = .next s') : MovesThread x (VectorMove 0x17 x) s s' := by
  cases h
  exact movesThread_issue (.next _ x) fun _ ht => ⟨_, rfl, .of_scalar _ (.inr rfl), const_name ht rfl⟩

theorem execVins_moves (h : execVins x s = .next s') : MovesThread x (VectorMove 0x16 x) s s' := by
  cases h
  refine movesThread_issue (.next _ x) fun t ht => ?_
  have write : VectorWrite (guard16 t x) x.d t
      (if (guard16 t x).getLsbD (x.imm.toNat % 16) then wv t x.d (x.imm.toNat % 16) (rs t x.a) else t) := by
    split
    · exact (VectorWrite.refl ..).wv (Nat.mod_lt _ (by decide)) ‹_›
    · exact .refl ..
  exact ⟨_, rfl, .of_write write (by decide), const_name ht write.th⟩

/-- Settles O12: each instruction of the class moves its own thread as `VectorMove` says. -/
theorem vectorFrame : Obligations.VectorFrame := by
  unfold Obligations.VectorFrame
  intro i op x s s' class_ answer
  have moves : MovesThread x (VectorMove op x) s s' := by
    obtain ⟨notCompare, notExt, notSum, f, means⟩ | ⟨compare, c, means⟩ | rfl | rfl | rfl := exec_vectorClass class_
    · obtain rfl := Host.Outcome.next.inj ((means s).symm.trans answer)
      exact vectorOp_moves f ⟨notCompare, notExt, notSum⟩
    · obtain rfl := Host.Outcome.next.inj ((means s).symm.trans answer)
      exact compareOp_moves c compare
    · cases class_
      exact execVext_moves answer
    · cases class_
      exact execVins_moves answer
    · cases class_
      exact execVrsum_moves answer
  exact moves.frame fun t => ⟨rfl, fun _ _ => rfl, fun _ _ => rfl, fun _ _ _ _ => rfl, fun _ _ _ => rfl⟩

end Sys2Proof.Machine

/-!
How every command of Orony issues, and what a guard bit of 0 makes of it (R205).
-/

namespace Sys2Proof.Machine

variable {s s' : State} {x : Orony} {t : Thread} {c op : Nat} {i : Instr}

/-! ### How the commands of Orony issue (R205) -/

/-- Command i, operation op of class c, issues in s: guarded as a whole, or by elements; or it does nothing, its thread absent,
or its block naming a function that is another command's. -/
inductive Issuing (s : State) (i : Instr) (c op : Nat) (x : Orony) : Prop
  | whole (f : State → Thread → State) (means : exec i s = .next (issueScalar s c op x f))
  | elements (f : State → Thread → State) (class_ : guardedWhole c op = false) (noFunc : unitFunc i = none)
      (means : exec i s = .next (issue s c op x f))
  | absent (gone : threadOf s x.th = none) (means : exec i s = .next s)
  | other (t : Thread) (thread : threadOf s x.th = some t) (class_ : guardedWhole c op = false)
      (named : unitFunc i ≠ some (b8 (tsRead t (rs t x.a).toNat 64) 0)) (means : exec i s = .next s)

/-- A unit command that first reads its block, where every other function is another command's. -/
theorem issuing_ofBlock {f : Nat} (func : unitFunc i = some f) (class_ : guardedWhole c op = false)
    (gone : threadOf s x.th = none → exec i s = .next s)
    (found : ∀ t, threadOf s x.th = some t → (∃ g, exec i s = .next (issueScalar s c op x g)) ∨
      (b8 (tsRead t (rs t x.a).toNat 64) 0 ≠ f ∧ exec i s = .next s)) : Issuing s i c op x := by
  cases thread : threadOf s x.th with
  | none => exact .absent thread (gone thread)
  | some t =>
    obtain ⟨g, means⟩ | ⟨other, means⟩ := found t thread
    · exact .whole g means
    · exact .other t thread class_ (fun same => other (Option.some.inj (func.symm.trans same)).symm) means

theorem euIssue_issuing {f : Nat} (func : unitFunc i = some f) (means : exec i s = .next (euIssue s f x)) :
    Issuing s i 5 0x00 x := by
  refine issuing_ofBlock func rfl (fun gone => by rw [means, euIssue, gone]) fun t thread => ?_
  rw [means, euIssue, thread]
  dsimp only
  split
  · exact .inr ⟨And.left ‹_›, rfl⟩
  · exact .inl ⟨_, rfl⟩

theorem iuIssue_issuing {f : Nat} (func : unitFunc i = some f) (means : exec i s = .next (iuIssue s f x)) :
    Issuing s i 5 0x02 x := by
  refine issuing_ofBlock func rfl (fun gone => by rw [means, iuIssue, gone]) fun t thread => ?_
  rw [means, iuIssue, thread]
  dsimp only
  split
  · exact .inr ⟨And.left ‹_›, rfl⟩
  · exact .inl ⟨_, rfl⟩

theorem execLayer_issuing : Issuing s (.layer x) 5 0x03 x := by
  refine issuing_ofBlock (f := 1) rfl rfl (fun gone => by rw [exec, execLayer, gone]) fun t thread => ?_
  rw [exec, execLayer, thread]
  dsimp only
  split
  · rename_i select
    exact .inr ⟨by rw [select]; decide, rfl⟩
  · exact .inl ⟨_, rfl⟩

theorem execSelect_issuing : Issuing s (.select x) 5 0x03 x := by
  refine issuing_ofBlock (f := 2) rfl rfl (fun gone => by rw [exec, execSelect, gone]) fun t thread => ?_
  rw [exec, execSelect, thread]
  dsimp only
  split
  · rename_i layer
    exact .inr ⟨by rw [layer]; decide, rfl⟩
  · exact .inl ⟨_, rfl⟩

theorem execTokenise_issuing : Issuing s (.tokenise x) 5 0x04 x := by
  cases thread : threadOf s x.th with
  | none => exact .absent thread (by rw [exec, execTokenise, thread])
  | some t => exact .whole _ (by rw [exec, execTokenise, thread]; rfl)

theorem vectorOp_issuing {f : Thread → Nat → Word} (noFunc : unitFunc i = none)
    (means : exec i s = .next (vectorOp op f x s)) : Issuing s i 2 op x :=
  .elements _ rfl noFunc means

/-- Every command of Orony issues as its class and function say. -/
theorem exec_issuing (h : i.orony = some (c, op, x)) : Issuing s i c op x := by
  cases i
  all_goals cases h
  case ctxOpen | decodeAu | flush | ctxClose => exact euIssue_issuing rfl rfl
  case resample | warp | colour | blur | blend => exact iuIssue_issuing rfl rfl
  case layer => exact execLayer_issuing
  case select => exact execSelect_issuing
  case tokenise => exact execTokenise_issuing
  case vadd | vsub | vadds | vaddus | vmul | vmulhu | vmin | vmax | vminu | vmaxu | vand | vor | vxor | vshl | vshr | vsra | vsel |
      vbc | vfadd | vfmul | vfma | vcvtif | vcvtfi =>
    exact vectorOp_issuing rfl rfl
  case vceq | vclt | vcltu | vext | vins | vrsum | ldv | stv | ldvg | stvx => exact .elements _ rfl rfl rfl
  all_goals exact .whole _ rfl

/-- Settles O7: a command guarded as a whole by bit 0 of its guard, and any command under the complement of p0. -/
theorem guardedExecution : Obligations.GuardedExecution := by
  unfold Obligations.GuardedExecution
  refine ⟨fun i c op x s t named guarded hx off => ?_, fun i c op x s s' named pred neg answer => ?_⟩
  · obtain ⟨thread, -⟩ := issues_iff.1 hx
    cases exec_issuing (s := s) named with
    | whole f means => rw [means, issueScalar_guardOff hx off]
    | elements f class_ noFunc means => simp [class_, noFunc] at guarded
    | absent gone means => exact nomatch thread.symm.trans gone
    | other u found class_ other means =>
      obtain rfl := Option.some.inj (thread.symm.trans found)
      simp [class_, other] at guarded
  · have never : ∀ f, issue s c op x f = s ∨ issue s c op x f = setThread (issued s x.th) x.th nextPc := fun f => by
      obtain idle | next | ⟨t, hx, -⟩ := issue_cases (s := s) (c := c) (op := op) (x := x) (f := f)
      · exact .inl idle
      · exact .inr next
      · obtain ⟨-, -, -, -, -, -, -, executes⟩ := issues_iff.1 hx
        exact absurd ⟨pred, neg⟩ executes
    cases exec_issuing (s := s) named with
    | whole f means =>
      obtain rfl := Host.Outcome.next.inj (means.symm.trans answer)
      exact never _
    | elements f _ _ means =>
      obtain rfl := Host.Outcome.next.inj (means.symm.trans answer)
      exact never f
    | absent _ means => exact .inl (Host.Outcome.next.inj (answer.symm.trans means))
    | other _ _ _ _ means => exact .inl (Host.Outcome.next.inj (answer.symm.trans means))

end Sys2Proof.Machine

/-!
The tile-store class: loads and stores of the region, loads from the cluster store, what STS leaves unchanged, and the program
faults of accesses (R212 to R214, R217, R236, Table 6.7).
-/

namespace Sys2Proof.Machine

variable {s : State} {x : Orony} {t : Thread}

/-! ### What an access meets (R212, R214, R236) -/

/-- A load from the region: misaligned, beyond it, or its bytes. -/
theorem loadAt_misaligned {w a n : Nat} (bad : a % n ≠ 0) : loadAt s t w a n = .fault 2 := if_pos bad

theorem loadAt_beyond {a n : Nat} (aligned : a % n = 0) (beyond : t.tsBytes < a + n) : loadAt s t 0 a n = .fault 1 := by
  have out : tsIn t a n = false := decide_eq_false (by omega)
  rw [loadAt, if_neg (not_not.2 aligned), if_pos rfl, out, if_neg Bool.false_ne_true]

theorem regionOk_iff {a n : Nat} : regionOk t a n = true ↔ a % n = 0 ∧ a + n ≤ t.tsBytes := by simp [regionOk]

theorem loadAt_region {a n : Nat} (ok : regionOk t a n = true) : loadAt s t 0 a n = .bytes (spaceRead s t a n) := by
  obtain ⟨aligned, inside⟩ := regionOk_iff.1 ok
  have inside : tsIn t a n = true := decide_eq_true inside
  rw [loadAt, if_neg (not_not.2 aligned), if_pos rfl, inside, if_pos rfl]

section
variable {a n : Nat} (aligned : a % n = 0)

include aligned

/-- A load from the cluster store comes to what its read meets. -/
theorem loadAt_clusterBytes {l : List Byte} (there : csRead s t a n = .bytes l) : loadAt s t 1 a n = .bytes l := by
  simp [loadAt, aligned, there]

theorem loadAt_clusterWait {i b : Nat} (unready : csRead s t a n = .wait i b) : loadAt s t 1 a n = .wait i b := by
  simp [loadAt, aligned, unready]

theorem loadAt_clusterRange (beyond : csRead s t a n = .range) : loadAt s t 1 a n = .fault 3 := by
  simp [loadAt, aligned, beyond]

end

/-- The region of a management thread is its die's data region, empty for a die that is not there. -/
theorem spaceRead_issued (th : ThreadRef) (a n : Nat) : spaceRead (issued s th) t a n = regionBytes s t a n := by
  rw [issued_eq]
  unfold spaceRead regionBytes
  cases t.th with
  | tile => rfl
  | mgmt d k =>
    simp only [List.getD_eq_getElem?_getD]
    cases s.dies[d.val]? <;> rfl

theorem spaceRead_tile {n : Nat} (tile : thTile t.th = some n) (a k : Nat) : spaceRead s t a k = tsRead t a k := by
  unfold spaceRead
  cases th : t.th with
  | tile => rfl
  | mgmt => rw [th] at tile; cases tile

/-! ### Words in bytes -/

theorem sliceB_mid (a b c : List Byte) : sliceB (a ++ b ++ c) a.length b.length = b := by
  simp [sliceB]

/-- The word in four bytes that stand after others. -/
theorem wordAt_mid (a c : List Byte) {b : List Byte} {k : Nat} (start : a.length = 4 * k) (four : b.length = 4) :
    wordAt (a ++ b ++ c) (4 * k) = BitVec.ofNat 32 (leNat b) := by
  rw [wordAt, leAt, ← start, ← four, sliceB_mid]

theorem wordAt_four {b : List Byte} (four : b.length = 4) : wordAt b 0 = BitVec.ofNat 32 (leNat b) := by
  simpa using wordAt_mid [] [] (k := 0) rfl four

theorem length_tsRead {a n : Nat} : (tsRead t a n).length = n := length_lookAll

theorem length_regionBytes {a n : Nat} : (regionBytes s t a n).length = n := by
  unfold regionBytes
  split <;> exact length_lookAll

/-! ### Gathers and scatters (R212, R213) -/

/-- Where every element lies in the region, the elements' bytes come one after another. -/
theorem gatherAll_region {n : Nat} (tile : thTile t.th = some n) (space : x.w = 0) {l : List Nat}
    (ok : (l.all fun e => regionOk t (elemAt t x e) 4) = true) :
    gatherAll s t x l = .bytes (l.flatMap fun e => tsRead t (elemAt t x e) 4) := by
  induction l with
  | nil => rfl
  | cons e l ih =>
    rw [List.all_cons, Bool.and_eq_true] at ok
    obtain ⟨first, rest⟩ := ok
    simp only [gatherAll, space, Fin.val_zero, loadAt_region first, spaceRead_tile tile, ih rest, List.flatMap_cons]

/-- Each guarded element takes its own four of the gathered bytes. -/
theorem foldl_gathered {d : Nat} (g : Nat → List Byte) (four : ∀ e, (g e).length = 4) (l : List Nat) (a : List Byte) {n : Nat}
    (start : a.length = 4 * n) (u : Thread) :
    (l.zipIdx n).foldl (fun u (e, k) => wv u d e (wordAt (a ++ l.flatMap g) (4 * k))) u =
      l.foldl (fun u e => wv u d e (BitVec.ofNat 32 (leNat (g e)))) u := by
  induction l generalizing a n u with
  | nil => rfl
  | cons e l ih =>
    have step := ih (a ++ g e) (n := n + 1) (by rw [List.length_append, start, four e]; omega)
    simp only [List.zipIdx_cons, List.foldl_cons, List.flatMap_cons, ← List.append_assoc, wordAt_mid _ _ start (four e), step]

/-! ### Loads and stores of the region (R212, R236, Table 6.7) -/

theorem execLds_executes (hx : executes s 3 0x00 x t = true) : execLds x s =
    .next (withLoad (issued s x.th) x.th (loadAt (issued s x.th) t x.w (rs t x.a + x.imm).toNat 4) fun s l =>
      setThread s x.th fun _ => nextPc (ws t x.d (wordAt l 0))) :=
  congrArg Host.Outcome.next (issueScalar_executes hx)

theorem execSts_executes (hx : executes s 3 0x01 x t = true) : execSts x s =
    .next (withLoad (issued s x.th) x.th (loadAt (issued s x.th) t 0 (rs t x.a + x.imm).toNat 4) fun s _ =>
      setThread (spaceWrite s x.th (rs t x.a + x.imm).toNat (toLe 4 (rs t x.b).toNat)) x.th nextPc) :=
  congrArg Host.Outcome.next (issueScalar_executes hx)

/-- A thread with a tile is a tile's thread. -/
theorem tile_of_thTile {th : ThreadRef} {n : Nat} (tile : thTile th = some n) : ∃ m k, th = .tile m k := by
  cases th with
  | tile m k => exact ⟨m, k, rfl⟩
  | mgmt => cases tile

theorem execLdv_issues {n : Nat} (hx : issues s 3 0x02 x t = true) (tile : thTile x.th = some n) : execLdv x s =
    .next (withLoad (issued s x.th) x.th (loadAt (issued s x.th) t x.w (rs t x.a + x.imm).toNat 64) fun s l =>
      setThread s x.th fun _ => nextPc (writeVec t (guard16 t x) x.d fun i => wordAt l (4 * i))) := by
  obtain ⟨m, k, name⟩ := tile_of_thTile tile
  rw [execLdv, issue_ready hx, name]
  rfl

section
variable {n : Nat} (tile : thTile x.th = some n)

include tile

theorem execStv_region (hx : issues s 3 0x03 x t = true) (ok : regionOk t (rs t x.a + x.imm).toNat 64 = true) :
    execStv x s = .next (setThread (issued s x.th) x.th fun _ => nextPc (storeWords t ((guarded t x).map fun e =>
      ((rs t x.a + x.imm).toNat + 4 * e, rv t x.b e)))) := by
  obtain ⟨m, k, name⟩ := tile_of_thTile tile
  rw [execStv, issue_ready hx, name]
  simp only [tsAddr, loadAt_region ok]
  rfl

variable (ok : ((guarded t x).all fun e => regionOk t (rs t x.a + x.imm + rv t x.b e).toNat 4) = true)

include ok

theorem execLdvg_region (hx : issues s 3 0x04 x t = true) (space : x.w = 0) : execLdvg x s =
    .next (setThread (issued s x.th) x.th fun _ => nextPc ((guarded t x).foldl (fun u e => wv u x.d e
      (BitVec.ofNat 32 (leNat (tsRead t (rs t x.a + x.imm + rv t x.b e).toNat 4)))) t)) := by
  have own : thTile t.th = some n := by rw [threadOf_th (issues_iff.1 hx).1, tile]
  have words := foldl_gathered (d := x.d) (fun e => tsRead t (elemAt t x e) 4) (fun _ => length_tsRead) (guarded t x) []
    (n := 0) rfl t
  obtain ⟨m, k, name⟩ := tile_of_thTile tile
  rw [execLdvg, issue_ready hx, name]
  simp only [gatherAll_region own space ok]
  exact congrArg (fun u => Host.Outcome.next (setThread (issued s (.tile m k)) (.tile m k) fun _ => nextPc u)) words

theorem execStvx_region (hx : issues s 3 0x05 x t = true) : execStvx x s =
    .next (setThread (issued s x.th) x.th fun _ => nextPc (storeWords t ((guarded t x).map fun e =>
      ((rs t x.a + x.imm + rv t x.b e).toNat, rv t x.d e)))) := by
  have own : thTile t.th = some n := by rw [threadOf_th (issues_iff.1 hx).1, tile]
  have space : x.w = 0 := by
    by_contra other
    have fields := fieldsOk_issues hx
    simp [fieldsOk, other] at fields
  obtain ⟨m, k, name⟩ := tile_of_thTile tile
  rw [execStvx, issue_ready hx, name]
  simp only [gatherAll_region own space ok]
  rfl

end

/-- Settles O11: each access by the bytes that it meets, which stand in the region. -/
theorem tileStoreAccesses : Obligations.TileStoreAccesses := by
  unfold Obligations.TileStoreAccesses
  refine ⟨fun x s t hx space ok => ?_, fun x s t hx ok => ⟨fun n k name => ?_, fun d k name => ?_⟩,
    fun x s t n hx tile space ok => ?_, fun x s t n hx tile ok => execStv_region tile hx ok,
    fun x s t n hx tile space ok => execLdvg_region tile ok hx space, fun x s t n hx tile ok => execStvx_region tile ok hx⟩
  · refine (execLds_executes hx).trans ?_
    simp only [space, Fin.val_zero, loadAt_region ok, spaceRead_issued, withLoad, wordAt_four length_regionBytes]
  · refine (execSts_executes hx).trans ?_
    rw [loadAt_region ok, name]
    rfl
  · refine (execSts_executes hx).trans ?_
    rw [loadAt_region ok, name, issued_eq]
    rfl
  · have own : thTile t.th = some n := by rw [threadOf_th (issues_iff.1 hx).1, tile]
    refine (execLdv_issues hx tile).trans ?_
    simp only [space, Fin.val_zero, loadAt_region ok, spaceRead_tile own, withLoad]

/-! ### Loads from the cluster store (W 1, R214) -/

/-- Settles O14: the load meets what stands in the cluster store. Bytes that no rule gives a content are free (log entry 4). -/
theorem clusterStoreLoads : Obligations.ClusterStoreLoads := by
  unfold Obligations.ClusterStoreLoads
  intro x s t n space tile
  refine ⟨fun hx aligned => ?_, fun hx aligned => ?_⟩
  · have load := execLds_executes hx
    rw [space, Fin.val_one'] at load
    refine ⟨fun l there => load.trans ?_, fun i b unready => load.trans ?_, fun beyond => load.trans ?_⟩
    · rw [loadAt_clusterBytes aligned there]; rfl
    · rw [loadAt_clusterWait aligned unready]; rfl
    · rw [loadAt_clusterRange aligned beyond]; rfl
  · have load := execLdv_issues hx tile
    rw [space, Fin.val_one'] at load
    refine ⟨fun l there => load.trans ?_, fun i b unready => load.trans ?_, fun beyond => load.trans ?_⟩
    · rw [loadAt_clusterBytes aligned there]; rfl
    · rw [loadAt_clusterWait aligned unready]; rfl
    · rw [loadAt_clusterRange aligned beyond]; rfl

/-! ### What STS leaves unchanged (R212, R214, R236) -/

theorem tsWrite_region_outside {o a : Nat} {l : List Byte} (out : outside a (o, l.length) = true) :
    look zero (tsWrite t o l).region a = look zero t.region a :=
  look_putAll_outside (by simpa [outside] using out)

theorem execSts_mgmt {d k : Fin 4} (hx : executes s 3 0x01 x t = true) (name : x.th = .mgmt d k)
    (ok : regionOk t (rs t x.a + x.imm).toNat 4 = true) : execSts x s = .next (setThread { issued s x.th with
      dies := modAt s.dies d fun y =>
        { y with region := putAll zero (rs t x.a + x.imm).toNat (toLe 4 (rs t x.b).toNat) y.region } } x.th nextPc) := by
  refine (execSts_executes hx).trans ?_
  rw [loadAt_region ok, name, issued_eq]
  rfl

theorem execSts_tile {n : Nat} (hx : executes s 3 0x01 x t = true) (tile : thTile x.th = some n)
    (ok : regionOk t (rs t x.a + x.imm).toNat 4 = true) : execSts x s = .next (setThread (setThread (issued s x.th) x.th fun u =>
      tsWrite u (rs t x.a + x.imm).toNat (toLe 4 (rs t x.b).toNat)) x.th nextPc) := by
  obtain ⟨m, k, name⟩ := tile_of_thTile tile
  refine (execSts_executes hx).trans ?_
  rw [loadAt_region ok, name]
  rfl

/-- Settles O13: the equation of STS on each kind of thread, and what the four bytes stored leave. -/
theorem scalarStoreFrame : Obligations.ScalarStoreFrame := by
  unfold Obligations.ScalarStoreFrame
  refine ⟨fun x s t d k hx name ok => ?_, fun x s t n hx tile ok => ?_⟩
  · refine ⟨_, execSts_mgmt hx name ok, ?_, countsIssue_issued, ?_, fun th other => ?_, fun e other => ?_, fun y there => ?_⟩
    · rw [issued_eq]
      rfl
    · exact threadOf_setThread_of (f := nextPc) ((threadOf_issued _).trans (threadOf_executes hx)) fun _ h => h
    · exact (threadOf_setThread_ne (f := nextPc) other fun _ h => h).trans (threadOf_issued _)
    · simp [modAt, other.symm]
    · refine ⟨{ y with region := putAll zero (rs t x.a + x.imm).toNat (toLe 4 (rs t x.b).toNat) y.region }, ?_, rfl,
        fun a out => look_putAll_outside ?_⟩
      · simp [modAt, there]
      · simpa [outside] using out
  · refine ⟨_, nextPc (tsWrite t (rs t x.a + x.imm).toNat (toLe 4 (rs t x.b).toNat)), execSts_tile hx tile ok, ?_,
      countsIssue_issued, ?_, rfl, fun a out => tsWrite_region_outside (by rwa [length_toLe]), fun a => ?_, fun th other => ?_⟩
    · rw [issued_eq]
      rfl
    · have written : threadOf (setThread (issued s x.th) x.th fun u => tsWrite u (rs t x.a + x.imm).toNat
          (toLe 4 (rs t x.b).toNat)) x.th = some (tsWrite t (rs t x.a + x.imm).toNat (toLe 4 (rs t x.b).toNat)) :=
        threadOf_setThread_self ((threadOf_issued _).trans (threadOf_executes hx)) fun _ => rfl
      exact threadOf_setThread_self written fun _ => rfl
    · simp only [setThread_hostMem]
      rw [issued_eq]
    · rw [threadOf_setThread_ne (f := nextPc) other fun _ h => h,
        threadOf_setThread_ne (f := fun u => tsWrite u _ _) other fun _ h => h, threadOf_issued]

/-! ### Program faults of accesses (R214, R217) -/

theorem bufFault_beyond {h off n : Nat} {b : Buf} (held : holds s t.sample h = true) (found : bufOf s h = some b)
    (aligned : off % 64 = 0) (beyond : bufSize b < off + n) : bufFault s t h off n = some 5 := by
  rw [bufFault, held, found]
  simp [aligned, beyond]

theorem bufFault_notHeld {h off n : Nat} (free : holds s t.sample h = false) : bufFault s t h off n = some 4 := by
  rw [bufFault, free]
  rfl

@[simp] theorem bufOf_issued (th : ThreadRef) (h : Nat) : bufOf (issued s th) h = bufOf s h := by rw [issued_eq]; rfl

@[simp] theorem holds_issued (th : ThreadRef) (h b : Nat) : holds (issued s th) h b = holds s h b := by rw [issued_eq]; rfl

@[simp] theorem bufFault_issued (th : ThreadRef) (h off n : Nat) : bufFault (issued s th) t h off n = bufFault s t h off n := by
  rw [issued_eq]; rfl

@[simp] theorem outBytesOf_issued (th : ThreadRef) : outBytesOf (issued s th) t = outBytesOf s t := by rw [issued_eq]; rfl

section
variable {e : Nat} (bad : bufFault s t (rs t x.a).toNat (rs t (x.a + 1)).toNat x.imm.toNat = some e)

include bad

theorem execDrd_faults (hx : executes s 4 0x03 x t = true) : execDrd x s = .next (pfault (issued s x.th) x.th e 0) := by
  rw [execDrd, issueScalar_executes hx]
  simp only [bufFault_issued, bad, Option.some_or]

theorem execDwr_faults (hx : executes s 4 0x04 x t = true) : execDwr x s = .next (pfault (issued s x.th) x.th e 0) := by
  rw [execDwr, issueScalar_executes hx]
  simp only [bufFault_issued, bad, Option.some_or]

end

theorem execDout_beyond (hx : executes s 4 0x05 x t = true) (aligned : (rs t x.a).toNat % 64 = 0)
    (beyond : outBytesOf s t < (rs t x.a).toNat + x.imm.toNat) : execDout x s = .next (pfault (issued s x.th) x.th 6 0) := by
  rw [execDout, issueScalar_executes hx]
  simp [aligned, beyond]

/-- Settles O17: what each access meets. That alignment is looked at first is log entry 27. -/
theorem rangeAndAlignmentFaults : Obligations.RangeAndAlignmentFaults := by
  unfold Obligations.RangeAndAlignmentFaults
  refine ⟨fun x s t => ⟨fun hx space => ⟨fun bad => ?_, fun aligned beyond => ?_⟩,
      fun hx => ⟨fun bad => ?_, fun aligned beyond => ?_⟩⟩,
    fun x s t => ⟨fun hx aligned beyond => execDout_beyond hx aligned beyond, fun b held found aligned beyond =>
      ⟨execDrd_faults (bufFault_beyond held found aligned beyond), execDwr_faults (bufFault_beyond held found aligned beyond)⟩,
      fun free => ⟨execDrd_faults (bufFault_notHeld free), execDwr_faults (bufFault_notHeld free)⟩⟩⟩
  · refine (execLds_executes hx).trans ?_
    rw [loadAt_misaligned bad]
    rfl
  · refine (execLds_executes hx).trans ?_
    rw [space, Fin.val_zero, loadAt_beyond aligned beyond]
    rfl
  · refine (execSts_executes hx).trans ?_
    rw [loadAt_misaligned bad]
    rfl
  · refine (execSts_executes hx).trans ?_
    rw [loadAt_beyond aligned beyond]
    rfl

end Sys2Proof.Machine

/-!
Unit controls and fault forcing: DIE_SP_CTRL, TILE_CTRL, FLT_REVIVE, FLT_CTRL and FLT_FORCE (R233, R602, R603, R622, R623, R630,
R667).
-/

namespace Sys2Proof.Machine

variable {s : State} {o old new wo : Nat} {v : Word}

/-! ### What each write sets going -/

theorem effects_fltCtrl : effects s 0x1000 old new wo = if bitN new 0 then s else thermN (setReg s 0x1010 0) := by
  rw [effects]
  iterate 2 rw [if_neg (by decide)]
  rw [if_pos rfl]

theorem effects_fltForce : effects s 0x1010 old new wo = armForce s old new := by
  rw [effects]
  iterate 3 rw [if_neg (by decide)]
  rw [if_pos rfl]

theorem effects_fltRevive : effects s 0x1018 old new wo = startRevival s (bits wo 15 12) (bits wo 11 0) := by
  rw [effects]
  iterate 4 rw [if_neg (by decide)]
  rw [if_pos rfl]

theorem effects_spCtrl {d : Nat} : effects s (dieBase d + 0x104) old new wo =
    if bitN old 0 && !bitN new 0 then
      (List.range 4).foldl (fun s i => containLink s d i) { s with lowRate := s.lowRate.filter fun x => x.1 ≠ d }
    else s := by
  have index : (dieBase d + 0x104 - 0x100000) / 0x100000 = d := by rw [dieBase]; omega
  have offset : (dieBase d + 0x104) % 0x100000 = 0x104 := by rw [dieBase]; omega
  rw [effects]
  iterate 8 rw [if_neg (by rw [dieBase]; omega)]
  rw [if_pos (by rw [dieBase]; omega)]
  simp only [index, offset, if_true]

theorem effects_tileCtrl {t : Nat} : effects s (tileBase t) old new wo =
    if bitN new 0 then if tileLost s t then startRevival (setFld s (tileBase t) 0 0 0) 1 t else s else takeOut s 1 t := by
  have index : (tileBase t - 0x100000) / 0x100000 * 24 + (tileBase t % 0x100000 - 0x80000) / 0x2000 = t := by
    simp only [tileBase, dieBase]; omega
  have offset : tileBase t % 0x100000 ≠ 0x104 ∧ 0x80000 ≤ tileBase t % 0x100000 ∧ tileBase t % 0x2000 = 0 := by
    simp only [tileBase, dieBase]; omega
  obtain ⟨other, tile⟩ := offset
  rw [effects]
  iterate 8 rw [if_neg (by simp only [tileBase, dieBase]; omega)]
  rw [if_pos (by simp only [tileBase, dieBase]; omega)]
  simp only [index, if_neg other, if_pos tile]

theorem tileLost_stored (t : Nat) : tileLost (stored s o v) t = tileLost s t := by
  rw [stored, noteChange]
  split <;> rfl

/-- Settles O34: an accepted write is stored, and each register's effects by the bits that the clause names. -/
theorem unitControlWrites : Obligations.UnitControlWrites := by
  unfold Obligations.UnitControlWrites
  rintro port v _ o s rfl reach ok noClear
  have whole := busWrite_settable (port := port) reach ok noClear
  refine ⟨?_, ?_, ?_, ?_, ?_⟩
  · rintro d rfl
    rw [effects_spCtrl, bitN_toNat, bitN_toNat] at whole
    refine ⟨fun was on => ?_, fun was off => ?_⟩
    · exact congrArg Host.Outcome.next (whole.trans (if_neg (by rw [was, Bool.false_and]; decide)))
    · exact congrArg Host.Outcome.next (whole.trans (if_pos (by rw [was, off]; decide)))
  · rintro t rfl
    rw [effects_tileCtrl, bitN_toNat, tileLost_stored] at whole
    refine ⟨fun off => ?_, fun on lost => ?_⟩
    · exact congrArg Host.Outcome.next (whole.trans (if_neg (by rw [off]; decide)))
    · exact congrArg Host.Outcome.next (whole.trans ((if_pos on).trans (if_pos lost)))
  · rintro rfl
    rw [effects_fltRevive] at whole
    exact congrArg Host.Outcome.next whole
  · rintro rfl
    rw [effects_fltCtrl, bitN_toNat] at whole
    refine ⟨fun on => ?_, fun off => ?_⟩
    · exact congrArg Host.Outcome.next (whole.trans (if_pos on))
    · exact congrArg Host.Outcome.next (whole.trans (if_neg (by rw [off]; decide)))
  · rintro rfl
    rw [effects_fltForce] at whole
    exact congrArg Host.Outcome.next whole

end Sys2Proof.Machine

/-!
Buffers of a stage: BALLOC, BREF and BFREE (R216, R217, R553 to R555, R558).
-/

namespace Sys2Proof.Machine

variable {s v : State} {x : Orony} {t : Thread} {y : Sample}

/-! ### BALLOC (R216, R553 to R555) -/

section
variable (sample : sampleOf s t.sample = some y) (issue_ : v = issued s x.th) (hx : executes s 4 0x00 x t = true)

include issue_ hx

theorem execBalloc_exceeds (beyond : poolOf v t (x.imm.toNat % 8) <
    holdsOf v t (x.imm.toNat % 8) + Nat.max 1 (x.imm.toNat / 256)) : execBalloc x s = .next (pfault v x.th 0x07 0) := by
  subst issue_
  rw [execBalloc, issueScalar_executes hx]
  simp only [beyond, if_true]

include sample

variable (within : holdsOf v t (x.imm.toNat % 8) + Nat.max 1 (x.imm.toNat / 256) ≤ poolOf v t (x.imm.toNat % 8))

include within

theorem execBalloc_large {u : State} {h : Nat} (large : 2 ≤ x.imm.toNat / 256)
    (found : allocLarge v t.part (.stage y.recipe t.stage) (thDie x.th) (x.imm.toNat / 256) = some (u, h)) :
    execBalloc x s = .next (takeBuffer u x.th x.d h) := by
  subst issue_
  have size : Nat.max 1 (x.imm.toNat / 256) = x.imm.toNat / 256 := Nat.max_eq_right (by omega)
  rw [size] at within
  rw [execBalloc, issueScalar_executes hx]
  simp only [size, Nat.not_lt.2 within, sampleOf_issued, sample, if_pos (Nat.lt_of_succ_le large), found, if_false]

variable (small : x.imm.toNat / 256 ≤ 1)

include small

theorem execBalloc_one {u : State} {h : Nat}
    (found : alloc v t.part (.stage y.recipe t.stage) (thDie x.th) (x.imm.toNat % 8) = some (u, h)) :
    execBalloc x s = .next (takeBuffer u x.th x.d h) := by
  subst issue_
  have size : Nat.max 1 (x.imm.toNat / 256) = 1 := Nat.max_eq_left small
  rw [size] at within
  rw [execBalloc, issueScalar_executes hx]
  simp only [size, Nat.not_lt.2 within, sampleOf_issued, sample, lt_irrefl, found, if_false]

/-- With no buffer free the thread waits in WAIT_DMA (log entry 27). -/
theorem execBalloc_waits
    (full : alloc v t.part (.stage y.recipe t.stage) (thDie x.th) (x.imm.toNat % 8) = none) :
    execBalloc x s = .next (setThread
      { poolWait v with allocWaits := s.allocWaits ++ [⟨x.th, x.imm.toNat % 8, 1, x.d⟩] } x.th
      fun u => { u with state := 2 }) := by
  subst issue_
  have size : Nat.max 1 (x.imm.toNat / 256) = 1 := Nat.max_eq_left small
  have waiting : (issued s x.th).allocWaits = s.allocWaits := by rw [issued_eq]
  rw [size] at within
  rw [execBalloc, issueScalar_executes hx]
  simp only [size, Nat.not_lt.2 within, sampleOf_issued, sample, lt_irrefl, full, waiting, if_false]

end

/-! ### BREF and BFREE (R216, R217, R558) -/

section
variable {h : Nat} (handle : h = (rs t x.a).toNat)

include handle

theorem execBref_notHeld (hx : executes s 4 0x01 x t = true) (free : holds s t.sample h = false) :
    execBref x s = .next (pfault (issued s x.th) x.th 0x04 0) := by
  subst handle
  rw [execBref, issueScalar_executes hx]
  simp [free]

theorem execBfree_notHeld (hx : executes s 4 0x02 x t = true) (free : holds s t.sample h = false) :
    execBfree x s = .next (pfault (issued s x.th) x.th 0x04 0) := by
  subst handle
  rw [execBfree, issueScalar_executes hx]
  simp [free]

theorem execBfree_held (hx : executes s 4 0x02 x t = true) (held : holds s t.sample h = true) :
    execBfree x s = .next (setThread (release1 (issued s x.th) t h) x.th nextPc) := by
  subst handle
  rw [execBfree, issueScalar_executes hx]
  simp [held]

/-- A held buffer takes one more reference, up to 65,535. -/
theorem execBref_held {b : Buf} (hx : executes s 4 0x01 x t = true) (held : holds s t.sample h = true)
    (found : bufOf s h = some b) : execBref x s = .next (
      if 65535 ≤ b.refs then pfault (issued s x.th) x.th 0x08 0
      else setThread (setSample (setBuf (issued s x.th) h fun b => { b with refs := b.refs + 1 }) t.sample
        fun y => { y with held := y.held ++ [(ownTag t, h)] }) x.th nextPc) := by
  subst handle
  rw [execBref, issueScalar_executes hx]
  simp [held, found]

end

/-- Settles O15: each instruction by what the stage's allowance, the pool and the sample's handles say. That a waiting thread
shows WAIT_DMA is log entry 27. -/
theorem bufferOperations : Obligations.BufferOperations := by
  unfold Obligations.BufferOperations
  rintro x s _ t y sample rfl
  refine ⟨fun hx within => ⟨fun small s' h => execBalloc_one sample rfl hx within small,
      fun large s' h => execBalloc_large sample rfl hx within large, execBalloc_waits sample rfl hx within⟩,
    execBalloc_exceeds rfl, fun hx held b found => ⟨fun room => ?_, fun full => ?_⟩, fun hx held => execBfree_held rfl hx held,
    fun free => ⟨fun hx => execBref_notHeld rfl hx free, fun hx => execBfree_notHeld rfl hx free⟩⟩
  · exact (execBref_held rfl hx held found).trans (congrArg Host.Outcome.next (if_neg (Nat.not_le.2 room)))
  · exact (execBref_held rfl hx held found).trans (congrArg Host.Outcome.next (if_pos full))

/-! ### CBG and VCBG (R220 to R222) -/

@[simp] theorem threadDraw_issued (th : ThreadRef) (a k : Nat) : threadDraw (issued s th) t a k = threadDraw s t a k := by
  rw [issued_eq]; rfl

theorem purposeOk_eq_false {p : Nat} (byte : p < 256) : purposeOk p = false ↔
    p = 0x00 ∨ p = 0x08 ∨ p = 0x09 ∨ p = 0x0B ∨ (0x0C ≤ p ∧ p ≤ 0x0F) ∨ (0x80 ≤ p ∧ p ≤ 0xFF) := by
  simp only [purposeOk, Bool.or_eq_false_iff, Bool.and_eq_false_iff, decide_eq_false_iff_not]
  omega

theorem execCbg_executes (hx : executes s 5 0x05 x t = true) : execCbg x s = .next (
    withPurpose (issued s x.th) t x.a fun s => setThread s x.th fun u => nextPc ((List.range 4).foldl
      (fun u i => ws u (x.d + i) ((threadDraw s t x.a 0).word i)) u)) :=
  congrArg Host.Outcome.next (issueScalar_executes hx)

theorem execVcbg_executes (hx : executes s 5 0x07 x t = true) : execVcbg x s = .next (
    withPurpose (issued s x.th) t x.a fun s => setThread s x.th fun u => nextPc ((List.range 16).foldl
      (fun u e => wv u x.d e ((threadDraw s t x.a (e / 4)).word (e % 4))) u)) :=
  congrArg Host.Outcome.next (issueScalar_executes hx)

theorem withPurpose_ok {a : Nat} {f : State → State} (ok : purposeOk ((rs t (a + 1)).toNat / 65536 % 256) = true) :
    withPurpose s t a f = f s := if_pos ok

theorem withPurpose_refused {a : Nat} {f : State → State} (refused : purposeOk ((rs t (a + 1)).toNat / 65536 % 256) = false) :
    withPurpose s t a f = pfault s t.th 0x0A 0 := if_neg (by rw [refused]; decide)

/-- Settles O22: the draw's words where the purpose is a program's, and which purposes are not. -/
theorem counterGeneratorDraws : Obligations.CounterGeneratorDraws := by
  unfold Obligations.CounterGeneratorDraws
  refine fun x s t => ⟨fun ok => ⟨fun hx => ?_, fun hx => ?_⟩, fun refused => ⟨fun hx => ?_, fun hx => ?_⟩,
    fun p byte => purposeOk_eq_false byte⟩
  · refine (execCbg_executes hx).trans ?_
    simp only [withPurpose_ok ok, threadDraw_issued]
    rfl
  · refine (execVcbg_executes hx).trans ?_
    simp only [withPurpose_ok ok, threadDraw_issued]
  · exact (execCbg_executes hx).trans (congrArg Host.Outcome.next (withPurpose_refused refused))
  · exact (execVcbg_executes hx).trans (congrArg Host.Outcome.next (withPurpose_refused refused))

end Sys2Proof.Machine

/-!
Tickets: how one is taken, the limit of 64, and the waits for one (R199, R216, R219, R223).
-/

namespace Sys2Proof.Machine

variable {s : State} {x : Orony} {t : Thread} {k : Ticket}

/-! ### Taking a ticket (R199) -/

/-- A thread with a ticket to spare lists it, its number in s[d], and goes on. -/
theorem threadOf_takeTicket {d status : Nat} {write : Bool} {op : Option UnitOp} (thread : threadOf s t.th = some t)
    (free : ticketFree t = true) : threadOf (takeTicket s t.th d status write op fun s _ => s) t.th =
      some (nextPc { ws t d (BitVec.ofNat 32 t.nextTicket) with
        nextTicket := t.nextTicket + 1
        tickets := t.tickets ++ [⟨t.nextTicket, status, false, write, op, ((sampleOf s t.sample).map (·.fail)).getD (0, 0),
          ((sampleOf s t.sample).map (·.cause)).getD 0⟩] }) := by
  rw [takeTicket, thread]
  simp only [Nat.not_le.2 (ticketFree_iff.1 free), if_false]
  exact threadOf_setThread_self thread fun _ => rfl

/-! ### The limit of 64 (R199) -/

theorem length_outstanding_of_full (full : ticketFree t = false) : 64 ≤ (outstanding t).length := by
  simpa [ticketFree] using full

theorem takeTicket_full {d status : Nat} {write : Bool} {op : Option UnitOp} {f : State → Nat → State} {th : ThreadRef}
    (thread : threadOf s th = some t) (full : ticketFree t = false) :
    takeTicket s th d status write op f = setThread s th fun u => { u with state := 6 } := by
  rw [takeTicket, thread]
  exact if_pos (length_outstanding_of_full full)

theorem execDwr_full (full : ticketFree t = false) (hx : executes s 4 0x04 x t = true)
    (ok : dmaOk s t (rs t x.a).toNat (rs t (x.a + 1)).toNat (rs t x.b).toNat x.imm.toNat = true) :
    execDwr x s = .next (setThread (issued s x.th) x.th fun u => { u with state := 6 }) := by
  rw [execDwr, issueScalar_executes hx]
  simp only [bufFault_issued, (dmaOk_noFault ok).1, length_outstanding_of_full full, if_true]

theorem execDidx_full (full : ticketFree t = false) (hx : executes s 4 0x06 x t = true) (aligned : (rs t x.b).toNat % 64 = 0)
    (inside : (rs t x.b).toNat + 32 * x.imm.toNat ≤ t.tsBytes) :
    execDidx x s = .next (setThread (issued s x.th) x.th fun u => { u with state := 6 }) := by
  rw [execDidx_executes rfl hx aligned inside, takeTicket_full ((threadOf_issued _).trans (threadOf_executes hx)) full]

/-! ### Waits for one ticket (R216, R219, R223) -/

section
variable {a d st : Nat} (named : rs t a ≠ 0) (found : (t.tickets.find? fun k => k.num = (rs t a).toNat) = some k)

include named found

/-- The wait for a ticket that is done ends at once with its status. -/
theorem waitReg_done (done : k.done = true) : waitReg s t a d st =
    setThread s t.th fun u => nextPc { ws u d (BitVec.ofNat 32 k.status) with state := 1 } := by
  have number : (rs t a).toNat ≠ 0 := fun zero => named (BitVec.eq_of_toNat_eq zero)
  simp only [waitReg, if_neg named, waitTicket, if_neg number, found, done, if_true]

theorem waitReg_outstanding (open_ : k.done = false) : waitReg s t a d st =
    setThread s t.th fun u => { u with state := st, waitOn := (rs t a).toNat, waitReg := d } := by
  have number : (rs t a).toNat ≠ 0 := fun zero => named (BitVec.eq_of_toNat_eq zero)
  simp only [waitReg, if_neg named, waitTicket, if_neg number, found, open_, Bool.false_eq_true, if_false]

end

theorem execDwait_one (hx : executes s 4 0x07 x t = true) (one : x.i = false) :
    execDwait x s = .next (waitReg (issued s x.th) t x.a x.d 2) := by
  rw [execDwait, issueScalar_executes hx, one, if_neg Bool.false_ne_true]

theorem execUwait_executes (hx : executes s 5 0x06 x t = true) : execUwait x s = .next (waitReg (issued s x.th) t x.a x.d 3) :=
  congrArg Host.Outcome.next (issueScalar_executes hx)

theorem execLwait_executes (hx : executes s 6 0x04 x t = true) : execLwait x s = .next (waitReg (issued s x.th) t x.a x.d 3) :=
  congrArg Host.Outcome.next (issueScalar_executes hx)

/-- Settles O18: a ticket taken, none to spare, and the three waits by whether the ticket is done. That tickets are numbered from
1 is log entry 27. -/
theorem ticketsAndWaits : Obligations.TicketsAndWaits := by
  unfold Obligations.TicketsAndWaits
  refine ⟨⟨fun s t d status w op thread free => ⟨_, threadOf_takeTicket thread free, rfl, rfl⟩,
    fun x s t full => ⟨execDwr_full full, execDidx_full full⟩⟩, fun x s t k named found => ⟨fun done => ?_, fun open_ => ?_⟩⟩
  · have ends {st : Nat} : waitReg (issued s x.th) t x.a x.d st = _ := waitReg_done named found done
    exact ⟨fun hx one => (execDwait_one hx one).trans (congrArg Host.Outcome.next ends),
      fun hx => (execUwait_executes hx).trans (congrArg Host.Outcome.next ends),
      fun hx => (execLwait_executes hx).trans (congrArg Host.Outcome.next ends)⟩
  · have waits {st : Nat} : waitReg (issued s x.th) t x.a x.d st = _ := waitReg_outstanding named found open_
    exact ⟨fun hx one => (execDwait_one hx one).trans (congrArg Host.Outcome.next waits),
      fun hx => (execUwait_executes hx).trans (congrArg Host.Outcome.next waits),
      fun hx => (execLwait_executes hx).trans (congrArg Host.Outcome.next waits)⟩

end Sys2Proof.Machine

/-!
The lattice class of Orony: LMMA, LACT, LCVT and LRED at once, deferred and refused (R223, R224, R455, R456).
-/

namespace Sys2Proof.Machine

variable {s u : State} {x : Orony} {t : Thread} {k : Nat}

@[simp] theorem latBefore_issued (th th' : ThreadRef) (n : Nat) : latBefore (issued s th) th' n = latBefore s th' n := by
  rw [issued_eq]; rfl

@[simp] theorem nextId_issued (th : ThreadRef) : (issued s th).nextId = s.nextId := by rw [issued_eq]

/-! ### The operation on a block (R224, R436) -/

/-- The rows of B that an operation of kind k reads: LMMA's, from the cluster store where the block says so. -/
def rowsOfB (s : State) (t : Thread) (k : Nat) (b : LatBlk) : CsRead :=
  if k ≠ 0 then .bytes []
  else if b.cluster then csRows s t b.matB
  else .bytes ((List.range b.n).flatMap (b.matB.row t))

theorem rowsOfB_cluster {b : LatBlk} (cluster : b.cluster = true) : rowsOfB s t 0 b = csRows s t b.matB := by
  rw [rowsOfB, if_neg (not_not.2 rfl), if_pos cluster]

theorem rowsOfB_region {b : LatBlk} (region : b.cluster = false) :
    rowsOfB s t 0 b = .bytes ((List.range b.n).flatMap (b.matB.row t)) := by
  rw [rowsOfB, if_neg (not_not.2 rfl), region, if_neg Bool.false_ne_true]

theorem rowsOfB_none {b : LatBlk} (other : k ≠ 0) : rowsOfB s t k b = .bytes [] := if_pos other

/-- s after a lattice operation of kind k: the rows of C are written and its cell operations counted. -/
def latDone (s : State) (th : ThreadRef) (t : Thread) (k : Nat) (b : LatBlk) (rowsB : List Byte) (n : Nat) : State :=
  tileEvent (setThread s th fun u => latWrite u b.matC ((List.range b.m).map (latRow s t k b rowsB))) th 0x038 n

section
variable {th : ThreadRef} {blk : Nat} (thread : threadOf s th = some t)

include thread

theorem latRun_refused (refused : latOk k t.tsBytes (tsRead t blk 64) = false) : latRun s th k blk = .range := by
  simp only [latRun, thread, refused, Bool.not_false, if_true]

variable {b : LatBlk} (ok : latOk k t.tsBytes (tsRead t blk 64) = true) (block : b = parseLat (tsRead t blk 64))

include ok block

theorem latRun_rows {rowsB : List Byte} (rows : rowsOfB s t k b = .bytes rowsB) :
    latRun s th k blk = .done (latDone s th t k b rowsB (if k = 0 then cellOps b.m b.n b.k else 0)) := by
  subst block
  unfold rowsOfB at rows
  simp only [latRun, thread, ok, rows, Bool.not_true, Bool.false_eq_true, if_false]
  rfl

theorem latRun_waits {i c : Nat} (unready : rowsOfB s t k b = .wait i c) : latRun s th k blk = .wait := by
  subst block
  unfold rowsOfB at unready
  simp only [latRun, thread, ok, unready, Bool.not_true, Bool.false_eq_true, if_false]

theorem latRun_beyond (beyond : rowsOfB s t k b = .range) : latRun s th k blk = .range := by
  subst block
  unfold rowsOfB at beyond
  simp only [latRun, thread, ok, beyond, Bool.not_true, Bool.false_eq_true, if_false]

end

/-! ### The instructions as they issue (R223, R456) -/

/-- s after the operation has taken its place behind those of its tile that wait. -/
def latDeferred (s : State) (x : Orony) (t : Thread) (k : Nat) : State :=
  takeTicket { issued s x.th with nextId := s.nextId + 1 } x.th x.d 0 false (some (.lat k (rs t x.a).toNat s.nextId)) fun s _ => s

section
variable (hx : invokes s 6 k x t = true)

include hx

theorem latOp_done (done : latRun (issued s x.th) x.th k (rs t x.a).toNat = .done u) : latOp k x s =
    if latBefore s x.th s.nextId then latDeferred s x t k else takeTicket u x.th x.d 0 false none fun s _ => s := by
  obtain ⟨hx, whole, free⟩ := invokes_iff.1 hx
  rw [latOp, issueScalar_executes hx]
  simp only [blkFault_none whole, Nat.not_le.2 free, done, latBefore_issued, nextId_issued, latDeferred, if_false]

theorem latOp_range (range : latRun (issued s x.th) x.th k (rs t x.a).toNat = .range) :
    latOp k x s = takeTicket (issued s x.th) x.th x.d 5 false none fun s _ => s := by
  obtain ⟨hx, whole, free⟩ := invokes_iff.1 hx
  rw [latOp, issueScalar_executes hx]
  simp only [blkFault_none whole, Nat.not_le.2 free, range, if_false]

theorem latOp_wait (wait : latRun (issued s x.th) x.th k (rs t x.a).toNat = .wait) : latOp k x s = latDeferred s x t k := by
  obtain ⟨hx, whole, free⟩ := invokes_iff.1 hx
  rw [latOp, issueScalar_executes hx]
  simp only [blkFault_none whole, Nat.not_le.2 free, wait, nextId_issued, latDeferred, if_false]

theorem threadOf_issued_invokes : threadOf (issued s x.th) x.th = some t :=
  (threadOf_issued _).trans (threadOf_executes (invokes_iff.1 hx).1)

/-- A block that its checks refuse completes RANGE. -/
theorem latOp_refused (refused : latOk k t.tsBytes (blockOf t x) = false) :
    latOp k x s = takeTicket (issued s x.th) x.th x.d 5 false none fun s _ => s :=
  latOp_range hx (latRun_refused (threadOf_issued_invokes hx) refused)

end

/-- LMMA, LACT and LCVT with the operands in the region. -/
theorem latticeGives_of {i : Orony → Instr} {rowsB : Thread → LatBlk → List Byte} {n : LatBlk → Nat}
    (means : ∀ x s, exec (i x) s = .next (latOp k x s))
    (rows : ∀ s t b, (k = 0 → b.cluster = false) → rowsOfB s t k b = .bytes (rowsB t b))
    (count : ∀ b, (if k = 0 then cellOps b.m b.n b.k else 0) = n b) : LatticeGives i k rowsB n := by
  rintro x s _ t rfl hx ok region
  have done := latOp_done hx (latRun_rows (threadOf_issued_invokes hx) ok rfl (rows _ t _ region))
  rw [count] at done
  refine ⟨fun first => ?_, fun behind => ?_⟩
  · rw [means, done, first, if_neg Bool.false_ne_true]
    rfl
  · rw [means, done, behind, if_pos rfl]
    rfl

/-! ### LRED (R450, R456) -/

section
variable (hx : invokes s 6 3 x t = true)

include hx

theorem execLred_refused (refused : latOk 3 t.tsBytes (blockOf t x) = false) :
    execLred x s = .next (takeTicket (issued s x.th) x.th x.d 5 false none fun s _ => s) := by
  obtain ⟨hx, whole, -⟩ := invokes_iff.1 hx
  unfold blockOf at refused
  rw [execLred, issueScalar_executes hx]
  simp only [blkFault_none whole, refused, Bool.not_false, if_true]

theorem execLred_accepted (ok : latOk 3 t.tsBytes (blockOf t x) = true) : execLred x s = .next (
    if latBefore s x.th s.nextId then latDeferred s x t 3
    else takeTicket (issued s x.th) x.th x.d 0 false (some (.lred (rs t x.a).toNat)) fun s n =>
      lredJoin s t n (rs t x.a).toNat) := by
  obtain ⟨hx, whole, -⟩ := invokes_iff.1 hx
  unfold blockOf at ok
  rw [execLred, issueScalar_executes hx]
  simp only [blkFault_none whole, ok, latBefore_issued, nextId_issued, latDeferred, Bool.not_true, Bool.false_eq_true, if_false]

end

/-- Settles O23: the four instructions on a valid block, LMMA's matB in the cluster store by what its read meets, and a refused
block. -/
theorem latticeOperations : Obligations.LatticeOperations := by
  unfold Obligations.LatticeOperations
  refine ⟨latticeGives_of (fun _ _ => rfl) (fun _ _ _ region => rowsOfB_region (region rfl)) fun _ => rfl,
    latticeGives_of (fun _ _ => rfl) (fun _ _ _ _ => rowsOfB_none (by decide)) fun _ => rfl,
    latticeGives_of (fun _ _ => rfl) (fun _ _ _ _ => rowsOfB_none (by decide)) fun _ => rfl,
    fun x s t hx ok => ⟨fun first => ?_, fun behind => ?_⟩, ?_,
    fun x s t => ⟨fun hx refused => congrArg Host.Outcome.next (latOp_refused hx refused),
      fun hx refused => congrArg Host.Outcome.next (latOp_refused hx refused),
      fun hx refused => congrArg Host.Outcome.next (latOp_refused hx refused), execLred_refused⟩⟩
  · exact (execLred_accepted hx ok).trans (congrArg Host.Outcome.next (if_neg (by rw [first]; decide)))
  · exact (execLred_accepted hx ok).trans (congrArg Host.Outcome.next (if_pos behind))
  · rintro x s _ t b rfl hx block ok cluster
    have thread := threadOf_issued_invokes hx
    refine ⟨fun l there first => ?_, fun i c unready => ?_, fun beyond => ?_⟩
    · have done := latOp_done hx (latRun_rows thread ok block ((rowsOfB_cluster cluster).trans there))
      exact congrArg Host.Outcome.next (done.trans (if_neg (by rw [first]; decide)))
    · exact congrArg Host.Outcome.next (latOp_wait hx (latRun_waits thread ok block ((rowsOfB_cluster cluster).trans unready)))
    · exact congrArg Host.Outcome.next (latOp_range hx (latRun_beyond thread ok block ((rowsOfB_cluster cluster).trans beyond)))

end Sys2Proof.Machine

/-!
The image unit: its commands as they issue, and what the unit's work on a block comes to in sound memory (R363 to R365, Tables
11.1 to 11.4).
-/

namespace Sys2Proof.Machine

variable {s u v : State} {x : Orony} {t : Thread} {n blk seq : Nat} {l aux : List Byte} {p : PicIn}

/-! ### Commands as they issue (R219, R365) -/

theorem iuIssue_queues {f : Nat} (hx : invokes s 5 0x02 x t = true) (func : b8 (blockOf t x) 0 = f) :
    iuIssue s f x = takeTicket { issued s x.th with nextId := s.nextId + 1 } x.th x.d 0 false
      (some (.iu (rs t x.a).toNat s.nextId)) fun s _ => s := by
  have named : b8 (tsRead t (rs t x.a).toNat 64) 0 = f := func
  rw [iuIssue, threadOf_executes (invokes_iff.1 hx).1]
  simp only [named, ne_eq, not_true_eq_false, false_and, if_false]
  rw [unitIssue_deferred hx rfl rfl, nextId_issued]

/-- The image unit does the work of a command at its TICKET_COMPLETE. -/
theorem execTicketComplete_iu (turn : unitTurn s .iu t n blk seq) :
    execTicketComplete t.th n s = .next (settleUnit t.th n (iuRun s t.th blk seq)) := by
  obtain ⟨alive_s, thread, ⟨st, wr, f, c, ticket⟩, own⟩ := turn
  simp [execTicketComplete, alive_s, thread, ticket, own]

/-! ### Reads of sound memory (R547, R548, R626) -/

/-- u is s but for counts that registers other than FLT_FORCE hold. -/
structure Counted (s u : State) : Prop where
  regs : u = { s with regs := u.regs }
  force : reg u 0x1010 = reg s 0x1010

theorem Counted.refl (s : State) : Counted s s := ⟨rfl, rfl⟩

theorem Counted.trans (h : Counted s u) (g : Counted u v) : Counted s v :=
  ⟨g.regs.trans (by rw [h.regs]), g.force.trans h.force⟩

theorem Counted.bufs (h : Counted s u) : u.bufs = s.bufs := by rw [h.regs]

theorem Counted.sound (h : Counted s u) (sound : soundMemory s = true) : soundMemory u = true := by
  have lines : u.superblocks = s.superblocks := by rw [h.regs]
  rwa [soundMemory, fld, h.force, lines]

theorem counted_bump64 {o k : Nat} (above : 0x1010 < o) : Counted s (bump64 s o k) :=
  ⟨rfl, (reg_setReg_ne (by omega)).trans (reg_setReg_ne (by omega))⟩

theorem counted_foldl {α : Type} {f : State → α → State} {l : List α} (h : ∀ s x, Counted s (f s x)) :
    Counted s (l.foldl f s) := by
  induction l generalizing s with
  | nil => exact .refl s
  | cons x l ih => exact (h s x).trans ih

theorem counted_countLines {b : Buf} {f : Nat → Bool} {off k : Nat} : Counted s (countLines s b f off k) :=
  counted_foldl fun _ _ => counted_bump64 (by omega)

/-- A read from s that meets no bad line. -/
def GoodRead (s : State) (r : State × Bool) : Prop := Counted s r.1 ∧ r.2 = false

theorem GoodRead.start (s : State) : GoodRead s (s, false) := ⟨.refl s, rfl⟩

theorem GoodRead.eq {r : State × Bool} (h : GoodRead s r) : r = (r.1, false) := Prod.ext rfl h.2

theorem readLines_good {h off k : Nat} (sound : soundMemory s = true) : GoodRead s (readLines s h off k) := by
  unfold readLines
  split
  · exact .start s
  · rename_i b _
    have counted : Counted s (countLines s b b.dirty.contains off k) := counted_countLines
    have quiet : (decide (fld (countLines s b b.dirty.contains off k) 0x1010 1 0 ≠ 0) ||
        (countLines s b b.dirty.contains off k).superblocks.any fun x => !x.badLines.isEmpty) = false := by
      have still := counted.sound sound
      simp only [soundMemory, Bool.and_eq_true, beq_iff_eq, List.all_eq_true] at still
      obtain ⟨force, lines⟩ := still
      simpa [force] using lines
    simp only [quiet, Bool.not_false, Bool.or_true, if_true]
    exact ⟨counted, rfl⟩

/-- One good read after another. -/
theorem GoodRead.next {r : State × Bool} {h off k : Nat} (good : GoodRead s r) (sound : soundMemory s = true) :
    GoodRead s (if r.2 then r else readLines r.1 h off k) := by
  obtain ⟨counted, none_⟩ := good
  obtain ⟨counted', none_'⟩ := readLines_good (h := h) (off := off) (k := k) (counted.sound sound)
  rw [none_, if_neg Bool.false_ne_true]
  exact ⟨counted.trans counted', none_'⟩

theorem mergeLine_good {h off k : Nat} (sound : soundMemory s = true) : GoodRead s (mergeLine s h off k) := by
  unfold mergeLine
  split
  · exact .start s
  · extract_lets one a
    have first : GoodRead s a := by
      show GoodRead s (if _ then _ else _)
      split
      · exact (GoodRead.start s).next sound
      · exact .start s
    split
    · exact first.next sound
    · exact first

/-! ### What a command computes reads the buffers alone -/

theorem winOf_congr (same : u.bufs = s.bufs) (k : Nat) : winOf u p k = winOf s p k := by
  have read (h off n : Nat) : bufRead u h off n = bufRead s h off n := by
    rw [bufRead, bufRead, bufOf, bufOf, same]
  simp only [winOf, samplePx, read]

theorem iuPlanes_congr (same : u.bufs = s.bufs) : iuPlanes u t l p aux = iuPlanes s t l p aux := by
  simp only [iuPlanes, iuPx, resamplePx, warpPx, jitterPx, colourPx, pixelIn, blurPx, blendPx, winOf_congr same]

/-! ### The work on a block that the unit takes (R363, R364) -/

/-- The reads of a command's pictures, the second where the first is good, are both good. -/
theorem iuReads_good (sound : soundMemory s = true) :
    (if (parseIu l).func = 5 ∧ (!(readLines s (parseIu l).src 0 (planesBytes p.cont p.sizes)).2) = true then
      readLines (readLines s (parseIu l).src 0 (planesBytes p.cont p.sizes)).1 (second t aux).buf 0 (planesBytes p.cont p.sizes)
    else ((readLines s (parseIu l).src 0 (planesBytes p.cont p.sizes)).1,
      (readLines s (parseIu l).src 0 (planesBytes p.cont p.sizes)).2)) = (iuReadsDone s t l p aux, false) ∧
    Counted s (iuReadsDone s t l p aux) := by
  have first : GoodRead s (readLines s (parseIu l).src 0 (planesBytes p.cont p.sizes)) := readLines_good sound
  rw [first.2, iuReadsDone]
  by_cases blend : (parseIu l).func = 5
  · have next : GoodRead _ (readLines (readLines s (parseIu l).src 0 (planesBytes p.cont p.sizes)).1 (second t aux).buf 0
      (planesBytes p.cont p.sizes)) := readLines_good (first.1.sound sound)
    simp only [blend, Bool.not_false, and_self, if_true]
    exact ⟨next.eq, first.1.trans next.1⟩
  · simp only [blend, false_and, if_false]
    exact ⟨trivial, first.1⟩

section
variable (thread : threadOf s t.th = some t) (block : l = tsRead t blk 64) (first : iuBefore s t.th seq = false)

include thread block first

theorem iuRun_refused (refused : iuOk s t l = false) : iuRun s t.th blk seq = .done s 5 0 := by
  subst block
  simp only [iuRun, thread, first, refused, Bool.not_false, Bool.false_eq_true, if_false, if_true]

/-- Sound pictures that stand whole, and a DST that can be written: the output is written. -/
theorem iuRun_done (record : p = ⟨tsRead t (parseIu l).srec 32, (parseIu l).src⟩)
    (auxiliary : aux = tsRead t (parseIu l).aux (auxLen (parseIu l).func)) (ok : iuOk s t l = true)
    (sound : soundMemory s = true)
    (reads : ∀ h, h ∈ iuReads t (parseIu l) aux → bufOutcome s h = (0, 0) ∧
      bufReady s (thDie t.th) h 0 (((bufOf s h).map bufSize).getD 0) = true)
    (open_ : bufOpen s (thDie t.th) (parseIu l).dst 0 (((bufOf s (parseIu l).dst).map bufSize).getD 0) = true) :
    iuRun s t.th blk seq = .done
      (iuWrite (mergeLine (iuReadsDone s t l p aux) (parseIu l).dst 0 (iuPlanes s t l p aux).length).1 t l p aux) 0 0 := by
  have ready : ((iuReads t (parseIu l) aux).any fun h =>
      !bufReady s (thDie t.th) h 0 (((bufOf s h).map bufSize).getD 0)) = false :=
    List.any_eq_false.2 fun h hh => by simp [(reads h hh).2]
  have marked : ((iuReads t (parseIu l) aux).any fun h => bufOutcome s h = (1, 1)) = false :=
    List.any_eq_false.2 fun h hh => by simp [(reads h hh).1]
  have ended : ((iuReads t (parseIu l) aux).find? fun h => (bufOutcome s h).1 ≠ 0 && bufOutcome s h ≠ (1, 1)) = none :=
    List.find?_eq_none.2 fun h hh => by simp [(reads h hh).1]
  obtain ⟨both, counted⟩ := iuReads_good (t := t) (l := l) (p := p) (aux := aux) sound
  have planes : iuPlanes (iuReadsDone s t l p aux) t l p aux = iuPlanes s t l p aux := iuPlanes_congr counted.bufs
  have merged : GoodRead _ (mergeLine (iuReadsDone s t l p aux) (parseIu l).dst 0 (iuPlanes s t l p aux).length) :=
    mergeLine_good (counted.sound sound)
  simp only [iuRun, thread, first, ← block, ← record, ← auxiliary, ok, ready, open_, marked, ended, both, planes, merged.2,
    Bool.not_true, Bool.or_self, Bool.false_eq_true, Option.isSome_none, if_false]

end

/-! ### What stands after the output is written (R364) -/

theorem length_sliceB (l : List Byte) (o n : Nat) : (sliceB l o n).length = n := by
  simp [sliceB]

theorem length_outRecord (o : OutShape) (copy : PicIn) (dst : Nat) : (outRecord o copy dst).length = 32 := by
  simp only [outRecord, List.length_append, length_toLe, length_sliceB, List.length_cons, List.length_nil]

/-- A run of writes reads back. -/
theorem lookAll_putAll {α : Type} [DecidableEq α] {d : Nat → α} {m : Sparse α} {k : Nat} {l : List α} (h : wf d m = true) :
    lookAll d (putAll d k l m) k l.length = l := by
  refine List.ext_getElem length_lookAll fun i hi hl => ?_
  simp only [lookAll, List.getElem_map, List.getElem_range]
  exact look_putAll_inside h (List.getElem?_eq_getElem hl)

theorem bufOf_setBuf_self {h : Nat} {b : Buf} {f : Buf → Buf} (found : bufOf s h = some b)
    (name : ∀ y, (f y).handle = y.handle) : bufOf (setBuf s h f) h = some (f b) := by
  simp only [bufOf, setBuf, updIf] at found ⊢
  revert found
  generalize s.bufs = l
  intro found
  induction l with
  | nil => cases found
  | cons y l ih =>
    by_cases same : y.handle = h
    · simp_all
    · simp_all

/-- Bytes written into a buffer that stands read back. -/
theorem bufRead_bufWrite {h : Nat} {b : Buf} {data : List Byte} (found : bufOf s h = some b) (canon : wf zero b.data = true) :
    bufRead (bufWrite s h 0 data) h 0 data.length = data := by
  have counted : bufOf (countLines s b (fun _ => true) 0 data.length) h = some b := by
    rw [bufOf, counted_countLines.bufs, ← bufOf, found]
  have stands : bufOf (bufWrite s h 0 data) h = some { b with
      data := putAll zero 0 data b.data
      dirty := b.dirty ++ (granules 0 data.length).filter fun g => !b.dirty.contains g } := by
    simp only [bufWrite, found]
    exact bufOf_setBuf_self (f := fun b => { b with
      data := putAll zero 0 data b.data
      dirty := b.dirty ++ (granules 0 data.length).filter fun g => !b.dirty.contains g }) counted fun _ => rfl
  simp only [bufRead, stands]
  exact lookAll_putAll canon

theorem tileEvent_bufs (th : ThreadRef) (o k : Nat) : (tileEvent s th o k).bufs = s.bufs := by
  unfold tileEvent
  split <;> rfl

theorem tileEvent_threads (th : ThreadRef) (o k : Nat) : (tileEvent s th o k).threads = s.threads := by
  unfold tileEvent
  split <;> rfl

theorem bufWrite_threads (h off : Nat) (data : List Byte) : (bufWrite s h off data).threads = s.threads := by
  unfold bufWrite
  split
  · rename_i b _
    have counted : Counted s (countLines s b (fun _ => true) off data.length) := counted_countLines
    rw [setBuf_threads, counted.regs]
  · rfl

theorem bufRead_iuWrite {b : Buf} (found : bufOf s (parseIu l).dst = some b) (canon : wf zero b.data = true) :
    bufRead (iuWrite s t l p aux) (parseIu l).dst 0 (iuPlanes s t l p aux).length = iuPlanes s t l p aux := by
  refine Eq.trans ?_ (bufRead_bufWrite found canon)
  rw [bufRead, bufOf, iuWrite, tileEvent_bufs]
  rfl

theorem threadOf_iuWrite (thread : threadOf s t.th = some t) :
    ∃ r, threadOf (iuWrite s t l p aux) t.th = some (tsWrite t (parseIu l).drec r) ∧ r.length = 32 := by
  have still : threadOf (bufWrite s (parseIu l).dst 0 (iuPlanes s t l p aux)) t.th = some t := by
    rw [threadOf, bufWrite_threads]
    exact thread
  generalize written : outRecord (outShape (parseIu l) p aux)
    (if (parseIu l).func = 5 && !p.damaged && (second t aux).damaged then second t aux else p) (parseIu l).dst = r
  refine ⟨r, ?_, written ▸ length_outRecord ..⟩
  rw [threadOf, iuWrite, tileEvent_threads, written]
  exact threadOf_setThread_self still fun _ => rfl

/-- Settles O20: the queueing of each function, the unit's run of a block that it takes and of one that it refuses, and what
stands in DST and at DREC after it. -/
theorem imageUnitFunctions : Obligations.ImageUnitFunctions := by
  unfold Obligations.ImageUnitFunctions
  refine ⟨fun x s t hx func => congrArg Host.Outcome.next (iuIssue_queues hx func),
    fun x s t hx func => congrArg Host.Outcome.next (iuIssue_queues hx func),
    fun x s t hx func => congrArg Host.Outcome.next (iuIssue_queues hx func),
    fun x s t hx func => congrArg Host.Outcome.next (iuIssue_queues hx func),
    fun x s t hx func => congrArg Host.Outcome.next (iuIssue_queues hx func), ?_⟩
  intro s t n blk seq l p aux turn block record auxiliary first
  have ⟨_, thread, _⟩ := turn
  refine ⟨fun refused => ?_, fun ok sound reads open_ v written => ?_⟩
  · exact (execTicketComplete_iu turn).trans (by rw [iuRun_refused thread block first refused]; rfl)
  · obtain ⟨-, read⟩ := iuReads_good (t := t) (l := l) (p := p) (aux := aux) sound
    have merged : Counted s v := by
      rw [written]
      exact read.trans (mergeLine_good (read.sound sound)).1
    refine ⟨?_, merged.regs, fun u found canon => ?_, ?_⟩
    · have done := iuRun_done thread block first record auxiliary ok sound reads open_
      rw [← written] at done
      exact (execTicketComplete_iu turn).trans (by rw [done]; rfl)
    · rw [← iuPlanes_congr (t := t) (l := l) (p := p) (aux := aux) merged.bufs]
      refine bufRead_iuWrite (b := u) ?_ canon
      rw [bufOf, merged.bufs]
      exact found
    · have still : threadOf v t.th = some t := by
        rw [merged.regs]
        exact thread
      obtain ⟨r, stands, length⟩ := threadOf_iuWrite (l := l) (p := p) (aux := aux) still
      exact ⟨_, r, stands, rfl, length⟩

end Sys2Proof.Machine
